-- ==== Sys2Proof/Word.lean ====
section
/-!
DEFINITION. The word types of the module and their plainest arithmetic: bytes, 64-bit register words, and the
fields of a word, numbered as R8 numbers bits (bit 0 least significant).
-/
namespace Sys2Proof

/-- One byte of memory or of a descriptor. -/
abbrev Byte := BitVec 8

/-- One register of BAR0: 64 bits (R42, R514). -/
abbrev Word := BitVec 64

/-- Bits `hi:lo` of a word, as a number (R8). -/
def Word.fld (w : Word) (hi lo : Nat) : Nat := (w.toNat >>> lo) % 2 ^ (hi + 1 - lo)

/-- One bit of a word. -/
def Word.bit (w : Word) (i : Nat) : Bool := w.toNat.testBit i

/-- The word with bits `hi:lo` replaced by the low bits of `v`. -/
def Word.put (w : Word) (hi lo v : Nat) : Word :=
  let n := 2 ^ (hi + 1 - lo)
  BitVec.ofNat 64 (w.toNat - (w.fld hi lo) <<< lo + (v % n) <<< lo)

/-- A word with the one bits of `mask` taken from `new` and the others from `old`. -/
def Word.mix (mask new old : Word) : Word := (new &&& mask) ||| (old &&& ~~~mask)

/-- A mask with ones in bits `hi:lo`. -/
def Word.ones (hi lo : Nat) : Word := BitVec.ofNat 64 ((2 ^ (hi + 1 - lo) - 1) <<< lo)

/-- Bits `hi:lo` of a number. -/
def natFld (n hi lo : Nat) : Nat := (n >>> lo) % 2 ^ (hi + 1 - lo)

/-- Sign extension of the low `w` bits of `n` to an integer. -/
def signed (w n : Nat) : Int :=
  let m := n % 2 ^ w
  if m < 2 ^ (w - 1) then (m : Int) else (m : Int) - (2 ^ w : Nat)

/-- The low `w` bits of an integer, as a number (two's complement). -/
def unsigned (w : Nat) (i : Int) : Nat := (i % (2 ^ w : Nat)).toNat

/-- Ceiling division. -/
def cdiv (a b : Nat) : Nat := (a + b - 1) / b

/-- Rounding up to a multiple. -/
def roundUp (a b : Nat) : Nat := cdiv a b * b

end Sys2Proof
end

