-- ==== Sys2Proof/Machine/Fp.lean ====
section
/-!
DEFINITION. Number formats, conversion, rounding and comparison (02_number_formats.md). A value inside a unit is
an exact dyadic number, an infinity or a NaN; every code of a format decodes exactly, and every rounding is one
function over a format's grid.
-/
namespace Sys2Proof.Machine

/-- The element formats of Table 2.1 without their block scale. -/
inductive Fmt where
  | f8n | f8e | bf16 | fp16 | fp32
  deriving DecidableEq, Repr

/-- A value in flight: NaN (with whether it came from a NaN input, R64), an infinity, or `(-1)^neg * m * 2^e`. -/
inductive FV where
  | nan (propagated : Bool)
  | inf (neg : Bool)
  | fin (neg : Bool) (m : Nat) (e : Int)
  deriving DecidableEq, Repr, Inhabited

/-- Mantissa field bits of a format (R46, R48). -/
def Fmt.mant : Fmt → Nat
  | .f8n => 3 | .f8e => 2 | .bf16 => 7 | .fp16 => 10 | .fp32 => 23

/-- Exponent field bits of a format (R46, R48). -/
def Fmt.expBits : Fmt → Nat
  | .f8n => 4 | .f8e => 5 | .bf16 => 8 | .fp16 => 5 | .fp32 => 8

/-- Exponent of the smallest subnormal of a format (Table 2.4; R47 for F8n). -/
def Fmt.unit : Fmt → Int
  | .f8n => -9 | .f8e => -16 | .bf16 => -133 | .fp16 => -24 | .fp32 => -149

/-- Exponent of the spacing in the top binade of a format. -/
def Fmt.topUnit : Fmt → Int
  | .f8n => 5 | .f8e => 13 | .bf16 => 120 | .fp16 => 5 | .fp32 => 104

/-- The largest finite magnitude of a format in units of its top binade's spacing (R47, Table 2.4). -/
def Fmt.topMant : Fmt → Nat
  | .f8n => 14 | .f8e => 7 | .bf16 => 255 | .fp16 => 2047 | .fp32 => 16777215

/-- Bytes of an element (Table 2.1). -/
def Fmt.size : Fmt → Nat
  | .f8n => 1 | .f8e => 1 | .bf16 => 2 | .fp16 => 2 | .fp32 => 4

/-- Number of bits of a code. -/
def Fmt.width (f : Fmt) : Nat := 8 * f.size

/-- The canonical NaN code of a format (R49, Table 2.4). -/
def Fmt.nanCode : Fmt → Nat
  | .f8n => 0x80 | .f8e => 0x7E | .bf16 => 0x7FC0 | .fp16 => 0x7E00 | .fp32 => 0x7FC00000

/-- Signed zero. -/
def FV.zero (neg : Bool := false) : FV := .fin neg 0 0

/-- Is the value a NaN. -/
def FV.isNan : FV → Bool
  | .nan _ => true
  | _ => false

/-- Is the value finite and different from zero. -/
def FV.isFinNZ : FV → Bool
  | .fin _ m _ => m ≠ 0
  | _ => false

/-- Is the value finite. -/
def FV.isFinite : FV → Bool
  | .fin .. => true
  | _ => false

/-- Is the value a zero of either sign. -/
def FV.isZero : FV → Bool
  | .fin _ m _ => m = 0
  | _ => false

/-- The sign of a value; a NaN has none (R49). -/
def FV.neg? : FV → Bool
  | .nan _ => false
  | .inf s => s
  | .fin s _ _ => s

/-- The exact value of a code (R46–R48, R50). Code 0x80 is the one NaN of F8n, 0x7F and 0xFF read as ±448 (R47). -/
def Fmt.decode (f : Fmt) (code : Nat) : FV :=
  let p := f.mant
  let m := code % 2 ^ p
  let x := (code >>> p) % 2 ^ f.expBits
  let s := (code >>> (f.width - 1)) % 2 = 1
  match f with
  | .f8n =>
    if code % 256 = 0x80 then .nan true
    else if x = 0 then .fin (s && m ≠ 0) m (-9)
    else if x = 15 && m = 7 then .fin s 14 5
    else .fin s (8 + m) ((x : Int) - 10)
  | _ =>
    if x = 2 ^ f.expBits - 1 then (if m = 0 then .inf s else .nan true)
    else if x = 0 then .fin s m f.unit
    else .fin s (2 ^ p + m) (f.unit + (x : Int) - 1)

/-- Scaling by a power of two is exact (R52, R70). -/
def FV.scale (v : FV) (k : Int) : FV :=
  match v with
  | .fin s m e => .fin s m (e + k)
  | v => v

/-- Exact quotient by a power of two with its remainder: `m * 2^e = (q + r/2^d) * 2^t`. -/
def splitAt (m : Nat) (e t : Int) : Nat × Nat × Nat :=
  if t ≤ e then (m <<< (e - t).toNat, 0, 0)
  else
    let d := (t - e).toNat
    (m >>> d, m % 2 ^ d, d)

/-- How a magnitude is rounded to the grid: to nearest even, or stochastically with a drawn 32-bit word (R56, R58). -/
inductive Rounding where
  | nearestEven
  | stochastic (r : Nat)
  deriving DecidableEq, Repr

/-- Exponent of the grid spacing of format `f` at the magnitude `m * 2^e` (`m ≠ 0`); the grid continues past the
largest finite value with the spacing of the top binade (R56). -/
def Fmt.grid (f : Fmt) (m : Nat) (e : Int) : Int :=
  min f.topUnit (max f.unit ((Nat.log2 m : Int) + e - (f.mant : Int)))

/-- The magnitude `m * 2^e` rounded to the grid of `f`: mantissa and exponent of the grid value (R56, R58). -/
def Fmt.roundMag (f : Fmt) (rd : Rounding) (m : Nat) (e : Int) : Nat × Int :=
  let t := f.grid m e
  let (q, r, d) := splitAt m e t
  let up : Bool :=
    if r = 0 then false
    else
      match rd with
      | .nearestEven => 2 ^ d < 2 * r || (2 ^ d = 2 * r && q % 2 = 1)
      | .stochastic w => 2 ^ 24 ≤ (r * 2 ^ 24) / 2 ^ d + (w >>> 8) % 2 ^ 24
  (if up then q + 1 else q, t)

/-- Does the grid value `m * 2^e` exceed the largest finite value of `f` (R56). For FP32 the grid gives the threshold
(2 - 2^-24) * 2^127, and Tables 2.7 and 3.4 print twice that (DESIGN CHOICE, log entry 151). -/
def Fmt.overflows (f : Fmt) (m : Nat) (e : Int) : Bool :=
  e = f.topUnit && f.topMant < m

/-- A value rounded to `f` and kept as a value; an overflow gives the infinity of its sign, or NaN for F8n. -/
def Fmt.round (f : Fmt) (rd : Rounding) (v : FV) : FV :=
  match v with
  | .fin s m e =>
    if m = 0 then .fin s 0 0
    else
      let (q, t) := f.roundMag rd m e
      if f.overflows q t then (match f with | .f8n => .nan false | _ => .inf s)
      else if q = 0 then .fin s 0 0 else .fin s q t
  | v => v

/-- The code of a grid value of `f` with sign `s`. -/
def Fmt.encodeGrid (f : Fmt) (s : Bool) (q : Nat) (t : Int) : Nat :=
  let sb := if s then 2 ^ (f.width - 1) else 0
  if q = 0 then (match f with | .f8n => 0 | _ => sb)
  else
    let ex := (Nat.log2 q : Int) + t
    let lowest := f.unit + (f.mant : Int)
    if ex < lowest then sb + (q <<< (t - f.unit).toNat)
    else
      let m := if Nat.log2 q ≤ f.mant then q <<< (f.mant - Nat.log2 q) else q >>> (Nat.log2 q - f.mant)
      sb + (((ex - lowest).toNat + 1) <<< f.mant) + (m - 2 ^ f.mant)

/-- The code of the largest finite value of `f` with sign `s` (R47, Table 2.4). -/
def Fmt.maxCode (f : Fmt) (s : Bool) : Nat := f.encodeGrid s f.topMant f.topUnit

/-- The code of an infinity, where `f` has one; F8n writes NaN in its place (Table 2.8). -/
def Fmt.infCode (f : Fmt) (s : Bool) : Nat :=
  match f with
  | .f8n => f.nanCode
  | _ => (if s then 2 ^ (f.width - 1) else 0) + ((2 ^ f.expBits - 1) <<< f.mant)

/-- Conversion of a value to a code of `f` (R55–R58, Table 2.8). -/
def Fmt.convert (f : Fmt) (sat : Bool) (rd : Rounding) (v : FV) : Nat :=
  match v with
  | .nan _ => f.nanCode
  | .inf s => if sat then f.maxCode s else f.infCode s
  | .fin s m e =>
    if m = 0 then f.encodeGrid s 0 0
    else
      let (q, t) := f.roundMag rd m e
      if f.overflows q t then (if sat then f.maxCode s else f.infCode s)
      else f.encodeGrid s q t

/-- Does a code of `f` stand for a non-finite value (R71). -/
def Fmt.nonFinite (f : Fmt) (code : Nat) : Bool := !(f.decode code).isFinite

/-! ### Exact arithmetic -/

/-- The integer mantissa of a finite value with its sign. -/
def signedMant (s : Bool) (m : Nat) : Int := if s then -(m : Int) else (m : Int)

/-- The exact sum; infinities of opposite sign give a generated NaN (R64), a zero sum of unlike signs is +0. -/
def FV.add (a b : FV) : FV :=
  match a, b with
  | .nan p, .nan q => .nan (p || q)
  | .nan p, _ => .nan p
  | _, .nan q => .nan q
  | .inf s, .inf t => if s = t then .inf s else .nan false
  | .inf s, _ => .inf s
  | _, .inf t => .inf t
  | .fin s m e, .fin t n f =>
    let g := min e f
    let x := signedMant s (m <<< (e - g).toNat) + signedMant t (n <<< (f - g).toNat)
    if x = 0 then .fin (m = 0 && n = 0 && s && t) 0 0
    else .fin (x < 0) x.natAbs g

/-- The exact product; zero times infinity gives a generated NaN (R64). -/
def FV.mul (a b : FV) : FV :=
  match a, b with
  | .nan p, .nan q => .nan (p || q)
  | .nan p, _ => .nan p
  | _, .nan q => .nan q
  | .inf s, .inf t => .inf (s != t)
  | .inf s, .fin t n _ => if n = 0 then .nan false else .inf (s != t)
  | .fin s m _, .inf t => if m = 0 then .nan false else .inf (s != t)
  | .fin s m e, .fin t n f => .fin (s != t) (m * n) (e + f)

/-- The value with its sign turned. -/
def FV.negate : FV → FV
  | .nan p => .nan p
  | .inf s => .inf (!s)
  | .fin s m e => .fin (!s) m e

/-- The magnitude of a value. -/
def FV.abs : FV → FV
  | .nan p => .nan p
  | .inf _ => .inf false
  | .fin _ m e => .fin false m e

/-- The exact difference. -/
def FV.sub (a b : FV) : FV := a.add b.negate

/-- Order of two numbers as -1, 0, 1; zeros of either sign are equal (R62). Only meaningful when neither is NaN. -/
def FV.cmp (a b : FV) : Int :=
  match a, b with
  | .nan _, _ => 0
  | _, .nan _ => 0
  | .inf s, .inf t => if s = t then 0 else if s then -1 else 1
  | .inf s, _ => if s then -1 else 1
  | _, .inf t => if t then 1 else -1
  | .fin s m e, .fin t n f =>
    let g := min e f
    let x := signedMant s (m <<< (e - g).toNat) - signedMant t (n <<< (f - g).toNat)
    if x < 0 then -1 else if x = 0 then 0 else 1

/-- `a < b`, false when either is NaN (R62). -/
def FV.lt (a b : FV) : Bool := !a.isNan && !b.isNan && a.cmp b < 0

/-- `a = b` as numbers, false when either is NaN (R62). -/
def FV.eqv (a b : FV) : Bool := !a.isNan && !b.isNan && a.cmp b = 0

/-- Maximum (Table 2.9). -/
def FV.max (a b : FV) : FV :=
  match a, b with
  | .nan p, .nan q => .nan (p || q)
  | .nan _, y => y
  | x, .nan _ => x
  | x, y => if x.isZero && y.isZero then (if x.neg? then y else x) else if x.cmp y < 0 then y else x

/-- Minimum (Table 2.9). -/
def FV.min (a b : FV) : FV :=
  match a, b with
  | .nan p, .nan q => .nan (p || q)
  | .nan _, y => y
  | x, .nan _ => x
  | x, y => if x.isZero && y.isZero then (if x.neg? then x else y) else if y.cmp x < 0 then y else x

/-- Rounding to FP32, to nearest even. -/
def FV.r32 (v : FV) : FV := Fmt.fp32.round .nearestEven v

/-- FP32 sum, product and difference, each rounded once. -/
def FV.add32 (a b : FV) : FV := (a.add b).r32
/-- FP32 product. -/
def FV.mul32 (a b : FV) : FV := (a.mul b).r32
/-- FP32 difference. -/
def FV.sub32 (a b : FV) : FV := (a.sub b).r32

/-- FP32 quotient, rounded once: a quotient of enough bits with a sticky bit is rounded to nearest even. -/
def FV.div32 (a b : FV) : FV :=
  match a, b with
  | .nan p, .nan q => .nan (p || q)
  | .nan p, _ => .nan p
  | _, .nan q => .nan q
  | .inf _, .inf _ => .nan false
  | .inf s, .fin t _ _ => .inf (s != t)
  | .fin s _ _, .inf t => .fin (s != t) 0 0
  | .fin s m e, .fin t n f =>
    if n = 0 then (if m = 0 then .nan false else .inf (s != t))
    else if m = 0 then .fin (s != t) 0 0
    else
      let k := 64 + Nat.log2 n
      let q := (m <<< k) / n
      let r := (m <<< k) % n
      FV.r32 (.fin (s != t) (2 * q + (if r = 0 then 0 else 1)) (e - (k : Int) - f - 1))

/-- The integer square root, by the bits of the root from the highest down. -/
def isqrtAux (n : Nat) : Nat → Nat → Nat
  | 0, r => r
  | k + 1, r =>
    let c := r + 2 ^ k
    isqrtAux n k (if c * c ≤ n then c else r)

/-- The integer square root of `n`, rounded down. -/
def isqrt (n : Nat) : Nat := isqrtAux n (Nat.log2 n / 2 + 1) 0

/-- FP32 square root, rounded once; a negative number other than -0 gives a generated NaN. -/
def FV.sqrt32 (a : FV) : FV :=
  match a with
  | .nan p => .nan p
  | .inf s => if s then .nan false else .inf false
  | .fin s m e =>
    if m = 0 then .fin s 0 0
    else if s then .nan false
    else
      let k := 64 + (if e % 2 = 0 then 0 else 1)
      let n := m <<< k
      let q := isqrt n
      FV.r32 (.fin false (2 * q + (if q * q = n then 0 else 1)) ((e - (k : Int)) / 2 - 1))

/-- The code of an FP32 value in 32 bits. -/
def FV.bits32 (v : FV) : Nat := Fmt.fp32.convert false .nearestEven v

/-- The FP32 value of 32 bits. -/
def FV.of32 (n : Nat) : FV := Fmt.fp32.decode n

/-! ### Philox-4x32, ten rounds (R58) -/

/-- One round of Philox-4x32 on counter `c` with key `k`. -/
def philoxRound (c : Nat × Nat × Nat × Nat) (k : Nat × Nat) : Nat × Nat × Nat × Nat :=
  let (c0, c1, c2, c3) := c
  let p0 := 0xD2511F53 * c0
  let p1 := 0xCD9E8D57 * c2
  let h0 := p0 / 2 ^ 32
  let l0 := p0 % 2 ^ 32
  let h1 := p1 / 2 ^ 32
  let l1 := p1 % 2 ^ 32
  ((h1 ^^^ c1) ^^^ k.1, l1, (h0 ^^^ c3) ^^^ k.2, l0)

/-- `n` rounds of Philox-4x32, the key bumped between them. -/
def philoxRounds : Nat → (Nat × Nat × Nat × Nat) → Nat × Nat → Nat × Nat × Nat × Nat
  | 0, c, _ => c
  | n + 1, c, k => philoxRounds n (philoxRound c k) ((k.1 + 0x9E3779B9) % 2 ^ 32, (k.2 + 0xBB67AE85) % 2 ^ 32)

/-- The published Philox-4x32 generator with 10 rounds. -/
def philox4x32_10 (c : Nat × Nat × Nat × Nat) (k : Nat × Nat) : Nat × Nat × Nat × Nat := philoxRounds 10 c k

/-- Word `i` of a quadruple. -/
def quad (q : Nat × Nat × Nat × Nat) (i : Nat) : Nat :=
  match i % 4 with
  | 0 => q.1
  | 1 => q.2.1
  | 2 => q.2.2.1
  | _ => q.2.2.2

/-- The random word of element `e` of tensor `tensorId` under a stream's captured key and counter (R58). -/
def srWord (key ctr tensorId e : Nat) : Nat :=
  let lo (n : Nat) := n % 2 ^ 32
  let hi (n : Nat) := n / 2 ^ 32 % 2 ^ 32
  quad (philox4x32_10 (lo (e / 4), hi (e / 4), tensorId, lo ctr) (lo key, (hi key) ^^^ (hi ctr))) e

/-! ### MX block scales (R51–R54) -/

/-- The format's largest finite magnitude as a value. -/
def Fmt.maxFV (f : Fmt) : FV := .fin false f.topMant f.topUnit

/-- The value of an E8M0 scale byte as a power of two, absent for the NaN scale 0xFF (R51). -/
def mxScale (s : Nat) : Option Int := if s = 0xFF then none else some ((s : Int) - 127)

/-- Applying a block's scale to a loaded element; a NaN scale is a generated NaN (R52, R64). -/
def mxApply (scale : Nat) (v : FV) : FV :=
  match mxScale scale with
  | some k => v.scale k
  | none => .nan v.isNan

/-- Is `m * 2^e / 2^s ≤ F` for the largest finite magnitude `F` of `f`. -/
def Fmt.fits (f : Fmt) (a : FV) (s : Int) : Bool := (a.scale (-s)).cmp f.maxFV ≤ 0

/-- The smallest scale exponent of a block whose largest finite magnitude is `a`, clamped (R53). The magnitude's
leading bit fixes it to one of two neighbours. -/
def Fmt.scaleExp (f : Fmt) (a : FV) : Int :=
  match a with
  | .fin _ m e =>
    let g := (Nat.log2 m : Int) + e - ((Nat.log2 f.topMant : Int) + f.topUnit)
    let s := if f.fits a g then g else g + 1
    Max.max (-127) (Min.min 127 s)
  | _ => 0

/-- The scale byte of a block of source values (R53, R54). -/
def Fmt.blockScale (f : Fmt) (vs : List FV) : Nat :=
  let a := (vs.filter FV.isFinNZ).foldl (fun (a : FV) v => if a.cmp v.abs < 0 then v.abs else a) FV.zero
  if a.isZero then 0x7F else (f.scaleExp a + 127).toNat

end Sys2Proof.Machine
end

