-- ==== Sys2Proof/Machine/RegMap.lean ====
section
/-!
DEFINITION. The set-up register map (19_setup_register_map.md, Tables 19.1 and 19.2): where each register lies in
BAR0, which of its bits are RW, what it holds after reset, which staged values are reserved encodings, and which
bits of the status registers are cleared by writing 1.
-/
namespace Sys2Proof.Machine

/-- The register blocks of Table 19.1, one TLR block per tiller. -/
inductive Block where
  | glb | clk | pwr | ring | atu | mem | fab
  | tlr (t : Fin 192)
  | spr | fll | gln | lnk | cxd | mon | ash | kln | otp | mnt | phx
  deriving DecidableEq, Repr

/-- The base of a block (Table 19.1). -/
def Block.base : Block → Nat
  | .glb => 0x0000000 | .clk => 0x0100000 | .pwr => 0x0200000 | .ring => 0x0300000 | .atu => 0x0400000
  | .mem => 0x0500000 | .fab => 0x0600000 | .tlr t => 0x0700000 + 0x1000 * t.val | .spr => 0x0800000
  | .fll => 0x0900000 | .gln => 0x0A00000 | .lnk => 0x0B00000 | .cxd => 0x0C00000 | .mon => 0x0D00000
  | .ash => 0x0E00000 | .kln => 0x0F00000 | .otp => 0x1000000 | .mnt => 0x1100000 | .phx => 0x1200000

/-- The block in which a BAR0 offset lies, and the offset from its base (R512). -/
def blockOf (off : Nat) : Option (Block × Nat) :=
  let o := off % 0x100000
  match off / 0x100000 with
  | 0 => some (.glb, o) | 1 => some (.clk, o) | 2 => some (.pwr, o) | 3 => some (.ring, o) | 4 => some (.atu, o)
  | 5 => some (.mem, o) | 6 => some (.fab, o)
  | 7 => if h : o / 0x1000 < 192 then some (.tlr ⟨o / 0x1000, h⟩, o % 0x1000) else none
  | 8 => some (.spr, o) | 9 => some (.fll, o) | 10 => some (.gln, o) | 11 => some (.lnk, o)
  | 12 => some (.cxd, o) | 13 => some (.mon, o) | 14 => some (.ash, o) | 15 => some (.kln, o)
  | 16 => some (.otp, o) | 17 => some (.mnt, o) | 18 => some (.phx, o)
  | _ => none

/-- What the model knows of a register with RW fields: the RW bits, the reset value, and which values hold a
reserved encoding. -/
structure RwInfo where
  mask : Word
  reset : Word
  reserved : Word → Bool := fun _ => false

/-- `lo ≤ field ≤ hi` of bits `h:l`. -/
def fldIn (h l lo hi : Nat) (w : Word) : Bool := lo ≤ w.fld h l && w.fld h l ≤ hi

/-- RW registers of the RING block (Table 11.19). -/
def ringRw (o : Nat) : Option RwInfo :=
  if 0x800 ≤ o && o < 0xA00 then
    match o % 0x40 with
    | 0x00 => some ⟨Word.ones 51 12, 0, fun _ => false⟩
    | 0x08 => some ⟨Word.ones 47 16 ||| Word.ones 12 8 ||| 1, 0x600, fun w => !fldIn 12 8 6 16 w⟩
    | _ => none
  else if 0x1000 ≤ o && o < 0x3000 then
    match o % 0x80 with
    | 0x00 => some ⟨Word.ones 51 12, 0, fun _ => false⟩
    | 0x08 => some ⟨Word.ones 63 32 ||| 0xD, 0x0810600300000000, fun w =>
        !(fldIn 63 55 1 256 w && fldIn 54 49 4 32 w && fldIn 48 44 6 16 w && fldIn 33 32 1 3 w)⟩
    | 0x10 => some ⟨Word.ones 31 0, 0, fun _ => false⟩
    | 0x18 => some ⟨Word.ones 51 7 ||| 1, 0, fun _ => false⟩
    | 0x20 => some ⟨Word.ones 51 7, 0, fun _ => false⟩
    | 0x28 => some ⟨Word.ones 51 12, 0, fun _ => false⟩
    | 0x30 => some ⟨Word.ones 35 16 ||| Word.ones 12 8 ||| 1, 0x600, fun w => !fldIn 12 8 6 16 w⟩
    | _ => none
  else none

/-- RW registers of the MEM block (Tables 1.13–1.17). -/
def memRw (o : Nat) : Option RwInfo :=
  if o = 0x000 then some ⟨Word.ones 5 1, 0x2, fun w => w.fld 5 4 = 3⟩
  else if o = 0x010 || o = 0x018 then some ⟨Word.ones 47 30, 0, fun _ => false⟩
  else if o = 0x020 || o = 0x028 then some ⟨Word.ones 31 0, 0, fun _ => false⟩
  else if o = 0x030 then some ⟨Word.ones 7 4 ||| 3, 0x1, fun w => 8 < w.fld 7 4 || w.fld 1 0 = 3⟩
  else if 0x040 ≤ o && o ≤ 0x078 then some ⟨Word.ones 63 21 ||| 1, 0, fun _ => false⟩
  else if o = 0x080 then
    some ⟨Word.ones 26 16 ||| Word.ones 8 0, 0, fun w => 1024 < w.fld 26 16 || 256 < w.fld 8 0⟩
  else none

/-- RW registers of the FLL block (Table 8.14). -/
def fllRw (o : Nat) : Option RwInfo :=
  match o with
  | 0x000 => some ⟨Word.ones 4 2, 0, fun w => 2 ≤ w.fld 4 3⟩
  | 0x008 => some ⟨Word.ones 51 15, 0, fun _ => false⟩
  | 0x010 => some ⟨Word.ones 51 17, 0, fun _ => false⟩
  | 0x018 => some ⟨Word.ones 15 0, 0x3E8, fun w => w.fld 15 0 = 0⟩
  | 0x020 => some ⟨Word.ones 51 6, 0, fun _ => false⟩
  | 0x028 => some ⟨Word.ones 31 16 ||| Word.ones 10 8 ||| 1, 0x100, fun w =>
      !fldIn 10 8 1 4 w || (w.bit 0 && w.fld 31 16 = 0)⟩
  | 0x030 => some ⟨Word.ones 31 0, 0x2710, fun w => w.fld 31 0 = 0⟩
  | _ => none

/-- RW registers of the LNK block (Table 12.15). -/
def lnkRw (o : Nat) : Option RwInfo :=
  if 0x100 ≤ o && o < 0x200 then
    if o % 0x20 = 0 then
      some ⟨Word.ones 4 0, 0x2, fun w => 5 ≤ w.fld 3 1 || (w.fld 3 1 = 4 && !w.bit 4)⟩
    else none
  else
    match o with
    | 0x000 => some ⟨Word.ones 47 32 ||| Word.ones 11 3 ||| 1, 0x88B500000CF0, fun w => w.fld 11 9 = w.fld 8 6⟩
    | 0x008 => some ⟨Word.ones 11 0, 0, fun w => 512 ≤ w.fld 11 0⟩
    | 0x010 => some ⟨Word.ones 47 0, 0, fun _ => false⟩
    | 0x018 => some ⟨Word.ones 63 0, 0, fun _ => false⟩
    | 0x020 => some ⟨Word.ones 63 0, 0, fun _ => false⟩
    | 0x028 => some ⟨Word.ones 27 0, 0x0B9A5EA0, fun w => w.fld 15 0 = 0⟩
    | 0x030 => some ⟨Word.ones 63 54 ||| Word.ones 51 6, 0, fun _ => false⟩
    | 0x038 => some ⟨Word.ones 51 13 ||| 1, 0, fun _ => false⟩
    | 0x040 => some ⟨Word.ones 47 16 ||| Word.ones 3 0, 0x07D000140008, fun w =>
        w.fld 31 16 = 0 || !fldIn 3 0 1 8 w⟩
    | 0x048 => some ⟨Word.ones 31 0, 0x186A0, fun w => w.fld 31 0 = 0⟩
    | 0x050 => some ⟨Word.ones 15 0, 0, fun _ => false⟩
    | 0x058 => some ⟨Word.ones 15 8 ||| Word.ones 4 0, 0, fun _ => false⟩
    | _ => none

/-- RW registers of the PHX block (Tables 2.12–2.14). -/
def phxRw (o : Nat) : Option RwInfo :=
  match o with
  | 0x000 => some ⟨Word.ones 3 1, 0, fun _ => false⟩
  | 0x050 => some ⟨Word.ones 31 16 ||| 1, 0x07D00000, fun w => w.fld 31 16 = 0⟩
  | 0x080 => some ⟨Word.ones 12 0, 0, fun _ => false⟩
  | 0x088 => some ⟨Word.ones 63 0, 0, fun _ => false⟩
  | 0x090 => some ⟨Word.ones 63 0, 0, fun _ => false⟩
  | _ => none

/-- RW registers of the MON block (Table 15.12); the reserved sources of Table 15.7. -/
def monRw (o : Nat) : Option RwInfo :=
  if 0x1000 ≤ o && o < 0x2000 then
    match o % 0x40 with
    | 0x00 => some ⟨Word.ones 63 12 ||| 0x10F, 0, fun w =>
        let s := w.fld 3 0
        s = 6 || s = 7 || 13 ≤ s⟩
    | 0x08 => some ⟨Word.ones 63 0, 0, fun _ => false⟩
    | 0x10 => some ⟨Word.ones 63 0, 0, fun _ => false⟩
    | 0x18 => some ⟨Word.ones 63 0, 0, fun _ => false⟩
    | 0x20 => some ⟨Word.ones 47 0, 0, fun _ => false⟩
    | _ => none
  else none

/-- The RW fields of the register at offset `o` of block `b` (Table 19.2 and the chapter of the block). -/
def Block.rw (b : Block) (o : Nat) : Option RwInfo :=
  match b with
  | .glb => if o = 0x018 then some ⟨3, 0x2, fun _ => false⟩ else none
  | .clk => if o = 0x008 || o = 0x010 then some ⟨0x13, 0, fun _ => false⟩ else none
  | .pwr =>
    if o = 0x020 then some ⟨1, 0, fun _ => false⟩
    else if o = 0x028 then
      some ⟨Word.ones 47 16 ||| 1, 0x0AF00BB80001, fun w =>
        !fldIn 31 16 1000 3000 w || w.fld 31 16 ≤ w.fld 47 32⟩
    else none
  | .ring => ringRw o
  | .atu =>
    if o = 0x000 then some ⟨7, 0, fun _ => false⟩
    else if 0x100 ≤ o && o < 0x180 then some ⟨Word.ones 47 16 ||| 1, 0, fun _ => false⟩
    else none
  | .mem => memRw o
  | .fab => if o = 0x000 then some ⟨1, 0, fun _ => false⟩ else none
  | .tlr _ => if o = 0x000 then some ⟨0xF, 0x8, fun w => !fldIn 3 0 1 8 w⟩ else none
  | .spr =>
    if o = 0x000 then some ⟨2, 0x2, fun _ => false⟩
    else if o = 0x008 then some ⟨Word.ones 31 0, 0x2000, fun w => w.fld 31 0 = 0⟩
    else none
  | .fll => fllRw o
  | .gln =>
    if o = 0x000 then some ⟨3, 0, fun _ => false⟩
    else if o = 0x008 then some ⟨Word.ones 31 0, 0x3E8, fun w => w.fld 31 0 = 0⟩
    else if 0x010 ≤ o && o < 0x050 then some ⟨Word.ones 63 6 ||| 1, 0, fun _ => false⟩
    else if o = 0x050 then some ⟨Word.ones 31 0, 0x2710, fun w => w.fld 31 0 = 0⟩
    else if o = 0x058 then some ⟨Word.ones 15 0, 0, fun _ => false⟩
    else none
  | .lnk => lnkRw o
  | .cxd =>
    if o = 0x010 then some ⟨Word.ones 31 0, 0x186A0, fun w => w.fld 31 0 = 0⟩
    else if 0x100 ≤ o && o < 0x180 then some ⟨Word.ones 31 31 ||| Word.ones 19 0, 0, fun _ => false⟩
    else none
  | .mon => monRw o
  | .ash =>
    match o with
    | 0x000 => some ⟨Word.ones 31 16 ||| 1, 0x03E80001, fun _ => false⟩
    | 0x020 => some ⟨Word.ones 31 0, 0xE10, fun w => w.fld 31 0 = 0⟩
    | 0x028 => some ⟨Word.ones 63 0, 0x0010001000400010, fun _ => false⟩
    | 0x030 => some ⟨Word.ones 7 0, 0xF4, fun w => 8 < w.fld 3 0⟩
    | _ => none
  | .kln =>
    match o with
    | 0x000 => some ⟨1, 0, fun _ => false⟩
    | 0x180 => some ⟨Word.ones 63 0, 0, fun _ => false⟩
    | 0x188 => some ⟨Word.ones 31 0, 0, fun _ => false⟩
    | _ => none
  | .otp =>
    match o with
    | 0x000 => some ⟨Word.ones 7 0, 0, fun _ => false⟩
    | 0x008 => some ⟨Word.ones 63 0, 0, fun _ => false⟩
    | _ => none
  | .mnt =>
    match o with
    | 0x000 => some ⟨Word.ones 31 16 ||| 2, 0x27100002, fun w => w.fld 31 16 = 0⟩
    | 0x008 => some ⟨Word.ones 15 12 ||| 7, 0x1007, fun w => !fldIn 15 12 1 10 w⟩
    | _ => none
  | .phx => phxRw o

/-- The RW fields of the register at a BAR0 offset aligned to 8 bytes. -/
def rwReg (off : Nat) : Option RwInfo :=
  if off % 8 ≠ 0 then none
  else
    match blockOf off with
    | some (b, o) => b.rw o
    | none => none

/-- What a register's RW fields read as after a cold reset (Table 19.2). -/
def regReset (off : Nat) : Word :=
  match rwReg off with
  | some i => i.reset
  | none => 0

/-- The offset of a block's status register and its W1C bits (R514). -/
def Block.stat (b : Block) : Nat × Word :=
  match b with
  | .glb => (b.base + 0x0F0, 3)
  | .clk => (b.base + 0x0F0, 3)
  | .pwr => (b.base + 0x0F0, 5)
  | .ring => (b.base + 0x0F0, 3)
  | .atu => (b.base + 0x210, 3)
  | .mem => (b.base + 0x098, 3)
  | .tlr _ => (b.base + 0x010, 1)
  | .fll => (b.base + 0x0F0, 3)
  | .lnk => (b.base + 0x0F0, 3)
  | _ => (b.base + 0x0F0, 1)

/-- The offsets of the RW registers of a block, in increasing order, as COMMIT goes through them. -/
def Block.regs (b : Block) : List Nat :=
  let rel : List Nat :=
    match b with
    | .glb => [0x018]
    | .clk => [0x008, 0x010]
    | .pwr => [0x020, 0x028]
    | .ring =>
      ((List.range 8).map fun k => [0x800 + 0x40 * k, 0x808 + 0x40 * k]).flatten ++
      ((List.range 64).map fun n => (List.range 7).map fun j => 0x1000 + 0x80 * n + 8 * j).flatten
    | .atu => 0x000 :: (List.range 16).map fun n => 0x100 + 8 * n
    | .mem => [0x000, 0x010, 0x018, 0x020, 0x028, 0x030] ++ (List.range 9).map fun n => 0x040 + 8 * n
    | .fab => [0x000]
    | .tlr _ => [0x000]
    | .spr => [0x000, 0x008]
    | .fll => (List.range 7).map fun n => 8 * n
    | .gln => (List.range 12).map fun n => 8 * n
    | .lnk => ((List.range 12).map fun n => 8 * n) ++ (List.range 8).map fun q => 0x100 + 0x20 * q
    | .cxd => 0x010 :: (List.range 16).map fun n => 0x100 + 8 * n
    | .mon => ((List.range 64).map fun s => (List.range 5).map fun j => 0x1000 + 0x40 * s + 8 * j).flatten
    | .ash => [0x000, 0x020, 0x028, 0x030]
    | .kln => [0x000, 0x180, 0x188]
    | .otp => [0x000, 0x008]
    | .mnt => [0x000, 0x008]
    | .phx => [0x000, 0x050, 0x080, 0x088, 0x090]
  rel.map (b.base + ·)

/-! ### Named offsets -/

namespace Reg
def glbCtl : Nat := 0x0000018
def glbStat : Nat := 0x00000F0
def clkHalf (h : Nat) : Nat := 0x0100008 + 8 * h
def clkStat : Nat := 0x01000F0
def clkEpochCnt : Nat := 0x0100100
def clkForceCnt : Nat := 0x0100108
def pwrCtl : Nat := 0x0200020
def pwrCap : Nat := 0x0200028
def pwrStat : Nat := 0x02000F0
def pwrEnergy : Nat := 0x0200100
def pwrCapCnt : Nat := 0x0200108
def ringStat : Nat := 0x03000F0
def ringFetchCnt : Nat := 0x0300100
def ringDispCnt : Nat := 0x0300108
def ringCqHoldCnt : Nat := 0x0300110
def ringNqLostCnt : Nat := 0x0300118
def nqBase (k : Nat) : Nat := 0x0300800 + 0x40 * k
def nqCfg (k : Nat) : Nat := 0x0300808 + 0x40 * k
def ringBase (n : Nat) : Nat := 0x0301000 + 0x80 * n
def ringCfg (n : Nat) : Nat := 0x0301008 + 0x80 * n
def ringSeq (n : Nat) : Nat := 0x0301010 + 0x80 * n
def guardLo (n : Nat) : Nat := 0x0301018 + 0x80 * n
def guardHi (n : Nat) : Nat := 0x0301020 + 0x80 * n
def cqBase (n : Nat) : Nat := 0x0301028 + 0x80 * n
def cqCfg (n : Nat) : Nat := 0x0301030 + 0x80 * n
def atuCtl : Nat := 0x0400000
def atuRoot (n : Nat) : Nat := 0x0400100 + 8 * n
def atuStat : Nat := 0x0400210
def memCtl : Nat := 0x0500000
def poolBase (h : Nat) : Nat := 0x0500010 + 8 * h
def poolSize (h : Nat) : Nat := 0x0500020 + 8 * h
def grCtl : Nat := 0x0500030
def grLock (n : Nat) : Nat := 0x0500040 + 8 * n
def memHdm : Nat := 0x0500080
def memStat : Nat := 0x0500098
def promoCnt : Nat := 0x0500100
def evictCnt : Nat := 0x0500108
def grLockOvf : Nat := 0x0500110
def tlrCtl (t : Nat) : Nat := 0x0700000 + 0x1000 * t
def tlrStat (t : Nat) : Nat := 0x0700010 + 0x1000 * t
def tlrTileCnt (t : Nat) : Nat := 0x0700110 + 0x1000 * t
def tlrRedoCnt (t : Nat) : Nat := 0x0700118 + 0x1000 * t
def sprCtl : Nat := 0x0800000
def sprThr : Nat := 0x0800008
def sprCnt (i : Nat) : Nat := 0x0800100 + 8 * i
def fllCtl : Nat := 0x0900000
def fllNormBase : Nat := 0x0900008
def fllFpBase : Nat := 0x0900010
def fllFpCtl : Nat := 0x0900018
def fllPipeBase : Nat := 0x0900020
def fllPipeCtl : Nat := 0x0900028
def fllNetCtl : Nat := 0x0900030
def fllStat : Nat := 0x09000F0
def fllCnt (i : Nat) : Nat := 0x0900100 + 8 * i
def glnCtl : Nat := 0x0A00000
def glnXidle : Nat := 0x0A00008
def glnXt (n : Nat) : Nat := 0x0A00010 + 8 * n
def glnA2aTimeout : Nat := 0x0A00050
def glnGenIdx : Nat := 0x0A00058
def glnCnt (i : Nat) : Nat := 0x0A00100 + 8 * i
def lnkCtl : Nat := 0x0B00000
def lnkId : Nat := 0x0B00008
def lnkMac : Nat := 0x0B00010
def lnkIp6Hi : Nat := 0x0B00018
def lnkIp6Lo : Nat := 0x0B00020
def lnkUdp : Nat := 0x0B00028
def lnkGrpBase : Nat := 0x0B00030
def lnkInclBase : Nat := 0x0B00038
def lnkRetry : Nat := 0x0B00040
def lnkPeerTimeout : Nat := 0x0B00048
def lnkNet : Nat := 0x0B00050
def lnkPtpCtl : Nat := 0x0B00058
def lnkStat : Nat := 0x0B000F0
def portCfg (q : Nat) : Nat := 0x0B00100 + 0x20 * q
def lnkCnt (i : Nat) : Nat := 0x0B00200 + 8 * i
def pasid (n : Nat) : Nat := 0x0C00100 + 8 * n
def priCtl : Nat := 0x0C00010
def cxdCnt (i : Nat) : Nat := 0x0C00200 + 8 * i
def monCfg (s : Nat) : Nat := 0x0D01000 + 0x40 * s
def monEdge (s k : Nat) : Nat := 0x0D01008 + 0x40 * s + 8 * k
def ashCtl : Nat := 0x0E00000
def ashRetWin : Nat := 0x0E00020
def ashRetThr : Nat := 0x0E00028
def ashRetCtl : Nat := 0x0E00030
def ashCnt (i : Nat) : Nat := 0x0E00100 + 8 * i
def klnCtl : Nat := 0x0F00000
def rcvAddr : Nat := 0x0F00180
def rcvLen : Nat := 0x0F00188
def otpIdx : Nat := 0x1000000
def otpData : Nat := 0x1000008
def mntCtl : Nat := 0x1100000
def mntScrub : Nat := 0x1100008
def mntCnt (i : Nat) : Nat := 0x1100100 + 8 * i
def phxCtl : Nat := 0x1200000
def lsCfg : Nat := 0x1200050
def rngIdx : Nat := 0x1200080
def rngKey : Nat := 0x1200088
def rngCtr : Nat := 0x1200090
end Reg

end Sys2Proof.Machine
end

