-- ==== Sys2Proof/Machine/Tab.lean ====
section
/-!
DEFINITION. The one sparse table of the model: a list of (key, value) pairs in a canonical form (keys strictly
rising, no entry equal to what an unlisted key reads as). Memories, register files, sets of poisoned lines, rings
and every other "many numbered things" of the spec are such tables; what an unlisted key reads as is the argument `d`.
-/
namespace Sys2Proof.Machine

/-- A sparse table of values by number. -/
abbrev Tab (α : Type) := List (Nat × α)

/-- The value at key `k`: the listed one, else `d k`. -/
def Tab.get {α : Type} (d : Nat → α) : Tab α → Nat → α
  | [], k => d k
  | (j, v) :: t, k => if j = k then v else Tab.get d t k

/-- The table without any entry at key `k`. -/
def Tab.erase {α : Type} : Tab α → Nat → Tab α
  | [], _ => []
  | (j, v) :: t, k => if j = k then Tab.erase t k else (j, v) :: Tab.erase t k

/-- The table with an entry put before the first larger key. -/
def Tab.insert {α : Type} : Tab α → Nat → α → Tab α
  | [], k, v => [(k, v)]
  | (j, w) :: t, k, v => if k < j then (k, v) :: (j, w) :: t else (j, w) :: Tab.insert t k v

/-- The table after writing `v` at key `k`; writing what an unlisted key reads as removes the entry. -/
def Tab.set {α : Type} [DecidableEq α] (d : Nat → α) (t : Tab α) (k : Nat) (v : α) : Tab α :=
  if v = d k then Tab.erase t k else Tab.insert (Tab.erase t k) k v

/-- The value at key `k` replaced by `f` of it. -/
def Tab.modify {α : Type} [DecidableEq α] (d : Nat → α) (t : Tab α) (k : Nat) (f : α → α) : Tab α :=
  Tab.set d t k (f (Tab.get d t k))

/-- Every key of the table lies above `k`. -/
def Tab.above {α : Type} (k : Nat) (t : Tab α) : Bool := t.all fun e => decide (k < e.1)

/-- The canonical form: keys strictly rising, no entry equal to what an unlisted key reads as. -/
def Tab.wf {α : Type} [DecidableEq α] (d : Nat → α) : Tab α → Bool
  | [] => true
  | (k, v) :: t => Tab.above k t && decide (v ≠ d k) && Tab.wf d t

/-- The table with only the entries that `p` keeps. -/
def Tab.keep {α : Type} (p : Nat → α → Bool) (t : Tab α) : Tab α := t.filter fun e => p e.1 e.2

/-- A set of numbers: the table of truth values whose unlisted keys read false. -/
abbrev NatSet := Tab Bool

/-- Membership in a set of numbers. -/
def NatSet.has (t : NatSet) (k : Nat) : Bool := Tab.get (fun _ => false) t k

/-- The set with `k` added. -/
def NatSet.add (t : NatSet) (k : Nat) : NatSet := Tab.set (fun _ => false) t k true

/-- The set with `k` taken out. -/
def NatSet.remove (t : NatSet) (k : Nat) : NatSet := Tab.set (fun _ => false) t k false

end Sys2Proof.Machine
end

