-- ==== Sys2Proof/Machine/Parts.lean ====
section
/-!
DEFINITION. The parts of the block's state, one structure per unit the spec describes. `Dp` is the data plane with
its rings and logs, `Kiln` the root of trust with its one-time memory, `Pwr` clocks, power, reset and pins, `Mnt`
the maintenance gate. Every field is plain data; each docstring names the rule that gives it.
-/
namespace Sys2Proof.Machine

/-! ### Registers (R9, R344) -/

/-- The register file: staged and committed values of RW fields, the value in force of a field whose change is
delayed (Table 19.4), the W1C status bits, and the counters. Tables are keyed by BAR0 offset; an unlisted key
reads as the reset value. -/
structure Regs where
  staged : Tab Word := []
  committed : Tab Word := []
  force : Tab Word := []
  stat : Tab Word := []
  cnt : Tab Word := []
  deriving DecidableEq, Repr

/-! ### Memory (01_state_tiers.md) -/

/-- The record of a promotion-pool frame (R30); frames stand in the order of their promotion. -/
structure Frame where
  base : Nat
  size : Nat
  space : Nat
  page : Nat
  home : Nat
  dirty : Bool
  pinned : Bool
  deriving DecidableEq, Repr

/-- A page copy in progress: an on-demand promotion (R31) into an allocated frame. -/
structure Promotion where
  space : Nat
  page : Nat
  size : Nat
  home : Nat
  frame : Nat
  start : Nat
  deriving DecidableEq, Repr

/-- A piece of work in Gleaner's first class (R35): the promotion of a page, or an expert fetch, which half's Gleaners do
it. -/
inductive Job where
  | promotion (half space page : Nat)
  | fetch (half gen x : Nat)
  deriving DecidableEq, Repr

/-- A queued invalidation of ATU translations (R22, Table 1.19). -/
structure Inv where
  space : Nat
  scope : Nat
  addr : Nat
  deriving DecidableEq, Repr

/-- An entry of the module's address translation cache: a host page of 4 KiB and what the host granted (R25). -/
structure Atc where
  pasid : Option Nat
  page : Nat
  target : Nat
  read : Bool
  write : Bool
  deriving DecidableEq, Repr

/-- An ATS invalidation of host pages that has not completed (R135). -/
structure AtsInv where
  pasid : Option Nat
  page : Nat
  pages : Nat
  deriving DecidableEq, Repr

/-- What a page request was made for (R315, R335). -/
inductive PriFor where
  | work (uid : Nat)
  | fetch (ring : Nat)
  | cq (cq : Nat)
  deriving DecidableEq, Repr

/-- An outstanding page request, known by its group index (R335). -/
structure PageReq where
  group : Nat
  pasid : Option Nat
  space : Nat
  dva : Nat
  page : Nat
  write : Bool
  for_ : PriFor
  deriving DecidableEq, Repr

/-- Memory and translation. -/
structure Mem where
  /-- device memory by device physical address (R13) -/
  dpa : Tab Byte := []
  /-- host memory by translated host address -/
  host : Tab Byte := []
  /-- poisoned 128-byte lines of device memory, by line number (R425) -/
  poison : NatSet := []
  frames : List Frame := []
  promos : List Promotion := []
  /-- Gleaner's work for stalled streams, in the order of its arrival (R35) -/
  jobs : List Job := []
  /-- earlier contents of tier H lines, newest first: what a line's stack may hold while the granary holds it dirty
  (R258, R259) -/
  past : Tab (List (List Byte)) := []
  /-- peat channels in retraining (R36, activity 3) -/
  retrainP : NatSet := []
  invQ : List Inv := []
  atc : List Atc := []
  /-- ATS invalidations that wait for a SCATTER_ADD (R135) -/
  atsInvs : List AtsInv := []
  pageReqs : List PageReq := []
  /-- Response Failure received: no further page requests (R335) -/
  priStopped : Bool := false
  /-- lines of the HDM window the host holds, with whether modified, per half (R41) -/
  snoop0 : Tab (Option Bool) := []
  snoop1 : Tab (Option Bool) := []
  /-- HDM decoder (R348): committed, Error Not Committed, base and size in bytes -/
  hdmCommitted : Bool := false
  hdmError : Bool := false
  hdmBase : Nat := 0
  hdmSize : Nat := 0
  /-- interleave ways field of the decoder: 0 for the one way it supports -/
  hdmWays : Nat := 0
  /-- MEM_H_LIMITh (R16) -/
  hLimit0 : Nat := 0x009000000000
  hLimit1 : Nat := 0x012000000000
  /-- retired tier L and peat channels (R432) -/
  retL : NatSet := []
  retP : NatSet := []
  deriving DecidableEq, Repr

/-! ### Rings (11_command_rings.md) -/

/-- RING_STATn.STATE (Table 11.19). -/
inductive RingSt where
  | disabled | running | halted | draining
  deriving DecidableEq, Repr

/-- Where and why a descriptor halted (R334). -/
structure Halt where
  status : Nat
  detail : Nat
  slot : Nat := 0
  ofs : Nat := 0
  dva : Nat := 0
  space : Nat := 0
  write : Bool := false
  deriving DecidableEq, Repr

/-- How a descriptor ends (R328): its status, detail, result word and element offset. -/
structure Ending where
  status : Nat
  detail : Nat := 0
  result : Nat := 0
  ofs : Nat := 0
  /-- the ring halts after this descriptor (R318, R326) -/
  halts : Bool := false
  deriving DecidableEq, Repr

/-- What a stalled stream waits for (R31, R335). -/
inductive Stall where
  | promotion (space page : Nat)
  | request (group : Nat)
  /-- Gleaner's earlier work in a half (R35) -/
  | gleaner (half : Nat)
  /-- the retraining of a peat channel that holds lines of the page (R36) -/
  | retrain
  /-- the end of the RUN that holds the page (R311) -/
  | pinned
  deriving DecidableEq, Repr

/-- Where an outstanding descriptor stands. -/
inductive Phase where
  /-- its work goes on by later happenings -/
  | running
  | stalled (s : Stall)
  | halted (h : Halt)
  /-- its work is done; it completes as the next DESCRIPTOR_COMPLETE says -/
  | finished (e : Ending)
  deriving DecidableEq, Repr

/-- A range of bytes a descriptor can address, with whether it is stored to (R125), and the slot of the descriptor
that names it. -/
structure Span where
  lo : Int
  hi : Int
  stored : Bool
  slot : Nat := 0
  deriving DecidableEq, Repr

/-- A random stream as captured at dispatch (R59). -/
structure Captured where
  stream : Nat
  key : Nat
  ctr : Nat
  deriving DecidableEq, Repr

/-- A dispatched descriptor that has not completed (R322–R324). -/
structure Outst where
  /-- the model's own number of the dispatch -/
  uid : Nat
  seq : Nat
  op : Nat
  cls : Nat
  cmode : Nat
  sheaf : Option Nat
  bytes : List Byte
  phase : Phase
  /-- global time of the dispatch -/
  start : Nat
  /-- running loss scale exponent at dispatch (R70) -/
  lsExp : Int
  streams : List Captured
  /-- saved position (R334), in the unit of the owning chapter -/
  ofs : Nat := 0
  /-- what the operation counts for its result word -/
  count : Nat := 0
  count2 : Nat := 0
  /-- counts of a consumed prediction record: active, missed, falsely predicted neurons, catch-up tiles (R200) -/
  tally : List Nat := [0, 0, 0, 0]
  /-- an output was fed by poisoned data (R333) -/
  poisoned : Bool := false
  /-- it fired the NaN trap with MODE = 1 (R67) -/
  trapped : Bool := false
  /-- the spans of the descriptor (R125), in the address space of its ring -/
  spans : List Span := []
  space : Nat := 0
  /-- SPR values read at dispatch (Table 5.11): HOT_EN and THR -/
  hotEn : Bool := false
  hotThr : Nat := 0
  /-- the resolved index list of a GATHER or SCATTER_ADD; a skipped entry is `none` (R134, R135) -/
  resolved : List (Option Nat) := []
  /-- translations held until completion, per 4 KiB page: the address and whether it is a host address (R135) -/
  held : List (Nat × Nat × Bool) := []
  /-- the bytes of a COPY in place as they stood before its first tile wrote them, with their poison (R129) -/
  kept : List (Nat × Byte × Bool) := []
  /-- the RING_CFG of its ring as it was at dispatch (R344) -/
  cfg : BitVec 64 := 0
  deriving DecidableEq, Repr

/-- A halt before the next descriptor (R334): the sequence number it names. -/
structure HaltNext where
  seq : Nat
  status : Nat
  detail : Nat
  slot : Nat := 0
  dva : Nat := 0
  deriving DecidableEq, Repr

/-- A submission ring. -/
structure Ring where
  state : RingSt := .disabled
  head : Nat := 0
  tail : Nat := 0
  /-- slots pending: written by the driver and not yet fetched (R320) -/
  pend : Nat := 0
  /-- the next SEQ expected (R318) -/
  expSeq : Nat := 0
  doneSeq : Nat := 0
  /-- fetched slots that have not been dispatched, in ring order (R321) -/
  fetched : List Byte := []
  /-- per fetched slot: it arrived poisoned (Table 15.2) -/
  fpoison : List Bool := []
  outst : List Outst := []
  /-- dispatched descriptors from the oldest not completed on: number, SEQ, completed -/
  order : List (Nat × Nat × Bool) := []
  /-- bytes stored while an earlier dispatch was outstanding, with the number of the dispatch whose value they hold (R120) -/
  writes : Tab Nat := []
  haltNext : Option HaltNext := none
  /-- the next slot could not be fetched: the ring halts before the descriptor that holds it (R315) -/
  fetchFault : Option Halt := none
  deriving DecidableEq, Repr

/-- A completion record waiting for its ring (R330). -/
structure Record where
  ring : Nat
  seq : Nat
  op : Nat
  status : Nat
  detail : Nat
  result : Nat
  ofs : Nat
  time : Nat
  halted : Bool
  irq : Bool
  deriving DecidableEq, Repr

/-- A completion ring. -/
structure Cq where
  head : Nat := 0
  tail : Nat := 0
  /-- records the driver has not released (R330) -/
  used : Nat := 0
  phase : Bool := true
  held : List Record := []
  /-- a failed translation holds the records (R315) -/
  broken : Bool := false
  deriving DecidableEq, Repr

/-- A notice ring. -/
structure Nq where
  head : Nat := 0
  tail : Nat := 0
  /-- notices the driver has not released (R338) -/
  used : Nat := 0
  phase : Bool := true
  /-- notices dropped since enable, and since the last notice written (R338, R339) -/
  lost : Nat := 0
  lostSince : Nat := 0
  deriving DecidableEq, Repr

/-- An MSI-X vector: its table entry, pending bit and coalescing (R329, R348). -/
structure Vector where
  addr : Nat := 0
  data : Nat := 0
  masked : Bool := true
  pend : Bool := false
  /-- in its coalescing interval, and asked for within it -/
  quiet : Bool := false
  asked : Bool := false
  deriving DecidableEq, Repr

/-- A message the module sends to the host by itself. -/
inductive Out where
  | msix (vector addr data : Nat)
  | pageRequest (group : Nat) (pasid : Option Nat) (page : Nat) (write : Bool)
  | snoop (line : Nat)
  deriving DecidableEq, Repr

/-! ### Number state (02_number_formats.md) -/

/-- The NaN trap, the loss scale and the random streams (R64–R75). -/
structure Phx where
  armed : Bool := true
  fired : Bool := false
  info0 : Word := 0
  info1 : Word := 0
  info2 : Word := 0
  info3 : Word := 0
  nanCnt : Nat := 0
  /-- a pending PHX_LS_LOAD (R73) -/
  lsLoad : Option Int := none
  /-- the running exponent X, clean steps and skips of PHX_LS_STAT, and the local overflow flag (R70–R72) -/
  x : Int := 16
  clean : Nat := 0
  skips : Nat := 0
  ovf : Bool := false
  /-- the 4,096 streams: key and counter (R75) -/
  streams : Tab (Nat × Nat) := []
  deriving DecidableEq, Repr

/-! ### Lists and tillers (07_fusion_tiling_determinism.md, 03_tiller_arithmetic.md) -/

/-- Kinds of list entry (Table 7.1). -/
inductive EntKind where
  | compute | slice | winnow | segment | reduce | stats | catchUp
  deriving DecidableEq, Repr

/-- A list entry: the unit one tiller takes (R205). `im`, `jn` and `part` are tile row, tile column and slice or
segment, or what the kind gives them; `group` numbers its group. -/
structure Entry where
  kind : EntKind
  batch : Nat := 0
  im : Nat := 0
  jn : Nat := 0
  part : Nat := 0
  group : Nat := 0
  /-- KiB of the reduce region its partial or record takes (R219) -/
  kib : Nat := 0
  /-- its place in the tile list that gave it (R212) -/
  row : Nat := 0
  deriving DecidableEq, Repr

/-- The list of one operation in one half (R206). -/
structure EList where
  uid : Nat
  ring : Nat
  half : Nat
  entries : List Entry
  /-- the shared counter -/
  next : Nat := 0
  /-- indexes returned under R107, in the order of their return -/
  returned : List Nat := []
  /-- indexes whose entry has been finished -/
  done : List Nat := []
  /-- indexes whose entry has passed to the other half's list (R214) -/
  gone : List Nat := []
  /-- crib tiles an entry needs (R214), and those that the tile it fills takes (R213) -/
  need : Nat := 8
  fill : Nat := 4
  deriving DecidableEq, Repr

/-- A tile context that holds an entry (R82). -/
structure Ctx where
  num : Nat
  uid : Nat
  half : Nat
  idx : Nat
  entry : Entry
  deriving DecidableEq, Repr

/-- A tiller. -/
structure Tiller where
  ctxs : List Ctx := []
  retired : Bool := false
  bankRet : NatSet := []
  /-- granted to maintenance: it receives no entries (R6) -/
  granted : Bool := false
  deriving DecidableEq, Repr

/-- A partial in the reduce region of a half (R217): the FP32 sums of part `part` of a group. -/
structure Partial where
  uid : Nat
  half : Nat
  group : Nat
  part : Nat
  kib : Nat
  data : List FV
  /-- per value: a poisoned line fed its crib tile -/
  bad : List Bool
  deriving DecidableEq, Repr

/-- A stats record of a row tile (R230): per row the maximum, the sum, and the kept positions of a top-k cut. -/
structure StatsRec where
  uid : Nat
  half : Nat
  batch : Nat
  rowTile : Nat
  /-- per row: poisoned data fed it -/
  bad : List Bool
  rows : List (FV × FV)
  kept : List (List Nat)
  deriving DecidableEq, Repr

/-! ### Sheaves (09_sheaves.md) -/

/-- States of a sheaf id (Table 9.1). -/
inductive SheafSt where
  | free | opened | committing | committed | aborted
  deriving DecidableEq, Repr

/-- A region action (Table 9.8). `inL` is FLAGS.TIER, `uid` the declaring dispatch. -/
structure Action where
  dva : Nat
  len : Nat
  dseq : Nat
  uid : Nat
  inL : Bool
  cleared : Bool := false
  dataOfs : Nat
  plist : Nat
  /-- first footprint line of the action (R272) -/
  line0 : Nat
  deriving DecidableEq, Repr

/-- What an UPDATE leaves to be done at the commit of its sheaf (R256): the fingerprint of what it wrote, and its
descriptor, which names the arrays. -/
structure FpDue where
  uid : Nat
  fpidx : Nat
  shardId : Nat
  owner : Nat
  crc : Nat
  space : Nat
  desc : List Byte
  deriving DecidableEq, Repr

/-- A sheaf table entry (Table 9.6). -/
structure Sheaf where
  state : SheafSt := .free
  ring : Nat := 0
  space : Nat := 0
  excl : Bool := false
  cause : Nat := 0
  slot : Nat := 0
  shadowH : Nat := 0
  sizeH : Nat := 0
  sizeL : Nat := 0
  shadowL : Nat := 0
  usedH : Nat := 0
  usedL : Nat := 0
  marked : Nat := 0
  seq : Nat := 0
  crc : Nat := 0
  actions : List Action := []
  /-- page-list entries in use -/
  pages : Nat := 0
  /-- the SHEAF_COMMIT or SHEAF_ABORT descriptor that acts on it -/
  waiter : Option Nat := none
  /-- its commit record could be read from no copy (R281) -/
  unreadable : Bool := false
  /-- the line of its sheaf table entry is poisoned -/
  tableBad : Bool := false
  fps : List FpDue := []
  /-- FLL_STEP at its commit point, and the number of the next dispatch then (R246, R256) -/
  step : Nat := 0
  stamp : Nat := 0
  deriving DecidableEq, Repr

/-- A commit record (Table 9.7). -/
structure CommitRec where
  seq : Nat
  sheaf : Nat
  ring : Nat
  actions : Nat
  slot : Nat
  time : Nat
  step : Nat
  marked : Nat
  shadowL : Nat
  shadowH : Nat
  crc : Nat
  /-- its line in the log is poisoned -/
  poisoned : Bool := false
  deriving DecidableEq, Repr

/-- The sheaf journal (Table 9.5). -/
structure Journal where
  nextSeq : Nat := 1
  sheaves : Tab Sheaf := []
  /-- the action table by slot, kept after a sheaf is freed -/
  actions : Tab (List Action) := []
  /-- the commit log by SEQ mod 1,015,808 -/
  log : Tab (Option CommitRec) := []
  /-- committed sheaves in the order of their commit records (R277, R286) -/
  order : List Nat := []
  /-- poisoned lines of the action table, by line from its start (R281) -/
  actBad : NatSet := []
  deriving DecidableEq, Repr

/-! ### Ash log, retirement and monitors (15_faults_log_monitors.md) -/

/-- An ash-log entry (Table 15.4). -/
structure AshEntry where
  time : Nat
  cls : Nat
  code : Nat
  flags : Nat := 0
  ring : Nat := 0
  seq : Nat := 0
  resource : Nat := 0
  count : Nat := 1
  addr : Nat := 0
  data : Nat := 0
  deriving DecidableEq, Repr

/-- Kinds of resource whose events are counted (R429). -/
inductive ResKind where
  | hpc | lch | pch | lane | tiller | bank
  deriving DecidableEq, Repr

/-- The ash log and what Hearth counts toward retirement. -/
structure Ash where
  entries : Tab (Option AshEntry) := []
  head : Nat := 0
  /-- entries present, at most 4,096 -/
  present : Nat := 0
  frozen : Bool := false
  /-- index of the entry that froze the log -/
  fatalIdx : Nat := 0
  /-- event times per resource, newest first -/
  events : List (ResKind × Nat × List Nat) := []
  /-- retired pseudo-channels and copies in progress, as stack * 64 + pseudo-channel (R431) -/
  hpcRet : List Nat := []
  /-- with the events that led to it -/
  hpcCopy : List (Nat × Nat) := []
  /-- ASH_HPC_RETh -/
  hpcCount0 : Nat := 0
  hpcCount1 : Nat := 0
  /-- ASH_RET_CAND (R432) -/
  candL : NatSet := []
  candP : NatSet := []
  deriving DecidableEq, Repr

/-- A monitor slot (R443). -/
structure MonSlot where
  start : Nat := 0
  stop : Nat := 0
  min : Int := 0
  max : Int := 0
  samples : Nat := 0
  sum : Int := 0
  sat : Bool := false
  bins : List Nat := []
  running : Bool := false
  held : Bool := false
  deriving DecidableEq, Repr

/-! ### Pod links (12_pod_links.md) -/

/-- A Culm frame (Table 12.5). -/
structure Culm where
  ty : Nat
  ember : Bool
  last : Bool := false
  retx : Bool := false
  poison : Bool := false
  epoch : Nat := 0
  src : Nat := 0
  dst : Nat := 0
  group : Nat := 0
  psn : Nat := 0
  msg : Nat := 0
  ofs : Nat := 0
  aux : Nat := 0
  aux2 : Nat := 0
  aux32 : Nat := 0
  payload : List Byte := []
  deriving DecidableEq, Repr

/-- A frame on a port, with the bytes it takes on the line from the destination address to the Culm CRC (R357). -/
structure Sent where
  port : Nat
  frame : Culm
  line : List Byte
  deriving DecidableEq, Repr

/-- A frame kept until it is acknowledged (R362). -/
structure TxFrame where
  frame : Culm
  port : Nat
  tries : Nat := 0
  time : Nat := 0
  deriving DecidableEq, Repr

/-- One connection to a peer (R360, R361, R363), with its sending and receiving side. -/
structure Conn where
  epoch : Nat := 0
  next : Nat := 0
  unacked : List TxFrame := []
  /-- frames that wait: an ember window that is full, a paused port, a peer that is down or being restarted -/
  queue : List Culm := []
  /-- the next PSN expected, the PSNs received above it, and the frames accepted since the last ACK -/
  expect : Nat := 0
  have_ : List Nat := []
  fresh : Nat := 0
  /-- the PSN after the last one acknowledged cumulatively: its window begins here (R361) -/
  base : Nat := 0
  deriving DecidableEq, Repr

/-- What a member table says of the way to an endpoint (Table 12.4): ports, MAC and IPv6 address. -/
structure Path where
  group : Nat
  peer : Nat
  ports : Nat
  mac : List Byte
  ip6 : List Byte
  deriving DecidableEq, Repr

/-- A peer endpoint. -/
structure Peer where
  /-- the next port of the round-robin -/
  turn : Nat := 0
  down : Bool := false
  resetting : Bool := false
  deriving DecidableEq, Repr

/-- A port (R351, Table 12.15): STATE, PAUSED, PREEMPT_ACT, and its retired, failed and recalibrated lanes as masks. -/
structure Port where
  state : Nat := 0
  paused : Bool := false
  preempt : Bool := false
  laneRet : Nat := 0
  laneFail : Nat := 0
  recal : Nat := 0
  /-- fell back to 400G: stays there until its set-up is written and committed again (R351) -/
  fallen : Bool := false
  /-- LNK_PORT_CFGq has been written since the last COMMIT -/
  written : Bool := false
  deriving DecidableEq, Repr

/-- Credit received: bytes `[start, start + len)` of a message part at a peer. -/
structure Credit where
  peer : Nat
  msg : Nat
  level : Nat
  block : Nat
  start : Nat
  len : Nat
  deriving DecidableEq, Repr

/-- Bytes received for a collective: phase (AUX), level, block, the child's virtual rank or the sender's rank. -/
structure Part where
  phase : Nat
  level : Nat
  block : Nat
  who : Nat
  ofs : Nat
  bytes : List Byte
  poison : Bool
  /-- the endpoint that sent them, and whether they have been written to memory (R361) -/
  src : Nat := 0
  stored : Bool := false
  deriving DecidableEq, Repr

/-- A collective, SEND, RECV or NETWORK UPDATE in progress. -/
structure Coll where
  uid : Nat
  ring : Nat
  op : Nat
  /-- the descriptor as it was dispatched -/
  o : Outst
  /-- KIND of a REDUCE -/
  kind : Nat := 0
  id : Nat
  group : Nat
  members : List Nat
  rank : Nat
  coord : Nat := 0
  digest : Nat := 0
  /-- READY frames at the coordinator, by rank; INCL and CARRY once fixed -/
  ready : List Nat := []
  /-- members whose READY announced a held contribution, and those that cancelled (R371, R382) -/
  announced : List Nat := []
  gone : List Nat := []
  fixed : Bool := false
  incl : List Nat := []
  carry : List Nat := []
  /-- late: not in INCL -/
  late : Bool := false
  carries : Bool := false
  heldOvf : Bool := false
  /-- time of the coordinator's dispatch, and whether its deadline has passed -/
  start : Nat := 0
  expired : Bool := false
  /-- the contribution: the values of the source with their poison -/
  leaf : List (FV × Bool) := []
  /-- its own bytes, for byte messages and step records -/
  data : List Byte := []
  dataBad : Bool := false
  parts : List Part := []
  credits : List Credit := []
  /-- what has been sent: (phase, level, block, receiver's virtual rank or rank) -/
  sent : List (Nat × Nat × Nat × Nat) := []
  /-- frames sent of parts that have not been sent whole, by part and offset (R364) -/
  frames : List ((Nat × Nat × Nat × Nat) × Nat) := []
  /-- blocks whose result is here: stored bytes with poison -/
  results : List (Nat × List Byte × List Bool) := []
  stored : List Nat := []
  /-- arrivals seen and release seen of a barrier, by rank -/
  arrived : List Nat := []
  released : Bool := false
  /-- elements of W returned (R376) -/
  returned : NatSet := []
  /-- cancelled: combines and forwards, stores nothing (R382) -/
  quiet : Bool := false
  /-- its descriptor has ended, and members left out of INCL may still want its result or send their READY (R371, R374) -/
  ended : Bool := false
  /-- the copy of a late contribution to HOLD is due (R371) -/
  holdDue : Bool := false
  deriving DecidableEq, Repr

/-- A LATE_ADD hold entry (R371). -/
structure Hold where
  group : Nat
  dva : Nat
  space : Nat
  count : Nat
  fmt : Nat
  /-- OVF of the step record of its step, once the STEPREC of that step has given it -/
  ovf : Option Bool
  /-- FLL_STEP when it was taken -/
  step : Nat
  deriving DecidableEq, Repr

/-- The pod links. -/
structure Lnk where
  ports : Tab Port := []
  peers : Tab Peer := []
  /-- entries of member tables read so far (R355) -/
  paths : List Path := []
  /-- connections by 2 * peer + class (0 bulk, 1 ember) -/
  conns : Tab Conn := []
  /-- frames put on the ports, oldest first -/
  sent : List Sent := []
  colls : List Coll := []
  /-- control frames for a COLL_ID not dispatched yet (R364), and CREDIT frames no SEND has paired with (R380) -/
  early : List Culm := []
  holds : List Hold := []
  /-- INCL and CARRY of the step's STEPBM collective (R372, R373), with CARRY ranks of 448 and above -/
  stepIncl : Option (List Nat × List Nat) := none
  /-- groups with a folded hold whose OVF was set, for their next STEPREC leaf (R371) -/
  foldedOvf : List Nat := []
  ptpLocked : Bool := false
  ptpOffset : Int := 0
  /-- the servo has stepped the time since reset, the offset it has still to slew away, and the part of a nanosecond slewed so
  far, in millionths (R353) -/
  ptpStepped : Bool := false
  ptpLeft : Int := 0
  ptpFrac : Int := 0
  deriving DecidableEq, Repr

/-! ### Training (08_training_passes.md) -/

/-- A fingerprint comparison in progress on a module that is not the owner (R256). -/
structure FpPend where
  fpidx : Nat
  shardId : Nat
  step : Nat
  owner : Nat
  crc : Nat
  /-- where the table entry lies, whether in host memory and the address, when it could be written -/
  entry : Option (Bool × Nat)
  space : Nat
  desc : List Byte
  /-- committed when this was the number of the next dispatch -/
  stamp : Nat
  /-- repair of the shard from the owner in progress: the owner's fingerprint and the bytes received so far -/
  repairing : Bool := false
  peerCrc : Nat := 0
  parts : List Part := []
  deriving DecidableEq, Repr

/-- The owner's fingerprint of a shard and step, with the descriptor that names its arrays and the modules that a
mismatch entitles to its copy. -/
structure FpOwn where
  shardId : Nat
  step : Nat
  crc : Nat
  space : Nat
  desc : List Byte
  offers : List Nat := []
  /-- DEADLINE has passed since the commit -/
  expired : Bool := false
  deriving DecidableEq, Repr

/-- A fingerprint that reached the owner before the owner's own commit. -/
structure FpEarly where
  module : Nat
  shardId : Nat
  step : Nat
  crc : Nat
  deriving DecidableEq, Repr

/-- The Flail block. -/
structure Fll where
  step : Nat := 0
  applied : Nat := 0
  pend : List FpPend := []
  own : List FpOwn := []
  early : List FpEarly := []
  /-- a divergence is to be reported at the next step boundary, and it halts the ring there (Table 8.5) -/
  diverged : Bool := false
  halts : Bool := false
  /-- pipeline stage state: oldest unfinished entry, completions and dispatches per entry (R260) -/
  cursor : Nat := 0
  counts : Tab Nat := []
  taken : Tab Nat := []
  /-- MICRO of the entries in which descriptors have been dispatched (Table 8.6) -/
  micro : Tab Nat := []
  deriving DecidableEq, Repr

/-! ### Experts (10_experts.md) -/

/-- States of a generation (R288). -/
inductive GenSt where
  | idle | live | draining
  deriving DecidableEq, Repr

/-- A choice with its outcome (R294): token, choice, STATUS, expert, slot. -/
structure Choice where
  t : Nat
  j : Nat
  status : Nat
  x : Nat
  slot : Nat := 0
  deriving DecidableEq, Repr

/-- The capacity rounds of a DISPATCH (R294). -/
structure Rounds where
  /-- ranked experts per token, and the scores of its choices -/
  ranked : List (List Nat)
  scores : List (List FV)
  round : Nat := 0
  pend : List (Nat × Nat × Nat) := []
  /-- reserve experts used per token -/
  used : List Nat
  out : List Choice := []
  deriving DecidableEq, Repr

/-- A count exchange of one module (R289, R295). -/
structure Exchange where
  gen : Nat
  round : Nat
  refuse : Bool
  digest : Nat
  counts : List Nat
  deriving DecidableEq, Repr

/-- An expert fetch in progress (R300): the local slot, the expert's index and table, its weight range, and when it began. -/
structure Fetch where
  slot : Nat
  x : Nat
  table : Nat
  base : Nat
  len : Nat
  start : Nat
  deriving DecidableEq, Repr

/-- An outstanding RUN (R299): what it read, and how far its instances have come. -/
structure RunJob where
  uid : Nat
  /-- the expert table, FILL per expert, ROW_BYTES and NL of the record, and the template -/
  table : List (List Byte)
  fill : List Nat
  rowB : Nat
  nl : Nat
  tm : List Byte
  /-- ANS_ROW_BYTES -/
  ansRow : Nat
  /-- bytes a row of the receive buffer has received once every row sent before the RUN is there -/
  due : Nat
  /-- local slots whose instance is in the lists, and whose answers are sent -/
  listed : List Nat := []
  answered : List Nat := []
  deriving DecidableEq, Repr

/-- Bytes of a member's buffer granted for rows of a kind: 0 token rows, 1 answers (R364). -/
structure RowGrant where
  from_ : Nat
  kind : Nat
  start : Nat
  len : Nat
  deriving DecidableEq, Repr

/-- A frame of a row that waits for its grant, with its destination and the dispatch of the generation it belongs to. -/
structure RowWait where
  dest : Nat
  play : Nat
  frame : Culm
  deriving DecidableEq, Repr

/-- A generation (R288, R289). -/
structure Gen where
  st : GenSt := .idle
  /-- the DISPATCH descriptor, its space and its group -/
  body : List Byte := []
  space : Nat := 0
  members : List Nat := []
  rank : Nat := 0
  nl : Nat := 0
  /-- the expert table as the DISPATCH read it: bytes 0–39 per entry -/
  table : List (List Byte) := []
  /-- outstanding DISPATCHes (replays included), RUNs and COMBINEs -/
  disps : List Nat := []
  runs : List RunJob := []
  combs : List Nat := []
  /-- ranked experts with their scores, per token ranked so far (R292) -/
  ranks : Tab (List (Nat × FV)) := []
  rounds : Option Rounds := none
  fill : List Nat := []
  choices : List Choice := []
  gates : List FV := []
  /-- the record is written and the rows are on their way -/
  sent : Bool := false
  /-- a COMBINE has stored Y (R288) -/
  combined : Bool := false
  /-- dispatches of the generation, replays included; ROW_BYTES, RECV_BASE and RET_BASE of the last one; bytes a row of the
  receive buffer has received when all of them are there -/
  plays : Nat := 0
  rowB : Nat := 0
  recvBase : Nat := 0
  retBase : Nat := 0
  due : Nat := 0
  credits : Nat := 0
  /-- bytes received per row of the receive buffer, answers received per choice, and the rows whose origin is known -/
  recv : Tab Nat := []
  got : Tab Nat := []
  origins : Tab Nat := []
  /-- frames of rows that wait for their grant, grants received, and whether this module's return buffer is granted (R364) -/
  wait : List RowWait := []
  grants : List RowGrant := []
  granted : Bool := false
  /-- expert fetches in progress, frames pinned by them, and fetches since the last RUN (R300) -/
  fetching : List Fetch := []
  pins : List Nat := []
  fetched : Nat := 0
  /-- ANS_ROW_BYTES and the format code of answers, once a RUN has said -/
  ansRow : Nat := 0
  ansCode : Option Nat := none
  discarded : Nat := 0
  deriving DecidableEq, Repr

/-! ### Snapshots (13_snapshots_recovery.md) -/

/-- Where a drain goes (Table 13.5). -/
structure DrainTo where
  kind : Nat
  dst : Nat
  group : Nat
  peer : Nat
  tag : Nat
  space : Nat
  ring : Nat
  deriving DecidableEq, Repr

/-- A locked snapshot image (R390, R391) with the destination of its drain, whether the drain is running, and the
status its transfer has ended with. -/
structure ImageLock where
  base : Nat
  total : Nat
  drain : Option DrainTo := none
  draining : Bool := false
  ended : Option Nat := none
  deriving DecidableEq, Repr

/-- A SNAPSHOT TAKE or a RESTORE in progress (R388, R395): its target step, and whether it holds dispatch and has
copied. -/
structure Snap where
  uid : Nat
  restore : Bool
  target : Nat
  held : Bool := false
  /-- global time and elapsed time at which dispatch was held -/
  heldAt : Nat := 0
  heldFrom : Nat := 0
  /-- the entries of its region list as its dispatch read them; `none` for a RESTORE without a list -/
  list : Option (List (List Byte)) := none
  copied : Bool := false
  deriving DecidableEq, Repr

/-! ### Maintenance requests (17_live_service.md) -/

/-- The channel a maintenance request came through, which is told of its refusal (R476). -/
inductive Channel where
  /-- a MAINT descriptor; with `async` it completes once its activity has started or been queued (R485) -/
  | maint (uid ring : Nat) (async : Bool)
  /-- CLK_HALFh with CLK_COMMIT (R411) -/
  | clk (half : Nat)
  /-- PWR_CTL.IDLE with PWR_COMMIT (R415) -/
  | idle
  /-- PWR_DOM_REQ (R414) -/
  | domain
  /-- Hearth itself (R478) -/
  | hearth
  /-- OTP_PROG or OTP_RB_ADV (R456, R457) -/
  | otp
  /-- a lifecycle token that writes word 0 (R464) -/
  | token
  /-- PLDM for Firmware Update (R468) -/
  | pldm
  /-- a SNAPSHOT (R393) -/
  | snapshot
  deriving DecidableEq, Repr

/-- A maintenance request (R473, R474): its activity, resource and parameter, whether it asks to be queued, the bytes
it carries (a firmware segment, the value of an OTP word), and the time it was queued. -/
structure Req where
  num : Nat := 0
  act : Nat
  res : Nat
  param : Nat := 0
  ch : Channel
  queue : Bool := false
  bytes : List Byte := []
  since : Nat := 0
  deriving DecidableEq, Repr

/-! ### Answers on the sideband and the mailbox -/

/-- What the module answers to an MCTP or SPDM request. -/
inductive Answer where
  /-- the bytes of a vendor-defined MCTP command's response (Table 15.6) -/
  | mctp (bytes : List Byte)
  /-- PLDM for Firmware Update: taken over, busy, refused at the gate, or ended with a reason of Table 16.3 -/
  | pldmTaken
  | pldmBusy
  | pldmRefused
  | pldmEnd (reason : Nat)
  /-- SPDM: the error Unspecified (R465), or an unsupported request -/
  | unspecified
  | unsupported
  /-- SPDM: versions and algorithms agreed, without a value of the machine in them -/
  | agreed
  | certificate (bytes : List Byte)
  | challenge (signature : List Byte)
  | measurements (blocks : List (Nat × List Byte)) (signature : Option (List Byte))
  | session (id : Nat)
  | nonce (bytes : List Byte)
  | token (result : Nat)
  /-- bytes read through the debug window (R462) -/
  | window (bytes : List Byte)
  deriving DecidableEq, Repr

/-- What the host does with a line of the HDM window over CXL.mem (R41): it takes it shared or owned, writes 64 bytes
back and gives the line up, or gives it up unchanged. -/
inductive HostAccess where
  | shared | owned
  | write (bytes : List Byte)
  | release
  deriving DecidableEq, Repr

/-- An SPDM request (R459–R463): version, capability and algorithm exchange, certificates, challenge, measurements
(block number, 0xFF for all), key exchange, and what goes on in or ends a session; and the vendor-defined requests for
a nonce, a token and the debug window. -/
inductive Spdm where
  | agree
  | certificate (slot offset length : Nat)
  | challenge (slot : Nat)
  | measurements (block : Nat) (signed : Bool)
  | keyExchange
  | heartbeat (session : Nat)
  | keyUpdate (session : Nat)
  | endSession (session : Nat)
  | nonce
  | token (bytes : List Byte)
  | windowRead (offset length : Nat)
  | windowWrite (offset size value : Nat)
  | other
  deriving DecidableEq, Repr

/-- How a warm reset comes: PERST# asserted, a PCIe hot reset, or a link-down reset (Table 18.5). -/
inductive WarmBy where
  | perst | hotReset | linkDown
  deriving DecidableEq, Repr

/-- How a switch of a domain is asked for (R414): the gate judges the oldest request that waits for it, or the driver
writes PWR_DOM_REQ. -/
inductive DomainBy where
  | request (domain : Fin 50)
  | write (domain : Fin 64) (queue on : Bool)
  deriving DecidableEq, Repr

/-! ### Where errors strike (R423, R425) -/

/-- Where an uncorrectable error strikes. -/
inductive UeAt where
  | line (granary : Bool) (dpa syndrome : Nat)
  | host (address : Nat)
  | bin (tiller : Fin 192) (ctx : Nat)
  | crib (tiller : Fin 192) (ctx : Nat) (bank : Fin 16)
  /-- internal SRAM of a Stoker, Gleaner, Thresher, Flail engine or Culm engine -/
  | sram
  deriving DecidableEq, Repr

/-- Where a parity error strikes that is fetched again. -/
inductive ParityAt where
  /-- a clean line or tag of the granary; a second failure is uncorrectable -/
  | granary (dpa : Nat) (second : Bool)
  /-- a block of a bin; a second failure, or one in the bin pair area, returns the entry -/
  | bin (tiller : Fin 192) (ctx : Nat) (returns : Bool)
  deriving DecidableEq, Repr

/-! ### The data plane -/

/-- The data plane, the rings, the logs and the registers. -/
structure Dp where
  regs : Regs := {}
  /-- GLB_TIME in ns, and the local elapsed time, on which deadlines are measured (R353) -/
  now : Nat := 0
  elapsed : Nat := 0
  mem : Mem := {}
  rings : Tab Ring := []
  cqs : Tab Cq := []
  nqs : Tab Nq := []
  vecs : Tab Vector := []
  /-- messages to the host, oldest first -/
  outs : List Out := []
  /-- answers to MCTP and SPDM requests, oldest first -/
  resps : List Answer := []
  /-- the model's own counter of free values drawn -/
  draws : Nat := 0
  /-- the model's own number of the next dispatch -/
  nextUid : Nat := 0
  phx : Phx := {}
  lists : List EList := []
  partials : List Partial := []
  stats : List StatsRec := []
  tillers : Tab Tiller := []
  /-- MEM_GR_CTL.RED_WAYS in force per half (R219) -/
  redWays0 : Nat := 1
  redWays1 : Nat := 1
  /-- clock setting in force per half: 0 FULL, 1 SLOW8, 2 SLOW16, 3 GATED (CLK_CUR, Table 14.4) -/
  aclk0 : Nat := 0
  aclk1 : Nat := 0
  /-- switched domains that are off (Table 14.6) -/
  domOff : NatSet := []
  journal : Journal := {}
  ash : Ash := {}
  mons : Tab MonSlot := []
  locks : List ImageLock := []
  snaps : List Snap := []
  /-- requests on their way to the maintenance gate, without a number yet -/
  asks : List Req := []
  lnk : Lnk := {}
  fll : Fll := {}
  gens : Tab Gen := []
  /-- count exchanges this module has sent, oldest first -/
  exchanges : List Exchange := []
  deriving DecidableEq, Repr

end Sys2Proof.Machine
end

