-- ==== Sys2Proof/Syntax.lean ====
section
/-!
DEFINITION. The commands the block takes from outside: one constructor per row of spec/opcode_table.json. A row that
is an opcode names the ring at whose head its descriptor stands; a row that is a frame carries the frame; a row that
is an event carries what the event says beyond its name. `Machine/Dispatch.lean` gives each its meaning.
-/
namespace Sys2Proof

/-- A command (spec/opcode_table.json). -/
inductive Instr where
  /-- SQ_TAIL (R320) -/
  | sqTail (ring : Fin 64) (tail : Nat)
  /-- CQ_HEAD (R320) -/
  | cqHead (cq : Fin 64) (head : Nat)
  /-- NQ_HEAD (R320) -/
  | nqHead (nq : Fin 8) (head : Nat)
  /-- DESCRIPTOR_FETCH (R321) -/
  | descriptorFetch (ring : Fin 64) (slots : List (List Byte × Bool))
  /-- RESUME (R336) -/
  | resume (ring : Fin 64)
  /-- SKIP (R336) -/
  | skip (ring : Fin 64)
  /-- RING_RESUME_CANCEL (R336) -/
  | ringResumeCancel (ring : Fin 64) (pendingSlots : List (List Byte))
  /-- RING_ENABLE (R345) -/
  | ringEnable (ring : Fin 64)
  /-- RING_DISABLE (R345) -/
  | ringDisable (ring : Fin 64)
  /-- REGISTER_COMMIT (R344) -/
  | registerCommit (block : Machine.Block)
  /-- REGISTER_WRITE (R9) -/
  | registerWrite (offset : Nat) (size : Nat) (value : Nat)
  /-- RED_WAYS_APPLY (R219) -/
  | redWaysApply (half : Fin 2)
  /-- PHX_RNG_WRITE (R75) -/
  | phxRngWrite
  /-- PHX_TRAP_ARM (R66) -/
  | phxTrapArm
  /-- PHX_LS_LOAD (R73) -/
  | phxLsLoad (go : Bool) (exp : Fin 64)
  /-- ATU_INV (R22) -/
  | atuInv (space : Fin 16) (scope : Fin 4) (address : Nat)
  /-- ATU_INV_COMPLETE (R22) -/
  | atuInvComplete
  /-- ATS_INVALIDATION (R25) -/
  | atsInvalidation (pasid : Option Nat) (page : Nat) (pages : Nat)
  /-- DESCRIPTOR_COMPLETE (R324) -/
  | descriptorComplete (ring : Fin 64) (seq : Nat)
  /-- MSIX_COALESCE_EXPIRY (R329) -/
  | msixCoalesceExpiry (vector : Fin 72)
  /-- PRI_SUCCESS (R335) -/
  | priSuccess (group : Fin 512)
  /-- PRI_INVALID_REQUEST (R335) -/
  | priInvalidRequest (group : Fin 512)
  /-- PRI_RESPONSE_FAILURE (R335) -/
  | priResponseFailure (group : Fin 512)
  /-- PRI_TIMEOUT (R335) -/
  | priTimeout (group : Fin 512)
  /-- NOP (R327) -/
  | nop (ring : Fin 64)
  /-- FENCE (R326) -/
  | fence (ring : Fin 64)
  /-- FENCE_TIMEOUT (R326) -/
  | fenceTimeout (ring : Fin 64)
  /-- LOG_READ (R341) -/
  | logRead (ring : Fin 64)
  /-- MON_READ (R342) -/
  | monRead (ring : Fin 64)
  /-- PROMOTE (R37) -/
  | promote (ring : Fin 64)
  /-- DEMOTE (R37) -/
  | demote (ring : Fin 64)
  /-- GEMM (R105) -/
  | gemm (ring : Fin 64)
  /-- COPY (R129) -/
  | copy (ring : Fin 64)
  /-- GATHER (R132) -/
  | gather (ring : Fin 64)
  /-- SCATTER_ADD (R133) -/
  | scatterAdd (ring : Fin 64)
  /-- GEMM_SP (R170) -/
  | gemmSp (ring : Fin 64)
  /-- COMPRESS (R153) -/
  | compress (ring : Fin 64)
  /-- PRUNE (R183) -/
  | prune (ring : Fin 64)
  /-- REGROW (R183) -/
  | regrow (ring : Fin 64)
  /-- REMASK (R183) -/
  | remask (ring : Fin 64)
  /-- PREDICT (R195) -/
  | predict (ring : Fin 64)
  /-- FUSED_GRG (R233) -/
  | fusedGrg (ring : Fin 64)
  /-- UPDATE (R250) -/
  | update (ring : Fin 64)
  /-- UPDATE_ACCUM (R250) -/
  | updateAccum (ring : Fin 64)
  /-- UPDATE_NETWORK (R254) -/
  | updateNetwork (ring : Fin 64)
  /-- UPDATE_STEP (R246) -/
  | updateStep (ring : Fin 64)
  /-- NORM_PARTIAL (R242) -/
  | normPartial (ring : Fin 64)
  /-- NORM_CLOSE (R243) -/
  | normClose (ring : Fin 64)
  /-- NORM_CLOSE_POD (R243) -/
  | normClosePod (ring : Fin 64)
  /-- RECOMPUTE (R258) -/
  | recompute (ring : Fin 64)
  /-- SHEAF_OPEN (R284) -/
  | sheafOpen (ring : Fin 64)
  /-- SHEAF_COMMIT (R278) -/
  | sheafCommit (ring : Fin 64)
  /-- SHEAF_COMMIT_POINT (R278) -/
  | sheafCommitPoint (sheaf : Fin 4096)
  /-- SHEAF_PROMOTION_END (R278) -/
  | sheafPromotionEnd (sheaf : Fin 4096)
  /-- SHEAF_ABORT (R285) -/
  | sheafAbort (ring : Fin 64)
  /-- ROUTE_DISPATCH (R294) -/
  | routeDispatch (ring : Fin 64)
  /-- COUNT_EXCHANGE (R295) -/
  | countExchange (gen : Nat) (round : Nat) (counts : List (Bool × Nat × List Nat))
  /-- ROUTE_RUN (R299) -/
  | routeRun (ring : Fin 64)
  /-- EXPERT_FETCH_DONE (R300) -/
  | expertFetchDone (gen : Nat) (expert : Nat)
  /-- ROUTE_COMBINE (R304) -/
  | routeCombine (ring : Fin 64)
  /-- A2A_TIMEOUT (R304) -/
  | a2aTimeout (gen : Nat)
  /-- CANCEL (R306) -/
  | cancel (ring : Fin 64)
  /-- REDUCE (R366) -/
  | reduce (ring : Fin 64)
  /-- REDUCE_STEPREC (R373) -/
  | reduceSteprec (ring : Fin 64)
  /-- ALLTOALL (R379) -/
  | alltoall (ring : Fin 64)
  /-- SEND (R380) -/
  | send (ring : Fin 64)
  /-- RECV (R380) -/
  | recv (ring : Fin 64)
  /-- BARRIER (R379) -/
  | barrier (ring : Fin 64)
  /-- BARRIER_TIMEOUT (R381) -/
  | barrierTimeout (coll : Nat)
  /-- SNAPSHOT_TAKE (R388) -/
  | snapshotTake (ring : Fin 64)
  /-- SNAPSHOT_COPY (R388) -/
  | snapshotCopy
  /-- SNAPSHOT_COPY_DONE (R388) -/
  | snapshotCopyDone
  /-- SNAPSHOT_TIMEOUT (R388) -/
  | snapshotTimeout (ring : Fin 64)
  /-- SNAPSHOT_DRAIN (R394) -/
  | snapshotDrain (ring : Fin 64)
  /-- SNAPSHOT_UNLOCK (R394) -/
  | snapshotUnlock (ring : Fin 64)
  /-- RESTORE (R395) -/
  | restore (ring : Fin 64)
  /-- MAINT (R485) -/
  | maint (ring : Fin 64)
  /-- LIST_ENTRY_TAKE (R206) -/
  | listEntryTake (tiller : Fin 192)
  /-- LIST_ENTRY_DONE (R205) -/
  | listEntryDone (tiller : Fin 192) (ctx : Fin 8)
  /-- PROMOTION_DONE (R31) -/
  | promotionDone (space : Fin 16) (page : Nat)
  /-- HDM_WINDOW_ACCESS (R40) -/
  | hdmWindowAccess (offset : Nat) (access : Machine.HostAccess)
  /-- DATA (R361) -/
  | data (frame : Machine.Culm)
  /-- ACK (R361) -/
  | ack (frame : Machine.Culm)
  /-- NAK (R362) -/
  | nak (frame : Machine.Culm)
  /-- CREDIT (R364) -/
  | credit (frame : Machine.Culm)
  /-- BARRIER_ARRIVE (R379) -/
  | barrierArrive (frame : Machine.Culm)
  /-- BARRIER_RELEASE (R379) -/
  | barrierRelease (frame : Machine.Culm)
  /-- READY (R370) -/
  | ready (frame : Machine.Culm)
  /-- BITMAP (R370) -/
  | bitmap (frame : Machine.Culm)
  /-- ABORT (R382) -/
  | abort (frame : Machine.Culm)
  /-- CANCEL_FRAME (R306) -/
  | cancelFrame (frame : Machine.Culm)
  /-- FINGERPRINT (R256) -/
  | fingerprint (frame : Machine.Culm)
  /-- VERDICT_MATCH (R256) -/
  | verdictMatch (frame : Machine.Culm)
  /-- VERDICT_MISMATCH (R257) -/
  | verdictMismatch (frame : Machine.Culm)
  /-- FP_DEADLINE (R256) -/
  | fpDeadline (shard : Nat) (step : Nat)
  /-- SHARD_RET (R376) -/
  | shardRet (frame : Machine.Culm)
  /-- NET_TIMEOUT (R254) -/
  | netTimeout (shard : Nat)
  /-- STEPREC (R373) -/
  | steprec (frame : Machine.Culm)
  /-- CONNECTION_RESET_NAK (R363) -/
  | connectionResetNak (frame : Machine.Culm)
  /-- CONNECTION_RESET_ACK (R363) -/
  | connectionResetAck (frame : Machine.Culm)
  /-- FRAME_DISCARD (R359) -/
  | frameDiscard (known : Option (Nat × Nat × Nat))
  /-- PFC_PAUSE (R352) -/
  | pfcPause (port : Fin 8) (on : Bool)
  /-- PTP_MESSAGE (R353) -/
  | ptpMessage (offset : Int)
  /-- ACK_TIMER (R361) -/
  | ackTimer (peer : Nat) (cls : Fin 2)
  /-- REORDER_TIMEOUT (R361) -/
  | reorderTimeout (peer : Nat) (cls : Fin 2)
  /-- RETX_TIMEOUT (R362) -/
  | retxTimeout (peer : Nat) (cls : Fin 2)
  /-- DEADLINE_EXPIRY (R370) -/
  | deadlineExpiry (coll : Nat)
  /-- PEER_TIMEOUT (R370) -/
  | peerTimeout (coll : Nat)
  /-- LANE_TRAINING_FAIL (R351) -/
  | laneTrainingFail (lane : Fin 32)
  /-- CORRECTABLE_ERROR (R423) -/
  | correctableError (granary : Bool) (dpa : Nat) (syndrome : Nat)
  /-- UNCORRECTABLE_ERROR (R425) -/
  | uncorrectableError (place : Machine.UeAt)
  /-- PARITY_REFETCH (R423) -/
  | parityRefetch (place : Machine.ParityAt)
  /-- CRIB_PARITY (R423) -/
  | cribParity (tiller : Fin 192) (ctx : Nat) (bank : Fin 16)
  /-- FLIT_RETRY (R423) -/
  | flitRetry (seam : Bool) (retries : Nat)
  /-- FLIT_RETRY_EXHAUSTED (R423) -/
  | flitRetryExhausted
  /-- LANE_EVENT (R423) -/
  | laneEvent (lane : Fin 32)
  /-- HPC_COPY_DONE (R431) -/
  | hpcCopyDone (channel : Fin 1024)
  /-- WATCHDOG_MISS (R454) -/
  | watchdogMiss (unit : Fin 6)
  /-- HEARTH_WATCHDOG_EXPIRY (R454) -/
  | hearthWatchdogExpiry
  /-- HALF_RESET (R521) -/
  | halfReset (half : Fin 2)
  /-- HALF_RESET_EXIT (R281) -/
  | halfResetExit (half : Fin 2)
  /-- IDE_INTEGRITY_FAILURE (R461) -/
  | ideIntegrityFailure (stream : Nat)
  /-- THROTTLE_START (R412) -/
  | throttleStart (sensor : Fin 32) (reading : Int)
  /-- THROTTLE_ESCALATE (R412) -/
  | throttleEscalate (sensor : Fin 32) (reading : Int)
  /-- THROTTLE_END (R412) -/
  | throttleEnd (sensor : Fin 32) (reading : Int)
  /-- POWER_CAP (R412) -/
  | powerCap (watts : Nat) (cycles0 : Nat) (cycles1 : Nat)
  /-- POWER_CAP_RELEASE (R412) -/
  | powerCapRelease (watts : Nat)
  /-- POWER_EXCURSION (R412) -/
  | powerExcursion (watts : Nat)
  /-- CURRENT_LIMIT (R493) -/
  | currentLimit (watts : Nat)
  /-- OVERCURRENT (R493) -/
  | overcurrent
  /-- THERMAL_TRIP (R509) -/
  | thermalTrip (sensor : Fin 36) (reading : Int)
  /-- TRIP_SWITCH_OPEN (R509) -/
  | tripSwitchOpen
  /-- VIN_OUT_OF_RANGE (R492) -/
  | vinOutOfRange (vin : Nat)
  /-- VIN_COLLAPSE (R492) -/
  | vinCollapse (vin : Nat)
  /-- VIN_RISE (R494) -/
  | vinRise (vin : Nat)
  /-- PRECHARGE_DONE (R494) -/
  | prechargeDone
  /-- HEARTH_START (R500) -/
  | hearthStart (aux : Bool)
  /-- PRSNT_HIGH (R490) -/
  | prsntHigh
  /-- REFERENCE_LOST (R407) -/
  | referenceLost
  /-- ROOT_PLL_LOCK (R407) -/
  | rootPllLock
  /-- COLD_RESET (R498) -/
  | coldReset
  /-- MEMTRAIN_DONE (R500) -/
  | memtrainDone
  /-- WARM_RESET (R498) -/
  | warmReset (how : Machine.WarmBy)
  /-- FLR (R498) -/
  | flr
  /-- D3HOT_ENTRY (R416) -/
  | d3hotEntry
  /-- D3HOT_EXIT (R415) -/
  | d3hotExit
  /-- SEAM_REOPEN (R409) -/
  | seamReopen
  /-- CLOCK_RAISE_STEP (R410) -/
  | clockRaiseStep (half : Fin 2)
  /-- HBM_RT (R473) -/
  | hbmRt (stack : Fin 16)
  /-- L_RT (R473) -/
  | lRt (channel : Fin 32)
  /-- P_RT (R473) -/
  | pRt (channel : Fin 16)
  /-- LANE (R473) -/
  | lane (lane : Fin 32)
  /-- CLOCK (R411) -/
  | clock (half : Fin 2)
  /-- IDLE (R415) -/
  | idle
  /-- DOMAIN (R414) -/
  | domain (how : Machine.DomainBy)
  /-- FW (R468) -/
  | fw (segment : Fin 6)
  /-- FW_SWAP (R468) -/
  | fwSwap
  /-- SCRUB (R478) -/
  | scrub (part : Fin 6)
  /-- TLR_RET (R482) -/
  | tlrRet (tiller : Fin 192)
  /-- TLR_REIN (R482) -/
  | tlrRein (tiller : Fin 192)
  /-- SENSOR (R483) -/
  | sensor (group : Fin 4)
  /-- DRAIN (R393) -/
  | drain (image : Nat)
  /-- CH_RET (R432) -/
  | chRet (channel : Fin 48)
  /-- MAINT_ACTIVITY_END (R479) -/
  | maintActivityEnd (request : Nat)
  /-- QUEUE_TIMEOUT (R477) -/
  | queueTimeout (request : Nat)
  /-- MNT_CANCEL (R477) -/
  | mntCancel (request : Nat)
  /-- AUTO_RT_REQUEST (R478) -/
  | autoRtRequest (kind : Fin 3) (unit : Nat)
  /-- LANE_RECAL_REQUEST (R478) -/
  | laneRecalRequest (lane : Fin 32)
  /-- SENSOR_RECAL_TIMER (R478) -/
  | sensorRecalTimer
  /-- OTP_PROG (R456) -/
  | otpProg (queue : Bool)
  /-- OTP_RB_ADV (R457) -/
  | otpRbAdv (counter : Fin 8) (target : Fin 128)
  /-- KLN_NONCE_REQ (R463) -/
  | klnNonceReq
  /-- KLN_TOK_GO (R464) -/
  | klnTokGo
  /-- KLN_DBG_CLOSE (R464) -/
  | klnDbgClose
  /-- KLN_RCV_GO (R452) -/
  | klnRcvGo (segments : List (List Byte))
  /-- SPDM_REQUEST (R459) -/
  | spdmRequest (transport : Fin 2) (request : Machine.Spdm)
  /-- IDE_KM (R461) -/
  | ideKm (session : Nat) (stream : Nat) (key : List Byte)
  /-- PLDM_FIRMWARE_UPDATE (R468) -/
  | pldmFirmwareUpdate (segment : Fin 6) (bytes : List Byte)
  /-- ASH_READ (R441) -/
  | ashRead (start : Nat) (count : Nat)
  /-- MCTP_MON_READ (R441) -/
  | mctpMonRead (slot : Nat) (restart : Nat)
  /-- ENTDAA (R504) -/
  | entdaa (address : Fin 128)
  /-- SET_ENDPOINT_ID (R505) -/
  | setEndpointId (eid : Fin 256)
  /-- ASH_THAW (R440) -/
  | ashThaw
  /-- MON_RESTART (R443) -/
  | monRestart (slots : BitVec 64)
  /-- MONITOR_WINDOW_END (R443) -/
  | monitorWindowEnd (slot : Fin 64)
  /-- DBG_STOKER_HALT (R518) -/
  | dbgStokerHalt (mask : Fin 256)
  /-- DBG_STOKER_STEP (R518) -/
  | dbgStokerStep (mask : Fin 256)
  /-- DEBUG_WINDOW_WRITE (R518) -/
  | debugWindowWrite (offset : Nat) (size : Nat) (value : Nat)
  /-- PORT_UP (R351) -/
  | portUp (port : Fin 8)
  /-- PREEMPTION_VERIFIED (R352) -/
  | preemptionVerified (port : Fin 8)
  /-- PRI_RESET (R335) -/
  | priReset
  /-- HDM_DECODER_COMMIT (R348) -/
  | hdmDecoderCommit
  /-- PME_STATUS_CLEAR (R506) -/
  | pmeStatusClear
  /-- MONITOR_SAMPLE (R442) -/
  | monitorSample (readings : List (Nat × Nat × Int))
  /-- STRAGGLER_TIMEOUT (R374) -/
  | stragglerTimeout (coll : Nat) (rank : Nat)
  /-- AUX_12V_LOSS (R495) -/
  | aux12vLoss
  /-- PERST_DEASSERTION (R452) -/
  | perstDeassertion
  deriving DecidableEq, Repr

end Sys2Proof
end

