-- ==== Sys2Proof/WellFormed.lean ====
section
/-!
DEFINITION. Well-formed commands: the numbers a command carries lie in the widths the spec gives their fields. The
machine gives every command a meaning; `Instr.wf` says which terms stand for something that can arrive.
-/
namespace Sys2Proof
open Machine

/-- A number of at most `w` bits. -/
def fits (w n : Nat) : Bool := decide (n < 2 ^ w)

/-- A fetched slot is 64 bytes (R316). -/
def slotWf (bs : List Byte) : Bool := decide (bs.length = 64)

/-- A Culm frame's fields fit Table 12.5. -/
def Machine.Culm.wf (f : Culm) : Bool :=
  fits 4 f.ty && fits 2 f.epoch && fits 12 f.src && fits 12 f.dst && fits 16 f.group && fits 32 f.psn &&
  fits 32 f.msg && fits 64 f.ofs && fits 8 f.aux && fits 8 f.aux2 && fits 32 f.aux32 &&
  decide (f.payload.length ≤ 4096)

/-- An access to BAR0: inside its 64 MiB, of 4 or 8 bytes and aligned, with a value of that size (R512, R513). -/
def accessWf (offset size value : Nat) : Bool :=
  (size = 4 || size = 8) && offset % size = 0 && fits 26 offset && fits (8 * size) value

/-- A place of an uncorrectable error. -/
def Machine.UeAt.wf : UeAt → Bool
  | .line _ a s => fits 43 a && fits 32 s
  | .host a => fits 64 a
  | .bin _ k => fits 3 k
  | .crib _ k _ => fits 3 k
  | .sram => true

/-- A place of a parity error. -/
def Machine.ParityAt.wf : ParityAt → Bool
  | .granary a _ => fits 43 a
  | .bin _ k _ => fits 3 k

/-- A CXL.mem access carries 64 bytes when it writes. -/
def Machine.HostAccess.wf : HostAccess → Bool
  | .write bs => slotWf bs
  | .shared => true
  | .owned => true
  | .release => true

/-- An SPDM request's operands fit their fields; a token is 128 bytes (R463). -/
def Machine.Spdm.wf : Spdm → Bool
  | .agree => true
  | .certificate s o l => fits 4 s && fits 16 o && fits 16 l
  | .challenge s => fits 4 s
  | .measurements b _ => fits 8 b
  | .keyExchange => true
  | .heartbeat s => fits 32 s
  | .keyUpdate s => fits 32 s
  | .endSession s => fits 32 s
  | .nonce => true
  | .token bs => decide (bs.length = 128)
  | .windowRead o l => fits 26 o && fits 16 l
  | .windowWrite o z v => accessWf o z v
  | .other => true

/-- The operands of a command fit the fields they stand for. -/
def Instr.wf : Instr → Bool
  | .sqTail _ tail => fits 32 tail
  | .cqHead _ head => fits 32 head
  | .nqHead _ head => fits 32 head
  | .descriptorFetch _ slots => decide (slots.length ≤ 32) && slots.all fun x => slotWf x.1
  | .resume _ => true
  | .skip _ => true
  | .ringResumeCancel _ pendingSlots => pendingSlots.all slotWf
  | .ringEnable _ => true
  | .ringDisable _ => true
  | .registerCommit _ => true
  | .registerWrite offset size value => accessWf offset size value
  | .redWaysApply _ => true
  | .phxRngWrite => true
  | .phxTrapArm => true
  | .phxLsLoad _ _ => true
  | .atuInv _ _ address => fits 52 address
  | .atuInvComplete => true
  | .atsInvalidation pasid page pages => fits 52 page && fits 52 pages && pasid.all (fits 20)
  | .descriptorComplete _ seq => fits 32 seq
  | .msixCoalesceExpiry _ => true
  | .priSuccess _ => true
  | .priInvalidRequest _ => true
  | .priResponseFailure _ => true
  | .priTimeout _ => true
  | .nop _ => true
  | .fence _ => true
  | .fenceTimeout _ => true
  | .logRead _ => true
  | .monRead _ => true
  | .promote _ => true
  | .demote _ => true
  | .gemm _ => true
  | .copy _ => true
  | .gather _ => true
  | .scatterAdd _ => true
  | .gemmSp _ => true
  | .compress _ => true
  | .prune _ => true
  | .regrow _ => true
  | .remask _ => true
  | .predict _ => true
  | .fusedGrg _ => true
  | .update _ => true
  | .updateAccum _ => true
  | .updateNetwork _ => true
  | .updateStep _ => true
  | .normPartial _ => true
  | .normClose _ => true
  | .normClosePod _ => true
  | .recompute _ => true
  | .sheafOpen _ => true
  | .sheafCommit _ => true
  | .sheafCommitPoint _ => true
  | .sheafPromotionEnd _ => true
  | .sheafAbort _ => true
  | .routeDispatch _ => true
  | .countExchange gen round _ => fits 16 gen && fits 8 round
  | .routeRun _ => true
  | .expertFetchDone gen expert => fits 16 gen && fits 16 expert
  | .routeCombine _ => true
  | .a2aTimeout gen => fits 16 gen
  | .cancel _ => true
  | .reduce _ => true
  | .reduceSteprec _ => true
  | .alltoall _ => true
  | .send _ => true
  | .recv _ => true
  | .barrier _ => true
  | .barrierTimeout coll => fits 32 coll
  | .snapshotTake _ => true
  | .snapshotCopy => true
  | .snapshotCopyDone => true
  | .snapshotTimeout _ => true
  | .snapshotDrain _ => true
  | .snapshotUnlock _ => true
  | .restore _ => true
  | .maint _ => true
  | .listEntryTake _ => true
  | .listEntryDone _ _ => true
  | .promotionDone _ page => fits 52 page
  | .hdmWindowAccess offset access => fits 41 offset && access.wf
  | .data frame => frame.wf
  | .ack frame => frame.wf
  | .nak frame => frame.wf
  | .credit frame => frame.wf
  | .barrierArrive frame => frame.wf
  | .barrierRelease frame => frame.wf
  | .ready frame => frame.wf
  | .bitmap frame => frame.wf
  | .abort frame => frame.wf
  | .cancelFrame frame => frame.wf
  | .fingerprint frame => frame.wf
  | .verdictMatch frame => frame.wf
  | .verdictMismatch frame => frame.wf
  | .fpDeadline shard step => fits 32 shard && fits 64 step
  | .shardRet frame => frame.wf
  | .netTimeout shard => fits 32 shard
  | .steprec frame => frame.wf
  | .connectionResetNak frame => frame.wf
  | .connectionResetAck frame => frame.wf
  | .frameDiscard known => known.all fun x => fits 12 x.1 && fits 1 x.2.1 && fits 32 x.2.2
  | .pfcPause _ _ => true
  | .ptpMessage _ => true
  | .ackTimer peer _ => fits 12 peer
  | .reorderTimeout peer _ => fits 12 peer
  | .retxTimeout peer _ => fits 12 peer
  | .deadlineExpiry coll => fits 32 coll
  | .peerTimeout coll => fits 32 coll
  | .laneTrainingFail _ => true
  | .correctableError _ dpa syndrome => fits 43 dpa && fits 32 syndrome
  | .uncorrectableError place => place.wf
  | .parityRefetch place => place.wf
  | .cribParity _ ctx _ => fits 3 ctx
  | .flitRetry _ retries => decide (1 ≤ retries) && decide (retries ≤ 8)
  | .flitRetryExhausted => true
  | .laneEvent _ => true
  | .hpcCopyDone _ => true
  | .watchdogMiss _ => true
  | .hearthWatchdogExpiry => true
  | .halfReset _ => true
  | .halfResetExit _ => true
  | .ideIntegrityFailure stream => fits 32 stream
  | .throttleStart _ _ => true
  | .throttleEscalate _ _ => true
  | .throttleEnd _ _ => true
  | .powerCap watts _ _ => fits 32 watts
  | .powerCapRelease watts => fits 32 watts
  | .powerExcursion watts => fits 32 watts
  | .currentLimit watts => fits 32 watts
  | .overcurrent => true
  | .thermalTrip _ _ => true
  | .tripSwitchOpen => true
  | .vinOutOfRange vin => fits 16 vin
  | .vinCollapse vin => fits 16 vin
  | .vinRise vin => fits 16 vin
  | .prechargeDone => true
  | .hearthStart _ => true
  | .prsntHigh => true
  | .referenceLost => true
  | .rootPllLock => true
  | .coldReset => true
  | .memtrainDone => true
  | .warmReset _ => true
  | .flr => true
  | .d3hotEntry => true
  | .d3hotExit => true
  | .seamReopen => true
  | .clockRaiseStep _ => true
  | .hbmRt _ => true
  | .lRt _ => true
  | .pRt _ => true
  | .lane _ => true
  | .clock _ => true
  | .idle => true
  | .domain _ => true
  | .fw _ => true
  | .fwSwap => true
  | .scrub _ => true
  | .tlrRet _ => true
  | .tlrRein _ => true
  | .sensor _ => true
  | .drain image => fits 43 image
  | .chRet _ => true
  | .maintActivityEnd request => fits 32 request
  | .queueTimeout request => fits 32 request
  | .mntCancel request => fits 32 request
  | .autoRtRequest _ unit => fits 5 unit
  | .laneRecalRequest _ => true
  | .sensorRecalTimer => true
  | .otpProg _ => true
  | .otpRbAdv _ _ => true
  | .klnNonceReq => true
  | .klnTokGo => true
  | .klnDbgClose => true
  | .klnRcvGo segments => decide (segments.length ≤ 6)
  | .spdmRequest _ request => request.wf
  | .ideKm _ _ key => decide (key.length = 32)
  | .pldmFirmwareUpdate _ bytes => decide (bytes.length ≤ 8388864)
  | .ashRead start count => fits 16 start && fits 8 count
  | .mctpMonRead slot restart => fits 8 slot && fits 8 restart
  | .entdaa _ => true
  | .setEndpointId _ => true
  | .ashThaw => true
  | .monRestart _ => true
  | .monitorWindowEnd _ => true
  | .dbgStokerHalt _ => true
  | .dbgStokerStep _ => true
  | .debugWindowWrite offset size value => accessWf offset size value
  | .portUp _ => true
  | .preemptionVerified _ => true
  | .priReset => true
  | .hdmDecoderCommit => true
  | .pmeStatusClear => true
  | .monitorSample readings => decide (readings.length ≤ 64)
  | .stragglerTimeout coll rank => fits 32 coll && fits 16 rank
  | .aux12vLoss => true
  | .perstDeassertion => true

end Sys2Proof
end

