-- ==== Sys2Proof/Decode.lean ====
section
/-!
DEFINITION. The decoder of table words: spec/opcode_table.json gives no row any bits, so no word spells a command.
-/
namespace Sys2Proof

/-- The command a word of `nbits` bits spells: the table gives no row bits, so there is none. -/
def decodeTableWord (_nbits _w : Nat) : Option Instr := none

end Sys2Proof
end

