-- ==== Sys2Proof/Config.lean ====
section
/-!
DEFINITION. What the spec leaves open: free values. Each is an opaque constant, a function without a body, so that
no proof can lean on a value of it. A fresh value each time is the constant applied to the counter `draws` of the
state, which the step reads and advances.
-/
namespace Sys2Proof.Config
open Sys2Proof.Machine

/-- What the host answers an ATS request with: the granted target page, read and write permission, or no grant
(R25, R335). Arguments: draw, PASID or none, host page, write. -/
opaque atsAnswer : Nat → Option Nat → Nat → Bool → Option (Nat × Bool × Bool)

/-- How many page requests the host has allocated in the PRI capability (R335): no command of the table sets it. -/
opaque priAllocation : Nat

/-- Quern's exp, by its one fixed procedure, which the spec bounds and does not give (R225). -/
opaque quernExp : FV → FV
/-- Quern's GELU through erf (R225). -/
opaque quernGeluErf : FV → FV
/-- Quern's GELU through tanh (R225). -/
opaque quernGeluTanh : FV → FV
/-- Quern's SILU (R225). -/
opaque quernSilu : FV → FV

/-- A byte whose value the spec does not fix, by draw and index. -/
opaque freeByte : Nat → Nat → Byte
/-- A number whose value the spec does not fix, by draw and index. -/
opaque freeNat : Nat → Nat → Nat

/-- What a counter of cycles, hits, misses or flits reads, by the time and the register's offset: these show timing only
(R28, R236, R422). -/
opaque timingCount : Nat → Nat → Word

/-- The granary's hash of a line's address bits 35:7 to a set of its slice (Table 1.7), which the spec does not give. -/
opaque granarySet : Nat → Nat

/-- The public key of a vendor key slot, as a bundle carries it (R451); the spec does not give the bundle's layout. -/
opaque slotKey : Nat → List Byte

/-- The device secret (R455): no path reads it. -/
opaque deviceSecret : List Byte

end Sys2Proof.Config
end

