-- ==== Sys2Proof/Machine/Ops.lean ====
section
/-!
DEFINITION. Named operations over registers, counters, rings and memory: the only ways the meanings read and write
them.
-/
namespace Sys2Proof.Machine

/-! ### Numbers and bytes -/

/-- The little-endian number of a list of bytes. -/
def leNat : List Byte → Nat
  | [] => 0
  | b :: bs => b.toNat + 256 * leNat bs

/-- `k` bytes of a number, little-endian. -/
def toLe : Nat → Nat → List Byte
  | 0, _ => []
  | k + 1, n => BitVec.ofNat 8 n :: toLe k (n / 256)

/-- Bytes `o` to `o + k - 1` of a list; bytes past its end read 0. -/
def slice (bs : List Byte) (o k : Nat) : List Byte :=
  let l := (bs.drop o).take k
  l ++ List.replicate (k - l.length) 0

/-- The little-endian field of `k` bytes at `o`. -/
def leAt (bs : List Byte) (o k : Nat) : Nat := leNat (slice bs o k)

/-- Are bytes `o` to `o + k - 1` all zero. -/
def zeroAt (bs : List Byte) (o k : Nat) : Bool := (slice bs o k).all (· == 0)

/-- The product of a list of numbers. -/
def prodNat (l : List Nat) : Nat := l.foldl (· * ·) 1

/-! ### Registers (R9) -/

/-- The committed value of a register. -/
def Regs.val (r : Regs) (off : Nat) : Word := Tab.get regReset r.committed off

/-- The staged value of a register, which a read returns (R9). -/
def Regs.stagedVal (r : Regs) (off : Nat) : Word := Tab.get regReset r.staged off

/-- The value in force of a register whose change is delayed (Table 19.4). -/
def Regs.inForce (r : Regs) (off : Nat) : Word := Tab.get regReset r.force off

/-- A status register's W1C bits. -/
def Regs.statVal (r : Regs) (off : Nat) : Word := Tab.get (fun _ => 0) r.stat off

/-- A counter. -/
def Regs.cntVal (r : Regs) (off : Nat) : Word := Tab.get (fun _ => 0) r.cnt off

/-- Writes the staged value. -/
def Regs.stage (r : Regs) (off : Nat) (w : Word) : Regs := { r with staged := Tab.set regReset r.staged off w }

/-- Writes the committed value. -/
def Regs.commit (r : Regs) (off : Nat) (w : Word) : Regs :=
  { r with committed := Tab.set regReset r.committed off w }

/-- Writes the value in force. -/
def Regs.setForce (r : Regs) (off : Nat) (w : Word) : Regs := { r with force := Tab.set regReset r.force off w }

/-- Sets bit `i` of a status register. -/
def Regs.setStat (r : Regs) (off i : Nat) : Regs :=
  { r with stat := Tab.modify (fun _ => 0) r.stat off fun w => w ||| BitVec.ofNat 64 (2 ^ i) }

/-- Clears the bits of `m` in a status register. -/
def Regs.clearStat (r : Regs) (off : Nat) (m : Word) : Regs :=
  { r with stat := Tab.modify (fun _ => 0) r.stat off fun w => w &&& ~~~m }

/-- Adds `n` to a counter, wrapping (R514). -/
def Regs.bump (r : Regs) (off n : Nat) : Regs :=
  { r with cnt := Tab.modify (fun _ => 0) r.cnt off fun w => w + BitVec.ofNat 64 n }

namespace Dp

/-- The committed value of a register. -/
def reg (d : Dp) (off : Nat) : Word := d.regs.val off

/-- Adds to a counter. -/
def bump (d : Dp) (off : Nat) (n : Nat := 1) : Dp := { d with regs := d.regs.bump off n }

/-- Sets a bit of a status register. -/
def setStat (d : Dp) (off i : Nat) : Dp := { d with regs := d.regs.setStat off i }

/-! ### Rings -/

/-- Submission ring `n`. -/
def ring (d : Dp) (n : Nat) : Ring := Tab.get (fun _ => {}) d.rings n

/-- Writes submission ring `n`. -/
def setRing (d : Dp) (n : Nat) (r : Ring) : Dp := { d with rings := Tab.set (fun _ => {}) d.rings n r }

/-- Completion ring `n`. -/
def cq (d : Dp) (n : Nat) : Cq := Tab.get (fun _ => {}) d.cqs n

/-- Writes completion ring `n`. -/
def setCq (d : Dp) (n : Nat) (c : Cq) : Dp := { d with cqs := Tab.set (fun _ => {}) d.cqs n c }

/-- Notice ring `k`. -/
def nq (d : Dp) (k : Nat) : Nq := Tab.get (fun _ => {}) d.nqs k

/-- Writes notice ring `k`. -/
def setNq (d : Dp) (k : Nat) (q : Nq) : Dp := { d with nqs := Tab.set (fun _ => {}) d.nqs k q }

/-- MSI-X vector `v`. -/
def vec (d : Dp) (v : Nat) : Vector := Tab.get (fun _ => {}) d.vecs v

/-- Writes MSI-X vector `v`. -/
def setVec (d : Dp) (v : Nat) (x : Vector) : Dp := { d with vecs := Tab.set (fun _ => {}) d.vecs v x }

/-- Slots of submission ring `n` (Table 11.1). -/
def sqSize (d : Dp) (n : Nat) : Nat := 2 ^ (d.reg (Reg.ringCfg n)).fld 48 44

/-- Records of completion ring `n`. -/
def cqSize (d : Dp) (n : Nat) : Nat := 2 ^ (d.reg (Reg.cqCfg n)).fld 12 8

/-- Entries of notice ring `k`. -/
def nqSize (d : Dp) (k : Nat) : Nat := 2 ^ (d.reg (Reg.nqCfg k)).fld 12 8

/-- The address space of ring `n`. -/
def spaceOf (d : Dp) (n : Nat) : Nat := (d.reg (Reg.ringCfg n)).fld 37 34

/-- The halves to which ring `n` dispatches (R209). -/
def halvesOf (d : Dp) (n : Nat) : List Nat :=
  match (d.reg (Reg.ringCfg n)).fld 33 32 with
  | 1 => [0]
  | 2 => [1]
  | _ => [0, 1]

/-- The half of a ring's first dispatch Stoker (R322). -/
def stokerHalf (d : Dp) (n : Nat) : Nat := (d.halvesOf n).headD 0

/-- The outstanding descriptor with number `uid`, with its ring. -/
def findOutst (d : Dp) (uid : Nat) : Option (Nat × Outst) :=
  d.rings.findSome? fun (n, r) => (r.outst.find? (·.uid == uid)).map fun o => (n, o)

/-- Changes the outstanding descriptor with number `uid` on ring `n`. -/
def modOutst (d : Dp) (n uid : Nat) (f : Outst → Outst) : Dp :=
  let r := d.ring n
  d.setRing n { r with outst := r.outst.map fun o => if o.uid = uid then f o else o }

/-- Changes the outstanding descriptor with number `uid`, on whichever ring it is. -/
def modUid (d : Dp) (uid : Nat) (f : Outst → Outst) : Dp :=
  match d.findOutst uid with
  | some (n, _) => d.modOutst n uid f
  | none => d

/-- Sets the phase of an outstanding descriptor. -/
def setPhase (d : Dp) (uid : Nat) (p : Phase) : Dp := d.modUid uid fun o => { o with phase := p }

/-! ### The device physical address map (R13–R16) -/

/-- Tiers by number as descriptors and leaves code them: 0 H, 1 L, 2 P. -/
def tierOf (a : Nat) : Option Nat :=
  if a < 0x012000000000 then some 0
  else if 0x020000000000 ≤ a && a < 0x038000000000 then some 1
  else if 0x040000000000 ≤ a && a < 0x058000000000 then some 2
  else none

/-- First address and first address past the end of a tier (Table 1.1). -/
def tierRange (t : Nat) : Nat × Nat :=
  match t with
  | 0 => (0, 0x012000000000)
  | 1 => (0x020000000000, 0x038000000000)
  | 2 => (0x040000000000, 0x058000000000)
  | _ => (0, 0)

/-- Does `[a, a + n)` lie inside tier `t`. -/
def insideTier (t a n : Nat) : Bool :=
  let (lo, hi) := tierRange t
  lo ≤ a && a + n ≤ hi

/-- The tier L granule of MEM_CTL.L_GRAN in bytes (Table 1.2). -/
def lGran (d : Dp) : Nat :=
  match (d.reg Reg.memCtl).fld 5 4 with
  | 0 => 4096
  | 1 => 65536
  | _ => 2097152

/-- Where R14 places an address: half and, within the tier, stack (H), channel (L) or peat channel (P). -/
def place (d : Dp) (a : Nat) : Nat × Nat :=
  if a < 0x012000000000 then
    let h := if a < 0x009000000000 then 0 else 1
    let o := a - (if h = 0 then 0 else 0x009000000000)
    let s := ((natFld o 14 12) ^^^ (natFld o 23 21)) ^^^ (natFld o 32 30)
    (h, 8 * h + s)
  else if a < 0x038000000000 then
    let h := if a < 0x02C000000000 then 0 else 1
    let o := a - (if h = 0 then 0x020000000000 else 0x02C000000000)
    (h, 16 * h + (o / d.lGran) % 16)
  else if (d.reg Reg.memCtl).bit 3 then
    let h := if a < 0x04C000000000 then 0 else 1
    let o := a - (if h = 0 then 0x040000000000 else 0x04C000000000)
    (h, 8 * h + (o / 4096) % 8)
  else
    let c := ((a - 0x040000000000) / 4096) % 16
    (c / 8, c)

/-- The pseudo-channel of a tier H address within its stack (Table 1.2). -/
def pseudoChannel (a : Nat) : Nat :=
  let o := a - (if a < 0x009000000000 then 0 else 0x009000000000)
  natFld ((o / 2 ^ 15) * 2 ^ 12 + o % 2 ^ 12) 13 8

/-- The half that holds an address. -/
def halfOf (d : Dp) (a : Nat) : Nat := (d.place a).1

/-- MEM_H_LIMITh. -/
def hLimit (d : Dp) (h : Nat) : Nat := if h = 0 then d.mem.hLimit0 else d.mem.hLimit1

/-- Is a tier H address at or above the limit of its half (R16). -/
def withdrawn (d : Dp) (a : Nat) : Bool :=
  a < 0x012000000000 && (d.hLimit (if a < 0x009000000000 then 0 else 1) ≤ a)

/-- Is an address in the sheaf journal (Table 1.3). -/
def inJournal (a : Nat) : Bool := 0x020000000000 ≤ a && a < 0x020004000000

/-- Is an address in the CXL HDM window (Table 1.3, R40). -/
def inHdm (d : Dp) (a : Nat) : Bool :=
  let w := d.reg Reg.memHdm
  let gib := 2 ^ 30
  (0x058000000000 - w.fld 26 16 * gib ≤ a && a < 0x058000000000) ||
  (0x038000000000 - w.fld 8 0 * gib ≤ a && a < 0x038000000000)

/-- Base and size in bytes of the promotion pool of half `h`: (base, bytes of large frames, bytes of small frames). -/
def pool (d : Dp) (h : Nat) : Nat × Nat × Nat :=
  let s := d.reg (Reg.poolSize h)
  ((d.reg (Reg.poolBase h)).fld 47 30 * 2 ^ 30, s.fld 31 16 * 2 ^ 30, s.fld 15 0 * 2 ^ 30)

/-- Is an address in the promotion pool of half `h`. -/
def inPoolOf (d : Dp) (h a : Nat) : Bool :=
  let (b, l, s) := d.pool h
  b ≤ a && a < b + l + s

/-- Is an address in a promotion pool. -/
def inPool (d : Dp) (a : Nat) : Bool := d.inPoolOf 0 a || d.inPoolOf 1 a

/-- Is an address in a retired tier L or peat channel (R432). -/
def retiredChannel (d : Dp) (a : Nat) : Bool :=
  match tierOf a with
  | some 1 => d.mem.retL.has (d.place a).2
  | some 2 => d.mem.retP.has (d.place a).2
  | _ => false

/-- Does `[a, a + n)` meet `[b, b + m)`. -/
def meets (a n b m : Nat) : Bool := 0 < n && 0 < m && a < b + m && b < a + n

/-- Does `[a, a + n)` meet a range of Table 1.3 (with or without the promotion pools) or a retired channel. -/
def meetsReserved (d : Dp) (a n : Nat) (pools : Bool := true) : Bool :=
  let w := d.reg Reg.memHdm
  let gib := 2 ^ 30
  meets a n 0x020000000000 0x04000000 ||
  meets a n (0x058000000000 - w.fld 26 16 * gib) (w.fld 26 16 * gib) ||
  meets a n (0x038000000000 - w.fld 8 0 * gib) (w.fld 8 0 * gib) ||
  meets a n d.mem.hLimit0 (0x009000000000 - d.mem.hLimit0) ||
  meets a n d.mem.hLimit1 (0x012000000000 - d.mem.hLimit1) ||
  (pools && [0, 1].any fun h => let (b, l, s) := d.pool h; meets a n b (l + s)) ||
  (!(d.mem.retL.isEmpty && d.mem.retP.isEmpty) &&
    (List.range (cdiv (a % 4096 + n) 4096)).any fun k => d.retiredChannel (a / 4096 * 4096 + 4096 * k))

/-! ### Bytes of memory -/

/-- What a byte that nothing has written reads as: the spec gives no contents, the model chooses 0. -/
def memDefault (_ : Nat) : Byte := 0

end Dp

/-- Both memories are in the one canonical form: addresses strictly rising, and no entry equal to what an unlisted address
reads as. -/
def Mem.wf (m : Mem) : Bool := Tab.wf Dp.memDefault m.dpa && Tab.wf Dp.memDefault m.host

namespace Dp

/-- A byte of device memory. -/
def dpaByte (d : Dp) (a : Nat) : Byte := Tab.get memDefault d.mem.dpa a

/-- A byte of host memory. -/
def hostByte (d : Dp) (a : Nat) : Byte := Tab.get memDefault d.mem.host a

/-- `n` bytes of device memory from `a`. -/
def dpaBytes (d : Dp) (a n : Nat) : List Byte := (List.range n).map fun i => d.dpaByte (a + i)

/-- Is the line of address `a` poisoned (R425). -/
def isPoisoned (d : Dp) (a : Nat) : Bool := d.mem.poison.has (a / 128)

/-- Is a line of `[a, a + n)` poisoned. -/
def anyPoisoned (d : Dp) (a n : Nat) : Bool :=
  0 < n && (List.range ((a + n - 1) / 128 + 1 - a / 128)).any fun i => d.mem.poison.has (a / 128 + i)

/-- Poisons the line of address `a`. -/
def poisonLine (d : Dp) (a : Nat) : Dp := { d with mem := { d.mem with poison := d.mem.poison.add (a / 128) } }

/-- Clears the poison of the line of address `a`. -/
def cleanLine (d : Dp) (a : Nat) : Dp := { d with mem := { d.mem with poison := d.mem.poison.remove (a / 128) } }

/-- Writes one byte of device memory. -/
def setDpa (d : Dp) (a : Nat) (b : Byte) : Dp :=
  { d with mem := { d.mem with dpa := Tab.set memDefault d.mem.dpa a b } }

/-- Writes one byte of host memory. -/
def setHost (d : Dp) (a : Nat) (b : Byte) : Dp :=
  { d with mem := { d.mem with host := Tab.set memDefault d.mem.host a b } }

/-- Writes bytes of device memory from `a`, poison aside. -/
def setDpas (d : Dp) (a : Nat) : List Byte → Dp
  | [] => d
  | b :: bs => (d.setDpa a b).setDpas (a + 1) bs

/-- Writes bytes of host memory from `a`. -/
def setHosts (d : Dp) (a : Nat) : List Byte → Dp
  | [] => d
  | b :: bs => (d.setHost a b).setHosts (a + 1) bs

/-- A tier H line is about to be written: what it holds is what its stack may go on holding, should the granary drop the
line before it is written back (R258, R259). With its granary slices off, its stack is served uncached (Table 14.7). -/
def keepPast (d : Dp) (line : Nat) : Dp :=
  if tierOf (128 * line) = some 0 && !d.domOff.has (16 + (d.place (128 * line)).2 / 2) then
    { d with mem := { d.mem with past := Tab.modify (fun _ => []) d.mem.past line (d.dpaBytes (128 * line) 128 :: ·) } }
  else d

/-- Copies a 128-byte line with its poison. -/
def copyLine (d : Dp) (src dst : Nat) : Dp :=
  let p := d.isPoisoned src
  let d := (d.keepPast (dst / 128)).setDpas dst (d.dpaBytes src 128)
  if p then d.poisonLine dst else d.cleanLine dst

/-- Copies `n` lines with their poison. -/
def copyLines (d : Dp) (src dst : Nat) : Nat → Dp
  | 0 => d
  | n + 1 => (d.copyLine src dst).copyLines (src + 128) (dst + 128) n

/-- Draws a free value's number. -/
def draw (d : Dp) : Nat × Dp := (d.draws, { d with draws := d.draws + 1 })

end Dp
end Sys2Proof.Machine
end

