-- ==== Sys2Proof/Machine/Crypto.lean ====
section
/-!
DEFINITION. The two procedures Kiln checks segments and tokens with (R449–R451, R455, R458, R464): SHA-512 as FIPS
180-4 gives it, and Ed25519 as RFC 8032 gives it. The spec names them and gives neither, so the constants come from
those standards. Every recursion is over a list or a bound.
-/
namespace Sys2Proof.Machine
namespace Crypto

/-! ### SHA-512 -/

/-- The largest root `r` below `2 ^ n` with `r ^ k ≤ x`, bit by bit from `acc`. -/
def rootBits (k x : Nat) : Nat → Nat → Nat
  | 0, acc => acc
  | n + 1, acc => rootBits k x n (if (acc + 2 ^ n) ^ k ≤ x then acc + 2 ^ n else acc)

/-- The first 80 primes. -/
def primes : List Nat :=
  ((List.range 410).filter fun n => 2 ≤ n && (List.range n).all fun m => m < 2 || n % m ≠ 0).take 80

/-- The first 64 bits of the fractional part of the `k`-th root of `p`. -/
def rootFraction (k p : Nat) : BitVec 64 := BitVec.ofNat 64 (rootBits k (p * 2 ^ (64 * k)) 72 0)

/-- The round constants. -/
def roundK : List (BitVec 64) := primes.map (rootFraction 3)

/-- The initial hash value. -/
def hash0 : List (BitVec 64) := (primes.take 8).map (rootFraction 2)

/-- A 64-bit word, big-endian. -/
def be64 (bs : List Byte) : BitVec 64 := BitVec.ofNat 64 (leNat (bs.take 8).reverse)

/-- The small sigma functions, by two rotations and a shift. -/
def sigma (a b c : Nat) (x : BitVec 64) : BitVec 64 := x.rotateRight a ^^^ x.rotateRight b ^^^ (x >>> c)

/-- The large sigma functions, by three rotations. -/
def sum3 (a b c : Nat) (x : BitVec 64) : BitVec 64 := x.rotateRight a ^^^ x.rotateRight b ^^^ x.rotateRight c

/-- One round, the window holding the next sixteen schedule words. -/
def round (st : List (BitVec 64) × List (BitVec 64)) (k : BitVec 64) : List (BitVec 64) × List (BitVec 64) :=
  match st.1 with
  | [a, b, c, d, e, f, g, h] =>
    let w (i : Nat) : BitVec 64 := st.2.getD i 0
    let t1 := h + sum3 14 18 41 e + ((e &&& f) ^^^ (~~~e &&& g)) + k + w 0
    let t2 := sum3 28 34 39 a + ((a &&& b) ^^^ (a &&& c) ^^^ (b &&& c))
    let next := sigma 19 61 6 (w 14) + w 9 + sigma 1 8 7 (w 1) + w 0
    ([t1 + t2, a, b, c, d + t1, e, f, g], st.2.drop 1 ++ [next])
  | _ => st

/-- The hash value after one block of 128 bytes. -/
def block (h : List (BitVec 64)) (bs : List Byte) : List (BitVec 64) :=
  let w := (List.range 16).map fun i => be64 (bs.drop (8 * i))
  let r := roundK.foldl round (h, w)
  (h.zip r.1).map fun x => x.1 + x.2

/-- The hash value after `n` blocks. -/
def blocks : Nat → List (BitVec 64) → List Byte → List (BitVec 64)
  | 0, h, _ => h
  | n + 1, h, bs => blocks n (block h (bs.take 128)) (bs.drop 128)

/-- SHA-512 of a byte string. -/
def sha512 (m : List Byte) : List Byte :=
  let pad := (128 - (m.length + 17) % 128) % 128
  let bs := m ++ [0x80] ++ List.replicate pad 0 ++ (toLe 16 (8 * m.length)).reverse
  ((blocks (bs.length / 128) hash0 bs).map fun w => (toLe 8 w.toNat).reverse).flatten

/-! ### Ed25519 -/

/-- The prime of the field. -/
def fp : Nat := 2 ^ 255 - 19

/-- The order of the base point. -/
def order : Nat := 2 ^ 252 + 27742317777372353535851937790883648493

/-- `b ^ e mod fp` for an exponent of at most `n` bits. -/
def powMod (b e : Nat) : Nat → Nat
  | 0 => 1
  | n + 1 => let h := powMod (b * b % fp) (e / 2) n; if e % 2 = 1 then h * b % fp else h

/-- The inverse in the field. -/
def inv (x : Nat) : Nat := powMod x (fp - 2) 255

/-- The curve constant −121665/121666. -/
def curveD : Nat := (fp - 121665) * inv 121666 % fp

/-- A point in extended coordinates: X, Y, Z and T = XY/Z. -/
abbrev Point := Nat × Nat × Nat × Nat

/-- The neutral point. -/
def zeroPt : Point := (0, 1, 1, 0)

/-- Addition of points. -/
def add (p q : Point) : Point :=
  let (x1, y1, z1, t1) := p
  let (x2, y2, z2, t2) := q
  let a := (y1 + fp - x1) * (y2 + fp - x2) % fp
  let b := (y1 + x1) * (y2 + x2) % fp
  let c := 2 * t1 * t2 * curveD % fp
  let d := 2 * z1 * z2 % fp
  let e := b + fp - a
  let f := d + fp - c
  let g := d + c
  let h := b + a
  (e * f % fp, g * h % fp, f * g % fp, e * h % fp)

/-- `k` times a point, for a scalar of at most `n` bits. -/
def mulPt (k : Nat) (p : Point) : Nat → Point
  | 0 => zeroPt
  | n + 1 => let h := mulPt (k / 2) (add p p) n; if k % 2 = 1 then add h p else h

/-- Are two points equal. -/
def samePt (p q : Point) : Bool :=
  p.1 * q.2.2.1 % fp = q.1 * p.2.2.1 % fp && p.2.1 * q.2.2.1 % fp = q.2.1 * p.2.2.1 % fp

/-- The x coordinate for a y and a sign bit, where there is one. -/
def recoverX (y sign : Nat) : Option Nat :=
  if fp ≤ y then none
  else
    let u := (y * y + fp - 1) % fp
    let v := (curveD * (y * y % fp) + 1) % fp
    let x2 := u * inv v % fp
    if x2 = 0 then (if sign = 1 then none else some 0)
    else
      let x := powMod x2 ((fp + 3) / 8) 255
      let x := if x * x % fp = x2 then x else x * powMod 2 ((fp - 1) / 4) 255 % fp
      if x * x % fp ≠ x2 then none
      else some (if x % 2 = sign then x else fp - x)

/-- The base point. -/
def basePt : Point :=
  let y := 4 * inv 5 % fp
  let x := (recoverX y 0).getD 0
  (x, y, 1, x * y % fp)

/-- The point that 32 bytes encode. -/
def decodePt (bs : List Byte) : Option Point :=
  let n := leAt bs 0 32
  let y := n % 2 ^ 255
  (recoverX y (n / 2 ^ 255)).map fun x => (x, y, 1, x * y % fp)

/-- The 32 bytes that encode a point. -/
def encodePt (p : Point) : List Byte :=
  let z := inv p.2.2.1
  toLe 32 (p.2.1 * z % fp + p.1 * z % fp % 2 * 2 ^ 255)

/-- Is `sig` the signature of `m` under the public key `pub`. -/
def verify (pub m sig : List Byte) : Bool :=
  let s := leAt sig 32 32
  match decodePt (slice pub 0 32), decodePt (slice sig 0 32) with
  | some a, some r =>
    let k := leNat (sha512 (slice sig 0 32 ++ slice pub 0 32 ++ m)) % order
    s < order && samePt (mulPt s basePt 256) (add r (mulPt k a 256))
  | _, _ => false

/-- The public key of a seed of 32 bytes. -/
def publicKey (seed : List Byte) : List Byte :=
  let h := leAt (sha512 (slice seed 0 32)) 0 32
  let s := h % 2 ^ 254 / 8 * 8 + 2 ^ 254
  encodePt (mulPt s basePt 256)

end Crypto
end Sys2Proof.Machine
end

