-- ==== Sys2Proof/Machine/Atu.lean ====
section
/-!
DEFINITION. Address translation (R17–R25): the page-table walk, the decisions of Table 1.6, ATS with the module's
address translation cache, and on-demand promotion into the pools (R30–R34).
-/
namespace Sys2Proof.Machine

/-- A leaf as the walk finds it (Table 1.5). -/
structure Leaf where
  addr : Nat
  size : Nat
  /-- 0 H, 1 L, 2 P, 3 host -/
  tier : Nat
  /-- 0 present, 1 peat-resident, 2 absent -/
  res : Nat
  /-- 0 none, 1 RO, 2 RW -/
  perm : Nat
  shd : Bool
  /-- device physical address of the entry -/
  entry : Nat
  deriving DecidableEq, Repr

/-- Where an access goes. -/
inductive Loc where
  | dev (a : Nat)
  | host (a : Nat)
  deriving DecidableEq, Repr

/-- Why an access does not go through. -/
inductive Trouble where
  /-- a halt of the descriptor -/
  | halt (h : Halt)
  /-- a peat-resident page needs promotion (R31) -/
  | promote (space dva : Nat) (leaf : Leaf) (write : Bool)
  /-- a host page needs an ATS request (R335) -/
  | ats (space dva page : Nat) (write : Bool)
  /-- the descriptor ends without a halt -/
  | ends (e : Ending)
  deriving DecidableEq, Repr

/-- A failed translation as trouble (Table 11.10). -/
def xlate (detail space dva : Nat) (write : Bool) : Trouble :=
  .halt { status := 1, detail, dva := dva % 2 ^ 64, space, write }

/-- Size codes of a page: 0 4 KiB, 1 64 KiB, 2 2 MiB, 3 1 GiB (Table 9.3). -/
def sizeCode (n : Nat) : Nat :=
  if n = 4096 then 0 else if n = 65536 then 1 else if n = 2097152 then 2 else 3

/-- The levels of Table 1.4. -/
inductive Level where
  | l1 | l2 | l3 | l4small | l4mid
  deriving DecidableEq, Repr

/-- Index of a DVA at a level, and the leaf page size there (0 where no leaf is allowed). -/
def Level.index (l : Level) (dva : Nat) : Nat × Nat :=
  match l with
  | .l1 => (natFld dva 51 39, 0)
  | .l2 => (natFld dva 38 30, 2 ^ 30)
  | .l3 => (natFld dva 29 21, 2 ^ 21)
  | .l4small => (natFld dva 20 12, 2 ^ 12)
  | .l4mid => (natFld dva 20 16, 2 ^ 16)

/-- The size of the table of a level (Table 1.4). -/
def Level.tableSize (l : Level) : Nat :=
  match l with
  | .l1 => 65536
  | .l4mid => 256
  | _ => 4096

/-- The next level a table entry of type `ty` leads to, where the table allows it. -/
def Level.child (l : Level) (ty : Nat) : Option Level :=
  match l, ty with
  | .l1, 1 => some .l2
  | .l2, 1 => some .l3
  | .l3, 1 => some .l4small
  | .l3, 3 => some .l4mid
  | _, _ => none

namespace Dp

/-- The first row of Table 1.6 on a leaf (R20): is it well formed. -/
def leafOk (e : Word) (size : Nat) : Bool :=
  let a := e.fld 51 12 * 4096
  let tier := e.fld 5 4
  e.fld 1 0 = 2 && e.fld 9 8 ≠ 3 && e.fld 7 6 ≠ 3 && !e.bit 11 && e.fld 3 2 = 0 &&
  (if tier = 3 then e.fld 9 8 ≠ 1 && a % size = 0
   else e.fld 51 48 = 0 && a % size = 0 && insideTier tier a size)

/-- The walk from a table at `base`, with as many levels left as `fuel`, to the entry of a leaf: its word, its page size
and its address (R19). A table entry's bits 63:52 are not looked at, as Table 1.5 says of SW, though R20 wants every field
but TYPE and ADDR zero (DESIGN CHOICE, log entry 146). -/
def walkFrom (d : Dp) (dva : Nat) : Nat → Level → Nat → Except Nat (Word × Nat × Nat)
  | 0, _, _ => .error 2
  | fuel + 1, l, base =>
    if !insideTier 0 base l.tableSize || base % l.tableSize ≠ 0 then .error 2
    else if d.meetsReserved base l.tableSize then .error 1
    else
      let (i, leafSize) := l.index dva
      let at_ := base + 8 * i
      if d.isPoisoned at_ then .error 2
      else
        let e : Word := BitVec.ofNat 64 (leNat (d.dpaBytes at_ 8))
        let ty := e.fld 1 0
        if ty = 2 then
          if leafSize = 0 then .error 2 else .ok (e, leafSize, at_)
        else
          match l.child ty with
          | none => .error 2
          | some l' => if e.fld 51 48 ≠ 0 || e.fld 11 2 ≠ 0 then .error 2 else d.walkFrom dva fuel l' (e.fld 51 12 * 4096)

/-- The walk for a DVA of a space to the entry that maps it, or the DETAIL of the failure (R18, R19). -/
def walkEntry (d : Dp) (space dva : Nat) : Except Nat (Word × Nat × Nat) :=
  let root := d.reg (Reg.atuRoot space)
  if !(d.reg Reg.atuCtl).bit 0 || !root.bit 0 then .error 11
  else if 2 ^ 52 ≤ dva then .error 1
  else d.walkFrom dva 4 .l1 (root.fld 47 16 * 65536)

/-- The page-table walk for a DVA of a space: the leaf, which must be well formed (R20), or the DETAIL of the failure. -/
def walk (d : Dp) (space dva : Nat) : Except Nat Leaf :=
  match d.walkEntry space dva with
  | .error n => .error n
  | .ok (e, size, at_) =>
    if leafOk e size then
      .ok { addr := e.fld 51 12 * 4096, size, tier := e.fld 5 4, res := e.fld 9 8, perm := e.fld 7 6, shd := e.bit 10, entry := at_ }
    else .error 2

/-- Is the leaf that maps a DVA marked absent, whatever else it holds (first row of Table 1.12). -/
def leafAbsent (d : Dp) (space dva : Nat) : Bool :=
  match d.walkEntry space dva with
  | .ok (e, _, _) => e.fld 9 8 = 2
  | .error _ => false

/-- The frame record at a pool address, if there is one (R30). -/
def frameAt (d : Dp) (a : Nat) : Option Frame := d.mem.frames.find? fun f => f.base ≤ a && a < f.base + f.size

/-- PASID of host accesses of a space (R335). -/
def pasidOf (d : Dp) (space : Nat) : Option Nat :=
  let w := d.reg (Reg.pasid space)
  if w.bit 31 then some (w.fld 19 0) else none

/-- The cached ATS grant for a host page. -/
def atcFind (d : Dp) (pasid : Option Nat) (page : Nat) : Option Atc :=
  d.mem.atc.find? fun a => a.pasid = pasid && a.page = page

/-- Is the page being moved by a promotion in progress (Table 1.10). -/
def promoting (d : Dp) (space page : Nat) : Bool := d.mem.promos.any fun p => p.space = space && p.page = page

/-- Is an address in a locked snapshot image (R390, R391). -/
def lockedAt (d : Dp) (a : Nat) : Bool := d.locks.any fun l => l.base ≤ a && a < l.base + l.total

/-- The decisions of Table 1.6, in row order, on the leaf that maps a DVA. `sheaf` is whether the access is a
write inside an open sheaf. A store that would proceed into a locked image halts (R390). -/
def judge (d : Dp) (space dva : Nat) (write sheaf : Bool) (l : Leaf) : Except Trouble Loc :=
  let page := dva / l.size * l.size
  let a := l.addr + (dva - page)
  if l.perm = 0 || (write && l.perm = 1) then .error (xlate 3 space dva write)
  else if l.shd && 2 ≤ l.tier then .error (xlate 10 space dva write)
  else if write && sheaf && !l.shd then .error (xlate 10 space dva write)
  else if l.tier ≠ 3 && (d.inHdm a || inJournal a || d.withdrawn a || d.retiredChannel a) then
    .error (xlate 1 space dva write)
  else if l.tier ≠ 3 && d.inPool a && !((d.frameAt a).any fun f => f.space = space && f.page = page) then
    .error (xlate 2 space dva write)
  else if l.res = 2 then .error (xlate 4 space dva write)
  else if l.res = 1 then
    if l.size = 2 ^ 30 then .error (xlate 2 space dva write) else .error (.promote space dva l write)
  else if l.tier = 3 then
    if !(d.reg Reg.atuCtl).bit 1 then .error (xlate 6 space dva write)
    else
      let hp := a / 4096 * 4096
      match d.atcFind (d.pasidOf space) hp with
      | some g => if (if write then g.write else g.read) then .ok (.host (g.target + a % 4096))
                  else .error (.ats space dva hp write)
      | none => .error (.ats space dva hp write)
  else if write && d.lockedAt a then .error (xlate 3 space dva write)
  else .ok (.dev a)

/-- Translation of one address (R21). -/
def translate (d : Dp) (space dva : Nat) (write : Bool) (sheaf : Bool := false) : Except Trouble Loc :=
  match d.walk space dva with
  | .error n => .error (xlate n space dva write)
  | .ok l => d.judge space dva write sheaf l

/-- An ATS request for a host page: the answer is the host's, a free value; a grant enters the cache, and a refused
translation is counted (R335, CXD counters). -/
def atsRequest (d : Dp) (space page : Nat) (write : Bool) : Bool × Dp :=
  let (n, d) := d.draw
  let pasid := d.pasidOf space
  let d := d.bump (Reg.cxdCnt 0)
  match Config.atsAnswer n pasid page write with
  | some (t, r, w) =>
    let g : Atc := { pasid, page, target := t / 4096 * 4096, read := r, write := w }
    let d := { d with mem := { d.mem with atc := g :: d.mem.atc.filter fun a => !(a.pasid = pasid && a.page = page) } }
    if (if write then w else r) then (true, d) else (false, d.bump (Reg.cxdCnt 1))
  | none => (false, d.bump (Reg.cxdCnt 1))

/-! ### Writing leaves (R23) -/

/-- Rewrites ADDR, TIER and RES of a leaf with one 8-byte write (R23). -/
def rewriteLeaf (d : Dp) (entry addr tier res : Nat) : Dp :=
  let e : Word := BitVec.ofNat 64 (leNat (d.dpaBytes entry 8))
  let e := ((e.put 51 12 (addr / 4096)).put 5 4 tier).put 9 8 res
  d.setDpas entry (toLe 8 e.toNat)

/-! ### Promotion pools (R30–R34) -/

/-- Base and end of the frame class of a page size in a half's pool: large frames for 2 MiB pages, small frames for
4 KiB and 64 KiB pages. -/
def poolClass (d : Dp) (h size : Nat) : Nat × Nat :=
  let (b, l, s) := d.pool h
  if size = 2 ^ 21 then (b, b + l) else (b + l, b + l + s)

/-- Is `[a, a + n)` free of frames. -/
def frameFree (d : Dp) (a n : Nat) : Bool :=
  !(d.mem.frames.any fun f => meets a n f.base f.size) && !(d.mem.promos.any fun p => meets a n p.frame p.size)

/-- The first free place of `size` bytes, aligned to it, in `[lo, hi)`: at `lo` or right after a frame in use. R31 does not
say which free frame a page takes: the lowest (DESIGN CHOICE, log entry 147). -/
def firstFree (d : Dp) (lo hi size : Nat) : Option Nat :=
  let ends := (d.mem.frames.map fun f => f.base + f.size) ++ d.mem.promos.map fun p => p.frame + p.size
  let cands := (lo :: ends).map fun a => roundUp a size
  let ok := cands.filter fun a => lo ≤ a && a + size ≤ hi && d.frameFree a size
  ok.foldl (fun (m : Option Nat) a => match m with | none => some a | some b => some (min a b)) none

/-- Does a peat channel in retraining hold a line of `[a, a + n)` (R36). -/
def inRetraining (d : Dp) (a n : Nat) : Bool :=
  !d.mem.retrainP.isEmpty && tierOf a = some 2 &&
    (List.range (min 16 (cdiv n 4096))).any fun k => d.mem.retrainP.has (d.place (a + 4096 * k)).2

/-! ### Gleaner's order (R35) -/

/-- The half whose Gleaners do a piece of work. -/
def jobHalf : Job → Nat
  | .promotion h _ _ => h
  | .fetch h _ _ => h

/-- Work of the first class in a half, in the order of its arrival. -/
def jobsOf (d : Dp) (h : Nat) : List Job := d.mem.jobs.filter fun j => jobHalf j = h

/-- Is a piece of work of the first class being served: each of the half's four Gleaners takes the next one (DEDUCED, log
entry 149). -/
def served (d : Dp) (j : Job) : Bool := ((d.jobsOf (jobHalf j)).take 4).contains j

/-- Work of the first class arrives. -/
def addJob (d : Dp) (j : Job) : Dp := { d with mem := { d.mem with jobs := d.mem.jobs ++ [j] } }

/-- Work of the first class ends. -/
def dropJobs (d : Dp) (p : Job → Bool) : Dp := { d with mem := { d.mem with jobs := d.mem.jobs.filter fun j => !p j } }

end Dp
end Sys2Proof.Machine
end

