-- ==== Sys2Proof/Machine/Flags.lean ====
section
/-!
DEFINITION. The status the module keeps and reports: the ash log (R436–R440), notices (R338–R340), MSI-X vectors
(R329), completion records (R328–R330), FATAL events (R428), monitor samples (R442, R443) and the NaN trap
(R64–R67).
-/
namespace Sys2Proof.Machine
namespace Dp

/-! ### Monitors -/

/-- The smallest `i` with `x` below edge `i`, or 15 (R443). -/
def monBin (d : Dp) (s : Nat) (x : Int) : Nat :=
  let sh := (d.reg (Reg.monCfg s)).fld 15 12
  let edge (i : Nat) : Int := signed 16 ((d.reg (Reg.monEdge s (i / 4))).fld (16 * (i % 4) + 15) (16 * (i % 4))) * 2 ^ sh
  ((List.range 15).find? fun i => x < edge i).getD 15

/-- Slot `s` as it stands. -/
def mon (d : Dp) (s : Nat) : MonSlot := Tab.get (fun _ => {}) d.mons s

/-- Writes slot `s`. -/
def setMon (d : Dp) (s : Nat) (m : MonSlot) : Dp := { d with mons := Tab.set (fun _ => {}) d.mons s m }

/-- A fresh window of slot `s` from now on (R443). -/
def monRestart (d : Dp) (s : Nat) : Dp :=
  d.setMon s { start := d.now, running := (d.reg (Reg.monCfg s)).bit 8, bins := List.replicate 16 0 }

/-- One sample of slot `s`. -/
def monTake (d : Dp) (s : Nat) (x : Int) : Dp :=
  let m := d.mon s
  if !m.running then d
  else
    let sum := m.sum + x
    let top : Int := 2 ^ 63 - 1
    let bot : Int := -(2 ^ 63)
    let sat := top < sum || sum < bot
    let bins := if m.bins.length = 16 then m.bins else List.replicate 16 0
    d.setMon s { m with
      min := if m.samples = 0 then x else Min.min m.min x
      max := if m.samples = 0 then x else Max.max m.max x
      samples := m.samples + 1
      sum := Max.max bot (Min.min top sum)
      sat := m.sat || sat
      bins := bins.modify (d.monBin s x) (· + 1) }

/-- A sample of value `x` from source `src` to every enabled slot whose qualifier accepts it (R442). -/
def monSample (d : Dp) (src : Nat) (accepts : Nat → Bool) (x : Int) : Dp :=
  (List.range 64).foldl (fun d s =>
    let c := d.reg (Reg.monCfg s)
    if c.bit 8 && c.fld 3 0 = src && accepts (c.fld 31 16) then d.monTake s x else d) d

/-! ### Ash log -/

/-- Index of the newest entry of a key (CLASS, CODE, RESOURCE), if it is still in the log. -/
def ashNewest (d : Dp) (cls code resource : Nat) : Option (Nat × AshEntry) :=
  let n := d.ash.present
  (List.range n).findSome? fun k =>
    let i := (d.ash.head + 4096 - 1 - k) % 4096
    match Tab.get (fun _ => none) d.ash.entries i with
    | some e => if e.cls = cls && e.code = code && e.resource = resource then some (i, e) else none
    | none => none

/-- Writes an entry at ASH_HEAD.NEXT (R436). -/
def ashWrite (d : Dp) (e : AshEntry) : Dp :=
  let i := d.ash.head
  { d with ash := { d.ash with
      entries := Tab.set (fun _ => none) d.ash.entries i (some e)
      head := (i + 1) % 4096
      present := Min.min 4096 (d.ash.present + 1) } }.bump (Reg.ashCnt 0)

/-- An event for the ash log: dropped and counted while frozen (R440), coalesced under R439, else a new entry. -/
def ashLog (d : Dp) (e : AshEntry) : Dp :=
  if d.ash.frozen then d.bump (Reg.ashCnt 2)
  else
    let rate := (d.reg Reg.ashCtl).fld 31 16 * 1000
    if e.cls = 1 || e.cls = 3 || e.cls = 4 then
      match d.ashNewest e.cls e.code e.resource with
      | some (i, old) =>
        if d.now ≤ old.time + rate then
          { d with ash := { d.ash with
              entries := Tab.set (fun _ => none) d.ash.entries i
                (some { old with count := Min.min 65535 (old.count + 1) }) } }.bump (Reg.ashCnt 1)
        else d.ashWrite e
      | none => d.ashWrite e
    else d.ashWrite e

/-- An ash-log entry as 32 bytes (Table 15.4). -/
def ashBytes : Option AshEntry → List Byte
  | none => List.replicate 32 0
  | some e =>
    toLe 8 e.time ++ toLe 1 e.cls ++ toLe 1 e.code ++ toLe 1 e.flags ++ toLe 1 e.ring ++ toLe 4 e.seq ++
    toLe 2 e.resource ++ toLe 2 e.count ++ toLe 8 e.addr ++ toLe 4 e.data

/-! ### MSI-X vectors -/

/-- The coalescing interval of a vector in µs. -/
def coalUs (d : Dp) (v : Nat) : Nat :=
  if v < 64 then (d.reg (Reg.cqCfg v)).fld 35 20 else (d.reg (Reg.nqCfg (v - 64))).fld 35 20

/-- Sends a vector's message, or sets its pending bit while it is masked. -/
def sendVec (d : Dp) (v : Nat) : Dp :=
  let x := d.vec v
  let d := if x.masked then d.setVec v { x with pend := true }
    else { d with outs := d.outs ++ [.msix v x.addr x.data] }
  if d.coalUs v = 0 then d else d.setVec v { d.vec v with quiet := true, asked := false }

/-- A vector is asked for: raised, or remembered within its coalescing interval (R329). -/
def raiseVec (d : Dp) (v : Nat) : Dp :=
  let x := d.vec v
  if x.quiet then d.setVec v { x with asked := true } else d.sendVec v

/-! ### Ring structures in host memory -/

/-- How the translation of a ring structure ends (R314, R315). -/
inductive RingXlate where
  | found (a : Nat)
  | fails (detail : Nat)
  | request (page : Nat)
  deriving DecidableEq, Repr

/-- Translation of a ring-structure address: the page must be a host-tier leaf with the PERM of Table 11.1. -/
def ringXlate (d : Dp) (space dva : Nat) (write : Bool) : RingXlate × Dp :=
  match d.walk space dva with
  | .error n => (.fails n, d)
  | .ok l =>
    let a := l.addr + dva % l.size
    if l.tier ≠ 3 then (.fails 2, d)
    else if l.perm = 0 || (write && l.perm = 1) then (.fails 3, d)
    else if l.shd then (.fails 10, d)
    else if l.res = 2 then (.fails 4, d)
    else if !(d.reg Reg.atuCtl).bit 1 then (.fails 6, d)
    else
      let hp := a / 4096 * 4096
      let go (d : Dp) : RingXlate × Dp :=
        match d.atcFind (d.pasidOf space) hp with
        | some g => (.found (g.target + a % 4096), d)
        | none => (.fails 6, d)
      let usable := (d.atcFind (d.pasidOf space) hp).any fun g => if write then g.write else g.read
      if usable then go d
      else
        let (granted, d) := d.atsRequest space hp write
        if granted then go d
        else if !(d.reg Reg.atuCtl).bit 2 then (.fails 6, d)
        else if d.mem.priStopped then (.fails 9, d)
        else (.request hp, d)

/-- Sends a Page Request of ring `n` with its lowest free group index (R335); none is sent while all eight groups
of the ring, or as many requests as the host has allocated (log entry 28), are outstanding. -/
def pageRequest (d : Dp) (n space dva page : Nat) (write : Bool) (f : PriFor) : Option Nat × Dp :=
  match d.mem.pageReqs.find? fun r => r.space = space && r.page = page && r.for_ = f with
  | some r => (some r.group, d)
  | none =>
    match (List.range 8).find? fun j => !(d.mem.pageReqs.any fun r => r.group = 8 * n + j) with
    | none => (none, d)
    | some j =>
      if Config.priAllocation ≤ d.mem.pageReqs.length then (none, d) else
      let g := 8 * n + j
      let pasid := d.pasidOf space
      let req : PageReq := { group := g, pasid, space, dva, page, write, for_ := f }
      let d : Dp := { d with mem := { d.mem with pageReqs := d.mem.pageReqs ++ [req] },
                             outs := d.outs ++ [Out.pageRequest g pasid page write] }
      (some g, d.bump (Reg.cxdCnt 2))

/-! ### Notices -/

/-- The lowest-numbered enabled notice ring that takes notices of a type (R338). -/
def noticeRing (d : Dp) (ty : Nat) : Option Nat :=
  (List.range 8).find? fun k =>
    let c := d.reg (Reg.nqCfg k)
    c.bit 0 && (c.fld 47 36).testBit (ty - 1)

/-- A notice dropped on ring `k` (R338). -/
def noticeLost (d : Dp) (k : Nat) : Dp :=
  let q := d.nq k
  (d.setNq k { q with lost := (q.lost + 1) % 65536, lostSince := q.lostSince + 1 }).bump Reg.ringNqLostCnt

/-- Sends a notice: type, SUB, the ring and SEQ where they are valid, and 24 bytes of payload (Table 11.13). -/
def notice (d : Dp) (ty sub : Nat) (rs : Option (Nat × Nat)) (payload : List Byte) : Dp :=
  match d.noticeRing ty with
  | none => d
  | some k =>
    let c := d.reg (Reg.nqCfg k)
    let q := d.nq k
    if d.nqSize k ≤ q.used then d.noticeLost k
    else
      match d.ringXlate (c.fld 19 16) ((d.reg (Reg.nqBase k)).fld 51 12 * 4096 + 32 * q.tail) true with
      | (.found a, d) =>
        let (ring, seq) := rs.getD (0, 0)
        let b1 := ring + (if rs.isSome then 64 else 0) + (if q.phase then 128 else 0)
        let bytes := toLe 1 ty ++ toLe 1 b1 ++ toLe 1 sub ++ toLe 1 (Min.min 255 q.lostSince) ++ toLe 4 seq ++
          slice payload 0 24
        let d := d.setHosts a bytes
        let t := (q.tail + 1) % d.nqSize k
        let d := d.setNq k { q with tail := t, used := q.used + 1, lostSince := 0,
                                    phase := if t = 0 then !q.phase else q.phase }
        d.raiseVec (64 + k)
      | (_, d) => d.noticeLost k

/-- The XLATE_FAULT notice of a halt (R334, Table 11.14). -/
def noticeFault (d : Dp) (ring seq op : Nat) (h : Halt) : Dp :=
  d.notice 2 h.status (some (ring, seq))
    (toLe 8 h.dva ++ toLe 8 h.ofs ++ toLe 1 op ++
     toLe 1 (h.slot % 8 + 8 * (h.space % 16) + (if h.write then 128 else 0)) ++ toLe 1 h.detail)

/-! ### Completion records -/

/-- A record as 32 bytes (Table 11.8). -/
def recordBytes (r : Record) (head : Nat) (phase : Bool) : List Byte :=
  toLe 8 r.result ++ toLe 8 r.ofs ++ toLe 4 r.seq ++ toLe 2 head ++
  toLe 1 (r.ring % 64 + (if r.halted then 64 else 0) + (if phase then 128 else 0)) ++
  toLe 1 r.status ++ toLe 1 r.op ++ toLe 1 r.detail ++ toLe 6 r.time

/-- Holds a record of completion ring `m`; the first of an episode sends COMPLETION_OVERFLOW (R330). -/
def holdRecord (d : Dp) (m : Nat) (r : Record) : Dp :=
  let c := d.cq m
  let first := c.held.isEmpty
  let d := (d.setCq m { c with held := c.held ++ [r] }).bump Reg.ringCqHoldCnt
  if first then d.notice 1 m none (toLe 8 d.now ++ toLe 4 1) else d

/-- Tries to write a record to completion ring `m`: done, or the ring cannot take it now. Where its page request finds no free
group, the record is held and tried again (R315, R335). -/
def tryRecord (d : Dp) (m : Nat) (r : Record) : Bool × Dp :=
  let cfg := d.reg (Reg.cqCfg m)
  let c := d.cq m
  if !cfg.bit 0 || d.cqSize m ≤ c.used || c.broken then (false, d)
  else
    let dva := (d.reg (Reg.cqBase m)).fld 51 12 * 4096 + 32 * c.tail
    match d.ringXlate (cfg.fld 19 16) dva true with
    | (.found a, d) =>
      let d := d.setHosts a (recordBytes r (d.ring r.ring).head c.phase)
      let t := (c.tail + 1) % d.cqSize m
      let d := d.setCq m { c with tail := t, used := c.used + 1, phase := if t = 0 then !c.phase else c.phase }
      (true, if r.irq then d.raiseVec m else d)
    | (.request page, d) =>
      match d.pageRequest r.ring (cfg.fld 19 16) dva page true (.cq m) with
      | (some _, d) => (false, d.setCq m { d.cq m with broken := true })
      | (none, d) => (false, d)
    | (.fails n, d) =>
      let d := d.setCq m { d.cq m with broken := true }
      (false, d.notice 2 1 none (toLe 8 dva ++ toLe 8 0 ++ toLe 1 0 ++ toLe 1 (128 + 8 * cfg.fld 19 16) ++ toLe 1 n))

/-- Writes a record to completion ring `m`, or holds it behind the records held already (R330). -/
def putRecord (d : Dp) (m : Nat) (r : Record) : Dp :=
  if (d.cq m).held.isEmpty then
    match d.tryRecord m r with
    | (true, d) => d
    | (false, d) => d.holdRecord m r
  else d.holdRecord m r

/-- Writes held records of completion ring `m`, oldest first, while the ring takes them. -/
def flushHeld (d : Dp) (m : Nat) : Nat → Dp
  | 0 => d
  | n + 1 =>
    let c := d.cq m
    match c.held with
    | [] => d
    | r :: rest =>
      match d.tryRecord m r with
      | (false, d) => d
      | (true, d) => (d.setCq m { d.cq m with held := rest }).flushHeld m n

/-- Writes every held record of completion ring `m` that the ring takes now. -/
def releaseHeld (d : Dp) (m : Nat) : Dp := d.flushHeld m (d.cq m).held.length

/-! ### Halts of a ring -/

/-- Halts ring `n` before its next descriptor with a status and detail, without notice (R334). A draining ring shows the halt
in RING_HALT and goes on reading DRAINING (R345); a DISABLED one has no next descriptor (DEDUCED, log entry 19). -/
def haltBefore (d : Dp) (n status detail : Nat) : Dp :=
  let r := d.ring n
  let x : HaltNext := { seq := r.expSeq, status, detail }
  match r.state with
  | .running => d.setRing n { r with state := .halted, haltNext := some x }
  | .draining => d.setRing n { r with haltNext := some x }
  | _ => d

/-- Halts ring `n` before its next descriptor, also when a descriptor of it has halted meanwhile, and sends the
XLATE_FAULT notice of this halt (R334). -/
def haltBeforeNotice (d : Dp) (n : Nat) (h : Halt) : Dp :=
  let r := d.ring n
  if r.state = .running || r.state = .halted then
    let x : HaltNext := { seq := r.expSeq, status := h.status, detail := h.detail, slot := h.slot, dva := h.dva }
    let d := d.setRing n { r with state := .halted, haltNext := some (r.haltNext.getD x) }
    d.noticeFault n r.expSeq 0 h
  else d

/-- The slot of the descriptor that names a faulting address (R334, log entry 7): of the tensor or array whose span
holds it, one accessed in the same way first; slot 0 for every other reference. -/
def slotAt (o : Outst) (dva : Nat) (write : Bool) : Nat :=
  let a : Int := if dva < 2 ^ 63 then dva else (dva : Int) - 2 ^ 64
  let l := o.spans.filter fun x => decide (x.lo / 128 * 128 ≤ a) && decide (a < x.hi)
  match l.find? fun x => x.stored = write with
  | some x => x.slot
  | none => (l.head?.map fun x => x.slot).getD 0

/-- Halts the outstanding descriptor `o` of ring `n` (R334): its position is saved, the ring reads HALTED, and one
XLATE_FAULT notice is sent. -/
def haltOutst (d : Dp) (n : Nat) (o : Outst) (h : Halt) : Dp :=
  let h := { h with slot := if h.status = 1 then slotAt o h.dva h.write else h.slot }
  let d := d.modOutst n o.uid fun o => { o with phase := .halted h, ofs := h.ofs }
  let r := d.ring n
  let d := if r.state = .running then d.setRing n { r with state := .halted } else d
  d.noticeFault n o.seq o.op h

/-- A FATAL event of a cause (R428): its ash-log entry, the freeze, the notice, GLB_STAT.FATAL and FATAL_STOP. -/
def fatal (d : Dp) (cause : Nat) : Dp :=
  let frozen := d.ash.frozen
  let idx := if frozen then d.ash.fatalIdx else d.ash.head
  let d := d.ashLog { time := d.now, cls := 7, code := cause, flags := 1 }
  let d := if !frozen && (d.reg Reg.ashCtl).bit 0
    then { d with ash := { d.ash with frozen := true, fatalIdx := idx } } else d
  let d := d.notice 12 cause none (toLe 8 d.now ++ toLe 2 idx)
  let d := d.setStat Reg.glbStat 1
  if (d.reg Reg.glbCtl).bit 1 then (List.range 64).foldl (fun d n => d.haltBefore n 0 cause) d else d

/-! ### The NaN trap -/

/-- The origin of a NaN (R65). -/
structure Origin where
  ring : Nat
  uid : Nat
  seq : Nat
  op : Nat
  /-- 0 crib drain, 1 store conversion, 2 Quern, 3 Flail -/
  src : Nat
  tiller : Nat := 255
  array : Nat := 7
  engine : Nat := 0
  tileRow : Nat := 0
  tileCol : Nat := 0
  row : Nat := 0
  col : Nat := 0
  idx : Nat := 0
  deriving DecidableEq, Repr

/-- A NaN reaches the trap (R64–R67): it fires while armed, and counts while disarmed. -/
def nanSeen (d : Dp) (propagated : Bool) (g : Origin) : Dp :=
  let c := d.reg Reg.phxCtl
  if !c.bit 1 || (propagated && !c.bit 3) then d
  else if d.phx.armed then
    let w (l : List (Nat × Nat)) : Word := BitVec.ofNat 64 (l.foldl (fun a p => a + (p.1 <<< p.2)) 0)
    let p := if propagated then 1 else 0
    let d := { d with phx := { d.phx with
      armed := false
      fired := true
      info0 := w [(g.seq % 2 ^ 32, 32), (g.op % 256, 24), (g.ring % 64, 18), (g.src % 8, 15), (p, 14)]
      info1 := w [(g.tiller % 256, 56), (g.array % 8, 53), (g.engine % 32, 48), (g.tileRow % 65536, 16),
                  (g.tileCol % 65536, 0)]
      info2 := w [(g.row % 2 ^ 32, 32), (g.col % 2 ^ 32, 0)]
      info3 := w [(g.idx, 0)] } }
    let d := if c.bit 2 then d.modUid g.uid fun o => { o with trapped := true } else d
    d.notice 3 (g.src % 8 + 8 * p) (some (g.ring, g.seq))
      (toLe 1 g.op ++ toLe 1 g.tiller ++ toLe 1 (g.array % 8 + 8 * (g.engine % 32)) ++ toLe 1 0 ++
       toLe 2 g.tileRow ++ toLe 2 g.tileCol ++ toLe 4 g.row ++ toLe 4 g.col ++ toLe 8 g.idx)
  else { d with phx := { d.phx with nanCnt := Min.min (2 ^ 64 - 1) (d.phx.nanCnt + 1) } }

end Dp
end Sys2Proof.Machine
end

