-- ==== Sys2Proof/Machine/Work.lean ====
section
/-!
DEFINITION. The load and store paths of a descriptor at work: reads and writes by device virtual address with
translation (R126), poison (R425, R426), the dirty bit of pool frames (R34), and the shadow lines of sheaves
(R274, R275). Work is a computation that can meet trouble; what it has changed by then is the caller's to keep or drop.
-/
namespace Sys2Proof.Machine

/-- What a piece of work belongs to. -/
structure Env where
  ring : Nat
  uid : Nat
  seq : Nat
  op : Nat
  space : Nat
  sheaf : Option Nat := none
  lsExp : Int := 0
  streams : List Captured := []
  tiller : Nat := 255
  engine : Nat := 0
  half : Nat := 0
  /-- translations the descriptor holds (R135) -/
  held : List (Nat × Nat × Bool) := []
  /-- bytes a COPY in place reads as they stood before it wrote them (R129) -/
  kept : List (Nat × Byte × Bool) := []
  deriving DecidableEq, Repr

/-- A byte to be stored by a batch, with whether it is poisoned. -/
structure Cell where
  dva : Nat
  byte : Byte
  poison : Bool := false
  deriving DecidableEq, Repr

/-- The state of a piece of work: the data plane, whether anything read was poisoned, and the bytes to be stored. -/
structure Wk where
  d : Dp
  poison : Bool := false
  cells : List Cell := []
  deriving DecidableEq, Repr

/-- A computation of a unit. -/
abbrev M (α : Type) := ExceptT Trouble (StateM Wk) α

namespace Work

/-- Trouble. -/
def trouble {α : Type} (t : Trouble) : M α := throw t

/-- A look at the data plane. -/
def look {α : Type} (f : Dp → α) : M α := do return f (← get).d

/-- A change of the data plane. -/
def change (f : Dp → Dp) : M Unit := modify fun w => { w with d := f w.d }

/-- The line number of a location, host lines counted above every device line. -/
def lineOf : Loc → Nat
  | .dev a => a / 128
  | .host a => (2 ^ 60 + a) / 128

/-- Where an access of the work goes. -/
def locate (e : Env) (dva : Nat) (write : Bool) : M Loc := do
  match e.held.find? fun x => x.1 = dva / 4096 with
  | some (_, a, host) => return if host then .host (a + dva % 4096) else .dev (a + dva % 4096)
  | none =>
    match (← get).d.translate e.space dva write e.sheaf.isSome with
    | .ok l => return l
    | .error t => trouble t

/-- One byte read; a poisoned line marks the work (R426). -/
def readByte (e : Env) (dva : Nat) : M Byte := do
  let l ← locate e dva false
  let w ← get
  match e.kept.find? fun x => x.1 = dva with
  | some (_, b, bad) =>
    if bad then set { w with poison := true }
    return b
  | none =>
    if w.d.mem.poison.has (lineOf l) then set { w with poison := true }
    match l with
    | .dev a => return w.d.dpaByte a
    | .host a => return w.d.hostByte a

/-- Bytes read from `dva` on. -/
def readBytes (e : Env) (dva : Nat) : Nat → M (List Byte)
  | 0 => return []
  | n + 1 => do
    let b ← readByte e dva
    let bs ← readBytes e (dva + 1) n
    return b :: bs

/-- A little-endian number of `n` bytes. -/
def readNat (e : Env) (dva n : Nat) : M Nat := do return leNat (← readBytes e dva n)

/-- Runs `x` and tells whether anything it read was poisoned, leaving the work's own mark as it was. -/
def poisonOf {α : Type} (x : M α) : M (α × Bool) := do
  let w ← get
  set { w with poison := false }
  let a ← x
  let w' ← get
  set { w' with poison := w.poison }
  return (a, w'.poison)

/-- Reads a structure of the module's own: where a line of it is poisoned, the descriptor completes with POISONED (12)
and writes nothing (R427, Table 15.2). -/
def intact {α : Type} (x : M α) : M α := do
  let (a, bad) ← poisonOf x
  if bad then trouble (.ends { status := 12 })
  return a

/-- What a failed translation ends in a stall for, or `none` for one that fails at once (R31, R335). -/
def stalls (d : Dp) : Trouble → Bool
  | .promote .. => true
  | .ats .. => (d.reg Reg.atuCtl).bit 2 && !d.mem.priStopped
  | _ => false

/-- Runs `x`; trouble that is no stall is answered and does not end the work. -/
def tried {α : Type} (x : M α) : M (Except Trouble α) :=
  tryCatch (do return .ok (← x)) fun t => do
    if stalls (← get).d t then trouble t
    return .error t

/-- What tried work gave: an entry that FAULT_INDEX halts on (6) goes before any other failure. -/
def settled {α : Type} (l : List (Except Trouble α)) : M (List α) := do
  for x in l do
    match x with
    | .error (.halt h) => if h.status = 6 then trouble (.halt h)
    | _ => pure ()
  l.mapM fun x =>
    match x with
    | .ok a => pure a
    | .error t => trouble t

/-- Puts bytes into the batch of stores. -/
def put (dva : Nat) (bs : List Byte) (poison : Bool) : M Unit :=
  let new := List.zipWith (fun i b => ({ dva := dva + i, byte := b, poison } : Cell)) (List.range bs.length) bs
  modify fun w => { w with cells := w.cells ++ new }

end Work

/-! ### Shadow lines (R272, R274) -/

/-- Does a sheaf in this state count toward the 512 (Table 9.1). -/
def SheafSt.counted (s : SheafSt) : Bool := s = .opened || s = .committing || s = .committed

/-- A sheaf that has given up its regions and its room in the shadow buffers (R280, Table 9.6). -/
def Sheaf.emptied (s : Sheaf) : Sheaf := { s with actions := [], usedH := 0, usedL := 0, pages := 0 }

namespace Dp

/-- Sheaf `id`. -/
def sheaf (d : Dp) (id : Nat) : Sheaf := Tab.get (fun _ => {}) d.journal.sheaves id

/-- Writes sheaf `id`; the action table shows the actions of a sheaf that holds its slot. -/
def setSheaf (d : Dp) (id : Nat) (s : Sheaf) : Dp :=
  let acts := if s.state.counted then Tab.set (fun _ => []) d.journal.actions s.slot s.actions else d.journal.actions
  { d with journal := { d.journal with sheaves := Tab.set (fun _ => {}) d.journal.sheaves id s, actions := acts } }

/-- Lines a range touches. -/
def linesIn (a n : Nat) : Nat := if n = 0 then 0 else (a + n - 1) / 128 + 1 - a / 128

/-- Where the shadow data of line `k` of an action lies (Table 9.3). -/
def shadowLine (s : Sheaf) (a : Action) (k : Nat) : Nat :=
  (if a.inL then s.shadowL + 0x100000 else s.shadowH) + 128 * (a.dataOfs + k)

/-- Is footprint line `i` of a sheaf marked (Table 9.3). -/
def isMarked (d : Dp) (s : Sheaf) (i : Nat) : Bool := (d.dpaByte (s.shadowL + i / 8)).toNat.testBit (i % 8)

/-- Sets or clears the mark of footprint line `i`. -/
def setMark (d : Dp) (s : Sheaf) (i : Nat) (on : Bool) : Dp :=
  let a := s.shadowL + i / 8
  let b := (d.dpaByte a).toNat
  let b := if on then b ||| 2 ^ (i % 8) else b &&& (255 - 2 ^ (i % 8))
  d.setDpa a (BitVec.ofNat 8 b)

/-- Marks the frame of an address dirty, when it lies in one (R34). -/
def touchFrame (d : Dp) (a : Nat) : Dp :=
  { d with mem := { d.mem with frames := d.mem.frames.map fun f =>
      if f.base ≤ a && a < f.base + f.size then { f with dirty := true } else f } }

/-- Stores bytes of one batch into one line (R426): a store of the whole line cleans it, a partial store into a
poisoned line is lost, and poisoned bytes poison the line. -/
def storeLine (d : Dp) (line : Nat) (host : Bool) (bytes : List (Nat × Byte × Bool)) : Dp :=
  let whole := (List.range 128).all fun k => bytes.any fun x => x.1 = k
  let bad := d.mem.poison.has line
  let d := if bad && !whole then d
    else bytes.foldl (fun (d : Dp) x =>
      let a := 128 * line + x.1
      if host then d.setHost (a - 2 ^ 60) x.2.1 else d.setDpa a x.2.1) (if host then d else d.keepPast line)
  let d := if bad && whole then { d with mem := { d.mem with poison := d.mem.poison.remove line } } else d
  if bytes.any fun x => x.2.2 then { d with mem := { d.mem with poison := d.mem.poison.add line } } else d

end Dp

namespace Work

/-- A batch's bytes with their places: line, whether host, place within the line, byte, poison. -/
abbrev Placed := Nat × Bool × Nat × Byte × Bool

/-- The place of one cell: its home, or the shadow line of the region it lies in, filled from home when the batch
does not cover it. -/
def placeCell (e : Env) (lines : List Nat) (c : Cell) : M Placed := do
  let l ← locate e c.dva true
  match l, e.sheaf with
  | .host a, _ => return (lineOf (.host a), true, a % 128, c.byte, c.poison)
  | .dev a, none => do
    change fun d => d.touchFrame a
    return (a / 128, false, a % 128, c.byte, c.poison)
  | .dev a, some id => do
    let s := (← get).d.sheaf id
    match s.actions.find? fun x => x.uid = e.uid && x.dva ≤ c.dva && c.dva < x.dva + x.len with
    | none => trouble (xlate 10 e.space c.dva true)
    | some x =>
      let k := c.dva / 128 - x.dva / 128
      let sh := Dp.shadowLine s x k
      let i := x.line0 + k
      let whole := (lines.filter fun n => n = c.dva / 128).length = 128
      change fun d =>
        if d.isMarked s i then d
        else (if whole then d else d.copyLine (a / 128 * 128) sh).setMark s i true
      return (sh / 128, false, c.dva % 128, c.byte, c.poison)

/-- The places of all cells of a batch. -/
def placeCells (e : Env) (lines : List Nat) : List Cell → M (List Placed)
  | [] => return []
  | c :: cs => do
    let p ← placeCell e lines c
    let ps ← placeCells e lines cs
    return p :: ps

/-- The placed bytes that no later dispatch of the ring has stored (R120). -/
def inOrder (d : Dp) (e : Env) (l : List Placed) : List Placed :=
  let w := (d.ring e.ring).writes
  if w.isEmpty then l else l.filter fun p => Tab.get (fun _ => 0) w (128 * p.1 + p.2.2.1) ≤ e.uid

/-- Notes who stored the bytes, while an earlier dispatch of the ring is outstanding (R120). -/
def noteOrder (e : Env) (l : List Placed) (d : Dp) : Dp :=
  let r := d.ring e.ring
  if r.outst.any fun o => o.uid < e.uid then
    d.setRing e.ring { r with writes := l.foldl (fun t p => Tab.set (fun _ => 0) t (128 * p.1 + p.2.2.1) e.uid) r.writes }
  else d

/-- Stores the batch (R126): every address is translated before the first byte is written; a later cell of the
batch for the same byte wins, and a byte that a later dispatch of the ring has stored keeps its value (R120). -/
def flush (e : Env) : M Unit := do
  let cells := (← get).cells
  let latest := cells.foldr (fun (c : Cell) acc => if acc.any fun x => x.dva = c.dva then acc else c :: acc) []
  let placed ← placeCells e (latest.map fun c => c.dva / 128) latest
  let placed := inOrder (← get).d e placed
  change (noteOrder e placed)
  let keys := (placed.map fun p => (p.1, p.2.1)).eraseDups
  modify fun w => { w with
    cells := []
    d := keys.foldl (fun d k =>
      d.storeLine k.1 k.2 ((placed.filter fun p => (p.1, p.2.1) = k).map fun p => (p.2.2.1, p.2.2.2.1, p.2.2.2.2))) w.d }

/-- A NaN at a detection point of the work (R64). -/
def nan (e : Env) (v : FV) (g : Dp.Origin) : M Unit :=
  match v with
  | .nan p => change fun d => d.nanSeen p { g with ring := e.ring, uid := e.uid, seq := e.seq, op := e.op }
  | _ => return ()

end Work
end Sys2Proof.Machine
end

