-- ==== Sys2Proof/Machine/Operands.lean ====
section
/-!
DEFINITION. The operand forms of a descriptor: its header (R316), tensor descriptors (R109–R115) with their
coordinates, spans (R125) and checks (Table 4.2), and the load and store of one element with its conversion
(R45, R55–R58, R118, R119).
-/
namespace Sys2Proof.Machine

/-- The header of a descriptor (Table 11.3). -/
structure Hdr where
  op : Nat
  slots : Nat
  sheafEn : Bool
  cmode : Nat
  sheafId : Nat
  seq : Nat
  cls : Nat
  wait : Nat
  deriving DecidableEq, Repr

/-- Reads the header. -/
def parseHdr (bs : List Byte) : Hdr :=
  let b1 := leAt bs 1 1
  { op := leAt bs 0 1, slots := b1 % 8 + 1, sheafEn := b1.testBit 3, cmode := natFld b1 5 4,
    sheafId := leAt bs 2 2 % 4096, seq := leAt bs 4 4, cls := leAt bs 8 1 % 8, wait := leAt bs 9 1 }

/-- The least offset among the conditions that hold: the first offending field (R318). -/
def firstBad : List (Bool × Nat) → Option Nat
  | [] => none
  | (c, o) :: l =>
    match c, firstBad l with
    | true, some p => some (min o p)
    | true, none => some o
    | false, r => r

/-- Header conditions that make a descriptor malformed whatever its opcode: RSV bits, the reserved CMODE, a
SHEAF_ID without SHEAF_EN. -/
def hdrBad (bs : List Byte) : List (Bool × Nat) :=
  let b1 := leAt bs 1 1
  let s := leAt bs 2 2
  [(natFld b1 5 4 = 3 || 64 ≤ b1, 1), (4096 ≤ s || (!b1.testBit 3 && s ≠ 0), 2), (8 ≤ leAt bs 8 1, 8),
   (!zeroAt bs 10 6, 10)]

/-- A format code of Table 2.1: the element format and whether it has MX scales. -/
def fmtOf (code : Nat) : Option (Fmt × Bool) :=
  match code with
  | 0 => some (.f8n, false) | 1 => some (.f8e, false) | 2 => some (.bf16, false) | 3 => some (.fp16, false)
  | 4 => some (.fp32, false) | 5 => some (.f8n, true) | 6 => some (.f8e, true)
  | _ => none

/-- A conversion word (Table 2.2). -/
structure Conv where
  stream : Nat
  radv : Bool
  sr : Bool
  sat : Bool
  lsm : Bool
  lsg : Bool
  code : Nat
  deriving DecidableEq, Repr

/-- Reads a conversion word. -/
def parseConv (w : Nat) : Conv :=
  { stream := natFld w 23 12, radv := w.testBit 11, sr := w.testBit 10, sat := w.testBit 9, lsm := w.testBit 8,
    lsg := w.testBit 7, code := w % 16 }

/-- A conversion word with a reserved code or a set RSV bit (R44, R45). -/
def convBad (w : Nat) : Bool := (fmtOf (w % 16)).isNone || natFld w 31 24 ≠ 0 || natFld w 6 4 ≠ 0

/-- The element format of a conversion word; a reserved code never gets past the checks. -/
def Conv.fmt (c : Conv) : Fmt := ((fmtOf c.code).getD (.f8n, false)).1

/-- Has the format an MX scale. -/
def Conv.mx (c : Conv) : Bool := ((fmtOf c.code).getD (.f8n, false)).2

/-- A tensor descriptor (Table 4.1). -/
structure TDesc where
  base : Nat
  conv : Conv
  tid : Nat
  scaleBase : Nat
  ndim : Nat
  padWrite : Bool
  rev : Nat
  rotDim : Nat
  rotEn : Bool
  winDim : Nat
  winEn : Bool
  padValue : Nat
  ext : List Nat
  rotAmt : Nat
  winSrc : Nat
  stride : List Int
  padB : List Nat
  padA : List Nat
  winStep : Nat
  winDil : Nat
  /-- the slot it begins in -/
  slot : Nat
  deriving DecidableEq, Repr

/-- Reads the tensor descriptor at byte `o`. -/
def parseT (bs : List Byte) (o : Nat) : TDesc :=
  let b24 := leAt bs (o + 24) 1
  let b26 := leAt bs (o + 26) 1
  let b27 := leAt bs (o + 27) 1
  let six := List.range 6
  { base := leAt bs o 8, conv := parseConv (leAt bs (o + 8) 4), tid := leAt bs (o + 12) 4,
    scaleBase := leAt bs (o + 16) 8, ndim := b24 % 8, padWrite := b24.testBit 3, rev := leAt bs (o + 25) 1 % 64,
    rotDim := b26 % 8, rotEn := b26.testBit 3, winDim := b27 % 8, winEn := b27.testBit 3,
    padValue := leAt bs (o + 28) 4, ext := six.map fun d => leAt bs (o + 32 + 4 * d) 4,
    rotAmt := leAt bs (o + 56) 4, winSrc := leAt bs (o + 60) 4,
    stride := six.map fun d => signed 48 (leAt bs (o + 64 + 6 * d) 6),
    padB := six.map fun d => leAt bs (o + 100 + 4 * d) 2, padA := six.map fun d => leAt bs (o + 102 + 4 * d) 2,
    winStep := leAt bs (o + 124) 2, winDil := leAt bs (o + 126) 2,
    slot := o / 64 }

namespace TDesc

/-- Element `d` of a list of numbers, 0 past its end. -/
def at0 (l : List Nat) (d : Nat) : Nat := l.getD d 0

/-- Is dimension `d` the window dimension, or the second of the pair (R110). -/
def winFirst (t : TDesc) (d : Nat) : Bool := t.winEn && d = t.winDim
/-- Is dimension `d` the output dimension of the window pair. -/
def winSecond (t : TDesc) (d : Nat) : Bool := t.winEn && d = t.winDim + 1

/-- The logical extent of dimension `d` (R110); a dimension past NDIM acts as one of extent 1. -/
def n (t : TDesc) (d : Nat) : Nat :=
  if t.ndim ≤ d then 1
  else if t.winFirst d || t.winSecond d then at0 t.ext d
  else at0 t.padB d + at0 t.ext d + at0 t.padA d

/-- Logical extents of all six dimensions. -/
def exts (t : TDesc) : List Nat := (List.range 6).map t.n

/-- Number of logical positions. -/
def count (t : TDesc) : Nat := prodNat t.exts

/-- Bytes of an element. -/
def esize (t : TDesc) : Nat := t.conv.fmt.size

/-- The linear element index of a coordinate (R61). -/
def index (t : TDesc) (i : List Nat) : Nat :=
  ((List.range 6).foldl (fun (a : Nat × Nat) d => (a.1 + at0 i d * a.2, a.2 * t.n d)) (0, 1)).1

/-- The coordinate of a linear element index. -/
def coord (t : TDesc) (e : Nat) : List Nat :=
  ((List.range 6).foldl (fun (a : List Nat × Nat) d => (a.1 ++ [a.2 % t.n d], a.2 / t.n d)) ([], e)).1

/-- The stored coordinate of dimension `d` (R111): absent for a padding position unless `pads`; `none` also for the
window dimension, which has no coordinate of its own. -/
def storedDim (t : TDesc) (i : List Nat) (pads : Bool) (d : Nat) : Option Int :=
  if t.winSecond d then
    let j : Int := (at0 i d * t.winStep + at0 i t.winDim * t.winDil : Nat) - (at0 t.padB d : Int)
    if j < 0 || (t.winSrc : Int) ≤ j then none else some j
  else
    let j : Int := (at0 i d : Int) - (at0 t.padB d : Int)
    let x := at0 t.ext d
    if j < 0 || (x : Int) ≤ j then (if pads then some j else none)
    else
      let j := if t.rev.testBit d then (x : Int) - 1 - j else j
      some (if t.rotEn && d = t.rotDim then (j + t.rotAmt) % (x : Int) else j)

/-- Dimensions that have a stored coordinate. -/
def storedDims (t : TDesc) : List Nat := (List.range t.ndim).filter fun d => !t.winFirst d

/-- The byte address of a coordinate, or `none` for padding (R111). -/
def addr (t : TDesc) (i : List Nat) (pads : Bool := false) : Option Int :=
  t.storedDims.foldl (fun (a : Option Int) d =>
    match a, t.storedDim i pads d with
    | some a, some j => some (a + j * t.stride.getD d 0)
    | _, _ => none) (some t.base)

/-- Does some data position reach address `a`; a padding position there is not written (R112). -/
def dataAt (t : TDesc) (a : Int) : Bool := (List.range t.count).any fun e => t.addr (t.coord e) = some a

/-- Does a coordinate lie in padding (R111). -/
def isPad (t : TDesc) (i : List Nat) : Bool := (t.addr i).isNone

/-- The extent over which the stored coordinate of dimension `d` runs (R110, R114). -/
def storedExt (t : TDesc) (d : Nat) : Nat := if t.winSecond d then t.winSrc else at0 t.ext d

/-- The address of the MX scale byte of a coordinate (R51, R114). -/
def scaleAddr (t : TDesc) (i : List Nat) : Nat :=
  let pitch := cdiv (cdiv (at0 t.ext 0) 32) 64 * 64
  let r := (List.range 6).foldl (fun (a : Nat × Nat) d =>
    if d = 0 || t.ndim ≤ d || t.winFirst d then a
    else
      (a.1 + ((t.storedDim i false d).getD 0).toNat * a.2, a.2 * t.storedExt d)) (0, 1)
  t.scaleBase + r.1 * pitch + ((t.storedDim i false 0).getD 0).toNat / 32

/-- Each padding of a dimension that must have none, at its own byte (Table 4.1). -/
def padsAt (t : TDesc) (o d : Nat) : List (Bool × Nat) :=
  [(decide (at0 t.padB d ≠ 0), o + 100 + 4 * d), (decide (at0 t.padA d ≠ 0), o + 102 + 4 * d)]

/-- A tensor that must have neither padding, rotation nor window. -/
def plainBad (t : TDesc) (o : Nat) : List (Bool × Nat) :=
  (t.rotEn, o + 26) :: (t.winEn, o + 27) :: (List.range 6).flatMap fun d => t.padsAt o d

/-- Logical extents that an operation fixes, as pairs of a dimension and its extent. -/
def extsBad (t : TDesc) (o : Nat) (l : List (Nat × Nat)) : List (Bool × Nat) :=
  l.map fun x => (decide (t.n x.1 ≠ x.2), o + 32 + 4 * x.1)

/-- Two tensors of equal NDIM and extents in every dimension; offsets of the disagreement in the second. -/
def sameShape (s t : TDesc) (o : Nat) : List (Bool × Nat) :=
  (decide (s.ndim ≠ t.ndim), o + 24) :: (List.range 6).map fun d => (decide (s.n d ≠ t.n d), o + 32 + 4 * d)

/-- Conditions that make the tensor descriptor malformed (Table 4.2), with byte offsets from its start. -/
def bad (bs : List Byte) (o : Nat) (stored : Bool) : List (Bool × Nat) :=
  let t := parseT bs o
  let cw := leAt bs (o + 8) 4
  let six := List.range 6
  let inner := six.filter fun d => decide (d < t.ndim)
  let outer := six.filter fun d => decide (t.ndim ≤ d)
  let mx := t.conv.mx
  let padded (d : Nat) : Bool := at0 t.padB d ≠ 0 || at0 t.padA d ≠ 0
  let pair (d : Nat) : Bool := t.winFirst d || t.winSecond d
  [(convBad cw, o + 8), (!mx && t.scaleBase ≠ 0, o + 16),
   (t.ndim = 0 || t.ndim = 7 || 16 ≤ leAt bs (o + 24) 1, o + 24),
   (stored && t.padWrite && inner.any (fun d => padded d && (t.rev.testBit d || (t.rotEn && t.rotDim = d))), o + 24),
   (mx && t.padWrite, o + 24),
   (64 ≤ leAt bs (o + 25) 1 || outer.any (fun d => t.rev.testBit d) || (mx && t.rev.testBit 0), o + 25),
   (t.winEn && inner.any (fun d => pair d && t.rev.testBit d), o + 25),
   (16 ≤ leAt bs (o + 26) 1 || (!t.rotEn && t.rotDim ≠ 0) || (t.rotEn && t.ndim ≤ t.rotDim), o + 26),
   ((mx && t.rotEn && t.rotDim = 0) || (t.winEn && t.rotEn && pair t.rotDim), o + 26),
   (16 ≤ leAt bs (o + 27) 1 || (!t.winEn && t.winDim ≠ 0) || (t.winEn && t.ndim < t.winDim + 2), o + 27),
   ((stored && t.winEn) || (mx && t.winEn && t.winDim = 0), o + 27),
   (mx && t.padValue ≠ 0, o + 28),
   ((!t.rotEn && t.rotAmt ≠ 0) || (t.rotEn && at0 t.ext t.rotDim ≤ t.rotAmt), o + 56),
   (t.winEn == decide (t.winSrc = 0), o + 60),
   (t.winEn == decide (t.winStep = 0), o + 124),
   (t.winEn == decide (t.winDil = 0), o + 126)] ++
  outer.map (fun d => (decide (at0 t.ext d ≠ 0), o + 32 + 4 * d)) ++
  outer.map (fun d => (decide (t.stride.getD d 0 ≠ 0), o + 64 + 6 * d)) ++
  outer.flatMap (fun d => t.padsAt o d) ++
  inner.map (fun d => (decide (at0 t.ext d = 0) || decide (2 ^ 32 - 1 < t.n d), o + 32 + 4 * d)) ++
  inner.map (fun d => (stored && decide (t.stride.getD d 0 = 0) && decide (1 < t.n d), o + 64 + 6 * d)) ++
  inner.map (fun d => (t.winFirst d && decide (t.stride.getD d 0 ≠ 0), o + 64 + 6 * d)) ++
  inner.flatMap (fun d => if t.winFirst d then t.padsAt o d else if t.winSecond d then (t.padsAt o d).drop 1 else []) ++
  [(mx && decide (t.stride.getD 0 0 ≠ 1), o + 64)] ++ (if mx then t.padsAt o 0 else [])

/-- The ALIGN conditions of Table 4.2 (R113, R114). -/
def misaligned (t : TDesc) : Bool :=
  t.base % t.esize ≠ 0 || (List.range t.ndim).any (fun d => t.stride.getD d 0 % (t.esize : Int) ≠ 0) ||
  (t.conv.mx && t.scaleBase % 64 ≠ 0)

/-- Least and greatest stored coordinate that dimension `d` reaches, padding positions included when `pads`;
absent when it reaches none. -/
def reach (t : TDesc) (pads : Bool) (d : Nat) : Option (Int × Int) :=
  if t.winSecond d then
    let js := (List.range (t.n t.winDim)).filterMap fun w =>
      let b : Int := (w * t.winDil : Nat) - (at0 t.padB d : Int)
      -- output positions o with 0 ≤ b + o * step < src
      let lo := if 0 ≤ b then 0 else cdiv b.natAbs t.winStep
      let top : Int := (t.winSrc : Int) - 1 - b
      if top < 0 then none
      else
        let hi := min (t.n d - 1) (top.toNat / t.winStep)
        if hi < lo then none else some (b + (lo * t.winStep : Nat), b + (hi * t.winStep : Nat))
    match js with
    | [] => none
    | j :: rest => some (rest.foldl (fun (a : Int × Int) b => (min a.1 b.1, max a.2 b.2)) j)
  else if pads then some (-(at0 t.padB d : Int), (at0 t.ext d + at0 t.padA d : Nat) - 1)
  else some (0, (at0 t.ext d : Int) - 1)

/-- The span of the tensor's elements (R125): first byte and first byte past the end; absent when nothing is
addressed. -/
def span (t : TDesc) (stored : Bool) : Option (Int × Int) :=
  t.storedDims.foldl (fun (a : Option (Int × Int)) d =>
    match a, t.reach (stored && t.padWrite) d with
    | some (lo, hi), some (j, k) =>
      let s := t.stride.getD d 0
      some (lo + min (j * s) (k * s), hi + max (j * s) (k * s))
    | _, _ => none) (some ((t.base : Int), (t.base + t.esize : Nat)))

/-- The least and greatest row of scales that some coordinate reaches (R114, R125); absent when none is reached. -/
def scaleRows (t : TDesc) : Option (Int × Int) :=
  ((t.storedDims.filter (0 < ·)).foldl (fun (a : Option (Int × Int × Nat)) d =>
    match a, t.reach false d with
    | some (lo, hi, m), some (j, k) => some (lo + j * m, hi + k * m, m * t.storedExt d)
    | _, _ => none) (some (0, 0, 1))).map fun x => (x.1, x.2.1)

/-- The span of the tensor's MX scale array (R125). -/
def scaleSpan (t : TDesc) : Option (Int × Int) :=
  if t.conv.mx then
    let w := cdiv (at0 t.ext 0) 32
    t.scaleRows.map fun r =>
      ((t.scaleBase : Int) + r.1 * (cdiv w 64 * 64 : Nat), (t.scaleBase : Int) + r.2 * (cdiv w 64 * 64 : Nat) + w)
  else none

end TDesc

/-- Do two spans share a byte. -/
def Span.meets (a b : Span) : Bool := a.lo < b.hi && b.lo < a.hi

/-- The spans of a tensor with its scales. -/
def TDesc.spans (t : TDesc) (stored : Bool) : List Span :=
  ((t.span stored).map fun s => (⟨s.1, s.2, stored, t.slot⟩ : Span)).toList ++
  (t.scaleSpan.map fun s => (⟨s.1, s.2, stored, t.slot⟩ : Span)).toList

/-- The span of a plain array of `n` bytes. -/
def arraySpan (a n : Nat) (stored : Bool) (slot : Nat := 0) : Span := ⟨a, (a + n : Nat), stored, slot⟩

namespace Work

/-- Checks an address that a tensor coordinate gave (R111, R17). The fault reports the address itself, in 64 bits. -/
def checked (e : Env) (a : Int) (n : Nat) (base : Nat) (write : Bool) : M Nat :=
  if a < 0 || (2 ^ 52 : Int) - n < a || 2 ^ 52 ≤ base then trouble (xlate 1 e.space (unsigned 64 a) write)
  else return a.toNat

/-- The value of PAD_VALUE in a tensor's format (R118). -/
def padFV (t : TDesc) : FV := t.conv.fmt.decode (t.conv.fmt.convert false .nearestEven (FV.of32 t.padValue))

/-- The code of one stored element, unscaled. -/
def loadCode (e : Env) (t : TDesc) (a : Int) : M Nat := do
  let a ← checked e a t.esize t.base false
  readNat e a t.esize

/-- One element loaded: its value, and the MX scale byte apart (R52, R118). -/
def loadParts (e : Env) (t : TDesc) (i : List Nat) : M (FV × Nat) := do
  match t.addr i with
  | none => return (padFV t, 0x7F)
  | some a =>
    let c ← loadCode e t a
    let s ← if t.conv.mx then do
        let sa ← checked e (t.scaleAddr i) 1 t.scaleBase false
        readNat e sa 1
      else pure 0x7F
    return (t.conv.fmt.decode c, s)

/-- One element loaded, with its scale applied. -/
def load (e : Env) (t : TDesc) (i : List Nat) : M FV := do
  let (v, s) ← loadParts e t i
  return if t.conv.mx then mxApply s v else v

/-- The rounding of a store's element (R56, R58): stochastic with the stream captured at dispatch. -/
def roundingOf (e : Env) (c : Conv) (tid idx : Nat) : Rounding :=
  if c.sr then
    match e.streams.find? fun s => s.stream = c.stream with
    | some s => .stochastic (srWord s.key s.ctr tid idx)
    | none => .stochastic (srWord 0 0 tid idx)
  else .nearestEven

/-- The code of a value under a conversion word, with the step overflow flag (R45, R57, R70, R71). `shift` is the
exponent of an MX scale divided out. -/
def encode (e : Env) (c : Conv) (tid idx : Nat) (shift : Int) (pad : Bool) (v : FV) : M Nat := do
  let v := if c.lsm && !pad then v.scale e.lsExp else v
  let code := c.fmt.convert (c.sat && !(c.lsg && !pad)) (roundingOf e c tid idx) (v.scale (-shift))
  if c.lsg && !pad && c.fmt.nonFinite code then
    change fun d => { d with phx := { d.phx with ovf := true } }
  return code

/-- The scale byte of the MX block of a coordinate, from the values of the block inside the extent (R53, R124). -/
def blockScaleOf (e : Env) (t : TDesc) (val : List Nat → M FV) (i : List Nat) : M Nat := do
  let b := TDesc.at0 i 0 / 32 * 32
  let m := min 32 (t.n 0 - b)
  let vs ← (List.range m).mapM fun k => do
    let v ← val (i.set 0 (b + k))
    return if t.conv.lsm then v.scale e.lsExp else v
  return t.conv.fmt.blockScale vs

/-- Puts one element of a store into the batch (R111, R119): the value the operation computed, or PAD_VALUE at a
padding position under PAD_WRITE = 1. `drained` tells that a NaN was detected at an earlier point. A NaN of the conversion
names the tiller and array of the drained tile (DESIGN CHOICE, log entry 153), and no engine (Table 2.12). -/
def storeAt (e : Env) (t : TDesc) (val : List Nat → M FV) (i : List Nat) (poison drained : Bool) (g : Dp.Origin) :
    M Unit := do
  let pad := t.isPad i
  if pad && !t.padWrite then return ()
  match t.addr i pad with
  | none => return ()
  | some a =>
    let a ← checked e a t.esize t.base true
    let idx := t.index i
    if pad && t.dataAt a then return ()
    if pad then
      let code ← encode e t.conv t.tid idx 0 true (FV.of32 t.padValue)
      put a (toLe t.esize code) poison
    else
      let v ← val i
      if t.conv.mx then
        let s ← blockScaleOf e t val i
        let code ← encode e t.conv t.tid idx ((s : Int) - 127) false v
        if (t.conv.fmt.decode code).isNan && !(drained && v.isNan) then
          nan e (if v.isNan then v else .nan false) { g with src := 1, engine := 0, idx }
        put a (toLe t.esize code) poison
        let sa ← checked e (t.scaleAddr i) 1 t.scaleBase true
        put sa (toLe 1 s) poison
      else
        let code ← encode e t.conv t.tid idx 0 false v
        if (t.conv.fmt.decode code).isNan && !(drained && v.isNan) then
          nan e (if v.isNan then v else .nan false) { g with src := 1, engine := 0, idx }
        put a (toLe t.esize code) poison

end Work
end Sys2Proof.Machine
end

