-- ==== Sys2Proof/Machine/Rings.lean ====
section
/-!
DEFINITION. The ring engine: dispatch of the next descriptor (R318, R322, R323) and completion (R324, R328–R333),
as shared operations of every opcode.
-/
namespace Sys2Proof.Machine

/-- What the other planes let the data plane do (R6): whether a half takes list entries and is out of reset, and
whether a Stoker dispatches. -/
structure Gates where
  /-- half 0 and half 1 take entries: neither GATED, in reset, nor without their clocks -/
  up0 : Bool
  up1 : Bool
  /-- a half in reset: its rings do not dispatch -/
  reset0 : Bool
  reset1 : Bool
  /-- bit n: Stoker n is halted (DBG_STOKER) -/
  stokers : Nat
  /-- the module is in a power state in which rings dispatch -/
  awake : Bool
  /-- the security gate refuses every descriptor (Table 16.9) -/
  closed : Bool := false
  /-- segments GLEANER, FLAIL and TRANSPORT run (Table 16.1) -/
  gleaner : Bool := true
  flail : Bool := true
  culm : Bool := true
  deriving DecidableEq, Repr

/-- A half takes entries. -/
def Gates.up (g : Gates) (h : Nat) : Bool := if h = 0 then g.up0 else g.up1

/-- A half is in reset. -/
def Gates.inReset (g : Gates) (h : Nat) : Bool := if h = 0 then g.reset0 else g.reset1

/-- A descriptor at its dispatch. -/
structure OpCtx where
  g : Gates
  ring : Nat
  uid : Nat
  hdr : Hdr
  bytes : List Byte
  spans : List Span
  deriving DecidableEq, Repr

/-- The opcodes of Table 11.4. -/
def knownOp (op : Nat) : Bool :=
  [0x00, 0x01, 0x02, 0x03, 0x08, 0x09, 0x10, 0x14, 0x15, 0x16, 0x18, 0x19, 0x20, 0x21, 0x22, 0x23, 0x28,
   0x30, 0x31, 0x32, 0x38, 0x39, 0x3A, 0x40, 0x41, 0x48, 0x49, 0x4A, 0x4B, 0x4C, 0x50, 0x51, 0x58].contains op

/-- Status codes (Table 11.9). -/
def stOK : Nat := 0
def stXlate : Nat := 1
def stIndex : Nat := 2
def stAlign : Nat := 3
def stOverlap : Nat := 4
def stCrib : Nat := 5
def stCancelled : Nat := 6
def stSheafAborted : Nat := 7
def stConflict : Nat := 8
def stRetired : Nat := 9
def stNanTrap : Nat := 10
def stTimeout : Nat := 11
def stPoisoned : Nat := 12
def stDenied : Nat := 13

namespace Dp

/-! ### Completion -/

/-- Drops the leading completed descriptors and reports the last of them as DONE_SEQ (R324). -/
def retire : List (Nat × Nat × Bool) → Nat → List (Nat × Nat × Bool) × Nat
  | (_, seq, true) :: l, _ => retire l seq
  | l, done => (l, done)

/-- Descriptors of ring `n` that count toward MAXOUT: outstanding, or completed with their record held (R324). -/
def outstanding (d : Dp) (n : Nat) : Nat :=
  (d.ring n).outst.length +
  (d.cqs.foldl (fun a (_, c) => a + (c.held.filter fun r => r.ring = n).length) 0)

/-- The status a descriptor completes with, and its detail: POISONED and NAN_TRAP replace OK only (R333, R67). -/
def Outst.final (o : Outst) (e : Ending) : Nat × Nat :=
  if e.status ≠ 0 then (e.status, e.detail)
  else if o.poisoned then (stPoisoned, 0)
  else if o.trapped then (stNanTrap, 0)
  else (0, 0)

/-! ### The pipeline program (R260) -/

/-- Entry `k` of the pipeline program, read in the address space of a ring; an entry that cannot be read is 0. -/
def pipeEntry (d : Dp) (space k : Nat) : Nat :=
  let dva := (d.regs.inForce Reg.fllPipeBase).fld 51 6 * 64 + 8 * k
  match d.translate space dva false with
  | .ok (.dev a) => leNat (d.dpaBytes a 8)
  | .ok (.host a) => leNat ((List.range 8).map fun i => d.hostByte (a + i))
  | .error _ => 0

/-- Entries of the program, 0 while it sequences nothing. -/
def pipeLen (d : Dp) : Nat :=
  let c := d.regs.inForce Reg.fllPipeCtl
  if c.bit 0 then c.fld 31 16 else 0

/-- The open entries of ring `n`, in increasing order. -/
def pipeOpen (d : Dp) (n : Nat) : List Nat :=
  let w := (d.regs.inForce Reg.fllPipeCtl).fld 10 8
  ((List.range w).map (d.fll.cursor + ·)).filter fun k =>
    k < d.pipeLen && d.pipeEntry (d.spaceOf n) k % 64 = n

/-- How often an entry has been counted in a table of the stage state. -/
def pipeCount (t : Tab Nat) (k : Nat) : Nat := Tab.get (fun _ => 0) t k

/-- The open entry in which ring `n` dispatches next. -/
def pipeNext (d : Dp) (n : Nat) : Option Nat :=
  (d.pipeOpen n).find? fun k => pipeCount d.fll.taken k < natFld (d.pipeEntry (d.spaceOf n) k) 63 32

/-- May ring `n` dispatch: the program does not name it, or one of its open entries has room. -/
def pipeGate (d : Dp) (n : Nat) : Bool :=
  !((List.range d.pipeLen).any fun k => d.pipeEntry (d.spaceOf n) k % 64 = n) || (d.pipeNext n).isSome

/-- Is a line of the program poisoned. -/
def pipePoisoned (d : Dp) (space : Nat) : Bool :=
  (List.range d.pipeLen).any fun k =>
    match d.translate space ((d.regs.inForce Reg.fllPipeBase).fld 51 6 * 64 + 8 * k) false with
    | .ok (.dev a) => d.isPoisoned a
    | .ok (.host a) => d.mem.poison.has ((2 ^ 60 + a) / 128)
    | .error _ => false

/-- Does the program name ring `m`, as read in a space. -/
def pipeNames (d : Dp) (space m : Nat) : Bool := (List.range d.pipeLen).any fun k => d.pipeEntry space k % 64 = m

/-- A dispatch of ring `n` counts in its entry, whose MICRO is recorded. -/
def pipeTake (d : Dp) (n : Nat) : Dp :=
  match d.pipeNext n with
  | some k =>
    { d with fll := { d.fll with taken := Tab.modify (fun _ => 0) d.fll.taken k (· + 1),
                                 micro := Tab.set (fun _ => 0) d.fll.micro k (natFld (d.pipeEntry (d.spaceOf n) k) 31 16) } }
  | none => d

/-- Moves the cursor over finished entries. -/
def pipeAdvance (d : Dp) (space : Nat) : Nat → Dp
  | 0 => d
  | f + 1 =>
    let k := d.fll.cursor
    if k < d.pipeLen && natFld (d.pipeEntry space k) 63 32 ≤ pipeCount d.fll.counts k then
      pipeAdvance { d with fll := { d.fll with cursor := k + 1 } } space f
    else d

/-- A completion of ring `n` counts in its lowest open entry that has dispatched more than it has completed. -/
def pipeDone (d : Dp) (n : Nat) : Dp :=
  match (d.pipeOpen n).find? fun k => pipeCount d.fll.counts k < pipeCount d.fll.taken k with
  | some k =>
    let d : Dp := { d with fll := { d.fll with counts := Tab.modify (fun _ => 0) d.fll.counts k (· + 1) } }
    d.pipeAdvance (d.spaceOf n) d.pipeLen
  | none => d

/-- Does a SCATTER_ADD hold a translation of the host pages of an ATS invalidation (R135). -/
def atsHeld (d : Dp) (x : AtsInv) : Bool :=
  d.mem.atc.any fun a => a.pasid = x.pasid && x.page ≤ a.page / 4096 && a.page / 4096 < x.page + x.pages &&
    d.rings.any fun (_, r) => r.outst.any fun o =>
      d.pasidOf o.space = x.pasid && o.held.any fun p => p.2.2 && p.2.1 / 4096 = a.target / 4096

/-- ATS invalidations complete once no SCATTER_ADD holds their pages: their entries leave the cache (R25, R135). -/
def atsSettle (d : Dp) : Dp :=
  let (wait, gone) := d.mem.atsInvs.partition d.atsHeld
  { d with mem := { d.mem with atsInvs := wait, atc := d.mem.atc.filter fun a => !(gone.any fun x =>
      a.pasid = x.pasid && x.page ≤ a.page / 4096 && a.page / 4096 < x.page + x.pages) } }

/-- A descriptor completes (R324): it leaves the outstanding ones, DONE_SEQ and the ring's state follow, its
lists and partials go, its record is written or held as CMODE says (R329), and a ring that halts after it halts. -/
def complete (d : Dp) (n uid : Nat) (e : Ending) : Dp :=
  let r := d.ring n
  match r.outst.find? (·.uid == uid) with
  | none => d
  | some o =>
    let (status, detail) := Outst.final o e
    let order := r.order.map fun x => if x.1 = uid then (x.1, x.2.1, true) else x
    let (order, done) := retire order r.doneSeq
    let outst := r.outst.filter fun x => x.uid ≠ uid
    let state := if r.state = .draining && outst.isEmpty then .disabled else r.state
    let writes := r.writes.filter fun w => outst.any fun x => x.uid < w.2
    let d := d.setRing n { r with order, outst, doneSeq := done, state, writes }
    let d := { d with lists := d.lists.filter fun l => l.uid ≠ uid,
                      partials := d.partials.filter fun p => p.uid ≠ uid,
                      stats := d.stats.filter fun p => p.uid ≠ uid }
    let d := d.atsSettle.pipeDone n
    let t : Int := (d.now : Int) - (o.start : Int)
    let d := d.monSample 0 (fun q => (q.testBit 6 || q % 64 = n) && (natFld q 15 8 = 255 || natFld q 15 8 = o.op)) t
    let d := if o.op = 0x39 then d.monSample 5 (fun q => q = 255 || q = n) t else d
    let d := if o.cmode ≠ 2 || status ≠ 0 then
        d.putRecord (Word.fld o.cfg 43 38)
          { ring := n, seq := o.seq, op := o.op, status, detail, result := e.result % 2 ^ 64, ofs := e.ofs,
            time := d.now % 2 ^ 48, halted := e.halts, irq := o.cmode ≠ 0 }
      else d
    if e.halts then d.haltBeforeNotice n { status, detail, ofs := e.ofs } else d

/-- The outstanding descriptor's work is done; it completes at its DESCRIPTOR_COMPLETE. -/
def finished (d : Dp) (uid : Nat) (e : Ending) : Dp := d.setPhase uid (.finished e)

/-! ### Dispatch -/

/-- Has every earlier descriptor whose class is awaited completed (R323). -/
def waitMet (r : Ring) (h : Hdr) : Bool := r.outst.all fun o => !h.wait.testBit o.cls

/-- Does a span meet a region action (compared as DVA ranges of one space, R522). -/
def spanMeets (s : Span) (a : Action) : Bool := s.lo < (a.dva + a.len : Nat) && (a.dva : Int) < s.hi

/-- Is a descriptor with these spans held by a committing or committed sheaf of the space (R278). -/
def heldBySheaf (d : Dp) (space : Nat) (spans : List Span) : Bool :=
  d.journal.sheaves.any fun (_, s) =>
    (s.state = .committing || s.state = .committed) && s.space = space &&
    s.actions.any fun a => spans.any fun x => spanMeets x a

/-- Is a descriptor with header `h` and these spans held at dispatch (R278). DEDUCED (log entry 8): one that names a
committing or committed sheaf reads and writes nothing (Table 9.12), so it is not held and gets its CONFLICT. -/
def heldDesc (d : Dp) (space : Nat) (h : Hdr) (spans : List Span) : Bool :=
  let s := d.sheaf h.sheafId
  !(h.sheafEn && (s.state = .committing || s.state = .committed)) && d.heldBySheaf space spans

/-- A FENCE of the ring blocks its later descriptors until it completes (R326). -/
def fenced (r : Ring) : Bool := r.outst.any fun o => o.op = 0x01

/-- The next descriptor of ring `n`, once all its slots have been fetched. -/
def nextDesc (d : Dp) (n : Nat) : Option (Hdr × List Byte) :=
  let f := (d.ring n).fetched
  if f.length < 64 then none
  else
    let h := parseHdr f
    if f.length < 64 * h.slots then none else some (h, f.take (64 * h.slots))

/-- The first five gates of R322 for ring `n`, those that do not look into the descriptor. -/
def mayDispatch (d : Dp) (g : Gates) (n : Nat) : Bool :=
  let r := d.ring n
  let h := d.stokerHalf n
  r.state = .running && (d.reg Reg.glbCtl).bit 0 &&
  decide (d.outstanding n < (d.reg (Reg.ringCfg n)).fld 63 55) &&
  !fenced r && d.pipeGate n && !d.snaps.any (·.held) && g.awake && !g.inReset h && !g.stokers.testBit (4 * h + n % 4)

/-- A poisoned pipeline program halts every ring it names before its next descriptor, as one of them comes to dispatch
(R427, Table 15.2; DESIGN CHOICE, log entry 12: with the status POISONED, by the names as stored). -/
def pipeHalts (d : Dp) (n : Nat) : Option Dp :=
  let space := d.spaceOf n
  if (d.ring n).state = .running && (d.reg Reg.glbCtl).bit 0 && d.pipeNames space n && d.pipePoisoned space then
    some (((List.range 64).filter fun m => d.pipeNames space m && (d.ring m).state = .running).foldl
      (fun (d : Dp) m => d.haltBeforeNotice m { status := stPoisoned, detail := 0, ofs := 0 }) d)
  else none

/-- Takes the next descriptor off ring `n`: it counts as dispatched, and the next SEQ expected follows it (R318). -/
def takeDesc (d : Dp) (n : Nat) (h : Hdr) : Nat × Dp :=
  let r := d.ring n
  let uid := d.nextUid
  let d := d.setRing n { r with fetched := r.fetched.drop (64 * h.slots), fpoison := r.fpoison.drop h.slots, expSeq := (h.seq + 1) % 2 ^ 32,
                                order := r.order ++ [(uid, h.seq, false)] }
  (uid, ({ d with nextUid := uid + 1 }.pipeTake n).bump Reg.ringDispCnt)

/-- The descriptor as it becomes outstanding. -/
def opened (d : Dp) (c : OpCtx) : Outst :=
  { uid := c.uid, seq := c.hdr.seq, op := c.hdr.op, cls := c.hdr.cls, cmode := c.hdr.cmode,
    sheaf := if c.hdr.sheafEn then some c.hdr.sheafId else none, bytes := c.bytes, phase := .running,
    start := d.now, lsExp := d.phx.x, streams := [], spans := c.spans, space := d.spaceOf c.ring, cfg := d.reg (Reg.ringCfg c.ring),
    hotEn := (d.reg Reg.sprCtl).bit 1, hotThr := (d.reg Reg.sprThr).fld 31 0 }

/-- A descriptor joins the outstanding ones of ring `n`. -/
def join (d : Dp) (n : Nat) (o : Outst) : Dp := d.setRing n { d.ring n with outst := (d.ring n).outst ++ [o] }

/-- The descriptor becomes outstanding. -/
def begin (d : Dp) (c : OpCtx) : Dp := d.join c.ring (d.opened c)

/-- The descriptor ends at its dispatch. -/
def endNow (d : Dp) (c : OpCtx) (e : Ending) : Dp := (d.begin c).complete c.ring c.uid e

/-- A malformed descriptor: DENIED, DETAIL 1, the offending byte, and the ring halts before its next (R318). -/
def malformed (d : Dp) (c : OpCtx) (ofs : Nat) : Dp :=
  d.endNow c { status := stDenied, detail := 1, ofs, halts := true }

/-- Refused at dispatch with a status; the ring continues. -/
def refuse (d : Dp) (c : OpCtx) (status : Nat) (detail : Nat := 0) (result : Nat := 0) : Dp :=
  d.endNow c { status, detail, result }

/-- Guard ranges (R122): do the new descriptor's spans meet those of a descriptor outstanding on another ring of
the same space inside a guard range of either. -/
def guardRefuses (d : Dp) (n : Nat) (spans : List Span) : Bool :=
  let guard (m : Nat) : Option (Int × Int) :=
    let lo := d.reg (Reg.guardLo m)
    if lo.bit 0 then some ((lo.fld 51 7 * 128 : Nat), ((d.reg (Reg.guardHi m)).fld 51 7 * 128 + 128 : Nat)) else none
  let touches (m : Nat) (lo hi : Int) : Bool :=
    match guard m with
    | some (a, b) => max lo a < min hi b
    | none => false
  d.rings.any fun (m, r) =>
    m ≠ n && r.outst.any fun o =>
      o.space = d.spaceOf n && o.spans.any fun x => spans.any fun y =>
        (x.stored || y.stored) && x.meets y &&
        (touches n (max x.lo y.lo) (min x.hi y.hi) || touches m (max x.lo y.lo) (min x.hi y.hi))

/-- How an opcode relates to sheaves (Table 9.2). -/
inductive SheafRule where
  | must | may | own | never
  deriving DecidableEq, Repr

/-- The conditions of Table 9.2 that make a descriptor malformed before its other checks: a descriptor that must name an open
sheaf counts one it may not use there (Tables 6.7 and 8.12), and one that may name a sheaf is judged on it last (R271). -/
def sheafBad (d : Dp) (n : Nat) (h : Hdr) (rule : SheafRule) : List (Bool × Nat) :=
  match rule with
  | .never => [(h.sheafEn, 1)]
  | .own => [(!h.sheafEn, 1)]
  | .may => []
  | .must =>
    let s := d.sheaf h.sheafId
    [(!h.sheafEn, 1), (h.sheafEn && (s.state = .free || (s.state = .opened && s.ring ≠ n)), 2)]

/-- A ring whose next descriptor lies on a slot that could not be fetched halts before it (R315). -/
def fetchHalt (d : Dp) (n : Nat) : Dp :=
  match (d.ring n).fetchFault with
  | some h => if (d.ring n).state ≠ .running || (d.nextDesc n).isSome then d else d.haltBeforeNotice n { h with slot := (d.ring n).fetched.length / 64 }
  | none => d

/-- Does an opcode need a unit whose segment does not run, or is every descriptor refused: the security gate then
refuses it with DENIED, DETAIL 4 (Tables 16.1 and 16.9). -/
def secured (g : Gates) (op : Nat) (bytes : List Byte) : Bool :=
  g.closed ||
  (!g.gleaner && [0x08, 0x09, 0x50, 0x51].contains op) ||
  (!g.flail && [0x30, 0x31].contains op) ||
  (!g.culm && ([0x40, 0x41, 0x48, 0x49, 0x4A, 0x4B, 0x4C].contains op ||
    (op = 0x30 && leAt bytes 16 1 / 8 % 2 = 1)))

/-- The dispatch of one opcode on ring `n`: when the next descriptor of the ring has opcode `op` and every gate of
R322 grants it, it is taken, and `body` gives its meaning; a descriptor with a reserved opcode, a malformed header or
a SEQ out of order is handled as malformed. Otherwise nothing happens. -/
def dispatch (g : Gates) (op : Nat) (more : Dp → Nat → Hdr → List Byte → Bool) (spans : List Byte → List Span)
    (body : OpCtx → Dp → Dp) (n : Nat) (d : Dp) : Dp :=
  match d.nextDesc n, d.pipeHalts n with
  | none, _ => d
  | some (h, _), some d' => if h.op ≠ op && knownOp h.op then d else d'
  | some (h, bytes), none =>
    if h.op ≠ op && knownOp h.op then d
    else
      let sp := if knownOp h.op then spans bytes else []
      if !d.mayDispatch g n || !waitMet (d.ring n) h || d.heldDesc (d.spaceOf n) h sp || !more d n h bytes then d
      else
        let exp := (d.ring n).expSeq
        let bad := ((d.ring n).fpoison.take h.slots).any id
        let (uid, d) := d.takeDesc n h
        let c : OpCtx := { g, ring := n, uid, hdr := h, bytes, spans := sp }
        if secured g h.op bytes then (d.refuse c stDenied 4).fetchHalt n
        else match firstBad ((!knownOp h.op || bad, 0) :: (h.seq ≠ exp, 4) :: hdrBad bytes) with
        | some o => (d.malformed c o).fetchHalt n
        | none => (body c d).fetchHalt n

/-! ### Streams captured at dispatch (R59) -/

/-- The streams that stored conversion words with SR = 1 name, each once, as they stand. -/
def captures (d : Dp) (convs : List Conv) : List Captured :=
  ((convs.filter fun v => v.sr).map fun v => v.stream).eraseDups.map fun s =>
    let (key, ctr) := Tab.get (fun _ => (0, 0)) d.phx.streams s
    { stream := s, key, ctr }

/-- The streams that stored conversion words with RADV = 1 name advance, each once. -/
def advanceStreams (d : Dp) (convs : List Conv) : Dp :=
  let adv := ((convs.filter fun v => v.radv).map fun v => v.stream).eraseDups
  let streams := adv.foldl (fun t s =>
    Tab.modify (fun _ => (0, 0)) t s fun k => (k.1, (k.2 + 1) % 2 ^ 64)) d.phx.streams
  { d with phx := { d.phx with streams } }

/-- An outstanding descriptor of ring `n` captures its streams, which advance. -/
def captureAt (d : Dp) (n uid : Nat) (convs : List Conv) : Dp :=
  (d.advanceStreams convs).modOutst n uid fun o => { o with streams := d.captures convs }

/-- The descriptor as it becomes outstanding with its streams captured. -/
def accepted (d : Dp) (c : OpCtx) (convs : List Conv) : Outst := { d.opened c with streams := d.captures convs }

/-- The descriptor becomes outstanding with its streams captured, and they advance. -/
def accept (d : Dp) (c : OpCtx) (convs : List Conv) : Dp := (d.advanceStreams convs).join c.ring (d.accepted c convs)

/-- The environment of an outstanding descriptor's work. -/
def envOf (_d : Dp) (n : Nat) (o : Outst) : Env :=
  { ring := n, uid := o.uid, seq := o.seq, op := o.op, space := o.space, sheaf := o.sheaf, lsExp := o.lsExp,
    streams := o.streams, held := o.held, kept := o.kept }

end Dp
end Sys2Proof.Machine
end

