-- ==== Sys2Proof/Machine/Pool.lean ====
section
/-!
DEFINITION. On-demand promotion and eviction (R31–R34), and how work that meets trouble is carried on: runs that
retry after a granted ATS request, halts, stalls and page requests.
-/
namespace Sys2Proof.Machine
namespace Dp

/-- Is the frame held by a running SCATTER_ADD of its space, which keeps its translations until it completes (R135). -/
def heldByScatter (d : Dp) (f : Frame) : Bool :=
  d.rings.any fun (_, r) => r.outst.any fun o =>
    o.space = f.space && o.held.any fun p => f.page ≤ 4096 * p.1 && 4096 * p.1 < f.page + f.size

/-- Is a range inside a locked image (R391). -/
def meetsLock (d : Dp) (a n : Nat) : Bool := d.locks.any fun l => meets a n l.base l.total

/-- Does a shadow line of a sheaf that is not free or aborted lie on a page (Table 1.10): a marked line of an action. -/
def sheafOn (d : Dp) (space page size : Nat) : Bool :=
  d.journal.sheaves.any fun (_, s) =>
    s.state.counted && s.space = space &&
    s.actions.any fun a => meets a.dva a.len page size && (List.range (linesIn a.dva a.len)).any fun k =>
      meets (128 * (a.dva / 128 + k)) 128 page size && d.isMarked s (a.line0 + k)

/-- May the frame be evicted (R33). -/
def evictable (d : Dp) (f : Frame) : Bool :=
  !f.pinned && !d.sheafOn f.space f.page f.size && !d.heldByScatter f && !(f.dirty && d.meetsLock f.home f.size)

/-- The PROMOTION notice of a page (Table 11.14), where MEM_CTL asks for it. -/
def promoNotice (d : Dp) (sub space page size stall home : Nat) : Dp :=
  if (d.reg Reg.memCtl).bit 2 then
    d.notice 8 sub none
      (toLe 8 page ++ toLe 1 space ++ toLe 1 (sizeCode size) ++ toLe 2 0 ++ toLe 4 stall ++ toLe 8 home)
  else d

/-- The leaf that maps a page, when it points at `addr`. -/
def leafAt (d : Dp) (space page addr : Nat) : Option Leaf :=
  match d.walk space page with
  | .ok l => if l.addr = addr then some l else none
  | .error _ => none

/-- Evicts a frame (R33): written back when dirty, its leaf turned to the home address with RES = peat-resident,
counted and noticed. -/
def evict (d : Dp) (f : Frame) : Dp :=
  let l := d.leafAt f.space f.page f.base
  let d := if f.dirty then d.copyLines f.base f.home (f.size / 128) else d
  let d := match l with
    | some l => d.rewriteLeaf l.entry f.home ((tierOf f.home).getD 0) 1
    | none => d
  let d := { d with mem := { d.mem with frames := d.mem.frames.filter fun x => x.base ≠ f.base } }
  (d.bump Reg.evictCnt).promoNotice 1 f.space f.page f.size 0 f.home

/-- The eviction scan first releases frames that no leaf names (R24), without write-back. -/
def releaseOrphans (d : Dp) (h : Nat) : Dp :=
  let stays (f : Frame) : Bool := !(d.inPoolOf h f.base) || (d.leafAt f.space f.page f.base).isSome
  { d with mem := { d.mem with frames := d.mem.frames.filter stays } }

/-- The frames to evict so that a page of `size` finds room in the pool of half `h` (R33). -/
def victims (d : Dp) (h size : Nat) : Option (List Frame) :=
  let (lo, hi) := d.poolClass h size
  let fs := d.mem.frames.filter fun f => lo ≤ f.base && f.base < hi
  if size = 65536 then
    let groups := (fs.map fun f => f.base / 65536 * 65536).eraseDups
    let cand := groups.filterMap fun g =>
      let occ := fs.filter fun f => meets g 65536 f.base f.size
      if lo ≤ g && g + 65536 ≤ hi && occ.all d.evictable && !(d.mem.promos.any fun p => meets g 65536 p.frame p.size) then
        some (g, occ, (occ.map fun f => fs.findIdx fun x => x.base = f.base).foldl max 0)
      else none
    (cand.foldl (fun (b : Option (Nat × List Frame × Nat)) c =>
      match b with
      | none => some c
      | some x => if c.2.2 < x.2.2 || (c.2.2 = x.2.2 && c.1 < x.1) then some c else b) none).map fun x => x.2.1
  else (fs.find? d.evictable).map fun f => [f]

/-- Finds a frame for a page of `size` in the pool of half `h`, evicting under AUTO_EVICT = 1 (R31, R33). -/
def allocFrame (d : Dp) (h size : Nat) : Option Nat × Dp :=
  let (lo, hi) := d.poolClass h size
  match d.firstFree lo hi size with
  | some a => (some a, d)
  | none =>
    if !(d.reg Reg.memCtl).bit 1 then (none, d)
    else
      let d := d.releaseOrphans h
      match d.firstFree lo hi size with
      | some a => (some a, d)
      | none =>
        match d.victims h size with
        | none => (none, d)
        | some vs =>
          let d := vs.foldl evict d
          (d.firstFree lo hi size, d)

/-- The pool of half `h` is exhausted for a page: logged, and shown in MEM_STAT.POOL_EXH (R33). -/
def poolExhausted (d : Dp) (h dva : Nat) : Dp :=
  (d.ashLog { time := d.now, cls := 8, code := h, addr := dva }).setStat Reg.memStat 1

/-- Starts the promotion of a peat-resident page into the pool of half `h`, or joins the one in progress (R31,
Table 1.10); answers whether the page is on its way. -/
def startPromotion (d : Dp) (h space page : Nat) (l : Leaf) : Bool × Dp :=
  if d.promoting space page then (true, d)
  else
    match d.allocFrame h l.size with
    | (some a, d) =>
      let p : Promotion := { space, page, size := l.size, home := l.addr, frame := a, start := d.now }
      (true, ({ d with mem := { d.mem with promos := d.mem.promos ++ [p] } }).addJob (.promotion h space page))
    | (none, d) => (false, d.poolExhausted h page)

/-! ### Work that meets trouble -/

/-- Runs a piece of work from the data plane `d`. A granted ATS request is followed by a fresh run; any other
trouble ends the run with nothing of it kept. -/
def run {α : Type} (m : M α) : Nat → Dp → Except Trouble (α × Wk) × Dp
  | 0, d => (.error (.ends { status := stXlate, detail := 8 }), d)
  | k + 1, d =>
    match m.run { d } with
    | (.ok a, w) => (.ok (a, w), w.d)
    | (.error (.ats space dva page write), _) =>
      let (granted, d) := d.atsRequest space page write
      if granted then run m k d else (.error (.ats space dva page write), d)
    | (.error t, _) => (.error t, d)

/-- As many ATS requests as one piece of work can need. -/
def atsFuel : Nat := 2 ^ 32

/-- Clears the marks of a descriptor's actions in its sheaf, as a halt does (R280). -/
def clearMarks (d : Dp) (id uid : Nat) : Dp :=
  let s := d.sheaf id
  if s.state ≠ .opened then d
  else
    let mine := s.actions.filter fun a => a.uid = uid
    let d := mine.foldl (fun d a =>
      (List.range (linesIn a.dva a.len)).foldl (fun d k => d.setMark s (a.line0 + k) false) d) d
    d.setSheaf id { s with actions := s.actions.map fun a => if a.uid = uid then { a with cleared := true } else a }

/-- Entries of an operation in progress go back to their list (R107), counted per tiller. -/
def returnEntries (d : Dp) (uid : Nat) : Dp :=
  d.tillers.foldl (fun d (t, x) =>
    let mine := x.ctxs.filter fun c => c.uid = uid
    if mine.isEmpty then d
    else
      let d := { d with tillers := Tab.set (fun _ => {}) d.tillers t { x with ctxs := x.ctxs.filter fun c => c.uid ≠ uid } }
      let back (l : EList) : EList :=
        if l.uid = uid then { l with returned := l.returned ++ (mine.filter fun c => c.half = l.half).map fun c => c.idx }
        else l
      let d : Dp := { d with lists := d.lists.map back }
      d.bump (Reg.tlrRedoCnt t) mine.length) d

/-- Groups of an operation that are not stored yet run again in full: their finished slices, segments and stats
tiles count as not done, and their partials and records are discarded (Table 7.14). -/
def resetGroups (d : Dp) (uid : Nat) : Dp :=
  let back (l : EList) : EList :=
    if l.uid ≠ uid then l
    else
      let whole (g : Nat) : Bool := d.lists.all fun m => m.uid ≠ uid ||
        (List.range m.entries.length).all fun i =>
          match m.entries[i]? with
          | some e => e.group ≠ g || m.done.contains i || m.gone.contains i
          | none => true
      let again := l.done.filter fun i =>
        match l.entries[i]? with
        | some e => e.kind ≠ .winnow && (e.kind ≠ .compute || e.kib ≠ 0) && e.kind ≠ .reduce && !whole e.group
        | none => false
      { l with done := l.done.filter fun i => !again.contains i, returned := l.returned ++ again.reverse }
  { d with lists := d.lists.map back, partials := d.partials.filter fun p => p.uid ≠ uid,
           stats := d.stats.filter fun p => p.uid ≠ uid }

/-- Halts an outstanding descriptor: tiles in progress return, partials go, marks are cleared (R107, R238, R280). -/
def haltWork (d : Dp) (n : Nat) (o : Outst) (h : Halt) : Dp :=
  let d := (d.returnEntries o.uid).resetGroups o.uid
  let d := match o.sheaf with
    | some id => d.clearMarks id o.uid
    | none => d
  d.haltOutst n o h

/-- Saves the position of a descriptor (R334). -/
def savePos (d : Dp) (n uid ofs : Nat) : Dp := d.modOutst n uid fun o => { o with ofs }

/-- Carries on after trouble of a descriptor's work: a halt, a promotion that stalls it, a page request that stalls
it, or an ending. `ofs` is the position to be saved; a unit of half `h` made the access. -/
def meet (d : Dp) (n : Nat) (o : Outst) (h ofs : Nat) (t : Trouble) : Dp :=
  match t with
  | .halt x => d.haltWork n o { x with ofs := if x.ofs = 0 then ofs else x.ofs }
  | .ends e => d.finished o.uid e
  | .promote space dva l write =>
    let page := dva / l.size * l.size
    match d.startPromotion h space page l with
    | (true, d) => (d.savePos n o.uid ofs).setPhase o.uid (.stalled (.promotion space page))
    | (false, d) => d.haltWork n o { status := stXlate, detail := 5, ofs, dva, space, write }
  | .ats space dva page write =>
    let halt (d : Dp) (detail : Nat) := d.haltWork n o { status := stXlate, detail, ofs, dva, space, write }
    if !(d.reg Reg.atuCtl).bit 2 then halt d 6
    else if d.mem.priStopped then halt d 9
    else
      let d := d.savePos n o.uid ofs
      match d.pageRequest n space dva page write (.work o.uid) with
      | (some g, d) => d.setPhase o.uid (.stalled (.request g))
      | (none, d) => d.setPhase o.uid (.stalled (.request 512))

end Dp
end Sys2Proof.Machine
end

