-- ==== Sys2Proof/Machine/Regions.lean ====
section
/-!
DEFINITION. Region actions of sheaves (R268–R277): declaring the regions of a descriptor, aborting a sheaf, and the
judgement of a descriptor that names one (Table 9.12).
-/
namespace Sys2Proof.Machine
namespace Dp

/-- One page of a region: its start, size, whether in tier L, and its home address. -/
structure RegionPage where
  dva : Nat
  size : Nat
  inL : Bool
  home : Nat
  deriving DecidableEq, Repr

/-- Translates the pages of `[a, b)` in increasing address, with the outcomes of Table 1.6 for writes inside a
sheaf (R270). The fuel bounds the number of pages. -/
def regionPages (e : Env) (b : Nat) : Nat → Nat → M (List RegionPage)
  | 0, _ => return []
  | k + 1, a =>
    if b ≤ a then return []
    else do
      let d := (← get).d
      match d.walk e.space a with
      | .error n => Work.trouble (xlate n e.space a true)
      | .ok l =>
        match d.judge e.space a true true l with
        | .error t => Work.trouble t
        | .ok _ =>
          let page := a / l.size * l.size
          let rest ← regionPages e b k (page + l.size)
          return { dva := page, size := l.size, inL := l.tier = 1, home := l.addr } :: rest

/-- Cuts consecutive pages into runs of one tier (R270). -/
def tierRuns : List RegionPage → List (List RegionPage)
  | [] => []
  | p :: ps =>
    match tierRuns ps with
    | [] => [[p]]
    | r :: rs => if r.head?.any fun q => q.inL = p.inL then (p :: r) :: rs else [p] :: r :: rs

/-- Does a device range meet a shadow buffer of a sheaf (R272, R277). -/
def meetsShadow (s : Sheaf) (a n : Nat) : Bool :=
  (s.state = .opened || s.state = .committing || s.state = .committed) &&
  (meets a n s.shadowL (s.sizeL * 4096) || meets a n s.shadowH (s.sizeH * 4096))

/-- The conflicts of a new region (R277): with the regions or buffers of another sheaf when either is exclusive,
and with the shadow buffers of any sheaf that is not free. -/
def regionConflict (d : Dp) (id : Nat) (a b : Nat) (pages : List RegionPage) : Bool :=
  let me := d.sheaf id
  d.journal.sheaves.any fun (j, s) =>
    (pages.any fun p => meetsShadow s (p.home + (max a p.dva - p.dva)) (min b (p.dva + p.size) - max a p.dva)) ||
    (j ≠ id && (s.state = .opened || s.state = .committing || s.state = .committed) && (me.excl || s.excl) &&
     s.space = me.space && s.actions.any fun x => meets a (b - a) x.dva x.len)

/-- Adds one action to sheaf `id`: its map bits are cleared and its page-list entries written (R272). -/
def addAction (d : Dp) (id uid dseq : Nat) (dva len : Nat) (run : List RegionPage) : Dp :=
  let s := d.sheaf id
  let inL := (run.head?.map (·.inL)).getD false
  let n := linesIn dva len
  let line0 := (s.actions.map fun a => linesIn a.dva a.len).foldl (· + ·) 0
  let a : Action := { dva, len, dseq, uid, inL, dataOfs := if inL then s.usedL else s.usedH, plist := s.pages, line0 }
  let d := (List.range n).foldl (fun d k => d.setMark s (line0 + k) false) d
  let d := (List.range run.length).foldl (fun d k =>
    match run[k]? with
    | some p => d.setDpas (s.shadowL + 0x40000 + 8 * (s.pages + k)) (toLe 8 (p.home + sizeCode p.size))
    | none => d) d
  d.setSheaf id { s with actions := s.actions ++ [a], pages := s.pages + run.length,
                         usedL := if inL then s.usedL + n else s.usedL,
                         usedH := if inL then s.usedH else s.usedH + n }

/-- How a declaration ends. -/
inductive Declared where
  | ok
  | conflict
  | limits
  deriving DecidableEq, Repr

/-- Declares the regions of a descriptor of sheaf `id`: one action per stored span and per run of one tier, in
order; nothing is declared on a conflict or past a limit of R268 or the room of a shadow buffer (R270). -/
def declareRegions (e : Env) (id : Nat) (spans : List (Nat × Nat)) : M Declared := do
  let lists ← spans.mapM fun (a, b) => regionPages e b ((b - a) / 4096 + 2) a
  let d := (← get).d
  let s := d.sheaf id
  let runs : List (Nat × Nat × List RegionPage) := ((spans.zip lists).map fun ((a, b), ps) =>
    (tierRuns ps).map fun r =>
      let lo := (r.head?.map (·.dva)).getD a
      let hi := (r.getLast?.map fun p => p.dva + p.size).getD b
      (max a lo, min b hi, r)).flatten
  if runs.any fun (a, b, r) => d.regionConflict id a b r then return .conflict
  let lines (l : Bool) : Nat := (runs.map fun (a, b, r) =>
    if (r.head?.map (·.inL)).getD false = l then linesIn a (b - a) else 0).foldl (· + ·) 0
  if 64 < s.actions.length + runs.length || 2097152 < s.usedL + s.usedH + lines true + lines false ||
      (s.sizeL * 4096 - 0x100000) / 128 < s.usedL + lines true || s.sizeH * 32 < s.usedH + lines false then
    return .limits
  Work.change fun d => runs.foldl (fun d (a, b, r) => d.addAction id e.uid e.seq a (b - a) r) d
  return .ok

/-- Aborts a sheaf (R280): shadow lines discarded, buffers released, the cause kept; causes 3 and 4 are logged. -/
def abortSheaf (d : Dp) (id cause : Nat) : Dp :=
  let s := d.sheaf id
  let d := d.setSheaf id { s.emptied with state := .aborted, cause, fps := [] }
  if cause = 3 || cause = 4 then d.ashLog { time := d.now, cls := 9, code := cause, data := id } else d

/-- Does a descriptor of ring `n` name a sheaf that is FREE, or one that another ring opened: it is malformed (R269, Table
9.12). -/
def sheafForeign (d : Dp) (n : Nat) (h : Hdr) : Bool :=
  let s := d.sheaf h.sheafId
  h.sheafEn && (s.state = .free || (s.state = .opened && s.ring ≠ n))

/-- A dispatch that names a sheaf, judged by the id's state after the descriptor's own checks (Table 9.12): the
status it ends with, or none where it goes on. -/
def sheafVerdict (d : Dp) (h : Hdr) : Option Nat :=
  if !h.sheafEn then none
  else
    match (d.sheaf h.sheafId).state with
    | .committing => some stConflict
    | .committed => some stConflict
    | .aborted => some stSheafAborted
    | _ => none

/-- Does the outstanding descriptor still have to declare its regions. -/
def undeclared (d : Dp) (o : Outst) : Bool :=
  match o.sheaf with
  | none => false
  | some id => !((d.sheaf id).actions.any fun a => a.uid = o.uid)

/-- Declares the regions of outstanding descriptor `o` over the spans it stores to, and answers whether it goes on;
a refusal past a limit aborts the sheaf with cause 4 (R187, Table 9.4). -/
def declareFor (d : Dp) (n : Nat) (o : Outst) (h : Nat) (spans : List (Nat × Nat)) : Bool × Dp :=
  match o.sheaf with
  | none => (true, d)
  | some id =>
    if (d.sheaf id).state ≠ .opened then (false, d.finished o.uid { status := stSheafAborted })
    else if !d.undeclared o then (true, d)
    else
      match run (declareRegions (d.envOf n o) id spans) atsFuel d with
      | (.error t, d) => (false, d.meet n o h 0 t)
      | (.ok (.ok, _), d) => (true, d)
      | (.ok (.conflict, _), d) => (false, d.finished o.uid { status := stConflict })
      | (.ok (.limits, _), d) => (false, (d.abortSheaf id 4).finished o.uid { status := stSheafAborted })

/-- Stored spans as plain ranges of the 52-bit address space. -/
def storedRanges (spans : List Span) : List (Nat × Nat) :=
  (spans.filter fun s => s.stored).map fun s => ((max s.lo 0).toNat, (min s.hi (2 ^ 52)).toNat)

end Dp
end Sys2Proof.Machine
end

