-- ==== Sys2Proof/Machine/Arrays.lean ====
section
/-!
DEFINITION. The arithmetic of the arrays and the crib (03_tiller_arithmetic.md): chunk sums in a fixed window (R85,
R90), crib additions (R86), the pair tree (R94), and the split and complex modes (R95–R99).
-/
namespace Sys2Proof.Machine

/-- The chunk sum of a list of products, scaled by `2^shift` after the sum (R85, Table 3.4). `nanScale` tells of an
MX scale of 0xFF. -/
def chunkSum (ps : List (FV × FV)) (shift : Int := 0) (nanScale : Bool := false) : FV :=
  let prods := ps.map fun p => p.1.mul p.2
  if nanScale || ps.any (fun p => p.1.isNan || p.2.isNan) then .nan true
  else if prods.any (·.isNan) then .nan false
  else
    let pinf := prods.any fun v => v = .inf false
    let ninf := prods.any fun v => v = .inf true
    if pinf && ninf then .nan false
    else if pinf then .inf false
    else if ninf then .inf true
    else
      let nz := prods.filterMap fun v => match v with
        | .fin s m e => if m = 0 then none else some (s, m, e)
        | _ => none
      match nz with
      | [] => FV.zero
      | (_, m0, e0) :: _ =>
        let top := nz.foldl (fun (a : Int) x => max a ((Nat.log2 x.2.1 : Int) + x.2.2)) ((Nat.log2 m0 : Int) + e0)
        let u := top - 20
        let sum := nz.foldl (fun (a : Int) x =>
          let (q, _, _) := splitAt x.2.1 x.2.2 u
          a + signedMant x.1 q) 0
        if sum = 0 then FV.zero else .fin (sum < 0) sum.natAbs (u + shift)

/-- Adding chunk sums to a crib value in order, each with one rounding (R86). -/
def cribAdd (start : FV) (sums : List FV) : FV := sums.foldl (fun v s => (v.add s).r32) start

/-- One level of the pair tree. -/
def pairLevel {α : Type} (f : α → α → α) : List α → List α
  | a :: b :: l => f a b :: pairLevel f l
  | l => l

/-- The balanced tree of R94 over a list of leaves, with fuel for its levels. -/
def pairTreeAux {α : Type} (f : α → α → α) : Nat → List α → Option α
  | _, [] => none
  | _, [a] => some a
  | 0, a :: _ => some a
  | k + 1, l => pairTreeAux f k (pairLevel f l)

/-- The balanced tree of R94. -/
def pairTree {α : Type} (f : α → α → α) (l : List α) : Option α := pairTreeAux f l.length l

/-- Cuts a list into runs of `n`. -/
def chunksAux {α : Type} (n : Nat) : Nat → List α → List (List α)
  | 0, _ => []
  | k + 1, l => match l with
    | [] => []
    | l => l.take n :: chunksAux n k (l.drop n)

/-- Cuts a list into runs of `n ≥ 1`. -/
def chunks {α : Type} (n : Nat) (l : List α) : List (List α) := chunksAux n l.length l

/-- The first 8 significant bits of a number, toward zero (R95). -/
def trunc8 (v : FV) : FV :=
  match v with
  | .fin s m e =>
    if m = 0 then .fin s 0 0
    else
      let d := Nat.log2 m - 7
      .fin s ((m >>> d) <<< d) e
  | v => v

/-- A piece below 2^-133 is lost (R95); a larger one is kept whole (DESIGN CHOICE, log entry 155). -/
def keepPiece (v : FV) : FV :=
  match v with
  | .fin s m e => if m ≠ 0 && (Nat.log2 m : Int) + e < -133 then .fin s 0 0 else .fin s m e
  | v => v

/-- The three BF16 pieces of an FP32 value (R95). -/
def split3 (x : FV) : List FV :=
  match x with
  | .fin _ m _ =>
    if m = 0 then [x, FV.zero, FV.zero]
    else
      let x0 := trunc8 x
      let r := x.sub x0
      let x1 := trunc8 r
      let x2 := r.sub x1
      [keepPiece x0, keepPiece x1, keepPiece x2]
  | x => [x, FV.zero, FV.zero]

/-- The two F8n pieces of a BF16 value divided by its block's scale (R98). -/
def split2 (s : Int) (x : FV) : List FV :=
  match x with
  | .fin .. =>
    let y := x.scale (-s)
    let hi := Fmt.f8n.round .nearestEven y
    [hi, Fmt.f8n.round .nearestEven (y.sub hi)]
  | x => [x, FV.zero]

/-- A pass product of zero with a special piece is +0 in every pass but the last (R96). -/
def quietPair (p : FV × FV) : FV × FV :=
  if (p.1.isZero && !p.2.isFinite) || (p.2.isZero && !p.1.isFinite) then (FV.zero, FV.zero) else p

/-- Piece `i` of a split value. -/
def piece (l : List FV) (i : Nat) : FV := l.getD i FV.zero

/-- The chunk sums of one pass of a split product; the zero of R96 holds for both split modes (DESIGN CHOICE, log
entry 157). -/
def passSum (xs : List (List FV × List FV)) (i j : Nat) (shift : Int) : FV :=
  let ps := xs.map fun x => (piece x.1 i, piece x.2 j)
  chunkSum (if i = 0 && j = 0 then ps else ps.map quietPair) shift

/-- How a product is computed (Table 3.6). -/
inductive Mode where
  | f8 | b16
  | split32
  | split16 (four : Bool)
  deriving DecidableEq, Repr

/-- Chunk size C (Tables 3.1, 3.3). -/
def Mode.chunk : Mode → Nat
  | .f8 => 32
  | .b16 => 16
  | .split32 => 16
  | .split16 _ => 32

/-- The mode of Table 3.6 for a precision, complex mode and operand formats; absent where the table says no. -/
def modeOf (prec cplx : Nat) (fa fb : Fmt) (mxa mxb : Bool) : Option Mode :=
  let f8 (f : Fmt) := f = .f8n || f = .f8e
  let both8 := f8 fa && f8 fb
  let any32 := fa = .fp32 || fb = .fp32
  if cplx ≠ 0 && (mxa || mxb) then none
  else
    match prec, cplx with
    | 0, 0 => if any32 then none else if both8 then some .f8 else some .b16
    | 0, 1 => if any32 then none else if both8 then some .f8 else some .b16
    | 0, 2 => if any32 || both8 then none else some .b16
    | 1, 0 => some .split32
    | 2, 0 => if fa = .bf16 && fb = .bf16 then some (.split16 false) else none
    | 3, 0 => if fa = .bf16 && fb = .bf16 then some (.split16 true) else none
    | _, _ => none

/-- A pair of operand elements with their MX scale bytes (0x7F where there is none). -/
structure Term where
  a : FV
  sa : Nat := 0x7F
  b : FV
  sb : Nat := 0x7F
  deriving DecidableEq, Repr

/-- The block scale of one operand of a BF16 split chunk (R98). -/
def splitScale (vs : List FV) : Int := (Fmt.f8n.blockScale vs : Int) - 127

/-- The sums one chunk of a BF16 split product adds to the crib, in order, under the block scales `sa` and `sb` (R98). -/
def splitSums (four : Bool) (sa sb : Int) (ts : List Term) : List FV :=
  let xs := ts.map fun t => (split2 sa t.a, split2 sb t.b)
  (if four then [passSum xs 1 1 (sa + sb)] else []) ++
    [passSum xs 1 0 (sa + sb), passSum xs 0 1 (sa + sb), passSum xs 0 0 (sa + sb)]

/-- The sums one chunk of a real product adds to the crib, in order (R85, R96, R98). A scaled MX element beyond the FP32
range becomes an infinity in FP32 split mode (DESIGN CHOICE, log entry 156). -/
def realSums (mode : Mode) (ts : List Term) : List FV :=
  match mode with
  | .split32 =>
    let val (s : Nat) (v : FV) : FV := (mxApply s v).r32
    let xs := ts.map fun t => (split3 (val t.sa t.a), split3 (val t.sb t.b))
    [passSum xs 2 0 0, passSum xs 0 2 0, passSum xs 1 1 0, passSum xs 1 0 0, passSum xs 0 1 0, passSum xs 0 0 0]
  | .split16 four => splitSums four (splitScale (ts.map (·.a))) (splitScale (ts.map (·.b))) ts
  | _ =>
    let sa := (ts.head?.map (·.sa)).getD 0x7F
    let sb := (ts.head?.map (·.sb)).getD 0x7F
    [chunkSum (ts.map fun t => (t.a, t.b)) ((sa : Int) + (sb : Int) - 254) (sa = 0xFF || sb = 0xFF)]

/-- A complex pair of operand elements: a + ib and c + id. -/
structure CTerm where
  a : FV
  b : FV
  c : FV
  d : FV
  deriving DecidableEq, Repr

/-- The sums one chunk of a complex product adds to the real and the imaginary crib tile (Table 3.5). The pre-sums are
rounded to the operand's element format, past its range to an infinity, or NaN in F8n (DESIGN CHOICE, log entry 158). -/
def complexSums (gauss : Bool) (fa fb : Fmt) (ts : List CTerm) : List FV × List FV :=
  let s (f : CTerm → FV × FV) : FV := chunkSum (ts.map f)
  if gauss then
    let ra (v : FV) := fa.round .nearestEven v
    let rb (v : FV) := fb.round .nearestEven v
    let k1 := s fun t => (ra (t.a.add t.b), t.c)
    let k2 := s fun t => (t.a, rb (t.d.sub t.c))
    let k3 := s fun t => (t.b, rb (t.c.add t.d))
    ([k1, k3.negate], [k1, k2])
  else
    ([s fun t => (t.a, t.c), (s fun t => (t.b, t.d)).negate],
     [s fun t => (t.a, t.d), s fun t => (t.b, t.c)])

end Sys2Proof.Machine
end

