-- ==== Sys2Proof/Machine/Lists.lean ====
section
/-!
DEFINITION. The common list (R205–R216): eligibility of tillers, the division between the halves, the reduce
region, the taking of entries, and tile lists.
-/
namespace Sys2Proof.Machine
namespace Dp

/-- Tiller `t`. -/
def tiller (d : Dp) (t : Nat) : Tiller := Tab.get (fun _ => {}) d.tillers t

/-- Writes tiller `t`. -/
def setTiller (d : Dp) (t : Nat) (x : Tiller) : Dp := { d with tillers := Tab.set (fun _ => {}) d.tillers t x }

/-- Crib tiles of a tiller: two per bank in service (R92). -/
def cribTiles (x : Tiller) : Nat := 2 * (16 - x.bankRet.length)

/-- The clock setting in force in a half. -/
def aclk (d : Dp) (h : Nat) : Nat := if h = 0 then d.aclk0 else d.aclk1

/-- Is a tiller eligible for an operation that needs `need` crib tiles (R214): not retired, its group on (R414), its
half not GATED (R408), and crib tiles enough. -/
def eligible (d : Dp) (t need : Nat) : Bool :=
  !(d.tiller t).retired && !d.domOff.has (t / 12) && d.aclk (t / 96) ≠ 3 && need ≤ cribTiles (d.tiller t)

/-- The tillers of a half. -/
def tillersOf (h : Nat) : List Nat := (List.range 96).map (96 * h + ·)

/-- Has a half an eligible tiller. -/
def halfEligible (d : Dp) (h need : Nat) : Bool := (tillersOf h).any fun t => d.eligible t need

/-- RED_WAYS in force in a half. -/
def redWays (d : Dp) (h : Nat) : Nat := if h = 0 then d.redWays0 else d.redWays1

/-- KiB of a half's reduce region (R219). -/
def regionKib (d : Dp) (h : Nat) : Nat := d.redWays h * 12288

/-- KiB of a half's reduce region in use, promised entries included. -/
def regionUsed (d : Dp) (h : Nat) : Nat :=
  ((d.partials.filter fun p => p.half = h).map (·.kib)).foldl (· + ·) 0 +
  (d.stats.filter fun r => r.half = h).length +
  (d.tillers.map fun (_, x) => ((x.ctxs.filter fun c => c.half = h).map fun c => c.entry.kib).foldl (· + ·) 0).foldl
    (· + ·) 0

/-- The CRIB_CAPACITY result word (Table 7.6). -/
def cribWord (resource avail need : Nat) : Nat := resource * 2 ^ 62 + (avail % 2 ^ 30) * 2 ^ 32 + need % 2 ^ 32

/-- The halves that receive entries of a division (R214). -/
def receiving (parts : List (Nat × List Entry)) : List Nat := (parts.filter fun p => !p.2.isEmpty).map (·.1)

/-- The refusal of an operation that would give work to `halves`, needing `need` crib tiles and `kib` KiB of reduce
region for one group (R214, R215, R219): the result word, or none. -/
def cribRefusal (d : Dp) (halves : List Nat) (need kib : Nat) : Option Nat :=
  match halves.find? fun h => !d.halfEligible h need || d.regionKib h < kib with
  | none => none
  | some h =>
    if !d.halfEligible h need then
      some (cribWord 0 (((tillersOf h).filter fun t => !(d.tiller t).retired).foldl
        (fun a t => max a (cribTiles (d.tiller t))) 0) need)
    else some (cribWord 1 (d.regionKib h) kib)

/-- The first group boundary at or after index `k`: the number of entries before it (R209). -/
def boundary (es : List Entry) (k : Nat) : Nat :=
  if k = 0 then 0
  else
    match es[k - 1]? with
    | none => es.length
    | some e => k + ((es.drop k).takeWhile fun x => x.group = e.group).length

/-- Divides the list between the halves a ring names (R209): (half, entries). -/
def divide (halves : List Nat) (es : List Entry) : List (Nat × List Entry) :=
  match halves with
  | [h] => [(h, es)]
  | _ =>
    let k := boundary es (cdiv es.length 2)
    [(0, es.take k), (1, es.drop k)]

/-- The lists of an operation enter the halves, in order of dispatch (R206, R207). -/
def addLists (d : Dp) (n uid need : Nat) (parts : List (Nat × List Entry)) (fill : Nat := 4) : Dp :=
  { d with lists := d.lists ++ (parts.filter fun p => !p.2.isEmpty).map fun p =>
      { uid, ring := n, half := p.1, entries := p.2, need, fill } }

/-- Have all entries of an operation been finished. -/
def allDone (d : Dp) (uid : Nat) : Bool :=
  d.lists.all fun l => l.uid ≠ uid || l.done.length + l.gone.length = l.entries.length

/-- Can a half serve a list that needs `need` crib tiles. -/
def serves (d : Dp) (g : Gates) (h need : Nat) : Bool := g.up h && d.halfEligible h need

/-- The indexes a list has still to hand out: those returned, in the order of their return, and those untaken. -/
def leftOver (l : EList) : List Nat := l.returned ++ (List.range (l.entries.length - l.next)).map (l.next + ·)

/-- The untaken and returned entries of a list whose half can no longer serve it pass to the end of the other half's list
(R214); partials already written stay in their half. -/
def passList (d : Dp) (g : Gates) (l : EList) : Dp :=
  let h := 1 - l.half
  let left := leftOver l
  if left.isEmpty || d.serves g l.half l.need || !d.serves g h l.need then d
  else
    let es := left.filterMap fun i => l.entries[i]?
    let own (x : EList) : Bool := x.uid = l.uid && x.half = l.half
    let spent (x : EList) : EList := { x with next := x.entries.length, returned := [], gone := left ++ x.gone }
    if d.lists.any fun x => x.uid = l.uid && x.half = h then
      { d with lists := d.lists.map fun x =>
          if own x then spent x else if x.uid = l.uid && x.half = h then { x with entries := x.entries ++ es } else x }
    else
      { d with lists := d.lists.flatMap fun x =>
          if own x then [spent x, { uid := l.uid, ring := l.ring, half := h, entries := es, need := l.need, fill := l.fill }]
          else [x] }

/-- Every list whose half can no longer serve it passes its entries on (R214). -/
def passLists (d : Dp) (g : Gates) : Dp := d.lists.foldl (fun d l => d.passList g l) d

/-- The next index a list hands out (R206). -/
def nextIdx (l : EList) : Option Nat :=
  match l.returned with
  | i :: _ => some i
  | [] => if l.next < l.entries.length then some l.next else none

/-- Crib tiles that the entries in a tiller's contexts hold while they are suspended: their residency and the tile they
fill (R216). -/
def cribHeld (d : Dp) (t : Nat) : Nat :=
  ((d.tiller t).ctxs.map fun c =>
    match d.lists.find? fun l => l.uid = c.uid with
    | some l => l.need - l.fill
    | none => 0).sum

/-- May tiller `t` start an entry of list `l` beside those it holds (R216): its residency, and the tile it fills, find
room beyond what they hold (DEDUCED, log entry 162). -/
def cribRoom (d : Dp) (t : Nat) (l : EList) : Bool :=
  (d.tiller t).ctxs.isEmpty || d.cribHeld t + (l.need - l.fill) ≤ cribTiles (d.tiller t)

/-- Does an entry run on the Winnow path, with the whole crib as its accumulator (R163). -/
def onWinnow (e : Entry) : Bool := e.kind = .winnow || e.kind = .segment

/-- Does an entry of a list that needs `need` crib tiles run on the arrays. -/
def onArrays (need : Nat) (e : Entry) : Bool :=
  need ≠ 0 && (e.kind = .compute || e.kind = .slice || e.kind = .stats || e.kind = .catchUp)

/-- Do the entries in a tiller's contexts leave the crib to entry `e`: the arrays take no tile while a Winnow tile holds it,
nor the other way round, and a retired bank bars the Winnow path (R163). -/
def cribFree (d : Dp) (t need : Nat) (e : Entry) : Bool :=
  let needOf (c : Ctx) : Nat := ((d.lists.find? fun l => l.uid = c.uid).map (·.need)).getD 0
  let cs := (d.tiller t).ctxs
  (!onWinnow e || ((d.tiller t).bankRet.isEmpty && !(cs.any fun c => onArrays (needOf c) c.entry))) &&
  (!onArrays need e || !(cs.any fun c => onWinnow c.entry))

/-- May tiller `t` take entry `e` of list `l` now: eligible (R214), room in its crib (R163, R216), the operation not halted,
room in the reduce region (R219). -/
def mayTake (d : Dp) (t : Nat) (l : EList) (e : Entry) : Bool :=
  d.eligible t l.need && d.cribRoom t l &&
  d.cribFree t l.need e &&
  ((d.findOutst l.uid).any fun o => o.2.phase = .running) &&
  (e.kib = 0 || d.regionUsed l.half + e.kib ≤ d.regionKib l.half)

/-- The list and entry tiller `t` takes next, of its own half (R206, R207). -/
def pick (d : Dp) (t : Nat) : Option (EList × Nat × Entry) :=
  d.lists.findSome? fun l =>
    if l.half ≠ t / 96 then none
    else
      match nextIdx l with
      | none => none
      | some i =>
        match l.entries[i]? with
        | none => none
        | some e => if d.mayTake t l e then some (l, i, e) else none

/-- The lowest free context of a tiller below CTX_MAX (R82, R108; which free one is DESIGN CHOICE, log entry 154). -/
def freeCtx (d : Dp) (t : Nat) : Option Nat :=
  (List.range ((d.reg (Reg.tlrCtl t)).fld 3 0)).find? fun k => !((d.tiller t).ctxs.any fun c => c.num = k)

/-- The entry leaves the list for context `k` of tiller `t`. -/
def handOut (d : Dp) (t k : Nat) (l : EList) (i : Nat) (e : Entry) : Dp :=
  let take (x : EList) : EList :=
    if x.uid = l.uid && x.half = l.half then
      (if x.returned.isEmpty then { x with next := x.next + 1 } else { x with returned := x.returned.drop 1 })
    else x
  let d : Dp := { d with lists := d.lists.map take }
  let x := d.tiller t
  d.setTiller t { x with ctxs := x.ctxs ++ [{ num := k, uid := l.uid, half := l.half, idx := i, entry := e }] }

/-- The entry in context `k` of tiller `t` is finished. -/
def entryDone (d : Dp) (t : Nat) (c : Ctx) : Dp :=
  let mark (x : EList) : EList :=
    if x.uid = c.uid && x.half = c.half && !x.done.contains c.idx then { x with done := c.idx :: x.done } else x
  let d : Dp := { d with lists := d.lists.map mark }
  let x := d.tiller t
  d.setTiller t { x with ctxs := x.ctxs.filter fun y => y.num ≠ c.num }

/-- A RED_WAYS change waits until the half holds no partial and no stats record (R219). -/
def regionEmpty (d : Dp) (h : Nat) : Bool :=
  !(d.partials.any fun p => p.half = h) && !(d.stats.any fun r => r.half = h)

end Dp

/-! ### Tile lists (R210–R212) -/

/-- An entry of a tile list as stored (Table 7.4). -/
structure TileRow where
  im : Nat
  jn : Nat
  slice : Nat
  kind : Nat
  rsv : Nat
  batch : Nat
  deriving DecidableEq, Repr

/-- Reads a tile list entry of 16 bytes. -/
def parseTileRow (bs : List Byte) : TileRow :=
  { im := leAt bs 0 4, jn := leAt bs 4 4, slice := leAt bs 8 2, kind := leAt bs 10 1, rsv := leAt bs 11 1,
    batch := leAt bs 12 4 }

/-- Does a tile list row name the entry of the module's own order, whatever its place. -/
def TileRow.names (r : TileRow) (e : Entry) : Bool :=
  r.rsv = 0 && r.im = e.im && r.jn = e.jn && r.batch = e.batch &&
  (match e.kind with
   | .compute => r.kind = 0 && r.slice = 0
   | .slice => r.kind = 1 && r.slice = e.part
   | .reduce => r.kind = 2 && r.slice = 0
   | .stats => r.kind = 3 && r.slice = 0
   | _ => false)

namespace Work

/-- Reads a tile list: its rows for half 0 and half 1, and the first offending condition of its header. -/
def readTileList (e : Env) (a : Nat) : M (Bool × List TileRow × List TileRow) := intact do
  let hd ← readBytes e a 64
  let c0 := leAt hd 0 4
  let c1 := leAt hd 4 4
  if 2 ^ 24 < c0 + c1 || !zeroAt hd 8 56 then return (true, [], [])
  let rows ← (List.range (c0 + c1)).mapM fun k => readBytes e (a + 64 + 16 * k) 16
  let rows := rows.map parseTileRow
  return (false, rows.take c0, rows.drop c0)

end Work

/-- Every row matched with an entry of the module's own order; a row that names none gives none (R211). -/
def matchRows (own : List Entry) : List TileRow → Option (List Entry)
  | [] => some []
  | r :: rs =>
    match own.find? r.names, matchRows own rs with
    | some e, some l => some (e :: l)
    | _, _ => none

/-- Does an entry of kind reduce or stats stand where R211 allows it: a reduce entry after every input of its group,
a stats tile before every entry that waits for it, each in the same half's part. -/
def partOk (own : List Entry) (part : List Entry) : Bool :=
  (List.range part.length).all fun i =>
    match part[i]? with
    | none => true
    | some e =>
      let before := part.take i
      if e.kind = .reduce then
        own.all fun x => !(x.group = e.group && (x.kind = .slice || x.kind = .compute)) || before.contains x
      else if e.kind = .stats then
        own.all fun x => !(x.group = e.group && x.kind = .compute) || (part.contains x && !before.contains x)
      else true

/-- The conditions of R211 on a tile list, for the halves a ring names. -/
def tileListOk (own : List Entry) (halves : List Nat) (p0 p1 : List Entry) : Bool :=
  let all := p0 ++ p1
  (own.all fun x => !(x.kind = .compute || x.kind = .slice) || (all.filter fun y => y = x).length = 1) &&
  (halves.contains 0 || p0.isEmpty) && (halves.contains 1 || p1.isEmpty) && partOk own p0 && partOk own p1

/-- What a scanned tile list gives the halves, each entry with its place in the list: none when the list is malformed
(R211). -/
def scannedParts (own : List Entry) (halves : List Nat) (r : Bool × List TileRow × List TileRow) :
    Option (List (Nat × List Entry)) :=
  match matchRows own r.2.1, matchRows own r.2.2 with
  | some p0, some p1 =>
    if r.1 || !tileListOk own halves p0 p1 then none
    else
      let place (k : Nat) (l : List Entry) : List Entry := List.zipWith (fun i x => { x with row := i }) ((List.range l.length).map (k + ·)) l
      some [(0, place 0 p0), (1, place p0.length p1)]
  | _, _ => none

/-- The span of a tile list with its header and rows (R210). -/
def tileListSpan (a : Nat) (r : Bool × List TileRow × List TileRow) (slot : Nat) : Span :=
  arraySpan a (64 + 16 * (r.2.1.length + r.2.2.length)) false slot

end Sys2Proof.Machine
end

