-- ==== Sys2Proof/Machine/Gemm.lean ====
section
/-!
DEFINITION. GEMM (R79–R105, R213, R217, R218): its descriptor and checks, its list, and the work of one entry.
-/
namespace Sys2Proof.Machine

/-- A GEMM descriptor (Tables 3.7–3.9). -/
structure GemmP where
  m : Nat
  n : Nat
  k : Nat
  ksplit : Nat
  stat : Nat
  cplx : Nat
  prec : Nat
  ta : Bool
  tb : Bool
  accC : Bool
  pair : Bool
  loop : Nat
  blkM : Nat
  blkN : Nat
  tlist : Nat
  a : TDesc
  b : TDesc
  d : TDesc
  cBase : Nat
  cConv : Conv
  p : Nat
  pstride : Nat
  deriving DecidableEq, Repr

/-- Reads a GEMM descriptor. -/
def parseGemm (bs : List Byte) : GemmP :=
  let b30 := leAt bs 30 1
  let b31 := leAt bs 31 1
  { m := leAt bs 16 4, n := leAt bs 20 4, k := leAt bs 24 4, ksplit := leAt bs 28 2, stat := b30 % 4,
    cplx := natFld b30 3 2, prec := natFld b30 6 4, ta := b31.testBit 0, tb := b31.testBit 1,
    accC := b31.testBit 2, pair := b31.testBit 3, loop := leAt bs 32 1, blkM := leAt bs 33 1, blkN := leAt bs 34 1,
    tlist := leAt bs 40 8, a := parseT bs 64, b := parseT bs 192, d := parseT bs 320,
    cBase := leAt bs 448 8, cConv := parseConv (leAt bs 456 4), p := leAt bs 460 2, pstride := leAt bs 464 8 }

namespace GemmP

/-- Has the descriptor a C reference (R101). -/
def hasC (q : GemmP) : Bool := q.accC || q.pair

/-- Slots the descriptor takes (R101). -/
def slots (q : GemmP) : Nat := if q.hasC then 8 else 7

/-- First matrix dimension: 1 past the complex dimension (R99). -/
def d0 (q : GemmP) : Nat := if q.cplx = 0 then 0 else 1

/-- The mode of Table 3.6. -/
def mode (q : GemmP) : Option Mode := modeOf q.prec q.cplx q.a.conv.fmt q.b.conv.fmt q.a.conv.mx q.b.conv.mx

/-- The stationarity used (R104): 0 WS, 1 OS, 2 IS. -/
def statUsed (q : GemmP) : Nat :=
  if q.stat ≠ 3 then q.stat else if 4 * max q.m q.n ≤ q.k then 1 else if q.n ≤ q.m then 0 else 2

/-- Rows and columns of a tiller tile (Table 3.2). -/
def tile (q : GemmP) : Nat × Nat := if q.statUsed = 2 then (256, 64) else (64, 256)

/-- Tile rows and tile columns. -/
def tiles (q : GemmP) : Nat × Nat := (cdiv q.m q.tile.1, cdiv q.n q.tile.2)

/-- Batch extents of D (R101). -/
def batchExts (q : GemmP) : List Nat := (List.range (6 - (q.d0 + 2))).map fun j => q.d.n (q.d0 + 2 + j)

/-- Number of batch indexes. -/
def batches (q : GemmP) : Nat := prodNat q.batchExts

/-- The coordinate of a tensor at matrix coordinates (x0, x1), complex part and linear batch index; an extent of 1
is broadcast. -/
def coordOf (q : GemmP) (t : TDesc) (part x0 x1 batch : Nat) : List Nat :=
  let bc := (q.batchExts.foldl (fun (a : List Nat × Nat) n => (a.1 ++ [a.2 % max n 1], a.2 / max n 1)) ([], batch)).1
  let tail := (List.range bc.length).map fun j => if t.n (q.d0 + 2 + j) = 1 then 0 else bc.getD j 0
  (if q.cplx = 0 then [] else [part]) ++ [x0, x1] ++ tail

/-- The C tensor, or partial `i` of a pair (R103). -/
def cTensor (q : GemmP) (i : Nat) : TDesc := { q.d with base := q.cBase + i * q.pstride, conv := q.cConv, scaleBase := 0, slot := 7 }

/-- Crib tiles a tiller tile fills (R213). -/
def q_ (q : GemmP) : Nat := if q.cplx = 0 then 4 else 8

/-- Leaves of a pair tree (R94). -/
def leaves (q : GemmP) : Nat := q.p + (if q.k = 0 then 0 else 1)

/-- Crib tiles an entry needs on its tiller (Table 7.5, R214). -/
def need (q : GemmP) : Nat :=
  let r := match q.loop with
    | 0 => if q.pair then q.q_ * Nat.log2 (2 * q.leaves - 1) else 0
    | 1 => q.q_ * (q.blkM * q.blkN - 1)
    | _ => if q.statUsed = 2 then q.q_ * (q.blkM - 1) else q.q_ * (q.blkN - 1)
  2 * q.q_ + r

/-- Tiller tiles of the block whose first tile is (im, jn): those inside the extent (R213). -/
def blockTiles (q : GemmP) (im jn : Nat) : Nat := min q.blkM (q.tiles.1 - im) * min q.blkN (q.tiles.2 - jn)
/-- KiB of one partial of a block (R217). -/
def partKib (q : GemmP) (im jn : Nat) : Nat := q.q_ * 16 * q.blockTiles im jn
/-- KiB the group of the largest output block needs in the reduce region (R219). -/
def groupKib (q : GemmP) : Nat := if q.ksplit ≤ 1 then 0 else q.ksplit * q.partKib 0 0

/-- Dimensions and extents of A: rows M, and K unless it is 0, which no extent can be (DESIGN CHOICE, log entry 159). -/
def aExts (q : GemmP) : List (Nat × Nat) :=
  (q.d0 + (if q.ta then 0 else 1), q.m) :: (if q.k = 0 then [] else [(q.d0 + (if q.ta then 1 else 0), q.k)])

/-- Dimensions and extents of B: columns N, and K unless it is 0. -/
def bExts (q : GemmP) : List (Nat × Nat) :=
  (q.d0 + (if q.tb then 1 else 0), q.n) :: (if q.k = 0 then [] else [(q.d0 + (if q.tb then 0 else 1), q.k)])

/-- Extents of a tensor that disagree with the matrix extents `l` and the batch extents (R101). -/
def extBad (q : GemmP) (t : TDesc) (o : Nat) (l : List (Nat × Nat)) (bcast : Bool) : List (Bool × Nat) :=
  (if q.cplx = 0 then [] else t.extsBad o [(0, 2)]) ++ t.extsBad o l ++
  (List.range q.batchExts.length).map fun j =>
    (decide (t.n (q.d0 + 2 + j) ≠ q.batchExts.getD j 1) && !(bcast && t.n (q.d0 + 2 + j) = 1), o + 32 + 4 * (q.d0 + 2 + j))

/-- The malformed conditions of Table 3.10 with their byte offsets. -/
def bad (bs : List Byte) : List (Bool × Nat) :=
  let q := parseGemm bs
  ([((parseHdr bs).slots ≠ q.slots, 1), (q.m = 0, 16), (q.n = 0, 20),
   (q.ksplit = 0 || 256 < q.ksplit || (q.pair && q.ksplit ≠ 1) || (q.k = 0 && q.ksplit ≠ 1) || (q.k ≠ 0 && cdiv q.k 64 < q.ksplit), 28),
   (q.cplx = 3 || 4 ≤ q.prec || 128 ≤ leAt bs 30 1 || q.mode.isNone, 30),
   (16 ≤ leAt bs 31 1 || (q.pair && q.accC), 31),
   (3 ≤ q.loop || (q.pair && q.loop ≠ 0), 32),
   (q.blkM = 0 || 64 < q.blkM || (q.loop = 0 && q.blkM ≠ 1), 33),
   (q.blkN = 0 || 64 < q.blkN || (q.loop = 0 && q.blkN ≠ 1), 34),
   (!zeroAt bs 35 5, 35), (!zeroAt bs 48 16, 48)] : List (Bool × Nat)) ++
  TDesc.bad bs 64 false ++ TDesc.bad bs 192 false ++ TDesc.bad bs 320 true ++
  q.extBad q.a 64 q.aExts true ++ q.extBad q.b 192 q.bExts true ++
  q.extBad q.d 320 [(q.d0, q.n), (q.d0 + 1, q.m)] false ++
  (if q.hasC then
    [(convBad (leAt bs 456 4) || q.cConv.mx, 456), (if q.pair then q.p = 0 || 64 < q.p else q.p ≠ 0, 460),
     (!zeroAt bs 462 2, 462), (!zeroAt bs 472 40, 472)]
   else [])

/-- The ALIGN conditions (Table 3.10, Table 4.2, R210, Table 3.9). -/
def misaligned (q : GemmP) : Bool :=
  q.a.misaligned || q.b.misaligned || q.d.misaligned ||
  (q.a.conv.mx && q.ta) || (q.b.conv.mx && !q.tb) || q.tlist % 64 ≠ 0 ||
  (q.hasC && (q.cBase % q.cConv.fmt.size ≠ 0 || q.pstride % 128 ≠ 0))

/-- Spans of the C reference. -/
def cSpans (q : GemmP) : List Span :=
  if q.pair then ((List.range q.p).map fun i => (q.cTensor i).spans false).flatten
  else if q.accC then (q.cTensor 0).spans false
  else []

/-- Spans of the descriptor (R125), the tile list aside. -/
def spans (q : GemmP) : List Span := q.a.spans false ++ q.b.spans false ++ q.d.spans true ++ q.cSpans

/-- The OVERLAP condition of Table 3.10: D meets A, B or their scales, or C without being identical to it. -/
def overlaps (q : GemmP) : Bool :=
  let ds := q.d.spans true
  let same (i : Nat) : Bool := (q.cTensor i).base = q.d.base && q.cConv.code = q.d.conv.code
  ds.any (fun s => (q.a.spans false ++ q.b.spans false).any s.meets) ||
  (List.range (if q.pair then q.p else if q.accC then 1 else 0)).any fun i =>
    !same i && ds.any fun s => ((q.cTensor i).spans false).any s.meets

/-- The module's own order of entries (Table 7.2). -/
def ownOrder (q : GemmP) : List Entry :=
  let (tr, tc) := q.tiles
  let rows := cdiv tr q.blkM
  let cols := cdiv tc q.blkN
  ((List.range q.batches).map fun b => ((List.range rows).map fun i => ((List.range cols).map fun j =>
    let g := (b * rows + i) * cols + j
    let im := i * q.blkM
    let jn := j * q.blkN
    if q.ksplit ≤ 1 then [({ kind := .compute, batch := b, im, jn, group := g } : Entry)]
    else (List.range q.ksplit).map (fun s =>
        ({ kind := .slice, batch := b, im, jn, part := s, group := g, kib := q.partKib im jn } : Entry)) ++
      [{ kind := .reduce, batch := b, im, jn, group := g }]).flatten).flatten).flatten

/-- K range of slice `s` (R217). -/
def sliceRange (q : GemmP) (s : Nat) : Nat × Nat :=
  let u := cdiv q.k 64
  (min q.k (s * u / q.ksplit * 64), min q.k ((s + 1) * u / q.ksplit * 64))

end GemmP

namespace Work

/-- One operand pair of output (i, j) at index `k`. -/
def gemmTerm (e : Env) (q : GemmP) (batch i j k : Nat) : M Term := do
  let ca := q.coordOf q.a 0 (if q.ta then i else k) (if q.ta then k else i) batch
  let cb := q.coordOf q.b 0 (if q.tb then k else j) (if q.tb then j else k) batch
  let (a, sa) ← loadParts e q.a ca
  let (b, sb) ← loadParts e q.b cb
  return { a, sa, b, sb }

/-- One complex operand pair of output (i, j) at index `k`. -/
def gemmCTerm (e : Env) (q : GemmP) (batch i j k : Nat) : M CTerm := do
  let ca (p : Nat) := q.coordOf q.a p (if q.ta then i else k) (if q.ta then k else i) batch
  let cb (p : Nat) := q.coordOf q.b p (if q.tb then k else j) (if q.tb then j else k) batch
  return { a := ← load e q.a (ca 0), b := ← load e q.a (ca 1), c := ← load e q.b (cb 0), d := ← load e q.b (cb 1) }

/-- The crib values of output (i, j) after the K range `[k0, k1)` from given starts: real and imaginary parts (the
second unused for real products). Chunks keep their boundaries from K = 0 (R84, R217). -/
def gemmAcc (e : Env) (q : GemmP) (mode : Mode) (batch i j k0 k1 : Nat) (re im : FV) : M (FV × FV) := do
  let c := mode.chunk
  let first := k0 / c
  let count := if k1 ≤ k0 then 0 else cdiv k1 c - first
  (List.range count).foldlM (fun (acc : FV × FV) x => do
    let lo := max k0 ((first + x) * c)
    let hi := min k1 ((first + x + 1) * c)
    if q.cplx = 0 then
      let ts ← (List.range (hi - lo)).mapM fun y => gemmTerm e q batch i j (lo + y)
      return (cribAdd acc.1 (realSums mode ts), acc.2)
    else
      let ts ← (List.range (hi - lo)).mapM fun y => gemmCTerm e q batch i j (lo + y)
      let (r, s) := complexSums (q.cplx = 2) q.a.conv.fmt q.b.conv.fmt ts
      return (cribAdd acc.1 r, cribAdd acc.2 s)) (re, im)

/-- The C input of output (i, j), or +0 (R86, R218). -/
def gemmStart (e : Env) (q : GemmP) (batch i j : Nat) : M (FV × FV) := do
  if q.accC then
    let re ← load e (q.cTensor 0) (q.coordOf q.d 0 j i batch)
    let im ← if q.cplx = 0 then pure FV.zero else load e (q.cTensor 0) (q.coordOf q.d 1 j i batch)
    return (re, im)
  else return (FV.zero, FV.zero)

/-- The value of output (i, j) of an unsplit GEMM: the product from its start, or the pair tree (R94). -/
def gemmOut (e : Env) (q : GemmP) (mode : Mode) (batch i j : Nat) : M (FV × FV) := do
  if q.pair then
    let cs ← (List.range q.p).mapM fun x => do
      let re ← load e (q.cTensor x) (q.coordOf q.d 0 j i batch)
      let im ← if q.cplx = 0 then pure FV.zero else load e (q.cTensor x) (q.coordOf q.d 1 j i batch)
      return (re, im)
    let prod ← gemmAcc e q mode batch i j 0 q.k FV.zero FV.zero
    let ab := if q.k = 0 then [] else [prod]
    let add (x y : FV × FV) : FV × FV := (x.1.add32 y.1, x.2.add32 y.2)
    return (pairTree add (cs ++ ab)).getD (FV.zero, FV.zero)
  else
    let (re, im) ← gemmStart e q batch i j
    gemmAcc e q mode batch i j 0 q.k re im

/-- Output positions of a crib tile of 64 × 64 at (r0, c0) inside the extent, row by row. -/
def cribCoords (m n r0 c0 : Nat) : List (Nat × Nat) :=
  ((List.range (min 64 (m - r0))).map fun r => (List.range (min 64 (n - c0))).map fun c => (r0 + r, c0 + c)).flatten

/-- The tiles of a block in the order they are visited, as tile row and tile column within the block (R213, Table 7.5):
columns outermost under LOOP 1 with WS and under LOOP 2 with IS, else rows. -/
def blockOrder (q : GemmP) (e : Entry) : List (Nat × Nat) :=
  let rows := List.range (min q.blkM (q.tiles.1 - e.im))
  let cols := List.range (min q.blkN (q.tiles.2 - e.jn))
  if (q.loop = 1 && q.statUsed = 0) || (q.loop = 2 && q.statUsed = 2) then
    cols.flatMap fun y => rows.map fun x => (x, y)
  else rows.flatMap fun x => cols.map fun y => (x, y)

/-- Corners of the crib tiles of an entry's block, with tile row, tile column and array (R79, R213). -/
def blockCribs (q : GemmP) (e : Entry) : List (Nat × Nat × Nat × Nat × Nat) :=
  let (h, w) := q.tile
  (blockOrder q e).flatMap fun (x, y) =>
    (List.range 4).filterMap fun a =>
      let r0 := (e.im + x) * h + (if h = 256 then 64 * a else 0)
      let c0 := (e.jn + y) * w + (if w = 256 then 64 * a else 0)
      if r0 < q.m && c0 < q.n then some (r0, c0, e.im + x, e.jn + y, a) else none

/-- The monitor samples of a drained row: the exponent of its largest magnitude (Table 15.7, SRC 11). -/
def rowExponent (vs : List FV) : Int :=
  if vs.any fun v => !v.isFinite then 128
  else
    vs.foldl (fun (a : Int) v => match v with
      | .fin _ m e => if m = 0 then a else
          let x := (Nat.log2 m : Int) + e
          if x < -126 then a else max a x
      | _ => a) (-127)

/-- The monitor samples of rows of 64 values on the tiller of the work: source 11 as they drain, 12 as they leave the Quern's
functions (R442). A row without a value inside the extent gives none (R124). -/
def sampleRows (e : Env) (src : Nat) (rows : List (List FV)) : M Unit := do
  for row in rows.filter fun r => !r.isEmpty do
    change fun d => d.monSample src (fun x => x % 256 = 255 || x = e.tiller) (rowExponent row)

/-- The origin of a NaN of output (i, j) as its crib tile drains. -/
def drainOrigin (e : Env) (q : GemmP) (batch tr tc arr i j part : Nat) : Dp.Origin :=
  { ring := e.ring, uid := e.uid, seq := e.seq, op := e.op, src := 0, tiller := e.tiller, array := arr,
    tileRow := tr, tileCol := tc, row := i, col := j, idx := q.d.index (q.coordOf q.d part j i batch) }

/-- What is seen of a crib tile as it drains: NaN detection (R64) and the monitor samples. -/
def drainSeen (e : Env) (q : GemmP) (batch tr tc arr : Nat) (vals : List ((Nat × Nat) × FV × FV)) : M Unit := do
  for v in vals do
    nan e v.2.1 (drainOrigin e q batch tr tc arr v.1.1 v.1.2 0)
    if q.cplx ≠ 0 then nan e v.2.2 (drainOrigin e q batch tr tc arr v.1.1 v.1.2 1)
  for r in (vals.map fun v => v.1.1).eraseDups do
    let row := vals.filter fun v => v.1.1 = r
    sampleRows e 11 ((row.map fun v => v.2.1) :: if q.cplx = 0 then [] else [row.map fun v => v.2.2])

/-- A crib tile drains (R93): what is seen of it, and the store under D's conversion word. `poison` tells of each output
whether poisoned data fed it. -/
def drain (e : Env) (q : GemmP) (batch tr tc arr : Nat) (vals : List ((Nat × Nat) × FV × FV)) (poison : Nat × Nat → Bool) :
    M Unit := do
  let origin := drainOrigin e q batch tr tc arr
  let val (part i j : Nat) : FV :=
    match vals.find? fun v => v.1 = (i, j) with
    | some v => if part = 0 then v.2.1 else v.2.2
    | none => FV.zero
  drainSeen e q batch tr tc arr vals
  for v in vals do
    let (i, j) := v.1
    let valAt (c : List Nat) : M FV :=
      return if q.cplx = 0 then val 0 i (TDesc.at0 c 0) else val (TDesc.at0 c 0) i j
    storeAt e q.d valAt (q.coordOf q.d 0 j i batch) (poison v.1) true (origin i j 0)
    if q.cplx ≠ 0 then storeAt e q.d valAt (q.coordOf q.d 1 j i batch) (poison v.1) true (origin i j 1)

/-- Marks the descriptor as fed by poisoned data (R333). -/
def markPoisoned (e : Env) : M Unit := change fun d => d.modUid e.uid fun o => { o with poisoned := true }

/-- `n` tiller tiles are completed on the tiller of the work (TLR_TILE_CNT, R108): a tile or a K slice of one. -/
def tilesDone (e : Env) (n : Nat) : M Unit := change fun d => if e.tiller < 192 then d.bump (Reg.tlrTileCnt e.tiller) n else d

/-- The work of one GEMM entry: a tile or block computed and stored, a K slice written as a partial, or a reduce
entry that sums its group's partials in order (R205, R217, R218). -/
def gemmEntry (e : Env) (q : GemmP) (mode : Mode) (x : Entry) (ksplit : Nat) : M Unit := do
  match x.kind with
  | .slice =>
    let (k0, k1) := q.sliceRange x.part
    let parts ← (blockCribs q x).mapM fun (r0, c0, _, _, _) => poisonOf do
      (cribCoords q.m q.n r0 c0).mapM fun (i, j) => gemmAcc e q mode x.batch i j k0 k1 FV.zero FV.zero
    let data := (parts.map fun p => (p.1.map fun v => [v.1, v.2]).flatten).flatten
    let bad := (parts.map fun p => (p.1.map fun _ => [p.2, p.2]).flatten).flatten
    tilesDone e (q.blockTiles x.im x.jn)
    change fun d => { d with partials := d.partials ++
      [{ uid := e.uid, half := e.half, group := x.group, part := x.part, kib := x.kib, data, bad }] }
  | .reduce =>
    let ps := (← get).d.partials
    let mine := (List.range ksplit).filterMap fun s => ps.find? fun p => p.uid = e.uid && p.group = x.group && p.part = s
    let cribs := blockCribs q x
    let _ ← cribs.foldlM (fun (base : Nat) (r0, c0, tr, tc, arr) => do
      let coords := cribCoords q.m q.n r0 c0
      let (vals, p0) ← poisonOf do
        (List.range coords.length).mapM fun t => do
          let (i, j) := coords.getD t (0, 0)
          let (re, im) ← gemmStart e q x.batch i j
          let add (off : Nat) (v : FV) := mine.foldl (fun v p => v.add32 (p.data.getD (base + 2 * t + off) FV.zero)) v
          return ((i, j), add 0 re, add 1 im)
      let bad := p0 || (List.range (2 * coords.length)).any fun t => mine.any fun p => p.bad.getD (base + t) false
      if bad then markPoisoned e
      drain e q x.batch tr tc arr vals fun _ => bad
      return base + 2 * coords.length) 0
    flush e
    change fun d => { d with partials := d.partials.filter fun p => !(p.uid = e.uid && p.group = x.group) }
  | _ =>
    for (r0, c0, tr, tc, arr) in blockCribs q x do
      let (vals, bad) ← poisonOf do
        (cribCoords q.m q.n r0 c0).mapM fun (i, j) => do return ((i, j), ← gemmOut e q mode x.batch i j)
      if bad then markPoisoned e
      drain e q x.batch tr tc arr vals fun _ => bad
    flush e
    tilesDone e (q.blockTiles x.im x.jn)

end Work

namespace GemmP

/-- Is every partial that a reduce entry waits for written (R205). -/
def ready (d : Dp) (uid ksplit : Nat) (x : Entry) : Bool :=
  x.kind ≠ .reduce ||
  (List.range ksplit).all fun s => d.partials.any fun p => p.uid = uid && p.group = x.group && p.part = s

/-- The result word (R104). -/
def result (q : GemmP) : Nat := q.statUsed + q.tiles.1 * q.tiles.2 * q.batches * 2 ^ 32

end GemmP
end Sys2Proof.Machine
end

