-- ==== Sys2Proof/Machine/Sparse.lean ====
section
/-!
DEFINITION. Sparse forms (R138–R147): the sparse form reference, reading rows and columns of S24, B16 and RowPack
with their validity checks (R146), and compression on store (R148–R152).
-/
namespace Sys2Proof.Machine

/-- A sparse form reference (Table 5.1). FORM: 0 S24, 1 B16, 2 RowPack. -/
structure SRef where
  conv : Conv
  tid : Nat
  form : Nat
  fixed : Bool
  tidx : Bool
  rows : Nat
  cols : Nat
  val : Nat
  idx : Nat
  ptr : Nat
  seg : Nat
  segptr : Nat
  tcolptr : Nat
  trow : Nat
  tperm : Nat
  cap : Nat
  valPitch : Nat
  idxPitch : Nat
  /-- the slot it begins in -/
  slot : Nat
  deriving DecidableEq, Repr

/-- Reads a sparse form reference at byte `o`. -/
def parseS (bs : List Byte) (o : Nat) : SRef :=
  let b8 := leAt bs (o + 8) 1
  { conv := parseConv (leAt bs o 4), tid := leAt bs (o + 4) 4, form := b8 % 4, fixed := b8.testBit 2,
    tidx := b8.testBit 3, rows := leAt bs (o + 12) 4, cols := leAt bs (o + 16) 4, val := leAt bs (o + 24) 8,
    idx := leAt bs (o + 32) 8, ptr := leAt bs (o + 40) 8, seg := leAt bs (o + 48) 8, segptr := leAt bs (o + 56) 8,
    tcolptr := leAt bs (o + 64) 8, trow := leAt bs (o + 72) 8, tperm := leAt bs (o + 80) 8,
    cap := leAt bs (o + 88) 8, valPitch := leAt bs (o + 96) 4, idxPitch := leAt bs (o + 100) 4,
    slot := o / 64 }

namespace SRef

/-- Bytes of a value. -/
def es (r : SRef) : Nat := r.conv.fmt.size

/-- Groups of four columns (R140). -/
def groups (r : SRef) : Nat := cdiv r.cols 4

/-- Block rows and block columns (R142). -/
def br (r : SRef) : Nat := cdiv r.rows 16
/-- Block columns (R142). -/
def bc (r : SRef) : Nat := cdiv r.cols 16

/-- Malformed conditions of a reference (R139, R140, Table 5.1). -/
def bad (bs : List Byte) (o : Nat) : List (Bool × Nat) :=
  let r := parseS bs o
  let rp := r.form = 2
  let tx := rp && r.tidx
  [(convBad (leAt bs o 4) || r.conv.mx, o), (r.form = 3 || 16 ≤ leAt bs (o + 8) 1 || (r.tidx && !rp), o + 8),
   (!zeroAt bs (o + 9) 3, o + 9), (r.rows = 0, o + 12), (r.cols = 0, o + 16), (!zeroAt bs (o + 20) 4, o + 20),
   (r.form = 0 && r.ptr ≠ 0, o + 40), (!rp && r.seg ≠ 0, o + 48), (!rp && r.segptr ≠ 0, o + 56),
   (!tx && r.tcolptr ≠ 0, o + 64), (!tx && r.trow ≠ 0, o + 72), (!tx && r.tperm ≠ 0, o + 80),
   ((r.form = 0 && r.cap ≠ 0) || (tx && 2 ^ 32 ≤ r.cap), o + 88),
   (if r.form = 0 then r.valPitch < 2 * r.groups * r.es else r.valPitch ≠ 0, o + 96),
   (if r.form = 0 then r.idxPitch < cdiv r.groups 2 else r.idxPitch ≠ 0, o + 100), (!zeroAt bs (o + 104) 24, o + 104)]

/-- The ALIGN condition of R139. -/
def misaligned (r : SRef) : Bool :=
  [r.val, r.idx, r.ptr, r.seg, r.segptr, r.tcolptr, r.trow, r.tperm, r.valPitch, r.idxPitch].any fun x => x % 64 ≠ 0

/-- Index arrays with their sizes in bytes. -/
def idxArrays (r : SRef) : List (Nat × Nat) :=
  match r.form with
  | 0 => [(r.idx, (r.rows - 1) * r.idxPitch + cdiv r.groups 2)]
  | 1 => [(r.idx, r.br * 8 * cdiv r.bc 64), (r.ptr, 8 * (r.br + 1))]
  | _ => [(r.idx, 2 * r.cap), (r.ptr, 8 * (r.rows + 1)), (r.seg, 8 * r.cap), (r.segptr, 8 * (r.rows + 1))] ++
      (if r.tidx then [(r.tcolptr, 8 * (r.cols + 1)), (r.trow, 4 * r.cap), (r.tperm, 4 * r.cap)] else [])

/-- The value array with its size. -/
def valArray (r : SRef) : Nat × Nat :=
  match r.form with
  | 0 => (r.val, (r.rows - 1) * r.valPitch + 2 * r.groups * r.es)
  | 1 => (r.val, r.cap * 256 * r.es)
  | _ => (r.val, r.cap * r.es)

/-- The spans of the form (R139). -/
def spans (r : SRef) (stored : Bool) : List Span :=
  arraySpan r.valArray.1 r.valArray.2 stored r.slot :: r.idxArrays.map fun a => arraySpan a.1 a.2 (stored && !r.fixed) r.slot

end SRef

namespace Work

/-- A halt on an invalid index structure, at entry `ofs` of its array (R146). -/
def badIndex {α : Type} (e : Env) (ofs : Nat) : M α :=
  trouble (.halt { status := stIndex, detail := 0, ofs, space := e.space })

/-- One 64-bit entry of an array. -/
def ptrAt (e : Env) (base i : Nat) : M Nat := readNat e (base + 8 * i) 8

/-- The value at position `p` of the value array. -/
def valAt (e : Env) (r : SRef) (p : Nat) : M FV := do
  return r.conv.fmt.decode (← readNat e (r.val + p * r.es) r.es)

/-- The columns of a row of S24 in stored order (R140, R141, R146). -/
def s24Cols (e : Env) (r : SRef) (i : Nat) : M (List Nat) := do
  let gs ← (List.range r.groups).mapM fun g => do
    let b ← readNat e (r.idx + i * r.idxPitch + g / 2) 1
    let nib := if g % 2 = 0 then b % 16 else b / 16
    if nib / 4 ≤ nib % 4 then badIndex e (i * r.idxPitch * 2 + g)
    return [4 * g + nib % 4, 4 * g + nib / 4]
  return gs.flatten

/-- The address of the value at stored position `p` of a row of S24. -/
def s24Addr (r : SRef) (i p : Nat) : Nat := r.val + i * r.valPitch + p * r.es

/-- The stored values of a row of S24 with their columns, in stored order. The value of a column at or beyond COLS is
neither fetched nor used (R141, R123), and stands as +0. -/
def s24Row (e : Env) (r : SRef) (i : Nat) : M (List (Nat × FV)) := do
  let cs ← s24Cols e r i
  (List.range cs.length).mapM fun p => do
    let c := cs.getD p 0
    if r.cols ≤ c then return (c, FV.zero)
    return (c, r.conv.fmt.decode (← readNat e (s24Addr r i p) r.es))

/-- The bitmap of block row `b` (R142), as the list of present block columns. -/
def bitmapRow (e : Env) (r : SRef) (b : Nat) : M (List Nat) := do
  let w := cdiv r.bc 64
  let words ← (List.range w).mapM fun k => ptrAt e r.idx (b * w + k)
  return (List.range r.bc).filter fun c => (words.getD (c / 64) 0).testBit (c % 64)

/-- Present blocks of block row `b` with their positions in storage, checked against the pointers (R142, R146); a store
under FIXED = 1 does not check them for capacity (R151). -/
def blockRow (e : Env) (r : SRef) (b : Nat) (capped : Bool := true) : M (List (Nat × Nat)) := do
  let cs ← bitmapRow e r b
  let p0 ← ptrAt e r.ptr b
  let p1 ← ptrAt e r.ptr (b + 1)
  if b = 0 && p0 ≠ 0 then badIndex e 0
  if p1 ≠ p0 + cs.length then badIndex e (b + 1)
  if capped && r.cap < p1 then badIndex e (b + 1)
  return (List.range cs.length).map fun k => (cs.getD k 0, p0 + k)

/-- A row of B16: the held positions inside the extent in increasing column. -/
def b16Row (e : Env) (r : SRef) (i : Nat) : M (List (Nat × FV)) := do
  let blocks ← blockRow e r (i / 16)
  let vs ← blocks.mapM fun (c, p) =>
    ((List.range 16).filter fun x => 16 * c + x < r.cols).mapM fun x => do
      return (16 * c + x, ← valAt e r (256 * p + 16 * (i % 16) + x))
  return vs.flatten

/-- The positions of a row of RowPack: column and place in VAL, checked (R143, R144, R146); a store under FIXED = 1 does
not check them for capacity (R151). -/
def packPos (e : Env) (r : SRef) (i : Nat) (capped : Bool := true) : M (List (Nat × Nat)) := do
  let p0 ← ptrAt e r.ptr i
  let p1 ← ptrAt e r.ptr (i + 1)
  let total ← ptrAt e r.ptr r.rows
  if i = 0 && p0 ≠ 0 then badIndex e 0
  if p1 < p0 then badIndex e (i + 1)
  if (capped && r.cap < total) || total < p1 then badIndex e r.rows
  let s0 ← ptrAt e r.segptr i
  let s1 ← ptrAt e r.segptr (i + 1)
  if i = 0 && s0 ≠ 0 then badIndex e 0
  if s1 < s0 then badIndex e (i + 1)
  let hdrs ← (List.range (s1 - s0)).mapM fun k => ptrAt e r.seg (s0 + k)
  let (out, _, used) ← (List.range hdrs.length).foldlM (fun (acc : List (Nat × Nat) × Int × Nat) k => do
    let h := hdrs.getD k 0
    let sg := natFld h 51 32
    let cnt := natFld h 12 0
    if natFld h 63 52 ≠ 0 || natFld h 31 13 ≠ 0 || cnt = 0 || 4096 < cnt || cdiv r.cols 4096 ≤ sg || (sg : Int) ≤ acc.2.1 then
      badIndex e (s0 + k)
    if p1 - p0 < acc.2.2 + cnt then badIndex e (s0 + k)
    let offs ← (List.range cnt).mapM fun x => readNat e (r.idx + 2 * (p0 + acc.2.2 + x)) 2
    let (cols, _) ← (List.range cnt).foldlM (fun (a : List (Nat × Nat) × Int) x => do
      let o := offs.getD x 0
      if 4096 ≤ o || (o : Int) ≤ a.2 || r.cols ≤ 4096 * sg + o then badIndex e (p0 + acc.2.2 + x)
      return (a.1 ++ [(4096 * sg + o, p0 + acc.2.2 + x)], (o : Int))) ([], -1)
    return (acc.1 ++ cols, (sg : Int), acc.2.2 + cnt)) ([], -1, 0)
  if used ≠ p1 - p0 then badIndex e (i + 1)
  return out

/-- A row of RowPack with its values. -/
def packRow (e : Env) (r : SRef) (i : Nat) : M (List (Nat × FV)) := do
  (← packPos e r i).mapM fun (c, p) => do return (c, ← valAt e r p)

/-- A column of RowPack through its transpose index, by increasing row (R145, R146). -/
def packCol (e : Env) (r : SRef) (j : Nat) : M (List (Nat × FV)) := do
  let p0 ← ptrAt e r.tcolptr j
  let p1 ← ptrAt e r.tcolptr (j + 1)
  if p1 < p0 then badIndex e (j + 1)
  let total ← ptrAt e r.ptr r.rows
  if r.cap < total then badIndex e r.rows
  let (out, _) ← (List.range (p1 - p0)).foldlM (fun (acc : List (Nat × FV) × Int) k => do
    let row ← readNat e (r.trow + 4 * (p0 + k)) 4
    let perm ← readNat e (r.tperm + 4 * (p0 + k)) 4
    if (row : Int) ≤ acc.2 || total ≤ perm then badIndex e (p0 + k)
    return (acc.1 ++ [(row, ← valAt e r perm)], (row : Int))) ([], -1)
  return out

/-- The held positions of stored row `i`, whatever the form. -/
def formRow (e : Env) (r : SRef) (i : Nat) : M (List (Nat × FV)) := do
  match r.form with
  | 0 => return (← s24Row e r i).filter fun x => x.1 < r.cols
  | 1 => b16Row e r i
  | _ => packRow e r i

/-- The held positions of stored column `j`: through the transpose index for RowPack, by its rows otherwise. -/
def formCol (e : Env) (r : SRef) (j : Nat) : M (List (Nat × FV)) := do
  if r.form = 2 then packCol e r j
  else
    let rows ← (List.range r.rows).mapM fun i => do
      return ((← formRow e r i).find? fun x => x.1 = j).map fun x => (i, x.2)
    return rows.filterMap id

/-! ### Compression on store -/

/-- A converted element of the dense view: its code and whether it is poisoned. -/
abbrev Elem := Nat × Bool

/-- Converts the dense view under the form's conversion word, row by row (R148). -/
def convertRows (e : Env) (r : SRef) (val : Nat → Nat → M (FV × Bool)) (drained : Bool) (g : Dp.Origin) :
    M (List (List Elem)) :=
  (List.range r.rows).mapM fun i => (List.range r.cols).mapM fun j => do
    let (v, p) ← val i j
    let idx := i * r.cols + j
    let code ← encode e r.conv r.tid idx 0 false v
    if (r.conv.fmt.decode code).isNan && !(drained && v.isNan) then
      nan e (if v.isNan then v else .nan false) { g with src := 1, row := i, col := j, idx }
    return (code, p)

/-- Is a converted element a zero (R148). -/
def elemZero (f : Fmt) (x : Elem) : Bool := (f.decode x.1).isZero

/-- Ranking of converted magnitudes: NaN above every number (R149). -/
def magLess (f : Fmt) (x y : Elem) : Bool :=
  let a := f.decode x.1
  let b := f.decode y.1
  if a.isNan then false else if b.isNan then true else a.abs.lt b.abs

/-- The two columns an S24 group keeps, in increasing order: the non-zeros of largest magnitude, completed with the
lowest columns not held (R141, R149). -/
def s24Keep (f : Fmt) (xs : List Elem) : List Nat :=
  let nz := (List.range xs.length).filter fun k => !elemZero f (xs.getD k (0, false))
  let better (a b : Nat) : Bool := -- a ranks before b
    magLess f (xs.getD b (0, false)) (xs.getD a (0, false)) ||
    (!magLess f (xs.getD a (0, false)) (xs.getD b (0, false)) && a < b)
  let kept := nz.filter fun k => (nz.filter fun j => j ≠ k && better j k).length < 2
  let fill := ((List.range 4).filter fun k => !kept.contains k).take (2 - kept.length)
  (List.range 4).filter fun k => kept.contains k || fill.contains k

/-- Writes the dense view as S24; answers values kept and dropped. -/
def storeS24 (e : Env) (r : SRef) (spill : Bool) (rows : List (List Elem)) : M (Nat × Nat) := do
  let f := r.conv.fmt
  (List.range r.rows).foldlM (fun (acc : Nat × Nat) i => do
    let row := rows.getD i []
    (List.range r.groups).foldlM (fun (acc : Nat × Nat) g => do
      let xs := (row.drop (4 * g)).take 4
      let nz := (xs.filter fun x => !elemZero f x).length
      if spill && 2 < nz then
        trouble (.halt { status := stIndex, detail := 0, ofs := i * r.cols + 4 * g, space := e.space })
      let ks := s24Keep f xs
      let k0 := ks.getD 0 0
      let k1 := ks.getD 1 1
      let byte ← do
        let other := (row.drop (4 * (g + 1 - 2 * (g % 2)))).take 4
        let oks := s24Keep f other
        let nib (l : List Nat) := l.getD 0 0 + 4 * l.getD 1 1
        pure (if g % 2 = 0 then nib ks + (if g + 1 < r.groups then 16 * nib oks else 0) else nib oks + 16 * nib ks)
      put (r.idx + i * r.idxPitch + g / 2) (toLe 1 byte) false
      let code (k : Nat) : Elem :=
        let x := xs.getD k (f.convert false .nearestEven FV.zero, false)
        if elemZero f x then (f.convert false .nearestEven FV.zero, x.2) else x
      put (r.val + i * r.valPitch + 2 * g * r.es) (toLe r.es (code k0).1) (code k0).2
      put (r.val + i * r.valPitch + (2 * g + 1) * r.es) (toLe r.es (code k1).1) (code k1).2
      return (acc.1 + min 2 nz, acc.2 + (nz - 2))) acc) (0, 0)

/-- Writes the dense view as B16; answers the blocks written. -/
def storeB16 (_e : Env) (r : SRef) (rows : List (List Elem)) : M Nat := do
  let f := r.conv.fmt
  let elem (i j : Nat) : Option Elem := (rows[i]?).bind fun l => l[j]?
  let present (b c : Nat) : Bool := (List.range 256).any fun x =>
    (elem (16 * b + x / 16) (16 * c + x % 16)).any fun v => !elemZero f v
  let blocks := ((List.range r.br).map fun b => ((List.range r.bc).filter (present b)).map fun c => (b, c)).flatten
  if r.cap < blocks.length then trouble (.ends { status := stIndex, result := blocks.length })
  for b in List.range r.br do
    for w in List.range (cdiv r.bc 64) do
      let bits := (List.range 64).foldl (fun a k => if present b (64 * w + k) then a + 2 ^ k else a) 0
      put (r.idx + 8 * (b * cdiv r.bc 64 + w)) (toLe 8 bits) false
    put (r.ptr + 8 * b) (toLe 8 (blocks.filter fun x => x.1 < b).length) false
  put (r.ptr + 8 * r.br) (toLe 8 blocks.length) false
  let code0 := f.convert false .nearestEven FV.zero
  for k in List.range blocks.length do
    let (b, c) := blocks.getD k (0, 0)
    for x in List.range 256 do
      let v := (elem (16 * b + x / 16) (16 * c + x % 16)).getD (code0, false)
      put (r.val + (256 * k + x) * r.es) (toLe r.es v.1) v.2
  return blocks.length

/-- Writes the arrays of RowPack for given entries per row (column, code, poison), with the transpose index when
TIDX = 1 (R143–R145, R152). -/
def storePack (r : SRef) (rows : List (List (Nat × Elem))) : M Unit := do
  let all := ((List.range rows.length).map fun i => (rows.getD i []).map fun x => (i, x.1, x.2)).flatten
  let segs (i : Nat) : List Nat := ((rows.getD i []).map fun x => x.1 / 4096).eraseDups
  let upTo (l : List Nat) (i : Nat) : Nat := (l.take i).foldl (· + ·) 0
  let lens := rows.map fun l => l.length
  let slens := (List.range rows.length).map fun i => (segs i).length
  for i in List.range (rows.length + 1) do
    put (r.ptr + 8 * i) (toLe 8 (upTo lens i)) false
    put (r.segptr + 8 * i) (toLe 8 (upTo slens i)) false
  for i in List.range rows.length do
    for k in List.range (segs i).length do
      let s := (segs i).getD k 0
      let cnt := ((rows.getD i []).filter fun x => x.1 / 4096 = s).length
      put (r.seg + 8 * (upTo slens i + k)) (toLe 8 (s * 2 ^ 32 + cnt)) false
  for p in List.range all.length do
    let (_, j, v) := all.getD p (0, 0, 0, false)
    put (r.idx + 2 * p) (toLe 2 (j % 4096)) false
    put (r.val + p * r.es) (toLe r.es v.1) v.2
  if r.tidx then
    let cols := (List.range r.cols).map fun j =>
      (List.range all.length).filter fun p => (all.getD p (0, 0, 0, false)).2.1 = j
    let clens := cols.map (·.length)
    for j in List.range (r.cols + 1) do put (r.tcolptr + 8 * j) (toLe 8 (upTo clens j)) false
    let flat := cols.flatten
    for t in List.range flat.length do
      let p := flat.getD t 0
      put (r.trow + 4 * t) (toLe 4 (all.getD p (0, 0, 0, false)).1) false
      put (r.tperm + 4 * t) (toLe 4 p) false

/-- The places of stored row `i` that a store under FIXED = 1 writes: column and address (R151). A B16 form holds the rows
and columns of its blocks past the extent too, which are written +0 (R142); an S24 index past COLS is not written (R123). -/
def heldPlaces (e : Env) (r : SRef) (i : Nat) : M (List (Nat × Nat)) := do
  match r.form with
  | 0 =>
    let cs ← s24Cols e r i
    return ((List.range cs.length).map fun p => (cs.getD p 0, s24Addr r i p)).filter fun x => x.1 < r.cols
  | 1 =>
    let l ← blockRow e r (i / 16) false
    return l.flatMap fun (c, p) => (List.range 16).map fun x => (16 * c + x, r.val + (256 * p + 16 * (i % 16) + x) * r.es)
  | _ =>
    let l ← packPos e r i false
    return l.map fun (c, p) => (c, r.val + p * r.es)

/-- Stores a dense view into a sparse form (R148–R152): the count for bits 47:0 and the drops for bits 63:48. -/
def compress (e : Env) (r : SRef) (spill : Bool) (val : Nat → Nat → M (FV × Bool)) (drained : Bool) (g : Dp.Origin) :
    M (Nat × Nat) := do
  let f := r.conv.fmt
  let rows ← convertRows e r val drained g
  let nz (l : List Elem) : List (Nat × Elem) :=
    (List.range l.length).filterMap fun j => match l[j]? with
      | some x => if elemZero f x then none else some (j, x)
      | none => none
  let (count, drops) ← if r.fixed then do
      let res ← (List.range (if r.form = 1 then 16 * r.br else r.rows)).mapM fun i => do
        let row := rows.getD i []
        let held ← heldPlaces e r i
        for (c, a) in held do
          match row[c]? with
          | some x => put a (toLe r.es x.1) x.2
          | none => put a (toLe r.es (f.convert false .nearestEven FV.zero)) false
        let n := (held.filter fun h => (nz row).any fun x => x.1 = h.1).length
        let dropped := ((nz row).filter fun x => !(held.any fun h => h.1 = x.1)).length
        return (n, dropped)
      let blocks ← if r.form = 1 then ptrAt e r.ptr r.br else pure 0
      let n := (res.map (·.1)).foldl (· + ·) 0
      pure (if r.form = 1 then blocks else n, (res.map (·.2)).foldl (· + ·) 0)
    else match r.form with
      | 0 => storeS24 e r spill rows
      | 1 => do return (← storeB16 e r rows, 0)
      | _ => do
        let l := rows.map nz
        let n := (l.map fun x => x.length).foldl (· + ·) 0
        if r.cap < n then trouble (.ends { status := stIndex, result := n })
        storePack r l
        return (n, 0)
  if rows.any fun l => l.any fun x => x.2 then markPoisoned e
  flush e
  change fun d => d.bump (Reg.sprCnt 6) drops
  return (count, drops)

/-- The result word of a compressing store (R152). -/
def compressWord (count drops : Nat) : Nat := count % 2 ^ 48 + min 65535 drops * 2 ^ 48

end Work
end Sys2Proof.Machine
end

