-- ==== Sys2Proof/Machine/Tiles.lean ====
section
/-!
DEFINITION. What every opcode that runs on tillers shares: its judgement at dispatch in the order of the outcome
tables, its entry into the outstanding descriptors, and the start of its lists.
-/
namespace Sys2Proof.Machine
namespace Dp

/-- The checks every outcome table begins with: malformed, ALIGN, OVERLAP (its own spans, then the guard ranges of
R122). `go` judges on. -/
def judged (c : OpCtx) (bad : List (Bool × Nat)) (rule : SheafRule) (align overlap : Bool) (go : Dp → Dp)
    (d : Dp) : Dp :=
  match firstBad (bad ++ d.sheafBad c.ring c.hdr rule) with
  | some o => d.malformed c o
  | none =>
    if align then d.refuse c stAlign
    else if overlap || d.guardRefuses c.ring c.spans then d.refuse c stOverlap
    else go d

/-- How declaring the stored spans of a descriptor in its open sheaf would end (R270); a mask operation declares other ranges
and is judged on them by itself. -/
def declaring (d : Dp) (c : OpCtx) : Declared :=
  if !c.hdr.sheafEn || (0x20 ≤ c.hdr.op && c.hdr.op ≤ 0x22) then .ok
  else
    match (run (declareRegions (d.envOf c.ring (d.opened c)) c.hdr.sheafId (storedRanges c.spans)) atsFuel d).1 with
    | .ok (x, _) => x
    | .error _ => .ok

/-- A descriptor that passed its own checks is judged by the state of its sheaf (Table 9.12) and by the room left in it
(R187, R270), becomes outstanding, captures its random streams (R59), and starts. -/
def enter (c : OpCtx) (convs : List Conv) (start : Nat → Outst → Dp → Dp) (d : Dp) : Dp :=
  if d.sheafForeign c.ring c.hdr then d.malformed c 2
  else match d.sheafVerdict c.hdr with
  | some s => d.refuse c s
  | none => match d.declaring c with
  | .limits => (d.abortSheaf c.hdr.sheafId 4).refuse c stSheafAborted
  | .conflict => d.refuse c stConflict
  | .ok => start c.ring (d.accepted c convs) (d.accept c convs)

/-- Refuses when one of `halves`, which would receive entries, cannot take them (R214, R219). -/
def cribJudged (c : OpCtx) (halves : List Nat) (need kib : Nat) (go : Dp → Dp) (d : Dp) : Dp :=
  match d.cribRefusal halves need kib with
  | some w => d.refuse c stCrib 0 w
  | none => go d

/-- Declares the regions of an operation over its stored spans and hands its list to the halves (R205, R270). -/
def startList (need : Nat) (parts : List (Nat × List Entry)) (n : Nat) (o : Outst) (d : Dp) (fill : Nat := 4) : Dp :=
  match d.declareFor n o (d.stokerHalf n) (storedRanges o.spans) with
  | (false, d) => d
  | (true, d) => (d.addLists n o.uid need parts fill).setPhase o.uid .running

/-- What a read of module structures gives while a descriptor is judged, the state aside: none where it meets trouble,
which the descriptor meets again once it is outstanding. -/
def peek {α : Type} (c : OpCtx) (m : Env → M α) (d : Dp) : Option α :=
  match run (m (d.envOf c.ring (d.opened c))) atsFuel d with
  | (.ok (a, _), _) => some a
  | (.error _, _) => none

/-- The tile list that a descriptor names, as it is scanned while the descriptor is judged (R211): none without a list,
or where the scan meets trouble. -/
def tileListOf (c : OpCtx) (a : Nat) (d : Dp) : Option (Bool × List TileRow × List TileRow) :=
  if a = 0 || a % 64 ≠ 0 then none else peek c (fun e => Work.readTileList e a) d

/-- How a descriptor's entries fall to the halves as it is judged: by its tile list, or by R209. -/
def judgedParts (own : List Entry) (halves : List Nat) (r : Option (Bool × List TileRow × List TileRow)) :
    List (Nat × List Entry) :=
  (r.bind (scannedParts own halves)).getD (divide halves own)

/-- Has the operation its lists already. -/
def hasList (d : Dp) (uid : Nat) : Bool := d.lists.any fun l => l.uid = uid

/-- A stored span of the descriptor meets another of its spans (R125); `ok` tells the pairs an opcode allows. -/
def selfOverlap (outs ins : List Span) : Bool :=
  outs.any (fun s => s.stored && ins.any s.meets) ||
  (List.range outs.length).any fun i => (List.range i).any fun j =>
    match outs[i]?, outs[j]? with
    | some a, some b => (a.stored || b.stored) && a.meets b
    | _, _ => false

end Dp

/-! ### GEMM -/

/-- The start of a GEMM: its tile list is scanned (R211), or the module's own order taken (R208). -/
def startGemm (n : Nat) (o : Outst) (d : Dp) : Dp :=
  let q := parseGemm o.bytes
  let own := q.ownOrder
  let halves := d.halvesOf n
  if d.hasList o.uid then d.setPhase o.uid .running
  else if q.tlist = 0 then d.startList q.need (Dp.divide halves own) n o q.q_
  else
    match Dp.run (Work.readTileList (d.envOf n o) q.tlist) Dp.atsFuel d with
    | (.error t, d) => d.meet n o (d.stokerHalf n) 0 t
    | (.ok (r, _), d) =>
      match scannedParts own halves r with
      | some parts => d.startList q.need parts n o q.q_
      | none => d.finished o.uid { status := stDenied, detail := 1, ofs := 40, halts := true }

/-- GEMM at its dispatch (Table 3.10). -/
def opGemm (c : OpCtx) (d : Dp) : Dp :=
  let q := parseGemm c.bytes
  let halves := d.halvesOf c.ring
  let r := Dp.tileListOf c q.tlist d
  let listBad := r.any fun r => (scannedParts q.ownOrder halves r).isNone
  Dp.judged c (GemmP.bad c.bytes ++ [(listBad, 40)]) .may q.misaligned q.overlaps
    (fun d => Dp.cribJudged c (Dp.receiving (Dp.judgedParts q.ownOrder halves r)) q.need q.groupKib
      (Dp.enter c [q.d.conv] startGemm) d) d

end Sys2Proof.Machine
end

