-- ==== Sys2Proof/Machine/SparseGemm.lean ====
section
/-!
DEFINITION. GEMM_SP (R154–R172) and COMPRESS (R153): the paths of Table 5.6, the Winnow path with hot rows, the
sampled path, and compression of a dense view on store.
-/
namespace Sys2Proof.Machine

/-- A dense or sparse operand of GEMM_SP. -/
inductive Opd where
  | dense (t : TDesc)
  | sparse (r : SRef)
  deriving DecidableEq, Repr

namespace Opd

/-- The conversion word. -/
def conv : Opd → Conv
  | .dense t => t.conv
  | .sparse r => r.conv

/-- Form code of Table 5.8: 0 dense, 1 S24, 2 B16, 3 RowPack. -/
def form : Opd → Nat
  | .dense _ => 0
  | .sparse r => r.form + 1

/-- Spans of the operand. -/
def spans (stored : Bool) : Opd → List Span
  | .dense t => t.spans stored
  | .sparse r => r.spans stored

/-- The ALIGN conditions of the operand. -/
def misaligned : Opd → Bool
  | .dense t => t.misaligned
  | .sparse r => r.misaligned

/-- Rows and columns as stored. -/
def shape : Opd → Nat × Nat
  | .dense t => (t.n 1, t.n 0)
  | .sparse r => (r.rows, r.cols)

/-- Rows and columns that disagree with those the operation gives it. -/
def shapeBad (x : Opd) (o : Nat) (rc : Nat × Nat) : List (Bool × Nat) :=
  match x with
  | .dense t => t.extsBad o [(0, rc.2), (1, rc.1)]
  | .sparse r => [(decide (r.rows ≠ rc.1), o + 12), (decide (r.cols ≠ rc.2), o + 16)]

/-- Reads an operand of a given form code at byte `o`. -/
def parse (bs : List Byte) (form o : Nat) : Opd := if form = 0 then .dense (parseT bs o) else .sparse (parseS bs o)

/-- Malformed conditions of an operand read under a form code. -/
def bad (bs : List Byte) (form o : Nat) (stored : Bool) : List (Bool × Nat) :=
  if form = 0 then
    let t := parseT bs o
    TDesc.bad bs o stored ++
      ([(t.ndim < 2, o + 24)] : List (Bool × Nat)) ++
      ((List.range 4).map fun k => (decide (t.n (k + 2) ≠ 1), o + 32 + 4 * (k + 2)))
  else SRef.bad bs o ++ ([((parseS bs o).form + 1 ≠ form, o + 8)] : List (Bool × Nat))

end Opd

/-- The paths of Table 5.6. -/
inductive SpPath where
  | s24 | expand | block | winnow | sampled | dense
  deriving DecidableEq, Repr

/-- A GEMM_SP descriptor (Table 5.8). -/
structure SpP where
  m : Nat
  n : Nat
  k : Nat
  stat : Nat
  prec : Nat
  ta : Bool
  tb : Bool
  accC : Bool
  spill : Bool
  noHot : Bool
  a : Opd
  b : Opd
  d : Opd
  cBase : Nat
  cConv : Conv
  deriving DecidableEq, Repr

/-- Reads a GEMM_SP descriptor. -/
def parseSp (bs : List Byte) : SpP :=
  let f := leAt bs 28 1
  let s := leAt bs 29 1
  { m := leAt bs 16 4, n := leAt bs 20 4, k := leAt bs 24 4, stat := s % 4, prec := natFld s 4 2,
    ta := s.testBit 5, tb := s.testBit 6, accC := s.testBit 7, spill := (leAt bs 30 1).testBit 0,
    noHot := (leAt bs 30 1).testBit 1, a := Opd.parse bs (f % 4) 64, b := Opd.parse bs (natFld f 3 2) 192,
    d := Opd.parse bs (natFld f 5 4) 320, cBase := leAt bs 448 8, cConv := parseConv (leAt bs 456 4) }

namespace SpP

/-- Does D allow the pairing: dense, or sparse with FIXED = 0. -/
def dFree (q : SpP) : Bool :=
  match q.d with
  | .dense _ => true
  | .sparse r => !r.fixed

/-- The path of Table 5.6, STAT and PREC aside. -/
def pathOf (q : SpP) : Option SpPath :=
  match q.a, q.b with
  | .sparse r, .dense _ =>
    if !q.dFree then none
    else if r.form = 0 then some (if q.ta then .expand else .s24)
    else if r.form = 1 then some .block
    else if q.ta && !r.tidx then none else some .expand
  | .dense _, .sparse r =>
    if !q.dFree then none
    else if r.form = 0 then some (if q.tb then .s24 else .expand)
    else if r.form = 1 then some .block
    else if !q.tb && !r.tidx then none else some .expand
  | .sparse r, .sparse s =>
    if r.form = 2 && s.form = 2 && q.dFree && !(q.ta && !r.tidx) && !(!q.tb && !s.tidx) then some .winnow else none
  | .dense _, .dense _ =>
    match q.d with
    | .dense _ => none
    | .sparse r => if r.fixed then (if r.form = 0 then none else some .sampled) else some .dense

/-- Is A the sparse operand. -/
def aSparse (q : SpP) : Bool := q.a.form ≠ 0

/-- The mode of Table 3.6. -/
def mode (q : SpP) : Option Mode := modeOf q.prec 0 q.a.conv.fmt q.b.conv.fmt false false

/-- Is the STAT one the path allows. -/
def statOk (q : SpP) (p : SpPath) : Bool :=
  match p with
  | .s24 | .expand => q.stat = 3 || q.stat = (if q.aSparse then 0 else 2)
  | .winnow => q.stat = 3
  | _ => true

/-- Is the PREC one the path allows. -/
def precOk (q : SpP) (p : SpPath) : Bool :=
  match p with
  | .s24 => q.prec ≠ 1 && q.mode.isSome
  | .expand => q.prec = 0 && q.mode.isSome
  | .winnow => q.prec = 0 && q.a.conv.fmt ≠ .fp32 && q.b.conv.fmt ≠ .fp32
  | _ => q.mode.isSome

/-- The path, when the pairing, STAT and PREC are in Table 5.6. -/
def path (q : SpP) : Option SpPath :=
  match q.pathOf with
  | none => none
  | some p => if q.statOk p && q.precOk p then some p else none

/-- The stationarity used (Table 5.6, R104). -/
def statUsed (q : SpP) (p : SpPath) : Nat :=
  match p with
  | .s24 | .expand => if q.aSparse then 0 else 2
  | .winnow => 0
  | _ => if q.stat ≠ 3 then q.stat else if 4 * max q.m q.n ≤ q.k then 1 else if q.n ≤ q.m then 0 else 2

/-- Rows and columns of a tile (R157, R161, Table 3.2). -/
def tile (q : SpP) (p : SpPath) : Nat × Nat :=
  match p with
  | .s24 | .expand => if q.statUsed p = 2 then (256, 128) else (128, 256)
  | .winnow => (64, 1024)
  | _ => if q.statUsed p = 2 then (256, 64) else (64, 256)

/-- Crib tiles that a tile fills: half of what its path claims for drain and fill (Table 5.6). -/
def fill (p : SpPath) : Nat :=
  match p with
  | .s24 | .expand => 8
  | .winnow => 16
  | _ => 4

/-- Crib tiles an entry needs on its tiller (Table 5.6, R163). -/
def need (p : SpPath) : Nat :=
  match p with
  | .s24 | .expand => 16
  | .winnow => 32
  | _ => 8

/-- Dense K positions per K-block. -/
def kBlock (q : SpP) : Nat :=
  match q.mode with
  | some .f8 => 64
  | some (.split16 _) => 64
  | _ => 32

/-- The dense view of D as a tensor descriptor: its own, or a plain matrix of M × N. -/
def dView (q : SpP) : TDesc :=
  match q.d with
  | .dense t => t
  | .sparse r => { (parseT [] 0) with conv := r.conv, tid := r.tid, ndim := 2, ext := [q.n, q.m, 0, 0, 0, 0] }

/-- The product as a dense GEMM of the same operands, D and C. -/
def gemm (q : SpP) : GemmP :=
  let t (x : Opd) : TDesc := match x with
    | .dense t => t
    | .sparse _ => parseT [] 0
  { m := q.m, n := q.n, k := q.k, ksplit := 1, stat := q.stat, cplx := 0, prec := q.prec, ta := q.ta, tb := q.tb,
    accC := q.accC, pair := false, loop := 0, blkM := 1, blkN := 1, tlist := 0, a := t q.a, b := t q.b, d := q.dView,
    cBase := q.cBase, cConv := q.cConv, p := 0, pstride := 0 }

/-- The C reference of a GEMM_SP with a sparse D: a dense M × N matrix packed row by row. -/
def cTensor (q : SpP) : TDesc :=
  match q.d with
  | .dense _ => q.gemm.cTensor 0
  | .sparse _ =>
    let es : Int := q.cConv.fmt.size
    { q.dView with base := q.cBase, conv := q.cConv, stride := [es, es * q.n, 0, 0, 0, 0], slot := 7 }

/-- Malformed conditions (Table 5.9). -/
def bad (bs : List Byte) : List (Bool × Nat) :=
  let q := parseSp bs
  let f := leAt bs 28 1
  ([((parseHdr bs).slots ≠ (if q.accC then 8 else 7), 1), (q.m = 0, 16), (q.n = 0, 20), (q.k = 0, 24),
    (64 ≤ f || q.pathOf.isNone, 28), (q.prec = 5 || 4 ≤ q.prec || (q.pathOf.isSome && q.path.isNone), 29),
    (4 ≤ leAt bs 30 1, 30), (!zeroAt bs 31 33, 31)] : List (Bool × Nat)) ++
  Opd.bad bs (f % 4) 64 false ++ Opd.bad bs (natFld f 3 2) 192 false ++ Opd.bad bs (natFld f 5 4) 320 true ++
  q.a.shapeBad 64 (if q.ta then (q.k, q.m) else (q.m, q.k)) ++
  q.b.shapeBad 192 (if q.tb then (q.n, q.k) else (q.k, q.n)) ++ q.d.shapeBad 320 (q.m, q.n) ++
  (if q.accC then
    [(convBad (leAt bs 456 4) || q.cConv.mx, 456), (leAt bs 460 2 ≠ 0, 460), (!zeroAt bs 462 2, 462),
     (!zeroAt bs 472 40, 472)]
   else [])

/-- The ALIGN conditions. -/
def misaligned (q : SpP) (bs : List Byte) : Bool :=
  q.a.misaligned || q.b.misaligned || q.d.misaligned ||
  (q.a.conv.mx && q.ta) || (q.b.conv.mx && !q.tb) ||
  (q.accC && (q.cBase % q.cConv.fmt.size ≠ 0 || leAt bs 464 8 % 128 ≠ 0))

/-- Spans of C. -/
def cSpans (q : SpP) : List Span := if q.accC then q.cTensor.spans false else []

/-- Spans of the descriptor. -/
def spans (q : SpP) : List Span := q.a.spans false ++ q.b.spans false ++ q.d.spans true ++ q.cSpans

/-- The OVERLAP condition of Table 5.9. -/
def overlaps (q : SpP) : Bool :=
  let ds := q.d.spans true
  let same := q.d.form = 0 && q.cBase = q.dView.base && q.cConv.code = q.d.conv.code
  Dp.selfOverlap ds (q.a.spans false ++ q.b.spans false) ||
  (!same && ds.any fun s => s.stored && q.cSpans.any s.meets)

/-- Stored spans. -/
def stored (q : SpP) : List Span := (q.d.spans true).filter (·.stored)

/-- Is a sparse D written by a compressing store at the end. -/
def compresses (q : SpP) (p : SpPath) : Bool := q.d.form ≠ 0 && p ≠ .sampled

end SpP

namespace Work

/-- The sparse list of one output along K: the held positions of the operand's row (A) or column (B) in the
orientation of the product. -/
def kList (e : Env) (r : SRef) (byRow : Bool) (x : Nat) : M (List (Nat × FV)) := do
  let l ← if byRow then formRow e r x else formCol e r x
  return l.filter fun p => !p.2.isZero

/-- The value and MX scale of a dense operand at (output index, K index); `isA` tells which operand it is. -/
def denseAt (e : Env) (q : SpP) (t : TDesc) (isA : Bool) (x k : Nat) : M (FV × Nat) :=
  let rowMajor := if isA then !q.ta else q.tb
  loadParts e t (if rowMajor then [k, x] else [x, k])

/-- Adds the sums of the chunks that have a term to a starting value (R147, R159). Each term comes with its chunk. -/
def addChunks (mode : Mode) (start : FV) (terms : List (Nat × Term)) : FV :=
  ((terms.map fun t => t.1).eraseDups).foldl (fun v c =>
    cribAdd v (realSums mode ((terms.filter fun t => t.1 = c).map fun t => t.2))) start

/-- `addChunks` for the block path in BF16 split mode: `whole c` gives the dense operand's values over all of chunk `c`,
from which its block scale is chosen as in the dense product (R98, R159). -/
def addSplitChunks (four sparseA : Bool) (whole : Nat → List FV) (start : FV) (terms : List (Nat × Term)) : FV :=
  ((terms.map fun t => t.1).eraseDups).foldl (fun v c =>
    let ts := (terms.filter fun t => t.1 = c).map fun t => t.2
    let sd := splitScale (whole c)
    let ss := splitScale (ts.map fun t => if sparseA then t.a else t.b)
    cribAdd v (if sparseA then splitSums four ss sd ts else splitSums four sd ss ts)) start

/-- The value of output (i, j) of a path with one sparse operand (R156, R157, R158). -/
def spOut (e : Env) (q : SpP) (p : SpPath) (mode : Mode) (i j : Nat) (start : FV) : M FV := do
  match q.a, q.b with
  | .sparse r, .dense t => sumOf t true j (← termsOf r t true i j)
  | .dense t, .sparse r => sumOf t false i (← termsOf r t false j i)
  | _, _ => return start
where
  /-- The terms added up; `y` indexes the dense operand. -/
  sumOf (t : TDesc) (sparseA : Bool) (y : Nat) (terms : List (Nat × Term)) : M FV := do
    match p, mode with
    | .block, .split16 four =>
      let cs := (terms.map fun x => x.1).eraseDups
      let whole ← cs.mapM fun c => do
        let k0 := c * mode.chunk
        return (c, ← (List.range (min mode.chunk (q.k - k0))).mapM fun z => do return (← denseAt e q t (!sparseA) y (k0 + z)).1)
      return addSplitChunks four sparseA (fun c => ((whole.find? fun x => x.1 = c).map fun x => x.2).getD []) start terms
    | _, _ => return addChunks mode start terms
  /-- Terms in K order with their chunk numbers: `x` indexes the sparse operand, `y` the dense one. -/
  termsOf (r : SRef) (t : TDesc) (sparseA : Bool) (x y : Nat) : M (List (Nat × Term)) := do
    let byRow := if sparseA then !q.ta else q.tb
    let l : List (Nat × Nat × FV) ← if p = .s24 then do
        let l ← s24Row e r x
        pure ((List.range l.length).filterMap fun s =>
          match l[s]? with
          | some (k, v) => if v.isZero || q.k ≤ k then none else some (s / mode.chunk, k, v)
          | none => none)
      else do
        let l ← kList e r byRow x
        pure (l.map fun (k, v) => (k / mode.chunk, k, v))
    l.mapM fun (c, k, v) => do
      let (w, s) ← denseAt e q t (!sparseA) y k
      let (w, s) := if p = .s24 && t.conv.mx then (mxApply s w, 0x7F) else (w, s)
      return (c, if sparseA then { a := v, b := w, sb := s } else { a := w, sa := s, b := v })

/-- Matches of two sorted lists at equal K, in increasing K (R160). -/
def matchesOf (a b : List (Nat × FV)) : List (FV × FV) :=
  a.filterMap fun x => (b.find? fun y => y.1 = x.1).map fun y => (x.2, y.2)

/-- Row `i` of A and column `j` of B as the Winnow path reads them. -/
def winnowRow (e : Env) (q : SpP) (i : Nat) : M (List (Nat × FV)) :=
  match q.a with
  | .sparse r => if q.ta then packCol e r i else packRow e r i
  | .dense _ => pure []

/-- Column `j` of B as the Winnow path reads it. -/
def winnowCol (e : Env) (q : SpP) (j : Nat) : M (List (Nat × FV)) :=
  match q.b with
  | .sparse r => if q.tb then packRow e r j else packCol e r j
  | .dense _ => pure []

/-- The steps in which Winnow merges two sorted lists of numbers (R160): in each it looks at the next 16 entries of both,
emits the equal pairs in increasing order, at most `room` of them, and moves past what it has dealt with; a list that has
ended leaves the other to be walked alone. -/
def mergeSteps (room : Nat) : Nat → List Nat → List Nat → Nat
  | 0, _, _ => 0
  | f + 1, a, b =>
    if a.isEmpty && b.isEmpty then 0
    else
      let x := a.take 16
      let y := b.take 16
      let hits := x.filter y.contains
      let last := match x.getLast?, y.getLast? with
        | some p, some q => min p q
        | some p, none => p
        | none, some q => q
        | none, none => 0
      let cut := if room < hits.length then hits.getD (room - 1) last else last
      1 + mergeSteps room f (a.dropWhile (· ≤ cut)) (b.dropWhile (· ≤ cut))

/-- The Winnow steps of one output (R160): the segments of both lists merged as headers are, then the entries of each
segment that both hold. The conflict queue of 8 takes what a turn emits, as a bank adds 16 products between its turns
(DEDUCED, log entry 165). -/
def winnowSteps (a b : List Nat) : Nat :=
  let segs (l : List Nat) : List Nat := (l.map (· / 4096)).eraseDups
  let fuel := a.length + b.length + 1
  mergeSteps 16 fuel (segs a) (segs b) +
    (((segs a).filter (segs b).contains).map fun s =>
      mergeSteps 8 fuel (a.filter fun k => k / 4096 = s) (b.filter fun k => k / 4096 = s)).sum

/-- The product of a match (R162): exact, but that a product of two BF16 values outside the FP32 range rounds first. -/
def matchProduct (q : SpP) (m : FV × FV) : FV :=
  if q.a.conv.fmt = .bf16 && q.b.conv.fmt = .bf16 then m.1.mul32 m.2 else m.1.mul m.2

/-- Merges row `a` and column `b` and adds the products of the matches to a starting value, one FP32 rounding per addition
(R160, R162). -/
def winnowSum (q : SpP) (start : FV) (a b : List (Nat × FV)) : M FV := do
  let ms := matchesOf a b
  change fun d => (d.bump (Reg.sprCnt 0) (winnowSteps (a.map (·.1)) (b.map (·.1)))).bump (Reg.sprCnt 1) ms.length
  return ms.foldl (fun v m => if m.1.isZero || m.2.isZero then v else v.add32 (matchProduct q m)) start

/-- The starting value of an output: +0, or C. -/
def spStart (e : Env) (q : SpP) (i j : Nat) : M FV :=
  if q.accC then load e q.cTensor [j, i] else pure FV.zero

/-- Rows that left their ordinary tile: those with segment tiles in the lists of the operation. -/
def hotRows (d : Dp) (uid : Nat) : List Nat :=
  ((d.lists.filter fun l => l.uid = uid).map fun l =>
    (l.entries.filter fun x => x.kind = .segment).map fun x => x.im).flatten.eraseDups

/-- Does D's form hold a position inside the rectangle, and which (R158). -/
def heldIn (e : Env) (r : SRef) (r0 r1 c0 c1 : Nat) : M (List (Nat × Nat)) := do
  let rows ← (List.range (r1 - r0)).mapM fun x => do
    let i := r0 + x
    let cs : List Nat ← match r.form with
      | 1 => do
        let l ← blockRow e r (i / 16) false
        pure ((l.map fun (c, _) => (List.range 16).map fun y => 16 * c + y).flatten)
      | _ => do pure ((← packPos e r i false).map fun y => y.1)
    return (cs.filter fun c => decide (c0 ≤ c) && decide (c < c1)).map fun c => (i, c)
  return rows.flatten

/-- The address of the value of a held position. -/
def heldAddr (e : Env) (r : SRef) (i j : Nat) : M (Option Nat) := do
  return ((← heldPlaces e r i).find? fun x => x.1 = j).map fun x => x.2

/-- The sampled path writes the places past the extent of the B16 blocks inside a rectangle +0 (R142). -/
def edgeZeros (e : Env) (r : SRef) (r0 r1 c0 c1 : Nat) : M Unit := do
  if r.form = 1 && (r1 = r.rows || c1 = r.cols) then
    for y in List.range (16 * cdiv (r1 - r0) 16) do
      for (c, a) in ← heldPlaces e r (r0 + y) do
        if decide (c0 ≤ c) && decide (c < 16 * cdiv c1 16) && (r.rows ≤ r0 + y || r.cols ≤ c) then
          put a (toLe r.es (r.conv.fmt.convert false .nearestEven FV.zero)) false

/-- K-blocks of a tile skipped on the expand path (no non-zero in any streamed row) or the block path (every block
absent). -/
def skipped (e : Env) (q : SpP) (p : SpPath) (r0 r1 c0 c1 : Nat) : M Nat := do
  let kb := q.kBlock
  let go (r : SRef) (byRow : Bool) (x0 x1 : Nat) : M Nat := do
    if p = .block then
      let hit ← (List.range (cdiv q.k kb)).mapM fun b => do
        let k0 := b * kb
        let k1 := min q.k (k0 + kb)
        let (i0, i1, j0, j1) := if byRow then (x0, x1, k0, k1) else (k0, k1, x0, x1)
        let rows ← (List.range (cdiv i1 16 - i0 / 16)).mapM fun y => bitmapRow e r (i0 / 16 + y)
        return rows.any fun l => l.any fun c => decide (j0 / 16 ≤ c) && decide (16 * c < j1)
      return (hit.filter fun h => !h).length
    else
      let ls ← (List.range (x1 - x0)).mapM fun y => kList e r byRow (x0 + y)
      return ((List.range (cdiv q.k kb)).filter fun b => !(ls.any fun l => l.any fun x => decide (x.1 / kb = b))).length
  match q.a, q.b with
  | .sparse r, .dense _ => go r (!q.ta) r0 r1
  | .dense _, .sparse r => go r q.tb c0 c1
  | _, _ => return 0

/-- A computed output of a sparse product, with whether poisoned data fed it. -/
abbrev SpVal := ((Nat × Nat) × FV) × Bool

/-- Keeps outputs as a partial: coordinates and value of each. -/
def keepVals (e : Env) (x : Entry) (vals : List SpVal) (part kib : Nat) : M Unit :=
  change fun d => { d with partials := d.partials ++
    [{ uid := e.uid, half := e.half, group := x.group, part, kib,
       data := vals.flatMap fun v => [.fin false v.1.1.1 0, .fin false v.1.1.2 0, v.1.2], bad := vals.map fun v => v.2 }] }

/-- Outputs of a crib tile leave it: into the batch of stores, or, when D is compressed on store, into a partial until
the whole view is known (R150). -/
def spDrain (e : Env) (q : SpP) (p : SpPath) (x : Entry) (tr tc arr : Nat) (vals : List SpVal) : M Unit := do
  let vs := vals.map fun v => (v.1.1, v.1.2, FV.zero)
  if vals.any fun v => v.2 then markPoisoned e
  if q.compresses p then
    drainSeen e q.gemm 0 tr tc arr vs
    keepVals e x vals 0 0
  else drain e q.gemm 0 tr tc arr vs fun c => vals.any fun v => v.1.1 = c && v.2

/-- A hot-row segment (R165): its 1,024 columns from +0, kept as a partial. -/
def segmentEntry (e : Env) (q : SpP) (x : Entry) : M Unit := do
  let (row, rowBad) ← poisonOf (winnowRow e q x.im)
  let row := (row.drop (x.part * x.batch)).take x.batch
  let vals ← (List.range (min 1024 (q.n - x.jn * 1024))).mapM fun y => do
    let j := x.jn * 1024 + y
    let (v, bad) ← poisonOf do winnowSum q FV.zero row (← winnowCol e q j)
    return (((x.im, j), v), rowBad || bad)
  keepVals e x vals x.part x.kib
  change fun d => d.bump (Reg.sprCnt 4)
  tilesDone e 1

/-- The reduce tile of a hot row and column block (R165): the partials in increasing p from +0 or C. -/
def hotReduce (e : Env) (q : SpP) (p : SpPath) (x : Entry) : M Unit := do
  let ps := ((← get).d.partials).filter fun y => y.uid = e.uid && y.group = x.group
  let mine := (List.range ps.length).filterMap fun s => ps.find? fun z => z.part = s
  let vals ← (List.range (min 1024 (q.n - x.jn * 1024))).mapM fun y => do
    let j := x.jn * 1024 + y
    let (start, bad) ← poisonOf (spStart e q x.im j)
    let v := mine.foldl (fun (v : FV) z => v.add32 (z.data.getD (3 * y + 2) FV.zero)) start
    return (((x.im, j), v), bad || mine.any fun z => z.bad.getD y false)
  change fun d => { d with partials := d.partials.filter fun y => !(y.uid = e.uid && y.group = x.group) }
  spDrain e q p x (x.im / 64) x.jn 7 vals
  flush e

/-- A Winnow tile (R161), bank by bank; hot rows have left it. -/
def winnowTile (e : Env) (q : SpP) (p : SpPath) (x : Entry) (r0 r1 c0 c1 : Nat) : M Unit := do
  let hot := hotRows (← get).d e.uid
  let rows := ((List.range (r1 - r0)).map fun y => r0 + y).filter fun i => !hot.contains i
  for b in List.range (cdiv (c1 - c0) 64) do
    let vals ← rows.mapM fun i => do
      let (row, rowBad) ← poisonOf (winnowRow e q i)
      (List.range (min 64 (c1 - c0 - 64 * b))).mapM fun y => do
        let j := c0 + 64 * b + y
        let (v, bad) ← poisonOf do winnowSum q (← spStart e q i j) row (← winnowCol e q j)
        return (((i, j), v), rowBad || bad)
    spDrain e q p x x.im x.jn 7 vals.flatten
  flush e
  tilesDone e 1

/-- Stores one computed output of the sampled path (R158): a held position is written, a non-zero elsewhere is dropped. -/
def sampledStore (e : Env) (q : SpP) (r : SRef) (tr tc arr : Nat) (held : List (Nat × Nat)) (x : SpVal) : M Unit := do
  let ((i, j), v) := x.1
  let code ← encode e r.conv r.tid (i * q.n + j) 0 false v
  let zero := (r.conv.fmt.decode code).isZero
  if held.contains (i, j) then
    if (r.conv.fmt.decode code).isNan && !v.isNan then
      nan e (.nan false) { drainOrigin e q.gemm 0 tr tc arr i j 0 with src := 1 }
    match ← heldAddr e r i j with
    | some ad => put ad (toLe r.es code) x.2
    | none => pure ()
    if !zero && r.form = 2 then change fun d => d.modUid e.uid fun o => { o with count := o.count + 1 }
  else if !zero then
    change fun d => (d.bump (Reg.sprCnt 6)).modUid e.uid fun o => { o with count2 := o.count2 + 1 }

/-- Crib tile `a` of a sparse tile whose corner is (r0, c0): its corner (R79). -/
def cribCorner (h w r0 c0 a : Nat) : Nat × Nat :=
  if h ≤ w then (r0 + 64 * (a / 4), c0 + 64 * (a % 4)) else (r0 + 64 * (a % 4), c0 + 64 * (a / 4))

/-- A tile of the sampled path: computed when D's form holds a position of it. -/
def sampledTile (e : Env) (q : SpP) (r : SRef) (mode : Mode) (x : Entry) (r0 r1 c0 c1 : Nat) : M Unit := do
  let held ← heldIn e r r0 r1 c0 c1
  if held.isEmpty then change fun d => d.bump (Reg.sprCnt 5)
  else
    let (h, w) := q.tile .sampled
    for a in List.range 4 do
      let (rr, cc) := cribCorner h w r0 c0 a
      let coords := if rr < r1 && cc < c1 then cribCoords q.m q.n rr cc else []
      let vals ← coords.mapM fun (i, j) => do
        let (v, bad) ← poisonOf do gemmAcc e q.gemm mode 0 i j 0 q.k (← spStart e q i j) FV.zero
        return (((i, j), v.1), bad)
      if vals.any fun v => v.2 then markPoisoned e
      drainSeen e q.gemm 0 x.im x.jn a (vals.map fun v => (v.1.1, v.1.2, FV.zero))
      for v in vals do sampledStore e q r x.im x.jn a held v
    edgeZeros e r r0 r1 c0 c1
    flush e
    tilesDone e 1

/-- A tile of the S24, expand, block or dense path. -/
def arrayTile (e : Env) (q : SpP) (p : SpPath) (mode : Mode) (x : Entry) (r0 r1 c0 c1 : Nat) : M Unit := do
  let n ← skipped e q p r0 r1 c0 c1
  let (h, w) := q.tile p
  for a in List.range 8 do
    let (rr, cc) := cribCorner h w r0 c0 a
    let coords := if rr < r1 && cc < c1 then cribCoords q.m q.n rr cc else []
    if !coords.isEmpty then
      let vals ← coords.mapM fun (i, j) => do
        let (v, bad) ← poisonOf do
          let start ← spStart e q i j
          if p = .dense then return (← gemmAcc e q.gemm mode 0 i j 0 q.k start FV.zero).1
          spOut e q p mode i j start
        return (((i, j), v), bad)
      spDrain e q p x x.im x.jn (a % 4) vals
  flush e
  if p = .expand || p = .block then change fun d => d.bump (Reg.sprCnt 5) n
  tilesDone e 1

/-- The work of one tile, segment or reduce entry of GEMM_SP. -/
def spEntry (e : Env) (q : SpP) (p : SpPath) (x : Entry) : M Unit := do
  let (h, w) := q.tile p
  let r0 := x.im * h
  let c0 := x.jn * w
  let r1 := min q.m (r0 + h)
  let c1 := min q.n (c0 + w)
  let mode := q.mode.getD .b16
  match x.kind, p with
  | .segment, _ => segmentEntry e q x
  | .reduce, _ => hotReduce e q p x
  | _, .winnow => winnowTile e q p x r0 r1 c0 c1
  | _, .sampled =>
    match q.d with
    | .dense _ => return ()
    | .sparse r => sampledTile e q r mode x r0 r1 c0 c1
  | _, _ => arrayTile e q p mode x r0 r1 c0 c1

/-- Reads the row counts of A for the hot-row split (R164): non-zeros per logical row. -/
def rowCounts (e : Env) (q : SpP) : M (List Nat) :=
  match q.a with
  | .sparse r => do
    let base := if q.ta then r.tcolptr else r.ptr
    let ps ← (List.range (q.m + 1)).mapM fun i => ptrAt e base i
    (List.range q.m).mapM fun i => do
      let a := ps.getD i 0
      let b := ps.getD (i + 1) 0
      if b < a then badIndex e (i + 1)
      return b - a
  | .dense _ => pure []

/-- The values of a compressing GEMM_SP's tiles, stored at the end (R150); answers the result word. -/
def spFinal (e : Env) (q : SpP) (r : SRef) : M Nat := do
  let ps := ((← get).d.partials).filter fun y => y.uid = e.uid
  let cell (i j : Nat) : FV × Bool :=
    (ps.findSome? fun y => (List.range y.bad.length).findSome? fun t =>
      if y.data.getD (3 * t) FV.zero = .fin false i 0 && y.data.getD (3 * t + 1) FV.zero = .fin false j 0 then
        some (y.data.getD (3 * t + 2) FV.zero, y.bad.getD t false)
      else none).getD (FV.zero, false)
  let (count, drops) ← compress e r q.spill (fun i j => pure (cell i j)) true
    { ring := e.ring, uid := e.uid, seq := e.seq, op := e.op, src := 1 }
  return compressWord count drops

end Work

/-- The threshold of R164. -/
def hotThreshold (thr nnz m : Nat) : Nat := min thr (4 * cdiv nnz m)

/-- The module's own order of GEMM_SP entries (Table 7.2), for the non-zero counts of A's rows where hot rows are
split. A segment carries the threshold in `batch`. -/
def spOrder (q : SpP) (p : SpPath) (hot : Option (Nat × List Nat)) : List Entry :=
  let (h, w) := q.tile p
  let tr := cdiv q.m h
  let tc := cdiv q.n w
  let tiles := ((List.range tr).map fun im => (List.range tc).map fun jn => (im, jn)).flatten
  let mk (im jn : Nat) : List Entry :=
    let g := im * tc + jn
    ({ kind := if p = .winnow then .winnow else .compute, im, jn, group := g } : Entry) ::
    (match hot with
     | none => []
     | some (t, cs) =>
       (((List.range (min h (q.m - im * h))).filter fun y => t < cs.getD (im * h + y) 0).map fun y =>
          let i := im * h + y
          let segs := cdiv (cs.getD i 0) t
          let g := tr * tc + i * tc + jn
          (List.range segs).map (fun s =>
            ({ kind := .segment, batch := t, im := i, jn, part := s, group := g, kib := 4 } : Entry)) ++
          [({ kind := .reduce, im := i, jn, group := g } : Entry)]).flatten)
  (tiles.map fun x => mk x.1 x.2).flatten

/-- May the hot rows of a GEMM_SP be split (R164): on the Winnow path, with HOT_EN as it was at dispatch, NOHOT = 0 and
reduce ways in every half of the ring. -/
def SpP.splits (q : SpP) (p : SpPath) (d : Dp) (n : Nat) (o : Outst) : Bool :=
  p = .winnow && o.hotEn && !q.noHot && (d.halvesOf n).all fun h => 1 ≤ d.redWays h

/-- The threshold and the row counts of a split, and the KiB that its largest group needs (R164, R166). -/
def SpP.hotSplit (q : SpP) (thr : Nat) (cs : List Nat) : (Nat × List Nat) × Nat :=
  let t := hotThreshold thr cs.sum q.m
  ((t, cs), 4 * ((cs.filter fun c => t < c).map fun c => cdiv c t).foldl max 0)

/-- The start of a GEMM_SP: the row counts where hot rows may be split (R164), the room of the reduce region, the
regions, the lists. -/
def startSp (n : Nat) (o : Outst) (d : Dp) : Dp :=
  let q := parseSp o.bytes
  match q.path with
  | none => d
  | some p =>
    let halves := d.halvesOf n
    let splits := q.splits p d n o
    if d.hasList o.uid then d.setPhase o.uid .running
    else
      match Dp.run (if splits then Work.rowCounts (d.envOf n o) q else pure []) Dp.atsFuel d with
      | (.error t, d) => d.meet n o (d.stokerHalf n) 0 t
      | (.ok (cs, _), d) =>
        let (hot, kib) := q.hotSplit o.hotThr cs
        let parts := Dp.divide halves (spOrder q p (if splits then some hot else none))
        match d.cribRefusal (Dp.receiving parts) (SpP.need p) (if splits then kib else 0) with
        | some w => d.finished o.uid { status := stCrib, result := w }
        | none =>
          (d.bump (Reg.sprCnt 3) (if splits then (cs.filter fun c => hot.1 < c).length else 0)).startList (SpP.need p) parts n o
            (SpP.fill p)

/-- The end of a GEMM_SP once every entry is finished: a compressed D is stored, and the result word of R170 given. -/
def endSp (n : Nat) (o : Outst) (d : Dp) : Dp :=
  let q := parseSp o.bytes
  match q.path with
  | none => d
  | some p =>
    let tiles := ((d.lists.filter fun l => l.uid = o.uid).map fun l =>
      (l.done.filter fun i => (l.entries[i]?).any fun x => x.kind ≠ .reduce).length).sum
    match q.d with
    | .dense _ => d.finished o.uid { status := stOK, result := tiles * 2 ^ 32 }
    | .sparse r =>
      if p = .sampled then
        let blocks := if r.form = 1 then Work.ptrAt (d.envOf n o) r.ptr r.br else pure o.count
        match Dp.run blocks Dp.atsFuel d with
        | (.error t, d) => d.meet n o (d.stokerHalf n) 0 t
        | (.ok (c, _), d) => d.finished o.uid { status := stOK, result := Work.compressWord c o.count2 }
      else
        match Dp.run (Work.spFinal (d.envOf n o) q r) Dp.atsFuel d with
        | (.error t, d) => d.meet n o (d.stokerHalf n) 0 t
        | (.ok (w, wk), _) => wk.d.finished o.uid { status := stOK, result := w }

/-- The refusal of a GEMM_SP whose tiles some half cannot take, or whose hot rows need more than a reduce region
(R163, R219), as it is judged at dispatch; a read of the row counts that meets trouble is met again at the start. -/
def spRefusal (c : OpCtx) (q : SpP) (d : Dp) : Option Nat :=
  match q.path with
  | none => none
  | some p =>
    let o := d.opened c
    let cs := if q.splits p d c.ring o then Dp.peek c (fun e => Work.rowCounts e q) d else none
    let hot := cs.map (q.hotSplit o.hotThr)
    let parts := Dp.divide (d.halvesOf c.ring) (spOrder q p (hot.map (·.1)))
    d.cribRefusal (Dp.receiving parts) (SpP.need p) ((hot.map (·.2)).getD 0)

/-- GEMM_SP at its dispatch (Table 5.9). -/
def opGemmSp (c : OpCtx) (d : Dp) : Dp :=
  let q := parseSp c.bytes
  Dp.judged c (SpP.bad c.bytes) .may (q.misaligned c.bytes) q.overlaps
    (fun d =>
      match spRefusal c q d with
      | some w => d.refuse c stCrib 0 w
      | none => Dp.enter c [q.d.conv] startSp d) d

/-! ### COMPRESS (R153) -/

/-- Malformed conditions of COMPRESS: byte offsets of the body, the source at slots 1–2, the destination at 3–4. -/
def compressBad (bs : List Byte) : List (Bool × Nat) :=
  let s := parseT bs 64
  let r := parseS bs 192
  ([((parseHdr bs).slots ≠ 5, 1), (2 ≤ leAt bs 16 1, 16), (!zeroAt bs 17 47, 17)] : List (Bool × Nat)) ++
  TDesc.bad bs 64 false ++ SRef.bad bs 192 ++
  (decide (s.ndim ≠ 2), 88) :: s.extsBad 64 [(0, r.cols), (1, r.rows)]

/-- The work of a compressing store of a two-dimensional tensor; answers the result word. -/
def compressWork (e : Env) (s : TDesc) (r : SRef) (spill : Bool) : M Nat := do
  let val (i j : Nat) : M (FV × Bool) := Work.poisonOf (Work.load e s [j, i])
  let (count, drops) ← Work.compress e r spill val false
    { ring := e.ring, uid := e.uid, seq := e.seq, op := e.op, src := 1 }
  return Work.compressWord count drops

/-- Runs a compressing store from source `s` into form `r`. -/
def runCompress (s : TDesc) (r : SRef) (spill : Bool) (n : Nat) (o : Outst) (d : Dp) : Dp :=
  let h := d.stokerHalf n
  match d.declareFor n o h (Dp.storedRanges o.spans) with
  | (false, d) => d
  | (true, d) =>
    match Dp.run (compressWork (d.envOf n o) s r spill) Dp.atsFuel d with
    | (.error t, d) => d.meet n o h 0 t
    | (.ok (w, wk), _) => wk.d.finished o.uid { status := stOK, result := w }

/-- The start of a COMPRESS. -/
def startCompress (n : Nat) (o : Outst) (d : Dp) : Dp :=
  runCompress (parseT o.bytes 64) (parseS o.bytes 192) ((leAt o.bytes 16 1).testBit 0) n o d

/-- Spans of a COMPRESS. -/
def compressSpans (bs : List Byte) : List Span := (parseT bs 64).spans false ++ (parseS bs 192).spans true

/-- COMPRESS at its dispatch. -/
def opCompress (c : OpCtx) (d : Dp) : Dp :=
  let s := parseT c.bytes 64
  let r := parseS c.bytes 192
  Dp.judged c (compressBad c.bytes) .may (s.misaligned || r.misaligned)
    (Dp.selfOverlap (r.spans true) (s.spans false)) (Dp.enter c [r.conv] startCompress) d

end Sys2Proof.Machine
end

