-- ==== Sys2Proof/Machine/Copy.lean ====
section
/-!
DEFINITION. COPY, GATHER and SCATTER_ADD (R127–R137): their checks, the index scan and pre-pass, and the work of a
tile of 4,096 elements.
-/
namespace Sys2Proof.Machine

/-- The entries of an operation in tiles of 4,096 elements of a tensor, in increasing e (Table 7.2). -/
def elementTiles (count : Nat) : List Entry :=
  (List.range (cdiv count 4096)).map fun k => { kind := .compute, part := k, group := k }

/-- Refuses when a half that would receive tiles of `t` has no eligible tiller (R214). -/
def Dp.elementJudged (c : OpCtx) (t : TDesc) (go : Dp → Dp) (d : Dp) : Dp :=
  Dp.cribJudged c (Dp.receiving (Dp.divide (d.halvesOf c.ring) (elementTiles t.count))) 0 0 go d

/-- The element indexes of tile `k`. -/
def tileElems (t : TDesc) (k : Nat) : List Nat := (List.range (min 4096 (t.count - 4096 * k))).map (4096 * k + ·)

/-- The origin of a NaN at the store conversion of element `i` of a tensor. -/
def elemOrigin (e : Env) (t : TDesc) (tile i : Nat) : Dp.Origin :=
  { ring := e.ring, uid := e.uid, seq := e.seq, op := e.op, src := 1, tiller := e.tiller, tileRow := tile,
    row := i / max 1 (t.n 0), col := i % max 1 (t.n 0), idx := i }

/-- Positions a store writes: data, and padding under PAD_WRITE = 1 that no data position covers (R129). -/
def positions (t : TDesc) : Nat :=
  ((List.range t.count).filter fun i =>
    let c := t.coord i
    !t.isPad c || (t.padWrite && !((t.addr c true).any t.dataAt))).length

/-! ### COPY -/

/-- Has the COPY a sparse destination. -/
def copyCmp (bs : List Byte) : Bool := (leAt bs 16 1).testBit 0
/-- Has the COPY no source. -/
def copyFill (bs : List Byte) : Bool := (leAt bs 16 1).testBit 1

/-- D under CMP = 1 (R153): two dimensions, extents of the reference, its conversion word and identifier, every
other field zero. -/
def copyCmpBad (bs : List Byte) : List (Bool × Nat) :=
  let r := parseS bs 320
  let t := parseT bs 192
  [(leAt bs 200 4 ≠ leAt bs 320 4, 200), (t.tid ≠ r.tid, 204), (leAt bs 216 1 ≠ 2, 216),
   (leAt bs 224 4 ≠ r.cols, 224), (leAt bs 228 4 ≠ r.rows, 228), (!zeroAt bs 192 8, 192), (!zeroAt bs 208 8, 208),
   (!zeroAt bs 217 7, 217), (!zeroAt bs 232 88, 232)]

/-- Malformed conditions of COPY (Table 4.10). -/
def copyBad (bs : List Byte) : List (Bool × Nat) :=
  let s := parseT bs 64
  ([((parseHdr bs).slots ≠ (if copyCmp bs then 7 else 5), 1), (4 ≤ leAt bs 16 1, 16), (!zeroAt bs 17 3, 17),
    (!copyFill bs && leAt bs 20 4 ≠ 0, 20), (!zeroAt bs 24 40, 24), (copyFill bs && !zeroAt bs 64 128, 64)] :
      List (Bool × Nat)) ++
  (if copyFill bs then [] else TDesc.bad bs 64 false) ++
  (if copyCmp bs then
    SRef.bad bs 320 ++ copyCmpBad bs ++
    (if copyFill bs then [] else
      let r := parseS bs 320
      (decide (s.ndim ≠ 2), 88) :: s.extsBad 64 [(0, r.cols), (1, r.rows)])
  else TDesc.bad bs 192 true ++ (if copyFill bs then [] else s.sameShape (parseT bs 192) 192))

/-- Source spans of a COPY. -/
def copyIns (bs : List Byte) : List Span := if copyFill bs then [] else (parseT bs 64).spans false

/-- Destination spans of a COPY. -/
def copyOuts (bs : List Byte) : List Span :=
  if copyCmp bs then (parseS bs 320).spans true else (parseT bs 192).spans true

/-- Spans of a COPY. -/
def copySpans (bs : List Byte) : List Span := copyIns bs ++ copyOuts bs

/-- The same place in memory (R129): the conversion in place is allowed. -/
def copyInPlace (bs : List Byte) : Bool :=
  let s := parseT bs 64
  let t := parseT bs 192
  let mx (x : TDesc) := x.conv.mx
  s.base = t.base && s.ext = t.ext && s.stride = t.stride && s.padB = t.padB && s.padA = t.padA && s.rev = t.rev &&
  s.rotEn = t.rotEn && s.rotDim = t.rotDim && s.rotAmt = t.rotAmt && s.winEn = t.winEn && s.winDim = t.winDim &&
  s.winSrc = t.winSrc && s.winStep = t.winStep && s.winDil = t.winDil && s.esize = t.esize &&
  s.span false = t.span true && (!(mx s && mx t) || s.scaleBase = t.scaleBase)

/-- The OVERLAP condition of COPY. -/
def copyOverlaps (bs : List Byte) : Bool :=
  if !copyCmp bs && !copyFill bs && copyInPlace bs then
    let s := parseT bs 64
    let t := parseT bs 192
    let el (x : TDesc) (st : Bool) := ((x.span st).map fun y => (⟨y.1, y.2, st, x.slot⟩ : Span)).toList
    let sc (x : TDesc) (st : Bool) := (x.scaleSpan.map fun y => (⟨y.1, y.2, st, x.slot⟩ : Span)).toList
    (el t true).any (fun a => (sc s false ++ sc t true).any a.meets) ||
    (sc t true).any (fun a => (el s false).any a.meets)
  else Dp.selfOverlap (copyOuts bs) (copyIns bs)

/-- Keeps what stands in the places of a batch before it is written: every element of a COPY in place, and every scale of
an MX block, is read before it is written, whichever tile holds it and however often it runs (R129). -/
def Work.keepCells (e : Env) : M Unit := do
  let new := ((← get).cells.map (·.dva)).filter fun a => !(e.kept.any fun x => x.1 = a)
  let old ← new.eraseDups.mapM fun a => do
    let (b, bad) ← poisonOf (readByte e a)
    return (a, b, bad)
  change fun d => d.modOutst e.ring e.uid fun o => { o with kept := o.kept ++ old }

/-- The work of a COPY tile. -/
def copyEntry (e : Env) (bs : List Byte) (k : Nat) : M Unit := do
  let s := parseT bs 64
  let t := parseT bs 192
  let src (c : List Nat) : M FV :=
    if copyFill bs then pure (FV.of32 (leAt bs 20 4)) else Work.load e s c
  for i in tileElems t k do
    let c := t.coord i
    let written := !t.isPad c || t.padWrite
    if written then
      let (_, bad) ← Work.poisonOf (if t.isPad c then pure FV.zero else src c)
      if bad then Work.markPoisoned e
      Work.storeAt e t src c bad false (elemOrigin e t k i)
  if !copyFill bs && copyInPlace bs then Work.keepCells e
  Work.flush e

/-- The value of a filled COPY into a sparse form. -/
def fillCompress (e : Env) (r : SRef) (v : FV) : M Nat := do
  let (count, drops) ← Work.compress e r false (fun _ _ => pure (v, false)) false
    { ring := e.ring, uid := e.uid, seq := e.seq, op := e.op, src := 1 }
  return Work.compressWord count drops

/-- The start of a COPY: its tiles, or the compressing store of CMP = 1. -/
def startCopy (n : Nat) (o : Outst) (d : Dp) : Dp :=
  let bs := o.bytes
  if copyCmp bs then
    if copyFill bs then
      let h := d.stokerHalf n
      match d.declareFor n o h (Dp.storedRanges o.spans) with
      | (false, d) => d
      | (true, d) =>
        match Dp.run (fillCompress (d.envOf n o) (parseS bs 320) (FV.of32 (leAt bs 20 4))) Dp.atsFuel d with
        | (.error t, d) => d.meet n o h 0 t
        | (.ok (w, wk), _) => wk.d.finished o.uid { status := stOK, result := w }
    else runCompress (parseT bs 64) (parseS bs 320) false n o d
  else if d.hasList o.uid then d.setPhase o.uid .running
  else
    let t := parseT bs 192
    d.startList 0 (Dp.divide (d.halvesOf n) (elementTiles t.count)) n o

/-- COPY at its dispatch (Table 4.10). -/
def opCopy (c : OpCtx) (d : Dp) : Dp :=
  let bs := c.bytes
  let align := (!copyFill bs && (parseT bs 64).misaligned) ||
    (if copyCmp bs then (parseS bs 320).misaligned else (parseT bs 192).misaligned)
  Dp.judged c (copyBad bs) .may align (copyOverlaps bs)
    (fun d =>
      let go := Dp.enter c [if copyCmp bs then (parseS bs 320).conv else (parseT bs 192).conv] startCopy
      if copyCmp bs then go d else Dp.elementJudged c (parseT bs 192) go d) d

/-! ### GATHER and SCATTER_ADD -/

/-- The body of Table 4.8. -/
structure IdxP where
  base : Nat
  count : Nat
  fmt : Nat
  policy : Nat
  gdim : Nat
  fill : Nat
  s : TDesc
  t : TDesc
  deriving DecidableEq, Repr

/-- Reads a GATHER or SCATTER_ADD descriptor. -/
def parseIdx (bs : List Byte) : IdxP :=
  let b := leAt bs 28 1
  { base := leAt bs 16 8, count := leAt bs 24 4, fmt := b % 4, policy := natFld b 3 2, gdim := natFld b 6 4,
    fill := leAt bs 32 4, s := parseT bs 64, t := parseT bs 192 }

namespace IdxP

/-- Bytes of an index. -/
def width (q : IdxP) : Nat := if q.fmt = 0 then 4 else 8

/-- The indexed tensor and the other one (R131). -/
def indexed (q : IdxP) (gather : Bool) : TDesc × TDesc := if gather then (q.s, q.t) else (q.t, q.s)

/-- Malformed conditions of GATHER and SCATTER_ADD (Tables 4.8, 4.10; R131). -/
def bad (gather : Bool) (bs : List Byte) : List (Bool × Nat) :=
  let q := parseIdx bs
  let (x, y) := q.indexed gather
  let (xo, yo) := if gather then (64, 192) else (192, 64)
  ([((parseHdr bs).slots ≠ 5, 1), (q.count = 0, 24), (2 ≤ q.fmt || 128 ≤ leAt bs 28 1 || x.ndim ≤ q.gdim, 28),
    (!zeroAt bs 29 3, 29), (!gather && q.fill ≠ 0, 32), (!zeroAt bs 36 28, 36)] : List (Bool × Nat)) ++
  TDesc.bad bs 64 false ++ TDesc.bad bs 192 true ++
  (if q.gdim < x.ndim then x.padsAt xo q.gdim else []) ++
  ([(q.gdim < x.ndim && (x.winFirst q.gdim || x.winSecond q.gdim), xo + 27),
    (!gather && q.t.conv.mx, 200), (y.ndim ≠ x.ndim, yo + 24)] : List (Bool × Nat)) ++
  (List.range 6).map fun d =>
    (decide (y.n d ≠ (if d = q.gdim then q.count else x.n d)) && decide (d < x.ndim), yo + 32 + 4 * d)

/-- The ALIGN conditions. -/
def misaligned (q : IdxP) : Bool := q.s.misaligned || q.t.misaligned || q.base % q.width ≠ 0

/-- The span of the index list. -/
def listSpan (q : IdxP) : Span := arraySpan q.base (q.count * q.width) false

/-- Spans of the descriptor. -/
def spans (q : IdxP) : List Span := q.s.spans false ++ [q.listSpan] ++ q.t.spans true

/-- The OVERLAP condition. -/
def overlaps (q : IdxP) : Bool := Dp.selfOverlap (q.t.spans true) (q.listSpan :: q.s.spans false)

/-- An index resolved (Table 4.9): the entry, or none when it resolves to FAULT_INDEX; `none` inside for a skip.
The number tells what it counts as: 0 nothing, 1 skipped, 2 clamped or wrapped. -/
def resolve (q : IdxP) (n : Nat) (x : Int) : Option (Option Nat × Nat) :=
  if 0 ≤ x && x < n then some (some x.toNat, 0)
  else
    match q.policy with
    | 1 => some (none, 1)
    | 2 => some (some (if x < 0 then 0 else n - 1), 2)
    | 3 => if x < 0 && -(n : Int) ≤ x then some (some (x + n).toNat, 2) else none
    | _ => none

end IdxP

namespace Work

/-- Reads and resolves the whole index list (R135), in the order of Table 4.10: a mark of poison; else the least
position that resolves to FAULT_INDEX; else the first failed translation; else the resolved entries with their
counts. -/
def scanIndexes (e : Env) (q : IdxP) (n : Nat) : M (List (Option Nat × Nat) × Bool) := do
  let (raw, bad) ← poisonOf ((List.range q.count).mapM fun i => tried (readNat e (q.base + i * q.width) q.width))
  if bad then return ([], true)
  let got := raw.map fun x => x.map fun b => q.resolve n (signed (8 * q.width) b)
  match got.findIdx? fun x => x matches .ok none with
  | some i => trouble (.halt { status := stIndex, detail := 0, ofs := i, space := e.space })
  | none =>
    let out ← got.mapM fun x =>
      match x with
      | .ok y => pure (y.getD (none, 0))
      | .error t => trouble t
    return (out, false)

end Work

/-- The slice of a GATHER's destination at list position `i`, or of the target at index `x`: coordinates of a
tensor whose coordinate in the indexed dimension is given. -/
def sliceCoords (t : TDesc) (gdim x : Nat) : List (List Nat) :=
  ((List.range t.count).map t.coord).filter fun c => TDesc.at0 c gdim = x

/-- The result word of R134. -/
def idxResult (l : List (Option Nat × Nat)) : Nat :=
  let k (x : Nat) : Nat := (l.filter fun y => y.2 = x).length
  k 1 % 2 ^ 32 + k 2 % 2 ^ 32 * 2 ^ 32

/-- The work of a GATHER tile (R132). -/
def gatherEntry (e : Env) (q : IdxP) (res : List (Option Nat)) (k : Nat) : M Unit := do
  let src (c : List Nat) : M FV :=
    match res.getD (TDesc.at0 c q.gdim) none with
    | some x => Work.load e q.s (c.set q.gdim x)
    | none => pure (FV.of32 q.fill)
  for i in tileElems q.t k do
    let c := q.t.coord i
    if !q.t.isPad c || q.t.padWrite then
      let (_, bad) ← Work.poisonOf (if q.t.isPad c then pure FV.zero else src c)
      if bad then Work.markPoisoned e
      Work.storeAt e q.t src c bad false (elemOrigin e q.t k i)
  Work.flush e

/-- The work of a SCATTER_ADD tile (R133): every selected target of the tile takes its contributions in list order. -/
def scatterEntry (e : Env) (q : IdxP) (res : List (Option Nat)) (k : Nat) : M Unit := do
  for i in tileElems q.t k do
    let c := q.t.coord i
    let mine := (List.range res.length).filter fun j => decide (res.getD j none = some (TDesc.at0 c q.gdim))
    if !mine.isEmpty && (!q.t.isPad c || q.t.padWrite) then
      let (v, bad) ← Work.poisonOf do
        if q.t.isPad c then pure FV.zero
        else
          let start ← Work.load e q.t c
          mine.foldlM (fun (v : FV) j => do return v.add32 (← Work.load e q.s (c.set q.gdim j))) start
      if bad then Work.markPoisoned e
      Work.storeAt e q.t (fun _ => pure v) c bad false (elemOrigin e q.t k i)
  Work.flush e

/-- The 4 KiB pages a tensor's element at coordinate `c` touches, with its scale byte's; a padding position of a load
touches none (R118). An element lies within one page (R113). -/
def pagesOf (e : Env) (t : TDesc) (c : List Nat) (write : Bool) : M (List Nat) := do
  match t.addr c (write && t.padWrite) with
  | none => return []
  | some a =>
    let a ← Work.checked e a t.esize t.base write
    let sc ← if t.conv.mx && !t.isPad c then do pure [← Work.checked e (t.scaleAddr c) 1 t.scaleBase write] else pure []
    return ((a :: sc).map (· / 4096)).eraseDups

/-- The pre-pass of a SCATTER_ADD (R135): every page of its targets and sources translated, at the list position
that needs it first. -/
def prePass (e : Env) (q : IdxP) (res : List (Option Nat)) : M (List (Nat × Nat × Bool)) :=
  (List.range res.length).foldlM (fun (acc : List (Nat × Nat × Bool)) i => do
    match res.getD i none with
    | none => return acc
    | some x =>
      let src ← (sliceCoords q.s q.gdim i).mapM fun c => pagesOf e q.s c false
      let dst ← (sliceCoords q.t q.gdim x).mapM fun c => pagesOf e q.t c true
      let pages := (src.flatten.map (·, false) ++ dst.flatten.map (·, true)).eraseDups
      pages.foldlM (fun (acc : List (Nat × Nat × Bool)) p => do
        if acc.any fun y => y.1 = p.1 && !p.2 then return acc
        let d := (← get).d
        match d.translate e.space (p.1 * 4096) p.2 e.sheaf.isSome with
        | .ok (.dev a) => return (p.1, a, false) :: acc.filter fun y => y.1 ≠ p.1
        | .ok (.host a) => return (p.1, a, true) :: acc.filter fun y => y.1 ≠ p.1
        | .error t => Work.trouble t) acc) []

/-- The least list position whose slices need a page that does not translate (R135). -/
def prePassPos (e : Env) (q : IdxP) (res : List (Option Nat)) (d : Dp) : Nat :=
  ((List.range res.length).find? fun i =>
    match ((prePass e q (res.take (i + 1))).run { d }).1 with
    | .ok _ => false
    | .error _ => true).getD 0

/-- The start of a GATHER: the index scan, the regions, the tiles. -/
def startGather (n : Nat) (o : Outst) (d : Dp) : Dp :=
  let q := parseIdx o.bytes
  if d.hasList o.uid then d.setPhase o.uid .running
  else
    match Dp.run (Work.scanIndexes (d.envOf n o) q (TDesc.at0 q.s.ext q.gdim)) Dp.atsFuel d with
    | (.error t, d) => d.meet n o (d.stokerHalf n) 0 t
    | (.ok ((_, true), _), d) => d.finished o.uid { status := stPoisoned }
    | (.ok ((l, false), _), d) =>
      let d := d.modOutst n o.uid fun o => { o with resolved := l.map (·.1), count := idxResult l }
      d.startList 0 (Dp.divide (d.halvesOf n) (elementTiles q.t.count)) n o

/-- The start of a SCATTER_ADD: the index scan, the regions, the pre-pass, the tiles. -/
def startScatter (n : Nat) (o : Outst) (d : Dp) : Dp :=
  let q := parseIdx o.bytes
  let h := d.stokerHalf n
  if d.hasList o.uid then d.setPhase o.uid .running
  else
    match Dp.run (Work.scanIndexes (d.envOf n o) q (TDesc.at0 q.t.ext q.gdim)) Dp.atsFuel d with
    | (.error t, d) => d.meet n o h 0 t
    | (.ok ((_, true), _), d) => d.finished o.uid { status := stPoisoned }
    | (.ok ((l, false), _), d) =>
      match d.declareFor n o h (Dp.storedRanges o.spans) with
      | (false, d) => d
      | (true, d) =>
        match Dp.run (prePass (d.envOf n o) q (l.map (·.1))) Dp.atsFuel d with
        | (.error t, d) => d.meet n o h (prePassPos (d.envOf n o) q (l.map (·.1)) d) t
        | (.ok (held, _), d) =>
          let d := d.modOutst n o.uid fun o => { o with resolved := l.map (·.1), count := idxResult l, held }
          (d.addLists n o.uid 0 (Dp.divide (d.halvesOf n) (elementTiles q.t.count))).setPhase o.uid .running

/-- GATHER at its dispatch. -/
def opGather (c : OpCtx) (d : Dp) : Dp :=
  let q := parseIdx c.bytes
  Dp.judged c (IdxP.bad true c.bytes) .may q.misaligned q.overlaps
    (Dp.elementJudged c q.t (Dp.enter c [q.t.conv] startGather)) d

/-- SCATTER_ADD at its dispatch. -/
def opScatter (c : OpCtx) (d : Dp) : Dp :=
  let q := parseIdx c.bytes
  Dp.judged c (IdxP.bad false c.bytes) .may q.misaligned q.overlaps
    (Dp.elementJudged c q.t (Dp.enter c [q.t.conv] startScatter)) d

/-- The saved element offset of a halted COPY or GATHER (R127): the least element of D, or the least list position,
that has not been written; every entry from there on runs again. -/
def copyOffset (o : Outst) (l : List EList) : Nat :=
  let mine := l.filter fun x => x.uid = o.uid
  let undone := (mine.map fun x => (List.range x.entries.length).filterMap fun i =>
    if x.done.contains i then none else (x.entries[i]?).map fun y => y.part).flatten
  let k := undone.foldl min (undone.headD 0)
  if o.op = 0x15 then
    let q := parseIdx o.bytes
    let es := (undone.map fun k => (tileElems q.t k).map fun i => TDesc.at0 (q.t.coord i) q.gdim).flatten
    es.foldl min (es.headD 0)
  else 4096 * k

end Sys2Proof.Machine
end

