-- ==== Sys2Proof/Machine/Masks.lean ====
section
/-!
DEFINITION. The mask engines (R174–R194): PRUNE, REGROW and REMASK. A mask operation reads the committed form and
its key sources, ranks, rebuilds every array of the shard, and writes shadow lines of its sheaf.
-/
namespace Sys2Proof.Machine

/-- A companion entry (Table 6.6). -/
structure Comp where
  base : Nat
  code : Nat
  role : Nat
  keep : Bool
  deriving DecidableEq, Repr

/-- Bytes of a companion's entry. -/
def Comp.fmt (c : Comp) : Fmt := ((fmtOf c.code).getD (.fp32, false)).1

/-- A mask descriptor (Table 6.5). -/
structure MaskP where
  pCrit : Nat
  gCrit : Nat
  thresh : Bool
  rowScope : Bool
  srcW : Bool
  unscale : Bool
  gNz : Bool
  regrowPruned : Bool
  init : Bool
  radv : Bool
  stream : Nat
  k : Nat
  pThr : Nat
  gThr : Nat
  initValue : Nat
  maskBase : Nat
  r : SRef
  p : TDesc
  g : TDesc
  comps : List Comp
  deriving DecidableEq, Repr

/-- Reads companion entry `i` of slot 7. -/
def parseComp (bs : List Byte) (i : Nat) : Comp :=
  let o := 448 + 16 * i
  { base := leAt bs o 8, code := leAt bs (o + 8) 1 % 16, role := leAt bs (o + 9) 1 % 4,
    keep := (leAt bs (o + 9) 1).testBit 2 }

/-- Reads a mask descriptor. -/
def parseMask (bs : List Byte) : MaskP :=
  let b := leAt bs 16 1
  let c := leAt bs 17 1
  { pCrit := b % 4, gCrit := natFld b 3 2, thresh := b.testBit 4, rowScope := b.testBit 5, srcW := b.testBit 6,
    unscale := b.testBit 7, gNz := c.testBit 0, regrowPruned := c.testBit 1, init := c.testBit 2, radv := c.testBit 3,
    stream := leAt bs 18 2 % 4096, k := leAt bs 20 4, pThr := leAt bs 24 4, gThr := leAt bs 28 4,
    initValue := leAt bs 32 4, maskBase := leAt bs 40 8, r := parseS bs 64, p := parseT bs 192, g := parseT bs 320,
    comps := ((List.range 4).map (parseComp bs)).filter fun c => c.base ≠ 0 }

/-- The three mask opcodes. -/
inductive MaskOp where
  | prune | regrow | remask
  deriving DecidableEq, Repr

namespace MaskP

/-- Entries of the form's value array (Table 5.3, R140, R142). -/
def valEntries (q : MaskP) : Nat :=
  match q.r.form with
  | 0 => q.r.rows * 2 * q.r.groups
  | 1 => 256 * q.r.cap
  | _ => q.r.cap

/-- Does the operation draw random words (R181). -/
def random (q : MaskP) (op : MaskOp) : Bool := op ≠ .prune && q.r.form ≠ 0 && q.gCrit = 1

/-- Does the operation prune by a source in slots 3–4. -/
def usesP (q : MaskP) (op : MaskOp) : Bool := op ≠ .regrow && q.pCrit ≠ 0
/-- Does it regrow by a source in slots 5–6. -/
def usesG (q : MaskP) (op : MaskOp) : Bool := op ≠ .prune && q.gCrit ≠ 1 && q.r.form ≠ 0

/-- A key source's shape: dense ROWS × COLS, or one dimension in non-zero order (R182). -/
def srcBad (q : MaskP) (t : TDesc) (nz : Bool) (o : Nat) : List (Bool × Nat) :=
  if nz then [(t.ndim ≠ 1, o + 24), (t.n 0 ≠ q.valEntries, o + 32)]
  else (decide (t.ndim ≠ 2), o + 24) :: t.extsBad o [(0, q.r.cols), (1, q.r.rows)]

/-- Malformed conditions (Table 6.7). -/
def bad (op : MaskOp) (bs : List Byte) : List (Bool × Nat) :=
  let q := parseMask bs
  let s24 := q.r.form = 0
  let comp (i : Nat) : List (Bool × Nat) :=
    let o := 448 + 16 * i
    let c := parseComp bs i
    if c.base = 0 then [(!zeroAt bs (o + 8) 8, o + 8)]
    else [(!([2, 3, 4].contains (leAt bs (o + 8) 1)), o + 8), (c.role = 3 || 8 ≤ leAt bs (o + 9) 1 || (op = .prune && c.keep), o + 9),
          (!zeroAt bs (o + 10) 6, o + 10)]
  let masters := (q.comps.filter fun c => c.role = 0).length
  ([((parseHdr bs).slots ≠ 8, 1),
    (q.pCrit = 3 || q.gCrit = 3 || (op = .regrow && q.pCrit ≠ 0) || (op = .prune && q.gCrit ≠ 0), 16),
    (s24 && (op ≠ .remask || q.pCrit ≠ 2 || q.gCrit = 1 || q.thresh || q.rowScope || q.srcW || q.unscale), 16),
    (op ≠ .prune && !s24 && q.gCrit = 1 && q.thresh, 16),
    (q.srcW && (op = .regrow || q.pCrit = 2 || masters ≠ 1), 16),
    (q.unscale && !(op ≠ .regrow && q.pCrit = 1) && !(op ≠ .prune && q.gCrit = 0), 16),
    (16 ≤ leAt bs 17 1 || (op ≠ .remask && q.regrowPruned) || (op = .prune && q.init) ||
      (op = .regrow && q.gNz) || (q.gNz && q.pCrit ≠ 1) || (s24 && q.regrowPruned) || (!q.random op && q.radv), 17),
    (4096 ≤ leAt bs 18 2 || (!q.random op && q.stream ≠ 0), 18), (s24 && q.k ≠ 0, 20),
    (!(op ≠ .regrow && q.thresh) && q.pThr ≠ 0, 24), (!(op = .regrow && q.thresh) && q.gThr ≠ 0, 28),
    (!q.init && q.initValue ≠ 0, 32), (!zeroAt bs 36 4, 36), (!zeroAt bs 48 16, 48), (1 < masters, 457)] :
      List (Bool × Nat)) ++
  SRef.bad bs 64 ++
  (if q.usesP op then TDesc.bad bs 192 false ++ q.srcBad q.p (q.gNz && q.pCrit = 1) 192
   else [(!zeroAt bs 192 128, 192)]) ++
  (if q.usesG op then TDesc.bad bs 320 false ++ q.srcBad q.g false 320 else [(!zeroAt bs 320 128, 320)]) ++
  comp 0 ++ comp 1 ++ comp 2 ++ comp 3

/-- The ALIGN conditions. -/
def misaligned (q : MaskP) (op : MaskOp) : Bool :=
  q.r.misaligned || (q.usesP op && q.p.misaligned) || (q.usesG op && q.g.misaligned) || q.maskBase % 64 ≠ 0 ||
  q.comps.any fun c => c.base % 64 ≠ 0

/-- Bytes of the mask bitmap (R175). -/
def bitmapBytes (q : MaskP) : Nat := cdiv (q.r.rows * q.r.cols) 64 * 8

/-- Written spans. -/
def outs (q : MaskP) : List Span :=
  (q.r.spans true).map (fun s => { s with stored := true }) ++
  (if q.maskBase ≠ 0 then [arraySpan q.maskBase q.bitmapBytes true] else []) ++
  q.comps.map fun c => arraySpan c.base (q.valEntries * c.fmt.size) true 7

/-- The ranges of the arrays a mask operation writes, for a form of `n` units and `segs` segments (R186): the whole of a
fixed-size array, and of one sized by CAP what the new form uses. -/
def ranges (q : MaskP) (n segs : Nat) : List (Nat × Nat) :=
  let r := q.r
  let per := if r.form = 1 then 256 else 1
  let arrays : List (Nat × Nat) :=
    (match r.form with
     | 0 => r.valArray :: r.idxArrays
     | 1 => (r.val, 256 * n * r.es) :: r.idxArrays
     | _ => [(r.val, n * r.es), (r.idx, 2 * n), (r.ptr, 8 * (r.rows + 1)), (r.seg, 8 * segs),
             (r.segptr, 8 * (r.rows + 1))] ++
        (if r.tidx then [(r.tcolptr, 8 * (r.cols + 1)), (r.trow, 4 * n), (r.tperm, 4 * n)] else [])) ++
    (if q.maskBase ≠ 0 then [(q.maskBase, q.bitmapBytes)] else []) ++
    q.comps.map fun c => (c.base, per * n * c.fmt.size)
  (arrays.filter fun a => a.2 ≠ 0).map fun a => (a.1, a.1 + a.2)

/-- The ranges known before the form is read. -/
def fixedRanges (q : MaskP) : List (Nat × Nat) := q.ranges (if q.r.form = 0 then q.valEntries else 0) 0

/-- Read spans. -/
def ins (q : MaskP) (op : MaskOp) : List Span :=
  (if q.usesP op then q.p.spans false else []) ++ (if q.usesG op then q.g.spans false else [])

end MaskP

/-- Spans of a mask descriptor. -/
def maskSpans (op : MaskOp) (bs : List Byte) : List Span := (parseMask bs).outs ++ (parseMask bs).ins op

/-! ### Ranking (R178) -/

/-- A mask unit: an element, or a 16 × 16 block, with its place in the value array when the form holds it. -/
structure MUnit where
  row : Nat
  col : Nat
  e : Nat
  pos : Option Nat
  key : FV
  deriving DecidableEq, Repr

/-- Does `a` rank before `b`. -/
def MUnit.before (a b : MUnit) : Bool :=
  if a.key.isNan then (if b.key.isNan then a.e < b.e else true)
  else if b.key.isNan then false
  else if b.key.lt a.key then true
  else if a.key.lt b.key then false
  else a.e < b.e

/-- The `k` first-ranked units, in the order given. -/
def firstRanked (k : Nat) (l : List MUnit) : List MUnit := l.filter fun u => (l.filter fun v => v.before u).length < k

/-- The `k` last-ranked units. -/
def lastRanked (k : Nat) (l : List MUnit) : List MUnit := l.filter fun u => (l.filter fun v => u.before v).length < k

/-- The pruned and regrown units of one scope (R179, R180). `regrowKey` re-keys a pruned unit as a regrow candidate. -/
def selectScope (q : MaskP) (op : MaskOp) (held outside : List MUnit) (asRegrow : MUnit → MUnit) :
    List MUnit × List MUnit :=
  let cap (n : Nat) : Nat := if q.k = 0 then n else min q.k n
  let below := held.filter fun u => u.key.lt (FV.of32 q.pThr)
  let above := outside.filter fun u => u.key.isNan || (FV.of32 q.gThr).lt u.key
  match op with
  | .prune => (if q.thresh then lastRanked (cap below.length) below else lastRanked q.k held, [])
  | .regrow => ([], if q.thresh then firstRanked (cap above.length) above else firstRanked q.k outside)
  | .remask =>
    let pool := if q.thresh then lastRanked (cap below.length) below else lastRanked q.k held
    let n := if q.regrowPruned then pool.length else min pool.length outside.length
    let pruned := lastRanked n pool
    let cand := outside ++ (if q.regrowPruned then pruned.map asRegrow else [])
    (pruned, firstRanked n cand)

namespace Work

/-- The value of companion `c` at position `p`. -/
def compAt (e : Env) (c : Comp) (p : Nat) : M FV := do
  return c.fmt.decode (← readNat e (c.base + p * c.fmt.size) c.fmt.size)

/-- The weight at value position `p` (R177). -/
def weightAt (e : Env) (q : MaskP) (p : Nat) : M FV :=
  if q.srcW then
    match q.comps.find? fun c => c.role = 0 with
    | some c => compAt e c p
    | none => pure FV.zero
  else valAt e q.r p

/-- The prune key of one held element (Table 6.2). -/
def pruneKey (e : Env) (q : MaskP) (i j p : Nat) : M FV := do
  match q.pCrit with
  | 0 => return (← weightAt e q p).abs
  | 1 =>
    let w ← weightAt e q p
    let g ← if q.gNz then load e q.p [p] else load e q.p [j, i]
    let g := if q.unscale then (g.scale (-e.lsExp)).r32 else g
    return (w.mul32 g).abs
  | _ => load e q.p [j, i]

/-- The regrow key of one element. -/
def regrowKey (e : Env) (q : MaskP) (i j : Nat) : M FV := do
  match q.gCrit with
  | 0 =>
    let g ← load e q.g [j, i]
    return (if q.unscale then (g.scale (-e.lsExp)).r32 else g).abs
  | 1 =>
    let idx := i * q.r.cols + j
    let w := match e.streams.find? fun s => s.stream = q.stream with
      | some s => srWord s.key s.ctr (q.r.tid ^^^ 0x80000000) idx
      | none => 0
    return .fin false w 0
  | _ => load e q.g [j, i]

/-- The elements of a unit inside the extent, row-major, with their offset in the block. -/
def unitElems (q : MaskP) (row col : Nat) : List (Nat × Nat × Nat) :=
  if q.r.form = 1 then
    (List.range 256).filterMap fun x =>
      let i := 16 * row + x / 16
      let j := 16 * col + x % 16
      if i < q.r.rows && j < q.r.cols then some (i, j, x) else none
  else [(row, col, 0)]

/-- The key of a unit: the element's, or for a block the FP32 sum of its elements' (Table 6.1). RANDOM draws one
word, by the block's first element (R181). -/
def unitKey (q : MaskP) (random : Bool) (row col : Nat) (key : Nat → Nat → Nat → M FV) : M FV := do
  if q.r.form = 1 && !random then
    (unitElems q row col).foldlM (fun (v : FV) x => do return v.add32 (← key x.1 x.2.1 x.2.2)) FV.zero
  else
    match unitElems q row col with
    | (i, j, x) :: _ => key i j x
    | [] => return FV.zero

/-- A held unit, keyed for pruning. -/
def heldUnit (e : Env) (q : MaskP) (row col pos : Nat) (keyed : Bool) : M MUnit := do
  let base := if q.r.form = 1 then 256 * pos else pos
  let key ← if keyed then unitKey q false row col fun i j x => pruneKey e q i j (base + x) else pure FV.zero
  let e0 := if q.r.form = 1 then 16 * row * q.r.cols + 16 * col else row * q.r.cols + col
  return { row, col, e := e0, pos := some pos, key }

/-- A unit keyed for regrowth. -/
def freeUnit (e : Env) (q : MaskP) (row col : Nat) (pos : Option Nat) : M MUnit := do
  let key ← unitKey q (q.gCrit = 1) row col fun i j _ => regrowKey e q i j
  let e0 := if q.r.form = 1 then 16 * row * q.r.cols + 16 * col else row * q.r.cols + col
  return { row, col, e := e0, pos, key }

/-- Held positions of one row (or block row) of the old form: column (or block column) and place (R174). -/
def oldRow (e : Env) (q : MaskP) (i : Nat) : M (List (Nat × Nat)) :=
  match q.r.form with
  | 0 => do
    let cs ← s24Cols e q.r i
    return (List.range cs.length).map fun p => (cs.getD p 0, i * 2 * q.r.groups + p)
  | 1 => blockRow e q.r i
  | _ => packPos e q.r i

/-- The old form; an invalid one halts before a failed translation does (Table 6.7). -/
def oldMask (e : Env) (q : MaskP) : M (List (List (Nat × Nat))) := do
  settled (← (List.range (if q.r.form = 1 then q.r.br else q.r.rows)).mapM fun i => tried (oldRow e q i))

/-- A unit of the new mask: where it was (when it survives or is regrown over a held place) and whether regrown. -/
structure NUnit where
  row : Nat
  col : Nat
  old : Option Nat
  grown : Bool
  deriving DecidableEq, Repr

/-- The new mask by rows, with the counts of pruned and regrown units. -/
def newMask (e : Env) (q : MaskP) (op : MaskOp) (old : List (List (Nat × Nat))) :
    M (List (List NUnit) × Nat × Nat) := do
  if q.r.form = 0 then
    let rows ← (List.range old.length).mapM fun i => do
      let held := old.getD i []
      let gs ← (List.range q.r.groups).mapM fun g => do
        let cs := (List.range 4).filter fun x => 4 * g + x < q.r.cols
        let us ← cs.mapM fun x => do
          let key ← load e q.p [4 * g + x, i]
          return ({ row := i, col := 4 * g + x, e := i * q.r.cols + 4 * g + x, pos := none, key } : MUnit)
        let kept := (firstRanked 2 us).map (·.col)
        let fill := ((List.range 4).filter fun x => !kept.contains (4 * g + x)).take (2 - kept.length)
        let cols := (List.range 4).filter fun x => kept.contains (4 * g + x) || fill.contains x
        return cols.map fun x =>
          let c := 4 * g + x
          let place := (held.find? fun h => h.1 = c).map (·.2)
          ({ row := i, col := c, old := place, grown := place.isNone } : NUnit)
      return gs.flatten
    let inside (c : Nat) : Bool := decide (c < q.r.cols)
    let grown := (rows.flatten.filter fun u => u.grown && inside u.col).length
    let pruned := ((List.range old.length).map fun i => ((old.getD i []).filter fun h =>
      inside h.1 && !((rows.getD i []).any fun u => u.col = h.1)).length).foldl (· + ·) 0
    return (rows, pruned, grown)
  else
    let width := if q.r.form = 1 then q.r.bc else q.r.cols
    let all ← (List.range old.length).mapM fun i => do
      let held := old.getD i []
      let hs ← held.mapM fun h => heldUnit e q i h.1 h.2 (op ≠ .regrow)
      let outside := (List.range width).filter fun c => !(held.any fun h => h.1 = c)
      let fs ← if op = .prune then pure [] else outside.mapM fun c => freeUnit e q i c none
      let again ← if op = .remask && q.regrowPruned then held.mapM fun h => freeUnit e q i h.1 (some h.2) else pure []
      return (hs, fs, again)
    let scopes : List (List MUnit × List MUnit × List MUnit) := if q.rowScope then all else
      [((all.map fun x => x.1).flatten, (all.map fun x => x.2.1).flatten, (all.map fun x => x.2.2).flatten)]
    let sel := scopes.map fun (hs, fs, again) =>
      let rekey (u : MUnit) : MUnit := (again.find? fun (v : MUnit) => v.e = u.e).getD u
      selectScope q op hs fs rekey
    let pruned := (sel.map fun s => s.1).flatten
    let grown := (sel.map fun s => s.2).flatten
    let rows := (List.range old.length).map fun i =>
      let held := old.getD i []
      (List.range width).filterMap fun c =>
        let place := (held.find? fun h => h.1 = c).map (·.2)
        let isGrown := grown.any fun u => u.row = i && u.col = c
        let isPruned := pruned.any fun u => u.row = i && u.col = c
        if isGrown then some ({ row := i, col := c, old := place, grown := true } : NUnit)
        else if place.isSome && !isPruned then some { row := i, col := c, old := place, grown := false }
        else none
    return (rows, pruned.length, grown.length)

/-- The code and poison of a value of the new form at offset `x` of unit `u`: kept bits, or INIT_VALUE converted by
the position's e, or +0 (R183). Kept bits stay even where R47 and R49 would have a Thresher write another code (DESIGN
CHOICE, log entry 152). -/
def newCode (e : Env) (q : MaskP) (u : NUnit) (i j x : Nat) : M (Nat × Bool) := do
  if i < q.r.rows && j < q.r.cols then
    match u.grown, u.old with
    | false, some p =>
      let at_ := if q.r.form = 1 then 256 * p + x else p
      let a := if q.r.form = 0 then
          let w := 2 * q.r.groups
          q.r.val + (p / w) * q.r.valPitch + (p % w) * q.r.es
        else q.r.val + at_ * q.r.es
      poisonOf (readNat e a q.r.es)
    | _, _ =>
      let v := if q.init && !(q.r.form = 0 && !u.grown) then FV.of32 q.initValue else FV.zero
      return (← encode e q.r.conv q.r.tid (i * q.r.cols + j) 0 false v, false)
  else return (q.r.conv.fmt.convert false .nearestEven FV.zero, false)

/-- The bytes of a companion entry of the new form (R184). -/
def newComp (e : Env) (q : MaskP) (c : Comp) (u : NUnit) (i j x : Nat) : M (Nat × Bool) := do
  let inside := i < q.r.rows && j < q.r.cols
  let oldAt (p : Nat) : M (Nat × Bool) :=
    let k := if q.r.form = 1 then 256 * p + x else p
    poisonOf (readNat e (c.base + k * c.fmt.size) c.fmt.size)
  let plain (v : FV) : Nat := c.fmt.convert false .nearestEven v
  if !inside then return (plain FV.zero, false)
  else if !u.grown then
    match u.old with
    | some p => oldAt p
    | none => return (plain FV.zero, false)
  else if c.role = 0 then return (plain (if q.init then FV.of32 q.initValue else FV.zero), false)
  else
    match c.keep, u.old with
    | true, some p => oldAt p
    | _, _ => return (plain FV.zero, false)

/-- How a mask operation ends that writes nothing: a poisoned source or index line, or a count above CAP (Table 6.7). -/
def maskEnds (q : MaskP) (bad : Bool) (n : Nat) : Option Ending :=
  if bad then some { status := stPoisoned }
  else if q.r.form ≠ 0 && q.r.cap < n then some { status := stIndex, result := n }
  else none

/-- Everything a mask operation writes, put into the batch, with the ranges it declares, the counts (R183–R186), and how it
ends where it writes nothing. -/
def maskPlan (e : Env) (q : MaskP) (op : MaskOp) : M (List (Nat × Nat) × Nat × Nat × Option Ending) := do
  let ((rows, pruned, grown), bad) ← poisonOf do
    let old ← oldMask e q
    newMask e q op old
  let units := rows.flatten
  let r := q.r
  let segs := (rows.map fun l => ((l.map fun u => u.col / 4096).eraseDups).length).sum
  let n := if r.form = 0 then units.length else min units.length r.cap
  if (maskEnds q bad units.length).isSome then
    return (q.ranges n segs, pruned, grown, maskEnds q bad units.length)
  let elems (u : NUnit) : List (Nat × Nat × Nat) :=
    if r.form = 1 then (List.range 256).map fun x => (16 * u.row + x / 16, 16 * u.col + x % 16, x)
    else [(u.row, u.col, 0)]
  let per := if r.form = 1 then 256 else 1
  match r.form with
  | 0 =>
    for i in List.range r.rows do
      let l := rows.getD i []
      for p in List.range l.length do
        let u := l.getD p { row := i, col := 0, old := none, grown := false }
        let (c, bad) ← newCode e q u i u.col 0
        if bad then markPoisoned e
        put (r.val + i * r.valPitch + p * r.es) (toLe r.es c) bad
      for b in List.range (cdiv r.groups 2) do
        let nib (g : Nat) : Nat :=
          if g < r.groups then
            ((l.getD (2 * g) { row := i, col := 0, old := none, grown := false }).col % 4) +
            4 * ((l.getD (2 * g + 1) { row := i, col := 0, old := none, grown := false }).col % 4)
          else 0
        put (r.idx + i * r.idxPitch + b) (toLe 1 (nib (2 * b) + 16 * nib (2 * b + 1))) false
  | 1 =>
    for b in List.range r.br do
      for w in List.range (cdiv r.bc 64) do
        let bits := (List.range 64).foldl (fun a k =>
          if (rows.getD b []).any fun u => u.col = 64 * w + k then a + 2 ^ k else a) 0
        put (r.idx + 8 * (b * cdiv r.bc 64 + w)) (toLe 8 bits) false
    for b in List.range (r.br + 1) do
      put (r.ptr + 8 * b) (toLe 8 ((rows.take b).map fun l => l.length).sum) false
    for k in List.range units.length do
      let u := units.getD k { row := 0, col := 0, old := none, grown := false }
      for (i, j, x) in elems u do
        let (c, bad) ← newCode e q u i j x
        if bad then markPoisoned e
        put (r.val + (256 * k + x) * r.es) (toLe r.es c) bad
  | _ =>
    let packed ← rows.mapM fun l => l.mapM fun u => do
      let (c, bad) ← newCode e q u u.row u.col 0
      if bad then markPoisoned e
      return (u.col, c, bad)
    storePack r packed
  for c in q.comps do
    for k in List.range units.length do
      let u := units.getD k { row := 0, col := 0, old := none, grown := false }
      for (i, j, x) in elems u do
        let (v, bad) ← newComp e q c u i j x
        if bad then markPoisoned e
        put (c.base + (per * k + x) * c.fmt.size) (toLe c.fmt.size v) bad
  if q.maskBase ≠ 0 then
    for w in List.range (cdiv (r.rows * r.cols) 64) do
      let bit (k : Nat) : Bool :=
        let e := 64 * w + k
        let (row, col) := if r.form = 1 then (e / r.cols / 16, e % r.cols / 16) else (e / r.cols, e % r.cols)
        decide (e < r.rows * r.cols) && (rows.getD row []).any fun u => u.col = col
      let bits := (List.range 64).foldl (fun a k => if bit k then a + 2 ^ k else a) 0
      put (q.maskBase + 8 * w) (toLe 8 bits) false
  return (q.ranges n segs, pruned, grown, none)

end Work

/-- The write pass of a mask operation: every byte its plan holds. -/
def maskWrite (e : Env) (uid : Nat) (plan : Wk) : M Unit := do
  modify fun w => { w with cells := plan.cells }
  if ((plan.d.findOutst uid).map fun x => x.2.poisoned) = some true then Work.markPoisoned e
  Work.flush e

/-- The start of a mask operation: it reads and ranks, declares the arrays it writes, and writes them (R186, R188). One that
ends without a write has its written pages translated first (Table 6.7). -/
def startMask (op : MaskOp) (n : Nat) (o : Outst) (d : Dp) : Dp :=
  let q := parseMask o.bytes
  let h := d.stokerHalf n
  let e := d.envOf n o
  match Dp.run (Work.maskPlan e q op) Dp.atsFuel d with
  | (.error t, d) => d.meet n o h 0 t
  | (.ok ((ranges, _, _, some x), _), d) =>
    match Dp.run (ranges.mapM fun r => Dp.regionPages e r.2 ((r.2 - r.1) / 4096 + 2) r.1) Dp.atsFuel d with
    | (.error t, d) => d.meet n o h 0 t
    | (.ok _, d) => d.finished o.uid x
  | (.ok ((ranges, pruned, grown, none), plan), d) =>
    match d.declareFor n o h ranges with
    | (false, d) => d
    | (true, d) =>
      match Dp.run (maskWrite e o.uid plan) Dp.atsFuel d with
      | (.error t, d) => d.meet n o h 0 t
      | (.ok (_, wk), _) =>
        wk.d.finished o.uid { status := stOK, result := pruned % 2 ^ 32 + grown % 2 ^ 32 * 2 ^ 32 }

/-- Would declaring the arrays of a mask operation take its open sheaf past a limit, as far as the module can tell at its
dispatch (R187): by what it would write, or by its fixed-size arrays where the form cannot be read yet (DEDUCED, log entry
47). -/
def maskLimits (op : MaskOp) (c : OpCtx) (convs : List Conv) (d : Dp) : Bool :=
  let q := parseMask c.bytes
  let e := d.envOf c.ring (d.accepted c convs)
  let ranges := match Dp.run (Work.maskPlan e q op) Dp.atsFuel d with
    | (.ok ((l, _, _, none), _), _) => l
    | _ => q.fixedRanges
  (d.sheaf c.hdr.sheafId).state = .opened &&
    match (Dp.run (Dp.declareRegions e c.hdr.sheafId ranges) Dp.atsFuel d).1 with
    | .ok (.limits, _) => true
    | _ => false

/-- PRUNE, REGROW and REMASK at their dispatch (Table 6.7). -/
def opMask (op : MaskOp) (c : OpCtx) (d : Dp) : Dp :=
  let q := parseMask c.bytes
  let random : Conv := { stream := q.stream, radv := q.radv, sr := q.random op,
                         sat := false, lsm := false, lsg := false, code := 4 }
  Dp.judged c (MaskP.bad op c.bytes) .must (q.misaligned op) (Dp.selfOverlap q.outs (q.ins op))
    (fun d =>
      if maskLimits op c [random, q.r.conv] d then (d.abortSheaf c.hdr.sheafId 4).refuse c stSheafAborted
      else Dp.enter c [random, q.r.conv] (startMask op) d) d

end Sys2Proof.Machine
end

