-- ==== Sys2Proof/Machine/Predict.lean ====
section
/-!
DEFINITION. PREDICT (R195, R196, R202, R203) and the prediction record.
-/
namespace Sys2Proof.Machine

/-- A PREDICT descriptor (Table 6.10). -/
structure PredP where
  m : Nat
  h : Nat
  rank : Nat
  spec : Bool
  audit : Nat
  thr : Nat
  base : Nat
  x : TDesc
  u : TDesc
  v : TDesc
  deriving DecidableEq, Repr

/-- Reads a PREDICT descriptor. -/
def parsePred (bs : List Byte) : PredP :=
  { m := leAt bs 16 4, h := leAt bs 20 4, rank := leAt bs 24 2, spec := (leAt bs 26 1).testBit 0,
    audit := leAt bs 27 1 % 64, thr := leAt bs 28 4, base := leAt bs 32 8, x := parseT bs 64, u := parseT bs 192,
    v := parseT bs 320 }

/-- Bytes of a row of the record's bitmap. -/
def predPitch (h : Nat) : Nat := 8 * cdiv h 64

namespace PredP

/-- D: the columns of X. -/
def depth (q : PredP) : Nat := q.x.n 0

/-- Malformed conditions (Table 6.11). -/
def bad (bs : List Byte) : List (Bool × Nat) :=
  let q := parsePred bs
  let f8 (t : TDesc) : Bool := t.conv.fmt = .f8n || t.conv.fmt = .f8e
  let two (t : TDesc) : Bool := t.ndim = 2
  ([((parseHdr bs).slots ≠ 7, 1), (q.m = 0, 16), (q.h = 0 || 2 ^ 24 < q.h, 20),
    (q.rank < 16 || 1024 < q.rank || q.rank % 16 ≠ 0, 24), (2 ≤ leAt bs 26 1, 26),
    (64 ≤ leAt bs 27 1 || (!q.spec && q.audit ≠ 0), 27), (!zeroAt bs 40 24, 40)] : List (Bool × Nat)) ++
  TDesc.bad bs 64 false ++ TDesc.bad bs 192 false ++ TDesc.bad bs 320 false ++
  ([(!f8 q.u, 200), (!f8 q.v, 328), (!two q.x, 88), (!two q.u, 216), (!two q.v, 344)] : List (Bool × Nat)) ++
  q.x.extsBad 64 [(1, q.m)] ++ q.u.extsBad 192 [(0, q.rank), (1, q.depth)] ++ q.v.extsBad 320 [(0, q.h), (1, q.rank)]

/-- The ALIGN conditions. -/
def misaligned (q : PredP) : Bool := q.x.misaligned || q.u.misaligned || q.v.misaligned || q.base % 64 ≠ 0

/-- The record's span. -/
def recordSpan (q : PredP) : Span := arraySpan q.base (64 + q.m * predPitch q.h) true

/-- Spans of the descriptor. -/
def spans (q : PredP) : List Span := q.x.spans false ++ q.u.spans false ++ q.v.spans false ++ [q.recordSpan]

/-- One entry per 64 rows. -/
def order (q : PredP) : List Entry := (List.range (cdiv q.m 64)).map fun t => { kind := .compute, im := t, group := t }

end PredP

/-- Conversion to F8n, rounded to nearest even, with SAT = 1 (R195). -/
def toF8n (v : FV) : FV := Fmt.f8n.decode (Fmt.f8n.convert true .nearestEven v)

/-- The F8 product of two rows of operands from +0 (R84–R86). U and V are scaled along their innermost dimension, which is
not K, so each element enters with its own scale (DESIGN CHOICE, log entry 163). -/
def f8Dot (ts : List (FV × FV)) : FV := (chunks 32 ts).foldl (fun v c => cribAdd v [chunkSum c]) FV.zero

/-- A value of a PREDICT's crib tile as it drains (R64): column `j` of `w` of row `m`. -/
def predDrain (e : Env) (m j w : Nat) (v : FV) : M Unit :=
  Work.nan e v { ring := e.ring, uid := e.uid, seq := e.seq, op := e.op, src := 0, tiller := e.tiller, array := j % 256 / 64,
                 tileRow := m / 64, tileCol := j / 256, row := m, col := j, idx := m * w + j }

/-- Row `m` of X′·U, converted to F8n. -/
def predInner (e : Env) (q : PredP) (m : Nat) : M (List FV) := do
  let xs ← (List.range q.depth).mapM fun k => do return toF8n (← Work.load e q.x [k, m])
  let vs ← (List.range q.rank).mapM fun r => do
    let ts ← (List.range q.depth).mapM fun k => do return (xs.getD k FV.zero, ← Work.load e q.u [r, k])
    let v := f8Dot ts
    predDrain e m r q.rank v
    return v
  Work.sampleRows e 11 (chunks 64 vs)
  return vs.map toF8n

/-- The work of one PREDICT entry: 64 rows of the bitmap. -/
def predEntry (e : Env) (q : PredP) (t : Nat) : M Unit := do
  for k in List.range (min 64 (q.m - 64 * t)) do
    let m := 64 * t + k
    let (inner, badX) ← Work.poisonOf (predInner e q m)
    let outs ← (List.range q.h).mapM fun h => do
      let (p, badV) ← Work.poisonOf do
        let ts ← (List.range q.rank).mapM fun r => do return (inner.getD r FV.zero, ← Work.load e q.v [h, r])
        let v := f8Dot ts
        predDrain e m h q.h v
        return v
      if badX || badV then Work.markPoisoned e
      return (badX || badV || p.isNan || (FV.of32 q.thr).lt p, p)
    let active := outs.map fun x => x.1
    Work.sampleRows e 11 (chunks 64 (outs.map fun x => x.2))
    Work.change fun d => d.modUid e.uid fun o => { o with count := o.count + (active.filter id).length }
    for w in List.range (cdiv q.h 64) do
      let bits := (List.range 64).foldl (fun a b => if active.getD (64 * w + b) false then a + 2 ^ b else a) 0
      Work.put (q.base + 64 + m * predPitch q.h + 8 * w) (toLe 8 bits) false
  Work.flush e
  Work.tilesDone e (cdiv q.rank 256 + cdiv q.h 256)

/-- The header of a fresh record (Table 6.8), written last (R196). -/
def predHeader (e : Env) (q : PredP) (predicted : Nat) : M Unit := do
  let state := 1 + (if q.spec then 2 else 0)
  Work.put q.base (toLe 4 e.seq ++ toLe 1 e.ring ++ toLe 1 state ++ toLe 1 q.audit ++ toLe 1 0 ++ toLe 4 q.m ++
    toLe 4 q.h ++ toLe 8 predicted ++ List.replicate 40 0) false
  Work.flush e

/-- The start of a PREDICT. -/
def startPredict (n : Nat) (o : Outst) (d : Dp) : Dp :=
  if d.hasList o.uid then d.setPhase o.uid .running
  else d.startList 8 (Dp.divide (d.halvesOf n) (parsePred o.bytes).order) n { o with spans := [] }

/-- The end of a PREDICT: the header. -/
def endPredict (n : Nat) (o : Outst) (d : Dp) : Dp :=
  match Dp.run (predHeader (d.envOf n o) (parsePred o.bytes) o.count) Dp.atsFuel d with
  | (.error t, d) => d.meet n o (d.stokerHalf n) 0 t
  | (.ok (_, wk), _) => wk.d.finished o.uid { status := stOK, result := o.count }

/-- PREDICT at its dispatch. -/
def opPredict (c : OpCtx) (d : Dp) : Dp :=
  let q := parsePred c.bytes
  let ins := q.x.spans false ++ q.u.spans false ++ q.v.spans false
  Dp.judged c (PredP.bad c.bytes) .never q.misaligned (Dp.selfOverlap [q.recordSpan] ins)
    (fun d =>
      if q.spec && (d.reg (Reg.ringCfg c.ring)).bit 3 then d.refuse c stDenied 2
      else Dp.cribJudged c (Dp.receiving (Dp.divide (d.halvesOf c.ring) q.order)) 8 0 (Dp.enter c [] startPredict) d) d

end Sys2Proof.Machine
end

