-- ==== Sys2Proof/Machine/Quern.lean ====
section
/-!
DEFINITION. The bounds of the Quern's functions (Table 7.8, R226). The procedure by which Quern evaluates exp, erf and tanh
is a free value; what the spec says of it is how far its FP32 results may lie from the exact ones. The exact values are
taken in fixed point with `quernBits` fraction bits, far below the bounds.
-/
namespace Sys2Proof.Machine

/-- Fraction bits of the fixed-point evaluation. -/
def quernBits : Nat := 320

/-- The number 1 in fixed point. -/
def quernOne : Nat := 2 ^ quernBits

/-- The magnitude of a finite value in fixed point, cut below its last place. -/
def toFix (v : FV) : Nat :=
  match v with
  | .fin _ m e => if 0 ≤ e + quernBits then m <<< (e + quernBits).toNat else m >>> (-(e + quernBits)).toNat
  | _ => 0

/-- The quotient of two fixed-point numbers as a value with at least 79 significant bits. -/
def fixRatio (neg : Bool) (a b : Nat) : FV :=
  let k := 80 + Nat.log2 b
  .fin neg ((a <<< k) / b) (-(k : Int))

/-- The terms `x^n / n!` of the exponential series from term `n` on, added while they are not 0. -/
def expSeries (x : Nat) : Nat → Nat → Nat → Nat → Nat
  | 0, _, _, sum => sum
  | f + 1, n, term, sum =>
    let term := term * x / (n * quernOne)
    if term = 0 then sum else expSeries x f (n + 1) term (sum + term)

/-- `e^x` in fixed point for `x ≥ 0`, with `x` held at 300, past which every result of Table 7.8 is at its limit. -/
def expFix (x : Nat) : Nat := expSeries (min x (300 * quernOne)) 4000 1 quernOne quernOne

/-- The terms `z^(2n+1) / (2n+1)!!` of the series of the normal integral, added while they are not 0. -/
def erfSeries (z : Nat) : Nat → Nat → Nat → Nat → Nat
  | 0, _, _, sum => sum
  | f + 1, n, term, sum =>
    let term := term * z / quernOne * z / (n * quernOne)
    if term = 0 then sum else erfSeries z f (n + 2) term (sum + term)

/-- The terms of `arctan (1 / n)` with alternating signs, in fixed point. -/
def atanSeries (n : Nat) : Nat → Nat → Nat → Int
  | 0, _, _ => 0
  | f + 1, k, power => (power / k : Nat) - atanSeries n f (k + 2) (power / (n * n))

/-- π in fixed point, by Machin's formula. -/
def piFix : Nat := (16 * atanSeries 5 200 1 (quernOne / 5) - 4 * atanSeries 239 200 1 (quernOne / 239)).toNat

/-- `erf (z / √2)` in fixed point for `0 ≤ z < 16`: `√(2/π) * e^(-z²/2) * Σ z^(2n+1) / (2n+1)!!`. -/
def erfFix (z : Nat) : Nat :=
  isqrt (2 * quernOne * quernOne * quernOne / piFix) * erfSeries z 4000 3 z z / expFix (z * z / (2 * quernOne))

/-- `z / (1 + e^(-w))` for the sign of `z` and a magnitude `w`. -/
def logisticOf (z : FV) (w : Nat) : FV :=
  let x := expFix w
  z.mul (if z.neg? then fixRatio false quernOne (quernOne + x) else fixRatio false x (quernOne + x))

/-- SILU of a finite value. -/
def siluExact (z : FV) : FV := logisticOf z (toFix z)

/-- GELU_TANH of a finite value: `1 + tanh u = 2 / (1 + e^(-2u))`. -/
def geluTanhExact (z : FV) : FV :=
  let x := min (toFix z) (300 * quernOne)
  let u := 7978846 * (x + 44715 * (x * x / quernOne * x / quernOne) / 1000000) / 10000000
  logisticOf z (2 * u)

/-- GELU_ERF of a finite value. -/
def geluErfExact (z : FV) : FV :=
  let x := toFix z
  if 16 * quernOne ≤ x then (if z.neg? then FV.zero true else z)
  else
    let r := erfFix x
    z.mul (fixRatio false (if z.neg? then quernOne - r else quernOne + r) (2 * quernOne))

/-- `e^z` of a finite value. -/
def expExact (z : FV) : FV :=
  let x := expFix (toFix z)
  if z.neg? then fixRatio false quernOne x else fixRatio false x quernOne

/-- Is the FP32 result near this exact value subnormal. -/
def subnormal32 (v : FV) : Bool :=
  match v with
  | .fin _ m e => m = 0 || (Nat.log2 m : Int) + e < -126
  | _ => false

/-- `k` units in the last place of FP32 at an exact value, and 2^-148 for a subnormal result (R225). -/
def ulps32 (k : Nat) (v : FV) : FV :=
  match v with
  | .fin _ m e => if subnormal32 v then .fin false 1 (-148) else .fin false k ((Nat.log2 m : Int) + e - 23)
  | _ => FV.zero

/-- A free FP32 result held to its bound: the result itself where it lies within `slack` of the exact value, else the
exact value rounded. -/
def bounded (slack exact free : FV) : FV :=
  let r := free.r32
  if r.isFinite && (exact.sub r).abs.cmp slack ≤ 0 then r else exact.r32

/-- Quern's exp: exact at ±0 and at the infinities, else its one fixed procedure. Its results lie within 7 * 2^-24 of the
exact value, which is what the bound of SOFTMAX leaves a row of two positions (DEDUCED, log entry 160). -/
def quernE (v : FV) : FV :=
  match v with
  | .nan p => .nan p
  | .inf true => FV.zero
  | .inf false => .inf false
  | .fin _ m _ =>
    if m = 0 then FV.of32 0x3F800000
    else
      let x := expExact v
      bounded (if subnormal32 x then .fin false 1 (-148) else x.mul (.fin false 7 (-24))) x (Config.quernExp v)

/-- The function F of stage 6, SOFTMAX aside. -/
def quernF (func : Nat) (z : FV) : FV :=
  let relu (v : FV) : FV := if FV.zero.lt v then v else FV.zero
  match z with
  | .nan _ => .nan true
  | .inf true =>
    match func with
    | 0 => z
    | 1 | 2 => FV.zero
    | _ => FV.zero true
  | .inf false => .inf false
  | .fin _ m _ =>
    match func with
    | 0 => z
    | 1 => relu z
    | 2 => (relu z).mul32 (relu z)
    | 3 => if m = 0 then z else bounded (ulps32 4 (geluErfExact z)) (geluErfExact z) (Config.quernGeluErf z)
    | 4 => if m = 0 then z else bounded (ulps32 4 (geluTanhExact z)) (geluTanhExact z) (Config.quernGeluTanh z)
    | _ => if m = 0 then z else bounded (ulps32 3 (siluExact z)) (siluExact z) (Config.quernSilu z)

/-- The combination of two leaves of the SOFTMAX tree (R226). A leaf with maximum -∞ is empty and leaves the other as it
is in rank: a kept NaN beside it stays, so that the row's sum becomes NaN as R226 says (DEDUCED, log entry 161). -/
def softCombine (a b : FV × FV) : FV × FV :=
  let empty (x : FV × FV) : Bool := x.1 = .inf true
  let m := if empty a then b.1 else if empty b then a.1 else a.1.max b.1
  if m = .inf true then (m, FV.zero)
  else
    let t (x : FV × FV) : FV := if empty x then FV.zero else x.2.mul32 (quernE (x.1.sub32 m))
    (m, (t a).add32 (t b))

end Sys2Proof.Machine
end

