-- ==== Sys2Proof/Machine/Fused.lean ====
section
/-!
DEFINITION. FUSED_GRG (R221–R233): its checks and list, the Quern stages, the stats, slice, reduce and catch-up
entries, and the use of a prediction record (R197–R200).
-/
namespace Sys2Proof.Machine

/-- A FUSED_GRG descriptor (Tables 7.9, 7.10). -/
structure FusedP where
  func : Nat
  pmask : Nat
  t1 : Bool
  t2 : Bool
  ifmtCode : Nat
  isat : Bool
  biasEn : Bool
  rscaleEn : Bool
  topk : Nat
  scale : Nat
  diag : Int
  win : Nat
  hslice : Nat
  x : TDesc
  w1 : TDesc
  w2 : TDesc
  yBase : Nat
  yConv : Conv
  yTid : Nat
  yRow : Int
  yBatch : Int
  bias : Nat
  rscale : Nat
  pred : Nat
  tlist : Nat
  deriving DecidableEq, Repr

/-- Reads a FUSED_GRG descriptor. -/
def parseFused (bs : List Byte) : FusedP :=
  let b := leAt bs 16 1
  let c := leAt bs 17 1
  { func := b % 16, pmask := natFld b 5 4, t1 := b.testBit 6, t2 := b.testBit 7, ifmtCode := c % 16,
    isat := c.testBit 4, biasEn := c.testBit 5, rscaleEn := c.testBit 6, topk := leAt bs 18 2, scale := leAt bs 20 4,
    diag := signed 32 (leAt bs 24 4), win := leAt bs 28 4, hslice := leAt bs 32 4, x := parseT bs 64,
    w1 := parseT bs 192, w2 := parseT bs 320, yBase := leAt bs 448 8, yConv := parseConv (leAt bs 456 4),
    yTid := leAt bs 460 4, yRow := signed 48 (leAt bs 464 6), yBatch := signed 48 (leAt bs 472 6),
    bias := leAt bs 480 8, rscale := leAt bs 488 8, pred := leAt bs 496 8, tlist := leAt bs 504 8 }

namespace FusedP

def m (q : FusedP) : Nat := q.x.n 1
/-- D, the depth of the first product. -/
def depth (q : FusedP) : Nat := q.x.n 0
/-- H, the hidden dimension. -/
def h (q : FusedP) : Nat := if q.t1 then q.w1.n 1 else q.w1.n 0
/-- N, the columns of Y. -/
def n (q : FusedP) : Nat := if q.t2 then q.w2.n 1 else q.w2.n 0
/-- Batches: an extent of 1 is broadcast. -/
def batches (q : FusedP) : Nat := max (q.x.n 2) (max (q.w1.n 2) (q.w2.n 2))
/-- The intermediate format. -/
def ifmt (q : FusedP) : Fmt := ((fmtOf q.ifmtCode).getD (.bf16, false)).1
/-- The mode of the first product. -/
def mode1 (q : FusedP) : Option Mode := modeOf 0 0 q.x.conv.fmt q.w1.conv.fmt q.x.conv.mx q.w1.conv.mx
/-- The mode of the second product. -/
def mode2 (q : FusedP) : Option Mode := modeOf 0 0 q.ifmt q.w2.conv.fmt false q.w2.conv.mx
/-- H_MAX (R223). -/
def hMax (q : FusedP) : Nat := if q.ifmt.size = 1 then 16384 else 8192
/-- H_S (R223). -/
def hs (q : FusedP) : Nat := if q.hslice = 0 then min (256 * cdiv q.h 256) q.hMax else q.hslice
/-- S, the number of slices. -/
def slices (q : FusedP) : Nat := cdiv q.h q.hs
/-- N tiles. -/
def nTiles (q : FusedP) : Nat := cdiv q.n 256
/-- Does each row tile need a stats tile (R230). -/
def needsStats (q : FusedP) : Bool := q.func = 6 || q.topk ≠ 0
/-- KiB a group needs in the reduce region (R230). -/
def groupKib (q : FusedP) : Nat := (if q.needsStats then 1 else 0) + (if 1 < q.slices then q.slices * 64 else 0)
/-- Hidden indices per K-block of the second product. -/
def kBlock (q : FusedP) : Nat := if q.mode2 = some .f8 then 64 else 32

/-- Y as a tensor descriptor. -/
def y (q : FusedP) : TDesc :=
  let stride : List Int := [q.yConv.fmt.size, q.yRow, q.yBatch, 0, 0, 0]
  let ext := [q.n, q.m, q.batches, 0, 0, 0]
  { (parseT [] 0) with base := q.yBase, conv := q.yConv, tid := q.yTid, ndim := 3, ext := ext, stride := stride, slot := 7 }

/-- Malformed conditions (Table 7.11). -/
def bad (bs : List Byte) : List (Bool × Nat) :=
  let q := parseFused bs
  let nd (t : TDesc) : Bool := t.ndim = 2 || t.ndim = 3
  let bc (t : TDesc) : Bool := t.n 2 = 1 || t.n 2 = q.batches
  ([((parseHdr bs).slots ≠ 8, 1), (7 ≤ q.func || q.pmask = 3, 16), (4 ≤ q.ifmtCode || 128 ≤ leAt bs 17 1, 17),
    (q.mode1.isNone || q.mode2.isNone, 17), (256 < q.topk, 18), (q.pmask = 0 && q.diag ≠ 0, 24),
    ((q.pmask = 2) == decide (q.win = 0), 28), (q.hslice % 256 ≠ 0 || q.hMax < q.hslice, 32),
    (!zeroAt bs 36 28, 36)] : List (Bool × Nat)) ++
  TDesc.bad bs 64 false ++ TDesc.bad bs 192 false ++ TDesc.bad bs 320 false ++
  ([(!nd q.x, 88), (!nd q.w1, 216), (!nd q.w2, 344), (!bc q.x, 104), (!bc q.w1, 232), (!bc q.w2, 360),
    ((if q.t1 then q.w1.n 0 else q.w1.n 1) ≠ q.depth, if q.t1 then 224 else 228),
    ((if q.t2 then q.w2.n 0 else q.w2.n 1) ≠ q.h, if q.t2 then 352 else 356),
    (convBad (leAt bs 456 4) || q.yConv.mx, 456), (1 < q.m && q.yRow = 0, 464), (!zeroAt bs 470 2, 470),
    (1 < q.batches && q.yBatch = 0, 472), (!zeroAt bs 478 2, 478), (q.biasEn == decide (q.bias = 0), 480),
    (q.rscaleEn == decide (q.rscale = 0), 488)] : List (Bool × Nat))

/-- The ALIGN conditions. -/
def misaligned (q : FusedP) : Bool :=
  let s := q.yConv.fmt.size
  q.x.misaligned || q.w1.misaligned || q.w2.misaligned || (q.w1.conv.mx && !q.t1) || (q.w2.conv.mx && !q.t2) ||
  q.yBase % s ≠ 0 || q.yRow % (s : Int) ≠ 0 || q.yBatch % (s : Int) ≠ 0 || q.bias % 64 ≠ 0 || q.rscale % 64 ≠ 0 ||
  q.tlist % 64 ≠ 0

/-- Loaded spans. -/
def ins (q : FusedP) : List Span :=
  q.x.spans false ++ q.w1.spans false ++ q.w2.spans false ++
  (if q.biasEn then [arraySpan q.bias (4 * q.h) false] else []) ++
  (if q.rscaleEn then [arraySpan q.rscale (4 * q.m) false] else []) ++
  (if q.pred ≠ 0 then [arraySpan q.pred (64 + q.m * predPitch q.h) false] else []) ++
  (if q.tlist ≠ 0 then [arraySpan q.tlist 64 false] else [])

/-- What it stores to: Y, and the header of its prediction record, whose counters it writes (R200; DEDUCED, log entry
170). -/
def stores (q : FusedP) : List Span := q.y.spans true ++ (if q.pred ≠ 0 then [arraySpan q.pred 64 true] else [])

/-- Spans of the descriptor. -/
def spans (q : FusedP) : List Span := q.ins ++ q.stores

/-- The module's own order (Table 7.2). -/
def order (q : FusedP) : List Entry :=
  let rt := cdiv q.m 64
  ((List.range q.batches).map fun b => ((List.range rt).map fun r =>
    let g := b * rt + r
    (if q.needsStats then [({ kind := .stats, batch := b, im := r, group := g, kib := 1 } : Entry)] else []) ++
    (List.range q.slices).map (fun s =>
      ({ kind := .compute, batch := b, im := r, jn := s, part := s, group := g,
         kib := if 1 < q.slices then 64 * q.nTiles else 0 } : Entry)) ++
    (if 1 < q.slices then
      (List.range q.nTiles).map fun j => ({ kind := .reduce, batch := b, im := r, jn := j, group := g } : Entry)
     else [])).flatten).flatten

/-- Is a position removed by stage 4 (Table 7.7). -/
def masked (q : FusedP) (m h : Nat) : Bool :=
  let d : Int := m + q.diag
  match q.pmask with
  | 1 => d < h
  | 2 => d < h || (h : Int) ≤ d - q.win
  | _ => false

end FusedP

/-! ### Row statistics and the use of a prediction record -/

/-- Rank of Quern's top-k: a NaN first, then larger, then lower h (R227). -/
def topBefore (a b : Nat × FV) : Bool :=
  if a.2.isNan then (if b.2.isNan then a.1 < b.1 else true)
  else if b.2.isNan then false
  else if b.2.lt a.2 then true
  else if a.2.lt b.2 then false
  else a.1 < b.1

/-- How a FUSED_GRG uses its prediction record (Table 6.9). -/
inductive PredUse where
  | none | verified | speculative
  deriving DecidableEq, Repr

/-- The use kept in `count2` of the outstanding descriptor: 0 none, 1 VERIFIED, 2 SPECULATIVE; bit 2 FORCED, bit 3
REJECTED; the record's AUDIT_OFS from bit 8. -/
def predUse (c : Nat) : PredUse :=
  match c % 4 with
  | 1 => .verified
  | 2 => .speculative
  | _ => .none

namespace Work

/-- What is seen of values that drain or leave the Quern at source point `src` (R64). -/
def seen (e : Env) (src tr tc arr : Nat) (vals : List (Nat × Nat × Nat × FV)) : M Unit := do
  for (i, j, idx, v) in vals do
    nan e v { ring := e.ring, uid := e.uid, seq := e.seq, op := e.op, src, tiller := e.tiller, array := arr,
              tileRow := tr, tileCol := tc, row := i, col := j, idx }

/-- Coordinates of matrix element (row, col) in batch `b`, stored transposed or not. -/
def matCoord (t : TDesc) (transposed : Bool) (row col b : Nat) : List Nat :=
  let b := if t.n 2 = 1 then 0 else b
  if transposed then [row, col, b] else [col, row, b]

/-- z of the first product at (m, h). -/
def fusedZ (e : Env) (q : FusedP) (b m h : Nat) : M FV := do
  let mode := q.mode1.getD .b16
  let ts ← (List.range q.depth).mapM fun k => do
    let (x, sx) ← loadParts e q.x (matCoord q.x false m k b)
    let (w, sw) ← loadParts e q.w1 (matCoord q.w1 q.t1 k h b)
    return ({ a := x, sa := sx, b := w, sb := sw } : Term)
  return (chunks mode.chunk ts).foldl (fun v c => cribAdd v (realSums mode c)) FV.zero

/-- z1 after stages 1 to 3. -/
def fusedZ1 (e : Env) (q : FusedP) (m h : Nat) (z : FV) : M FV := do
  let z := z.mul32 (FV.of32 q.scale)
  let z ← if q.rscaleEn then do return z.mul32 (FV.of32 (← readNat e (q.rscale + 4 * m) 4)) else pure z
  if q.biasEn then return z.add32 (FV.of32 (← readNat e (q.bias + 4 * h) 4)) else return z

/-- The predicted bits of row `m`. -/
def predRow (e : Env) (q : FusedP) (m : Nat) : M (List Bool) := do
  let ws ← (List.range (cdiv q.h 64)).mapM fun w => readNat e (q.pred + 64 + m * predPitch q.h + 8 * w) 8
  return (List.range q.h).map fun h => (ws.getD (h / 64) 0).testBit (h % 64)

/-- z1 over hidden indices `[h0, h1)` of rows `[m0, m1)`: per row, the positions not removed by stage 4 nor left out
by SPECULATIVE prediction, and whether poisoned data fed one of them. Tiles wholly removed are not computed (R228). -/
def fusedRows (e : Env) (q : FusedP) (b m0 m1 h0 h1 : Nat) (spec : Bool) : M (List (List (Nat × FV) × Bool)) := do
  let rows := (List.range (m1 - m0)).map fun y => m0 + y
  let preds ← if spec then rows.mapM fun m => poisonOf (predRow e q m) else pure []
  let wanted (m h : Nat) : Bool := !spec || (preds.getD (m - m0) ([], false)).1.getD h false
  let blocks := (List.range (cdiv (h1 - h0) 256)).map fun k => (h0 + 256 * k, min h1 (h0 + 256 * (k + 1)))
  let parts ← blocks.mapM fun (a, c) => do
    let hs := (List.range (c - a)).map fun y => a + y
    if rows.all fun m => hs.all fun h => q.masked m h then return rows.map fun _ => ([], false)
    let zs ← rows.mapM fun m => (hs.filter (wanted m)).mapM fun h => do return (h, ← poisonOf (fusedZ e q b m h))
    for k in List.range 4 do
      for y in List.range rows.length do
        let m := rows.getD y 0
        seen e 0 (m0 / 64) (a / 256) k
          (((zs.getD y []).filter fun x => (x.1 - a) / 64 = k).map fun x => (m, x.1, m * q.h + x.1, x.2.1))
        sampleRows e 11 [((zs.getD y []).filter fun x => (x.1 - a) / 64 = k).map fun x => x.2.1]
    tilesDone e 1
    (List.range rows.length).mapM fun y => do
      let m := rows.getD y 0
      let kept := (zs.getD y []).filter fun x => !q.masked m x.1
      let (l, bad) ← poisonOf (kept.mapM fun x => do return (x.1, ← fusedZ1 e q m x.1 x.2.1))
      return (l, bad || kept.any fun x => x.2.2)
  return (List.range (m1 - m0)).map fun y =>
    ((parts.map fun p => (p.getD y ([], false)).1).flatten,
     (preds.getD y ([], false)).2 || parts.any fun p => (p.getD y ([], false)).2)

/-- The statistics of one row (R226, R227): the root of the tree over its kept positions, and the kept positions. A NaN
among them comes from the row's input (R226). -/
def rowStats (q : FusedP) (l : List (Nat × FV)) : (FV × FV) × List Nat :=
  let kept := if q.topk = 0 then l else l.filter fun x => (l.filter fun y => topBefore y x).length < q.topk
  let leaves := (List.range q.h).map fun h =>
    match kept.find? fun x => x.1 = h with
    | some x => (if x.2.isNan then .nan true else x.2, FV.of32 0x3F800000)
    | none => (FV.inf true, FV.zero)
  ((pairTree softCombine leaves).getD (.inf true, FV.zero), kept.map fun x => x.1)

/-- Stage 6 at one position, from z1 and the statistics of its row. -/
def quernY (q : FusedP) (st : FV × FV) (z : FV) : FV :=
  if q.func = 6 then (if z.isNan then .nan true else (quernE (z.sub32 st.1)).div32 st.2) else quernF q.func z

/-- The monitor samples of a row of Quern outputs before stage 7 (Table 15.7, SRC 12): per 64 hidden indices of the tiles that
are computed, with +0 at the positions that stage 4 or 5 removed (DEDUCED, log entry 176). -/
def sampleQuern (e : Env) (q : FusedP) (m0 m1 h0 h1 : Nat) (ys : List (Nat × FV)) : M Unit :=
  sampleRows e 12 ((List.range (cdiv (h1 - h0) 64)).filterMap fun k =>
    let a := h0 + k / 4 * 256
    let skipped := (List.range (m1 - m0)).all fun y => (List.range (min 256 (h1 - a))).all fun x => q.masked (m0 + y) (a + x)
    let hs := (List.range (min 64 (h1 - (h0 + 64 * k)))).map fun x => h0 + 64 * k + x
    if skipped then none
    else some (hs.map fun h => ((ys.find? fun v => v.1 = h).map fun v => v.2).getD FV.zero))

/-- The intermediate of one position (stages 6 and 7), with the NaN seen at the Quern output: propagated where z1 or the
row's sum carries one that came from the input. -/
def quernOut (e : Env) (q : FusedP) (st : FV × FV) (m h : Nat) (z : FV) : M FV := do
  let y := quernY q st z
  let v := q.ifmt.decode (q.ifmt.convert q.isat .nearestEven y)
  if v.isNan then
    seen e 2 (m / 64) (h / 256) 7 [(m, h, m * q.h + h, if y.isNan then y else .nan false)]
  return v

/-- The intermediates of a slice tile: per row, hidden index and value of the positions not ±0, and whether poisoned data
fed the row. -/
def fusedInter (e : Env) (q : FusedP) (x : Entry) (spec : Bool) (rec_ : Option StatsRec) :
    M (List (List (Nat × FV) × Bool)) := do
  let m0 := 64 * x.im
  let m1 := min q.m (m0 + 64)
  let h0 := q.hs * x.part
  let h1 := min q.h (h0 + q.hs)
  let rows ← fusedRows e q x.batch m0 m1 h0 h1 spec
  (List.range rows.length).mapM fun y => do
    let m := m0 + y
    let (row, bad) := rows.getD y ([], false)
    let st := (rec_.bind fun r => r.rows[y]?).getD (.inf true, FV.zero)
    let kept := (rec_.bind fun r => r.kept[y]?).getD []
    let l := row.filter fun z => q.topk = 0 || kept.contains z.1
    let vs ← l.mapM fun z => do return (z.1, ← quernOut e q st m z.1 z.2)
    sampleQuern e q m0 m1 h0 h1 (l.map fun z => (z.1, quernY q st z.2))
    return (vs.filter fun v => !v.2.isZero, bad || ((rec_.bind fun r => r.bad[y]?).getD false))

/-- The K-blocks of W2 that a slice tile fetches ahead of its intermediates for columns `[n0, n0 + w)` (R228): those that
stage 4 does not remove wholly and whose gate is not 0. They are translated whether or not an intermediate faces them. -/
def fetchW2 (e : Env) (q : FusedP) (x : Entry) (gate : Nat → Bool) (n0 w : Nat) : M Unit := do
  let h0 := q.hs * x.part
  let h1 := min q.h (h0 + q.hs)
  let rows := (List.range (min q.m (64 * x.im + 64) - 64 * x.im)).map fun y => 64 * x.im + y
  for k in List.range (cdiv (h1 - h0) q.kBlock) do
    let a := h0 + k * q.kBlock
    let hs := (List.range (min q.kBlock (h1 - a))).map fun y => a + y
    if gate (a / q.kBlock) && !(rows.all fun m => hs.all fun h => q.masked m h) then
      for h in hs do
        for n in List.range w do
          let _ ← poisonOf (loadParts e q.w2 (matCoord q.w2 q.t2 h (n0 + n) x.batch))

/-- Output (m, n) of the second product over a slice's intermediates, from a starting value (R229). -/
def fusedOut (e : Env) (q : FusedP) (b n : Nat) (inter : List (Nat × FV)) (start : FV) : M FV := do
  let mode := q.mode2.getD .b16
  let ts ← inter.mapM fun (h, y) => do
    let (w, s) ← loadParts e q.w2 (matCoord q.w2 q.t2 h n b)
    return (h / mode.chunk, ({ a := y, b := w, sb := s } : Term))
  return addChunks mode start ts

/-- A crib tile of the second product drains to the store path; each value carries whether poisoned data fed it. -/
def fusedStore (e : Env) (q : FusedP) (b tr tc arr : Nat) (vals : List ((Nat × Nat) × FV × Bool)) : M Unit := do
  let t := q.y
  let b := if q.batches = 1 then 0 else b
  if vals.any fun v => v.2.2 then markPoisoned e
  seen e 0 tr tc arr (vals.map fun v => (v.1.1, v.1.2, t.index [v.1.2, v.1.1, b], v.2.1))
  sampleRows e 11 ((vals.map fun v => v.1.1).eraseDups.map fun r => (vals.filter fun v => v.1.1 = r).map fun v => v.2.1)
  for v in vals do
    let (m, n) := v.1
    storeAt e t (fun _ => pure v.2.1) [n, m, b] v.2.2 true
      { ring := e.ring, uid := e.uid, seq := e.seq, op := e.op, src := 1, tiller := e.tiller, array := arr,
        tileRow := tr, tileCol := tc, row := m, col := n }

/-- Adds to the counts of the prediction record. -/
def addTally (e : Env) (t : List Nat) : M Unit :=
  change fun d => d.modUid e.uid fun o => { o with tally := List.zipWith (· + ·) o.tally t }

/-- The gate of K-block `k` of a slice tile (R198): the OR of the predicted bits over its rows and hidden indices. -/
def gateOf (q : FusedP) (x : Entry) (preds : List (List Bool)) (k : Nat) : Bool :=
  let h0 := q.hs * x.part
  let hs := (List.range (min q.h (h0 + q.hs) - h0)).map fun y => h0 + y
  preds.any fun p => hs.any fun h => decide (h / q.kBlock = k) && p.getD h false

/-- Counts a slice tile against the predicted bits (R198, R199): active, missed and falsely predicted neurons over
the given rows, and whether a miss falls in a K-block whose gate is 0. -/
def tallyOf (q : FusedP) (x : Entry) (preds : List (List Bool)) (inter : List (List (Nat × FV))) (rows : List Nat) :
    List Nat × Bool :=
  let h0 := q.hs * x.part
  let h1 := min q.h (h0 + q.hs)
  let hs := (List.range (h1 - h0)).map fun y => h0 + y
  let predicted (y h : Nat) : Bool := (preds.getD y []).getD h false
  let active (y h : Nat) : Bool := (inter.getD y []).any fun v => v.1 = h
  let count (p : Nat → Nat → Bool) : Nat := (rows.map fun y => (hs.filter (p y)).length).sum
  let gate := gateOf q x preds
  let uncovered := rows.any fun y => hs.any fun h => active y h && !predicted y h && !gate (h / q.kBlock)
  ([count active, count fun y h => active y h && !predicted y h, count fun y h => !active y h && predicted y h, 0],
   uncovered)

/-- The stats tile of a row tile (R230). -/
def statsEntry (e : Env) (q : FusedP) (spec : Bool) (x : Entry) : M Unit := do
  let m0 := 64 * x.im
  let rows ← fusedRows e q x.batch m0 (min q.m (m0 + 64)) 0 q.h spec
  let st := rows.map fun r => rowStats q r.1
  change fun d => { d with stats := d.stats ++
    [{ uid := e.uid, half := e.half, batch := x.batch, rowTile := x.im, bad := rows.map fun r => r.2,
       rows := st.map fun s => s.1, kept := st.map fun s => s.2 }] }

/-- The reduce entry of an N tile (R230): the slices' partials from +0 in increasing s, stored. -/
def fusedReduce (e : Env) (q : FusedP) (x : Entry) : M Unit := do
  let m0 := 64 * x.im
  let m1 := min q.m (m0 + 64)
  let nt := q.nTiles
  let n0 := 256 * x.jn
  let w := min 256 (q.n - n0)
  let ps := ((← get).d.partials).filter fun p => p.uid = e.uid && p.group = x.group && p.part % nt = x.jn
  let mine := (List.range q.slices).filterMap fun s => ps.find? fun p => p.part / nt = s
  for a in List.range 4 do
    let cs := if n0 + 64 * a < q.n then cribCoords m1 q.n m0 (n0 + 64 * a) else []
    fusedStore e q x.batch x.im x.jn a (cs.map fun (m, n) =>
      let i := (m - m0) * w + (n - n0)
      ((m, n), mine.foldl (fun (v : FV) p => v.add32 (p.data.getD i FV.zero)) FV.zero, mine.any fun p => p.bad.getD i false))
  flush e
  change fun d => { d with partials := d.partials.filter fun p =>
    !(p.uid = e.uid && p.group = x.group && p.part % nt = x.jn) }

/-- The counts of the audit rows of a SPECULATIVE slice tile (R199): their neurons are computed in full, and only counted. -/
def auditRows (e : Env) (q : FusedP) (audit : Nat) (x : Entry) (preds : List (List Bool)) : M Unit := do
  let m0 := 64 * x.im
  let rows := List.range (min q.m (m0 + 64) - m0)
  let h0 := q.hs * x.part
  let mine := rows.filter fun y => (m0 + y) % 64 = audit
  let full ← mine.mapM fun y => do
    let w ← get
    let all := ((← fusedRows e q x.batch (m0 + y) (m0 + y + 1) 0 q.h false).getD 0 ([], false)).1
    let (st, kept) := rowStats q all
    let l := all.filter fun z => decide (h0 ≤ z.1) && decide (z.1 < h0 + q.hs) && (q.topk = 0 || kept.contains z.1)
    let vs ← l.mapM fun z => do return (z.1, ← quernOut e q st (m0 + y) z.1 z.2)
    set w
    return (y, vs.filter fun v => !v.2.isZero)
  let table := rows.map fun y => ((full.find? fun f => f.1 = y).map fun f => f.2).getD []
  addTally e (tallyOf q x preds table mine).1

/-- Phase B of a slice tile (R222, R228): its N tiles, stored when there is one slice, else written as partials. -/
def phaseB (e : Env) (q : FusedP) (x : Entry) (gate : Nat → Bool) (inter : List (List (Nat × FV) × Bool)) : M Unit := do
  let m0 := 64 * x.im
  let m1 := min q.m (m0 + 64)
  for j in List.range q.nTiles do
    let n0 := 256 * j
    let w := min 256 (q.n - n0)
    fetchW2 e q x gate n0 w
    let out (m n : Nat) : M (FV × Bool) := do
      let (l, bad) := inter.getD (m - m0) ([], false)
      let (v, b2) ← poisonOf (fusedOut e q x.batch n l FV.zero)
      return (v, bad || b2)
    if 1 < q.slices then
      let vs ← (List.range (m1 - m0)).mapM fun y => (List.range w).mapM fun k => out (m0 + y) (n0 + k)
      change fun d => { d with partials := d.partials ++
        [{ uid := e.uid, half := e.half, group := x.group, part := x.part * q.nTiles + j, kib := 64,
           data := vs.flatten.map fun v => v.1, bad := vs.flatten.map fun v => v.2 }] }
    else
      for a in List.range 4 do
        let cs := if n0 + 64 * a < q.n then cribCoords m1 q.n m0 (n0 + 64 * a) else []
        let vals ← cs.mapM fun (m, n) => do return ((m, n), ← out m n)
        fusedStore e q x.batch x.im j a vals
    tilesDone e 1

/-- The work of one FUSED_GRG entry; answers whether a catch-up tile is to be appended (R198). -/
def fusedEntry (e : Env) (q : FusedP) (use : PredUse) (audit : Nat) (x : Entry) : M Bool := do
  match x.kind with
  | .stats =>
    statsEntry e q (use = .speculative) x
    return false
  | .reduce =>
    fusedReduce e q x
    return false
  | _ =>
    let m0 := 64 * x.im
    let rows := List.range (min q.m (m0 + 64) - m0)
    let rec_ := (← get).d.stats.find? fun r => r.uid = e.uid && r.batch = x.batch && r.rowTile = x.im
    let inter ← fusedInter e q x (use = .speculative) rec_
    let (preds, predBad) ← poisonOf do
      if use = .none then pure [] else rows.mapM fun y => predRow e q (m0 + y)
    if predBad then markPoisoned e
    if use = .speculative then auditRows e q audit x preds
    let gated := use = .verified && x.kind ≠ .catchUp
    if gated then
      let (t, uncovered) := tallyOf q x preds (inter.map fun r => r.1) rows
      addTally e t
      if uncovered then
        addTally e [0, 0, 0, 1]
        return true
    phaseB e q x (if gated then gateOf q x preds else fun _ => true) inter
    flush e
    return false

/-- Reads the header of a prediction record at dispatch and judges its use (Table 6.9). -/
def judgeRecord (e : Env) (q : FusedP) (training : Bool) : M Nat := do
  if q.pred = 0 then return 0
  let hd ← readBytes e q.pred 64
  let st := leAt hd 5 1
  let audit := leAt hd 6 1 * 256
  if !st.testBit 0 || leAt hd 8 4 ≠ q.m || leAt hd 12 4 ≠ q.h then return 8 + audit
  if !st.testBit 1 then return 1 + audit
  return (if training then 1 + 4 else 2) + audit

/-- Writes the counters and state bits of a consumed or rejected record (R200, Table 6.9). -/
def closeRecord (e : Env) (q : FusedP) (use : Nat) (tally : List Nat) : M Unit := do
  if q.pred = 0 then return ()
  let hd ← readBytes e q.pred 64
  let st := leAt hd 5 1
  if use.testBit 3 then
    put (q.pred + 5) (toLe 1 (st ||| 16)) false
  else
    let audits := if predUse use = .speculative then
        ((List.range q.m).filter fun m => m % 64 = use / 256).length else 0
    let act := leAt hd 24 8 + tally.getD 0 0
    let miss := leAt hd 32 8 + tally.getD 1 0
    let est := if act % 2 ^ 64 = 0 then FV.zero
      else (FV.fin false (miss % 2 ^ 64) 0).div32 (.fin false (act % 2 ^ 64) 0)
    put (q.pred + 5) (toLe 1 (st ||| 4 ||| (if use.testBit 2 then 8 else 0))) false
    put (q.pred + 24) (toLe 8 act ++ toLe 8 miss ++ toLe 8 (leAt hd 40 8 + tally.getD 2 0) ++
      toLe 4 (leAt hd 48 4 + tally.getD 3 0) ++ toLe 4 (leAt hd 52 4 + audits) ++ toLe 4 est.bits32) false
  flush e

end Work

/-- What a FUSED_GRG reads at its dispatch: how it uses its prediction record (Table 6.9), and its tile list. -/
def fusedPrep (e : Env) (q : FusedP) (training : Bool) : M (Nat × Bool × List TileRow × List TileRow) := do
  let use ← Work.judgeRecord e q training
  let l ← if q.tlist = 0 then pure (false, [], []) else Work.readTileList e q.tlist
  return (use, l)

/-- The start of a FUSED_GRG: the record's header, the tile list, the regions, the lists. -/
def startFused (n : Nat) (o : Outst) (d : Dp) : Dp :=
  let q := parseFused o.bytes
  let halves := d.halvesOf n
  if d.hasList o.uid then d.setPhase o.uid .running
  else
    match Dp.run (fusedPrep (d.envOf n o) q (Word.bit o.cfg 3)) Dp.atsFuel d with
    | (.error t, d) => d.meet n o (d.stokerHalf n) 0 t
    | (.ok ((use, r), _), d) =>
      let d := d.modOutst n o.uid fun o => { o with count2 := use }
      let o := { o with spans := q.stores }
      if q.tlist = 0 then d.startList 8 (Dp.divide halves q.order) n o
      else
        match scannedParts q.order halves r with
        | some parts => d.startList 8 parts n o
        | none => d.finished o.uid { status := stDenied, detail := 1, ofs := 504, halts := true }

/-- The end of a FUSED_GRG: the prediction record's counters. -/
def endFused (n : Nat) (o : Outst) (d : Dp) : Dp :=
  let q := parseFused o.bytes
  match Dp.run (Work.closeRecord (d.envOf n o) q o.count2 o.tally) Dp.atsFuel d with
  | (.error t, d) => d.meet n o (d.stokerHalf n) 0 t
  | (.ok (_, wk), _) => wk.d.finished o.uid { status := stOK }

/-- Is what a FUSED_GRG entry waits for there (Table 7.1). -/
def FusedP.ready (q : FusedP) (d : Dp) (uid : Nat) (x : Entry) : Bool :=
  match x.kind with
  | .compute | .catchUp =>
    !q.needsStats || d.stats.any fun r => r.uid = uid && r.batch = x.batch && r.rowTile = x.im
  | .reduce =>
    (List.range q.slices).all fun s => d.partials.any fun p => p.uid = uid && p.group = x.group && p.part = s * q.nTiles + x.jn
  | _ => true

/-- FUSED_GRG at its dispatch (Table 7.11). -/
def opFused (c : OpCtx) (d : Dp) : Dp :=
  let q := parseFused c.bytes
  let halves := d.halvesOf c.ring
  let r := Dp.tileListOf c q.tlist d
  let listBad := r.any fun r => (scannedParts q.order halves r).isNone
  let ins := q.ins ++ (r.map fun r => tileListSpan q.tlist r 7).toList
  Dp.judged c (FusedP.bad c.bytes ++ [(listBad, 504)]) .may q.misaligned (Dp.selfOverlap (q.y.spans true) ins)
    (fun d => Dp.cribJudged c (Dp.receiving (Dp.judgedParts q.order halves r)) 8 q.groupKib
      (Dp.enter c [q.yConv] startFused) d) d

end Sys2Proof.Machine
end

