-- ==== Sys2Proof/Machine/Net.lean ====
section
/-!
DEFINITION. Ports and the Culm transport (R350–R364): sending, acceptance, acknowledgement, retransmission,
unreachable peers and restarted connections.
-/
namespace Sys2Proof.Machine
namespace Dp

/-- This module's endpoint number. -/
def me (d : Dp) : Nat := (d.reg Reg.lnkId).fld 11 0
/-- Is the Culm transport on. -/
def lnkOn (d : Dp) : Bool := (d.reg Reg.lnkCtl).bit 0
/-- Port `q`. -/
def port (d : Dp) (q : Nat) : Port := Tab.get (fun _ => {}) d.lnk.ports q
/-- Writes port `q`. -/
def setPort (d : Dp) (q : Nat) (p : Port) : Dp :=
  { d with lnk := { d.lnk with ports := Tab.set (fun _ => {}) d.lnk.ports q p } }
/-- Peer `p`. -/
def peer (d : Dp) (p : Nat) : Peer := Tab.get (fun _ => {}) d.lnk.peers p
/-- Writes peer `p`. -/
def setPeer (d : Dp) (p : Nat) (x : Peer) : Dp :=
  { d with lnk := { d.lnk with peers := Tab.set (fun _ => {}) d.lnk.peers p x } }
/-- The connection to peer `p` of class `c` (0 bulk, 1 ember). -/
def conn (d : Dp) (p c : Nat) : Conn := Tab.get (fun _ => {}) d.lnk.conns (2 * p + c)
/-- Writes a connection. -/
def setConn (d : Dp) (p c : Nat) (x : Conn) : Dp :=
  { d with lnk := { d.lnk with conns := Tab.set (fun _ => {}) d.lnk.conns (2 * p + c) x } }

/-! ### Frames on the line (R352, R357, R358) -/

/-- One bit of the CRC-32C, least significant bit first. -/
def crc32cBit (c : Nat) : Nat := if c % 2 = 1 then c / 2 ^^^ 0x82F63B78 else c / 2

/-- One byte. -/
def crc32cByte (c : Nat) (b : Byte) : Nat := (List.range 8).foldl (fun c _ => crc32cBit c) (c ^^^ b.toNat)

/-- The CRC-32C (Castagnoli) of bytes. -/
def crc32c (bs : List Byte) : Nat := bs.foldl crc32cByte 0xFFFFFFFF ^^^ 0xFFFFFFFF

/-- `n` bytes of a number, the most significant first, as Ethernet, IPv6 and UDP order them (PRESUMED, log entry 173). -/
def toBe (n v : Nat) : List Byte := (toLe n v).reverse

/-- The Culm header of a frame (Table 12.5). -/
def culmHead (f : Culm) : List Byte :=
  let b (x : Bool) (k : Nat) : Nat := if x then 2 ^ k else 0
  toLe 1 (16 + f.ty % 16) ++ toLe 1 (b f.ember 0 + b f.last 1 + b f.retx 2 + b f.poison 3 + f.epoch % 4 * 16) ++
  toLe 2 (f.src % 4096) ++ toLe 2 (f.dst % 4096) ++ toLe 2 f.group ++ toLe 4 f.psn ++ toLe 4 f.msg ++ toLe 8 f.ofs ++
  toLe 2 f.payload.length ++ toLe 1 f.aux ++ toLe 1 f.aux2 ++ toLe 4 f.aux32

/-- Header, payload and Culm CRC of a frame (R358). -/
def culmBytes (f : Culm) : List Byte :=
  let c := culmHead f ++ f.payload
  c ++ toLe 4 (crc32c c)

/-- The frame that bytes behind the EtherType or the UDP header hold, as a receiver takes them: none for one that is no Culm
frame (VER) or fails its check (a reserved TYPE, a set zero bit, LEN, the Culm CRC; R357, R359). -/
def culmRead (bs : List Byte) : Option Culm :=
  let n := bs.length - 4
  let f := leAt bs 1 1
  if bs.length < 36 || leAt bs 0 1 / 16 ≠ 1 || 10 < leAt bs 0 1 % 16 || 64 ≤ f || leAt bs 24 2 ≠ n - 32 ||
      leAt bs n 4 ≠ crc32c (bs.take n) then none
  else some
    { ty := leAt bs 0 1 % 16, ember := f.testBit 0, last := f.testBit 1, retx := f.testBit 2, poison := f.testBit 3,
      epoch := natFld f 5 4, src := leAt bs 2 2 % 4096, dst := leAt bs 4 2 % 4096, group := leAt bs 6 2, psn := leAt bs 8 4,
      msg := leAt bs 12 4, ofs := leAt bs 16 8, aux := leAt bs 26 1, aux2 := leAt bs 27 1, aux32 := leAt bs 28 4,
      payload := slice bs 32 (n - 32) }

/-- The Internet checksum of bytes: the complement of the ones' complement sum of 16-bit words; 0 is sent as 0xFFFF. -/
def inetSum (bs : List Byte) : Nat :=
  let word (k : Nat) : Nat := (bs.getD (2 * k) 0).toNat * 256 + (bs.getD (2 * k + 1) 0).toNat
  let s := ((List.range ((bs.length + 1) / 2)).map word).sum % 65535
  if s = 0 then 0xFFFF else 65535 - s

/-- The UDP source port of a flow (R357). -/
def flowPort (f : Culm) : Nat := 0xC000 + crc32c (toLe 2 f.src ++ toLe 2 f.dst ++ toLe 2 f.group) % 2 ^ 14

/-- The IPv6 and UDP headers in front of Culm content under ENCAP = 1 (R357), from and to the addresses given. -/
def udpWrap (src dst : List Byte) (dscp port : Nat) (f : Culm) : List Byte :=
  let c := culmBytes f
  let len := 8 + c.length
  let udp (sum : Nat) : List Byte := toBe 2 (flowPort f) ++ toBe 2 port ++ toBe 2 len ++ toBe 2 sum
  let sum := inetSum (src ++ dst ++ toBe 4 len ++ toBe 4 17 ++ udp 0 ++ c)
  toBe 4 (6 * 2 ^ 28 + dscp * 2 ^ 22) ++ toBe 2 len ++ [17#8, 64#8] ++ src ++ dst ++ udp sum ++ c

/-- The bytes of a frame on the line, from the destination address to the Culm CRC: addresses, the 802.1Q tag with the priority
of the frame's class (R352), and the encapsulation of LNK_CTL.ENCAP (R357), along a path. -/
def lineBytes (d : Dp) (x : Option Path) (f : Culm) : List Byte :=
  let c := d.reg Reg.lnkCtl
  let u := d.reg Reg.lnkUdp
  let mac := (x.map (·.mac)).getD (List.replicate 6 0)
  let prio := if f.ember then c.fld 11 9 else c.fld 8 6
  let front := mac ++ toBe 6 ((d.reg Reg.lnkMac).fld 47 0) ++ toBe 2 0x8100 ++ toBe 2 (prio * 2 ^ 13)
  if c.bit 3 then
    front ++ toBe 2 0x86DD ++
      udpWrap (toBe 8 (d.reg Reg.lnkIp6Hi).toNat ++ toBe 8 (d.reg Reg.lnkIp6Lo).toNat) ((x.map (·.ip6)).getD (List.replicate 16 0))
        (if f.ember then u.fld 27 22 else u.fld 21 16) (u.fld 15 0) f
  else front ++ toBe 2 (c.fld 47 32) ++ culmBytes f

/-! ### Ports -/

/-- The state a port's lanes and set-up allow (R351): 0 down, 2 up at 800G, 3 up at 400G. -/
def portMode (d : Dp) (q : Nat) : Nat :=
  let c := d.reg (Reg.portCfg q)
  let p := d.port q
  let bad := p.laneRet ||| p.laneFail
  let low := bad % 4 = 0
  let high := bad / 4 % 4 = 0
  let mode := c.fld 3 1
  if !c.bit 0 || mode = 0 || d.domOff.has (38 + q / 2) then 0
  else if 3 ≤ mode then (if low && p.recal % 4 = 0 then 3 else 0)
  else if bad = 0 && !p.fallen && p.recal = 0 then 2
  else if mode = 2 && !c.bit 4 then 0
  else if low && p.recal % 4 = 0 || high && p.recal / 4 % 4 = 0 then 3
  else 0

/-- Ports of a mask that are up. -/
def upPorts (d : Dp) (mask : Nat) : List Nat := (List.range 8).filter fun q => mask.testBit q && 2 ≤ (d.port q).state

/-- The way to a peer: its entry in the group of a frame, or where the frame's type names no group, the first one read of it
(DESIGN CHOICE, log entry 174). -/
def pathTo (d : Dp) (p g : Nat) : Option Path :=
  match d.lnk.paths.find? fun x => x.peer = p && x.group = g with
  | some x => some x
  | none => d.lnk.paths.find? fun x => x.peer = p

/-- The ports that may carry frames of a group to a peer; all of them to one that no member table read so far names (DESIGN
CHOICE, log entry 174). -/
def portsTo (d : Dp) (p g : Nat) : Nat := ((d.pathTo p g).map (·.ports)).getD 255

/-- Is bulk transmission of a port paused by PFC. -/
def portPaused (d : Dp) (q : Nat) : Bool := (d.port q).paused && (d.reg Reg.lnkCtl).bit 4

/-- The port a frame of a class takes (R355): ember on the lowest that is up, bulk in round-robin over those up and not
paused. -/
def route (d : Dp) (p g cls : Nat) : Option Nat :=
  let up := d.upPorts (d.portsTo p g)
  if cls = 1 then up.head?
  else
    let free := up.filter fun q => !d.portPaused q
    match free.find? fun q => (d.peer p).turn ≤ q with
    | some q => some q
    | none => free.head?

/-! ### Sending -/

/-- Is a port of a mask under recalibration: frames wait for it (R480). -/
def recalWait (d : Dp) (mask : Nat) : Bool := (List.range 8).any fun q => mask.testBit q && (d.port q).recal ≠ 0

/-- No port of a mask is up, and none is on its way back from a recalibration. -/
def noPort (d : Dp) (mask : Nat) : Bool := (d.upPorts mask).isEmpty && !d.recalWait mask

/-- Puts a frame on a port. -/
def emit (d : Dp) (q : Nat) (f : Culm) : Dp :=
  let s : Sent := { port := q, frame := f, line := d.lineBytes (d.pathTo f.dst f.group) f }
  let d : Dp := { d with lnk := { d.lnk with sent := d.lnk.sent ++ [s] } }
  d.bump (Reg.lnkCnt 0)

/-- The peer is unreachable (R362): the status bit, the count, the ash-log entry; nothing more is sent to it. -/
def unreachable (d : Dp) (p : Nat) : Dp :=
  if (d.peer p).down then d
  else
    let d := d.setPeer p { d.peer p with down := true }
    ((d.setStat Reg.lnkStat 1).bump (Reg.lnkCnt 10)).ashLog { time := d.now, cls := 4, code := 1, data := p }

/-- A peer that no port of its PORTS reaches is unreachable (R362). -/
def checkPeers (d : Dp) : Dp :=
  d.lnk.paths.foldl (fun (d : Dp) x => if x.peer ≠ d.me && d.noPort x.ports then d.unreachable x.peer else d) d

/-- Posts a sequenced frame to a peer: sent with the next PSN of its connection, or queued while the connection restarts, the
ember window is full (R364) or every port is paused. Nothing is sent to an unreachable peer. -/
def post (d : Dp) (p cls : Nat) (f : Culm) : Dp :=
  let c := d.conn p cls
  let x := d.peer p
  let f := { f with src := d.me, dst := p, ember := cls = 1 }
  let queue (d : Dp) := d.setConn p cls { c with queue := c.queue ++ [f] }
  if x.down then d
  else if !d.lnkOn || (x.resetting && cls = 0) || !c.queue.isEmpty || (cls = 1 && 8 ≤ c.unacked.length) then queue d
  else
    match d.route p f.group cls with
    | some q =>
      let f := { f with psn := c.next, epoch := c.epoch }
      let d := d.setConn p cls { c with next := (c.next + 1) % 2 ^ 32,
                                        unacked := c.unacked ++ [{ frame := f, port := q, time := d.now }] }
      (if cls = 0 then d.setPeer p { x with turn := (q + 1) % 8 } else d).emit q f
    | none => if d.noPort (d.portsTo p f.group) then d.unreachable p else queue d

/-- Posts a list of frames. -/
def posts (d : Dp) (p cls : Nat) (l : List Culm) : Dp := l.foldl (fun d f => d.post p cls f) d

/-- Sends what is queued for a peer, as far as it goes now. -/
def flushQueue (d : Dp) (p cls : Nat) : Dp :=
  let c := d.conn p cls
  (d.setConn p cls { c with queue := [] }).posts p cls c.queue

/-- Sends an unsequenced control frame (ACK or NAK) to a peer. -/
def control (d : Dp) (p : Nat) (f : Culm) : Dp :=
  match if (d.peer p).down then none else d.route p f.group 1 with
  | some q => d.emit q { f with src := d.me, dst := p, ember := true }
  | none => d

/-- Sends an ACK of a connection: its cumulative PSN and selective bitmap (R361). -/
def sendAck (d : Dp) (p cls : Nat) : Dp :=
  let c := d.conn p cls
  let bits := (List.range 256).foldl (fun a i => if c.have_.contains ((c.expect + i) % 2 ^ 32) then a + 2 ^ i else a) 0
  let d := d.setConn p cls { c with fresh := 0, base := c.expect }
  d.control p { ty := 1, ember := true, epoch := c.epoch, psn := (c.expect + 2 ^ 32 - 1) % 2 ^ 32, aux := cls,
                payload := toLe 32 bits }

/-- Sends a NAK for a PSN. -/
def sendNak (d : Dp) (p cls psn : Nat) : Dp :=
  let d := d.control p { ty := 2, ember := true, epoch := (d.conn p cls).epoch, psn, aux := cls }
  d.bump (Reg.lnkCnt 3)

/-- Sends one frame again, at most LNK_RETRY.MAX times; past that the peer is unreachable (R362). -/
def resend (d : Dp) (p cls psn : Nat) : Dp :=
  let c := d.conn p cls
  match c.unacked.find? fun t => t.frame.psn = psn with
  | none => d
  | some t =>
    if (d.peer p).down then d
    else if (d.reg Reg.lnkRetry).fld 3 0 ≤ t.tries then
      let d := (d.bump (Reg.lnkCnt 5)).ashLog { time := d.now, cls := 4, code := 0, data := p }
      d.unreachable p
    else
      match d.route p t.frame.group cls with
      | none => if d.noPort (d.portsTo p t.frame.group) then d.unreachable p else d
      | some q =>
        let t' : TxFrame := { t with tries := t.tries + 1, port := q }
        let d := d.setConn p cls { c with unacked := c.unacked.map fun x => if x.frame.psn = psn then t' else x }
        (d.emit q { t.frame with retx := true }).bump (Reg.lnkCnt 4)

/-- Frames in flight on a port that fell back or went down are sent again (R351). -/
def resendPort (d : Dp) (q : Nat) : Dp :=
  d.lnk.conns.foldl (fun d (k, c) =>
    (c.unacked.filter fun t => t.port = q).foldl (fun d t => d.resend (k / 2) (k % 2) t.frame.psn) d) d

/-- Sets a port to the state its lanes allow now, and sends its frames in flight again. -/
def portFall (d : Dp) (q : Nat) : Dp :=
  let p := d.port q
  if p.state = 0 then d
  else
    let s := d.portMode q
    let d := d.setPort q { d.port q with state := if p.state = 1 && s ≠ 0 then 1 else s, preempt := s ≠ 0 && p.preempt }
    (if p.state = 1 || s = p.state then d else d.resendPort q).checkPeers

/-- A lane retired (R433) or failing its training (R351). -/
def laneOut (d : Dp) (lane : Nat) (retired : Bool) : Dp :=
  let q := lane / 4
  let p := d.port q
  let b := 2 ^ (lane % 4)
  let p := if retired then { p with laneRet := p.laneRet ||| b } else { p with laneFail := p.laneFail ||| b }
  (d.setPort q { p with fallen := true }).portFall q

/-! ### Receiving -/

/-- Both connections to a peer take an epoch and start at PSN 0 (R363): what they held is discarded. -/
def adoptEpoch (d : Dp) (p e : Nat) : Dp := (d.setConn p 0 { epoch := e }).setConn p 1 { epoch := e }

/-- Sends the NAK of a restart of the connections to a peer (R363). -/
def askReset (d : Dp) (p : Nat) : Dp :=
  (d.control p { ty := 2, ember := true, epoch := (d.conn p 0).epoch, aux2 := 1 }).bump (Reg.lnkCnt 3)

/-- Restarts both connections to a peer (R363): the next epoch, PSN 0, and a reset NAK. -/
def restartPeer (d : Dp) (p : Nat) : Dp :=
  let d := d.adoptEpoch p (((d.conn p 0).epoch + 1) % 4)
  (d.setPeer p { d.peer p with down := false, resetting := true }).askReset p

/-- Has PSN `n` been received on a connection. -/
def Conn.received (c : Conn) (n : Nat) : Bool := c.have_.contains n || (c.expect + 2 ^ 32 - 1 - n % 2 ^ 32) % 2 ^ 32 < 2 ^ 31

/-- Does the receiver accept PSN `n` on a connection: no duplicate, and inside its window of 256 above the last PSN it has
acknowledged cumulatively (R361). -/
def Conn.accepts (c : Conn) (n : Nat) : Bool := !Conn.received c n && (n + 2 ^ 32 - c.base) % 2 ^ 32 < 256

/-- Moves the cumulative PSN over what has been received. -/
def Conn.advance (c : Conn) : Nat → Conn
  | 0 => c
  | k + 1 =>
    if c.have_.contains c.expect then
      Conn.advance { c with expect := (c.expect + 1) % 2 ^ 32, have_ := c.have_.filter fun n => n ≠ c.expect } k
    else c

/-- A frame arrives from a peer (R359, R361, R363): `body` acts on an accepted frame. A peer held unreachable is
heard again, and its connections restart. -/
def receive (d : Dp) (cls : Nat) (f : Culm) (body : Dp → Dp) : Dp :=
  if !d.lnkOn || f.dst ≠ d.me then d
  else if (d.peer f.src).down then (d.restartPeer f.src).bump (Reg.lnkCnt 2)
  else
    let c := d.conn f.src cls
    if f.epoch ≠ c.epoch then d.bump (Reg.lnkCnt 2)
    else if Conn.received c f.psn then d.sendAck f.src cls
    else if !Conn.accepts c f.psn then d
    else
      let c := Conn.advance { c with have_ := f.psn :: c.have_, fresh := c.fresh + 1 } 256
      let d := (d.setConn f.src cls c).bump (Reg.lnkCnt 1)
      let d := if 16 ≤ c.fresh then d.sendAck f.src cls else d
      body d

/-- A control frame for a COLL_ID that is not dispatched here is kept (R364); past 4,096 it is refused. -/
def keepEarly (d : Dp) (f : Culm) : Dp := { d with lnk := { d.lnk with early := d.lnk.early ++ [f] } }

/-- An ACK (R361): frames up to its PSN and those of its bitmap are done; queued frames follow. -/
def rxAck (d : Dp) (f : Culm) : Dp :=
  if !d.lnkOn || f.dst ≠ d.me then d
  else if (d.peer f.src).down then (d.restartPeer f.src).bump (Reg.lnkCnt 2)
  else
    let cls := if f.aux = 1 then 1 else 0
    let c := d.conn f.src cls
    if f.epoch ≠ c.epoch then d.bump (Reg.lnkCnt 2)
    else
      let bits := leAt f.payload 0 32
      let done (t : TxFrame) : Bool :=
        let o := (t.frame.psn + 2 ^ 32 - f.psn) % 2 ^ 32
        o = 0 || 2 ^ 31 ≤ o || (o ≤ 256 && bits.testBit (o - 1))
      let gone := c.unacked.filter done
      let d := d.setConn f.src cls { c with unacked := c.unacked.filter fun t => !done t }
      let d := gone.foldl (fun d t => d.monSample 2 (fun x => x % 256 = 255 || x = t.port) ((d.now : Int) - t.time)) d
      d.flushQueue f.src cls

/-- A NAK (R361): the frame it names is sent again. -/
def rxNak (d : Dp) (f : Culm) : Dp :=
  if !d.lnkOn || f.dst ≠ d.me then d
  else if (d.peer f.src).down then (d.restartPeer f.src).bump (Reg.lnkCnt 2)
  else
    let cls := if f.aux = 1 then 1 else 0
    if f.epoch ≠ (d.conn f.src cls).epoch then d.bump (Reg.lnkCnt 2) else d.resend f.src cls f.psn

/-- Takes the peer's restart over, and answers it (R363). -/
def answerReset (d : Dp) (p e : Nat) : Dp :=
  let d := (d.adoptEpoch p e).setPeer p { d.peer p with down := false, resetting := false }
  d.control p { ty := 1, ember := true, epoch := e, aux2 := 1 }

/-- An ACK with AUX2 = 1 (R363): the restart is complete. One of another epoch is discarded and counted. -/
def rxResetAck (d : Dp) (f : Culm) : Dp :=
  let p := f.src
  if !d.lnkOn || f.dst ≠ d.me || (d.peer p).down then d
  else if f.epoch ≠ (d.conn p 0).epoch then d.bump (Reg.lnkCnt 2)
  else if !(d.peer p).resetting then d
  else
    let d := d.setPeer p { d.peer p with resetting := false }
    (d.flushQueue p 0).flushQueue p 1

/-- A frame discarded under R359; a NAK follows when its connection and PSN can be told. -/
def frameDiscard (d : Dp) (who : Option (Nat × Nat × Nat)) : Dp :=
  if !d.lnkOn then d
  else
    let d := d.bump (Reg.lnkCnt 2)
    match who with
    | some (p, cls, psn) => d.sendNak p cls psn
    | none => d

/-- 1 µs since an accepted frame: its ACK is sent (R361). -/
def ackTimer (d : Dp) (p cls : Nat) : Dp :=
  if (d.conn p cls).fresh = 0 || (d.peer p).down then d else d.sendAck p cls

/-- A PSN has stayed missing for REORDER_NS: it is NAKed (R361). -/
def reorderTimeout (d : Dp) (p cls : Nat) : Dp :=
  let c := d.conn p cls
  if c.have_.isEmpty || (d.peer p).down then d else d.sendNak p cls c.expect

/-- RETX_US without an ACK (R362): the oldest frame of the connection is sent again; a restart repeats its NAK. -/
def retxTimeout (d : Dp) (p cls : Nat) : Dp :=
  if (d.peer p).down then d
  else if (d.peer p).resetting then d.askReset p
  else
    match (d.conn p cls).unacked with
    | t :: _ => d.resend p cls t.frame.psn
    | [] => d

/-- A PFC frame of the bulk priority on port `q`: pauses or releases it (R352); the ember priority is never paused. -/
def pfcPause (d : Dp) (q : Nat) (on : Bool) : Dp :=
  if !(d.reg Reg.lnkCtl).bit 4 then d
  else
    let d := d.setPort q { d.port q with paused := on }
    if on then d.bump (Reg.lnkCnt 7)
    else d.lnk.conns.foldl (fun d (k, _) => if k % 2 = 0 then d.flushQueue (k / 2) 0 else d) d

/-- Queued frames of every connection are sent, as far as they go now. -/
def flushAll (d : Dp) : Dp := d.lnk.conns.foldl (fun d (k, _) => d.flushQueue (k / 2) (k % 2)) d

/-- A port's training is complete (R350). -/
def portUp (d : Dp) (q : Nat) : Dp :=
  let p := d.port q
  if p.state ≠ 1 then d
  else
    (d.setPort q { p with state := d.portMode q, preempt := false, paused := false }).flushAll

/-- IEEE 802.3br verification succeeded on a port (R352). -/
def preemptVerified (d : Dp) (q : Nat) : Dp :=
  let p := d.port q
  if (d.reg Reg.lnkCtl).bit 5 && 2 ≤ p.state then d.setPort q { p with preempt := true } else d

/-- Does the PTP servo run: EN, and its port up (R353). -/
def ptpOn (d : Dp) : Bool := (d.reg Reg.lnkPtpCtl).bit 0 && 2 ≤ (d.port ((d.reg Reg.lnkPtpCtl).fld 4 2)).state

/-- The servo loses its lock when PTP is off or its port is not up. -/
def ptpCheck (d : Dp) : Dp :=
  if d.ptpOn then d else { d with lnk := { d.lnk with ptpLocked := false, ptpLeft := 0 } }

/-- A PTP exchange that measured an offset from the time source (R353): the first lock after a reset steps the time, and later
ones leave the offset to be slewed away. -/
def ptpMessage (d : Dp) (ofs : Int) : Dp :=
  if !d.ptpOn then d
  else if d.lnk.ptpStepped then { d with lnk := { d.lnk with ptpLocked := true, ptpOffset := ofs, ptpLeft := ofs } }
  else { d with now := ((d.now : Int) - ofs).toNat, lnk := { d.lnk with ptpLocked := true, ptpOffset := ofs, ptpStepped := true } }

/-- A tick of TCLK (R346, R353): 10 ns pass, and a locked servo slews the time toward its source, by at most 100 ppm; by how
much is a free value (log entry 175). -/
def tick (d : Dp) : Dp :=
  let d := { d with elapsed := d.elapsed + 10 }
  let d := d.ptpCheck
  if d.lnk.ptpLeft = 0 then { d with now := (d.now + 10) % 2 ^ 64 }
  else
    let ppm : Int := min 100 (Config.freeNat d.draws 0)
    let frac := d.lnk.ptpFrac + (if d.lnk.ptpLeft < 0 then -10 else 10) * ppm
    let k := frac.tdiv 1000000
    { d with draws := d.draws + 1, now := ((d.now + 10 : Int) - k).toNat % 2 ^ 64,
             lnk := { d.lnk with ptpFrac := frac - k * 1000000, ptpLeft := d.lnk.ptpLeft - k } }

end Dp
end Sys2Proof.Machine
end

