-- ==== Sys2Proof/Machine/Coll.lean ====
section
/-!
DEFINITION. Collectives, SEND and RECV (R355, R356, R365–R382): the trees, inclusion, late contributions, and what
each frame does. `Dp.progress` does at any moment what the state of a collective allows.
-/
namespace Sys2Proof.Machine

/-! ### CRC-64 (R255) -/

/-- One bit of the ECMA-182 CRC, most significant bit first. -/
def crcBit (c : Nat) : Nat :=
  if c.testBit 63 then ((c * 2) % 2 ^ 64) ^^^ 0x42F0E1EBA9EA3693 else (c * 2) % 2 ^ 64

/-- One byte. -/
def crcByte (c : Nat) (b : Byte) : Nat :=
  (List.range 8).foldl (fun c _ => crcBit c) (c ^^^ (b.toNat <<< 56))

/-- CRC-64 of bytes from a running value. -/
def crc64 (c : Nat) (bs : List Byte) : Nat := bs.foldl crcByte c

/-! ### Groups -/

/-- An entry of a member table (Table 12.4). -/
structure Member where
  endpoint : Nat
  ports : Nat
  mac : List Byte
  ip6 : List Byte
  deriving DecidableEq, Repr

/-- A Culm group as its tables give it (R355): SIZE, RANK, COORD and members. -/
structure Group where
  rank : Nat
  coord : Nat
  members : List Member
  deriving DecidableEq, Repr

/-- Reads group `g`; absent for a group fault of R355. -/
def readGroup (e : Env) (base : Word) (g : Nat) : M (Option Group) := Work.intact do
  if base.fld 63 54 < g then return none
  let hd ← Work.readBytes e (base.fld 51 6 * 64 + 64 * g) 64
  let size := leAt hd 0 2
  let rank := leAt hd 2 2
  let coord := leAt hd 4 2
  if !(leAt hd 6 1).testBit 0 || size = 0 || 512 < size || size ≤ rank || size ≤ coord then return none
  let ms ← (List.range size).mapM fun i => do
    let m ← Work.readBytes e (leAt hd 8 8 + 32 * i) 32
    return { endpoint := leAt m 0 2 % 4096, ports := leAt m 2 1, mac := slice m 4 6, ip6 := slice m 16 16 }
  return some { rank, coord, members := ms }

/-! ### Trees (R365, R366, R368) -/

/-- ⌈log2 S⌉. -/
def treeLevels (s : Nat) : Nat := if s ≤ 1 then 0 else Nat.log2 (2 * s - 1)

/-- The lowest set bit's position of a virtual rank, or `top` for 0. -/
def lowBit (v top : Nat) : Nat := ((List.range top).find? fun l => v.testBit l).getD top

namespace Coll

/-- Members. -/
def size (c : Coll) : Nat := c.members.length
/-- Levels of its trees. -/
def levels (c : Coll) : Nat := treeLevels c.size
/-- The rank at virtual rank `v` of block `b`. -/
def rankOf (c : Coll) (b v : Nat) : Nat := (v + b) % c.size
/-- The virtual rank of rank `r` in block `b`. -/
def virt (c : Coll) (b r : Nat) : Nat := (r + c.size - b % c.size) % c.size
/-- The endpoint of a rank. -/
def endpoint (c : Coll) (r : Nat) : Nat := c.members.getD r 0
/-- Is rank `r` included. -/
def isIn (c : Coll) (r : Nat) : Bool := c.incl.contains r
/-- First element and first element past the end of block `b` of `e` elements. -/
def blockRange (c : Coll) (e b : Nat) : Nat × Nat := (b * e / c.size, (b + 1) * e / c.size)

/-- host(v) as a virtual rank (R368), with fuel for its levels. -/
def hostV (c : Coll) (b : Nat) : Nat → Nat → Nat
  | 0, v => v
  | k + 1, v =>
    if c.isIn (c.rankOf b v) then v
    else if v = 0 then ((List.range c.size).find? fun w => c.isIn (c.rankOf b w)).getD 0
    else c.hostV b k (v - 2 ^ lowBit v c.levels)

/-- The rank that does the work of virtual rank `v` of block `b`. -/
def host (c : Coll) (b v : Nat) : Nat := c.rankOf b (c.hostV b (c.levels + 1) v)

/-- The virtual ranks of block `b` that this module hosts. -/
def hosted (c : Coll) (b : Nat) : List Nat :=
  if !c.isIn c.rank then [] else (List.range c.size).filter fun v => c.host b v = c.rank

/-- The level at which a virtual rank sends to its parent. -/
def level (c : Coll) (v : Nat) : Nat := lowBit v c.levels

/-- The children of a virtual rank, with their levels. -/
def children (c : Coll) (v : Nat) : List (Nat × Nat) :=
  (List.range (c.level v)).filterMap fun l => if v + 2 ^ l < c.size then some (l, v + 2 ^ l) else none

/-- How far the grants of a list cover bytes from `lo` on, with fuel for as many grants. -/
def reachOf (l : List Credit) : Nat → Nat → Nat
  | 0, lo => lo
  | k + 1, lo =>
    match l.find? fun x => x.start ≤ lo && lo < x.start + x.len with
    | some x => reachOf l k (x.start + x.len)
    | none => lo

/-- Has a peer granted bytes `[lo, lo + len)` of a message part, in however many ranges (R364). -/
def credited (c : Coll) (peer lvl block lo len : Nat) : Bool :=
  let l := c.credits.filter fun x => x.peer = peer && x.level = lvl && x.block = block
  len = 0 || lo + len ≤ reachOf l (l.length + 1) lo

/-- The received bytes of a part when they are complete: bytes with poison. -/
def partBytes (c : Coll) (phase lvl block who len : Nat) : Option (List Byte × List Bool) :=
  let ps := c.parts.filter fun p => p.phase = phase && p.level = lvl && p.block = block && p.who = who
  let at_ (k : Nat) : Option (Byte × Bool) :=
    ps.findSome? fun p => if p.ofs ≤ k then (p.bytes[k - p.ofs]?).map fun b => (b, p.poison) else none
  let l := (List.range len).map at_
  if l.all Option.isSome then some (l.filterMap fun x => x.map (·.1), l.filterMap fun x => x.map (·.2)) else none

end Coll

/-! ### REDUCE -/

/-- A REDUCE descriptor (Table 12.11). -/
structure RedP where
  kind : Nat
  op : Nat
  wire : Bool
  late : Bool
  stepbm : Bool
  group : Nat
  id : Nat
  deadline : Nat
  hold : Nat
  dst : Nat
  s : TDesc
  t : TDesc
  deriving DecidableEq, Repr

/-- Reads a REDUCE descriptor. -/
def parseRed (bs : List Byte) : RedP :=
  let b := leAt bs 16 1
  { kind := b % 4, op := natFld b 3 2, wire := b.testBit 4, late := b.testBit 5, stepbm := b.testBit 6,
    group := leAt bs 18 2, id := leAt bs 20 4, deadline := leAt bs 24 4, hold := leAt bs 32 8, dst := leAt bs 40 8,
    s := parseT bs 64, t := parseT bs 192 }

namespace RedP

/-- Malformed conditions that the descriptor alone shows (R378). -/
def bad (bs : List Byte) : List (Bool × Nat) :=
  let q := parseRed bs
  let rec_ := q.kind = 3
  ([((parseHdr bs).slots ≠ (if rec_ then 1 else 5), 1),
    (q.op = 3 || (2 ≤ q.kind && q.op ≠ 0) || 128 ≤ leAt bs 16 1 || (2 ≤ q.kind && q.late), 16),
    (!zeroAt bs 17 1, 17), (2 ≤ q.kind && q.deadline ≠ 0, 24), (!zeroAt bs 28 4, 28),
    (!rec_ && (q.late == decide (q.hold = 0)), 32), (!rec_ && q.dst ≠ 0, 40), (!zeroAt bs 48 16, 48)] :
      List (Bool × Nat)) ++
  (if rec_ then [] else
    TDesc.bad bs 64 false ++ TDesc.bad bs 192 true ++
    ([(q.s.conv.mx, 72), (q.t.conv.mx || q.s.conv.fmt ≠ q.t.conv.fmt, 200),
      (q.kind = 0 && q.s.count ≠ q.t.count, 224)] : List (Bool × Nat)))

/-- Elements E of the collective. -/
def elems (q : RedP) : Nat := if q.kind = 2 then q.t.count else q.s.count

/-- The ALIGN conditions. -/
def misaligned (q : RedP) : Bool :=
  if q.kind = 3 then q.hold % 64 ≠ 0 || q.dst % 64 ≠ 0
  else q.s.misaligned || q.t.misaligned || q.hold % 64 ≠ 0

/-- Written spans. -/
def outs (q : RedP) : List Span :=
  if q.kind = 3 then [arraySpan q.dst 64 true]
  else q.t.spans true ++ (if q.late then [arraySpan q.hold (4 * q.elems) true] else [])

/-- Read spans. -/
def ins (q : RedP) : List Span := if q.kind = 3 then [arraySpan q.hold 64 false] else q.s.spans false

/-- The format partials travel in (Table 12.7). -/
def wireFmt (q : RedP) : Fmt := if q.op = 0 && !q.wire then .fp32 else q.s.conv.fmt

/-- The combination of two values (Table 12.7). -/
def combine (q : RedP) (a b : FV × Bool) : FV × Bool :=
  let v := match q.op with
    | 0 => if q.wire then q.s.conv.fmt.round .nearestEven (a.1.add b.1) else a.1.add32 b.1
    | 1 => a.1.max b.1
    | _ => a.1.min b.1
  (v, a.2 || b.2)

/-- An empty result (R367). -/
def empty (q : RedP) : FV := if q.op = 0 then FV.zero else .nan false

/-- The digest of R356. -/
def digest (q : RedP) (g : Group) : Nat :=
  crc64 0 (toLe 2 g.members.length ++ toLe 2 g.coord ++ (g.members.map fun m => toLe 2 m.endpoint).flatten ++ toLe 1 q.kind ++
    toLe 1 q.op ++ toLe 1 (if q.wire then 1 else 0) ++ toLe 1 (if q.late then 1 else 0) ++ toLe 8 q.elems ++
    toLe 1 (q.s.conv.code % 8) ++ toLe 4 q.deadline)

end RedP

/-- Spans of a REDUCE. -/
def redSpans (bs : List Byte) : List Span := (parseRed bs).ins ++ (parseRed bs).outs

namespace Coll

/-- An accumulator of a tree node: empty, or values with poison. -/
abbrev Acc := Option (List (FV × Bool))

/-- Combines two accumulators (R367). -/
def merge (f : FV × Bool → FV × Bool → FV × Bool) (a b : Acc) : Acc :=
  match a, b with
  | some x, some y => some (List.zipWith f x y)
  | some x, none => some x
  | none, y => y

/-- The accumulator of virtual rank `v` of block `b` before level `l`, when everything it needs is here. `leaf`
gives this module's own leaf, `edge` the values received from a child. -/
def node (c : Coll) (f : FV × Bool → FV × Bool → FV × Bool) (b : Nat) (leaf : Acc)
    (edge : Nat → Nat → Option Acc) : Nat → Nat → Option Acc
  | 0, v => some (if c.rankOf b v = c.rank && c.isIn c.rank then leaf else none)
  | l + 1, v =>
    match c.node f b leaf edge l v with
    | none => none
    | some a =>
      let w := v + 2 ^ l
      if c.size ≤ w || v % 2 ^ (l + 1) ≠ 0 then some a
      else
        let got := if c.host b w = c.rank then c.node f b leaf edge l w else edge l w
        got.map fun x => merge f a x

end Coll

/-- The bytes of values in a wire format. -/
def valBytes (f : Fmt) (l : List (FV × Bool)) : List Byte :=
  (l.map fun v => toLe f.size (f.convert false .nearestEven v.1)).flatten

/-- The values of bytes in a wire format. -/
def bytesVals (f : Fmt) (n : Nat) (bs : List Byte) (bad : List Bool) : List (FV × Bool) :=
  (List.range n).map fun k => (f.decode (leAt bs (k * f.size) f.size), bad.getD (k * f.size) false)

/-- Cuts a message part into frames of at most 4,096 bytes. -/
def dataFrames (c : Coll) (aux lvl block : Nat) (bs : List Byte) (bad : List Bool) : List Culm :=
  let n := max 1 (cdiv bs.length 4096)
  (List.range n).map fun k =>
    { ty := 0, ember := false, last := k + 1 = n, poison := ((bad.drop (4096 * k)).take 4096).any id, group := c.group,
      msg := c.id, ofs := 4096 * k, aux, aux2 := lvl, aux32 := block, payload := (bs.drop (4096 * k)).take 4096 }

/-- Step record fields as values: eight sums and OVF (Table 8.2). -/
def recVals (bs : List Byte) (bad : Bool) : List (FV × Bool) :=
  (List.range 8).map (fun g => (FV.of32 (leAt bs (16 + 4 * g) 4), bad)) ++
  [(.fin false (leAt bs 8 1 % 2) 0, bad)]

/-- The combination of step records (R373). -/
def recCombine (a b : List (FV × Bool)) : List (FV × Bool) :=
  List.zipWith (fun x y => (x.1.add32 y.1, x.2 || y.2)) (a.take 8) (b.take 8) ++
  [((a.getD 8 (FV.zero, false)).1.max (b.getD 8 (FV.zero, false)).1, false)]

/-- A step record's 64 bytes. -/
def recBytes (step flags n : Nat) (l : List (FV × Bool)) : List Byte :=
  toLe 8 step ++ toLe 1 flags ++ toLe 3 0 ++ toLe 4 n ++ ((l.take 8).map fun v => toLe 4 v.1.bits32).flatten ++
  List.replicate 16 0

namespace Dp

/-- The collective of a dispatch. -/
def coll (d : Dp) (uid : Nat) : Option Coll := d.lnk.colls.find? fun c => c.uid = uid

/-- Is the descriptor of a collective running. -/
def collRuns (d : Dp) (uid : Nat) : Bool := (d.findOutst uid).any fun x => x.2.phase = .running

/-- Changes a collective. -/
def modColl (d : Dp) (uid : Nat) (f : Coll → Coll) : Dp :=
  { d with lnk := { d.lnk with colls := d.lnk.colls.map fun c => if c.uid = uid then f c else c } }

/-- Takes a collective away. -/
def dropColl (d : Dp) (uid : Nat) : Dp :=
  { d with lnk := { d.lnk with colls := d.lnk.colls.filter fun c => c.uid ≠ uid } }

/-- A collective, or the transfer of a drain (op 0x50), ends with a status. -/
def endColl (d : Dp) (uid : Nat) (e : Ending) : Dp :=
  let d : Dp := match d.coll uid with
    | some c => if c.op = 0x50 then
        { d with locks := d.locks.map fun l => if l.base = leAt c.o.bytes 24 8 then { l with ended := some e.status } else l }
      else d
    | none => d
  (d.finished uid e).dropColl uid

/-- Posts frames to a rank of a collective's group. -/
def postRank (d : Dp) (c : Coll) (r cls : Nat) (l : List Culm) : Dp := d.posts (c.endpoint r) cls l

/-- Sends the frames of a message part that rank `r` has granted, `pos` giving the first byte of a frame; the part counts as
sent once all of them are (R364). -/
def sendPart (d : Dp) (uid : Nat) (key : Nat × Nat × Nat × Nat) (r : Nat) (pos : Culm → Nat) (fs : List Culm) : Dp :=
  match d.coll uid with
  | none => d
  | some c =>
    let go := fs.filter fun f => !c.frames.contains (key, f.ofs) &&
      c.credited (c.endpoint r) key.2.1 key.2.2.1 (pos f) f.payload.length
    let frames := c.frames ++ go.map fun f => (key, f.ofs)
    let whole := fs.all fun f => frames.contains (key, f.ofs)
    (d.modColl uid fun c => { c with frames := if whole then frames.filter fun x => x.1 ≠ key else frames,
                                     sent := if whole then key :: c.sent else c.sent }).postRank c r 0 go

/-- Grants a peer credit for a message part (R364). -/
def grant (d : Dp) (c : Coll) (r lvl block len : Nat) : Dp :=
  d.postRank c r 1 [{ ty := 3, ember := true, group := c.group, msg := c.id, aux2 := lvl, aux32 := block,
                      payload := toLe 8 0 ++ toLe 8 len }]

/-! ### The inclusion (R370–R372) -/

/-- Bitmap of ranks in 64 bytes. -/
def rankBits (l : List Nat) : List Byte := toLe 64 (l.foldl (fun a r => a ||| 2 ^ r) 0)

/-- The ranks of a 64-byte bitmap. -/
def bitRanks (bs : List Byte) : List Nat :=
  let n := leNat bs
  (List.range 512).filter fun r => n.testBit r

/-- The credits a member grants once the bitmap is fixed: for each part it will receive. -/
def grantAll (d : Dp) (c : Coll) (partLen gatherLen : Nat → Nat) : Dp :=
  (List.range c.size).foldl (fun d b =>
    let up (d : Dp) := (c.hosted b).foldl (fun d v => (c.children v).foldl (fun d x =>
      if c.host b x.2 = c.rank then d else d.grant c (c.host b x.2) x.1 b (partLen b)) d) d
    let down (d : Dp) :=
      if c.kind = 1 then (if b = c.rank && c.host b 0 ≠ c.rank then d.grant c (c.host b 0) c.levels b (gatherLen b) else d)
      else if c.isIn c.rank then
        match (c.hosted b).find? fun v => v ≠ 0 && c.host b (v - 2 ^ c.level v) ≠ c.rank with
        | some v => if (c.hosted b).contains 0 then d else d.grant c (c.host b (v - 2 ^ c.level v)) (c.level v) b (gatherLen b)
        | none => d
      else d.grant c (c.host b (c.virt b c.rank)) c.levels b (gatherLen b)
    if c.kind = 2 then down d else down (up d)) d

/-- The bitmap reaches a member's instance: it reduces with these leaves (R370); a late LATE_ADD member is to copy
its contribution to HOLD, unless it finds no entry for it (R371). -/
def applyBitmap (d : Dp) (uid : Nat) (incl carry : List Nat) : Dp :=
  match d.coll uid with
  | none => d
  | some c =>
    if c.fixed then d
    else
      let q := parseRed c.o.bytes
      let late := !incl.contains c.rank
      let c := { c with fixed := true, incl, carry, late }
      let d := d.modColl uid fun _ => c
      let es := q.s.conv.fmt.size
      let blk (b : Nat) : Nat := let r := c.blockRange q.elems b; r.2 - r.1
      let d := d.grantAll c (fun b => blk b * q.wireFmt.size) (fun b => blk b * es)
      let d : Dp := if q.stepbm && (d.reg Reg.lnkInclBase).bit 0 then
          { d with lnk := { d.lnk with stepIncl := some (incl, carry) } } else d
      if late && q.late && !c.quiet then
        if 64 ≤ d.lnk.holds.length || d.lnk.holds.any fun h => h.group = q.group && h.dva = q.hold then
          d.bump (Reg.lnkCnt 9)
        else d.modColl uid fun c => { c with holdDue := true }
      else d

/-- A late LATE_ADD member copies its contribution to HOLD, which takes an entry of the hold table (R371). -/
def writeHold (d : Dp) (uid : Nat) : Dp :=
  match d.coll uid with
  | none => d
  | some c =>
    if !c.holdDue || c.quiet || !d.collRuns uid then d
    else
      let q := parseRed c.o.bytes
      let write : M Unit := do
        for k in List.range c.leaf.length do
          let v := c.leaf.getD k (FV.zero, false)
          Work.put (q.hold + 4 * k) (toLe 4 v.1.bits32) v.2
        Work.flush (d.envOf c.ring c.o)
      match Dp.run write Dp.atsFuel d with
      | (.error t, d) => d.meet c.ring c.o (d.stokerHalf c.ring) 0 t
      | (.ok (_, wk), _) =>
        let h : Hold := { group := q.group, dva := q.hold, space := c.o.space, count := q.elems, fmt := q.s.conv.code,
                          ovf := none, step := wk.d.fll.step }
        ({ wk.d with lnk := { wk.d.lnk with holds := wk.d.lnk.holds ++ [h] } }).modColl uid fun c => { c with holdDue := false }

/-- The coordinator fixes the bitmap with the members that are READY and sends it (R370). -/
def fixBitmap (d : Dp) (uid : Nat) : Dp :=
  match d.coll uid with
  | none => d
  | some c =>
    let incl := (List.range c.size).filter c.ready.contains
    let carry := incl.filter c.announced.contains
    let f : Culm := { ty := 5, ember := true, group := c.group, msg := c.id, aux := 1,
                      payload := rankBits incl ++ rankBits carry }
    let d := (List.range c.size).foldl (fun d r => if r = c.rank then d else d.postRank c r 1 [f]) d
    d.applyBitmap uid incl carry

/-- The coordinator fixes the bitmap when nobody is awaited, or its deadline has passed. -/
def tryFix (d : Dp) (uid : Nat) : Dp :=
  match d.coll uid with
  | none => d
  | some c =>
    if c.op = 0x48 && c.kind ≤ 1 && c.rank = c.coord && !c.fixed &&
        (c.expired || (List.range c.size).all fun r => c.ready.contains r || c.gone.contains r) then d.fixBitmap uid
    else d

/-- The STRAGGLER notice of a late member (R374). -/
def straggler (d : Dp) (c : Coll) (r us : Nat) : Dp :=
  let q := parseRed c.o.bytes
  (d.notice 6 (if q.late then 0 else 1) none
    (toLe 8 d.fll.step ++ toLe 2 (c.endpoint r) ++ toLe 2 c.group ++ toLe 4 (min us 0xFFFFFFFF))).bump (Reg.lnkCnt 9)

/-- A READY frame of rank `r` at the coordinator (R356, R370, R374). -/
def readyFrom (d : Dp) (uid r digest : Nat) (carries : Bool) : Dp :=
  match d.coll uid with
  | none => d
  | some c =>
    if c.rank ≠ c.coord || c.ready.contains r then d
    else if digest ≠ c.digest then
      let f : Culm := { ty := 5, ember := true, group := c.group, msg := c.id, aux := 2, aux2 := stConflict }
      let d := (List.range c.size).foldl (fun d x => if x = c.rank then d else d.postRank c x 1 [f]) d
      d.endColl uid { status := stConflict }
    else if c.fixed then
      let due := c.start + (parseRed c.o.bytes).deadline * 1000
      (d.modColl uid fun c => { c with ready := c.ready ++ [r] }).straggler c r ((d.elapsed - due) / 1000)
    else
      (d.modColl uid fun c => { c with ready := c.ready ++ [r],
                                       announced := if carries then c.announced ++ [r] else c.announced }).tryFix uid

/-! ### Progress of a REDUCE -/

/-- The values received on an edge of the reduce phase. -/
def edgeOf (q : RedP) (c : Coll) (b : Nat) (l w : Nat) : Option Coll.Acc :=
  let (lo, hi) := c.blockRange q.elems b
  (c.partBytes 0 l b w ((hi - lo) * q.wireFmt.size)).map fun x => some (bytesVals q.wireFmt (hi - lo) x.1 x.2)

/-- This module's leaf of block `b`. -/
def leafOf (q : RedP) (c : Coll) (b : Nat) : Coll.Acc :=
  let (lo, hi) := c.blockRange q.elems b
  if q.kind = 2 then (if b = c.rank then some c.leaf else none) else some ((c.leaf.drop lo).take (hi - lo))

/-- Sends what the reduce phase of block `b` lets this module send (R366). -/
def sendUp (q : RedP) (d : Dp) (c : Coll) (b : Nat) : Dp :=
  (c.hosted b).foldl (fun (d : Dp) v =>
    let l := c.level v
    if v = 0 || q.kind = 2 then d
    else
      let p := c.host b (v - 2 ^ l)
      match d.coll c.uid with
      | none => d
      | some c =>
        if p = c.rank || c.sent.contains (0, l, b, v) then d
        else
          match c.node q.combine b (leafOf q c b) (edgeOf q c b) l v with
          | some (some vals) =>
            let bad := (vals.map fun x => List.replicate q.wireFmt.size x.2).flatten
            d.sendPart c.uid (0, l, b, v) p (·.ofs) (dataFrames c 0 l b (valBytes q.wireFmt vals) bad)
          | _ => d) d

/-- The stored bytes of a block, converted once by host(0) under the destination's conversion word (R369). -/
def convertBlock (e : Env) (q : RedP) (lo : Nat) (vals : List (FV × Bool)) : M (List Byte) := do
  let codes ← (List.range vals.length).mapM fun k => do
    let i := if q.kind = 1 then k else lo + k
    let v := (vals.getD k (FV.zero, false)).1
    let code ← Work.encode e q.t.conv q.t.tid i 0 false v
    if (q.t.conv.fmt.decode code).isNan then
      Work.nan e (if v.isNan then v else .nan false) (elemOrigin e q.t 0 i)
    return toLe q.t.conv.fmt.size code
  return codes.flatten

/-- Forms the result of block `b` at host(0), or takes it from the gather phase. -/
def formResult (q : RedP) (d : Dp) (c : Coll) (b : Nat) : Dp :=
  let (lo, hi) := c.blockRange q.elems b
  let es := q.t.conv.fmt.size
  if c.results.any fun r => r.1 = b then d
  else
    match c.partBytes 1 0 b 0 ((hi - lo) * es) with
    | some (bs, bad) =>
      if c.host b 0 = c.rank then d
      else if hi = lo then d.modColl c.uid fun c => { c with results := (b, [], []) :: c.results }
      else d.modColl c.uid fun c => { c with results := (b, bs, bad) :: c.results }
    | none => d
  |> fun d =>
    if c.host b 0 ≠ c.rank || !c.isIn c.rank then d
    else
      match c.node q.combine b (leafOf q c b) (edgeOf q c b) (if q.kind = 2 then 0 else c.levels) 0 with
      | none => d
      | some a =>
        let vals := a.getD (List.replicate (hi - lo) (q.empty, false))
        match Dp.run (convertBlock (d.envOf c.ring c.o) q lo vals) 1 d with
        | (.ok (bs, wk), _) =>
          let bad := (vals.map fun x => List.replicate es x.2).flatten
          wk.d.modColl c.uid fun c => { c with results := (b, bs, bad) :: c.results }
        | (.error _, d) => d

/-- Where the result of block `b` has to be sent by this module for members included in the reduction: (level, receiving virtual
rank, its rank). -/
def gatherTo (c : Coll) (b : Nat) : List (Nat × Nat × Nat) :=
  if c.kind = 1 then (if c.host b 0 = c.rank && c.isIn c.rank && b ≠ c.rank && c.isIn b then [(c.levels, 0, b)] else [])
  else
    ((c.hosted b).map fun v => (c.children v).filterMap fun x =>
      let h := c.host b x.2
      if h = c.rank then none else some (x.1, x.2, h)).flatten

/-- The excluded members that this module sends the result of block `b`, as long as they are reachable (R368, R371). -/
def excludedTo (d : Dp) (c : Coll) (b : Nat) : List (Nat × Nat × Nat) :=
  (if c.kind = 1 then (if c.host b 0 = c.rank && c.isIn c.rank && b ≠ c.rank && !c.isIn b then [(c.levels, 0, b)] else [])
  else (c.hosted b).filterMap fun v =>
    let r := c.rankOf b v
    if r = c.rank || c.isIn r then none else some (c.levels, v, r)).filter fun x => !(d.peer (c.endpoint x.2.2)).down

/-- Sends the results that are here on to this module's children (R366) and to excluded members. -/
def sendDown (d : Dp) (c : Coll) (b : Nat) : Dp :=
  match c.results.find? fun r => r.1 = b with
  | none => d
  | some (_, bs, bad) =>
    (gatherTo c b ++ d.excludedTo c b).foldl (fun (d : Dp) (l, v, r) =>
      match d.coll c.uid with
      | none => d
      | some c => if c.sent.contains (1, l, b, v) then d else d.sendPart c.uid (1, l, b, v) r (·.ofs) (dataFrames c 1 l b bs bad)) d

/-- Blocks this module stores. -/
def wants (c : Coll) : List Nat := if c.kind = 1 then [c.rank] else List.range c.size

/-- Stores the gathered bytes of a block into the destination (R369). -/
def storeBlock (e : Env) (q : RedP) (lo : Nat) (bs : List Byte) (bad : List Bool) (host0 : Bool) : M Unit := do
  let es := q.t.conv.fmt.size
  for k in List.range (bs.length / es) do
    let i := if q.kind = 1 then k else lo + k
    let c := q.t.coord i
    let code := leAt bs (k * es) es
    if !host0 && q.t.conv.lsg && q.t.conv.fmt.nonFinite code then
      Work.change fun d => { d with phx := { d.phx with ovf := true } }
    let poison := bad.getD (k * es) false
    if poison then Work.markPoisoned e
    match q.t.addr c with
    | some a =>
      let a ← Work.checked e a es q.t.base true
      Work.put a (toLe es code) poison
    | none => Work.storeAt e q.t (fun _ => pure FV.zero) c false true (elemOrigin e q.t 0 i)
  Work.flush e

/-- The result word of a REDUCE (R381). -/
def redResult (c : Coll) : Nat :=
  c.incl.length + c.carry.length + c.carry.length * 2 ^ 16 + (if c.late then 2 ^ 32 else 0)

/-- The inclusion record of a STEPBM collective (R372). -/
def writeIncl (e : Env) (base : Word) (step : Nat) (c : Coll) : M Unit := do
  Work.put (base.fld 51 13 * 8192 + 128 * (step % 64))
    (rankBits c.incl ++ slice (rankBits (c.carry.filter fun r => r < 448)) 0 56 ++ toLe 4 step ++ toLe 2 c.group ++
     toLe 2 (c.incl.length + c.carry.length)) false
  Work.flush e

/-- The first part of a phase and block that has come and is not stored yet. -/
def duePart (c : Coll) (phase b : Nat) : Option Part :=
  c.parts.find? fun p => p.phase = phase && p.block = b && !p.stored

/-- A part has been stored. -/
def partStored (d : Dp) (uid : Nat) (p : Part) : Dp :=
  d.modColl uid fun c => { c with parts := c.parts.map fun x => if x = p then { x with stored := true } else x }

/-- Stores the parts of a phase and block as they are here, whatever their order, by `write`, which also names the position it
saves (R361). -/
def storeParts (uid phase b : Nat) (write : Env → Part → Nat × M Unit) : Nat → Dp → Dp
  | 0, d => d
  | k + 1, d =>
    match d.coll uid with
    | none => d
    | some c =>
      match duePart c phase b with
      | none => d
      | some p =>
        if !d.collRuns uid then d
        else
          let (ofs, w) := write (d.envOf c.ring c.o) p
          match Dp.run w Dp.atsFuel d with
          | (.ok (_, wk), _) => storeParts uid phase b write k (wk.d.partStored uid p)
          | (.error t, d) => d.meet c.ring c.o (d.stokerHalf c.ring) ofs t

/-- Stores what a REDUCE has of block `b`: the parts received of it, or its result where this module formed it. -/
def storeResult (q : RedP) (uid : Nat) (d : Dp) (b : Nat) : Dp :=
  match d.coll uid with
  | none => d
  | some c =>
    let lo := (c.blockRange q.elems b).1
    let es := q.t.conv.fmt.size
    if c.stored.contains b then d
    else if c.host b 0 ≠ c.rank then
      let d := storeParts uid 1 b (fun e p => (lo + p.ofs / es,
        storeBlock e q (lo + p.ofs / es) p.bytes (List.replicate p.bytes.length p.poison) false)) c.parts.length d
      match d.coll uid with
      | some c =>
        if c.results.any (fun r => r.1 = b) && (duePart c 1 b).isNone then d.modColl uid fun c => { c with stored := b :: c.stored } else d
      | none => d
    else
      match d.collRuns uid, c.results.find? fun r => r.1 = b with
      | true, some (_, bs, bad) =>
        match Dp.run (storeBlock (d.envOf c.ring c.o) q lo bs bad true) Dp.atsFuel d with
        | (.ok (_, wk), _) => wk.d.modColl uid fun c => { c with stored := b :: c.stored }
        | (.error t, d) => d.meet c.ring c.o (d.stokerHalf c.ring) lo t
      | _, _ => d

/-- Is everything sent that the included members need of this module. -/
def redSent (q : RedP) (c : Coll) : Bool :=
  (List.range c.size).all fun b =>
    (q.kind = 2 || (c.hosted b).all fun v =>
      v = 0 || c.host b (v - 2 ^ c.level v) = c.rank || c.sent.contains (0, c.level v, b, v)) &&
    (gatherTo c b).all fun x => c.sent.contains (1, x.1, b, x.2.1)

/-- Do members outside INCL still want something of this module: the result, or, of the coordinator, to be heard late (R371,
R374). -/
def redOwes (d : Dp) (c : Coll) : Bool :=
  ((List.range c.size).any fun b => (d.excludedTo c b).any fun x => !c.sent.contains (1, x.1, b, x.2.1)) ||
  (c.kind ≤ 1 && c.rank = c.coord && (List.range c.size).any fun r => !c.ready.contains r && !c.gone.contains r)

/-- The descriptor of a REDUCE ends with OK; what members outside INCL want is still seen to. -/
def endRed (d : Dp) (c : Coll) : Dp :=
  let d := d.finished c.uid { status := stOK, result := redResult c }
  if d.redOwes c then d.modColl c.uid fun c => { c with quiet := true, ended := true } else d.dropColl c.uid

/-- Stores what has come and ends the collective once everything is stored and sent. -/
def storeAndEnd (q : RedP) (d : Dp) (uid : Nat) : Dp :=
  match d.coll uid with
  | none => d
  | some c =>
    let d := if c.quiet then d else (wants c).foldl (storeResult q uid) (d.writeHold uid)
    match d.coll uid with
    | none => d
    | some c =>
      if !redSent q c then d
      else if c.quiet then (if d.redOwes c && c.ended then d else d.dropColl uid)
      else if c.holdDue || !(wants c).all (fun b => c.stored.contains b) || !d.collRuns uid then d
      else
        let incl := d.reg Reg.lnkInclBase
        if q.stepbm && q.kind ≤ 1 && incl.bit 0 then
          match Dp.run (writeIncl (d.envOf c.ring c.o) incl d.fll.step c) Dp.atsFuel d with
          | (.ok (_, wk), _) => wk.d.endRed c
          | (.error t, d) => d.meet c.ring c.o (d.stokerHalf c.ring) 0 t
        else d.endRed c

/-- What a REDUCE of kind ALLREDUCE, REDUCE_SCATTER or ALLGATHER can do now. -/
def progressRed (d : Dp) (uid : Nat) : Dp :=
  match d.coll uid with
  | none => d
  | some c =>
    if !c.fixed then d
    else
      let q := parseRed c.o.bytes
      let step (f : Dp → Coll → Nat → Dp) (d : Dp) : Dp :=
        (List.range c.size).foldl (fun d b => match d.coll uid with
          | some c => f d c b
          | none => d) d
      storeAndEnd q (step sendDown (step (formResult q) (step (sendUp q) d))) uid

/-! ### STEPREC (R373) -/

/-- The values received from the child at level `l`. -/
def recEdge (c : Coll) (l w : Nat) : Option Coll.Acc :=
  (c.partBytes 0 l 0 w 64).map fun x => some (recVals x.1 (x.2.any id))

/-- What a REDUCE of kind STEPREC can do now. -/
def progressRec (d : Dp) (uid : Nat) : Dp :=
  match d.coll uid with
  | none => d
  | some c =>
    let merge9 (a b : Coll.Acc) : Coll.Acc :=
      match a, b with
      | some x, some y => some (recCombine x y)
      | some x, none => some x
      | none, y => y
    let rec val (leaf : Coll.Acc) : Nat → Nat → Option Coll.Acc
      | 0, v => some (if c.rankOf 0 v = c.rank && c.isIn c.rank then leaf else none)
      | l + 1, v =>
        match val leaf l v with
        | none => none
        | some a =>
          let w := v + 2 ^ l
          if c.size ≤ w || v % 2 ^ (l + 1) ≠ 0 then some a
          else (if c.host 0 w = c.rank then val leaf l w else recEdge c l w).map (merge9 a)
    let leaf : Coll.Acc := some (recVals c.data c.dataBad)
    let n := c.incl.length + c.carry.length
    let frame (l : Nat) (bs : List Byte) (bad : Bool) : Culm :=
      { ty := 10, ember := true, poison := bad, group := c.group, msg := c.id, aux2 := l, payload := bs }
    let d := (c.hosted 0).foldl (fun (d : Dp) v =>
      let l := c.level v
      if v = 0 then d
      else
        let p := c.host 0 (v - 2 ^ l)
        if p = c.rank || c.sent.contains (0, l, 0, v) then d
        else
          match val leaf l v with
          | some (some x) =>
            let ovf := if ((x.getD 8 (FV.zero, false)).1).isZero then 0 else 1
            (d.modColl uid fun c => { c with sent := (0, l, 0, v) :: c.sent }).postRank c p 1
              [frame l (recBytes (leAt c.data 0 8) (4 + ovf) n x) (x.any fun y => y.2)]
          | _ => d) d
    let own : Option (List Byte × Bool) :=
      if c.host 0 0 = c.rank && c.isIn c.rank then
        (val leaf c.levels 0).map fun a =>
          let x := a.getD (List.replicate 9 (FV.zero, false))
          let bad := (x.take 8).any fun y => !y.1.isFinite
          let ovf := bad || !((x.getD 8 (FV.zero, false)).1).isZero
          let flags := (if ovf then 1 else 0) + 2 + (leAt c.data 8 1 / 4 % 2) * 4
          (recBytes (leAt c.data 0 8) flags n x, x.any fun y => y.2)
      else (c.partBytes 1 0 0 0 64).map fun x => (x.1, x.2.any id)
    match own with
    | none => d
    | some (bs, bad) =>
      let d := (gatherTo { c with kind := 0 } 0).foldl (fun (d : Dp) (l, v, r) =>
        if c.sent.contains (1, l, 0, v) then d
        else (d.modColl uid fun c => { c with sent := (1, l, 0, v) :: c.sent }).postRank c r 1 [frame l bs bad]) d
      match d.collRuns uid with
      | true =>
        let e := d.envOf c.ring c.o
        let write : M Unit := do
          if bad then Work.markPoisoned e
          Work.put (parseRed c.o.bytes).dst bs bad
          Work.flush e
        match Dp.run write Dp.atsFuel d with
        | (.ok (_, wk), _) => wk.d.endColl uid { status := stOK, result := n + c.carry.length * 2 ^ 16 }
        | (.error t, d) => d.meet c.ring c.o (d.stokerHalf c.ring) 0 t
      | false => if c.quiet then d.dropColl uid else d

/-! ### BARRIER -/

/-- What a BARRIER can do now (R365, R379): arrivals climb the tree of block 0, the release descends it. -/
def progressBarrier (d : Dp) (uid : Nat) : Dp :=
  match d.coll uid with
  | none => d
  | some c =>
    let v := c.rank
    let kids := (c.children v).map fun x => x.2
    let all := kids.all c.arrived.contains
    let f (aux : Nat) : Culm := { ty := 4, ember := true, group := c.group, msg := c.id, aux }
    let d := if all && v ≠ 0 && !c.sent.contains (0, 0, 0, v) then
        (d.modColl uid fun c => { c with sent := (0, 0, 0, v) :: c.sent }).postRank c (v - 2 ^ c.level v) 1 [f 0]
      else d
    if c.released || (v = 0 && all) then
      let d := kids.foldl (fun d w => d.postRank c w 1 [f 1]) d
      let t : Int := (d.now : Int) - (c.o.start : Int)
      (d.monSample 3 (fun x => x = 0xFFFF || x = c.group) t).endColl uid { status := stOK }
    else d

/-! ### Byte messages -/

/-- Length of a message: BLK of an ALLTOALL, LENGTH of a SEND or RECV. -/
def msgLen (c : Coll) : Nat := if c.op = 0x49 then leAt c.o.bytes 40 8 else leAt c.o.bytes 32 8

/-- Has every frame of a message to a peer been acknowledged. -/
def acked (d : Dp) (c : Coll) (peer : Nat) : Bool :=
  !((d.conn peer 0).unacked.any fun t => t.frame.msg = c.id && t.frame.ty = 0) &&
  !((d.conn peer 0).queue.any fun f => f.msg = c.id && f.ty = 0)

/-- Sends a block of bytes of memory to a rank, as far as it has granted them. -/
def sendBytes (d : Dp) (c : Coll) (r aux block src len : Nat) : Dp :=
  let read : M (List Byte × List Bool) := do
    let l ← (List.range len).mapM fun k => Work.poisonOf (Work.readByte (d.envOf c.ring c.o) (src + k))
    return (l.map (·.1), l.map (·.2))
  if !c.credits.any fun x => x.peer = c.endpoint r && x.block = block then d
  else
    match Dp.run read Dp.atsFuel d with
    | (.ok ((bs, bad), wk), _) => wk.d.sendPart c.uid (aux, 0, block, r) r (·.ofs) (dataFrames c aux 0 block bs bad)
    | (.error t, d) => d.meet c.ring c.o (d.stokerHalf c.ring) 0 t

/-- The write of a part of a byte message whose first byte goes to `dst`. -/
def bytesWrite (dst : Nat) (e : Env) (p : Part) : Nat × M Unit :=
  (p.ofs, do
    if p.poison then Work.markPoisoned e
    Work.put (dst + p.ofs) p.bytes p.poison
    Work.flush e)

/-- This module's own block of an ALLTOALL is copied. -/
def copyOwn (d : Dp) (c : Coll) (src dst n : Nat) : Dp :=
  let e := d.envOf c.ring c.o
  let work : M Unit := do
    for k in List.range n do
      let (b, bad) ← Work.poisonOf (Work.readByte e (src + k))
      if bad then Work.markPoisoned e
      Work.put (dst + k) [b] bad
    Work.flush e
  match Dp.run work Dp.atsFuel d with
  | (.ok (_, wk), _) => wk.d.modColl c.uid fun c => { c with stored := c.rank :: c.stored }
  | (.error t, d) => d.meet c.ring c.o (d.stokerHalf c.ring) 0 t

/-- Stores what has come of a byte message, with key `b` and `n` bytes for `dst` (R361). -/
def storeMsg (uid phase b dst n : Nat) (d : Dp) : Dp :=
  match d.coll uid with
  | none => d
  | some c =>
    let d := storeParts uid phase b (bytesWrite dst) c.parts.length d
    match d.coll uid with
    | some c =>
      if (c.partBytes phase 0 b 0 n).isSome && (duePart c phase b).isNone && !c.stored.contains b then
        d.modColl uid fun c => { c with stored := b :: c.stored }
      else d
    | none => d

/-- What an ALLTOALL can do now (R379). -/
def progressA2a (d : Dp) (uid : Nat) : Dp :=
  match d.coll uid with
  | none => d
  | some c =>
    let n := msgLen c
    let src := leAt c.o.bytes 24 8
    let dst := leAt c.o.bytes 32 8
    let others := (List.range c.size).filter fun r => r ≠ c.rank
    let d := others.foldl (fun (d : Dp) r =>
      match d.coll uid with
      | some c => if !d.collRuns uid || c.sent.contains (3, 0, r, r) then d else d.sendBytes c r 3 r (src + r * n) n
      | none => d) d
    let d := others.foldl (fun (d : Dp) r => storeMsg uid 3 r (dst + r * n) n d) d
    let d := if !d.collRuns uid || c.stored.contains c.rank then d else d.copyOwn c (src + c.rank * n) (dst + c.rank * n) n
    match d.coll uid with
    | none => d
    | some c =>
      if d.collRuns uid && (List.range c.size).all c.stored.contains &&
          others.all fun r => c.sent.contains (3, 0, r, r) && d.acked c (c.endpoint r)
      then d.endColl uid { status := stOK } else d

/-- What a SEND can do now (R380): it pairs with the oldest credit of its peer and tag. -/
def progressSend (d : Dp) (uid : Nat) : Dp :=
  match d.coll uid with
  | none => d
  | some c =>
    let r := leAt c.o.bytes 18 2
    let p := c.endpoint r
    match c.credits with
    | [] => d
    | x :: _ =>
      if x.len ≠ msgLen c then
        (d.postRank c r 1 [{ ty := 5, ember := true, group := c.group, msg := c.id, aux := 2, aux2 := stConflict }]).endColl
          uid { status := stConflict }
      else if !c.sent.contains (2, 0, 0, r) then
        if d.collRuns uid then d.sendBytes c r 2 0 (leAt c.o.bytes 24 8) (msgLen c) else d
      else if d.acked c p then d.endColl uid { status := stOK } else d

/-- What the transfer of a drain to a buddy can do now (R393): it is sent as a SEND is. -/
def progressDrain (d : Dp) (uid : Nat) : Dp :=
  match d.coll uid with
  | none => d
  | some c =>
    let r := leAt c.o.bytes 18 2
    let base := leAt c.o.bytes 24 8
    let total := leAt c.o.bytes 32 8
    match c.credits with
    | [] => d
    | x :: _ =>
      if x.len ≠ total then
        (d.postRank c r 1 [{ ty := 5, ember := true, group := c.group, msg := c.id, aux := 2, aux2 := stConflict }]).endColl
          uid { status := stConflict }
      else if !c.sent.contains (2, 0, 0, r) then
        d.sendPart uid (2, 0, 0, r) r (·.ofs)
          (dataFrames c 2 0 0 (d.dpaBytes base total) ((List.range total).map fun k => d.isPoisoned (base + k)))
      else if d.acked c (c.endpoint r) then d.endColl uid { status := stOK } else d

/-- What a RECV can do now. -/
def progressRecv (d : Dp) (uid : Nat) : Dp :=
  match d.coll uid with
  | none => d
  | some c =>
    let n := msgLen c
    let d := storeMsg uid 2 0 (leAt c.o.bytes 24 8) n d
    match d.coll uid with
    | none => d
    | some c => if d.collRuns uid && c.stored.contains 0 then d.endColl uid { status := stOK, result := n } else d

/-! ### Progress of every collective -/

/-- Bytes that come on an edge of the tree of block `b`. -/
def edgeLen (c : Coll) (b : Nat) : Nat :=
  if c.kind = 3 then 64
  else
    let q := parseRed c.o.bytes
    let r := c.blockRange q.elems b
    (r.2 - r.1) * q.wireFmt.size

/-- The ranks a collective still waits on (R362). -/
def waitsOn (d : Dp) (c : Coll) : List Nat :=
  let others := (List.range c.size).filter fun r => r ≠ c.rank
  match c.op with
  | 0x4C =>
    let kids := ((c.children c.rank).map fun x => x.2).filter fun w => !c.arrived.contains w
    if kids.isEmpty && c.rank ≠ 0 then [c.rank - 2 ^ c.level c.rank] else kids
  | 0x49 => others.filter fun r => !c.stored.contains r || !c.sent.contains (3, 0, r, r) || !d.acked c (c.endpoint r)
  | 0x4A => [leAt c.o.bytes 18 2]
  | 0x50 => [leAt c.o.bytes 18 2]
  | 0x4B => [leAt c.o.bytes 18 2]
  | 0x30 => [leAt c.o.bytes 20 4 % c.size]
  | _ =>
    if c.kind ≤ 1 && !c.fixed then
      if c.rank = c.coord then
        (if (parseRed c.o.bytes).deadline = 0 then others.filter fun r => !c.ready.contains r && !c.gone.contains r else [])
      else [c.coord]
    else
      ((List.range c.size).map fun b =>
        let up := ((c.hosted b).map fun v => ((c.children v).filter fun x =>
            c.host b x.2 ≠ c.rank && (c.partBytes 0 x.1 b x.2 (edgeLen c b)).isNone).map fun x => c.host b x.2).flatten
        let upSend := (c.hosted b).filterMap fun v =>
          if v = 0 then none else
            let p := c.host b (v - 2 ^ c.level v)
            if p = c.rank || c.sent.contains (0, c.level v, b, v) then none else some p
        let down := if c.results.any fun x => x.1 = b then []
          else if c.isIn c.rank then
            ((c.hosted b).filter fun v => v ≠ 0).map fun v => c.host b (v - 2 ^ c.level v)
          else [c.host b (c.virt b c.rank)]
        let downSend := (gatherTo c b).filterMap fun x =>
          if c.sent.contains (1, x.1, b, x.2.1) then none else some x.2.2
        up ++ upSend ++ down ++ downSend).flatten.filter fun r => r ≠ c.rank

/-- A collective that waits on an unreachable peer completes with TIMEOUT (R362). -/
def timeoutDown (d : Dp) (c : Coll) : Dp :=
  if !c.ended && (d.waitsOn c).any fun r => (d.peer (c.endpoint r)).down then d.endColl c.uid { status := stTimeout } else d

/-- What one collective can do now; the first thing is that a wait for an unreachable peer ends it. -/
def progressOne (d : Dp) (uid : Nat) : Dp :=
  let timed (d : Dp) : Dp := match d.coll uid with
    | some c => d.timeoutDown c
    | none => d
  let d := timed d
  match d.coll uid with
  | none => d
  | some c =>
    timed (match c.op with
      | 0x48 => if c.kind = 3 then d.progressRec uid else (d.tryFix uid).progressRed uid
      | 0x49 => d.progressA2a uid
      | 0x4A => d.progressSend uid
      | 0x4B => d.progressRecv uid
      | 0x50 => d.progressDrain uid
      | 0x4C => d.progressBarrier uid
      | _ => d)

/-- What every collective can do now. -/
def progress (d : Dp) : Dp := (d.lnk.colls.map fun c => c.uid).foldl progressOne d

/-! ### Frames -/

/-- The rank of an endpoint in a collective's group. -/
def rankIn (c : Coll) (p : Nat) : Option Nat :=
  let i := c.members.findIdx (· = p)
  if i < c.members.length then some i else none

/-- The active collective of a COLL_ID: a REDUCE, ALLTOALL or BARRIER. -/
def collById (d : Dp) (id : Nat) : Option Coll :=
  d.lnk.colls.find? fun c => c.id = id && !c.ended && [0x48, 0x49, 0x4C].contains c.op

/-- A REDUCE of a COLL_ID whose descriptor has ended, from which the member at endpoint `p` still wants something: its result
(`ready` false), or to be heard late. -/
def endedFor (d : Dp) (id p : Nat) (ready : Bool) : Option Coll :=
  d.lnk.colls.find? fun c => c.id = id && c.ended &&
    (if ready then c.rank = c.coord && (List.range c.size).any fun r => c.endpoint r = p && !c.ready.contains r && !c.gone.contains r
     else (List.range c.size).any fun b => (d.excludedTo c b).any fun x => c.endpoint x.2.2 = p && !c.sent.contains (1, x.1, b, x.2.1))

/-- The oldest SEND (or RECV) of a tag with a peer that `p` accepts. -/
def byTag (d : Dp) (op peer tag : Nat) (p : Coll → Bool) : Option Coll :=
  d.lnk.colls.find? fun c => (c.op = op || (op = 0x4A && c.op = 0x50)) && c.id = tag && c.endpoint (leAt c.o.bytes 18 2) = peer && p c

/-- The effect of a control frame on the collective it names; false where there is none here yet. -/
def applyControl (d : Dp) (f : Culm) : Bool × Dp :=
  let onColl (g : Coll → Nat → Dp) : Bool × Dp :=
    match d.collById f.msg with
    | none => (false, d)
    | some c =>
      match rankIn c f.src with
      | some r => (true, g c r)
      | none => (true, d)
  match f.ty, f.aux with
  | 3, _ =>
    let x : Credit := { peer := f.src, msg := f.msg, level := f.aux2, block := f.aux32, start := leAt f.payload 0 8,
                        len := leAt f.payload 8 8 }
    match (d.endedFor f.msg f.src false).orElse fun _ => d.collById f.msg with
    | some c => (true, d.modColl c.uid fun c => { c with credits := c.credits ++ [x] })
    | none =>
      match d.lnk.colls.find? fun c => c.op = 0x30 && c.id = f.msg with
      | some c => (true, d.modColl c.uid fun c => { c with credits := c.credits ++ [x] })
      | none =>
        match d.byTag 0x4A f.src f.msg fun c => c.group = f.group && c.credits.isEmpty with
        | some c => (true, d.modColl c.uid fun c => { c with credits := [x] })
        | none => (false, d)
  | 4, 0 => onColl fun c r => d.modColl c.uid fun c => { c with arrived := r :: c.arrived }
  | 4, _ => onColl fun c _ => d.modColl c.uid fun c => { c with released := true }
  | 5, 0 =>
    let hear (c : Coll) (r : Nat) : Dp := d.readyFrom c.uid r (leAt f.payload 0 8) (f.aux32 = 1)
    match d.endedFor f.msg f.src true with
    | some c => (true, ((rankIn c f.src).map (hear c)).getD d)
    | none => onColl hear
  | 5, 1 => onColl fun c _ => d.applyBitmap c.uid (bitRanks (slice f.payload 0 64)) (bitRanks (slice f.payload 64 64))
  | 5, _ =>
    match d.collById f.msg with
    | some c =>
      if c.op = 0x48 && c.rank = c.coord && !c.fixed then
        match rankIn c f.src with
        | some r => (true, (d.modColl c.uid fun c => { c with gone := r :: c.gone }).tryFix c.uid)
        | none => (true, d)
      else (true, d.endColl c.uid { status := f.aux2 })
    | none =>
      match d.byTag 0x4A f.src f.msg (·.group = f.group), d.byTag 0x4B f.src f.msg (·.group = f.group) with
      | some c, _ => (true, d.endColl c.uid { status := f.aux2 })
      | none, some c => (true, d.endColl c.uid { status := f.aux2 })
      | none, none => (false, d)
  | 10, _ => onColl fun c r =>
      let kid := (c.hosted 0).any fun v => (c.children v).any fun x => x.1 = f.aux2 && c.host 0 x.2 = r
      let who := ((c.hosted 0).map fun v => (c.children v).filterMap fun x =>
        if x.1 = f.aux2 && c.host 0 x.2 = r then some x.2 else none).flatten
      let p : Part := { phase := if kid then 0 else 1, level := if kid then f.aux2 else 0, block := 0,
                        who := if kid then who.headD 0 else 0, ofs := 0, bytes := f.payload, poison := f.poison, src := f.src }
      d.modColl c.uid fun c => { c with parts := c.parts ++ [p] }
  | _, _ => (true, d)

/-- A control frame arrives: it acts, or is kept for a COLL_ID not dispatched yet; past 4,096 it is not accepted
(R364). -/
def rxControl (d : Dp) (f : Culm) : Dp :=
  if !(d.applyControl f).1 && 4096 ≤ d.lnk.early.length then d
  else
    d.receive 1 f fun d =>
      match d.applyControl f with
      | (true, d) => d.progress
      | (false, d) => d.keepEarly f

/-- The child's virtual rank a reduce-phase frame belongs to: the lowest child hosted by the sender whose bytes at
this offset are still missing. -/
def edgeWho (c : Coll) (b l r ofs : Nat) : Nat :=
  let cand := ((c.hosted b).map fun v => (c.children v).filterMap fun x =>
    if x.1 = l && c.host b x.2 = r then some x.2 else none).flatten
  (cand.find? fun w => !(c.parts.any fun p => p.phase = 0 && p.level = l && p.block = b && p.who = w && p.ofs = ofs)).getD
    (cand.headD 0)

/-- A DATA frame's payload (Table 12.6). -/
def rxData (d : Dp) (f : Culm) : Dp :=
  d.receive 0 f fun d =>
    let add (c : Coll) (p : Part) : Dp := (d.modColl c.uid fun c => { c with parts := c.parts ++ [p] }).progress
    let part (level who : Nat) : Part :=
      { phase := f.aux, level, block := f.aux32, who, ofs := f.ofs, bytes := f.payload, poison := f.poison, src := f.src }
    if f.aux = 2 then
      match d.byTag 0x4B f.src f.msg fun c =>
          c.group = f.group && !(c.parts.any fun p => p.ofs = f.ofs) && f.ofs + f.payload.length ≤ msgLen c with
      | some c => add c { part 0 0 with block := 0 }
      | none => d
    else
      match d.collById f.msg with
      | none => d
      | some c =>
        match rankIn c f.src with
        | none => d
        | some r =>
          match f.aux with
          | 0 => add c (part f.aux2 (edgeWho c f.aux32 f.aux2 r f.ofs))
          | 1 => add c (part 0 0)
          | _ => if msgLen c < f.ofs + f.payload.length then d else add c { part 0 0 with block := r }

/-- Control frames kept for a COLL_ID that is dispatched now act. -/
def applyEarly (d : Dp) : Dp :=
  let fs := d.lnk.early
  let d : Dp := { d with lnk := { d.lnk with early := [] } }
  fs.foldl (fun d f => match d.applyControl f with
    | (true, d) => d
    | (false, d) => d.keepEarly f) d

/-- The coordinator's deadline for a collective passes (R370). -/
def deadlineExpiry (d : Dp) (id : Nat) : Dp :=
  match d.collById id with
  | some c =>
    if c.op = 0x48 && c.kind ≤ 1 && c.rank = c.coord && !c.fixed && (parseRed c.o.bytes).deadline ≠ 0 then
      ((d.modColl c.uid fun c => { c with expired := true }).tryFix c.uid).progress
    else d
  | none => d

/-- LNK_PEER_TIMEOUT of silence for a collective: of the coordinator (R370). -/
def peerTimeout (d : Dp) (id : Nat) : Dp :=
  match d.collById id with
  | some c =>
    if c.op = 0x48 && c.kind ≤ 1 && c.rank ≠ c.coord && !c.fixed then d.endColl c.uid { status := stTimeout } else d
  | none => d

/-- A member's READY has not arrived within LNK_PEER_TIMEOUT of the deadline (R374). -/
def stragglerTimeout (d : Dp) (id r : Nat) : Dp :=
  match (d.lnk.colls.find? fun c => c.id = id && c.ended && c.rank = c.coord && r < c.size && !c.ready.contains r).orElse
      fun _ => d.collById id with
  | some c =>
    if c.op = 0x48 && c.kind ≤ 1 && c.rank = c.coord && c.fixed && r < c.size && !c.ready.contains r then
      ((d.modColl c.uid fun c => { c with ready := c.ready ++ [r] }).straggler c r 0xFFFFFFFF).progress
    else d
  | none => d

/-- TIMEOUT_US of a BARRIER expires (Table 12.13). -/
def barrierTimeout (d : Dp) (id : Nat) : Dp :=
  match d.collById id with
  | some c =>
    if c.op = 0x4C && leAt c.o.bytes 24 4 ≠ 0 then d.endColl c.uid { status := stTimeout } else d
  | none => d

/-! ### Dispatch -/

/-- A descriptor found malformed after it became outstanding (R318): its ending names the offending byte. -/
def rejection (ofs : Nat) : Ending := { status := stDenied, detail := 1, ofs, halts := true }

/-- Completes a descriptor that became outstanding and fails a check at dispatch: malformed at byte `ofs`. -/
def rejectAt (d : Dp) (n uid ofs : Nat) : Dp := d.complete n uid (rejection ofs)

/-- The entries of a group's member table are what its frames go by from now on (R355); a member that no port reaches is
unreachable (R362). -/
def learnPorts (d : Dp) (g : Nat) (x : Group) : Dp :=
  let new := x.members.map fun m => ({ group := g, peer := m.endpoint, ports := m.ports, mac := m.mac, ip6 := m.ip6 } : Path)
  checkPeers { d with lnk := { d.lnk with paths := new ++ d.lnk.paths.filter fun p => p.group ≠ g } }

/-- Reads a collective's group and judges it on; `next` continues with the group. -/
def withGroup (n : Nat) (o : Outst) (g : Nat) (ofs : Nat) (next : Group → Dp → Dp) (d : Dp) : Dp :=
  match Dp.run (readGroup (d.envOf n o) (d.reg Reg.lnkGrpBase) g) Dp.atsFuel d with
  | (.error t, d) => d.meet n o (d.stokerHalf n) 0 t
  | (.ok (none, _), d) => d.rejectAt n o.uid ofs
  | (.ok (some x, _), d) => next x (d.learnPorts g x)

/-- A collective becomes active. -/
def addColl (d : Dp) (c : Coll) : Dp := { d with lnk := { d.lnk with colls := d.lnk.colls ++ [c] } }

/-- The leaf of a REDUCE: its source values, with a held contribution added (R371). -/
def readLeaf (e : Env) (q : RedP) (fold : Bool) : M (List (FV × Bool)) :=
  (List.range q.s.count).mapM fun i => Work.poisonOf do
    let v ← Work.load e q.s (q.s.coord i)
    if fold then return (FV.of32 (← Work.readNat e (q.hold + 4 * i) 4)).add32 v
    return v

/-- What a REDUCE of group `g` shows against itself before it runs (Table 12.13): how it ends then. -/
def redRefusal (d : Dp) (n : Nat) (spans : List Span) (q : RedP) (g : Group) : Option Ending :=
  let s := g.members.length
  let mine := (g.rank + 1) * q.elems / s - g.rank * q.elems / s
  if q.kind = 1 && q.t.count ≠ mine then some (rejection 224)
  else if q.kind = 2 && q.s.count ≠ mine then some (rejection 96)
  else if q.misaligned then some { status := stAlign }
  else if selfOverlap q.outs q.ins || d.guardRefuses n spans then some { status := stOverlap }
  else if (d.collById q.id).isSome then some { status := stConflict }
  else none

/-- The start of a REDUCE (R370, R371, R373, Table 12.13). -/
def startReduce (n : Nat) (o : Outst) (d : Dp) : Dp :=
  let q := parseRed o.bytes
  let e := d.envOf n o
  if (d.coll o.uid).isSome then (d.setPhase o.uid .running).progress
  else
    withGroup n o q.group 18 (fun g d =>
      let s := g.members.length
      let base : Coll := { uid := o.uid, ring := n, op := 0x48, o, kind := q.kind, id := q.id, group := q.group,
                           members := g.members.map (·.endpoint), rank := g.rank, coord := g.coord, start := d.elapsed }
      match d.redRefusal n o.spans q g with
      | some x => d.complete n o.uid x
      | none =>
      if q.kind = 3 then
        match Dp.run (Work.poisonOf (Work.readBytes e q.hold 64)) Dp.atsFuel d with
        | (.error t, d) => d.meet n o (d.stokerHalf n) 0 t
        | (.ok ((bs, bad), _), d) =>
          let fl := leAt bs 8 1
          if !fl.testBit 2 || fl.testBit 1 then d.complete n o.uid { status := stDenied, detail := 3 }
          else
            let (incl, carry) := d.lnk.stepIncl.getD (List.range s, [])
            let late := !incl.contains g.rank
            let holds := d.lnk.holds.map fun h =>
              if h.group = q.group && h.step = d.fll.step && h.ovf = none then { h with ovf := some (fl.testBit 0) } else h
            let data := if d.lnk.foldedOvf.contains q.group && !late then slice bs 0 8 ++ toLe 1 (fl ||| 1) ++ slice bs 9 55 else bs
            let foldedOvf := if late then d.lnk.foldedOvf else d.lnk.foldedOvf.filter fun x => x ≠ q.group
            let d : Dp := { d with lnk := { d.lnk with holds, foldedOvf } }
            ((d.addColl { base with fixed := true, incl, carry, late, data, dataBad := bad }).applyEarly).progress
      else
        let held := d.lnk.holds.find? fun h => q.late && h.group = q.group && h.dva = q.hold
        match Dp.run (readLeaf e q held.isSome) Dp.atsFuel d with
        | (.error t, d) => d.meet n o (d.stokerHalf n) 0 t
        | (.ok (leaf, _), d) =>
          let d : Dp := match held with
            | some h => { d with lnk := { d.lnk with
                holds := d.lnk.holds.filter fun x => !(x.group = q.group && x.dva = q.hold),
                foldedOvf := if h.ovf = some true then q.group :: d.lnk.foldedOvf else d.lnk.foldedOvf } }
            | none => d
          let c := { base with leaf, digest := q.digest g, carries := held.isSome, heldOvf := held.any fun h => h.ovf = some true }
          if q.kind = 2 then
            let all := List.range s
            let c := { c with fixed := true, incl := all }
            let d := d.addColl c
            let es := q.s.conv.fmt.size
            let d := d.grantAll c (fun _ => 0) fun b => let r := c.blockRange q.elems b; (r.2 - r.1) * es
            d.applyEarly.progress
          else if g.rank = g.coord then
            ((d.addColl { c with ready := [g.rank], announced := if held.isSome then [g.rank] else [] }).applyEarly).progress
          else
            let f : Culm := { ty := 5, ember := true, group := q.group, msg := q.id, aux := 0,
                              aux32 := if held.isSome then 1 else 0, payload := toLe 8 c.digest }
            (((d.addColl c).postRank c g.coord 1 [f]).applyEarly).progress) d

/-- Malformed conditions of ALLTOALL, SEND, RECV and BARRIER (Table 12.12). -/
def msgBad (op : Nat) (bs : List Byte) : List (Bool × Nat) :=
  let slots : List (Bool × Nat) := [((parseHdr bs).slots ≠ 1, 1)]
  slots ++ (match op with
  | 0x49 => [(!zeroAt bs 18 2, 18), (leAt bs 40 8 = 0 || 2 ^ 32 < leAt bs 40 8, 40), (!zeroAt bs 48 16, 48)]
  | 0x4C => [(!zeroAt bs 18 2, 18), (!zeroAt bs 28 4, 28), (!zeroAt bs 32 32, 32)]
  | _ => [(leAt bs 32 8 = 0 || 2 ^ 40 < leAt bs 32 8, 32), (!zeroAt bs 40 24, 40)])

/-- Spans of ALLTOALL, SEND, RECV and BARRIER; the blocks of an ALLTOALL are counted for `s` members. -/
def msgSpans (op : Nat) (s : Nat) (bs : List Byte) : List Span :=
  match op with
  | 0x49 => [arraySpan (leAt bs 24 8) (s * leAt bs 40 8) false, arraySpan (leAt bs 32 8) (s * leAt bs 40 8) true]
  | 0x4A => [arraySpan (leAt bs 24 8) (leAt bs 32 8) false]
  | 0x4B => [arraySpan (leAt bs 24 8) (leAt bs 32 8) true]
  | _ => []

/-- The start of an ALLTOALL, SEND, RECV or BARRIER. -/
def startMsg (op n : Nat) (o : Outst) (d : Dp) : Dp :=
  let bs := o.bytes
  if (d.coll o.uid).isSome then (d.setPhase o.uid .running).progress
  else
    withGroup n o (leAt bs 16 2) 16 (fun g d =>
      let s := g.members.length
      let peer := leAt bs 18 2
      let sp := msgSpans op s bs
      let tagged := op = 0x4A || op = 0x4B
      let align := (op ≠ 0x4C && leAt bs 24 8 % 64 ≠ 0) || (op = 0x49 && leAt bs 32 8 % 64 ≠ 0)
      let c : Coll := { uid := o.uid, ring := n, op, o, id := leAt bs 20 4, group := leAt bs 16 2,
                        members := g.members.map (·.endpoint), rank := g.rank, coord := g.coord, start := d.elapsed }
      if tagged && (s ≤ peer || peer = g.rank) then d.rejectAt n o.uid 18
      else if align then d.complete n o.uid { status := stAlign }
      else if (op = 0x49 && sp.any fun a => a.stored && sp.any fun b => !b.stored && a.meets b) ||
          d.guardRefuses n sp then d.complete n o.uid { status := stOverlap }
      else if !tagged && (d.collById c.id).isSome then d.complete n o.uid { status := stConflict }
      else
        let d := d.modOutst n o.uid fun o => { o with spans := sp }
        let d := d.addColl { c with fixed := true, incl := List.range s }
        let n8 := msgLen c
        let d := match op with
          | 0x49 => (List.range s).foldl (fun (d : Dp) r => if r = g.rank then d else d.grant c r 0 g.rank n8) d
          | 0x4B => d.grant c peer 0 0 n8
          | _ => d
        d.applyEarly.progress) d

end Dp

/-- The conversion words whose streams a REDUCE captures at its dispatch (R59): none when it is refused there. -/
def Dp.redStreams (d : Dp) (c : OpCtx) : List Conv :=
  let q := parseRed c.bytes
  let refused := match Dp.peek c (fun e => readGroup e (d.reg Reg.lnkGrpBase) q.group) d with
    | some (some g) => (d.redRefusal c.ring c.spans q g).isSome
    | some none => true
    | none => false
  if q.kind = 3 || refused then [] else [q.t.conv]

/-- REDUCE at its dispatch. -/
def opReduce (c : OpCtx) (d : Dp) : Dp :=
  match firstBad (RedP.bad c.bytes ++ d.sheafBad c.ring c.hdr .never) with
  | some o => d.malformed c o
  | none => Dp.enter c (d.redStreams c) Dp.startReduce d

/-- ALLTOALL, SEND, RECV and BARRIER at their dispatch. -/
def opMsg (op : Nat) (c : OpCtx) (d : Dp) : Dp :=
  match firstBad (Dp.msgBad op c.bytes ++ d.sheafBad c.ring c.hdr .never) with
  | some o => d.malformed c o
  | none => (d.begin c).startMsg op c.ring (d.opened c)

end Sys2Proof.Machine
end

