-- ==== Sys2Proof/Machine/Train.lean ====
section
/-!
DEFINITION. The training passes (R239–R263): NORM and the step record, UPDATE with its variants, the step boundary,
replica fingerprints with their verdicts and repairs, and RECOMPUTE.
-/
namespace Sys2Proof.Machine

/-! ### NORM (R242, R243, R262) -/

/-- A NORM descriptor (Table 8.10). -/
structure NormP where
  mode : Nat
  group : Nat
  pslot : Nat
  ncontrib : Nat
  stepRec : Nat
  s : TDesc
  deriving DecidableEq, Repr

/-- Reads a NORM descriptor. -/
def parseNorm (bs : List Byte) : NormP :=
  { mode := leAt bs 16 1 % 4, group := leAt bs 17 1 % 8, pslot := leAt bs 18 2 % 4096, ncontrib := leAt bs 20 4,
    stepRec := leAt bs 24 8, s := parseT bs 64 }

namespace NormP

/-- Malformed conditions of NORM; `base` is FLL_NORM_BASE. -/
def bad (base : Nat) (bs : List Byte) : List (Bool × Nat) :=
  let q := parseNorm bs
  let part := q.mode = 0
  ([((parseHdr bs).slots ≠ (if part then 3 else 1), 1), (4 ≤ leAt bs 16 1 || q.mode = 3 || base = 0, 16),
    (8 ≤ leAt bs 17 1 || (!part && q.group ≠ 0), 17), (4096 ≤ leAt bs 18 2 || (!part && q.pslot ≠ 0), 18),
    ((q.mode = 2) == decide (q.ncontrib = 0), 20), (part == decide (q.stepRec ≠ 0), 24), (!zeroAt bs 32 32, 32)] :
      List (Bool × Nat)) ++
  (if part then TDesc.bad bs 64 false else [])

/-- The ALIGN conditions. -/
def misaligned (q : NormP) : Bool := if q.mode = 0 then q.s.misaligned else q.stepRec % 64 ≠ 0

/-- Spans of NORM: the source and its slot, or the partial array and the record. -/
def spans (base : Nat) (bs : List Byte) : List Span :=
  let q := parseNorm bs
  if q.mode = 0 then q.s.spans false ++ [arraySpan (base + 8 * q.pslot) 8 true]
  else [arraySpan base 32768 true, arraySpan q.stepRec 64 true]

end NormP

namespace Work

/-- NORM PARTIAL: the pair sum of the squares of the source, written to its slot (R242). A poisoned line makes the
sum NaN (Table 8.12). -/
def normPartial (e : Env) (base : Nat) (q : NormP) : M Nat := do
  let (vs, bad) ← poisonOf ((List.range q.s.count).mapM fun i => load e q.s (q.s.coord i))
  let sum := (pairTree FV.add32 (vs.map fun v => v.mul32 v)).getD FV.zero
  let bits := if bad then FV.bits32 (.nan false) else sum.bits32
  if bad then markPoisoned e
  put (base + 8 * q.pslot) (toLe 4 bits ++ toLe 1 q.group ++ [1, 0, 0]) false
  flush e
  return bits

/-- NORM CLOSE and CLOSE_POD: the step record from the valid slots, which are then cleared (R243). -/
def normClose (e : Env) (base : Nat) (q : NormP) : M Unit := do
  let (slots, bad) ← poisonOf ((List.range 4096).mapM fun p => readBytes e (base + 8 * p) 8)
  let valid := (List.range 4096).filter fun p => leAt (slots.getD p []) 5 1 = 1
  let sums := (List.range 8).map fun g =>
    let l := (valid.filter fun p => leAt (slots.getD p []) 4 1 = g).map fun p => FV.of32 (leAt (slots.getD p []) 0 4)
    if bad then .nan false else (pairTree FV.add32 l).getD FV.zero
  if bad then markPoisoned e
  let d := (← get).d
  let ovf := ((d.regs.inForce Reg.lsCfg).bit 0 && d.phx.ovf) || sums.any fun v => !v.isFinite
  let flags := (if ovf then 1 else 0) + (if q.mode = 2 then 2 else 0) + 4
  put q.stepRec (toLe 8 d.fll.step ++ toLe 1 flags ++ toLe 3 0 ++ toLe 4 (if q.mode = 2 then q.ncontrib else 1) ++
    (sums.map fun v => toLe 4 v.bits32).flatten ++ List.replicate 16 0) false
  for p in valid do put (base + 8 * p + 5) [0] false
  flush e

end Work

/-- The work of a NORM on the partial array at `base`; answers its result word. -/
def normWork (e : Env) (base : Nat) (q : NormP) : M Nat :=
  if q.mode = 0 then Work.normPartial e base q else do
    Work.normClose e base q
    return 0

/-- The start of a NORM. -/
def startNorm (n : Nat) (o : Outst) (d : Dp) : Dp :=
  match Dp.run (normWork (d.envOf n o) ((d.reg Reg.fllNormBase).fld 51 15 * 32768) (parseNorm o.bytes)) Dp.atsFuel d with
  | (.error t, d) => d.meet n o (d.stokerHalf n) 0 t
  | (.ok (w, wk), _) => wk.d.finished o.uid { status := stOK, result := w }

/-- NORM at its dispatch (Table 8.12). -/
def opNorm (c : OpCtx) (d : Dp) : Dp :=
  let base := (d.reg Reg.fllNormBase).fld 51 15 * 32768
  let q := parseNorm c.bytes
  let sp := NormP.spans base c.bytes
  Dp.judged c (NormP.bad base c.bytes) .never q.misaligned (Dp.selfOverlap (sp.filter (·.stored)) (sp.filter fun s => !s.stored))
    (Dp.enter c [] startNorm) d

/-! ### UPDATE (R247–R254, R261) -/

/-- An UPDATE descriptor (Tables 8.7–8.9). -/
structure UpdP where
  opt : Nat
  network : Bool
  clip : Bool
  l2 : Bool
  nesterov : Bool
  firstMom : Bool
  group : Nat
  fp : Bool
  fpidx : Nat
  shardId : Nat
  stepRec : Nat
  owner : Nat
  g : TDesc
  w : TDesc
  /-- MASTER, MOM1, MOM2, ROWV, COLV, ACC -/
  refs : List Nat
  /-- the coefficients of Table 8.9, in their order -/
  coef : List FV
  deriving DecidableEq, Repr

/-- Reads an UPDATE descriptor. -/
def parseUpd (bs : List Byte) : UpdP :=
  let b := leAt bs 16 1
  let c := leAt bs 17 1
  { opt := b % 8, network := b.testBit 3, clip := b.testBit 4, l2 := b.testBit 5, nesterov := b.testBit 6,
    firstMom := b.testBit 7, group := c % 8, fp := c.testBit 3, fpidx := leAt bs 18 2 % 4096, shardId := leAt bs 20 4,
    stepRec := leAt bs 24 8, owner := leAt bs 32 2 % 512, g := parseT bs 64, w := parseT bs 192,
    refs := (List.range 6).map fun i => leAt bs (320 + 8 * i) 8,
    coef := (List.range 12).map fun i => FV.of32 (leAt bs (384 + 4 * i) 4) }

namespace UpdP

/-- E. -/
def count (q : UpdP) : Nat := q.g.count
/-- A reference by its place in Table 8.8. -/
def ref (q : UpdP) (i : Nat) : Nat := q.refs.getD i 0
/-- A coefficient by its place in Table 8.9: LR BETA1 OMB1 BETA2 OMB2 EPS C1 C2 WD MAXNORM CLIP_EPS EPS1. -/
def co (q : UpdP) (i : Nat) : FV := q.coef.getD i FV.zero
/-- Rows and columns of the factored second moment (R251). -/
def rows (q : UpdP) : Nat := q.g.n 1
def cols (q : UpdP) : Nat := q.g.n 0

/-- Is the reference required (Table 8.8). -/
def needs (q : UpdP) (i : Nat) : Bool :=
  if q.network then false
  else
    match i with
    | 0 => q.opt ≤ 2
    | 1 => q.opt ≤ 1 || (q.opt = 2 && q.firstMom)
    | 2 => q.opt = 0
    | 3 => q.opt = 2
    | 4 => q.opt = 2
    | _ => q.opt = 3

/-- Bytes of a state array. -/
def len (q : UpdP) (i : Nat) : Nat := 4 * (if i = 3 then q.rows else if i = 4 then q.cols else q.count)

/-- The coefficients an UPDATE uses. -/
def usesCo (q : UpdP) (i : Nat) : Bool :=
  if q.network || q.opt = 3 then false
  else
    match i with
    | 0 => true
    | 1 => q.opt ≤ 1 || q.firstMom
    | 2 => q.opt = 0 || (q.opt = 2 && q.firstMom)
    | 3 => q.opt ≠ 1
    | 4 => q.opt ≠ 1
    | 5 => q.opt ≠ 1
    | 6 => q.opt = 0 || (q.opt = 2 && q.firstMom)
    | 7 => q.opt ≠ 1
    | 8 => true
    | 9 => q.clip
    | 10 => q.clip
    | _ => q.opt = 2

/-- Malformed conditions of UPDATE with OPT = STEP. -/
def stepBad (bs : List Byte) : List (Bool × Nat) :=
  let q := parseUpd bs
  [((parseHdr bs).slots ≠ 1, 1), (leAt bs 16 1 ≠ 4, 16), (!zeroAt bs 17 1, 17), (!zeroAt bs 18 2, 18),
   (!zeroAt bs 20 4, 20), (q.stepRec = 0, 24), (!zeroAt bs 32 2, 32), (!zeroAt bs 34 30, 34)]

/-- Malformed conditions of the other UPDATEs; `fpOn` is FLL_CTL.FP_EN, `fpBase` FLL_FP_BASE. -/
def bad (fpOn : Bool) (fpBase : Nat) (bs : List Byte) : List (Bool × Nat) :=
  let q := parseUpd bs
  let acc := q.opt = 3
  let b := leAt bs 16 1
  ([((parseHdr bs).slots ≠ 7, 1),
    (5 ≤ q.opt || (q.network && (3 ≤ q.opt || q.clip || q.l2)) || (acc && b ≠ 3) || (q.nesterov && q.opt ≠ 1) ||
      (q.firstMom && q.opt ≠ 2), 16),
    (16 ≤ leAt bs 17 1 || (!q.clip && q.group ≠ 0) || (fpOn && q.fp && fpBase = 0), 17),
    (4096 ≤ leAt bs 18 2 || (!q.fp && q.fpidx ≠ 0), 18), (acc == decide (q.stepRec ≠ 0), 24),
    (512 ≤ leAt bs 32 2 || (!q.fp && leAt bs 32 2 ≠ 0), 32), (!zeroAt bs 34 30, 34)] : List (Bool × Nat)) ++
  TDesc.bad bs 64 false ++ q.g.plainBad 64 ++
  (if acc then ([(!zeroAt bs 192 128, 192)] : List (Bool × Nat))
   else TDesc.bad bs 192 true ++ q.w.plainBad 192 ++ TDesc.sameShape q.g q.w 192) ++
  (if q.opt = 2 && !q.network then
    ([(q.g.ndim ≠ 2, 88), (2 ^ 24 < q.g.n 0, 96), (2 ^ 24 < q.g.n 1, 100)] : List (Bool × Nat)) else []) ++
  (List.range 6).map (fun i => (q.needs i == decide (q.ref i = 0), 320 + 8 * i)) ++
  ([(!zeroAt bs 368 16, 368)] : List (Bool × Nat)) ++
  (List.range 12).map (fun i => (!q.usesCo i && !zeroAt bs (384 + 4 * i) 4, 384 + 4 * i)) ++
  ([(q.clip && !((FV.zero).lt (q.co 9)), 420), (!zeroAt bs 432 16, 432)] : List (Bool × Nat))

/-- The ALIGN conditions. -/
def misaligned (q : UpdP) : Bool :=
  q.stepRec % 64 ≠ 0 || (q.opt ≠ 4 && (q.g.misaligned || (q.opt ≠ 3 && q.w.misaligned) || q.refs.any fun r => r % 64 ≠ 0))

/-- The arrays the UPDATE writes, in the order of R255, as spans. -/
def outs (q : UpdP) : List Span :=
  (if q.opt = 3 then [] else q.w.spans true) ++
  ((List.range 6).filter q.needs).map fun i => arraySpan (q.ref i) (q.len i) true 5

/-- What it reads besides. -/
def ins (q : UpdP) : List Span :=
  (if q.opt = 4 then [] else q.g.spans false) ++ (if q.stepRec = 0 then [] else [arraySpan q.stepRec 64 false])

end UpdP

/-- Spans of an UPDATE. -/
def updSpans (bs : List Byte) : List Span :=
  let q := parseUpd bs
  if q.opt = 4 then q.ins else q.ins ++ q.outs

/-- What a step record says (Table 8.2). -/
structure StepRec where
  step : Nat
  ovf : Bool
  reduced : Bool
  closed : Bool
  n : Nat
  normsq : List FV
  deriving DecidableEq, Repr

namespace Work

/-- Reads a step record. -/
def readRec (e : Env) (a : Nat) : M StepRec := do
  let bs ← readBytes e a 64
  let f := leAt bs 8 1
  return { step := leAt bs 0 8, ovf := f.testBit 0, reduced := f.testBit 1, closed := f.testBit 2, n := leAt bs 12 4,
           normsq := (List.range 8).map fun g => FV.of32 (leAt bs (16 + 4 * g) 4) }

/-- A number as an FP32 value. -/
def fpNat (n : Nat) : FV := FV.r32 (.fin false n 0)

/-- The scale f of an UPDATE (R249). -/
def updScale (q : UpdP) (r : StepRec) (x : Int) : FV :=
  let one : FV := .fin false 1 0
  let n := fpNat r.n
  let s := (r.normsq.getD q.group FV.zero).sqrt32
  let norm := ((s.scale (-x)).r32).div32 n
  let c := if q.clip then one.min ((q.co 9).div32 (norm.add32 (q.co 10))) else one
  (((c.div32 n).scale (-x)).r32)

/-- The new values of one element (R250): w, m and v. `vhat` is the factored second moment of ADAFACTOR. -/
def updElem (q : UpdP) (f gsrc master m1 m2 vhat : FV) : FV × FV × FV :=
  let g := gsrc.mul32 f
  let g := if q.l2 then g.add32 ((q.co 8).mul32 master) else g
  let (d, m, v) := match q.opt with
    | 0 =>
      let m := ((q.co 1).mul32 m1).add32 ((q.co 2).mul32 g)
      let v := ((q.co 3).mul32 m2).add32 ((q.co 4).mul32 (g.mul32 g))
      ((m.mul32 (q.co 6)).div32 (((v.mul32 (q.co 7)).sqrt32).add32 (q.co 5)), m, v)
    | 1 =>
      let m := ((q.co 1).mul32 m1).add32 g
      (if q.nesterov then g.add32 ((q.co 1).mul32 m) else m, m, m2)
    | _ =>
      let u := g.div32 (((vhat.mul32 (q.co 7)).sqrt32).add32 (q.co 5))
      if q.firstMom then
        let m := ((q.co 1).mul32 m1).add32 ((q.co 2).mul32 u)
        (m.mul32 (q.co 6), m, vhat)
      else (u, m1, vhat)
  let d := if q.l2 then d else d.add32 ((q.co 8).mul32 master)
  (master.sub32 ((q.co 0).mul32 d), m, v)

/-- The engine a state line is assigned to (R252). -/
def engineOf (d : Dp) : Loc → Nat
  | .host _ => 0
  | .dev a =>
    if 0x012000000000 ≤ a then (d.place a).2
    else
      let h := d.halfOf a
      let k := a / 128 % 16
      16 * h + (((List.range 16).map fun i => (k + i) % 16).find? fun i => !d.mem.retL.has (16 * h + i)).getD k

/-- The engine that computes element `i`: that of its line in the first state array. -/
def updEngine (e : Env) (q : UpdP) (i : Nat) : M Nat := do
  match (List.range 6).find? q.needs with
  | none => return 0
  | some k =>
    let j := if k = 3 then i / max 1 q.cols else if k = 4 then i % max 1 q.cols else i
    let l ← locate e (q.ref k + 4 * j) false
    return engineOf (← get).d l

/-- An FP32 value of a state array, with its poison. -/
def stateAt (e : Env) (a i : Nat) : M (FV × Bool) :=
  poisonOf do return FV.of32 (← readNat e (a + 4 * i) 4)

/-- A sequential sum. -/
def seqSum (l : List FV) : FV :=
  match l with
  | [] => FV.zero
  | x :: xs => xs.foldl FV.add32 x

/-- Puts the FP32 values of a state array into the batch and answers their bytes. -/
def putState (a : Nat) (vs : List (FV × Bool)) : M (List Byte) := do
  for i in List.range vs.length do
    let v := vs.getD i (FV.zero, false)
    put (a + 4 * i) (toLe 4 v.1.bits32) v.2
  return (vs.map fun v => toLe 4 v.1.bits32).flatten

/-- Puts W into the batch under its conversion word and answers its stored bytes in increasing e. -/
def putW (e : Env) (q : UpdP) (ws : List (FV × Bool)) (engines : List Nat) : M (List Byte) := do
  let parts ← (List.range ws.length).mapM fun i => do
    let w := ws.getD i (FV.zero, false)
    let k := (← get).cells.length
    let val (c : List Nat) : M FV := return (ws.getD (q.w.index c) (FV.zero, false)).1
    storeAt e q.w val (q.w.coord i) w.2 true
      { elemOrigin e q.w 0 i with tiller := 255, array := 7, engine := engines.getD i 0 }
    return (((← get).cells.drop k).take q.w.esize).map fun c => c.byte
  return parts.flatten

/-- The factored second moment's first pass (R251): new row and column values and rsum. -/
def factors (e : Env) (q : UpdP) (gs : List FV) (f : FV) (masters : List FV) :
    M (List (FV × Bool) × List (FV × Bool) × FV) := do
  let g (i : Nat) : FV :=
    let x := (gs.getD i FV.zero).mul32 f
    if q.l2 then x.add32 ((q.co 8).mul32 (masters.getD i FV.zero)) else x
  let qv (i j : Nat) : FV := let x := g (i * q.cols + j); (x.mul32 x).add32 (q.co 11)
  let row ← (List.range q.rows).mapM fun i => do
    let (old, bad) ← stateAt e (q.ref 3) i
    let rs := seqSum ((List.range q.cols).map fun j => qv i j)
    return (((q.co 3).mul32 old).add32 ((q.co 4).mul32 (rs.div32 (fpNat q.cols))), bad)
  let col ← (List.range q.cols).mapM fun j => do
    let (old, bad) ← stateAt e (q.ref 4) j
    let cs := seqSum ((chunks 64 (List.range q.rows)).map fun b => seqSum (b.map fun i => qv i j))
    return (((q.co 3).mul32 old).add32 ((q.co 4).mul32 (cs.div32 (fpNat q.rows))), bad)
  return (row, col, seqSum (row.map fun x => x.1))

/-- UPDATE with OPT = ACCUM (R240, R250): answers the bytes it wrote. -/
def updAccum (e : Env) (q : UpdP) : M (List Byte) := do
  let vs ← (List.range q.count).mapM fun i => do
    let (g, b1) ← poisonOf (load e q.g (q.g.coord i))
    let (a, b2) ← stateAt e (q.ref 5) i
    let v := a.add32 g
    let k ← updEngine e q i
    nan e v { elemOrigin e q.g 0 i with src := 3, tiller := 255, array := 7, engine := k }
    if b1 || b2 then markPoisoned e
    return (v, b1 || b2)
  let bytes ← putState (q.ref 5) vs
  flush e
  return bytes

/-- UPDATE with ADAMW, SGDM or ADAFACTOR on the engines (R249–R252): answers the bytes it wrote, in the order of
R255. -/
def updLocal (e : Env) (q : UpdP) (r : StepRec) (recBad : Bool) : M (List Byte) := do
  let f := updScale q r e.lsExp
  let idx := List.range q.count
  let gs ← idx.mapM fun i => poisonOf (load e q.g (q.g.coord i))
  let ms ← idx.mapM fun i => stateAt e (q.ref 0) i
  let zero : FV × Bool := (FV.zero, false)
  let m1 ← if q.needs 1 then idx.mapM fun i => stateAt e (q.ref 1) i else pure (idx.map fun _ => zero)
  let m2 ← if q.needs 2 then idx.mapM fun i => stateAt e (q.ref 2) i else pure (idx.map fun _ => zero)
  let (row, col, rsum) ←
    if q.opt = 2 then factors e q (gs.map fun x => x.1) f (ms.map fun x => x.1) else pure ([], [], FV.zero)
  let anyBad := recBad || (q.opt = 2 && (gs.any (·.2) || row.any (·.2) || col.any (·.2)))
  let engines ← idx.mapM fun i => updEngine e q i
  let out := idx.map fun i =>
    let g := gs.getD i zero
    let w := ms.getD i zero
    let a := m1.getD i zero
    let b := m2.getD i zero
    let vh := if q.opt = 2 then
        ((row.getD (i / max 1 q.cols) zero).1.mul32 (col.getD (i % max 1 q.cols) zero).1).div32 rsum else FV.zero
    let (w', m', v') := updElem q f g.1 w.1 a.1 b.1 vh
    ((w', m', v'), anyBad || g.2 || w.2 || a.2 || b.2)
  if out.any (·.2) then markPoisoned e
  for i in idx do
    match out[i]? with
    | some x => nan e x.1.1 { elemOrigin e q.w 0 i with src := 3, tiller := 255, array := 7, engine := engines.getD i 0 }
    | none => pure ()
  let bw ← putW e q (out.map fun x => (x.1.1, x.2)) engines
  let bm ← putState (q.ref 0) (out.map fun x => (x.1.1, x.2))
  let b1 ← if q.needs 1 then putState (q.ref 1) (out.map fun x => (x.1.2.1, x.2)) else pure []
  let b2 ← if q.needs 2 then putState (q.ref 2) (out.map fun x => (x.1.2.2, x.2)) else pure []
  let b3 ← if q.opt = 2 then putState (q.ref 3) (row.map fun x => (x.1, anyBad || x.2)) else pure []
  let b4 ← if q.opt = 2 then putState (q.ref 4) (col.map fun x => (x.1, anyBad || x.2)) else pure []
  flush e
  return bw ++ bm ++ b1 ++ b2 ++ b3 ++ b4

end Work

namespace Dp

/-- Leaves the fingerprint of an UPDATE to its sheaf's commit (R255, R256). -/
def leaveFp (d : Dp) (o : Outst) (q : UpdP) (bytes : List Byte) : Dp :=
  match o.sheaf with
  | none => d
  | some id =>
    if !q.fp || !(d.reg Reg.fllCtl).bit 2 then d
    else
      let s := d.sheaf id
      let x : FpDue := { uid := o.uid, fpidx := q.fpidx, shardId := q.shardId, owner := q.owner, crc := crc64 0 bytes,
                         space := o.space, desc := o.bytes }
      d.setSheaf id { s with fps := (s.fps.filter fun y => y.uid ≠ o.uid) ++ [x] }

/-- An UPDATE has written its elements (Table 8.15). -/
def updated (d : Dp) (o : Outst) (q : UpdP) (bytes : List Byte) : Dp :=
  ((d.leaveFp o q bytes).bump (Reg.fllCnt 0) q.count).finished o.uid
    { status := stOK, result := q.count % 2 ^ 32 * 2 ^ 32 }

end Dp

/-- The judgement of the step record an UPDATE names (R247): none where the UPDATE goes on. -/
def recVerdict (r : StepRec) : Option Ending :=
  if !r.closed || !r.reduced then some { status := stDenied, detail := 3 }
  else if r.ovf then some { status := stOK, result := 1 }
  else none

namespace Dp

/-- The least element of an UPDATE whose gradient, weight or state element holds `dva`. -/
def updElemAt (q : UpdP) (dva : Nat) : Option Nat :=
  let holds (t : TDesc) (i : Nat) : Bool := match t.addr (t.coord i) with
    | some a => a ≤ dva && (dva : Int) < a + t.esize
    | none => false
  (List.range q.count).find? fun i =>
    holds q.g i || (q.opt ≠ 3 && holds q.w i) || (List.range 6).any fun k =>
      q.needs k && dva / 4 = (q.ref k + 4 * (if k = 3 then i / max 1 q.cols else if k = 4 then i % max 1 q.cols else i)) / 4

/-- Trouble of an UPDATE: the Gleaner of a promotion is one of the half of the engine that made the access (R31, R252). An
element whose engine is not known, because its own first state line waits for promotion, counts as the Stoker's (DESIGN
CHOICE, log entry 167). -/
def meetUpd (d : Dp) (n : Nat) (o : Outst) (q : UpdP) (t : Trouble) : Dp :=
  let half : Option Nat := match t with
    | .promote _ dva _ _ => (updElemAt q dva).bind fun i =>
      match ((Work.updEngine (d.envOf n o) q i).run { d }).1 with
      | .ok k => some (k / 16)
      | .error _ => none
    | _ => none
  d.meet n o (half.getD (d.stokerHalf n)) 0 t

/-- Does declaring the regions of a descriptor end it: past a limit of its sheaf, or in conflict (R270, R277). -/
def declarationEnds (d : Dp) (n : Nat) (o : Outst) : Bool :=
  match o.sheaf with
  | none => false
  | some id => (d.sheaf id).state ≠ .opened || (d.undeclared o &&
    match (run (declareRegions (d.envOf n o) id (storedRanges o.spans)) atsFuel d).1 with
    | .ok (.ok, _) => false
    | .ok _ => true
    | .error _ => false)

/-- The step record of an UPDATE is judged after its sheaf's limits and before any translation of its arrays (Table 8.12);
`go` goes on. -/
def recordJudged (n : Nat) (o : Outst) (q : UpdP) (go : Dp → Dp) (d : Dp) : Dp :=
  if d.declarationEnds n o then (d.declareFor n o (d.stokerHalf n) (storedRanges o.spans)).2
  else
    match run (Work.readRec (d.envOf n o) q.stepRec) atsFuel d with
    | (.error t, d) => d.meet n o (d.stokerHalf n) 0 t
    | (.ok (r, _), d) =>
      match recVerdict r with
      | some x => d.finished o.uid x
      | none => go d

end Dp

/-- The work of an UPDATE on the engines: what its record decides, else the bytes it has written for its fingerprint. -/
def updWork (e : Env) (q : UpdP) : M (Option Ending × List Byte) := do
  let (r, bad) ← Work.poisonOf (Work.readRec e q.stepRec)
  match recVerdict r with
  | some x => return (some x, [])
  | none => return (none, ← Work.updLocal e q r bad)

/-- The start of an UPDATE with ADAMW, SGDM or ADAFACTOR on the engines. -/
def startUpdate (n : Nat) (o : Outst) (d : Dp) : Dp :=
  let q := parseUpd o.bytes
  Dp.recordJudged n o q (fun d =>
    match d.declareFor n o (d.stokerHalf n) (Dp.storedRanges o.spans) with
    | (false, d) => d
    | (true, d) =>
      match Dp.run (updWork (d.envOf n o) q) Dp.atsFuel d with
      | (.error t, d) => d.meetUpd n o q t
      | (.ok ((some x, _), wk), _) => wk.d.finished o.uid x
      | (.ok ((none, bytes), wk), _) => wk.d.updated o q bytes) d

/-- The start of an UPDATE with OPT = ACCUM. -/
def startAccum (n : Nat) (o : Outst) (d : Dp) : Dp :=
  let q := parseUpd o.bytes
  let h := d.stokerHalf n
  match d.declareFor n o h (Dp.storedRanges o.spans) with
  | (false, d) => d
  | (true, d) =>
    match Dp.run (Work.updAccum (d.envOf n o) q) Dp.atsFuel d with
    | (.error t, d) => d.meetUpd n o q t
    | (.ok (bytes, wk), _) => wk.d.updated o q bytes

namespace Dp

/-- Shard frames of a NETWORK UPDATE (R376): G's elements in increasing e, as stored. -/
def shardFrames (c : Coll) (q : UpdP) (step : Nat) : List Culm :=
  let es := q.g.esize
  let per := 4096 / es
  let n := cdiv q.count per
  (List.range n).map fun k =>
    { ty := 8, ember := false, last := k + 1 = n, poison := c.dataBad, group := c.group, msg := c.id, ofs := per * k,
      aux := unsigned 8 c.o.lsExp, aux2 := q.opt + 16 * q.g.conv.code, aux32 := step % 2 ^ 32,
      payload := (c.data.drop (per * k * es)).take (per * es) }

/-- Sends the shard of a NETWORK UPDATE once its reducer has granted it (R364, R376). -/
def progressShard (d : Dp) (uid : Nat) : Dp :=
  match d.coll uid with
  | none => d
  | some c =>
    let q := parseUpd c.o.bytes
    let r := c.id % max 1 c.size
    if !c.sent.isEmpty then d else d.sendPart uid (0, 0, 0, r) r (fun f => f.ofs * q.g.esize) (shardFrames c q c.start)

/-- The elements of a SHARD_RET frame that have not been received yet, as parts of W. -/
def shardNew (c : Coll) (q : UpdP) (f : Culm) : List Part :=
  let es := q.w.esize
  let got (k : Nat) : Bool := c.parts.any fun p => p.phase = 4 && p.ofs = (f.ofs + k) * es
  ((List.range (f.payload.length / es)).filter fun k => f.ofs + k < q.count && !got k).map fun k =>
    { phase := 4, level := 0, block := 0, who := 0, ofs := (f.ofs + k) * es, bytes := slice f.payload (k * es) es,
      poison := f.poison, src := f.src }

/-- The elements received and not yet written. -/
def shardDue (c : Coll) (q : UpdP) : List Part :=
  c.parts.filter fun p => p.phase = 4 && !c.returned.has (p.ofs / q.w.esize)

/-- Writes returned elements to the UPDATE's destination. -/
def shardWrite (e : Env) (c : Coll) (q : UpdP) (l : List Part) : M Unit := do
  for p in l do
    match q.w.addr (q.w.coord (p.ofs / q.w.esize)) with
    | some a =>
      let a ← Work.checked e a q.w.esize q.w.base true
      Work.put a p.bytes p.poison
    | none => pure ()
  if c.dataBad || l.any (·.poison) then Work.markPoisoned e
  Work.flush e

/-- Elements have been written; the last of them ends the UPDATE. -/
def shardNoted (d : Dp) (c : Coll) (q : UpdP) (l : List Part) : Dp :=
  let returned := l.foldl (fun t p => NatSet.add t (p.ofs / q.w.esize)) c.returned
  let d := d.modColl c.uid fun c => { c with returned }
  match c.partBytes 4 0 0 0 (q.count * q.w.esize) with
  | some (bs, _) => (d.updated c.o q bs).dropColl c.uid
  | none => d

/-- Writes the elements that a NETWORK UPDATE has received, unless it stands still. -/
def settleShard (d : Dp) (uid : Nat) : Dp :=
  match d.coll uid with
  | none => d
  | some c =>
    let q := parseUpd c.o.bytes
    if !d.collRuns uid || (shardDue c q).isEmpty then d
    else
      match Dp.run (shardWrite (d.envOf c.ring c.o) c q (shardDue c q)) Dp.atsFuel d with
      | (.error t, d) => d.meet c.ring c.o (d.stokerHalf c.ring) 0 t
      | (.ok (_, wk), _) => wk.d.shardNoted c q (shardDue c q)

/-- What every collective, message and NETWORK UPDATE can do now. -/
def progressAll (d : Dp) : Dp :=
  let l := (d.lnk.colls.filter fun c => c.op = 0x30).map (·.uid)
  (l.foldl (fun d u => (d.progressShard u).settleShard u) d).progress

end Dp

/-- The work of a NETWORK UPDATE before it sends: what its record decides, else the record's step and G's elements. -/
def shardWork (e : Env) (q : UpdP) : M (Option Ending × Nat × List Byte × Bool) := do
  let r ← Work.readRec e q.stepRec
  match recVerdict r with
  | some x => return (some x, 0, [], false)
  | none =>
    let (bs, bad) ← Work.poisonOf ((List.range q.count).mapM fun i =>
      match q.g.addr (q.g.coord i) with
      | some a => do Work.readBytes e (← Work.checked e a q.g.esize q.g.base false) q.g.esize
      | none => return [])
    return (none, r.step, bs.flatten, bad)

/-- The start of an UPDATE with AT = NETWORK (R254, R376): it posts W's range as credit and sends its shard. -/
def startNetwork (n : Nat) (o : Outst) (d : Dp) : Dp :=
  let q := parseUpd o.bytes
  if (d.coll o.uid).isSome then (d.setPhase o.uid .running).progressAll
  else
    Dp.recordJudged n o q (fun d =>
      match d.declareFor n o (d.stokerHalf n) (Dp.storedRanges o.spans) with
      | (false, d) => d
      | (true, d) =>
        match Dp.run (shardWork (d.envOf n o) q) Dp.atsFuel d with
        | (.error t, d) => d.meet n o (d.stokerHalf n) 0 t
        | (.ok ((some x, _), wk), _) => wk.d.finished o.uid x
        | (.ok ((none, step, data, bad), _), d) =>
          let grp := (d.reg Reg.lnkNet).fld 15 0
          Dp.withGroup n o grp 20 (fun g d =>
            let c : Coll := { uid := o.uid, ring := n, op := 0x30, o, id := q.shardId, group := grp,
                              members := g.members.map (·.endpoint), rank := g.rank, coord := g.coord, fixed := true,
                              start := step, data, dataBad := bad }
            let d := d.addColl c
            let d := d.grant c (q.shardId % g.members.length) 0 0 (q.count * q.w.esize)
            d.applyEarly.progressAll) d) d

namespace Dp

/-- Is the descriptor of a NETWORK UPDATE in progress: running, or stalled for a page. -/
def collLives (d : Dp) (uid : Nat) : Bool :=
  (d.findOutst uid).any fun x => match x.2.phase with
    | .running => true
    | .stalled _ => true
    | _ => false

/-- The NETWORK UPDATE a SHARD_RET frame belongs to: in progress, of its shard and STEP, sent to the module it comes from. -/
def shardOf (d : Dp) (f : Culm) : Option Coll :=
  d.lnk.colls.find? fun c => c.op = 0x30 && d.collLives c.uid && c.id = f.msg && c.start % 2 ^ 32 = f.aux32 &&
    c.endpoint (c.id % max 1 c.size) = f.src

/-- A SHARD_RET frame (R376): its elements are written into the UPDATE's shadow lines, each once; one that comes for
no UPDATE in progress or another STEP is discarded and counted. -/
def shardRet (d : Dp) (f : Culm) : Dp :=
  d.receive 0 f fun d =>
    match d.shardOf f with
    | none => d.bump (Reg.lnkCnt 2)
    | some c =>
      let new := shardNew c (parseUpd c.o.bytes) f
      (d.modColl c.uid fun c => { c with parts := c.parts ++ new }).settleShard c.uid

/-- FLL_NET_CTL.TIMEOUT passes for a NETWORK UPDATE in progress that has not got every element (R254): those written
count (Table 8.15). -/
def netTimeout (d : Dp) (shard : Nat) : Dp :=
  match d.lnk.colls.find? fun c => c.op = 0x30 && c.id = shard && d.collLives c.uid with
  | some c =>
    let k := ((List.range (parseUpd c.o.bytes).count).filter c.returned.has).length
    (d.bump (Reg.fllCnt 0) k).endColl c.uid { status := stTimeout, result := k % 2 ^ 32 * 2 ^ 32 }
  | none => d

/-! ### Replica fingerprints (R255–R257) -/

/-- The REPLICA_DIVERGE notice (Table 11.14). -/
def divergeNotice (d : Dp) (sub step shard owner module crc : Nat) : Dp :=
  d.notice 5 sub none (toLe 8 step ++ toLe 4 shard ++ toLe 2 owner ++ toLe 2 module ++ toLe 8 crc)

/-- An entry of the fingerprint table. -/
def fpEntry (step shard owner status crc peer : Nat) : List Byte :=
  toLe 8 step ++ toLe 4 shard ++ toLe 2 owner ++ toLe 1 status ++ toLe 1 0 ++ toLe 8 crc ++ toLe 8 peer

/-- A mismatch of module `m` with the owner is reported (R257); under HALT the next step boundary halts its ring. -/
def diverge (d : Dp) (halt : Bool) : Dp :=
  let d := (d.bump (Reg.fllCnt 2)).setStat Reg.fllStat 1
  { d with fll := { d.fll with diverged := true, halts := d.fll.halts || halt } }

/-- A frame of type FP to a module. -/
def sendFp (d : Dp) (dest aux shard step crc : Nat) : Dp :=
  d.posts dest 1 [{ ty := 7, ember := true, msg := shard, aux, payload := toLe 8 step ++ toLe 8 crc }]

/-- The owner compares a fingerprint with its own and returns its verdict (R256, R257). -/
def compareFp (d : Dp) (own : FpOwn) (m crc : Nat) : Dp :=
  if crc = own.crc then (d.bump (Reg.fllCnt 1)).sendFp m 1 own.shardId own.step own.crc
  else
    let d := d.sendFp m 2 own.shardId own.step own.crc
    let d := d.divergeNotice 0 own.step own.shardId d.me m own.crc
    let d := d.diverge ((d.reg Reg.fllCtl).fld 4 3 ≠ 1)
    { d with fll := { d.fll with own := d.fll.own.map fun x =>
        if x.shardId = own.shardId && x.step = own.step then { x with offers := x.offers ++ [m] } else x } }

/-- The DVA of an entry of the fingerprint table. -/
def fpDva (d : Dp) (idx : Nat) : Nat := (d.reg Reg.fllFpBase).fld 51 17 * 131072 + 32 * idx

/-- The environment of work outside every descriptor. -/
def bareEnv (space : Nat) : Env := { ring := 64, uid := 2 ^ 64, seq := 0, op := 0, space }

/-- Writes the bytes of a fingerprint table entry. -/
def putFp (d : Dp) (a : Bool × Nat) (bs : List Byte) : Dp :=
  if a.1 then (List.range bs.length).foldl (fun (d : Dp) i => d.setHost (a.2 + i) (bs.getD i 0)) d
  else (d.setDpas a.2 bs).touchFrame a.2

/-- Where the entry of a fingerprint lies (R256): none when its address fails translation or its line is poisoned. -/
def fpPlace (d : Dp) (x : FpDue) : Option (Bool × Nat) × Dp :=
  match run (Work.locate (bareEnv x.space) (d.fpDva x.fpidx) true) atsFuel d with
  | (.ok (.dev a, _), d) => (if d.isPoisoned a then none else some (false, a), d)
  | (.ok (.host a, _), d) => (if d.mem.poison.has ((2 ^ 60 + a) / 128) then none else some (true, a), d)
  | (.error _, d) => (none, d)

/-- Pages of the fingerprint table are promoted before a sheaf's fingerprints are written; tells whether none has to wait
(R31). -/
def fpPagesReady (d : Dp) (s : Sheaf) : Bool × Dp :=
  s.fps.foldl (fun (x : Bool × Dp) y =>
    match (run (Work.locate (bareEnv y.space) (x.2.fpDva y.fpidx) true) atsFuel x.2).1 with
    | .error (.promote space dva l _) =>
      match x.2.startPromotion (x.2.stokerHalf s.ring) space (dva / l.size * l.size) l with
      | (true, d) => (false, d)
      | (false, d) => (x.1, d)
    | _ => x) (true, d)

/-- What the commit of sheaf `s` does for one fingerprint of it (R256); STEP is FLL_STEP at its commit point. -/
def commitFp (s : Sheaf) (d : Dp) (x : FpDue) : Dp :=
  let dva := d.fpDva x.fpidx
  let mine := x.owner = d.me
  let step := s.step
  let (entry, d) := d.fpPlace x
  let d := match entry with
    | some a => d.putFp a (fpEntry step x.shardId x.owner (if mine then 5 else 0) x.crc 0)
    | none => d
  let d := if entry.isNone then d.ashLog { time := d.now, cls := 10, code := 1, addr := dva, data := x.shardId } else d
  if mine then
    let own : FpOwn := { shardId := x.shardId, step, crc := x.crc, space := x.space, desc := x.desc }
    let early := d.fll.early.filter fun y => y.shardId = x.shardId && y.step = step
    let d : Dp := { d with fll := { d.fll with own := d.fll.own ++ [own], early := d.fll.early.filter fun y => !(y.shardId = x.shardId && y.step = step) } }
    early.foldl (fun d y => d.compareFp own y.module y.crc) d
  else
    let p : FpPend := { fpidx := x.fpidx, shardId := x.shardId, step, owner := x.owner, crc := x.crc, entry,
                        space := x.space, desc := x.desc, stamp := s.stamp }
    { d with fll := { d.fll with pend := d.fll.pend ++ [p] } }.sendFp x.owner 0 x.shardId step x.crc

/-- Writes STATUS and PEER_CRC of a pending entry. -/
def setFpEntry (d : Dp) (p : FpPend) (status peer : Nat) : Dp :=
  match p.entry with
  | some a => d.putFp a (fpEntry p.step p.shardId p.owner status p.crc peer)
  | none => d

/-- Takes a pending comparison away. -/
def dropPend (d : Dp) (p : FpPend) : Dp := { d with fll := { d.fll with pend := d.fll.pend.filter (· ≠ p) } }

/-- The pending comparison of a shard and step. -/
def findPend (d : Dp) (shard step : Nat) : Option FpPend := d.fll.pend.find? fun p => p.shardId = shard && p.step = step

/-- A comparison that was not made in time is counted and logged (R256). -/
def fpLate (d : Dp) (shard : Nat) : Dp :=
  (d.bump (Reg.fllCnt 3)).ashLog { time := d.now, cls := 10, code := 0, data := shard }

/-- A fingerprint arrives at the owner (R256); after DEADLINE it is not compared. -/
def rxFingerprint (d : Dp) (f : Culm) : Dp :=
  d.receive 1 f fun d =>
    let step := leAt f.payload 0 8
    let crc := leAt f.payload 8 8
    match d.fll.own.find? fun x => x.shardId = f.msg && x.step = step with
    | some own => if own.expired then d.fpLate f.msg else d.compareFp own f.src crc
    | none =>
      let y : FpEarly := { module := f.src, shardId := f.msg, step, crc }
      { d with fll := { d.fll with early := d.fll.early ++ [y] } }

/-- A verdict of a match arrives (R256). -/
def rxMatch (d : Dp) (f : Culm) : Dp :=
  d.receive 1 f fun d =>
    match d.findPend f.msg (leAt f.payload 0 8) with
    | some p => if f.src = p.owner && !p.repairing then ((d.setFpEntry p 1 0).bump (Reg.fllCnt 1)).dropPend p else d
    | none => d

/-- The elements an UPDATE writes, as ranges in the order of its fingerprint (R255). -/
def crcRanges (q : UpdP) : List (Nat × Nat) :=
  (if q.opt = 3 then [] else (List.range q.count).filterMap fun i =>
    (q.w.addr (q.w.coord i)).map fun a => (a.toNat, a.toNat + q.w.esize)) ++
  ((List.range 6).filter q.needs).map fun k => (q.ref k, q.ref k + q.len k)

/-- The MX scale bytes of W, which no fingerprint covers. -/
def scaleRanges (q : UpdP) : List (Nat × Nat) :=
  if q.opt = 3 || !q.w.conv.mx then []
  else (((List.range q.count).map fun i => q.w.scaleAddr (q.w.coord i)).eraseDups).map fun a => (a, a + 1)

/-- The bytes of every array an UPDATE writes: those of its fingerprint first. -/
def repairRanges (desc : List Byte) : List (Nat × Nat) := let q := parseUpd desc; crcRanges q ++ scaleRanges q

/-- Bytes in a list of ranges. -/
def rangesLen (l : List (Nat × Nat)) : Nat := l.foldl (fun a r => a + (r.2 - r.1)) 0

/-- Bytes of a repair. -/
def repairLen (desc : List Byte) : Nat := rangesLen (repairRanges desc)

/-- The fingerprint of the bytes of a repair. -/
def repairCrc (desc : List Byte) (bs : List Byte) : Nat := crc64 0 (bs.take (rangesLen (crcRanges (parseUpd desc))))

/-- A divergence that is not repaired (Table 8.5): STATUS = DIVERGED, and the next step boundary halts its ring. -/
def notRepaired (d : Dp) (p : FpPend) (peer : Nat) : Dp :=
  let d := (d.setFpEntry p 2 peer).dropPend p
  { d with fll := { d.fll with diverged := true, halts := true } }

/-- A verdict of a mismatch arrives (R257): under REPAIR_FROM with a reachable owner the module grants credit for the
owner's arrays, otherwise the divergence stands. -/
def rxMismatch (d : Dp) (f : Culm) : Dp :=
  d.receive 1 f fun d =>
    match d.findPend f.msg (leAt f.payload 0 8) with
    | none => d
    | some p =>
      if f.src ≠ p.owner || p.repairing then d
      else
        let peer := leAt f.payload 8 8
        let d := d.divergeNotice 1 p.step p.shardId p.owner d.me p.crc
        let repair := (d.reg Reg.fllCtl).fld 4 3 = 1 && !(d.peer p.owner).down
        let d := d.diverge (!repair)
        if !repair then d.notRepaired p peer
        else
          let d : Dp := { d with fll := { d.fll with pend := d.fll.pend.map fun x =>
            if x = p then { p with repairing := true, peerCrc := peer } else x } }
          d.posts p.owner 1 [{ ty := 3, ember := true, msg := p.shardId, payload := toLe 8 0 ++ toLe 8 (repairLen p.desc) }]

/-- Is a CREDIT frame the request of a repair that this owner offers. -/
def repairAsked (d : Dp) (f : Culm) : Option FpOwn := d.fll.own.find? fun x => x.shardId = f.msg && x.offers.contains f.src

/-- The bytes of an UPDATE's arrays as they stand. -/
def repairBytes (e : Env) (desc : List Byte) : M (List Byte) := do
  let l ← (repairRanges desc).mapM fun r => Work.readBytes e r.1 (r.2 - r.1)
  return l.flatten

/-- The owner sends its copy to a differing module, unless it changed since the commit (Table 8.5): it then refuses
with an ABORT. -/
def sendRepair (d : Dp) (own : FpOwn) (f : Culm) : Dp :=
  d.receive 1 f fun d =>
    let d : Dp := { d with fll := { d.fll with own := d.fll.own.map fun x =>
      if x = own then { x with offers := x.offers.filter (· ≠ f.src) } else x } }
    let no (d : Dp) : Dp :=
      let d : Dp := { d with fll := { d.fll with halts := true } }
      d.posts f.src 1 [{ ty := 5, ember := true, msg := own.shardId, aux := 2, aux2 := stConflict }]
    match Dp.run (repairBytes (bareEnv own.space) own.desc) atsFuel d with
    | (.error _, d) => no d
    | (.ok (bs, wk), d) =>
      if wk.poison || repairCrc own.desc bs ≠ own.crc then no d
      else
        let n := cdiv bs.length 4096
        d.posts f.src 0 ((List.range n).map fun k =>
          ({ ty := 0, ember := false, last := k + 1 = n, msg := own.shardId, ofs := 4096 * k, aux := 2,
             payload := (bs.drop (4096 * k)).take 4096 } : Culm))

/-- The repair a DATA or ABORT frame belongs to. -/
def repairOf (d : Dp) (f : Culm) : Option FpPend :=
  d.fll.pend.find? fun p => p.repairing && p.shardId = f.msg && p.owner = f.src

/-- Writes the ranges of a repair. -/
def writeRanges (e : Env) (bs : List Byte) : List (Nat × Nat) → M Unit
  | [] => Work.flush e
  | (a, b) :: rest => do
    Work.put a (bs.take (b - a)) false
    writeRanges e (bs.drop (b - a)) rest

/-- The owner's copy arrives: once whole it is written at one moment and the entry reads REPAIRED (Table 8.5). -/
def rxRepair (d : Dp) (p : FpPend) (f : Culm) : Dp :=
  d.receive 0 f fun d =>
    let part : Part := { phase := 2, level := 0, block := 0, who := 0, ofs := f.ofs, bytes := f.payload, poison := f.poison }
    let p' := { p with parts := p.parts ++ [part] }
    let d : Dp := { d with fll := { d.fll with pend := d.fll.pend.map fun x => if x = p then p' else x } }
    let len := repairLen p.desc
    let got (k : Nat) : Option Byte := p'.parts.findSome? fun x => if x.ofs ≤ k then x.bytes[k - x.ofs]? else none
    let l := (List.range len).map got
    if !l.all Option.isSome then d
    else
      match Dp.run (writeRanges (bareEnv p.space) (l.filterMap id) (repairRanges p.desc)) atsFuel d with
      | (.error _, d) => d.notRepaired p' p.peerCrc
      | (.ok (_, wk), _) =>
        let q := { p' with crc := repairCrc p.desc (l.filterMap id) }
        ((wk.d.setFpEntry q 3 p.peerCrc).bump (Reg.fllCnt 4)).dropPend p'

/-- The owner refuses a repair. -/
def repairRefused (d : Dp) (p : FpPend) (f : Culm) : Dp := d.receive 1 f fun d => d.notRepaired p p.peerCrc

/-- DEADLINE passes for a shard and step (R256): its entry becomes UNCHECKED; at the owner a held fingerprint goes, and a
later one is not compared. -/
def fpDeadline (d : Dp) (shard step : Nat) : Dp :=
  let d : Dp := { d with fll := { d.fll with
    early := d.fll.early.filter fun y => !(y.shardId = shard && y.step = step)
    own := d.fll.own.map fun x => if x.shardId = shard && x.step = step then { x with expired := true } else x } }
  match d.findPend shard step with
  | some p => if p.repairing then d else ((d.setFpEntry p 4 0).dropPend p).fpLate shard
  | none => d

/-- Repairs whose owner has become unreachable fall back to HALT (Table 8.13). -/
def settleRepairs (d : Dp) : Dp :=
  let d : Dp := { d with fll := { d.fll with own := d.fll.own.map fun x =>
    { x with offers := x.offers.filter fun m => !(d.peer m).down } } }
  (d.fll.pend.filter fun p => p.repairing && (d.peer p.owner).down).foldl (fun d p => d.notRepaired p p.peerCrc) d

/-! ### The step boundary (R72, R73, R246) -/

/-- The LOSS_SCALE notice. -/
def lossScaleNotice (d : Dp) (sub : Nat) : Dp :=
  d.notice 4 sub none (toLe 8 d.fll.step ++ toLe 1 (unsigned 8 d.phx.x) ++ toLe 3 0 ++ toLe 2 d.phx.skips)

/-- The rule of R72 with R73 at a step boundary. -/
def lossScale (d : Dp) (ovf : Bool) : Dp :=
  let d : Dp := { d with regs := d.regs.setForce Reg.lsCfg (d.reg Reg.lsCfg) }
  let cfg := d.regs.inForce Reg.lsCfg
  let d : Dp := if ovf then { d with phx := { d.phx with skips := (d.phx.skips + 1) % 65536 } } else d
  match d.phx.lsLoad with
  | some x => { d with phx := { d.phx with x, clean := 0, lsLoad := none } }.lossScaleNotice 4
  | none =>
    if !cfg.bit 0 then d
    else if ovf then
      let floor := d.phx.x ≤ -24
      { d with phx := { d.phx with x := max (d.phx.x - 1) (-24), clean := 0 } }.lossScaleNotice (if floor then 1 else 0)
    else if cfg.fld 31 16 ≤ d.phx.clean + 1 then
      let top := 24 ≤ d.phx.x
      { d with phx := { d.phx with x := min (d.phx.x + 1) 24, clean := 0 } }.lossScaleNotice (if top then 3 else 2)
    else { d with phx := { d.phx with clean := d.phx.clean + 1 } }

/-- The step boundary (R246, R260). -/
def stepBoundary (d : Dp) (ovf : Bool) : Dp :=
  let d := d.lossScale ovf
  let d : Dp := { d with phx := { d.phx with ovf := false } }
  let regs := (d.regs.setForce Reg.fllPipeBase (d.reg Reg.fllPipeBase)).setForce Reg.fllPipeCtl (d.reg Reg.fllPipeCtl)
  { d with regs, fll := { d.fll with step := (d.fll.step + 1) % 2 ^ 64, applied := (d.fll.applied + (if ovf then 0 else 1)) % 2 ^ 64, diverged := false, halts := false, cursor := 0, counts := [], taken := [], micro := [] },
           lnk := { d.lnk with stepIncl := none } }

/-- Is this owner repairing a module (R257): under REPAIR_FROM one that it told of a mismatch has not asked yet, or frames
of its copy are on their way. -/
def repairsOthers (d : Dp) : Bool :=
  d.fll.own.any fun x => ((d.reg Reg.fllCtl).fld 4 3 = 1 && !x.offers.isEmpty) || d.lnk.conns.any fun (_, c) =>
    (c.unacked.any fun t => t.frame.ty = 0 && t.frame.aux = 2 && t.frame.msg = x.shardId) ||
    c.queue.any fun f => f.ty = 0 && f.aux = 2 && f.msg = x.shardId

/-- May an UPDATE with OPT = STEP complete (R246): every earlier descriptor of its ring has completed, and every
comparison of a sheaf committed before its dispatch has ended, with its repair. An owner waits for the comparisons it can
know of: its STEP waits for no fingerprint that has not come (DEDUCED, log entry 168). -/
def stepReady (d : Dp) (n : Nat) (o : Outst) : Bool :=
  o.phase = .running && o.count2 = 1 && (d.ring n).outst.all (fun x => o.uid ≤ x.uid) &&
  d.fll.pend.all (fun p => o.uid < p.stamp) && !d.repairsOthers &&
  d.journal.sheaves.all fun (_, s) => s.state ≠ .committed || s.fps.isEmpty || o.uid < s.stamp

/-- The completion of an UPDATE with OPT = STEP: the step boundary. -/
def endStep (d : Dp) (n : Nat) (o : Outst) : Dp :=
  let div := d.fll.diverged
  let halt := d.fll.halts
  let d := (d.stepBoundary (o.count = 1)).complete n o.uid { status := stOK, result := (if div then 2 else 0) + o.count }
  if halt then d.haltBeforeNotice n { status := stOK, detail := 0 } else d

/-- The conversion word of Y in the template that a RUN names, as it stands: none where it cannot be read. -/
def templateY (d : Dp) (space dva : Nat) : Option Conv :=
  match run (Work.readBytes (bareEnv space) dva 512) atsFuel d with
  | (.ok (tm, _), _) => some (parseFused tm).yConv
  | (.error _, _) => none

/-- Does a descriptor capture the loss scale at its dispatch (R246): a store with LSM = 1, an unscaling, or an UPDATE
that uses X. -/
def capturesScale (d : Dp) (n op : Nat) (bs : List Byte) : Bool :=
  match op with
  | 0x10 => (parseGemm bs).d.conv.lsm
  | 0x18 => (match (parseSp bs).d with | .dense t => t.conv.lsm | .sparse r => r.conv.lsm)
  | 0x14 => if copyCmp bs then (parseS bs 320).conv.lsm else (parseT bs 192).conv.lsm
  | 0x15 => (parseIdx bs).t.conv.lsm
  | 0x16 => (parseIdx bs).t.conv.lsm
  | 0x19 => (parseS bs 192).conv.lsm
  | 0x28 => (parseFused bs).y.conv.lsm
  | 0x40 =>
    match leAt bs 16 1 % 4 with
    | 1 => (d.templateY (d.spaceOf n) (leAt bs 40 8)).any (·.lsm)
    | 2 => (parseT bs 64).conv.lsm
    | _ => false
  | 0x48 => (parseRed bs).kind ≤ 2 && (parseRed bs).t.conv.lsm
  | 0x30 => (parseUpd bs).opt ≤ 2
  | 0x20 => (parseMask bs).unscale || (parseMask bs).r.conv.lsm
  | 0x21 => (parseMask bs).unscale || (parseMask bs).r.conv.lsm
  | 0x22 => (parseMask bs).unscale || (parseMask bs).r.conv.lsm
  | _ => false

/-- The gate of R246: while an UPDATE with OPT = STEP is outstanding, nothing that captures the loss scale is
dispatched. -/
def scaleGate (d : Dp) (n : Nat) (h : Hdr) (bs : List Byte) : Bool :=
  !((d.rings.any fun (_, r) => r.outst.any fun o => o.op = 0x30 && (parseUpd o.bytes).opt = 4) && d.capturesScale n h.op bs)

end Dp

/-- The start of an UPDATE with OPT = STEP: it reads its record; its completion is the step boundary. -/
def startStep (n : Nat) (o : Outst) (d : Dp) : Dp :=
  let q := parseUpd o.bytes
  match Dp.run (Work.readRec (d.envOf n o) q.stepRec) Dp.atsFuel d with
  | (.error t, d) => d.meet n o (d.stokerHalf n) 0 t
  | (.ok (r, wk), _) =>
    if !r.closed || !r.reduced then wk.d.finished o.uid { status := stDenied, detail := 3 }
    else
      (wk.d.modOutst n o.uid fun o => { o with count := if r.ovf then 1 else 0, count2 := 1, poisoned := o.poisoned || wk.poison }).setPhase
        o.uid .running

/-- UPDATE with ADAMW, SGDM, ADAFACTOR, ACCUM or NETWORK at its dispatch; `start` is its own. -/
def opUpdate (start : Nat → Outst → Dp → Dp) (c : OpCtx) (d : Dp) : Dp :=
  let q := parseUpd c.bytes
  let convs := if q.opt = 3 then [] else [q.w.conv]
  Dp.judged c (UpdP.bad ((d.reg Reg.fllCtl).bit 2) ((d.reg Reg.fllFpBase).fld 51 17) c.bytes) .must q.misaligned
    (Dp.selfOverlap q.outs q.ins) (Dp.enter c convs start) d

/-- UPDATE with OPT = STEP at its dispatch. -/
def opStep (c : OpCtx) (d : Dp) : Dp :=
  Dp.judged c (UpdP.stepBad c.bytes) .never (parseUpd c.bytes).misaligned false (Dp.enter c [] startStep) d

/-- Which command an UPDATE descriptor belongs to: 0 the engines (and reserved forms), 1 ACCUM, 2 NETWORK, 3 STEP. -/
def updKind (bs : List Byte) : Nat :=
  let q := parseUpd bs
  if q.opt = 4 then 3 else if q.opt = 3 then 1 else if q.network then 2 else 0

/-! ### RECOMPUTE (R258, R259, R263) -/

/-- Malformed conditions of RECOMPUTE. -/
def recomputeBad (bs : List Byte) : List (Bool × Nat) :=
  [((parseHdr bs).slots ≠ 1, 1), (!zeroAt bs 18 6, 18), (leAt bs 32 8 = 0, 32), (!zeroAt bs 40 24, 40)]

/-- Spans of RECOMPUTE: its region. -/
def recomputeSpans (bs : List Byte) : List Span := [arraySpan (leAt bs 24 8) (leAt bs 32 8) true]

/-- RECOMPUTE at its dispatch. -/
def opRecompute (c : OpCtx) (d : Dp) : Dp :=
  let a := leAt c.bytes 24 8
  let n := leAt c.bytes 32 8
  Dp.judged c (recomputeBad c.bytes) .never (a % 128 ≠ 0 || n % 128 ≠ 0) false (fun d =>
    let shadowed := d.journal.sheaves.any fun (_, s) => s.state = .opened && s.space = d.spaceOf c.ring &&
      s.actions.any fun x => Dp.meets x.dva x.len a n &&
        (List.range (Dp.linesIn x.dva x.len)).any fun k =>
          d.isMarked s (x.line0 + k) && Dp.meets (128 * (x.dva / 128 + k)) 128 a n
    if shadowed then d.refuse c stConflict else d.begin c) d

namespace Dp

/-- The tier H lines of a region by device address (R258). -/
def regionLines (e : Env) (a n : Nat) : M (List Nat) := do
  let l ← (List.range (n / 128)).mapM fun k => do
    match ← Work.locate e (a + 128 * k) false with
    | .dev x => return if x < 0x012000000000 then [x] else []
    | .host _ => return []
  return l.flatten

/-- The granary drops a line (R258): it reads as the value last written back to its stack (R259), which is what it holds or
what it held before one of the stores since it was last known clean; which of them is a free value. Counts a line that was
dirty. -/
def dropLine (r : Nat × Dp) (a : Nat) : Nat × Dp :=
  let d := r.2
  let past := Tab.get (fun _ => []) d.mem.past (a / 128)
  if past.isEmpty then r
  else
    let (k, d) := d.draw
    let d : Dp := { d with mem := { d.mem with past := Tab.set (fun _ => []) d.mem.past (a / 128) [] } }
    match Config.freeNat k 0 % (past.length + 1) with
    | 0 => (r.1, d)
    | i + 1 => (r.1 + 1, d.setDpas (a / 128 * 128) (past.getD i []))

/-- The end of a RECOMPUTE whose earlier descriptors have completed: the granary lines of its region are dropped. -/
def endRecompute (d : Dp) (n : Nat) (o : Outst) : Dp :=
  let a := leAt o.bytes 24 8
  match run (regionLines (d.envOf n o) a (leAt o.bytes 32 8)) atsFuel d with
  | (.error t, d) => d.meet n o (d.stokerHalf n) 0 t
  | (.ok (lines, _), d) =>
    let (dirty, d) := lines.foldl dropLine (0, d)
    let d := d.ashLog { time := d.now, cls := 11, code := 0, flags := 2, ring := n, seq := o.seq, addr := a, data := leAt o.bytes 16 2 }
    d.complete n o.uid { status := stOK, result := dirty }

end Dp
end Sys2Proof.Machine
end

