-- ==== Sys2Proof/Machine/Sheaves.lean ====
section
/-!
DEFINITION. SHEAF_OPEN, SHEAF_COMMIT and SHEAF_ABORT (R267–R285): opening, the commit sequence, promotion of marked
lines, and the release of a sheaf whose commit record cannot be read.
-/
namespace Sys2Proof.Machine
namespace Dp

/-! ### The page list -/

/-- The pages of an action as its page list records them: DVA, size and home address. -/
def homePages (d : Dp) (s : Sheaf) (b : Nat) : Nat → Nat → Nat → List (Nat × Nat × Nat)
  | 0, _, _ => []
  | f + 1, i, x =>
    if b ≤ x then []
    else
      let e := leNat (d.dpaBytes (s.shadowL + 0x40000 + 8 * i) 8)
      let size := match e % 4 with
        | 0 => 2 ^ 12
        | 1 => 2 ^ 16
        | 2 => 2 ^ 21
        | _ => 2 ^ 30
      let page := x / size * size
      (page, size, natFld e 47 12 * 4096) :: d.homePages s b f (i + 1) (page + size)

/-- The pages of an action. -/
def actionPages (d : Dp) (s : Sheaf) (a : Action) : List (Nat × Nat × Nat) :=
  d.homePages s (a.dva + a.len) 65600 a.plist a.dva

/-- The pages of an action up to the first whose page-list entry cannot be read (R281). -/
def readablePages (d : Dp) (s : Sheaf) (a : Action) : List (Nat × Nat × Nat) :=
  let l := d.actionPages s a
  l.take (((List.range l.length).takeWhile fun i => !d.isPoisoned (s.shadowL + 0x40000 + 8 * (a.plist + i))).length)

/-- The home address of line `k` of an action, from its pages. -/
def homeLine (pages : List (Nat × Nat × Nat)) (a : Action) (k : Nat) : Option Nat :=
  let l := 128 * (a.dva / 128 + k)
  (pages.find? fun p => p.1 ≤ l && l < p.1 + p.2.1).map fun p => p.2.2 + (l - p.1)

/-- Marked lines of a sheaf. -/
def markedLines (d : Dp) (s : Sheaf) : Nat :=
  (s.actions.map fun a => ((List.range (linesIn a.dva a.len)).filter fun k => d.isMarked s (a.line0 + k)).length).foldl
    (· + ·) 0

/-! ### SHEAF_OPEN -/

/-- Malformed conditions of SHEAF_OPEN that the descriptor shows. -/
def sheafOpenBad (bs : List Byte) : List (Bool × Nat) :=
  let sl := leAt bs 24 4
  let sh := leAt bs 28 4
  [((parseHdr bs).slots ≠ 1, 1), (sl < 256 || 65792 < sl, 24), (65536 < sh, 28), (sh = 0 && leAt bs 32 8 ≠ 0, 32),
   (2 ≤ leAt bs 40 1, 40), (!zeroAt bs 41 23, 41)]

/-- Does a buffer meet a buffer or a region of a sheaf that counts. -/
def bufferConflict (d : Dp) (id a n : Nat) : Bool :=
  d.journal.sheaves.any fun (j, s) =>
    j ≠ id && s.state.counted &&
    (meets a n s.shadowL (s.sizeL * 4096) || meets a n s.shadowH (s.sizeH * 4096) ||
     s.actions.any fun x => (d.actionPages s x).any fun p =>
       let lo := max x.dva p.1
       meets a n (p.2.2 + (lo - p.1)) (min (x.dva + x.len) (p.1 + p.2.1) - lo))

/-- Sheaves that count toward the 512. -/
def sheavesOpen (d : Dp) : Nat := (d.journal.sheaves.filter fun x => x.2.state.counted).length

/-- The lowest action-table slot no counted sheaf holds. -/
def freeSlot (d : Dp) : Nat :=
  ((List.range 512).find? fun k => !(d.journal.sheaves.any fun x => x.2.state.counted && x.2.slot = k)).getD 0

end Dp

/-- SHEAF_OPEN at its dispatch (Table 9.10). -/
def opSheafOpen (c : OpCtx) (d : Dp) : Dp :=
  let bs := c.bytes
  let id := c.hdr.sheafId
  let shadowL := leAt bs 16 8
  let sizeL := leAt bs 24 4
  let sizeH := leAt bs 28 4
  let shadowH := leAt bs 32 8
  match firstBad (Dp.sheafOpenBad bs ++ d.sheafBad c.ring c.hdr .own) with
  | some o => d.malformed c o
  | none =>
    let outside (t a n : Nat) : Bool := n ≠ 0 && (!Dp.insideTier t a n || d.meetsReserved a n)
    if shadowL % 4096 ≠ 0 || shadowH % 4096 ≠ 0 then d.refuse c stAlign
    else if outside 1 shadowL (sizeL * 4096) || outside 0 shadowH (sizeH * 4096) then d.refuse c stXlate 1
    else
      let s := d.sheaf id
      if s.state.counted || 512 ≤ d.sheavesOpen || d.bufferConflict id shadowL (sizeL * 4096) ||
          d.bufferConflict id shadowH (sizeH * 4096) then d.refuse c stConflict
      else
        let n : Sheaf := { state := .opened, ring := c.ring, space := d.spaceOf c.ring, excl := (leAt bs 40 1).testBit 0,
                           slot := d.freeSlot, shadowH, sizeH, sizeL, shadowL,
                           tableBad := s.tableBad }
        let d := (d.begin c).setSheaf id n
        d.finished c.uid { status := stOK, result := d.sheavesOpen }

namespace Dp

/-! ### SHEAF_COMMIT and SHEAF_ABORT -/

/-- Malformed conditions of SHEAF_COMMIT and SHEAF_ABORT by the state of the id. -/
def sheafActBad (d : Dp) (n : Nat) (h : Hdr) (bs : List Byte) : List (Bool × Nat) :=
  let s := d.sheaf h.sheafId
  [(h.slots ≠ 1, 1), (!zeroAt bs 16 48, 16),
   (h.sheafEn && (s.state = .free || (s.state = .opened && s.ring ≠ n)), 2)]

/-- Has the ring no descriptor outstanding that was dispatched before `uid`. -/
def firstOf (d : Dp) (n uid : Nat) : Bool := (d.ring n).outst.all fun x => uid ≤ x.uid

/-- Step 1 of R278 at the end of its wait: the sheaf enters COMMITTING with the next SEQ, or the SHEAF_COMMIT ends
because the sheaf is no longer open. -/
def enterCommit (d : Dp) (o : Outst) (id : Nat) : Dp :=
  let s := d.sheaf id
  if s.state ≠ .opened then d.finished o.uid { status := stSheafAborted }
  else
    let d := d.setSheaf id { s with state := .committing, seq := d.journal.nextSeq, waiter := some o.uid }
    { d with journal := { d.journal with nextSeq := d.journal.nextSeq + 1 } }

/-- A SHEAF_ABORT at the end of its wait. -/
def enterAbort (d : Dp) (o : Outst) (id : Nat) : Dp :=
  let s := d.sheaf id
  match s.state with
  | .opened => (d.abortSheaf id 1).finished o.uid { status := stOK, result := 1 }
  | .aborted => (d.setSheaf id { s with state := .free, cause := 0 }).finished o.uid { status := stOK, result := s.cause }
  | _ => d.finished o.uid { status := stConflict }

/-- Descriptors that wait for their ring's earlier descriptors go on when none is left: SHEAF_COMMIT and
SHEAF_ABORT. -/
def wake (d : Dp) : Dp :=
  d.rings.foldl (fun (d : Dp) (x : Nat × Ring) =>
    match (d.ring x.1).outst with
    | o :: _ =>
      match o.sheaf with
      | some id =>
        if o.phase ≠ .running || (d.sheaf id).waiter = some o.uid then d
        else if o.op = 0x39 then d.enterCommit o id
        else if o.op = 0x3A then d.enterAbort o id
        else d
      | none => d
    | [] => d) d

/-- Takes a sheaf to FREE with a cause. -/
def freeSheaf (d : Dp) (id cause : Nat) : Dp :=
  let d : Dp := { d with journal := { d.journal with order := d.journal.order.filter (· ≠ id) } }
  d.setSheaf id { (d.sheaf id).emptied with state := .free, cause, waiter := none, unreadable := false, fps := [] }

/-- Releases a committed sheaf whose commit record cannot be read (R281): the home lines that
its action table and page list name are poisoned, where these can be read, the id is FREE
with cause 3, and an outstanding SHEAF_COMMIT of it completes with POISONED. -/
def releaseUnreadable (d : Dp) (id : Nat) : Dp :=
  let s := d.sheaf id
  let readable := ((List.range s.actions.length).filter fun k => !d.journal.actBad.has (16 * s.slot + k / 4)).filterMap
    fun k => s.actions[k]?
  let d := readable.foldl (fun (d : Dp) a =>
    let pages := d.readablePages s a
    (List.range (linesIn a.dva a.len)).foldl (fun (d : Dp) k =>
      match homeLine pages a k with
      | some l => d.poisonLine l
      | none => d) d) d
  let d := d.freeSheaf id 3
  match s.waiter with
  | some u => d.finished u { status := stPoisoned, result := s.marked % 2 ^ 32 + s.seq % 2 ^ 32 * 2 ^ 32 }
  | none => d

/-! ### The commit point and promotion (R278 steps 3–6) -/

/-- Does an outstanding descriptor meet a region of the sheaf (R278 step 3). -/
def sheafBusy (d : Dp) (s : Sheaf) : Bool :=
  d.rings.any fun (_, r) => r.outst.any fun o =>
    s.waiter ≠ some o.uid && o.space = s.space && s.actions.any fun a => o.spans.any fun x => spanMeets x a

/-- The bytes 0–55 of a commit record (Table 9.7). -/
def recordHead (r : CommitRec) : List Byte :=
  toLe 8 r.seq ++ toLe 2 r.sheaf ++ toLe 1 r.ring ++ toLe 1 r.actions ++ toLe 2 r.slot ++ toLe 2 0 ++ toLe 8 r.time ++
  toLe 8 r.step ++ toLe 4 r.marked ++ toLe 4 0 ++ toLe 8 r.shadowL ++ toLe 8 r.shadowH

/-- Records of the commit log. -/
def logSize : Nat := 1015808

/-- The commit point of sheaf `id` (R278 step 4): the record is written once nothing outstanding meets its regions. -/
def commitPoint (d : Dp) (id : Nat) : Dp :=
  let s := d.sheaf id
  if s.state ≠ .committing || d.sheafBusy s then d
  else
    let marked := d.markedLines s
    let r : CommitRec := { seq := s.seq, sheaf := id, ring := s.ring, actions := s.actions.length, slot := s.slot,
                           time := d.now, step := d.fll.step, marked, shadowL := s.shadowL, shadowH := s.shadowH, crc := 0 }
    let r := { r with crc := crc64 0 (recordHead r) }
    let old := Tab.get (fun _ => none) d.journal.log (s.seq % logSize)
    let r := { r with poisoned := old.any fun x => x.poisoned }
    let log := Tab.set (fun _ => none) d.journal.log (s.seq % logSize) (some r)
    let d : Dp := { d with journal := { d.journal with log, order := d.journal.order ++ [id] } }
    d.setSheaf id { s with state := .committed, marked, crc := r.crc, step := d.fll.step, stamp := d.nextUid }

/-- Promotes one action: its marked lines go home in increasing address (R278 step 5); tells whether one was poisoned. -/
def promoteAction (d : Dp) (s : Sheaf) (a : Action) : Bool × Dp :=
  let pages := d.actionPages s a
  (List.range (linesIn a.dva a.len)).foldl (fun (x : Bool × Dp) k =>
    if !x.2.isMarked s (a.line0 + k) then x
    else
      match homeLine pages a k with
      | some l =>
        let sh := shadowLine s a k
        (x.1 || x.2.isPoisoned sh, (x.2.copyLine sh l).touchFrame l)
      | none => x) (false, d)

/-- Promotes every action of a sheaf in declaration order. -/
def promoteAll (d : Dp) (s : Sheaf) : Bool × Dp :=
  s.actions.foldl (fun (x : Bool × Dp) a =>
    let (p, d) := x.2.promoteAction s a
    (x.1 || p, d)) (false, d)

/-- The home lines that a sheaf's marks name. -/
def markedHomes (d : Dp) (s : Sheaf) : List Nat :=
  s.actions.flatMap fun a => let pages := d.actionPages s a
    ((List.range (linesIn a.dva a.len)).filter fun k => d.isMarked s (a.line0 + k)).filterMap (homeLine pages a)

/-- Has a sheaf whose commit record is earlier still to promote a line that sheaf `id` promotes too (R277, Table 9.11). The
later record stands, so the later promotion waits (DEDUCED, log entry 169); an unreadable sheaf holds none up. -/
def promotesAfter (d : Dp) (id : Nat) : Bool :=
  let mine := d.markedHomes (d.sheaf id)
  (d.journal.order.takeWhile (· ≠ id)).any fun j =>
    !(d.sheaf j).unreadable && (d.markedHomes (d.sheaf j)).any mine.contains

/-- The end of promotion (R278 steps 5 and 6): lines home, fingerprints written, the id FREE, the SHEAF_COMMIT done. It
stalls for the promotion of a page of the fingerprint table (R31). -/
def promotionEnd (d : Dp) (id : Nat) : Dp :=
  let s := d.sheaf id
  if s.state ≠ .committed || s.unreadable || d.promotesAfter id then d
  else
    match d.fpPagesReady s with
    | (false, d) => d
    | (true, d) =>
    let (bad, d) := d.promoteAll s
    let d := s.fps.foldl (commitFp s) d
    let d := d.freeSheaf id 0
    match s.waiter with
    | some u =>
      d.finished u { status := if bad then stPoisoned else stOK, result := s.marked % 2 ^ 32 + s.seq % 2 ^ 32 * 2 ^ 32 }
    | none => d

/-! ### Replay after a reset of a half (R281) -/

/-- Can a commit record be used: readable and with its CRC right. -/
def recordGood (r : CommitRec) : Bool := !r.poisoned && r.crc = crc64 0 (recordHead r)

/-- The sheaf table is checked as a half leaves reset (R281): a COMMITTED sheaf is promoted again, in the order of the commit records, or is unreadable, which is FATAL
cause 2. -/
def replay (d : Dp) : Dp :=
  d.journal.order.foldl (fun (d : Dp) id =>
    let s := d.sheaf id
    let good := (Tab.get (fun _ => none) d.journal.log (s.seq % logSize)).any fun r => r.seq = s.seq && recordGood r
    if s.state ≠ .committed then d
    else if good || !s.tableBad then d.promotionEnd id
    else (d.setSheaf id { s with unreadable := true }).fatal 2) d

end Dp

/-- SHEAF_COMMIT at its dispatch (Table 9.10). -/
def opSheafCommit (c : OpCtx) (d : Dp) : Dp :=
  match firstBad (d.sheafActBad c.ring c.hdr c.bytes ++ d.sheafBad c.ring c.hdr .own) with
  | some o => d.malformed c o
  | none =>
    match (d.sheaf c.hdr.sheafId).state with
    | .opened => (d.begin c).wake
    | .aborted => d.refuse c stSheafAborted
    | _ => d.refuse c stConflict

/-- SHEAF_ABORT at its dispatch (Table 9.10). -/
def opSheafAbort (c : OpCtx) (d : Dp) : Dp :=
  match firstBad (d.sheafActBad c.ring c.hdr c.bytes ++ d.sheafBad c.ring c.hdr .own) with
  | some o => d.malformed c o
  | none =>
    let id := c.hdr.sheafId
    let s := d.sheaf id
    match s.state with
    | .opened => (d.begin c).wake
    | .aborted =>
      ((d.begin c).setSheaf id { s with state := .free, cause := 0 }).finished c.uid { status := stOK, result := s.cause }
    | _ =>
      if s.state = .committed && s.unreadable && s.ring = c.ring then
        ((d.begin c).releaseUnreadable id).finished c.uid { status := stPoisoned, result := 1 }
      else d.refuse c stConflict

end Sys2Proof.Machine
end

