-- ==== Sys2Proof/Machine/Experts.lean ====
section
/-!
DEFINITION. Experts (R287–R312): ROUTE in its three modes, generations and their credits, the capacity rounds with
their count exchanges, expert fetches, the instances of the template, cancellation and idle demotion.
-/
namespace Sys2Proof.Machine

/-- A ROUTE descriptor (Tables 10.5, 10.6). -/
structure RouteP where
  mode : Nat
  replay : Bool
  spill : Bool
  renorm : Bool
  gate : Nat
  k : Nat
  sd : Nat
  gen : Nat
  group : Nat
  t : Nat
  e : Nat
  cap : Nat
  template : Nat
  s : TDesc
  x : TDesc
  y : TDesc
  rec_ : Nat
  xt : Nat
  recv : Nat
  ans : Nat
  ret : Nat
  deriving DecidableEq, Repr

/-- Slots of a mode, and where its routing reference begins. -/
def routeSlots (mode : Nat) : Nat := if mode = 0 then 6 else if mode = 1 then 2 else 4

/-- Reads a ROUTE descriptor. -/
def parseRoute (bs : List Byte) : RouteP :=
  let b := leAt bs 16 1
  let r := 64 * (routeSlots (b % 4) - 1)
  { mode := b % 4, replay := b.testBit 2, spill := b.testBit 3, renorm := b.testBit 4, gate := natFld b 6 5,
    k := leAt bs 17 1, sd := leAt bs 18 1, gen := leAt bs 20 2, group := leAt bs 22 2, t := leAt bs 24 4,
    e := leAt bs 28 2, cap := leAt bs 32 4, template := leAt bs 40 8, s := parseT bs 64, x := parseT bs 192,
    y := parseT bs 64, rec_ := leAt bs r 8, xt := leAt bs (r + 8) 8, recv := leAt bs (r + 16) 8,
    ans := leAt bs (r + 24) 8, ret := leAt bs (r + 32) 8 }

namespace RouteP

/-- A tensor of two dimensions, without MX format where that is barred, whose extents are `a` (where given) and `b`. -/
def shapeBad (t : TDesc) (mxOk : Bool) (a : Option Nat) (b o : Nat) : List (Bool × Nat) :=
  [(!mxOk && t.conv.mx, o + 8), (t.ndim ≠ 2, o + 24), (a.any fun x => x ≠ t.n 0, o + 32), (t.n 1 ≠ b, o + 36)]

/-- Malformed conditions that the descriptor alone shows (Table 10.7). -/
def bad (bs : List Byte) : List (Bool × Nat) :=
  let q := parseRoute bs
  let r := 64 * (routeSlots q.mode - 1)
  ([((parseHdr bs).slots ≠ routeSlots q.mode, 1),
    (q.mode = 3 || 128 ≤ leAt bs 16 1 || 2 ≤ q.gate || (q.replay && q.mode ≠ 0), 16),
    (q.k = 0 || 8 < q.k, 17), (8 < q.sd || 16 < q.k + q.sd || (!q.spill && q.sd ≠ 0), 18), (!zeroAt bs 19 1, 19),
    (q.t = 0 || 2 ^ 20 < q.t, 24), (q.e = 0 || 4096 < q.e, 28), (!zeroAt bs 30 2, 30),
    (q.cap = 0 || 262143 < q.cap, 32), (!zeroAt bs 36 4, 36), (q.mode ≠ 1 && q.template ≠ 0, 40),
    (!zeroAt bs 48 16, 48), (!zeroAt bs (r + 40) 24, r + 40)] : List (Bool × Nat)) ++
  (match q.mode with
   | 0 =>
     (if q.replay then ([(!zeroAt bs 64 128, 64)] : List (Bool × Nat))
      else TDesc.bad bs 64 false ++ shapeBad q.s true (some q.e) q.t 64) ++
     TDesc.bad bs 192 false ++ shapeBad q.x false none q.t 192
   | 2 => TDesc.bad bs 64 true ++ shapeBad q.y false none q.t 64
   | _ => [])

/-- The ALIGN conditions. -/
def misaligned (q : RouteP) : Bool :=
  q.rec_ % 128 ≠ 0 || q.xt % 64 ≠ 0 || q.recv % 128 ≠ 0 || q.ans % 128 ≠ 0 || q.ret % 128 ≠ 0 ||
  (match q.mode with
   | 0 => (!q.replay && q.s.misaligned) || q.x.misaligned
   | 1 => q.template % 64 ≠ 0
   | _ => q.y.misaligned)

/-- ROW_BYTES (Table 10.3). -/
def rowBytes (q : RouteP) : Nat := 128 * cdiv (q.x.n 0 * q.x.esize) 128
/-- Offset of the owner table in the record (R297). -/
def ownerOfs (q : RouteP) : Nat := roundUp (64 + 8 * q.t * q.k) 64
/-- Offset of the origin table. -/
def originOfs (q : RouteP) : Nat := roundUp (q.ownerOfs + 8 * q.e) 64
/-- Bytes of the record. -/
def recBytes (q : RouteP) (nl : Nat) : Nat := q.originOfs + 8 * nl * q.cap

end RouteP

/-- Spans of a ROUTE that its descriptor alone shows; the buffers follow once the expert table is read. -/
def routeSpans (bs : List Byte) : List Span :=
  let q := parseRoute bs
  [arraySpan q.rec_ (q.recBytes 0) true (routeSlots q.mode - 1),
   arraySpan q.xt (64 * q.e) (q.mode = 1) (routeSlots q.mode - 1)] ++
  (match q.mode with
   | 0 => (if q.replay then [] else q.s.spans false) ++ q.x.spans false
   | 1 => [arraySpan q.template 512 false]
   | _ => q.y.spans true)

/-! ### Expert table entries (Table 10.2) -/

/-- Fields of an entry: W_BASE, W_LEN, W2_OFS, OWNER, LOCAL, VALID, PIN, DISABLED and CAP. -/
structure XEnt where
  wBase : Nat
  wLen : Nat
  w2Ofs : Nat
  owner : Nat
  slot : Nat
  valid : Bool
  pin : Bool
  off : Bool
  cap : Nat
  deriving DecidableEq, Repr

/-- Reads an entry. -/
def parseX (bs : List Byte) : XEnt :=
  let f := leAt bs 28 1
  { wBase := leAt bs 0 8, wLen := leAt bs 8 8, w2Ofs := leAt bs 16 8, owner := leAt bs 24 2, slot := leAt bs 26 2,
    valid := f.testBit 0, pin := f.testBit 1, off := f.testBit 2, cap := leAt bs 32 4 }

/-- Entry of expert `x` of a table. -/
def tableEnt (t : List (List Byte)) (x : Nat) : XEnt := parseX (t.getD x [])

/-- Experts that module `m` owns. -/
def tableOwned (t : List (List Byte)) (m : Nat) : List Nat :=
  (List.range t.length).filter fun x => (tableEnt t x).valid && (tableEnt t x).owner = m

/-- The expert at local slot `l` of module `m`. -/
def tableAt (t : List (List Byte)) (m l : Nat) : Option Nat := (tableOwned t m).find? fun x => (tableEnt t x).slot = l

namespace RunJob

/-- FILL of expert `x`. -/
def fillOf (j : RunJob) (x : Nat) : Nat := j.fill.getD x 0

end RunJob

namespace Gen

/-- The DISPATCH's fields. -/
def q (g : Gen) : RouteP := parseRoute g.body
/-- Entry of expert `x`. -/
def ent (g : Gen) (x : Nat) : XEnt := tableEnt g.table x
/-- cap[x] (R294). -/
def capOf (g : Gen) (x : Nat) : Nat := if (g.ent x).cap ≠ 0 then (g.ent x).cap else g.q.cap
/-- FILL of expert `x`. -/
def fillOf (g : Gen) (x : Nat) : Nat := g.fill.getD x 0
/-- The rank of a module in the group. -/
def rankOf (g : Gen) (m : Nat) : Option Nat :=
  let i := g.members.findIdx (· = m)
  if i < g.members.length then some i else none

/-- Its RUN with number `uid`. -/
def job (g : Gen) (uid : Nat) : Option RunJob := g.runs.find? fun j => j.uid = uid
/-- Its outstanding ROUTE descriptors. -/
def uids (g : Gen) : List Nat := g.disps ++ g.runs.map (·.uid) ++ g.combs
/-- The generation without the ROUTE of number `uid`. -/
def without (g : Gen) (uid : Nat) : Gen :=
  { g with disps := g.disps.filter (· ≠ uid), runs := g.runs.filter fun j => j.uid ≠ uid, combs := g.combs.filter (· ≠ uid) }

end Gen

/-- Two VALID entries with one OWNER and LOCAL (R291). -/
def tableBad (t : List (List Byte)) : Bool :=
  (List.range t.length).any fun i => (List.range i).any fun j =>
    let a := parseX (t.getD i [])
    let b := parseX (t.getD j [])
    a.valid && b.valid && a.owner = b.owner && a.slot = b.slot

/-- Bytes 0–39 of every entry. -/
def readTable (e : Env) (q : RouteP) : M (List (List Byte)) :=
  Work.intact ((List.range q.e).mapM fun x => Work.readBytes e (q.xt + 64 * x) 40)

namespace Dp

/-- Generation `g`. -/
def gen (d : Dp) (g : Nat) : Gen := Tab.get (fun _ => {}) d.gens g
/-- Writes generation `g`. -/
def setGen (d : Dp) (g : Nat) (x : Gen) : Dp := { d with gens := Tab.set (fun _ => {}) d.gens g x }

/-! ### Ranking and capacity (R292–R295) -/

/-- Does score `a` of expert `i` rank before score `b` of expert `j` (R292). -/
def ranksBefore (a b : FV) (i j : Nat) : Bool := b.lt a || (!a.lt b && i < j)

/-- The first `n` ranked experts of a token, with their scores; a NaN or unusable expert is not ranked. -/
def rankToken (usable : Nat → Bool) (scores : List FV) (n : Nat) : List (Nat × FV) :=
  let c := ((List.range scores.length).filter usable).filterMap fun x =>
    let v := scores.getD x FV.zero
    if v.isNan then none else some (x, v)
  let place (x : Nat × FV) : Nat := (c.filter fun y => ranksBefore y.2 x.2 y.1 x.1).length
  (List.range n).filterMap fun r => c.find? fun x => place x = r

/-- The entries of this module that are active in a round, sorted by (g, j) (R294). -/
def active (g : Gen) (r : Rounds) : List (Nat × Nat × Nat) :=
  let q := g.q
  (List.range q.t).flatMap fun t => (List.range q.k).filterMap fun j =>
    match r.pend.find? fun p => p.1 = t && p.2.1 = j with
    | some p => some p
    | none => if j = r.round then ((r.ranked.getD t [])[j]?).map fun x => (t, j, x) else none

/-- Active entries per expert (R295). -/
def countsOf (g : Gen) (r : Rounds) : List Nat :=
  let a := active g r
  (List.range g.q.e).map fun x => (a.filter fun p => p.2.2 = x).length

/-- The digest of R295. -/
def routeDigest (q : RouteP) (table : List (List Byte)) : Nat :=
  crc64 0 (toLe 1 q.k ++ toLe 1 q.sd ++ toLe 2 q.e ++ toLe 4 q.cap ++ toLe 1 (if q.spill then 1 else 0) ++
    toLe 1 (if q.renorm then 1 else 0) ++ toLe 1 q.gate ++ toLe 4 q.t ++ table.flatten)

/-- One round's slots (R294, R295), from the counts of every rank. -/
def assign (g : Gen) (r : Rounds) (counts : List (List Nat)) : Gen :=
  let q := g.q
  let start (x : Nat) : Nat :=
    g.fillOf x + ((List.range g.rank).map fun p => (counts.getD p []).getD x 0).foldl (· + ·) 0
  let step (acc : Rounds × List (Nat × Nat)) (p : Nat × Nat × Nat) : Rounds × List (Nat × Nat) :=
    let (r, seen) := acc
    let (t, j, x) := p
    let n := (seen.filter fun s => s.1 = x).length
    let slot := start x + n
    let seen := (x, t) :: seen
    if slot < g.capOf x then
      let st := if (r.ranked.getD t [])[j]? = some x then 1 else 2
      ({ r with out := r.out ++ [{ t, j, status := st, x, slot }] }, seen)
    else
      match (r.ranked.getD t [])[q.k + r.used.getD t 0]? with
      | some y =>
        if q.spill then
          ({ r with pend := r.pend ++ [(t, j, y)], used := r.used.set t (r.used.getD t 0 + 1) }, seen)
        else ({ r with out := r.out ++ [{ t, j, status := 3, x }] }, seen)
      | none => ({ r with out := r.out ++ [{ t, j, status := 3, x }] }, seen)
  let (r', _) := (active g r).foldl step ({ r with pend := [] }, [])
  let total (x : Nat) : Nat := (counts.map fun c => c.getD x 0).foldl (· + ·) 0
  let fill := (List.range q.e).map fun x => min (g.capOf x) (g.fillOf x + total x)
  { g with fill, rounds := some { r' with round := r.round + 1 } }

/-- The gates of a token's choices (R293): by choice, before capacity. -/
def softGates (gate : Nat) (s : List FV) : List FV :=
  if gate = 0 then s
  else
    let s0 := s.headD FV.zero
    let es := s.map fun v => quernE (v.sub32 s0)
    let z := Work.seqSum es
    es.map fun v => v.div32 z

/-- The choice table's entries, in order (R293, R297). -/
def choiceRows (g : Gen) : List (Choice × FV) :=
  let q := g.q
  match g.rounds with
  | none => []
  | some r => (List.range q.t).flatMap fun t =>
      let mine := (List.range q.k).map fun j =>
        (r.out.find? fun c => c.t = t && c.j = j).getD { t, j, status := 0, x := 0 }
      let gs := softGates q.gate (r.scores.getD t [])
      let ok (c : Choice) : Bool := c.status = 1 || c.status = 2
      let a := Work.seqSum ((mine.filter ok).map fun c => gs.getD c.j FV.zero)
      mine.map fun c =>
        let v := gs.getD c.j FV.zero
        (c, if !ok c then FV.zero else if q.renorm then v.div32 a else v)

/-! ### The routing record (R297) -/

/-- A choice entry (Table 10.4). -/
def choiceWord (c : Choice) (gate : FV) : Nat :=
  gate.bits32 * 2 ^ 32 + c.status * 2 ^ 30 + c.x % 4096 * 2 ^ 18 + c.slot % 2 ^ 18

/-- The header of the record (Table 10.3). -/
def recHead (g : Gen) (state ansRow : Nat) : List Byte :=
  let q := g.q
  let n (p : Choice → Bool) : Nat := (g.choices.filter p).length
  toLe 2 q.gen ++ toLe 1 q.k ++ toLe 1 (q.k + q.sd) ++ toLe 1 state ++ toLe 3 0 ++ toLe 4 q.t ++ toLe 2 q.e ++
  toLe 2 (q.k + q.sd) ++ toLe 4 (n fun c => c.status = 1 || c.status = 2) ++ toLe 4 (n fun c => c.status = 3) ++
  toLe 4 (n fun c => c.status = 2) ++ toLe 4 q.rowBytes ++ toLe 4 ansRow ++ toLe 2 g.nl ++ List.replicate 26 0

/-- An origin entry. -/
def originWord (rank t j : Nat) : Nat := 2 ^ 63 + rank % 65536 * 2 ^ 32 + t % 2 ^ 20 * 2 ^ 12 + j % 16

/-- The whole record of a generation. -/
def recImage (d : Dp) (g : Gen) : List Byte :=
  let q := g.q
  let cs := ((g.choices.zip g.gates).map fun c => toLe 8 (choiceWord c.1 c.2)).flatten
  let owners := ((List.range q.e).map fun x =>
    let t := g.ent x
    toLe 8 (if t.valid && t.owner = d.me then g.fillOf x + t.slot * 2 ^ 32 else 0)).flatten
  let origins := ((List.range (g.nl * q.cap)).map fun i => toLe 8 (Tab.get (fun _ => 0) g.origins i)).flatten
  let a := recHead g 1 0 ++ cs
  let a := a ++ List.replicate (q.ownerOfs - a.length) 0 ++ owners
  a ++ List.replicate (q.originOfs - a.length) 0 ++ origins

/-! ### Expert fetches (R300, R301) -/

/-- The pages of a weight range with their leaves. -/
def rangePages (d : Dp) (space b : Nat) : Nat → Nat → List (Nat × Leaf)
  | 0, _ => []
  | f + 1, a =>
    if b ≤ a then []
    else
      match d.walk space a with
      | .error _ => []
      | .ok l => let page := a / l.size * l.size; (page, l) :: d.rangePages space b f (page + l.size)

/-- The pages of a range of `len` bytes at `a`. -/
def pagesAt (d : Dp) (space a len : Nat) : List (Nat × Leaf) := d.rangePages space (a + len) (len / 4096 + 2) a

/-- TIER of an entry from the pages of its range: 3 when mixed. -/
def rangeTier (ps : List (Nat × Leaf)) : Nat :=
  match ps with
  | [] => 0
  | p :: rest => if rest.all fun x => x.2.tier = p.2.tier then p.2.tier else 3

/-- RES of an entry: 0 every page present, 1 every page peat-resident, 3 some. -/
def rangeRes (ps : List (Nat × Leaf)) : Nat :=
  if ps.all fun x => x.2.res = 0 then 0 else if ps.all fun x => x.2.res = 1 then 1 else 3

/-- Writes bytes of an entry of the expert table at `xt`, where its lines can be written. -/
def pokeTable (d : Dp) (space xt x ofs : Nat) (bs : List Byte) : Dp :=
  match d.translate space (xt + 64 * x + ofs) true with
  | .ok (.dev a) => (d.setDpas a bs).touchFrame a
  | .ok (.host a) => d.setHosts a bs
  | .error _ => d

/-- Reads a number of an entry of the expert table at `xt`, 0 where it cannot be read. -/
def peekTable (d : Dp) (space xt x ofs n : Nat) : Nat :=
  match d.translate space (xt + 64 * x + ofs) false with
  | .ok (.dev a) => leNat (d.dpaBytes a n)
  | .ok (.host a) => leNat ((List.range n).map fun i => d.hostByte (a + i))
  | .error _ => 0

/-- Asks Gleaner of half `h` for the fetch of expert `x`, whose range has peat-resident pages (R300). -/
def askFetch (d : Dp) (k h xt x : Nat) (t : XEnt) : Dp :=
  let g := d.gen k
  if g.fetching.any (fun f => f.slot = t.slot) || !(d.pagesAt g.space t.wBase t.wLen).any fun p => p.2.res = 1 then d
  else
    let f : Fetch := { slot := t.slot, x, table := xt, base := t.wBase, len := t.wLen, start := d.now }
    let d := (d.setGen k { g with fetching := g.fetching ++ [f], fetched := g.fetched + 1 }).addJob (.fetch h k t.slot)
    let d := d.pokeTable g.space xt x 30 [2]
    let n := (d.peekTable g.space xt x 56 8 + 1) % 2 ^ 64
    (d.pokeTable g.space xt x 56 (toLe 8 n)).bump (Reg.glnCnt 0)

/-- The owner starts the fetches of its experts that received tokens, as its final count exchange shows them (R300). -/
def startFetches (d : Dp) (k n : Nat) : Dp :=
  let g := d.gen k
  ((tableOwned g.table d.me).filter fun x => g.fillOf x ≠ 0).foldl (fun (d : Dp) x =>
    d.askFetch k (d.stokerHalf n) g.q.xt x (g.ent x)) d

/-- Promotes one peat-resident page into a frame of half `h`, as R31 does, for a fetch that began at `start`. -/
def pageIn (d : Dp) (h space start page : Nat) (l : Leaf) : Bool × Dp :=
  match d.allocFrame h l.size with
  | (none, d) => (false, d.poolExhausted h page)
  | (some a, d) =>
    let d := (d.copyLines l.addr a (l.size / 128)).rewriteLeaf l.entry a 0 0
    let f : Frame := { base := a, size := l.size, space, page, home := l.addr, dirty := false, pinned := true }
    let d : Dp := { d with mem := { d.mem with frames := d.mem.frames ++ [f] } }
    (true, (d.bump Reg.promoCnt).promoNotice 0 space page l.size (d.now - start) l.addr)

/-- Promotes the peat-resident pages of a range; answers whether all found room. -/
def pagesIn (d : Dp) (h space start : Nat) : List (Nat × Leaf) → Bool × Dp
  | [] => (true, d)
  | (page, l) :: rest =>
    if l.res ≠ 1 then d.pagesIn h space start rest
    else
      match d.pageIn h space start page l with
      | (false, d) => (false, d)
      | (true, d) => (d.bump (Reg.glnCnt 1) l.size).pagesIn h space start rest

/-- Pins the pool frames that hold pages of a range until the generation's RUN completes. -/
def pinRange (d : Dp) (k : Nat) (ps : List (Nat × Leaf)) : Dp :=
  let g := d.gen k
  let mine (f : Frame) : Bool := f.space = g.space && ps.any fun p => p.1 = f.page && p.2.addr = f.base
  let new := (d.mem.frames.filter fun f => mine f && !g.pins.contains f.base).map (·.base)
  let d : Dp := { d with mem := { d.mem with frames := d.mem.frames.map fun f => if mine f then { f with pinned := true } else f } }
  d.setGen k { g with pins := g.pins ++ new }

/-- The frames pinned for a generation are released as its last RUN completes, but for those another generation pins. -/
def unpin (d : Dp) (k : Nat) : Dp :=
  let g := d.gen k
  if !g.runs.isEmpty then d
  else
    let held (a : Nat) : Bool := d.gens.any fun x => x.1 ≠ k && x.2.pins.contains a
    let loose (f : Frame) : Frame := if g.pins.contains f.base && !held f.base then { f with pinned := false } else f
    let d : Dp := { d with mem := { d.mem with frames := d.mem.frames.map loose } }
    d.setGen k { g with pins := [] }

/-! ### Rows -/

/-- The environment of row traffic of a generation: writes of the module's own, behind no ring. -/
def rowEnv (space : Nat) : Env := { ring := 64, uid := 2 ^ 64, seq := 0, op := 0x40, space }

/-- A token row as it travels: Dm elements as stored, filled with zeros to ROW_BYTES, with its poison. -/
def readRow (e : Env) (q : RouteP) (t : Nat) : M (List Byte × Bool) := do
  let (parts, bad) ← Work.poisonOf ((List.range (q.x.n 0)).mapM fun c =>
    match q.x.addr [c, t] with
    | some a => do Work.readBytes e (← Work.checked e a q.x.esize q.x.base false) q.x.esize
    | none => return toLe q.x.esize (q.x.conv.fmt.convert false .nearestEven (FV.of32 q.x.padValue)))
  let bs := parts.flatten
  return (bs ++ List.replicate (q.rowBytes - bs.length) 0, bad)

/-- AUX2 of the frames of a kind of row: 0 token rows, 1 answers (log entry 59). -/
def rowAux (kind : Nat) : Nat := 254 + kind

/-- Frames of a row of generation `k`, all-to-all DATA of its group. -/
def rowFrames (group k kind ofs tag : Nat) (bs : List Byte) (bad : Bool) : List Culm :=
  let n := max 1 (cdiv bs.length 4096)
  (List.range n).map fun i =>
    { ty := 0, ember := false, last := i + 1 = n, poison := bad, group, msg := k, ofs := ofs + 4096 * i, aux := 3,
      aux2 := rowAux kind, aux32 := tag, payload := (bs.drop (4096 * i)).take 4096 }

/-- Grants a buffer of `len` bytes for rows of a kind to every other member (R364). -/
def grantRows (d : Dp) (k kind len : Nat) : Dp :=
  let g := d.gen k
  g.members.foldl (fun (d : Dp) m =>
    if m = d.me then d
    else d.posts m 1 [{ ty := 3, ember := true, group := g.q.group, msg := k, aux2 := rowAux kind, payload := toLe 8 0 ++ toLe 8 len }]) d

/-- Is a waiting frame covered by the grants of its destination (R364): token rows by as many as there were dispatches. -/
def rowCovered (g : Gen) (w : RowWait) : Bool :=
  let mine := g.grants.filter fun x => x.from_ = w.dest && rowAux x.kind = w.frame.aux2
  w.play ≤ mine.length &&
    mine.any fun x => x.start ≤ w.frame.ofs && w.frame.ofs + w.frame.payload.length ≤ x.start + x.len

/-- Rows whose grant has come leave; a token row takes its credit with its last frame (R306). -/
def pumpRows (d : Dp) (k : Nat) : Dp :=
  let (go, stay) := (d.gen k).wait.partition (rowCovered (d.gen k))
  let took := (go.filter fun w => w.frame.last && w.frame.aux2 = rowAux 0).length
  let d := d.setGen k { d.gen k with wait := stay, credits := (d.gen k).credits + took }
  go.foldl (fun d w => d.posts w.dest 0 [w.frame]) d

/-- A CREDIT of rows arrives. -/
def rxRowCredit (d : Dp) (f : Culm) : Dp :=
  d.receive 1 f fun d =>
    let g := d.gen f.msg
    if g.st ≠ .live then d
    else
      let x : RowGrant := { from_ := f.src, kind := f.aux2 - rowAux 0, start := leAt f.payload 0 8, len := leAt f.payload 8 8 }
      (d.setGen f.msg { g with grants := g.grants ++ [x] }).pumpRows f.msg

/-- Bytes of a token row arrive at the owner's receive buffer, and the origin of a row with its first bytes (R297, R298); a
row outside the buffer is a translation fault. A replay rewrites only the buffer (R305). -/
def landRow (g : Gen) (k rank ofs tag : Nat) (bs : List Byte) (bad : Bool) : M Unit := do
  let e := rowEnv g.space
  let q := g.q
  let row := ofs / max 1 g.rowB
  if g.nl * q.cap ≤ row then Work.trouble (xlate 1 g.space (g.recvBase + ofs) true)
  let w := originWord rank (tag / 16) (tag % 16)
  let fresh := Tab.get (fun _ => 0) g.origins row = 0
  Work.put (g.recvBase + ofs) bs bad
  if g.sent && fresh then Work.put (q.rec_ + q.originOfs + 8 * row) (toLe 8 w) false
  Work.flush e
  Work.change fun d =>
    let g := d.gen k
    d.setGen k { g with recv := Tab.modify (fun _ => 0) g.recv row (· + bs.length),
                        origins := if fresh then Tab.set (fun _ => 0) g.origins row w else g.origins }

/-- Bytes of an answer arrive in the return buffer; a whole answer returns its credit (R306). A row outside the buffer of
T × K rows is a translation fault (R298). -/
def landAnswer (g : Gen) (k ofs tag : Nat) (bs : List Byte) (bad : Bool) (last : Bool) : M Unit := do
  let q := g.q
  let i := tag / 16 * q.k + tag % 16
  if q.t ≤ tag / 16 || q.k ≤ tag % 16 || (g.ansRow ≠ 0 && q.t * q.k * g.ansRow < ofs + bs.length) then
    Work.trouble (xlate 1 g.space (g.retBase + ofs) true)
  Work.put (g.retBase + ofs) bs bad
  Work.flush (rowEnv g.space)
  Work.change fun d =>
    let g := d.gen k
    d.setGen k (if last then { g with got := Tab.modify (fun _ => 0) g.got i (· + 1), credits := g.credits - 1 } else g)

/-- Sends the accepted rows of a DISPATCH, writing those this module owns (R298). -/
def sendRows (k : Nat) (e : Env) (q : RouteP) (table : List (List Byte)) : List Choice → M Unit
  | [] => return ()
  | c :: cs => do
    let g ← Work.look fun d => d.gen k
    if c.status = 1 || c.status = 2 then
      let (bs, bad) ← readRow e q c.t
      if bad then Work.markPoisoned e
      let t := tableEnt table c.x
      let ofs := (t.slot * q.cap + c.slot) * q.rowBytes
      let tag := c.t * 16 + c.j
      let me ← Work.look me
      if t.owner = me then
        landRow g k g.rank ofs tag bs bad
        Work.change fun d => d.setGen k { d.gen k with credits := (d.gen k).credits + 1 }
      else
        let new := (rowFrames q.group k 0 ofs tag bs bad).map fun f => ({ dest := t.owner, play := g.plays, frame := f } : RowWait)
        Work.change fun d => d.setGen k { d.gen k with wait := (d.gen k).wait ++ new }
    sendRows k e q table cs

/-- Have all frames of a kind of row of a generation left and been acknowledged. -/
def rowsAcked (d : Dp) (g : Gen) (k kind : Nat) : Bool :=
  let mine (f : Culm) : Bool := f.ty = 0 && f.msg = k && f.aux = 3 && f.aux2 = rowAux kind
  !(g.wait.any fun w => mine w.frame) &&
  g.members.all fun m => !((d.conn m 0).unacked.any fun t => mine t.frame) && !((d.conn m 0).queue.any mine)

/-- Sets bits of STATE of the record at `q.rec_`. -/
def pokeState (e : Env) (q : RouteP) (bits : Nat) : M Unit := do
  let b ← Work.readNat e (q.rec_ + 4) 1
  Work.put (q.rec_ + 4) (toLe 1 (b ||| bits)) false
  Work.flush e

/-- The record's choices as stored (Table 10.4), with their gates. -/
def readChoice (e : Env) (q : RouteP) (i : Nat) : M (Choice × FV) := do
  let w ← Work.readNat e (q.rec_ + 64 + 8 * i) 8
  return ({ t := i / max 1 q.k, j := i % max 1 q.k, status := natFld w 31 30, x := natFld w 29 18, slot := w % 2 ^ 18 },
    FV.of32 (w / 2 ^ 32))

/-! ### What ends a ROUTE -/

/-- The generation goes back to IDLE; what it had fetched is no longer pinned. -/
def idleGen (d : Dp) (k : Nat) : Dp :=
  let d := (d.setGen k { d.gen k with runs := [] }).unpin k
  (d.dropJobs fun j => match j with
    | .fetch _ x _ => x = k
    | .promotion _ _ _ => false).setGen k {}

/-- A generation whose credits have all returned and that no outstanding ROUTE needs goes back to IDLE: after its COMBINE
(R288), or from DRAINING, with its notice (R306). -/
def settleGen (d : Dp) (k : Nat) : Dp :=
  let g := d.gen k
  if g.credits ≠ 0 || !g.runs.isEmpty || !g.disps.isEmpty then d
  else
    match g.st with
    | .live => if g.combined then d.idleGen k else d
    | .draining =>
      let d := d.idleGen k
      if (d.reg Reg.glnCtl).bit 1 then
        d.notice 7 0 none (toLe 2 k ++ toLe 2 g.q.group ++ toLe 4 0 ++ toLe 8 g.discarded)
      else d
    | .idle => d

/-- A ROUTE of generation `k` ends: its entries in progress return, and its frames are unpinned. -/
def endRoute (d : Dp) (k uid : Nat) (e : Ending) : Dp :=
  let d := ((d.returnEntries uid).setGen k ((d.gen k).without uid)).unpin k
  match d.findOutst uid with
  | some (_, o) => (match o.phase with | .finished _ => d | _ => d.finished uid e)
  | none => d

/-- The spans of a ROUTE with the buffers it reads or writes, once their sizes are known. -/
def routeAll (q : RouteP) (nl rowB ansRow : Nat) : List Span :=
  let rest := match q.mode with
    | 0 => (if q.replay then [] else q.s.spans false) ++ q.x.spans false ++ [arraySpan q.recv (nl * q.cap * q.rowBytes) true]
    | 1 => [arraySpan q.template 512 false, arraySpan q.recv (nl * q.cap * rowB) false,
        arraySpan q.ans (nl * q.cap * ansRow) true, arraySpan q.ret (q.t * q.k * ansRow) true]
    | _ => q.y.spans true ++ (if ansRow = 0 then [] else [arraySpan q.ret (q.t * q.k * ansRow) false])
  [arraySpan q.rec_ (q.recBytes nl) true, arraySpan q.xt (64 * q.e) (q.mode = 1)] ++ rest

/-- What a ROUTE reads before it is judged: the table (but for COMBINE), the header of the record (but for a first
DISPATCH), FILL per expert and the template (RUN). -/
structure RouteIn where
  table : List (List Byte) := []
  head : List Byte := []
  fill : List Nat := []
  tm : List Byte := []
  deriving DecidableEq, Repr

/-- Reads it, from the places its own routing reference names (Table 10.6). -/
def readRoute (e : Env) (q : RouteP) : M RouteIn := do
  let table ← if q.mode = 2 then pure [] else readTable e q
  let head ← if q.mode = 0 && !q.replay then pure [] else Work.intact (Work.readBytes e q.rec_ 64)
  let fill ← if q.mode = 1 then
      Work.intact ((List.range q.e).mapM fun x => do return (← Work.readNat e (q.rec_ + q.ownerOfs + 8 * x) 8) % 2 ^ 32)
    else pure []
  let tm ← if q.mode = 1 then Work.intact (Work.readBytes e q.template 512) else pure []
  return { table, head, fill, tm }

/-- The first value that disagrees with the record, or with the DISPATCH where the record does not hold it (R308). -/
def disagrees (q : RouteP) (bs head body : List Byte) : Option Nat :=
  firstBad ([(leAt bs 16 1 / 8 ≠ leAt body 16 1 / 8, 16), (leAt head 2 1 ≠ q.k, 17),
      (leAt head 3 1 ≠ q.k + q.sd || leAt body 18 1 ≠ q.sd, 18), (leAt head 0 2 ≠ q.gen, 20),
      (leAt body 22 2 ≠ q.group, 22), (leAt head 8 4 ≠ q.t, 24), (leAt head 12 2 ≠ q.e, 28), (leAt body 32 4 ≠ q.cap, 32)] :
    List (Bool × Nat))

/-- Is the template usable: a FUSED_GRG of eight slots with batch extents of 1, no PRED and no TLIST (R299). -/
def templateBad (tm : List Byte) : Bool :=
  let f := parseFused tm
  let h := parseHdr tm
  h.op ≠ 0x28 || h.slots ≠ 8 || (firstBad (hdrBad tm)).isSome || f.batches ≠ 1 || f.pred ≠ 0 || f.tlist ≠ 0

/-- ANS_ROW_BYTES of a template. -/
def ansRowOf (tm : List Byte) : Nat :=
  let f := parseFused tm
  128 * cdiv (f.n * f.yConv.fmt.size) 128

/-- One more than the largest LOCAL that this module owns (R297). -/
def nlOf (d : Dp) (table : List (List Byte)) : Nat :=
  (tableOwned table d.me).foldl (fun a x => max a ((tableEnt table x).slot + 1)) 0

/-- ANS_ROW_BYTES as a COMBINE takes it: the record's, or where no RUN has written it, that of rows of Y. -/
def combineRow (g : Gen) (q : RouteP) (head : List Byte) : Nat :=
  let w := leAt head 32 4
  if w ≠ 0 then w else
    let f := match g.ansCode with
      | some c => ((fmtOf c).getD (.fp32, false)).1
      | none => q.y.conv.fmt
    128 * cdiv (q.y.n 0 * f.size) 128

/-- The spans of a ROUTE as it is judged. -/
def routeSpansOf (d : Dp) (q : RouteP) (r : RouteIn) : List Span :=
  match q.mode with
  | 0 => routeAll q (d.nlOf r.table) 0 0
  | 1 => routeAll q (leAt r.head 36 2) (leAt r.head 28 4) (ansRowOf r.tm)
  | _ => routeAll q (leAt r.head 36 2) 0 (combineRow (d.gen q.gen) q r.head)

/-- The rows of Table 10.7 that hold before a ROUTE does anything, in their order: how it ends then. A REPLAY of an IDLE
generation is malformed (DESIGN CHOICE, log entry 171). -/
def routeRefusal (d : Dp) (n : Nat) (bs : List Byte) (r : RouteIn) : Option Ending :=
  let q := parseRoute bs
  let g := d.gen q.gen
  let first := q.mode = 0 && !q.replay
  let sp := d.routeSpansOf q r
  if !first && g.st = .idle then some (rejection 20)
  else if q.mode ≠ 2 && tableBad r.table then some (rejection (64 * (routeSlots q.mode - 1) + 8))
  else if q.mode = 1 && templateBad r.tm then some (rejection 40)
  else
    match (if first then none else disagrees q bs r.head g.body) with
    | some o => some (rejection o)
    | none =>
      if q.misaligned then some { status := stAlign }
      else if selfOverlap (sp.filter (·.stored)) (sp.filter fun s => !s.stored) || d.guardRefuses n sp then
        some { status := stOverlap }
      else if q.mode = 0 && (if q.replay then g.st = .draining else g.st ≠ .idle) then some { status := stConflict }
      else if q.mode ≠ 0 && g.st = .draining then some { status := stCancelled, detail := 3 }
      else none

/-- Reads what a ROUTE is judged by and judges it; `go` starts it. Where the reading meets trouble, ALIGN goes first
(Table 10.7). -/
def routeJudged (n : Nat) (o : Outst) (go : RouteIn → Dp → Dp) (d : Dp) : Dp :=
  let q := parseRoute o.bytes
  match run (readRoute (d.envOf n o) q) atsFuel d with
  | (.error t, d) => if q.misaligned then d.complete n o.uid { status := stAlign } else d.meet n o (d.stokerHalf n) 0 t
  | (.ok (r, _), d) =>
    match d.routeRefusal n o.bytes r with
    | some e => d.complete n o.uid e
    | none => go r (d.modOutst n o.uid fun o => { o with spans := d.routeSpansOf q r })

/-! ### DISPATCH -/

/-- The entries of a DISPATCH: 64 tokens each (R292). -/
def rankTiles (t : Nat) : List Entry := (List.range (cdiv t 64)).map fun k => { kind := .compute, part := k, group := k }

/-- The ranking of one token (R292): the experts it ranks with their scores; none where a score is poisoned. -/
def rankOne (e : Env) (q : RouteP) (table : List (List Byte)) (t : Nat) : M (List (Nat × FV)) := do
  let (s, bad) ← Work.poisonOf ((List.range q.e).mapM fun x => Work.load e q.s [x, t])
  if bad then
    Work.markPoisoned e
    return []
  return rankToken (fun x => (tableEnt table x).valid && !(tableEnt table x).off) s (q.k + q.sd)

/-- The work of entry `p` of a DISPATCH: its tokens are ranked. -/
def rankEntry (e : Env) (q : RouteP) (p : Nat) : M Unit := do
  let g ← Work.look fun d => d.gen q.gen
  let ts := (List.range (min 64 (q.t - 64 * p))).map (64 * p + ·)
  let rows ← ts.mapM fun t => rankOne e q g.table t
  Work.change fun d =>
    let g := d.gen q.gen
    d.setGen q.gen { g with ranks := (ts.zip rows).foldl (fun t x => Tab.set (fun _ => []) t x.1 x.2) g.ranks }

/-- The record is written and the rows are sent, once the rounds are over. -/
def finishRounds (d : Dp) (n : Nat) (o : Outst) (k : Nat) : Dp :=
  let rows := choiceRows (d.gen k)
  let q := (d.gen k).q
  let work : M Unit := do
    let e := d.envOf n o
    Work.change fun d => d.setGen k { d.gen k with choices := rows.map (·.1), gates := rows.map (·.2), sent := true }
    let image ← Work.look fun d => d.recImage (d.gen k)
    Work.put q.rec_ image false
    Work.flush e
    sendRows k e q (d.gen k).table (rows.map (·.1))
  if (d.gen k).sent then d
  else
    match Dp.run work atsFuel d with
    | (.error t, d) => d.meet n o (d.stokerHalf n) 0 t
    | (.ok (_, wk), _) =>
      let cs := rows.map (·.1)
      let d := wk.d.bump (Reg.glnCnt 3) (cs.filter fun c => c.status = 3).length
      let d := d.bump (Reg.glnCnt 4) (cs.filter fun c => c.status = 2).length
      (d.grantRows k 0 ((d.gen k).nl * q.cap * q.rowBytes)).pumpRows k

/-- The count exchange of the coming round leaves this module (R295). -/
def sendExchange (d : Dp) (k : Nat) (refuse : Bool) (q : RouteP) (table : List (List Byte)) : Dp :=
  let g := d.gen k
  let r := (g.rounds.map fun r => r.round).getD 0
  let counts := if refuse then [] else (g.rounds.map fun r => countsOf g r).getD []
  { d with exchanges := d.exchanges ++ [{ gen := k, round := r, refuse, digest := routeDigest q table, counts }] }

/-- Runs the rounds that need no other module, sends the next exchange, or finishes. -/
def nextRound (n : Nat) (o : Outst) (k : Nat) : Nat → Dp → Dp
  | 0, d => d
  | f + 1, d =>
    let g := d.gen k
    match g.rounds with
    | none => d
    | some r =>
      if g.q.k + g.q.sd ≤ r.round then (d.startFetches k n).finishRounds n o k
      else if g.members.length = 1 then nextRound n o k f (d.setGen k (assign g r [countsOf g r]))
      else d.sendExchange k false g.q g.table

/-- DISPATCHes end when every row this module sent has been written at its owner. -/
def endDispatch (d : Dp) (k : Nat) : Dp :=
  let g := d.gen k
  if !g.sent || !d.rowsAcked g k 0 then d
  else
    let n (p : Choice → Bool) : Nat := (g.choices.filter p).length
    g.disps.foldl (fun (d : Dp) uid =>
      if (d.findOutst uid).any fun x => x.2.phase = .running then
        d.endRoute k uid { status := stOK, result := n (fun c => c.status = 1 || c.status = 2) + n (fun c => c.status = 3) * 2 ^ 32 }
      else d) d

/-- All entries of a DISPATCH are finished: the rounds begin (R294, R295). -/
def endRank (n : Nat) (o : Outst) (d : Dp) : Dp :=
  let q := parseRoute o.bytes
  let k := q.gen
  let g := d.gen k
  if !g.disps.contains o.uid || g.rounds.isSome then d
  else
    let rk := (List.range q.t).map fun t => Tab.get (fun _ => []) g.ranks t
    let r : Rounds := { ranked := rk.map fun l => l.map (·.1),
                        scores := rk.map fun l => (l.take q.k).map (·.2), used := rk.map fun _ => 0 }
    (nextRound n o k (q.k + q.sd + 1) (d.setGen k { g with rounds := some r, ranks := [] })).endDispatch k

/-- A DISPATCH that is granted (R288, R289): the generation becomes LIVE, and its entries enter the lists. -/
def startFirst (d : Dp) (n : Nat) (o : Outst) (r : RouteIn) (grp : Group) : Dp :=
  let q := parseRoute o.bytes
  let k := q.gen
  let parts := divide (d.halvesOf n) (rankTiles q.t)
  if 64 ≤ (d.gens.filter fun x => x.2.st ≠ .idle).length then
    (d.sendExchange k true q r.table).complete n o.uid { status := stConflict }
  else
    match d.cribRefusal (receiving parts) 0 0 with
    | some w => d.complete n o.uid { status := stCrib, result := w }
    | none =>
      let g : Gen := { st := .live, disps := [o.uid], body := o.bytes, space := o.space,
                       members := grp.members.map (·.endpoint), rank := grp.rank, nl := d.nlOf r.table, table := r.table,
                       fill := List.replicate q.e 0, plays := 1, rowB := q.rowBytes, recvBase := q.recv, retBase := q.ret,
                       due := q.rowBytes }
      ((d.setGen k g).addLists n o.uid 0 parts).setPhase o.uid .running

/-- A REPLAY (R305): the rows of X travel along the choices of the record. -/
def startReplay (d : Dp) (n : Nat) (o : Outst) (r : RouteIn) : Dp :=
  let q := parseRoute o.bytes
  let k := q.gen
  let g := d.gen k
  let e := d.envOf n o
  let work : M Unit := do
    let cs ← Work.intact ((List.range (q.t * q.k)).mapM fun i => readChoice e q i)
    Work.change fun d => d.setGen k { g with disps := g.disps ++ [o.uid], plays := g.plays + 1, rowB := q.rowBytes,
                                             recvBase := q.recv, retBase := q.ret, due := g.due + q.rowBytes }
    sendRows k e q r.table (cs.map (·.1))
  match run work atsFuel d with
  | (.error t, d) => d.meet n o (d.stokerHalf n) 0 t
  | (.ok (_, wk), _) => ((wk.d.grantRows k 0 (g.nl * q.cap * q.rowBytes)).pumpRows k).endDispatch k

/-- The start of a DISPATCH, or its work resumed with the same slots (R288–R295, R305). -/
def startDispatch (n : Nat) (o : Outst) (d : Dp) : Dp :=
  let q := parseRoute o.bytes
  let k := q.gen
  if (d.gen k).disps.contains o.uid then
    let d := d.setPhase o.uid .running
    (match (d.gen k).rounds with
      | some r => if q.k + q.sd ≤ r.round then d.finishRounds n o k else d
      | none => if d.hasList o.uid && d.allDone o.uid then d.endRank n o else d).endDispatch k
  else
    withGroup n o q.group 22 (fun grp d =>
      routeJudged n o (fun r d => if q.replay then d.startReplay n o r else d.startFirst n o r grp) d) d

/-- A round's count exchange arrives, one entry per rank (R289, R295). -/
def countExchange (d : Dp) (k round : Nat) (all : List (Bool × Nat × List Nat)) : Dp :=
  let g := d.gen k
  match g.disps.head?.bind d.findOutst, g.rounds with
  | some (n, o), some r =>
    if g.st ≠ .live || r.round ≠ round || all.length ≠ g.members.length || o.phase ≠ .running || g.members.length = 1 ||
        g.q.k + g.q.sd ≤ r.round then d
    else if all.any fun x => x.1 || x.2.1 ≠ routeDigest g.q g.table then
      (d.idleGen k).finished o.uid { status := stConflict }
    else
      let counts := (List.range all.length).map fun p =>
        if p = g.rank then countsOf g r else ((all.getD p (false, 0, [])).2.2)
      (nextRound n o k (g.q.k + g.q.sd + 1) (d.setGen k (assign g r counts))).endDispatch k
  | _, _ => d

/-! ### RUN (R299–R302) -/

/-- The instance of the template for expert `x` of a RUN (R299). -/
def instanceOf (cap : Nat) (q : RouteP) (j : RunJob) (x : Nat) : FusedP :=
  let t := tableEnt j.table x
  let f := parseFused j.tm
  let xd := { f.x with base := q.recv + t.slot * cap * j.rowB, ext := f.x.ext.set 1 (j.fillOf x),
                       stride := f.x.stride.set 1 (j.rowB : Int) }
  { f with x := xd, w1 := { f.w1 with base := t.wBase }, w2 := { f.w2 with base := t.wBase + t.w2Ofs },
           yBase := q.ans + t.slot * cap * j.ansRow, yRow := (j.ansRow : Int) }

/-- The bytes of an instance, for the checks of Table 7.11. -/
def instanceBytes (q : RouteP) (j : RunJob) (x : Nat) : List Byte :=
  let t := tableEnt j.table x
  let put (o n v : Nat) (bs : List Byte) : List Byte := bs.take o ++ toLe n v ++ bs.drop (o + n)
  put 64 8 (q.recv + t.slot * q.cap * j.rowB) <| put 100 4 (j.fillOf x) <| put 134 6 j.rowB <| put 192 8 t.wBase <|
    put 320 8 (t.wBase + t.w2Ofs) <| put 448 8 (q.ans + t.slot * q.cap * j.ansRow) <| put 464 6 j.ansRow j.tm

/-- How an instance that Table 7.11 refuses ends its RUN, the expert named in the result word (R299). A malformed one counts as
a bad template: the ring halts, at the byte of TEMPLATE (DESIGN CHOICE, log entry 171). -/
def instanceRefusal (d : Dp) (n : Nat) (bs : List Byte) (x : Nat) : Option Ending :=
  let f := parseFused bs
  let at_ (e : Ending) : Ending := { e with result := x * 2 ^ 32 }
  if (firstBad (FusedP.bad bs)).isSome then some (at_ (rejection 40))
  else if f.misaligned then some (at_ { status := stAlign })
  else if selfOverlap (f.y.spans true) f.ins then some (at_ { status := stOverlap })
  else if (d.cribRefusal (receiving (divide (d.halvesOf n) f.order)) 8 f.groupKib).isSome then some (at_ { status := stCrib })
  else none

/-- Experts of this module that received tokens. -/
def toRun (d : Dp) (j : RunJob) : List Nat := (tableOwned j.table d.me).filter fun x => j.fillOf x ≠ 0

/-- Have all rows of expert `x` arrived, for every dispatch of the generation before the RUN. -/
def rowsHere (g : Gen) (j : RunJob) (x : Nat) : Bool :=
  (List.range (j.fillOf x)).all fun s =>
    j.due ≤ Tab.get (fun _ => 0) g.recv ((tableEnt j.table x).slot * g.q.cap + s)

/-- The entries of an instance enter the common list, marked with its local slot (R299, R300). -/
def listInstance (d : Dp) (n uid l : Nat) (f : FusedP) : Dp :=
  let es := f.order.map fun e => { e with batch := l, group := l * 2 ^ 32 + e.group }
  let parts := divide (d.halvesOf n) es
  parts.foldl (fun (d : Dp) (p : Nat × List Entry) =>
    if p.2.isEmpty then d
    else if d.lists.any fun x => x.uid = uid && x.half = p.1 then
      { d with lists := d.lists.map fun x => if x.uid = uid && x.half = p.1 then { x with entries := x.entries ++ p.2 } else x }
    else d.addLists n uid 8 [p]) d

/-- Changes the RUN with number `uid`. -/
def modRun (d : Dp) (k uid : Nat) (f : RunJob → RunJob) : Dp :=
  let g := d.gen k
  d.setGen k { g with runs := g.runs.map fun j => if j.uid = uid then f j else j }

/-- The RUN of number `uid` comes to expert `x` (R299, R300): its instance is built, judged and listed once the pages of its
range are present and its rows have arrived; a range with peat-resident pages is fetched. -/
def listOne (n uid k : Nat) (q : RouteP) (d : Dp) (x : Nat) : Dp :=
  let g := d.gen k
  match g.job uid with
  | none => d
  | some j =>
    let t := tableEnt j.table x
    if j.listed.contains t.slot then d
    else
      let ps := d.pagesAt g.space t.wBase t.wLen
      if ps.any fun p => p.2.res = 1 then d.askFetch k (d.stokerHalf n) q.xt x t
      else if g.fetching.any (fun f => f.slot = t.slot) || !rowsHere g j x then d
      else
        match d.instanceRefusal n (instanceBytes q j x) x with
        | some e => d.endRoute k uid e
        | none => (d.modRun k uid fun j => { j with listed := j.listed ++ [t.slot] }).listInstance n uid t.slot (instanceOf g.q.cap q j x)

/-- Instances whose pages and rows are there enter the lists. -/
def listReady (d : Dp) (n uid k : Nat) (q : RouteP) (j : RunJob) : Dp := (d.toRun j).foldl (listOne n uid k q) d

/-- Sends the answers of expert `x` to the sources that its origin entries in the record name (R302). -/
def sendAnswers (e : Env) (k : Nat) (q : RouteP) (j : RunJob) (x : Nat) : List Nat → M Unit
  | [] => return ()
  | s :: ss => do
    let g ← Work.look fun d => d.gen k
    let row := (tableEnt j.table x).slot * q.cap + s
    let w ← Work.intact (Work.readNat e (q.rec_ + q.originOfs + 8 * row) 8)
    let (bs, bad) ← Work.poisonOf (Work.readBytes e (q.ans + row * j.ansRow) j.ansRow)
    if bad then Work.markPoisoned e
    let rank := natFld w 47 32
    let tag := natFld w 31 12 * 16 + w % 16
    let ofs := (natFld w 31 12 * q.k + w % 16) * j.ansRow
    if rank = g.rank then landAnswer g k ofs tag bs bad true
    else
      let new := (rowFrames q.group k 1 ofs tag bs bad).map fun f =>
        ({ dest := g.members.getD rank 0, play := 1, frame := f } : RowWait)
      Work.change fun d => d.setGen k { d.gen k with wait := (d.gen k).wait ++ new }
    sendAnswers e k q j x ss

/-- Are all entries of the instance at local slot `l` finished. -/
def instanceDone (d : Dp) (uid l : Nat) : Bool :=
  d.lists.all fun x => x.uid ≠ uid || (List.range x.entries.length).all fun i =>
    match x.entries[i]? with
    | some en => en.batch ≠ l || x.done.contains i || x.gone.contains i
    | none => true

/-- Has the RUN of a cancelled generation no entry in progress any more (R306). -/
def noneTaken (d : Dp) (uid : Nat) : Bool := d.tillers.all fun x => x.2.ctxs.all fun c => c.uid ≠ uid

/-- Fields of the table a RUN writes as it completes (R302). -/
def runFields (d : Dp) (space xt : Nat) (j : RunJob) : Dp :=
  (d.toRun j).foldl (fun (d : Dp) x =>
    let t := tableEnt j.table x
    let ps := d.pagesAt space t.wBase t.wLen
    let uses := (d.peekTable space xt x 48 8 + 1) % 2 ^ 64
    let d := d.pokeTable space xt x 29 (toLe 1 (rangeTier ps) ++ toLe 1 (rangeRes ps))
    d.pokeTable space xt x 40 (toLe 8 d.fll.step ++ toLe 8 uses)) d

/-- The answers of a finished instance leave. -/
def answerOne (n : Nat) (o : Outst) (k : Nat) (q : RouteP) (d : Dp) (l : Nat) : Dp :=
  match (d.gen k).job o.uid with
  | none => d
  | some j =>
    match tableAt j.table d.me l with
    | none => d
    | some x =>
      if !j.listed.contains l || j.answered.contains l || !d.instanceDone o.uid l ||
          !(d.findOutst o.uid).any (fun y => y.2.phase = .running) then d
      else
        match run (sendAnswers (d.envOf n o) k q j x (List.range (j.fillOf x))) atsFuel d with
        | (.error t, d) => d.meet n o (d.stokerHalf n) 0 t
        | (.ok (_, wk), _) => (wk.d.modRun k o.uid fun j => { j with answered := j.answered ++ [l] }).pumpRows k

/-- A RUN whose answers have all been written at their sources completes (R302). -/
def runOver (d : Dp) (n : Nat) (o : Outst) (k : Nat) (q : RouteP) : Dp :=
  let g := d.gen k
  match g.job o.uid with
  | none => d
  | some j =>
    if !(d.toRun j).all (fun x => j.answered.contains (tableEnt j.table x).slot) || !d.rowsAcked g k 1 ||
        !(d.findOutst o.uid).any (fun y => y.2.phase = .running) then d
    else
      match run (do
          Work.put (q.rec_ + 32) (toLe 4 j.ansRow) false
          pokeState (d.envOf n o) q 2) atsFuel d with
      | (.error t, d) => d.meet n o (d.stokerHalf n) 0 t
      | (.ok (_, wk), _) =>
        let d := wk.d.runFields g.space q.xt j
        (d.setGen k { d.gen k with fetched := 0 }).endRoute k o.uid
          { status := stOK, result := (d.toRun j).length % 2 ^ 32 + g.fetched % 2 ^ 32 * 2 ^ 32 }

/-- What a RUN of a generation can do now: ready instances are listed, answers of finished ones leave, and it ends when all are
in. A RUN whose generation is retired ends with its last entry in progress (Table 10.8). -/
def progressRun (k : Nat) (d : Dp) (uid : Nat) : Dp :=
  match d.findOutst uid, (d.gen k).job uid with
  | some (n, o), some j =>
    let q := parseRoute o.bytes
    if (d.gen k).st = .draining then
      if d.noneTaken uid then (d.endRoute k uid { status := stCancelled, detail := 3 }).settleGen k else d
    else if o.phase ≠ .running then d
    else
      let d := d.listReady n uid k q j
      let d := ((d.toRun j).map fun x => (tableEnt j.table x).slot).foldl (answerOne n o k q) d
      (d.runOver n o k q).settleGen k
  | _, _ => d

/-- What the RUNs of a generation can do now. -/
def progressRuns (d : Dp) (k : Nat) : Dp := ((d.gen k).runs.map (·.uid)).foldl (progressRun k) d

/-- The return buffer is granted to the owners once ANS_ROW_BYTES is known (R364). -/
def grantReturn (d : Dp) (k ansRow : Nat) : Dp :=
  let g := d.gen k
  if g.granted then d else (d.setGen k { g with granted := true, ansRow }).grantRows k 1 (g.q.t * g.q.k * ansRow)

/-- The start of a RUN, or its work resumed. -/
def startRun (n : Nat) (o : Outst) (d : Dp) : Dp :=
  let q := parseRoute o.bytes
  let k := q.gen
  if ((d.gen k).job o.uid).isSome then progressRun k (d.setPhase o.uid .running) o.uid
  else
    routeJudged n o (fun r d =>
      let g := d.gen k
      let j : RunJob := { uid := o.uid, table := r.table, fill := r.fill, rowB := g.rowB, nl := leAt r.head 36 2, tm := r.tm,
                          ansRow := ansRowOf r.tm, due := g.due }
      let d := d.setGen k { g with runs := g.runs ++ [j], retBase := q.ret, ansCode := some (parseFused r.tm).yConv.code }
      progressRun k ((d.grantReturn k j.ansRow).setPhase o.uid .running) o.uid) d

/-- The half whose Gleaners are asked for a fetch. -/
def fetchHalf (d : Dp) (k l : Nat) : Option Nat :=
  d.mem.jobs.findSome? fun j => match j with
    | .fetch h g s => if g = k && s = l then some h else none
    | .promotion _ _ _ => none

/-- The fetch of local slot `l` is over, or given up. -/
def dropFetch (d : Dp) (k l : Nat) : Dp :=
  let g := d.gen k
  (d.setGen k { g with fetching := g.fetching.filter fun f => f.slot ≠ l }).dropJobs fun j => match j with
    | .fetch _ x s => x = k && s = l
    | .promotion _ _ _ => false

/-- An expert fetch completes (R300, R301): its pages are promoted into the pool of its half and pinned; a pool without room
halts the RUN. It is one that Gleaner serves (R35), it stalls while a peat channel that holds lines of its pages is retrained
(R36, R311), and a page in promotion is waited for (Table 1.10). -/
def fetchDone (d : Dp) (k l : Nat) : Dp :=
  let g := d.gen k
  match d.fetchHalf k l, g.fetching.find? fun f => f.slot = l with
  | some h, some f =>
    let ps := d.pagesAt g.space f.base f.len
    if !d.served (.fetch h k l) || ps.any fun p => p.2.res = 1 && (d.inRetraining p.2.addr p.2.size || d.promoting g.space p.1) then d
    else
      match d.pagesIn h g.space f.start ps with
      | (true, d) =>
        let ps := d.pagesAt g.space f.base f.len
        let d := (d.dropFetch k l).pinRange k ps
        (d.pokeTable g.space f.table f.x 29 (toLe 1 (rangeTier ps) ++ toLe 1 (rangeRes ps))).progressRuns k
      | (false, d) =>
        let ps := d.pagesAt g.space f.base f.len
        let d := (d.dropFetch k l).pokeTable g.space f.table f.x 29 (toLe 1 (rangeTier ps) ++ toLe 1 (rangeRes ps))
        match (g.runs.filterMap fun j => d.findOutst j.uid).find? fun x => x.2.phase = .running with
        | some (n, o) => d.haltWork n o { status := stXlate, detail := 5, dva := f.base, space := g.space }
        | none => d
  | _, _ => d

/-! ### COMBINE (R304) -/

/-- Y of one token and column, with the choices and gates of the record. -/
def combineAt (e : Env) (q : RouteP) (f : Fmt) (ansRow : Nat) (rows : List (Choice × FV)) (t c : Nat) : M FV := do
  let mut y := FV.zero
  for j in List.range q.k do
    let i := t * q.k + j
    match rows[i]? with
    | some (ch, gate) =>
      if ch.status = 1 || ch.status = 2 then
        let v := f.decode (← Work.readNat e (q.ret + i * ansRow + c * f.size) f.size)
        y := y.add32 (gate.mul32 v)
    | none => pure ()
  return y

/-- COMBINE's work: Y stored under its conversion word, and the record COMBINED; answers the tokens without an accepted
choice. -/
def combineWork (e : Env) (g : Gen) (q : RouteP) : M Nat := do
  let f := match g.ansCode with
    | some c => ((fmtOf c).getD (.fp32, false)).1
    | none => q.y.conv.fmt
  let ansRow := combineRow g q (← Work.intact (Work.readBytes e q.rec_ 64))
  let rows ← Work.intact ((List.range (q.t * q.k)).mapM fun i => readChoice e q i)
  for i in List.range q.y.count do
    let c := q.y.coord i
    let (v, bad) ← Work.poisonOf (combineAt e q f ansRow rows (TDesc.at0 c 1) (TDesc.at0 c 0))
    if bad then Work.markPoisoned e
    Work.storeAt e q.y (fun _ => pure v) c bad false (elemOrigin e q.y 0 i)
  Work.flush e
  pokeState e q 4
  let ok (t : Nat) : Bool := rows.any fun c => c.1.t = t && (c.1.status = 1 || c.1.status = 2)
  return ((List.range q.t).filter fun t => !ok t).length

/-- Are all answers of the local tokens there. -/
def answersIn (g : Gen) : Bool :=
  (List.range g.choices.length).all fun i =>
    match g.choices[i]? with
    | some c => (c.status ≠ 1 && c.status ≠ 2) || g.plays ≤ Tab.get (fun _ => 0) g.got i
    | none => true

/-- What a COMBINE of a generation can do now. -/
def progressCombine (k : Nat) (d : Dp) (uid : Nat) : Dp :=
  let g := d.gen k
  match d.findOutst uid with
  | none => d
  | some (n, o) =>
    if o.phase ≠ .running || g.st ≠ .live || !g.sent || !answersIn g then d
    else
      let q := parseRoute o.bytes
      match run (combineWork (d.envOf n o) g q) atsFuel d with
      | (.error t, d) => d.meet n o (d.stokerHalf n) 0 t
      | (.ok (empty, wk), _) =>
        let d := wk.d.setGen k { wk.d.gen k with combined := true }
        (d.endRoute k uid { status := stOK, result := q.t % 2 ^ 32 + empty * 2 ^ 32 }).settleGen k

/-- What the COMBINEs of a generation can do now. -/
def progressCombines (d : Dp) (k : Nat) : Dp := (d.gen k).combs.foldl (progressCombine k) d

/-- The start of a COMBINE, or its work resumed. -/
def startCombine (n : Nat) (o : Outst) (d : Dp) : Dp :=
  let q := parseRoute o.bytes
  let k := q.gen
  if (d.gen k).combs.contains o.uid then progressCombine k (d.setPhase o.uid .running) o.uid
  else
    routeJudged n o (fun r d =>
      let g := d.gen k
      let d := d.setGen k { g with combs := g.combs ++ [o.uid], retBase := q.ret }
      progressCombine k ((d.grantReturn k (combineRow g q r.head)).setPhase o.uid .running) o.uid) d

/-! ### Frames, timeouts and cancellation -/

/-- Is a member of the group unreachable (R362). -/
def memberDown (d : Dp) (g : Gen) : Bool := g.members.any fun m => m ≠ d.me && (d.peer m).down

/-- Are rows of a kind on their way to an unreachable member, or kept from it. -/
def rowsLost (d : Dp) (g : Gen) (k kind : Nat) : Bool := d.memberDown g && !d.rowsAcked g k kind

/-- Does a ROUTE of generation `k` wait on an unreachable member (R362): a DISPATCH for its counts or its rows, a RUN for token
rows or its answers, a COMBINE for answers of an expert it owns. -/
def routeLost (d : Dp) (k uid : Nat) : Bool :=
  let g := d.gen k
  if g.disps.contains uid then d.memberDown g && (!g.sent || d.rowsLost g k 0)
  else if g.combs.contains uid then
    (List.range g.choices.length).any fun i => (g.choices[i]?).any fun c =>
      (c.status = 1 || c.status = 2) && Tab.get (fun _ => 0) g.got i < g.plays && (d.peer (g.ent c.x).owner).down
  else
    match g.job uid with
    | some j => d.memberDown g && (d.rowsLost g k 1 || !(d.toRun j).all (rowsHere g j))
    | none => false

/-- What the ROUTEs of generation `k` can do now; one that waits on an unreachable member completes with TIMEOUT (Table 10.7). -/
def progressGen (d : Dp) (k : Nat) : Dp :=
  let lost (d : Dp) : Dp := ((d.gen k).uids.filter (d.routeLost k)).foldl (fun d uid => d.endRoute k uid { status := stTimeout }) d
  if (d.gen k).st ≠ .live then d.progressRuns k
  else lost (((lost d).endDispatch k |>.progressRuns k).progressCombines k)

/-- What the ROUTEs of every generation can do now. -/
def progressRoutes (d : Dp) : Dp := (d.gens.map (·.1)).foldl progressGen d

/-- What every collective, message, NETWORK UPDATE and ROUTE can do now. -/
def progressPod (d : Dp) : Dp := d.progressAll.progressRoutes

/-- A peer's restart discards what has come from it and is not written (R363). -/
def dropUnwritten (d : Dp) (p : Nat) : Dp :=
  let keep (x : Part) : Bool := x.stored || x.src ≠ p
  { d with lnk := { d.lnk with colls := d.lnk.colls.map (fun c => { c with parts := c.parts.filter keep }),
                               early := d.lnk.early.filter fun f => f.src ≠ p } }

/-- A NAK with AUX2 = 1 (R363). A repeated one is only answered; the first one makes the sender unreachable and ends what waits
on it, before the connections take its epoch. When both ends restart at once with different epochs, the lower endpoint number
keeps its own. -/
def rxResetNak (d : Dp) (f : Culm) : Dp :=
  if !d.lnkOn || f.dst ≠ d.me then d
  else
    let p := f.src
    let x := d.peer p
    let same := f.epoch = (d.conn p 0).epoch
    if x.resetting && d.me < p && !same then d
    else if same && !x.down then d.control p { ty := 1, ember := true, epoch := f.epoch, aux2 := 1 }
    else
      let d := if x.resetting then d else ((d.unreachable p).dropUnwritten p).progressPod
      (d.answerReset p f.epoch).progressPod

/-- The trouble that the write of an arriving row meets: the outstanding ROUTE of its generation meets it; with none, a page
is promoted, and the frame comes again. -/
def rowTrouble (d : Dp) (k : Nat) (t : Trouble) : Dp :=
  match ((d.gen k).uids.filterMap d.findOutst).find? fun x => x.2.phase = .running with
  | some (n, o) => d.meet n o (d.stokerHalf n) 0 t
  | none =>
    match t with
    | .promote space dva l _ => (d.startPromotion 0 space (dva / l.size * l.size) l).2
    | _ => d

/-- What the row of a frame writes for generation `g`: the answer for a token sent, or a token for an expert here (R298). -/
def rowWork (f : Culm) (g : Gen) : M Unit :=
  if f.aux2 = rowAux 1 then landAnswer g f.msg f.ofs f.aux32 f.payload f.poison f.last
  else landRow g f.msg ((g.rankOf f.src).getD 0) f.ofs f.aux32 f.payload f.poison

/-- A frame of a row (R298, R306): a token row at its owner, an answer at its source. One whose write meets trouble is not
accepted. An answer for a retired generation is discarded, and its credit returns. -/
def rxRow (d : Dp) (f : Culm) : Dp :=
  let k := f.msg
  let g := d.gen k
  let answer := f.aux2 = rowAux 1
  if g.st = .draining && answer then
    d.receive 0 f fun d =>
      if !f.last then d
      else
        let g := d.gen k
        ((d.setGen k { g with credits := g.credits - 1, discarded := g.discarded + 1 }).bump (Reg.glnCnt 5)).settleGen k
  else if g.st ≠ .live then d.receive 0 f id
  else
    match run (rowWork f g) atsFuel d with
    | (.error t, d) => d.rowTrouble k t
    | (.ok _, _) =>
      d.receive 0 f fun d =>
        match run (rowWork f (d.gen k)) atsFuel d with
        | (.ok (_, wk), _) => (wk.d.progressRoutes).settleGen k
        | (.error _, d) => d

/-- GLN_A2A_TIMEOUT of silence (Table 10.7): the outstanding ROUTEs of the generation complete with TIMEOUT, and it stays LIVE.
In a group of one there is no member to be silent, but a COMBINE may lack answers (R304). -/
def a2aTimeout (d : Dp) (k : Nat) : Dp :=
  let g := d.gen k
  if g.st ≠ .live then d
  else (if g.members.length = 1 then g.combs else g.uids).foldl (fun d uid => d.endRoute k uid { status := stTimeout }) d

/-- A module retires a LIVE generation (R306): untaken entries of its instances leave the lists, no further row goes out, and
its outstanding ROUTEs complete with CANCELLED, a RUN once its entries in progress are finished. -/
def retireGen (d : Dp) (k : Nat) : Dp :=
  let g := d.gen k
  if g.st ≠ .live then d
  else
    let d := d.setGen k { g with st := .draining, wait := [] }
    let d := (g.disps ++ g.combs).foldl (fun d uid => d.endRoute k uid { status := stCancelled, detail := 3 }) d
    let mine (l : EList) : Bool := g.runs.any fun j => j.uid = l.uid
    let shut (l : EList) : EList := if mine l then { l with next := l.entries.length, returned := [] } else l
    let d : Dp := { d with lists := d.lists.map shut }
    (d.progressRuns k).settleGen k

/-- CANCELLED is set in the record of a generation that retires. -/
def cancelMark (d : Dp) (k : Nat) : M Unit :=
  let g := d.gen k
  if g.st = .live && g.sent then pokeState (rowEnv g.space) g.q 8 else pure ()

/-- A Culm CANCEL frame (R306). One whose record's page is on its way is not accepted; a record that cannot be written is left
as it is (DESIGN CHOICE, log entry 171). -/
def rxCancel (d : Dp) (f : Culm) : Dp :=
  let k := f.msg % 65536
  match run (d.cancelMark k) atsFuel d with
  | (.error (.promote space dva l w), d) => d.rowTrouble k (.promote space dva l w)
  | (.error _, d) => d.receive 1 f fun d => d.retireGen k
  | (.ok _, _) =>
    d.receive 1 f fun d =>
      match run (d.cancelMark k) atsFuel d with
      | (.ok (_, wk), _) => wk.d.retireGen k
      | (.error _, d) => d.retireGen k

/-- Malformed conditions of CANCEL (R309). -/
def cancelBad (bs : List Byte) : List (Bool × Nat) :=
  [((parseHdr bs).slots ≠ 1, 1), (2 ≤ leAt bs 18 1, 18), (!zeroAt bs 19 1, 19),
   (leAt bs 18 1 = 0 && leAt bs 20 2 ≠ 0, 20), (!zeroAt bs 22 42, 22)]

/-- The start of a CANCEL: the generation retires here, and with SCOPE = 1 in its whole group (R306, R307). -/
def startCancel (n : Nat) (o : Outst) (d : Dp) : Dp :=
  let k := leAt o.bytes 16 2
  let go (dest : List Nat) (d : Dp) : Dp :=
    match run (d.cancelMark k) atsFuel d with
    | (.error t, d) => d.meet n o (d.stokerHalf n) 0 t
    | (.ok (_, wk), _) =>
      let d := wk.d
      let g := d.gen k
      let d := if g.st = .live then
          dest.foldl (fun (d : Dp) m => if m = d.me then d
            else d.posts m 1 [{ ty := 6, ember := true, group := leAt o.bytes 20 2, msg := k }]) d
        else d
      (d.retireGen k).finished o.uid { status := stOK, result := if g.st = .live then g.credits else 0 }
  if (leAt o.bytes 18 1).testBit 0 then
    withGroup n o (leAt o.bytes 20 2) 20 (fun grp d => go (grp.members.map (·.endpoint)) d) d
  else go [] d

/-! ### Idle demotion (R303) -/

/-- One enabled table is scanned at a step boundary: idle experts of this module go back to their homes. Only frames that may
be evicted are (R33, R391). -/
def scanTable (d : Dp) (space base count : Nat) : Dp :=
  (List.range count).foldl (fun (d : Dp) x =>
    let at_ (o n : Nat) : Option Nat :=
      match d.translate space (base + 64 * x + o) false with
      | .ok (.dev a) => some (leNat (d.dpaBytes a n))
      | _ => none
    match at_ 0 8, at_ 8 8, at_ 24 2, at_ 28 1, at_ 40 8 with
    | some wb, some wl, some owner, some fl, some last =>
      let ps := d.pagesAt space wb wl
      let frames := d.mem.frames.filter fun f => f.space = space && ps.any fun p => p.1 = f.page && p.2.addr = f.base
      if owner ≠ d.me || !fl.testBit 0 || fl.testBit 1 || frames.isEmpty || !frames.all d.evictable ||
          d.fll.step < last + (d.reg Reg.glnXidle).fld 31 0 then d
      else ((frames.foldl evict d).pokeTable space base x 30 [1]).bump (Reg.glnCnt 2)
    | _, _, _, _, _ => d) d

/-- What a step boundary does for experts (R303, R312); tables are read in the space of the boundary's ring. -/
def expertBoundary (d : Dp) (space : Nat) : Dp :=
  let d : Dp := (List.range 8).foldl (fun d n =>
    { d with regs := d.regs.setForce (Reg.glnXt n) (d.reg (Reg.glnXt n)) }) d
  if !(d.reg Reg.glnCtl).bit 0 then d
  else
    (List.range 8).foldl (fun (d : Dp) n =>
      let w := d.regs.inForce (Reg.glnXt n)
      if w.bit 0 then d.scanTable space (w.fld 51 6 * 64) (w.fld 63 52 + 1) else d) d

end Dp

/-- The start of a ROUTE of any mode. -/
def startRoute (n : Nat) (o : Outst) (d : Dp) : Dp :=
  match (parseRoute o.bytes).mode with
  | 1 => Dp.startRun n o d
  | 2 => Dp.startCombine n o d
  | _ => Dp.startDispatch n o d

/-- The conversion words whose streams a ROUTE captures at its dispatch (R59): none where it is refused there. -/
def Dp.routeStreams (d : Dp) (c : OpCtx) : List Conv :=
  let q := parseRoute c.bytes
  match q.mode, Dp.peek c (fun e => Dp.readRoute e q) d with
  | 1, some r => if (d.routeRefusal c.ring c.bytes r).isSome then [] else [(parseFused r.tm).yConv]
  | 2, some r => if (d.routeRefusal c.ring c.bytes r).isSome then [] else [q.y.conv]
  | 2, none => [q.y.conv]
  | _, _ => []

/-- ROUTE at its dispatch, up to the checks its descriptor shows; `start` is that of its mode. -/
def opRoute (start : Nat → Outst → Dp → Dp) (c : OpCtx) (d : Dp) : Dp :=
  match firstBad (RouteP.bad c.bytes ++ d.sheafBad c.ring c.hdr .never) with
  | some o => d.malformed c o
  | none => Dp.enter c (d.routeStreams c) start d

/-- CANCEL at its dispatch. -/
def opCancel (c : OpCtx) (d : Dp) : Dp :=
  Dp.judged c (Dp.cancelBad c.bytes) .never false false (Dp.enter c [] Dp.startCancel) d

/-- The mode of a ROUTE descriptor; a reserved mode is DISPATCH's to refuse. -/
def routeMode (bs : List Byte) : Nat := let m := leAt bs 16 1 % 4; if m = 3 then 0 else m

end Sys2Proof.Machine
end

