-- ==== Sys2Proof/Machine/Tiers.lean ====
section
/-!
DEFINITION. PROMOTE and DEMOTE (R37–R39) and the end of an on-demand promotion (R31).
-/
namespace Sys2Proof.Machine

/-- Malformed conditions of PROMOTE (`demote` false) and DEMOTE (Table 1.11). -/
def moveBad (demote : Bool) (bs : List Byte) : List (Bool × Nat) :=
  let tier := leAt bs 32 1
  let fl := leAt bs 33 1
  let sel := leAt bs 48 8
  [((parseHdr bs).slots ≠ 1, 1), (if demote then tier ≠ 1 && tier ≠ 2 else 2 ≤ tier, 32),
   (if demote then 4 ≤ fl else 8 ≤ fl || (fl.testBit 1 && tier = 1), 33), (!zeroAt bs 34 6, 34),
   (if demote then 2 ≤ sel else sel ≠ 1, 48), (!zeroAt bs 56 8, 56)]

namespace Dp

/-- Does a frame hold a page that an expert fetch pins until its RUN completes (R311). -/
def pinnedByFetch (d : Dp) (a : Nat) : Bool := (d.frameAt a).any fun f => d.gens.any fun x => x.2.pins.contains f.base

/-- What becomes of one page of a PROMOTE or DEMOTE (Table 1.12). -/
inductive PageMove where
  | halt (detail : Nat)
  | ends (status detail : Nat)
  | wait (for_ : Stall)
  | skip (next : Nat)
  | moved (next : Nat)
  deriving DecidableEq, Repr

/-- Where the page of leaf `l` at DVA `v` goes: the destination the descriptor names, the home of its frame, or none
where the pool gives the place or the page has no home. -/
def moveDest (d : Dp) (demote : Bool) (bs : List Byte) (v : Nat) (l : Leaf) : Option Nat :=
  let fl := leAt bs 33 1
  if demote && fl.testBit 0 then (if d.inPool l.addr then (d.frameAt l.addr).map (·.home) else none)
  else if !demote && fl.testBit 1 then none
  else some (leAt bs 40 8 + (v - leAt bs 16 8))

/-- Moves one page: copies it, rewrites its leaf, records or releases its pool frame (R34, R37). -/
def movePage (d : Dp) (demote : Bool) (bs : List Byte) (space v : Nat) (l : Leaf) (dst : Nat) : Dp :=
  let fl := leAt bs 33 1
  let tier := leAt bs 32 1
  if demote then
    let clean := (d.frameAt l.addr).any fun f => !f.dirty && f.home = dst
    let d := if fl.testBit 1 && clean then d else d.copyLines l.addr dst (l.size / 128)
    let d := d.rewriteLeaf l.entry dst tier (if tier = 2 && leAt bs 48 1 = 1 then 1 else 0)
    { d with mem := { d.mem with frames := d.mem.frames.filter fun f => f.base ≠ l.addr } }
  else
    let d := (d.copyLines l.addr dst (l.size / 128)).rewriteLeaf l.entry dst tier 0
    if fl.testBit 1 then
      let f : Frame := { base := dst, size := l.size, space, page := v, home := l.addr, dirty := !fl.testBit 2, pinned := fl.testBit 0 }
      { d with mem := { d.mem with frames := d.mem.frames ++ [f] } }
    else d

/-- One page of a PROMOTE or DEMOTE judged by Table 1.12 in row order, and moved when the last row applies. `h` is
the half of the ring's first dispatch Stoker. A 1 GiB leaf with RES = peat-resident is moved, by R38's last sentence and
against Table 1.6 (DESIGN CHOICE, log entry 148); a range that ends inside a page is judged where that page's turn comes,
after the pages before it have moved (DESIGN CHOICE, log entry 148). -/
def moveOne (d : Dp) (demote : Bool) (bs : List Byte) (space h v : Nat) : PageMove × Dp :=
  let fl := leAt bs 33 1
  let tier := leAt bs 32 1
  let usePool := !demote && fl.testBit 1
  let toHome := demote && fl.testBit 0
  match d.walk space v with
  | .error n => (.halt (if d.leafAbsent space v then 4 else n), d)
  | .ok l =>
    let page := v / l.size * l.size
    let fault : Option Nat := match d.judge space v false false { l with res := if l.res = 1 then 0 else l.res } with
      | .error (.halt x) => some x.detail
      | _ => none
    if l.res = 2 then (.halt 4, d)
    else if d.promoting space page then (.wait (.promotion space page), d)
    else if demote && d.pinnedByFetch l.addr then (.wait .pinned, d)
    else if !demote && l.tier ≠ 3 && d.inRetraining l.addr l.size then (.wait .retrain, d)
    else
      match fault with
      | some n => (.halt n, d)
      | none =>
        let dst := d.moveDest demote bs v l
        let off := (leAt bs 40 8 + (v - leAt bs 16 8)) % l.size ≠ 0
        if l.tier = 3 then (.ends stXlate 2, d)
        else if v % l.size ≠ 0 || leAt bs 16 8 + leAt bs 24 8 < v + l.size || (!usePool && !toHome && off) then
          (.ends stAlign 0, d)
        else if (if demote then tier ≤ l.tier else l.tier ≤ tier) then (.skip (v + l.size), d)
        else if usePool && l.size = 2 ^ 30 then (.ends stXlate 2, d)
        else if dst.any fun x => meets x l.size l.addr l.size then (.ends stOverlap 0, d)
        else if dst.any fun x => d.meetsLock x l.size then (.ends stXlate 3, d)
        else if dst.any fun x => !insideTier tier x l.size || d.meetsReserved x l.size then (.ends stXlate 1, d)
        else if d.sheafOn space page l.size then (.ends stConflict 0, d)
        else if usePool then
          match d.allocFrame h l.size with
          | (some a, d) => (.moved (v + l.size), d.movePage demote bs space v l a)
          | (none, d) => (.halt 5, d.poolExhausted h v)
        else
          match dst with
          | none => (.ends stXlate 2, d)
          | some a => (.moved (v + l.size), d.movePage demote bs space v l a)

/-- Moves the pages of a range in DVA order from `v` on; `k` counts the pages, `moved` those moved. -/
def moveRange (demote : Bool) (n : Nat) (o : Outst) : Nat → Nat → Nat → Nat → Dp → Dp
  | 0, _, _, moved, d => d.finished o.uid { status := stOK, result := moved }
  | f + 1, v, k, moved, d =>
    let a := leAt o.bytes 16 8
    let h := d.stokerHalf n
    if a + leAt o.bytes 24 8 ≤ v then d.finished o.uid { status := stOK, result := moved }
    else
      let save (d : Dp) : Dp := d.modOutst n o.uid fun o => { o with ofs := k, count := moved, count2 := v - a }
      match d.moveOne demote o.bytes o.space h v with
      | (.skip v', d) => moveRange demote n o f v' (k + 1) moved d
      | (.moved v', d) => moveRange demote n o f v' (k + 1) (moved + 1) d
      | (.wait w, d) => (save d).setPhase o.uid (.stalled w)
      | (.ends s x, d) => d.finished o.uid { status := s, detail := x, result := moved }
      | (.halt x, d) =>
        (save d).haltOutst n o { status := stXlate, detail := x, ofs := k, dva := v % 2 ^ 52, space := o.space }

end Dp

/-- Is Gleaner of a half busy with work that comes before a PROMOTE or DEMOTE that was dispatched as number `uid` (R35): a
promotion or an expert fetch, or an earlier PROMOTE or DEMOTE that waits for one. -/
def Dp.gleanerBusy (d : Dp) (h uid : Nat) : Bool :=
  !(d.jobsOf h).isEmpty || d.rings.any fun (_, r) => r.outst.any fun o => o.uid < uid && o.phase = .stalled (.gleaner h)

/-- The start of a PROMOTE or DEMOTE, from its saved page on (R38): it waits for Gleaner's earlier work (R35). -/
def startMove (demote : Bool) (n : Nat) (o : Outst) (d : Dp) : Dp :=
  let h := d.stokerHalf n
  if d.gleanerBusy h o.uid then d.setPhase o.uid (.stalled (.gleaner h))
  else Dp.moveRange demote n o (leAt o.bytes 24 8 / 4096 + 2) (leAt o.bytes 16 8 + o.count2) o.ofs o.count
    (d.setPhase o.uid .running)

/-- PROMOTE and DEMOTE at their dispatch. -/
def opMove (demote : Bool) (c : OpCtx) (d : Dp) : Dp :=
  match firstBad (moveBad demote c.bytes ++ d.sheafBad c.ring c.hdr .never) with
  | some o => d.malformed c o
  | none => Dp.enter c [] (startMove demote) d

namespace Dp

/-- The copy of an on-demand promotion ends (R31 steps 2 and 3): the page is in its frame, the frame is recorded
clean, and the leaf points at it. A page whose leaf can no longer be found leaves its frame free. -/
def endPromotion (d : Dp) (p : Promotion) : Dp :=
  let d : Dp := { d with mem := { d.mem with promos := d.mem.promos.filter (· ≠ p) } }
  let d := d.dropJobs fun j => match j with
    | .promotion _ space page => space = p.space && page = p.page
    | .fetch _ _ _ => false
  match d.walk p.space p.page with
  | .error _ => d
  | .ok l =>
    let d := (d.copyLines p.home p.frame (p.size / 128)).rewriteLeaf l.entry p.frame 0 0
    let f : Frame := { base := p.frame, size := p.size, space := p.space, page := p.page, home := p.home, dirty := false, pinned := false }
    let d : Dp := { d with mem := { d.mem with frames := d.mem.frames ++ [f] } }
    (d.bump Reg.promoCnt).promoNotice 0 p.space p.page p.size (d.now - p.start) p.home

end Dp
end Sys2Proof.Machine
end

