-- ==== Sys2Proof/Machine/TileRun.lean ====
section
/-!
DEFINITION. Tillers at the common list (R205–R214): taking an entry, and the end of an entry's work with its store,
its partial or its stats record, and the end of an operation whose last entry is finished.
-/
namespace Sys2Proof.Machine
namespace Dp

/-- The position a halted tile operation saves: R127 for a COPY or GATHER with a list, else the one its trouble gives. -/
def tileOffset (d : Dp) (o : Outst) (ofs : Nat) : Nat :=
  if (o.op = 0x14 || o.op = 0x15) && d.hasList o.uid then copyOffset o (d.returnEntries o.uid).lists else ofs

/-- Halts a tile operation. -/
def haltTiles (d : Dp) (n : Nat) (o : Outst) (h : Halt) : Dp := d.haltWork n o { h with ofs := d.tileOffset o h.ofs }

/-- Streams of which no half has an eligible tiller halt with RETIRED, DETAIL 1 (R214). -/
def haltStranded (d : Dp) : Dp :=
  (d.lists.map (·.uid)).eraseDups.foldl (fun d uid =>
    let mine := d.lists.filter fun l => l.uid = uid
    match d.findOutst uid with
    | none => d
    | some (n, o) =>
      if o.phase = .running && !d.allDone uid && mine.all fun l => !d.halfEligible 0 l.need && !d.halfEligible 1 l.need
      then d.haltTiles n o { status := stRetired, detail := 1 }
      else d) d

/-- Trouble of a tile: a halt of the whole operation, or a stall of the tile alone, which is tried again at its next
LIST_ENTRY_DONE. `h` is the half of its tiller. -/
def meetTile (d : Dp) (n : Nat) (o : Outst) (h : Nat) (t : Trouble) : Dp :=
  match t with
  | .halt x => d.haltTiles n o x
  | .ends e => ((d.returnEntries o.uid).resetGroups o.uid).finished o.uid e
  | .promote space dva l write =>
    let page := dva / l.size * l.size
    match d.startPromotion h space page l with
    | (true, d) => d
    | (false, d) => d.haltTiles n o { status := stXlate, detail := 5, dva, space, write }
  | .ats space dva page write =>
    let halt (d : Dp) (detail : Nat) := d.haltTiles n o { status := stXlate, detail, dva, space, write }
    if !(d.reg Reg.atuCtl).bit 2 then halt d 6
    else if d.mem.priStopped then halt d 9
    else (d.pageRequest n space dva page write (.work o.uid)).2

/-- The DVA of a descriptor's tile list, 0 for none. -/
def listDva (o : Outst) : Nat :=
  if o.op = 0x10 then (parseGemm o.bytes).tlist else if o.op = 0x28 then (parseFused o.bytes).tlist else 0

/-- The module's own order of a descriptor's entries. -/
def ownOrderOf (o : Outst) : List Entry :=
  if o.op = 0x10 then (parseGemm o.bytes).ownOrder else (parseFused o.bytes).order

/-- An entry that a tile list gave, read again as it is taken (R212): none when it fails. -/
def recheck (e : Env) (o : Outst) (x : Entry) : M (Option Entry) := do
  let a := listDva o
  if a = 0 || x.kind = .catchUp then return some x
  let row ← Work.intact (Work.readBytes e (a + 64 + 16 * x.row) 16)
  return (ownOrderOf o).find? (parseTileRow row).names

/-- May tiller `t` take entries now: its half is up, it is not retired or granted to maintenance, and its group is on
(R6, R414, R482). -/
def tillerUp (d : Dp) (g : Gates) (t : Nat) : Bool :=
  g.up (t / 96) && !d.domOff.has (t / 12) && !(d.tiller t).retired && !(d.tiller t).granted

/-- An idle tiller takes the next entry of the first operation it is eligible for (R206, R207, R212). -/
def takeEntry (d : Dp) (g : Gates) (t : Nat) : Dp :=
  let d := d.passLists g
  if !d.tillerUp g t then d
  else
    match d.freeCtx t, d.pick t with
    | some k, some (l, i, x) =>
      match d.findOutst l.uid with
      | none => d
      | some (n, o) =>
        match run (recheck (d.envOf n o) o x) atsFuel d with
        | (.error tr, d) => d.meetTile n o (t / 96) tr
        | (.ok (some y, _), d) => d.handOut t k l i { y with kib := x.kib, row := x.row }
        | (.ok (none, _), d) => d.haltTiles n o { status := stIndex, detail := 0 }
    | _, _ => d

/-- Is everything a reduce entry of a GEMM_SP waits for there. -/
def spReady (d : Dp) (uid : Nat) (x : Entry) : Bool :=
  x.kind ≠ .reduce || d.lists.all fun l => l.uid ≠ uid || l.entries.all fun y =>
    y.kind ≠ .segment || y.group ≠ x.group || d.partials.any fun p => p.uid = uid && p.group = y.group && p.part = y.part

/-- The instance whose entries carry local slot `l`, for a RUN. -/
def runInstance (d : Dp) (o : Outst) (l : Nat) : Option FusedP :=
  let q := parseRoute o.bytes
  ((d.gen q.gen).job o.uid).bind fun j => (tableAt j.table d.me l).map fun x => instanceOf (d.gen q.gen).q.cap q j x

/-- The work of one entry of an outstanding descriptor: none when an input it waits for is missing, else whether a
catch-up tile is to be appended. -/
def entryWork (e : Env) (o : Outst) (x : Entry) : M (Option Bool) := do
  let d := (← get).d
  match o.op with
  | 0x10 =>
    let q := parseGemm o.bytes
    if !GemmP.ready d o.uid q.ksplit x then return none
    Work.gemmEntry e q (q.mode.getD .b16) x q.ksplit
    return some false
  | 0x14 =>
    copyEntry e o.bytes x.part
    return some false
  | 0x15 =>
    gatherEntry e (parseIdx o.bytes) o.resolved x.part
    return some false
  | 0x16 =>
    scatterEntry e (parseIdx o.bytes) o.resolved x.part
    return some false
  | 0x18 =>
    let q := parseSp o.bytes
    if !d.spReady o.uid x then return none
    match q.path with
    | some p => Work.spEntry e q p x
    | none => pure ()
    return some false
  | 0x23 =>
    predEntry e (parsePred o.bytes) x.im
    return some false
  | 0x28 =>
    let q := parseFused o.bytes
    if !q.ready d o.uid x then return none
    return some (← Work.fusedEntry e q (predUse o.count2) (o.count2 / 256) x)
  | 0x40 =>
    if routeMode o.bytes = 0 then
      rankEntry e (parseRoute o.bytes) x.part
      return some false
    match d.runInstance o x.batch with
    | none => return none
    | some q =>
      if !q.ready d o.uid x then return none
      return some (← Work.fusedEntry e q .none 0 x)
  | _ => return none

/-- A catch-up tile goes to the end of the list of the half where its discarded tile ran (R206). -/
def appendCatchUp (d : Dp) (n : Nat) (c : Ctx) (h : Nat) : Dp :=
  let x : Entry := { c.entry with kind := .catchUp }
  if d.lists.any fun l => l.uid = c.uid && l.half = h then
    { d with lists := d.lists.map fun l => if l.uid = c.uid && l.half = h then { l with entries := l.entries ++ [x] } else l }
  else d.addLists n c.uid 8 [(h, [x])]

/-- The end of an operation whose entries are all finished. -/
def endTiles (d : Dp) (n : Nat) (o : Outst) : Dp :=
  match o.op with
  | 0x10 => d.finished o.uid { status := stOK, result := (parseGemm o.bytes).result }
  | 0x14 => d.finished o.uid { status := stOK, result := positions (parseT o.bytes 192) }
  | 0x15 => d.finished o.uid { status := stOK, result := o.count }
  | 0x16 => d.finished o.uid { status := stOK, result := o.count }
  | 0x18 => endSp n o d
  | 0x23 => endPredict n o d
  | 0x28 => endFused n o d
  | 0x40 => if routeMode o.bytes = 0 then d.endRank n o else progressRun (parseRoute o.bytes).gen d o.uid
  | _ => d

/-- Goes on to the end of an operation when its last entry is finished; a RUN goes on after each entry, also while its
generation drains (R302, R306). -/
def afterEntry (d : Dp) (uid : Nat) : Dp :=
  match d.findOutst uid with
  | some (n, o) =>
    if (o.op = 0x40 && routeMode o.bytes = 1) || (o.phase = .running && d.allDone uid) then d.endTiles n o else d
  | none => d

/-- The stats records of groups whose entries are all finished are discarded: their rows are stored (R230). -/
def dropStats (d : Dp) (uid : Nat) : Dp :=
  let gone (r : StatsRec) : Bool := d.lists.all fun l => l.uid ≠ uid ||
    (List.range l.entries.length).all fun i =>
      match l.entries[i]? with
      | some x => x.batch ≠ r.batch || x.im ≠ r.rowTile || l.done.contains i || l.gone.contains i
      | none => true
  { d with stats := d.stats.filter fun r => r.uid ≠ uid || !gone r }

/-- The sheaf of a descriptor is open, or it names none. -/
def sheafStillOpen (d : Dp) (o : Outst) : Bool :=
  match o.sheaf with
  | some id => (d.sheaf id).state = .opened
  | none => true

/-- A descriptor whose sheaf is no longer open ends with SHEAF_ABORTED and writes no more (R280). -/
def endAborted (d : Dp) (o : Outst) : Dp :=
  ((d.returnEntries o.uid).resetGroups o.uid).finished o.uid { status := stSheafAborted }

/-- The environment of an entry's work on tiller `t`. -/
def tileEnv (d : Dp) (n : Nat) (o : Outst) (t : Nat) (c : Ctx) : Env := { d.envOf n o with tiller := t, half := c.half }

/-- What the work of the entry in context `c` of tiller `t` leaves. -/
def entryEnded (n : Nat) (o : Outst) (t : Nat) (c : Ctx) (r : Except Trouble (Option Bool × Wk) × Dp) : Dp :=
  match r with
  | (.error tr, d) => d.meetTile n o (t / 96) tr
  | (.ok (none, _), d) => d
  | (.ok (some more, wk), _) =>
    let d := wk.d.entryDone t c
    let d := if more then d.appendCatchUp n c (t / 96) else d
    (d.dropStats c.uid).afterEntry c.uid

/-- The entry in context `k` of tiller `t` is worked off (R205). -/
def finishEntry (d : Dp) (g : Gates) (t k : Nat) : Dp :=
  match (d.tiller t).ctxs.find? fun c => c.num = k with
  | none => d
  | some c =>
    match d.findOutst c.uid with
    | none => d
    | some (n, o) =>
      if o.phase ≠ .running || !g.up (t / 96) then d
      else if !d.sheafStillOpen o then d.endAborted o
      else entryEnded n o t c (run (entryWork (d.tileEnv n o t c) o c.entry) atsFuel d)

end Dp
end Sys2Proof.Machine
end

