-- ==== Sys2Proof/Machine/Snapshot.lean ====
section
/-!
DEFINITION. SNAPSHOT and RESTORE (R385–R398): the stop, the image, its locks and drains, and the way back.
-/
namespace Sys2Proof.Machine

/-! ### Region lists (R386) -/

/-- A region list entry, or bytes 0–31 of a directory entry (Table 13.4). -/
structure SnapRegion where
  dva : Nat
  len : Nat
  bytes : List Byte
  deriving DecidableEq, Repr

/-- Reads an entry. -/
def parseRegion (bs : List Byte) : SnapRegion := { dva := leAt bs 0 8, len := leAt bs 8 8, bytes := slice bs 0 32 }

/-- The logical coordinates: SHARD_ID, ROLE, SUB and E0. -/
def SnapRegion.coords (r : SnapRegion) : Nat × Nat × Nat × Nat :=
  (leAt r.bytes 16 4, leAt r.bytes 20 1, leAt r.bytes 22 1, leAt r.bytes 24 8)

/-- Does an entry hold a reserved encoding. -/
def SnapRegion.bad (r : SnapRegion) : Bool :=
  let f := leAt r.bytes 21 1
  9 < leAt r.bytes 20 1 || 32 ≤ f || (if f.testBit 4 then f % 16 ≠ 0 else (fmtOf (f % 16)).isNone) ||
  leAt r.bytes 23 1 ≠ 0 || r.len = 0

/-- A list with a malformed entry or two entries of the same coordinates. -/
def regionsBad (l : List SnapRegion) : Bool :=
  l.any (·.bad) || (l.map (·.coords)).eraseDups.length ≠ l.length

/-- A region off its alignment. -/
def SnapRegion.misaligned (r : SnapRegion) : Bool := r.dva % 128 ≠ 0 || r.len % 128 ≠ 0

/-- Offset of the state block of an image with `count` regions (Table 13.1). -/
def stateOfs (count : Nat) : Nat := roundUp (0x1000 + 64 * count) 65536

/-- Offsets of the regions' data and the size of the image. -/
def dataOfs (l : List SnapRegion) : List Nat × Nat :=
  l.foldl (fun (a : List Nat × Nat) r => (a.1 ++ [a.2], a.2 + roundUp r.len 4096)) ([], stateOfs l.length + 0x20000)

/-! ### The descriptors (Tables 13.6 and 13.7) -/

/-- Malformed conditions of the drain slot: what DRAIN does not use is 0. -/
def drainSlotBad (kind : Nat) (bs : List Byte) : List (Bool × Nat) :=
  [((kind = 0 || kind = 1) && !zeroAt bs 64 8, 64), (kind ≠ 1 && !zeroAt bs 72 8, 72), (!zeroAt bs 80 48, 80)]

/-- Malformed conditions of SNAPSHOT that the descriptor shows. -/
def snapBad (bs : List Byte) : List (Bool × Nat) :=
  let op := leAt bs 16 1 % 4
  let kind := leAt bs 16 1 / 4 % 4
  let common : List (Bool × Nat) :=
    [((parseHdr bs).slots ≠ (if op = 2 then 1 else 2), 1), (16 ≤ leAt bs 16 1 || op = 3, 16), (!zeroAt bs 17 3, 17), (!zeroAt bs 60 4, 60)]
  common ++ (match op with
  | 0 => ([(65536 < leAt bs 20 4, 20), (leAt bs 20 4 = 0 && leAt bs 40 8 ≠ 0, 40), (leAt bs 56 4 = 0, 56)] : List (Bool × Nat)) ++
      drainSlotBad kind bs
  | 1 => ([(!zeroAt bs 20 4, 20), (!zeroAt bs 24 8, 24), (!zeroAt bs 40 8, 40), (!zeroAt bs 48 8, 48), (!zeroAt bs 56 4, 56)] : List (Bool × Nat)) ++
      drainSlotBad kind bs
  | _ => [(kind ≠ 0, 16), (!zeroAt bs 20 4, 20), (!zeroAt bs 24 8, 24), (!zeroAt bs 40 8, 40), (!zeroAt bs 48 8, 48), (!zeroAt bs 56 4, 56)])

/-- Malformed conditions of RESTORE that the descriptor shows. -/
def restoreBad (bs : List Byte) : List (Bool × Nat) :=
  [((parseHdr bs).slots ≠ 2, 1), (64 ≤ leAt bs 16 1, 16), (!zeroAt bs 17 3, 17), (65536 < leAt bs 20 4, 20),
   (leAt bs 20 4 = 0 && leAt bs 32 8 ≠ 0, 32), ((leAt bs 16 1).testBit 5 && leAt bs 40 8 = 0, 40), (leAt bs 48 4 = 0, 48),
   (!zeroAt bs 52 12, 52), (!zeroAt bs 64 64, 64)]

/-- Is a base or DST of a SNAPSHOT off its alignment. -/
def snapMisaligned (bs : List Byte) : Bool :=
  leAt bs 32 8 % 2097152 ≠ 0 || leAt bs 40 8 % 64 ≠ 0 || leAt bs 48 8 % 64 ≠ 0 ||
  ((leAt bs 16 1 % 4 ≠ 2) && (leAt bs 64 8 % 64 ≠ 0))

/-- Is a base of a RESTORE off its alignment. -/
def restoreMisaligned (bs : List Byte) : Bool :=
  leAt bs 24 8 % 2097152 ≠ 0 || leAt bs 32 8 % 64 ≠ 0 || leAt bs 40 8 % 64 ≠ 0

/-- Spans of a SNAPSHOT: its list and its cursor table. -/
def snapSpans (bs : List Byte) : List Span :=
  if leAt bs 16 1 % 4 ≠ 0 then []
  else arraySpan (leAt bs 40 8) (32 * leAt bs 20 4) false ::
    (if leAt bs 48 8 = 0 then [] else [arraySpan (leAt bs 48 8) 32768 false])

/-- Spans of a RESTORE: its list and the cursor table it writes. -/
def restoreSpans (bs : List Byte) : List Span :=
  arraySpan (leAt bs 32 8) (32 * leAt bs 20 4) false ::
    (if (leAt bs 16 1).testBit 5 then [arraySpan (leAt bs 40 8) 32768 true] else [])

/-- Reads the entries of a region list. -/
def readRegions (e : Env) (a count : Nat) : M (List (List Byte)) :=
  (List.range count).mapM fun k => Work.readBytes e (a + 32 * k) 32

namespace Dp

/-! ### Where regions lie -/

/-- The device address of a region's byte: a present or peat-resident page, read or written where it lies (R386, R388). -/
def regionAt (d : Dp) (space dva : Nat) (write : Bool) : Except Nat Nat :=
  match d.walk space dva with
  | .error n => .error n
  | .ok l =>
    match d.judge space dva write false { l with res := if l.res = 1 then 0 else l.res } with
    | .ok (.dev a) => .ok a
    | .ok (.host _) => .error 2
    | .error (.halt h) => .error h.detail
    | .error _ => .error 2

/-- Does a region reach a device range. -/
def regionMeets (d : Dp) (space : Nat) (r : SnapRegion) (a n : Nat) : Bool :=
  (List.range (r.len / 128)).any fun k =>
    match d.regionAt space (r.dva + 128 * k) false with
    | .ok x => meets x 128 a n
    | .error _ => false

/-- Writes bytes into an image, whole lines of it: what it writes is not poisoned. -/
def setImage (d : Dp) (a : Nat) (bs : List Byte) : Dp :=
  (List.range (bs.length / 128)).foldl (fun d k => d.cleanLine (a + 128 * k)) (d.setDpas a bs)

/-- The STATE byte of an image header (Table 13.2). -/
def imageState (d : Dp) (base : Nat) : Nat := (d.dpaByte (base + 72)).toNat

/-- Sets the STATE byte of an image header. -/
def setImageState (d : Dp) (base s : Nat) : Dp := d.setDpa (base + 72) (BitVec.ofNat 8 s)

/-- Does a SNAPSHOT or RESTORE hold dispatch. -/
def holds (d : Dp) : Bool := d.snaps.any (·.held)

/-- The wait of R388 step 3: nothing outstanding but `uid`, and no sheaf committing or committed. -/
def quiesced (d : Dp) (uid : Nat) : Bool :=
  (d.rings.all fun (_, r) => r.outst.all fun o => o.uid = uid) &&
  !(d.journal.sheaves.any fun (_, s) => s.state = .committing || s.state = .committed)

/-- The snapshot of a dispatch. -/
def snap (d : Dp) (uid : Nat) : Option Snap := d.snaps.find? fun s => s.uid = uid

/-- Changes a snapshot in progress. -/
def modSnap (d : Dp) (uid : Nat) (f : Snap → Snap) : Dp :=
  { d with snaps := d.snaps.map fun s => if s.uid = uid then f s else s }

/-- A snapshot in progress ends: its hold is released. -/
def dropSnap (d : Dp) (uid : Nat) : Dp := { d with snaps := d.snaps.filter fun s => s.uid ≠ uid }

/-- Is `[a, a + n)` no place for an image: outside the peat tier or in a range of Table 1.3. -/
def imageOutside (d : Dp) (a n : Nat) : Bool := !insideTier 2 a n || d.meetsReserved a n

/-- A step boundary has made FLL_STEP the target of a TAKE: dispatch is held (R388 step 2); a second TAKE with the
same target ends with CONFLICT. -/
def snapBoundary (d : Dp) : Dp :=
  (d.snaps.map (·.uid)).foldl (fun (d : Dp) uid =>
    match d.snap uid with
    | some s =>
      if s.restore || s.held || s.target ≠ d.fll.step then d
      else if d.holds then (d.dropSnap uid).finished uid { status := stConflict }
      else d.modSnap uid fun s => { s with held := true, heldAt := d.now, heldFrom := d.elapsed }
    | none => d) d

end Dp

/-! ### TAKE -/

/-- The start of a TAKE: its list, and the checks of Table 13.8 in row order; a list that cannot be read shows no further row. -/
def startTake (n : Nat) (o : Outst) (d : Dp) : Dp :=
  let bs := o.bytes
  let img := leAt bs 32 8
  let list := leAt bs 40 8
  let count := leAt bs 20 4
  let step := leAt bs 24 8
  if (d.snap o.uid).isSome then d.setPhase o.uid .running
  else
    match Dp.run (readRegions (d.envOf n o) list count) Dp.atsFuel d with
    | (.error t, d) => if snapMisaligned bs then d.complete n o.uid { status := stAlign } else d.meet n o (d.stokerHalf n) 0 t
    | (.ok (entries, _), d) =>
      let l := entries.map parseRegion
      let total := (dataOfs l).2
      let target := if step = 0 then d.fll.step + 1 else step
      let listRegion : SnapRegion := { dva := list, len := roundUp (32 * count) 128, bytes := [] }
      if regionsBad l then d.rejectAt n o.uid 40
      else if snapMisaligned bs || l.any (·.misaligned) then d.complete n o.uid { status := stAlign }
      else if (l ++ [listRegion]).any fun r => d.regionMeets o.space r img total then d.complete n o.uid { status := stOverlap }
      else if d.guardRefuses n o.spans then d.complete n o.uid { status := stOverlap }
      else if d.holds || target ≤ d.fll.step || 4 ≤ d.locks.length || d.meetsLock img total then
        d.complete n o.uid { status := stConflict }
      else if d.imageOutside img total then d.complete n o.uid { status := stXlate, detail := 1 }
      else { d with snaps := d.snaps ++ [{ uid := o.uid, restore := false, target, list := some entries }] }

/-- SNAPSHOT with OP = TAKE at its dispatch. -/
def opTake (c : OpCtx) (d : Dp) : Dp :=
  match firstBad (snapBad c.bytes ++ d.sheafBad c.ring c.hdr .never) with
  | some o => d.malformed c o
  | none => Dp.enter c [] startTake d

namespace Dp

/-- The first 4 KiB of the state block with the loss scale (Table 13.3). -/
def scaleBytes (d : Dp) : List Byte :=
  let c := d.regs.inForce Reg.lsCfg
  slice (toLe 1 (unsigned 8 d.phx.x) ++ toLe 1 0 ++ toLe 2 d.phx.clean ++ toLe 2 d.phx.skips ++ toLe 2 0 ++ toLe 2 (c.fld 31 16) ++
    toLe 1 (c.fld 0 0)) 0 0x1000

/-- The 64 KiB of random streams. -/
def streamBytes (d : Dp) : List Byte :=
  ((List.range 4096).map fun s =>
    let (k, c) := Tab.get (fun _ => (0, 0)) d.phx.streams s
    toLe 8 k ++ toLe 8 c).flatten

/-- The 4 KiB with the pipeline stage state. -/
def pipeBytes (d : Dp) : List Byte :=
  let c := d.regs.inForce Reg.fllPipeCtl
  let counts := ((List.range 4).map fun k => toLe 4 (if k < c.fld 10 8 then pipeCount d.fll.counts (d.fll.cursor + k) else 0)).flatten
  slice (toLe 2 d.fll.cursor ++ toLe 2 0 ++ counts ++ toLe 1 (c.fld 10 8) ++ toLe 3 0 ++ toLe 2 (c.fld 31 16) ++ toLe 1 (c.fld 0 0)) 0 0x1000

/-- Bytes 0–55 of an image header. -/
def imageHead (d : Dp) (s : Snap) (count total : Nat) : List Byte :=
  toLe 4 0x54414550 ++ toLe 2 1 ++ toLe 2 d.me ++ toLe 1 0x21 ++ toLe 3 0 ++ toLe 4 count ++ toLe 8 d.fll.step ++
  toLe 8 d.fll.applied ++ toLe 8 s.heldAt ++ toLe 8 total ++ toLe 8 (stateOfs count)

/-- Lines of 128 bytes read by DVA with their poison, for the inclusion records and the cursors. -/
def readLines (e : Env) (a n : Nat) : M (List (List Byte × Bool)) :=
  (List.range n).mapM fun k => Work.poisonOf (Work.readBytes e (a + 128 * k) 128)

/-- Puts lines with their poison into an image. -/
def putLines (d : Dp) (a : Nat) (l : List (List Byte × Bool)) : Dp :=
  (List.range l.length).foldl (fun (d : Dp) k =>
    let (bs, bad) := l.getD k ([], false)
    let d := d.setDpas (a + 128 * k) (slice bs 0 128)
    if bad then d.poisonLine (a + 128 * k) else d.cleanLine (a + 128 * k)) d

/-- Copies a region into an image, line by line with its poison: none, or the DVA and DETAIL of the first failure. -/
def copyRegion (space : Nat) (r : SnapRegion) (dest : Nat) (d : Dp) : Option (Nat × Nat) × Bool × Dp :=
  (List.range (r.len / 128)).foldl (fun (x : Option (Nat × Nat) × Bool × Dp) k =>
    match x with
    | (some f, bad, d) => (some f, bad, d)
    | (none, bad, d) =>
      match d.regionAt space (r.dva + 128 * k) false with
      | .ok a => (none, bad || d.isPoisoned a, d.copyLine a (dest + 128 * k))
      | .error n => (some (r.dva + 128 * k, n), bad, d)) (none, false, d)

/-- The directory of an image whose regions have been copied (Table 13.4). -/
def dirBytes (d : Dp) (img : Nat) (l : List SnapRegion) (ofs : List Nat) : List Byte :=
  let entries := (List.range l.length).map fun k =>
    match l[k]?, ofs[k]? with
    | some r, some o => r.bytes ++ toLe 8 o ++ toLe 8 (crc64 0 (d.dpaBytes (img + o) r.len)) ++ toLe 16 0
    | _, _ => []
  slice entries.flatten 0 (stateOfs l.length - 0x1000)

/-- Step 4 of R388: the regions, the directory and the state block are copied into the image, which is locked. Images locked
since its dispatch can leave it no room (R390). -/
def takeCopy (d : Dp) (n : Nat) (o : Outst) (s : Snap) : Dp :=
  let bs := o.bytes
  let img := leAt bs 32 8
  let e := d.envOf n o
  let incl := d.reg Reg.lnkInclBase
  let l := (s.list.getD []).map parseRegion
  let (ofs, total) := dataOfs l
  let mine := d.locks.any fun x => x.base = img
  let work : M (List (List Byte × Bool) × List (List Byte × Bool)) := do
    let i ← if incl.bit 0 then readLines e (incl.fld 51 13 * 8192) 64 else pure (List.replicate 64 ([], false))
    let c ← if leAt bs 48 8 = 0 then pure (List.replicate 256 ([], false)) else readLines e (leAt bs 48 8) 256
    return (i, c)
  if !mine && (4 ≤ d.locks.length || d.meetsLock img total) then (d.dropSnap o.uid).finished o.uid { status := stConflict } else
  match run work atsFuel d with
  | (.error t, d) => d.meet n o (d.stokerHalf n) 0 t
  | (.ok ((inc, cur), _), d) =>
    let st := img + stateOfs l.length
    let d : Dp := if mine then d else { d with locks := d.locks ++ [{ base := img, total }] }
    let d := d.setImageState img 0
    let (f, bad, d) := (List.range l.length).foldl (fun (x : Option (Nat × Nat) × Bool × Dp) k =>
      match x, l[k]?, ofs[k]? with
      | (none, bad, d), some r, some at_ =>
        let (f, b, d) := copyRegion o.space r (img + at_) d
        (f, bad || b, d.setImage (img + at_ + r.len) (List.replicate (roundUp r.len 4096 - r.len) 0))
      | x, _, _ => x) (none, false, d)
    match f with
    | some (dva, n') => d.haltOutst n o { status := stXlate, detail := n', dva, space := o.space }
    | none =>
      let d := ((d.setImage st d.scaleBytes).setImage (st + 0x1000) d.streamBytes).putLines (st + 0x11000) inc
      let d := (d.setImage (st + 0x13000) d.pipeBytes).putLines (st + 0x14000) cur
      let d := d.setImage (st + 0x1C000) (List.replicate 0x4000 0)
      let d := d.setImage (img + 0x1000) (d.dirBytes img l ofs)
      let d := d.setImage img (slice (d.imageHead s l.length total) 0 0x1000)
      let d := d.modSnap o.uid fun s => { s with copied := true }
      d.modOutst n o.uid fun o => { o with poisoned := o.poisoned || bad || (inc ++ cur).any fun x => x.2 }

/-- The stop is complete: the Gleaners copy (R388 steps 3 and 4). -/
def snapshotCopy (d : Dp) : Dp :=
  match d.snaps.find? fun s => s.held && !s.restore && !s.copied with
  | none => d
  | some s =>
    match d.findOutst s.uid with
    | some (n, o) => if o.phase = .running && d.quiesced s.uid then d.takeCopy n o s else d
    | none => d

/-- The copy ends (R388 steps 5 and 6): the header is COMPLETE, the hold is released, a drain is asked for. -/
def snapshotCopyDone (d : Dp) : Dp :=
  match d.snaps.find? fun s => s.copied with
  | none => d
  | some s =>
    match d.findOutst s.uid with
    | none => d
    | some (n, o) =>
      let img := leAt o.bytes 32 8
      let count := leAt (d.dpaBytes (img + 12) 4) 0 4
      let total := leAt (d.dpaBytes (img + 40) 8) 0 8
      let stop := d.elapsed - s.heldFrom
      let d := d.setDpas (img + 56) (toLe 8 stop)
      let crc := crc64 0 (d.dpaBytes img 64 ++ d.dpaBytes (img + 0x1000) (64 * count) ++ d.dpaBytes (img + stateOfs count) 0x20000)
      let d := (d.setDpas (img + 64) (toLe 8 crc)).setImageState img 1
      let kind := leAt o.bytes 16 1 / 4 % 4
      let dest : DrainTo := { kind, dst := leAt o.bytes 64 8, group := leAt o.bytes 72 2, peer := leAt o.bytes 74 2,
                              tag := leAt o.bytes 76 4, space := o.space, ring := n }
      let d : Dp := if kind = 0 then d else
        { d with locks := d.locks.map fun l => if l.base = img then { l with drain := some dest, ended := none } else l, asks := d.asks ++ [({ act := 14, res := img, ch := .snapshot, queue := true } : Req)] }
      (d.dropSnap s.uid).finished s.uid
        { status := stOK, result := stop / 1000 % 2 ^ 32 + cdiv total 1048576 % 2 ^ 32 * 2 ^ 32 }

/-- TIMEOUT_MS passes before the hold has begun or the wait has ended (R388): nothing is written. -/
def snapshotTimeout (d : Dp) (n : Nat) : Dp :=
  match d.snaps.find? fun s => (d.findOutst s.uid).any fun x => x.1 = n with
  | some s =>
    if s.copied || (s.held && d.quiesced s.uid) then d
    else (d.dropSnap s.uid).finished s.uid { status := stTimeout }
  | none => d

end Dp

/-! ### DRAIN and UNLOCK (R394) -/

/-- SNAPSHOT with OP = DRAIN at its dispatch: the drain of a locked image starts again from its first byte. -/
def opDrain (c : OpCtx) (d : Dp) : Dp :=
  let bs := c.bytes
  let img := leAt bs 32 8
  match firstBad (snapBad bs ++ d.sheafBad c.ring c.hdr .never) with
  | some o => d.malformed c o
  | none =>
    if snapMisaligned bs then d.refuse c stAlign
    else if !(d.locks.any fun l => l.base = img) then d.refuse c stConflict
    else if !Dp.insideTier 2 img 1 then d.refuse c stXlate 1
    else
      let kind := leAt bs 16 1 / 4 % 4
      let dest : DrainTo := { kind, dst := leAt bs 64 8, group := leAt bs 72 2, peer := leAt bs 74 2, tag := leAt bs 76 4,
                              space := d.spaceOf c.ring, ring := c.ring }
      let d : Dp := if kind = 0 then d else
        { d with locks := d.locks.map fun l => if l.base = img then { l with drain := some dest, ended := none } else l, asks := d.asks ++ [({ act := 14, res := img, ch := .snapshot, queue := true } : Req)] }
      (d.begin c).finished c.uid { status := stOK }

/-- SNAPSHOT with OP = UNLOCK at its dispatch: the lock and any drain of the image end. -/
def opUnlock (c : OpCtx) (d : Dp) : Dp :=
  let img := leAt c.bytes 32 8
  match firstBad (snapBad c.bytes ++ d.sheafBad c.ring c.hdr .never) with
  | some o => d.malformed c o
  | none =>
    if snapMisaligned c.bytes then d.refuse c stAlign
    else if d.imageOutside img 0x1000 then d.refuse c stXlate 1
    else
      let d : Dp := { d with locks := d.locks.filter fun l => l.base ≠ img,
                             lnk := { d.lnk with colls := d.lnk.colls.filter fun x => !(x.op = 0x50 && leAt x.o.bytes 24 8 = img) } }
      (d.begin c).finished c.uid { status := stOK }

namespace Dp

/-- The address in the HDM window at an offset: the peat-tier window first, the tier L window after it (R348). -/
def windowAt (d : Dp) (x : Nat) : Nat :=
  let w := d.reg Reg.memHdm
  let p := w.fld 26 16 * 2 ^ 30
  if x < p then 0x058000000000 - p + x else 0x038000000000 - w.fld 8 0 * 2 ^ 30 + (x - p)

/-- A back-invalidate snoop of a window line, when the host can hold it (R41). -/
def snoopLine (d : Dp) (a : Nat) : Dp :=
  let line := a / 128
  if d.halfOf a = 0 then
    if (Tab.get (fun _ => none) d.mem.snoop0 line).isSome then
      { d with mem := { d.mem with snoop0 := Tab.set (fun _ => none) d.mem.snoop0 line none }, outs := d.outs ++ [.snoop line] }
    else d
  else if (Tab.get (fun _ => none) d.mem.snoop1 line).isSome then
    { d with mem := { d.mem with snoop1 := Tab.set (fun _ => none) d.mem.snoop1 line none }, outs := d.outs ++ [.snoop line] }
  else d

/-- Records how the transfer of a drain has ended. -/
def drainEnded (d : Dp) (img status : Nat) : Dp :=
  { d with locks := d.locks.map fun l => if l.base = img then { l with ended := some status } else l }

/-- Writes an image to host memory through a host-tier DVA: FAULT_XLATE when an address does not translate to the host. -/
def drainHost (d : Dp) (img total : Nat) (t : DrainTo) : Dp :=
  let e : Env := { ring := t.ring, uid := 2 ^ 64, seq := 0, op := 0x50, space := t.space }
  let work : M Unit := do
    for k in List.range total do
      match ← Work.locate e (t.dst + k) true with
      | .host a => Work.change fun d => d.setHost a (d.dpaByte (img + k))
      | .dev _ => Work.trouble (.ends { status := stXlate })
  match run work atsFuel d with
  | (.ok (_, wk), _) => wk.d.drainEnded img stOK
  | (.error _, d) => d.drainEnded img stXlate

/-- The maintenance gate starts the drain of an image (R393). -/
def drainStart (d : Dp) (img : Nat) : Dp :=
  match d.locks.find? fun l => l.base = img with
  | none => d
  | some l =>
    match l.drain with
    | none => d
    | some t =>
      let d := d.setImageState img 2
      let d : Dp := { d with locks := d.locks.map fun l => if l.base = img then { l with draining := true, ended := none } else l }
      match t.kind with
      | 1 =>
        let e : Env := { ring := t.ring, uid := 2 ^ 64, seq := 0, op := 0x50, space := t.space }
        (match run (readGroup e (d.reg Reg.lnkGrpBase) t.group) atsFuel d with
        | (.ok (some g, _), d) =>
          let uid := d.nextUid
          let bytes := toLe 16 0 ++ toLe 2 t.group ++ toLe 2 t.peer ++ toLe 4 t.tag ++ toLe 8 img ++ toLe 8 l.total
          let o : Outst := { uid, seq := 0, op := 0x50, cls := 0, cmode := 0, sheaf := none, bytes, phase := .running,
                             start := d.now, lsExp := 0, streams := [] }
          if g.members.length ≤ t.peer || t.peer = g.rank then d.drainEnded img stTimeout
          else
            let c : Coll := { uid, ring := t.ring, op := 0x50, o, id := t.tag, group := t.group,
                              members := g.members.map (·.endpoint), rank := g.rank, fixed := true }
            let d : Dp := { d with nextUid := uid + 1 }
            (((d.learnPorts t.group g).addColl c).applyEarly).progressPod
        | (_, d) => d.drainEnded img stXlate)
      | 2 => d.drainHost img l.total t
      | _ =>
        let w := d.reg Reg.memHdm
        if (w.fld 26 16 + w.fld 8 0) * 2 ^ 30 < t.dst + l.total then d.drainEnded img stXlate
        else
          ((List.range (cdiv l.total 128)).foldl (fun (d : Dp) k =>
            let dest := d.windowAt (t.dst + 128 * k)
            (d.snoopLine dest).copyLine (img + 128 * k) dest) d).drainEnded img stOK

/-- A drain whose transfer has ended is over: DRAINED and unlocked, or FAILED and still locked (R393, R394). -/
def drainOver (d : Dp) (img status : Nat) : Dp :=
  if status = stOK then
    let d := d.setImageState img 3
    { d with locks := d.locks.filter fun l => l.base ≠ img }
  else
    let d := d.setImageState img 4
    { d with locks := d.locks.map fun l => if l.base = img then { l with draining := false, drain := none, ended := none } else l,
             lnk := { d.lnk with colls := d.lnk.colls.filter fun x => !(x.op = 0x50 && leAt x.o.bytes 24 8 = img) } }

/-! ### RESTORE (R395) -/

/-- The directory of an image: its entries with OFS and CRC. -/
def directory (d : Dp) (img : Nat) : List (SnapRegion × Nat × Nat) :=
  let count := leAt (d.dpaBytes (img + 12) 4) 0 4
  if 65536 < count then []
  else (List.range count).map fun k =>
    let b := d.dpaBytes (img + 0x1000 + 64 * k) 64
    (parseRegion b, leAt b 32 8, leAt b 40 8)

/-- What a RESTORE writes: the region to be written with its offset in the image, or the list index without a match. -/
def restorePlan (dir : List (SnapRegion × Nat × Nat)) (list : Option (List SnapRegion)) : Except Nat (List (SnapRegion × Nat)) :=
  match list with
  | none => .ok (dir.map fun x => (x.1, x.2.1))
  | some l =>
    let find (r : SnapRegion) := dir.find? fun x => x.1.coords = r.coords && x.1.len = r.len
    match (List.range l.length).find? fun k => !((l[k]?).any fun r => (find r).isSome) with
    | some k => .error k
    | none => .ok (l.filterMap fun r => (find r).map fun x => (r, x.2.1))

/-- Reads the list of a RESTORE, where it has one. -/
def restoreList (e : Env) (bs : List Byte) : M (Option (List (List Byte))) := do
  if leAt bs 32 8 = 0 then return none
  return some (← readRegions e (leAt bs 32 8) (leAt bs 20 4))

end Dp

/-- The start of a RESTORE: its list and the checks of Table 13.8; then it holds dispatch. -/
def startRestore (n : Nat) (o : Outst) (d : Dp) : Dp :=
  let bs := o.bytes
  let img := leAt bs 24 8
  if (d.snap o.uid).isSome then d.setPhase o.uid .running
  else
    match Dp.run (Dp.restoreList (d.envOf n o) bs) Dp.atsFuel d with
    | (.error t, d) => if restoreMisaligned bs then d.complete n o.uid { status := stAlign } else d.meet n o (d.stokerHalf n) 0 t
    | (.ok (entries, _), d) =>
      let l := entries.map fun x => x.map parseRegion
      let there := !d.imageOutside img 0x1000
      let total := if there then leAt (d.dpaBytes (img + 40) 8) 0 8 else 0x1000
      let dests : List SnapRegion := l.getD (if there then (d.directory img).map (·.1) else [])
      if regionsBad (l.getD []) then d.rejectAt n o.uid 32
      else if restoreMisaligned bs || (l.getD []).any (·.misaligned) then d.complete n o.uid { status := stAlign }
      else if dests.any fun r => d.regionMeets o.space r img total || d.locks.any fun k => d.regionMeets o.space r k.base k.total then
        d.complete n o.uid { status := stOverlap }
      else if d.guardRefuses n o.spans then d.complete n o.uid { status := stOverlap }
      else if d.holds || (there && d.imageState img = 0) then d.complete n o.uid { status := stConflict }
      else if d.imageOutside img (max total 0x1000) then d.complete n o.uid { status := stXlate, detail := 1 }
      else { d with snaps := d.snaps ++ [({ uid := o.uid, restore := true, target := 0, held := true, heldAt := d.now, heldFrom := d.elapsed, list := entries } : Snap)] }

/-- RESTORE at its dispatch. -/
def opRestore (c : OpCtx) (d : Dp) : Dp :=
  match firstBad (restoreBad c.bytes ++ d.sheafBad c.ring c.hdr .never) with
  | some o => d.malformed c o
  | none => Dp.enter c [] startRestore d

namespace Dp

/-- Is the header of an image good: MAGIC, VERSION, STEPPING and CRC. -/
def imageGood (d : Dp) (img : Nat) : Bool :=
  let h := d.dpaBytes img 128
  let count := leAt h 12 4
  leAt h 0 4 = 0x54414550 && leAt h 4 2 = 1 && leAt h 8 1 = 0x21 && count ≤ 65536 &&
  leAt h 64 8 = crc64 0 (slice h 0 64 ++ d.dpaBytes (img + 0x1000) (64 * count) ++ d.dpaBytes (img + leAt h 48 8) 0x20000)

/-- Writes a region of an image to its DVA, line by line with its poison. -/
def putRegion (space : Nat) (r : SnapRegion) (src : Nat) (d : Dp) : Option (Nat × Nat) × Bool × Dp :=
  (List.range (r.len / 128)).foldl (fun (x : Option (Nat × Nat) × Bool × Dp) k =>
    match x with
    | (some f, bad, d) => (some f, bad, d)
    | (none, bad, d) =>
      match d.regionAt space (r.dva + 128 * k) true with
      | .ok a => (none, bad || d.isPoisoned (src + 128 * k), (d.copyLine (src + 128 * k) a).touchFrame a)
      | .error n => (some (r.dva + 128 * k, n), bad, d)) (none, false, d)

/-- Loads the state sections LOAD selects (R395 step 4); the inclusion records and cursors are `work`'s to write. -/
def loadState (d : Dp) (img load : Nat) : Dp :=
  let h := d.dpaBytes img 64
  let st := img + leAt h 48 8
  let d : Dp := if load.testBit 0 then
      let b := d.dpaBytes st 16
      let w : Word := ((0 : Word).put 31 16 (leAt b 8 2)).put 0 0 (leAt b 10 1)
      { d with phx := { d.phx with x := signed 8 (leAt b 0 1), clean := leAt b 2 2, skips := leAt b 4 2 },
               regs := ((d.regs.stage Reg.lsCfg w).commit Reg.lsCfg w).setForce Reg.lsCfg w }
    else d
  let d : Dp := if load.testBit 1 then
      let streams := (List.range 4096).foldl (fun t s =>
        let b := d.dpaBytes (st + 0x1000 + 16 * s) 16
        Tab.set (fun _ => (0, 0)) t s (leAt b 0 8, leAt b 8 8)) d.phx.streams
      { d with phx := { d.phx with streams } }
    else d
  let d : Dp := if load.testBit 2 then { d with fll := { d.fll with step := leAt h 16 8, applied := leAt h 24 8 } } else d
  if load.testBit 4 then
    let b := d.dpaBytes (st + 0x13000) 32
    let cursor := leAt b 0 2
    let w : Word := (((0 : Word).put 31 16 (leAt b 24 2)).put 10 8 (leAt b 20 1)).put 0 0 (leAt b 26 1)
    let counts := (List.range 4).foldl (fun t k => Tab.set (fun _ => 0) t (cursor + k) (leAt b (4 + 4 * k) 4)) []
    { d with fll := { d.fll with cursor, counts, taken := counts, micro := [] },
             regs := ((d.regs.stage Reg.fllPipeCtl w).commit Reg.fllPipeCtl w).setForce Reg.fllPipeCtl w }
  else d

/-- The end of a RESTORE whose wait is over: the image is verified, and only then written back. -/
def endRestore (d : Dp) (n : Nat) (o : Outst) : Dp :=
  let bs := o.bytes
  let img := leAt bs 24 8
  let load := leAt bs 16 1
  let e := d.envOf n o
  if !d.quiesced o.uid || o.phase ≠ .running || !(d.snap o.uid).any (·.held) then d
  else
    let fails (k : Nat) (d : Dp) : Dp := (d.dropSnap o.uid).complete n o.uid { status := stIndex, result := k * 2 ^ 32 }
    let l := ((d.snap o.uid).bind (·.list)).map fun x => x.map parseRegion
    let dir := d.directory img
    if !d.imageGood img then fails 0 d
    else
        let crcBad (k : Nat) : Bool := !((dir[k]?).any fun x => crc64 0 (d.dpaBytes (img + x.2.1) x.1.len) = x.2.2)
        match (List.range dir.length).find? crcBad, restorePlan dir l with
        | some k, _ => fails k d
        | none, .error k => fails k d
        | none, .ok plan =>
          let one (x : Option (Nat × Nat) × Bool × Dp) (p : SnapRegion × Nat) : Option (Nat × Nat) × Bool × Dp :=
            match x with
            | (none, bad, d) =>
              let (f, b, d) := putRegion o.space p.1 (img + p.2) d
              (f, bad || b, d)
            | x => x
          let (f, bad, d) := plan.foldl one (none, false, d)
          match f with
          | some (dva, n') => d.haltOutst n o { status := stXlate, detail := n', dva, space := o.space, write := true }
          | none =>
            let st := img + leAt (d.dpaBytes (img + 48) 8) 0 8
            let incl := d.reg Reg.lnkInclBase
            let put (dst src k : Nat) : M Unit := do
              for i in List.range k do
                let d := (← get).d
                Work.put (dst + i) [d.dpaByte (src + i)] (d.isPoisoned (src + i))
            let work : M Unit := do
              if load.testBit 3 && incl.bit 0 then put (incl.fld 51 13 * 8192) (st + 0x11000) 8192
              if load.testBit 5 then put (leAt bs 40 8) (st + 0x14000) 32768
              Work.flush e
            match run work atsFuel d with
            | (.error t, d) => d.meet n o (d.stokerHalf n) 0 t
            | (.ok (_, wk), _) =>
              let bad := bad || d.anyPoisoned st 0x20000
              let d := (wk.d.loadState img load).modOutst n o.uid fun o => { o with poisoned := o.poisoned || bad }
              let d : Dp := { d with lnk := { d.lnk with holds := [], foldedOvf := [] } }
              (d.dropSnap o.uid).complete n o.uid { status := stOK, result := plan.length % 2 ^ 32 }

/-- Has a TAKE begun its copy: it has locked its image, which is WRITING (R388 step 4). -/
def copying (d : Dp) (s : Snap) : Bool :=
  s.copied || (s.held && !s.restore && (d.findOutst s.uid).any fun x =>
    let img := leAt x.2.bytes 32 8
    d.imageState img = 0 && d.locks.any fun l => l.base = img)

/-- A reset of a half during a copy (Table 13.8): a TAKE that is copying, or has halted in its copy, ends with CANCELLED, its
image FAILED and unlocked. -/
def snapHalfReset (d : Dp) : Dp :=
  (d.snaps.filter d.copying).foldl (fun (d : Dp) s =>
    match d.findOutst s.uid with
    | none => d
    | some (_, o) =>
      let img := leAt o.bytes 32 8
      let d := d.setImageState img 4
      let d : Dp := { d with locks := d.locks.filter fun l => l.base ≠ img }
      (d.dropSnap s.uid).finished s.uid { status := stCancelled }) d

/-- Which command a SNAPSHOT descriptor belongs to: 0 TAKE (and the reserved OP), 1 DRAIN, 2 UNLOCK. -/
def snapKind (bs : List Byte) : Nat := let op := leAt bs 16 1 % 4; if op = 3 then 0 else op

end Dp
end Sys2Proof.Machine
end

