-- ==== Sys2Proof/Machine/MaintOp.lean ====
section
/-!
DEFINITION. The MAINT descriptor (R485, R486): its judgement, the reading of a firmware segment, and its request to
the maintenance gate.
-/
namespace Sys2Proof.Machine

/-- Resources of an activity that MAINT can name (Table 17.1), by their number. -/
def maintResources (act : Nat) : Nat :=
  match act with
  | 1 => 16
  | 2 => 32
  | 3 => 16
  | 4 => 32
  | 5 => 2
  | 7 => 50
  | 8 => 6
  | 9 => 6
  | 10 => 192
  | 11 => 192
  | 12 => 4
  | 15 => 48
  | _ => 0

/-- May a domain be switched alone in D0 (Table 14.6). -/
def domainAlone (k : Nat) : Bool := k < 24 || (38 ≤ k && k < 42)

/-- Malformed conditions of MAINT (Tables 17.4 and 17.5). -/
def maintBad (bs : List Byte) : List (Bool × Nat) :=
  let act := leAt bs 16 1
  let res := leAt bs 18 2
  let param := leAt bs 20 4
  let fw := act = 8
  [((parseHdr bs).slots ≠ 1, 1), (maintResources act = 0, 16), (4 ≤ leAt bs 17 1, 17),
   (maintResources act ≤ res || (act = 7 && !domainAlone res), 18),
   ((if act = 5 then 4 else if act = 7 then 2 else 1) ≤ param, 20),
   (!fw && leAt bs 24 8 ≠ 0, 24),
   (if fw then leAt bs 32 4 < 257 || 8388864 < leAt bs 32 4 else leAt bs 32 4 ≠ 0, 32), (!zeroAt bs 36 28, 36)]

/-- Spans of MAINT: the segment it reads. -/
def maintSpans (bs : List Byte) : List Span :=
  if leAt bs 16 1 = 8 then [arraySpan (leAt bs 24 8) (leAt bs 32 4) false] else []

/-- What a MAINT reads: its firmware segment. -/
def maintWork (e : Env) (bs : List Byte) : M (List Byte) :=
  if leAt bs 16 1 = 8 then Work.readBytes e (leAt bs 24 8) (leAt bs 32 4) else return []

/-- The start of a MAINT: the segment is read, and the request goes to the gate. -/
def startMaint (n : Nat) (o : Outst) (d : Dp) : Dp :=
  let bs := o.bytes
  match Dp.run (maintWork (d.envOf n o) bs) Dp.atsFuel d with
  | (.error t, d) => d.meet n o (d.stokerHalf n) 0 t
  | (.ok (bytes, wk), _) =>
    let q : Req := { act := leAt bs 16 1, res := leAt bs 18 2, param := leAt bs 20 4,
                     ch := .maint o.uid n ((leAt bs 17 1).testBit 1), queue := (leAt bs 17 1).testBit 0, bytes }
    let d := wk.d.modOutst n o.uid fun o => { o with poisoned := o.poisoned || wk.poison }
    { d with asks := d.asks ++ [q] }

/-- MAINT at its dispatch. -/
def opMaint (c : OpCtx) (d : Dp) : Dp :=
  match firstBad (maintBad c.bytes ++ d.sheafBad c.ring c.hdr .never) with
  | some o => d.malformed c o
  | none =>
    if leAt c.bytes 16 1 = 8 && leAt c.bytes 24 8 % 64 ≠ 0 then d.refuse c stAlign
    else Dp.enter c [] startMaint d

end Sys2Proof.Machine
end

