-- ==== Sys2Proof/Machine/Reads.lean ====
section
/-!
DEFINITION. NOP, FENCE, LOG_READ and MON_READ (R326, R327, R341–R343).
-/
namespace Sys2Proof.Machine

/-! ### NOP -/

/-- NOP at its dispatch (R327). -/
def opNop (c : OpCtx) (d : Dp) : Dp :=
  match firstBad (([(c.hdr.slots ≠ 1, 1), (!zeroAt c.bytes 24 40, 24)] : List (Bool × Nat)) ++ d.sheafBad c.ring c.hdr .never) with
  | some o => d.malformed c o
  | none => d.endNow c { status := stOK, result := leAt c.bytes 16 8 }

/-! ### FENCE -/

/-- The waits of a FENCE body (Table 11.7): index, ring and SEQ of those in use. -/
def fenceWaits (bs : List Byte) : List (Nat × Nat × Nat) :=
  (List.range 5).filterMap fun i =>
    let w := leAt bs (24 + 8 * i) 8
    if w.testBit 63 then some (i, natFld w 37 32, w % 2 ^ 32) else none

/-- Malformed conditions of a FENCE on ring `n`. -/
def fenceBad (n : Nat) (h : Hdr) (bs : List Byte) : List (Bool × Nat) :=
  ([(h.slots ≠ 1, 1), (2 ≤ leAt bs 16 1, 16), (!zeroAt bs 17 3, 17)] : List (Bool × Nat)) ++
  (List.range 5).map fun i =>
    let w := leAt bs (24 + 8 * i) 8
    let late := w.testBit 63 && natFld w 37 32 = n &&
      (let k := (h.seq + 2 ^ 32 - w % 2 ^ 32) % 2 ^ 32
       k = 0 || 2 ^ 31 ≤ k)
    (natFld w 62 38 ≠ 0 || late, 24 + 8 * i)

/-- FENCE at its dispatch: it stays outstanding until its waits are met. -/
def opFence (c : OpCtx) (d : Dp) : Dp :=
  match firstBad (fenceBad c.ring c.hdr c.bytes ++ d.sheafBad c.ring c.hdr .never) with
  | some o => d.malformed c o
  | none => d.begin c

namespace Dp

/-- Is a wait (ring, SEQ) met (R326). -/
def waitDone (d : Dp) (r s : Nat) : Bool := ((d.ring r).doneSeq + 2 ^ 32 - s) % 2 ^ 32 < 2 ^ 31

/-- Has every earlier descriptor of the ring completed, where SELF asks for it. -/
def selfDone (d : Dp) (n : Nat) (o : Outst) : Bool :=
  !(leAt o.bytes 16 1).testBit 0 || (d.ring n).outst.all fun x => o.uid ≤ x.uid

/-- Are all waits of a FENCE met. -/
def fenceReady (d : Dp) (n : Nat) (o : Outst) : Bool :=
  ((fenceWaits o.bytes).all fun w => d.waitDone w.2.1 w.2.2) && d.selfDone n o

/-- The TIMEOUT of the FENCE of ring `n` expires first (R326). -/
def fenceTimeout (d : Dp) (n : Nat) : Dp :=
  match (d.ring n).outst.find? fun o => o.op = 0x01 && o.phase = .running with
  | none => d
  | some o =>
    if leAt o.bytes 20 4 = 0 || d.fenceReady n o then d
    else
      let i := match (fenceWaits o.bytes).find? fun w => !d.waitDone w.2.1 w.2.2 with
        | some w => w.1
        | none => 5
      d.complete n o.uid { status := stTimeout, detail := 1, result := i, halts := true }

/-! ### LOG_READ -/

/-- A sheaf table entry as 64 bytes (Table 9.6). -/
def sheafBytes (s : Sheaf) : List Byte :=
  let st := match s.state with
    | .free => 0
    | .opened => 1
    | .committing => 2
    | .committed => 3
    | .aborted => 4
  toLe 1 st ++ toLe 1 s.ring ++ toLe 1 (s.space % 16 + (if s.excl then 16 else 0)) ++ toLe 1 s.actions.length ++
  toLe 1 s.cause ++ toLe 1 0 ++ toLe 2 s.slot ++ toLe 8 s.shadowH ++ toLe 4 s.sizeH ++ toLe 4 s.sizeL ++ toLe 8 s.shadowL ++
  toLe 4 s.usedH ++ toLe 4 s.usedL ++ toLe 4 s.marked ++ toLe 4 0 ++ toLe 8 s.seq ++ toLe 8 s.crc

/-- An action table entry as 32 bytes (Table 9.8). -/
def actionBytes (a : Action) : List Byte :=
  toLe 8 a.dva ++ toLe 8 a.len ++ toLe 4 a.dseq ++ toLe 1 ((if a.inL then 1 else 0) + (if a.cleared then 2 else 0)) ++
  toLe 3 0 ++ toLe 4 a.dataOfs ++ toLe 4 a.plist

/-- Entries of a source of LOG_READ, and their size (Table 11.15). -/
def logSource (src : Nat) : Nat × Nat :=
  match src with
  | 0 => (4096, 32)
  | 1 => (4096, 64)
  | 2 => (32768, 32)
  | _ => (logSize, 64)

/-- Entry `k` of a LOG_READ from `start`: its bytes (none where zeros are written) and whether its line is poisoned. -/
def logEntry (d : Dp) (src start k : Nat) : Option (List Byte) × Bool :=
  match src with
  | 0 =>
    if d.ash.present ≤ start + k then (none, false)
    else
      let i := (d.ash.head + 4096 - d.ash.present + start + k) % 4096
      match Tab.get (fun _ => none) d.ash.entries i with
      | some e => (some (ashBytes (some e)), false)
      | none => (none, false)
  | 1 => let s := d.sheaf (start + k); (some (sheafBytes s), s.tableBad)
  | 2 =>
    let i := start + k
    match (Tab.get (fun _ => []) d.journal.actions (i / 64))[i % 64]? with
    | some a => (some (actionBytes a), d.journal.actBad.has (i / 4))
    | none => (some (toLe 32 0), d.journal.actBad.has (i / 4))
  | _ =>
    let seq := (start + k) % 2 ^ 64
    match Tab.get (fun _ => none) d.journal.log (seq % logSize) with
    | some r => if r.seq = seq && seq ≠ 0 then (some (recordHead r ++ toLe 8 r.crc), r.poisoned) else (none, false)
    | none => (none, false)

end Dp

/-- Malformed conditions of LOG_READ. -/
def logReadBad (bs : List Byte) : List (Bool × Nat) :=
  let src := leAt bs 16 1
  let count := leAt bs 20 4
  let (n, size) := Dp.logSource src
  [((parseHdr bs).slots ≠ 1, 1), (3 < src, 16), (!zeroAt bs 17 3, 17), (count = 0 || n < count, 20),
   ((src = 1 || src = 2) && n < leAt bs 24 8 + count, 24), (leAt bs 40 8 < count * size, 40), (!zeroAt bs 48 16, 48)]

/-- Spans of a LOG_READ. -/
def logReadSpans (bs : List Byte) : List Span :=
  [arraySpan (leAt bs 32 8) (leAt bs 20 4 * (Dp.logSource (leAt bs 16 1)).2) true]

/-- The copy of a LOG_READ; answers how many entries it has written as zeros. -/
def logReadWork (e : Env) (bs : List Byte) : M Nat := do
  let src := leAt bs 16 1
  let size := (Dp.logSource src).2
  let mut zeroed := 0
  for k in List.range (leAt bs 20 4) do
    match ← Work.look fun d => d.logEntry src (leAt bs 24 8) k with
    | (some b, bad) =>
      if bad then Work.markPoisoned e
      Work.put (leAt bs 32 8 + size * k) b bad
    | (none, _) =>
      zeroed := zeroed + 1
      Work.put (leAt bs 32 8 + size * k) (toLe size 0) false
  Work.flush e
  return zeroed

/-- The start of a LOG_READ: it copies the entries and completes. -/
def startLogRead (n : Nat) (o : Outst) (d : Dp) : Dp :=
  let bs := o.bytes
  match Dp.run (logReadWork (d.envOf n o) bs) Dp.atsFuel d with
  | (.error t, d) => d.meet n o (d.stokerHalf n) 0 t
  | (.ok (z, wk), _) =>
    wk.d.finished o.uid { status := stOK, result := (leAt bs 20 4 - z) % 2 ^ 32 + z % 2 ^ 16 * 2 ^ 32 }

/-- LOG_READ at its dispatch. -/
def opLogRead (c : OpCtx) (d : Dp) : Dp :=
  Dp.judged c (logReadBad c.bytes) .never (leAt c.bytes 32 8 % 64 ≠ 0) false (Dp.enter c [] startLogRead) d

/-! ### MON_READ -/

namespace Dp

/-- The record of a monitor slot (Table 15.8). -/
def monRecord (d : Dp) (s : Nat) : List Byte :=
  let m := d.mon s
  let c := d.reg (Reg.monCfg s)
  let bins := if m.bins.length = 16 then m.bins else List.replicate 16 0
  toLe 8 m.start ++ toLe 8 (if m.running then d.now else m.stop) ++
  toLe 8 (if m.samples = 0 then 0 else unsigned 64 m.min) ++ toLe 8 (if m.samples = 0 then 0 else unsigned 64 m.max) ++
  toLe 8 m.samples ++ toLe 8 (unsigned 64 m.sum) ++ toLe 1 (c.fld 3 0) ++
  toLe 1 ((if m.running then 1 else 0) + (if m.held then 2 else 0) + (if m.sat then 4 else 0)) ++
  toLe 1 (c.fld 15 12) ++ toLe 1 0 ++ toLe 2 (c.fld 31 16) ++ toLe 10 0 ++ (bins.map (toLe 8)).flatten

end Dp

/-- Malformed conditions of MON_READ. -/
def monReadBad (bs : List Byte) : List (Bool × Nat) :=
  let count := leAt bs 17 1
  [((parseHdr bs).slots ≠ 1, 1), (64 ≤ leAt bs 16 1, 16), (count = 0 || 64 < leAt bs 16 1 + count, 17),
   (2 ≤ leAt bs 18 1, 18), (!zeroAt bs 19 13, 19), (leAt bs 40 8 < 192 * count, 40), (!zeroAt bs 48 16, 48)]

/-- Spans of a MON_READ. -/
def monReadSpans (bs : List Byte) : List Span := [arraySpan (leAt bs 32 8) (192 * leAt bs 17 1) true]

/-- The copy of a MON_READ, which restarts the windows where asked (R444). -/
def monReadWork (e : Env) (bs : List Byte) : M Unit := do
  let first := leAt bs 16 1
  let count := leAt bs 17 1
  for k in List.range count do
    let r ← Work.look fun d => d.monRecord (first + k)
    Work.put (leAt bs 32 8 + 192 * k) r false
  Work.flush e
  if (leAt bs 18 1).testBit 0 then
    for k in List.range count do
      Work.change fun d => d.monRestart (first + k)

/-- The start of a MON_READ: it copies the records and completes. -/
def startMonRead (n : Nat) (o : Outst) (d : Dp) : Dp :=
  match Dp.run (monReadWork (d.envOf n o) o.bytes) Dp.atsFuel d with
  | (.error t, d) => d.meet n o (d.stokerHalf n) 0 t
  | (.ok (_, wk), _) => wk.d.finished o.uid { status := stOK, result := leAt o.bytes 17 1 }

/-- MON_READ at its dispatch. -/
def opMonRead (c : OpCtx) (d : Dp) : Dp :=
  Dp.judged c (monReadBad c.bytes) .never (leAt c.bytes 32 8 % 64 ≠ 0) false (Dp.enter c [] startMonRead) d

end Sys2Proof.Machine
end

