-- ==== Sys2Proof/Machine/Restart.lean ====
section
/-!
DEFINITION. How a descriptor goes on: after RESUME or SKIP (R336), after the promotion it stalled on (R31), and after
a page request was answered (R335).
-/
namespace Sys2Proof.Machine
namespace Dp

/-- Drops the lists of an operation that runs again from its start. -/
def dropLists (d : Dp) (uid : Nat) : Dp :=
  { d with lists := d.lists.filter fun l => l.uid ≠ uid, partials := d.partials.filter fun p => p.uid ≠ uid,
           stats := d.stats.filter fun s => s.uid ≠ uid }

/-- A halted COPY or GATHER runs its entries from the saved offset on again (R127). -/
def redoFrom (d : Dp) (o : Outst) : Dp :=
  let again (x : Entry) : Bool :=
    if o.op = 0x15 then
      let q := parseIdx o.bytes
      (tileElems q.t x.part).any fun i => o.ofs ≤ TDesc.at0 (q.t.coord i) q.gdim
    else o.ofs < 4096 * (x.part + 1)
  let redo (l : EList) : EList :=
    if l.uid ≠ o.uid then l
    else
      let r := l.done.filter fun i => (l.entries[i]?).any again
      { l with done := l.done.filter fun i => !r.contains i, returned := l.returned ++ r.reverse }
  { d with lists := d.lists.map redo }

/-- A tile operation goes on: with the entries it has left, from its start where the spec says so (R146, R196, R280),
or to its end when none is left. -/
def restartTiles (d : Dp) (n : Nat) (o : Outst) (halted : Option Halt) (start : Nat → Outst → Dp → Dp) : Dp :=
  let whole := o.op = 0x23 || o.sheaf.isSome ||
    (o.op = 0x18 && (halted.any (fun h => h.status = stIndex) || (match (parseSp o.bytes).d with
      | .sparse _ => true
      | .dense _ => false)))
  let d := if halted.isSome && whole then
      (d.dropLists o.uid).modOutst n o.uid fun o => { o with count := 0, count2 := 0 }
    else d
  let d := if halted.isSome && o.op = 0x28 then d.modOutst n o.uid fun o => { o with tally := [0, 0, 0, 0] } else d
  let d := if halted.isSome && (o.op = 0x14 || o.op = 0x15) then d.redoFrom o else d
  if d.hasList o.uid && d.allDone o.uid then d.endTiles n o
  else
    match d.findOutst o.uid with
    | some (n, o) => start n o d
    | none => d

/-- The start of an UPDATE of any kind. -/
def startUpd (n : Nat) (o : Outst) (d : Dp) : Dp :=
  match updKind o.bytes with
  | 1 => startAccum n o d
  | 2 => startNetwork n o d
  | 3 => startStep n o d
  | _ => startUpdate n o d

/-- Carries a halted or stalled descriptor on from its saved position. -/
def restart (d : Dp) (uid : Nat) : Dp :=
  match d.findOutst uid with
  | none => d
  | some (n, o) =>
    let halted := match o.phase with
      | .halted h => some h
      | _ => none
    match o.phase with
    | .running => d
    | .finished _ => d
    | _ =>
      let d := d.setPhase uid .running
      let o := { o with phase := .running }
      if !d.sheafStillOpen o && o.op ≠ 0x38 && o.op ≠ 0x39 && o.op ≠ 0x3A then d.endAborted o
      else
        match o.op with
        | 0x02 => startLogRead n o d
        | 0x03 => startMonRead n o d
        | 0x08 => startMove false n o d
        | 0x09 => startMove true n o d
        | 0x10 => d.restartTiles n o halted startGemm
        | 0x14 => d.restartTiles n o halted startCopy
        | 0x15 => d.restartTiles n o halted startGather
        | 0x16 => d.restartTiles n o halted startScatter
        | 0x18 => d.restartTiles n o halted startSp
        | 0x19 => startCompress n o d
        | 0x20 => startMask .prune n o d
        | 0x21 => startMask .regrow n o d
        | 0x22 => startMask .remask n o d
        | 0x23 => d.restartTiles n o halted startPredict
        | 0x28 => d.restartTiles n o halted startFused
        | 0x30 => startUpd n o (if halted.isSome then d.dropColl o.uid else d)
        | 0x31 => startNorm n o d
        | 0x40 => startRoute n o d
        | 0x41 => startCancel n o d
        | 0x48 => startReduce n o d
        | 0x49 => startMsg 0x49 n o d
        | 0x4A => startMsg 0x4A n o d
        | 0x4B => startMsg 0x4B n o d
        | 0x4C => startMsg 0x4C n o d
        | 0x50 => if snapKind o.bytes = 0 then startTake n o d else d
        | 0x51 => startRestore n o d
        | 0x58 => startMaint n o d
        | _ => d.wake

/-- Carries descriptors on, in order. -/
def restartAll (d : Dp) (l : List Nat) : Dp := l.foldl restart d

/-- The descriptors stalled on something, by number. -/
def stalledOn (d : Dp) (p : Stall → Bool) : List Nat :=
  (d.rings.map fun (_, r) => (r.outst.filter fun o => match o.phase with
    | .stalled s => p s
    | _ => false).map (·.uid)).flatten

/-- Gleaner of a half goes on to the PROMOTE and DEMOTE descriptors that wait for it, in the order of their arrival (R35). -/
def gleanerNext (d : Dp) (h : Nat) : Dp :=
  if (d.jobsOf h).isEmpty then d.restartAll ((d.stalledOn (· = .gleaner h)).mergeSort (· ≤ ·)) else d

/-- Moves that wait for the pages of a RUN go on once it has completed (Table 10.8). -/
def unpinned (d : Dp) : Dp := d.restartAll (d.stalledOn (· = .pinned))

/-- Is the promotion of a page being served (R35), in whichever half. -/
def promotionServed (d : Dp) (space page : Nat) : Bool :=
  d.served (.promotion 0 space page) || d.served (.promotion 1 space page)

/-- The page copy of an on-demand promotion ends, and the stalled streams resume (R31). It is one that Gleaner serves (R35),
and it stalls while a peat channel that holds lines of the page is retrained (R36). -/
def promotionDone (d : Dp) (space page : Nat) : Dp :=
  match d.mem.promos.find? fun p => p.space = space && p.page = page with
  | none => d
  | some p =>
    if !d.promotionServed space page || d.inRetraining p.home p.size then d
    else
      let d := d.endPromotion p
      let d := d.restartAll (d.stalledOn (· = .promotion space page))
      (d.gleanerNext 0).gleanerNext 1

end Dp
end Sys2Proof.Machine
end

