-- ==== Sys2Proof/Machine/RingCmds.lean ====
section
/-!
DEFINITION. What the driver and the host do to the rings (R319–R321, R335–R337, R345): doorbells, fetched slots,
RING_RESUME, enabling and disabling, completions, page request responses, and the invalidation of translations.
-/
namespace Sys2Proof.Machine
namespace Dp

/-! ### Doorbells (R320) -/

/-- Is submission ring `n` enabled. -/
def ringOn (d : Dp) (n : Nat) : Bool := (d.reg (Reg.ringCfg n)).bit 0

/-- A doorbell write that is ignored: DB_ERR. -/
def doorbellErr (d : Dp) : Dp := d.setStat Reg.ringStat 1

/-- A write of `t` to SQ_TAIL of ring `n`. -/
def sqTail (d : Dp) (n t : Nat) : Dp :=
  if !d.ringOn n || d.sqSize n ≤ t then d.doorbellErr
  else
    let r := d.ring n
    d.setRing n { r with pend := r.pend + (t + d.sqSize n - r.tail) % d.sqSize n, tail := t }

/-- A write of `h` to CQ_HEAD of completion ring `m`. -/
def cqHead (d : Dp) (m h : Nat) : Dp :=
  let c := d.cq m
  let k := (h + d.cqSize m - c.head) % d.cqSize m
  if !(d.reg (Reg.cqCfg m)).bit 0 || d.cqSize m ≤ h || c.used < k then d.doorbellErr
  else (d.setCq m { c with head := h, used := c.used - k }).releaseHeld m

/-- A write of `h` to NQ_HEAD of notice ring `k`. -/
def nqHead (d : Dp) (k h : Nat) : Dp :=
  let q := d.nq k
  let m := (h + d.nqSize k - q.head) % d.nqSize k
  if !(d.reg (Reg.nqCfg k)).bit 0 || d.nqSize k ≤ h || q.used < m then d.doorbellErr
  else d.setNq k { q with head := h, used := q.used - m }

/-! ### Fetch (R321) -/

/-- The slots one fetch of ring `n` asks for: as many as are pending, at most BURST and the room of 32. -/
def fetchSize (d : Dp) (n : Nat) : Nat :=
  let r := d.ring n
  min (min r.pend ((d.reg (Reg.ringCfg n)).fld 54 49)) (32 - r.fetched.length / 64)

/-- The DVA of slot `i` of ring `n`. -/
def slotDva (d : Dp) (n i : Nat) : Nat := (d.reg (Reg.ringBase n)).fld 51 12 * 4096 + 64 * i

/-- One fetched slot arrives: HEAD advances over it. -/
def slotArrives (d : Dp) (n : Nat) (bytes : List Byte) (poison : Bool) : Dp :=
  let r := d.ring n
  (d.setRing n { r with head := (r.head + 1) % d.sqSize n, pend := r.pend - 1, fetched := r.fetched ++ slice bytes 0 64,
                        fpoison := r.fpoison ++ [poison] }).bump Reg.ringFetchCnt

/-- Fetched slots arrive in order while their addresses translate; the first that does not waits for its page
request, or halts the ring before the descriptor that holds it (R315). -/
def fetchSlots (n : Nat) : List (List Byte × Bool) → Dp → Dp
  | [], d => d
  | (bytes, poison) :: rest, d =>
    let space := d.spaceOf n
    let dva := d.slotDva n (d.ring n).head
    match d.ringXlate space dva false with
    | (.found _, d) => fetchSlots n rest (d.slotArrives n bytes poison)
    | (.request page, d) => (d.pageRequest n space dva page false (.fetch n)).2
    | (.fails k, d) =>
      (d.setRing n { d.ring n with fetchFault := some { status := stXlate, detail := k, dva, space } }).fetchHalt n

/-- Is a page request for the slots of ring `n` outstanding. -/
def fetchWaits (d : Dp) (n : Nat) : Bool := d.mem.pageReqs.any fun q => q.for_ = .fetch n

/-- A burst of slots of ring `n` arrives from host memory (R321). -/
def descriptorFetch (d : Dp) (n : Nat) (slots : List (List Byte × Bool)) : Dp :=
  let r := d.ring n
  if !d.ringOn n || (r.state ≠ .running && r.state ≠ .halted) || r.fetchFault.isSome || d.fetchWaits n ||
      d.fetchSize n < slots.length then d
  else fetchSlots n slots d

/-! ### RING_RESUME (R336) -/

/-- The halted descriptors of ring `n`, in SEQ order, which is the order of their dispatch (R318). -/
def haltedOf (d : Dp) (n : Nat) : List (Outst × Halt) :=
  (d.ring n).outst.filterMap fun o => match o.phase with
    | .halted h => some (o, h)
    | _ => none

/-- Do RESUME and SKIP act on ring `n`: halted, or draining with halted descriptors, and its half out of reset. -/
def resumable (d : Dp) (g : Gates) (n : Nat) : Bool :=
  let r := d.ring n
  (r.state = .halted || (r.state = .draining && !(d.haltedOf n).isEmpty)) && !g.inReset (d.stokerHalf n)

/-- The ring leaves HALTED. -/
def unhalt (d : Dp) (n : Nat) : Dp :=
  let r := d.ring n
  d.setRing n { r with state := if r.state = .halted then .running else r.state, haltNext := none, fetchFault := none }

/-- RING_RESUME with ACTION RESUME. -/
def resumeRing (d : Dp) (g : Gates) (n : Nat) : Dp :=
  if !d.resumable g n then d
  else
    let l := (d.haltedOf n).map fun x => x.1.uid
    (d.unhalt n).restartAll l

/-- A ROUTE that is cancelled or skipped leaves its generation, and its pins go; a later ROUTE may start again. -/
def dropRoute (d : Dp) (uid : Nat) : Dp :=
  (d.gens.map (·.1)).foldl (fun (d : Dp) k =>
    if (d.gen k).uids.contains uid then (d.setGen k ((d.gen k).without uid)).unpin k else d) d

/-- Drops what an operation holds beyond its outstanding descriptor: its collective, its generation's claim and its
snapshot. -/
def letGo (d : Dp) (uid : Nat) : Dp :=
  let d := (d.dropColl uid).dropSnap uid
  d.dropRoute uid

/-- RING_RESUME with ACTION SKIP. -/
def skipRing (d : Dp) (g : Gates) (n : Nat) : Dp :=
  if !d.resumable g n then d
  else
    let l := d.haltedOf n
    let d := d.unhalt n
    let d := match l.head? with
      | some (o, h) => (d.letGo o.uid).complete n o.uid { status := h.status, detail := h.detail, ofs := h.ofs, result := 0 }
      | none => d
    (d.restartAll ((l.drop 1).map fun x => x.1.uid)).wake

/-- Records and descriptors that waited for a free page request group try again. -/
def retryGroups (d : Dp) : Dp :=
  let d := (List.range 64).foldl (fun (d : Dp) m => d.releaseHeld m) d
  d.restartAll (d.stalledOn (· = .request 512))

/-! ### RING_RESUME CANCEL (R337, R382) -/

/-- A collective, SEND or RECV whose descriptor is cancelled (R382). -/
def cancelColl (d : Dp) (c : Coll) : Dp :=
  let abort (r : Nat) (st : Nat) (d : Dp) : Dp :=
    d.postRank c r 1 [{ ty := 5, ember := true, group := c.group, msg := c.id, aux := 2, aux2 := st }]
  let quiet (d : Dp) : Dp := d.modColl c.uid fun c => { c with quiet := true }
  let d : Dp := if c.heldOvf then { d with lnk := { d.lnk with foldedOvf := d.lnk.foldedOvf.filter fun g => g ≠ c.group } } else d
  match c.op with
  | 0x48 =>
    if c.kind = 3 || c.kind = 2 || c.fixed then quiet d
    else if c.rank = c.coord then
      quiet (d.modColl c.uid fun c => { c with gone := c.rank :: c.gone, ready := c.ready.filter fun r => r ≠ c.rank })
    else quiet (abort c.coord stCancelled d)
  | 0x4A => (abort (leAt c.o.bytes 18 2) stCancelled d).dropColl c.uid
  | 0x4B => (abort (leAt c.o.bytes 18 2) stCancelled d).dropColl c.uid
  | _ => d.dropColl c.uid

/-- Is an outstanding descriptor past the reach of CANCEL: done already, or a SHEAF_COMMIT whose sheaf is committing
or committed (R337). -/
def uncancelled (d : Dp) (o : Outst) : Bool :=
  match o.phase with
  | .finished _ => true
  | _ =>
    o.op = 0x39 && o.sheaf.any fun id =>
      let s := d.sheaf id
      s.waiter = some o.uid && (s.state = .committing || s.state = .committed)

/-- Takes an operation's entries from the tillers: a cancelled tile ends and does not run again. -/
def stopTiles (d : Dp) (uid : Nat) : Dp :=
  { d with tillers := d.tillers.foldl (fun (t : Tab Tiller) (x : Nat × Tiller) =>
      Tab.set (fun _ => {}) t x.1 { x.2 with ctxs := x.2.ctxs.filter fun c => c.uid ≠ uid }) d.tillers }

/-- One outstanding descriptor is cancelled. -/
def cancelOne (n : Nat) (d : Dp) (o : Outst) : Dp :=
  if d.uncancelled o then d
  else
    let d := d.stopTiles o.uid
    let d := match o.sheaf with
      | some id => if (d.sheaf id).state = SheafSt.opened then d.abortSheaf id 2 else d
      | none => d
    let d := match d.coll o.uid with
      | some c => d.cancelColl c
      | none => d
    let d := (d.dropRoute o.uid).dropSnap o.uid
    let d : Dp := { d with asks := d.asks.filter fun a => !(a.ch = .maint o.uid n true || a.ch = .maint o.uid n false) }
    let d : Dp := { d with mem := { d.mem with pageReqs := d.mem.pageReqs.filter fun q => q.for_ ≠ .work o.uid } }
    d.complete n o.uid { status := stCancelled, detail := 1 }

/-- A descriptor that was never dispatched completes with CANCELLED: it takes its place in ring order, counts in the
pipeline program (R260), aborts the open sheaf it names (Table 9.4), and its record follows CMODE. -/
def cancelSlots (d : Dp) (n detail : Nat) (h : Hdr) : Dp :=
  let r := d.ring n
  let uid := d.nextUid
  let (order, done) := retire (r.order ++ [(uid, h.seq, true)]) r.doneSeq
  let d : Dp := { d.setRing n { r with order, doneSeq := done, expSeq := (h.seq + 1) % 2 ^ 32 } with nextUid := uid + 1 }
  let d := (d.pipeTake n).pipeDone n
  let s := d.sheaf h.sheafId
  let d := if h.sheafEn && h.op ≠ 0x38 && s.state = .opened && s.ring = n then d.abortSheaf h.sheafId 2 else d
  d.putRecord ((d.reg (Reg.ringCfg n)).fld 43 38)
    { ring := n, seq := h.seq, op := h.op, status := stCancelled, detail, result := 0, ofs := 0,
      time := d.now % 2 ^ 48, halted := false, irq := h.cmode ≠ 0 }

/-- Every descriptor that begins in a run of slots completes with CANCELLED, in ring order. -/
def cancelRun (n detail : Nat) : Nat → List Byte → Dp → Dp
  | 0, _, d => d
  | k + 1, bs, d =>
    if bs.length < 64 then d
    else
      let h := parseHdr bs
      cancelRun n detail k (bs.drop (64 * h.slots)) (d.cancelSlots n detail h)

/-- RING_RESUME with ACTION CANCEL; `slots` are the pending slots as the module reads them. -/
def cancelRing (d : Dp) (n : Nat) (slots : List (List Byte)) : Dp :=
  let r := d.ring n
  if r.state = .disabled then d
  else
    let d := r.outst.foldl (cancelOne n) d
    let bytes := (d.ring n).fetched ++ ((slots.take r.pend).map fun b => slice b 0 64).flatten
    let r := d.ring n
    let d := d.setRing n { r with fetched := [], fpoison := [] }
    let d := cancelRun n 1 bytes.length bytes d
    let r := d.ring n
    let state : RingSt :=
      if r.state = .draining then (if r.outst.isEmpty then .disabled else .draining)
      else if r.state = .disabled then .disabled else .running
    let d := d.setRing n { r with head := r.tail, pend := 0, haltNext := none, fetchFault := none, state }
    let d : Dp := { d with mem := { d.mem with pageReqs := d.mem.pageReqs.filter fun q => q.for_ ≠ .fetch n } }
    let d := d.journal.sheaves.foldl (fun (d : Dp) (x : Nat × Sheaf) =>
      let s := d.sheaf x.1
      if s.state = .committed && s.unreadable && s.ring = n then d.releaseUnreadable x.1 else d) d
    d.progressPod.retryGroups.unpinned.wake

/-! ### Enabling and disabling (R345) -/

/-- EN of ring `n` goes from 0 to 1. Descriptors still outstanding from before complete, but DONE_SEQ is that of the new ones
(R324). -/
def ringStarts (d : Dp) (n : Nat) : Dp :=
  let next := (d.reg (Reg.ringSeq n)).fld 31 0
  let r := d.ring n
  if r.state = .draining then
    d.setRing n { r with state := .running, head := 0, tail := 0, pend := 0, fetched := [], fpoison := [], expSeq := next, order := [],
                         doneSeq := (next + 2 ^ 32 - 1) % 2 ^ 32, haltNext := none, fetchFault := none }
  else d.setRing n { state := .running, expSeq := next, doneSeq := (next + 2 ^ 32 - 1) % 2 ^ 32 }

/-- EN of ring `n` goes from 1 to 0. -/
def ringStops (d : Dp) (n : Nat) : Dp :=
  let r := d.ring n
  let d := d.setRing n { r with fetched := [], fpoison := [], pend := 0 }
  let d := cancelRun n 2 r.fetched.length r.fetched d
  let r := d.ring n
  let d : Dp := { d with mem := { d.mem with pageReqs := d.mem.pageReqs.filter fun q => q.for_ ≠ .fetch n } }
  d.setRing n { r with state := if r.outst.isEmpty then .disabled else .draining, haltNext := none, fetchFault := none }

/-! ### Completion (R324) -/

/-- What stands at its DESCRIPTOR_COMPLETE does here: a FENCE whose waits are met, a step boundary, a RECOMPUTE behind
every earlier descriptor of its ring, and a RESTORE that holds dispatch. -/
def lazyEnd (d : Dp) (n : Nat) (o : Outst) : Dp :=
  match o.phase with
  | .running =>
    match o.op with
    | 0x01 => if d.fenceReady n o then d.complete n o.uid { status := stOK } else d
    | 0x30 =>
      if updKind o.bytes = 3 then
        let d := d.settleRepairs
        if d.stepReady n o then ((d.endStep n o).snapBoundary).expertBoundary o.space else d
      else d
    | 0x32 => if d.firstOf n o.uid then d.endRecompute n o else d
    | 0x51 => d.endRestore n o
    | _ => d
  | _ => d

/-- The descriptor of ring `n` with number SEQ completes, once its work is done (R324). -/
def descriptorComplete (d : Dp) (n seq : Nat) : Dp :=
  match (d.ring n).outst.find? fun o => o.seq = seq with
  | none => d
  | some o =>
    let d := d.lazyEnd n o
    let d := match (d.ring n).outst.find? fun x => x.uid = o.uid with
      | some x =>
        match x.phase with
        | .finished e => d.complete n o.uid e
        | _ => d
      | none => d
    d.unpinned.wake

/-! ### MSI-X coalescing (R329) -/

/-- The coalescing interval of vector `v` ends. -/
def coalesceExpiry (d : Dp) (v : Nat) : Dp :=
  let x := d.vec v
  if !x.quiet then d
  else
    let d := d.setVec v { x with quiet := false, asked := false }
    if x.asked then d.sendVec v else d

/-! ### Page request responses (R335, Table 11.11) -/

/-- What waited for a page request ends with a failed translation. -/
def requestFails (d : Dp) (q : PageReq) (detail : Nat) : Dp :=
  let h : Halt := { status := stXlate, detail, dva := q.dva, space := q.space, write := q.write }
  match q.for_ with
  | .work uid =>
    (d.stalledOn (· = .request q.group)).foldl (fun (d : Dp) u =>
      match d.findOutst u with
      | some (n, o) => d.haltWork n o { h with ofs := o.ofs }
      | none => d)
      (match d.findOutst uid with
        | some (n, o) => if o.phase = .running then d.haltTiles n o { h with ofs := o.ofs } else d
        | none => d)
  | .fetch n => (d.setRing n { d.ring n with fetchFault := some h }).fetchHalt n
  | .cq _ =>
    d.notice 2 1 none (toLe 8 q.dva ++ toLe 8 0 ++ toLe 1 0 ++ toLe 1 (128 + 8 * q.space) ++ toLe 1 detail)

/-- The page request of group `g` is answered or given up; `next` acts on it. -/
def answerRequest (d : Dp) (g : Nat) (next : PageReq → Dp → Dp) : Dp :=
  match d.mem.pageReqs.find? fun q => q.group = g with
  | none => d
  | some q =>
    let d : Dp := { d with mem := { d.mem with pageReqs := d.mem.pageReqs.filter fun x => x.group ≠ g } }
    (next q d).retryGroups

/-- Response Success: the ATS request is repeated. -/
def priSuccess (d : Dp) (g : Nat) : Dp :=
  d.answerRequest g fun q d =>
    match d.atsRequest q.space q.page q.write with
    | (true, d) =>
      match q.for_ with
      | .work _ => d.restartAll (d.stalledOn (· = .request g))
      | .fetch _ => d
      | .cq m => (d.setCq m { d.cq m with broken := false }).releaseHeld m
    | (false, d) => d.requestFails q 6

/-- Invalid Request, Response Failure or no response: the stream halts with a DETAIL, and the failure is counted. -/
def priFails (d : Dp) (g detail : Nat) : Dp :=
  d.answerRequest g fun q d => (d.bump (Reg.cxdCnt 3)).requestFails q detail

/-- Response Failure: no further page requests until the host resets PRI. -/
def priResponseFailure (d : Dp) (g : Nat) : Dp :=
  if d.mem.pageReqs.any fun q => q.group = g then
    ({ d with mem := { d.mem with priStopped := true } }).priFails g 9
  else d

/-- The host resets PRI. -/
def priReset (d : Dp) : Dp := { d with mem := { d.mem with priStopped := false } }

/-! ### Invalidation (R22, R25) -/

/-- Completion rings that a failed translation broke try their held records again. -/
def retryBroken (d : Dp) : Dp :=
  (List.range 64).foldl (fun (d : Dp) m =>
    if (d.cq m).broken && !(d.mem.pageReqs.any fun q => q.for_ = .cq m) then
      (d.setCq m { d.cq m with broken := false }).releaseHeld m
    else d) d

/-- A write of ATU_INV: one invalidation runs and 16 wait; a write past those widens the last queued one to all
spaces and sets ATU_STAT bit 1 (R22). -/
def atuInv (d : Dp) (space scope addr : Nat) : Dp :=
  if 2 < scope then d
  else
    let q := d.mem.invQ
    let x : Inv := { space, scope, addr }
    if q.length ≤ 16 then { d with mem := { d.mem with invQ := q ++ [x] } }
    else
      let last : Inv := { space := 0, scope := 2, addr := 0 }
      ({ d with mem := { d.mem with invQ := q.take 16 ++ [last] } }).setStat Reg.atuStat 1

/-- Does an invalidation cover a range of a space: SCOPE 0 names the page at its address. -/
def invCovers (d : Dp) (x : Inv) (space : Nat) (lo hi : Int) : Bool :=
  let size := match d.walk x.space x.addr with
    | .ok l => l.size
    | .error _ => 4096
  let page := x.addr / size * size
  x.scope = 2 || (x.space = space && (x.scope = 1 || (lo < (page + size : Nat) && (page : Int) < hi)))

/-- Are translations that an invalidation covers held by a SCATTER_ADD (R135) or by a sheaf that is not FREE
or ABORTED (R270, Table 9.11). -/
def invHeld (d : Dp) (x : Inv) : Bool :=
  (d.rings.any fun (_, r) => r.outst.any fun o =>
    o.held.any fun p => d.invCovers x o.space (4096 * p.1 : Nat) (4096 * p.1 + 4096 : Nat)) ||
  d.journal.sheaves.any fun (_, s) => s.state.counted && s.actions.any fun a =>
    d.invCovers x s.space a.dva (a.dva + a.len : Nat)

/-- The oldest invalidation completes once nothing uses an old translation. -/
def atuInvComplete (d : Dp) : Dp :=
  match d.mem.invQ with
  | [] => d
  | x :: rest => if d.invHeld x then d else ({ d with mem := { d.mem with invQ := rest } }).retryBroken

/-- An ATS invalidation from the host: entries of a range of host pages leave the cache (R25), at once, or once no
SCATTER_ADD holds one of them (R135). Until then the old translations serve (DESIGN CHOICE, log entry 166). -/
def atsInvalidation (d : Dp) (pasid : Option Nat) (page pages : Nat) : Dp :=
  let x : AtsInv := { pasid, page, pages }
  Dp.atsSettle { d with mem := { d.mem with atsInvs := d.mem.atsInvs ++ [x] } }

/-! ### Small writes -/

/-- A write of 1 to PHX_TRAP_ARM (R66). -/
def trapArm (d : Dp) : Dp := { d with phx := { d.phx with armed := true, nanCnt := 0 } }

/-- A pending change of RED_WAYS takes effect in half `h` once its region is empty (R219). -/
def redWaysApply (d : Dp) (h : Nat) : Dp :=
  let w := (d.reg Reg.grCtl).fld 1 0
  if !d.regionEmpty h then d
  else if h = 0 then { d with redWays0 := w } else { d with redWays1 := w }

end Dp
end Sys2Proof.Machine
end

