-- ==== Sys2Proof/Machine/Commit.lean ====
section
/-!
DEFINITION. Writes of set-up registers and COMMIT (R9, R344, R345, R512–R516): what a write stages, what a COMMIT
applies and what it keeps, and what the applied values do.
-/
namespace Sys2Proof.Machine
namespace Dp

/-! ### Register writes (R513) -/

/-- A write as an 8-byte write with a mask of the bytes written: none when its size or alignment is not accepted. -/
def widened (off size value : Nat) : Option (Nat × Word × Word) :=
  if size = 8 && off % 8 = 0 then some (off, BitVec.ofNat 64 value, Word.ones 63 0)
  else if size = 4 && off % 8 = 0 then some (off, BitVec.ofNat 64 (value % 2 ^ 32), Word.ones 31 0)
  else if size = 4 && off % 8 = 4 then some (off - 4, BitVec.ofNat 64 (value % 2 ^ 32 * 2 ^ 32), Word.ones 63 32)
  else none

/-- Offset of the MSI-X table (R348). -/
def msixTable : Nat := 0x0C10000

/-- Offset of the HDM decoder (R348). -/
def hdmDecoder : Nat := 0x0C01000

/-- A write to an entry of the MSI-X table, in the layout of PCIe: address, data, and the mask bit of the vector
control. A vector that is unmasked with its pending bit set is sent. -/
def msixWrite (d : Dp) (o : Nat) (w m : Word) : Dp :=
  let v := o / 16
  let x := d.vec v
  if 72 ≤ v then d
  else if o % 16 = 0 then
    d.setVec v { x with addr := (Word.mix m w (BitVec.ofNat 64 x.addr)).toNat }
  else
    let old : Word := BitVec.ofNat 64 (x.data + (if x.masked then 2 ^ 32 else 0))
    let new := Word.mix m w old
    let d := d.setVec v { x with data := new.fld 31 0, masked := new.bit 32 }
    if x.pend && !new.bit 32 then (d.setVec v { d.vec v with pend := false }).sendVec v else d

/-- The host sets the decoder's Commit bit (R348): the size must be that of MEM_HDM, with one interleave way. -/
def hdmCommit (d : Dp) : Dp :=
  let w := d.reg Reg.memHdm
  let ok := d.mem.hdmSize = (w.fld 26 16 + w.fld 8 0) * 2 ^ 30 && d.mem.hdmWays = 0
  if d.mem.hdmCommitted then d
  else { d with mem := { d.mem with hdmCommitted := ok, hdmError := !ok } }

/-- A write to the HDM decoder, in the layout of CXL 3.1: base, size and control. While it is committed only the
Commit bit can be changed; a write that sets it takes its other fields first. -/
def hdmWrite (d : Dp) (o : Nat) (w m : Word) : Dp :=
  let mem := d.mem
  let mix (n : Nat) : Nat := (Word.mix m w (BitVec.ofNat 64 n)).toNat / 2 ^ 28 * 2 ^ 28
  match o with
  | 0x10 => if mem.hdmCommitted then d else { d with mem := { mem with hdmBase := mix mem.hdmBase } }
  | 0x18 => if mem.hdmCommitted then d else { d with mem := { mem with hdmSize := mix mem.hdmSize } }
  | 0x20 =>
    let ways := if m.bit 4 then w.fld 7 4 else mem.hdmWays
    if m.bit 9 && !w.bit 9 then { d with mem := { mem with hdmCommitted := false, hdmError := false, hdmWays := ways } }
    else if mem.hdmCommitted then d
    else
      let d : Dp := { d with mem := { mem with hdmWays := ways } }
      if m.bit 9 then d.hdmCommit else d
  | _ => d

/-- Lines of the window the host holds, in the half of an address. -/
def snooped (d : Dp) (a : Nat) : Tab (Option Bool) := if d.halfOf a = 0 then d.mem.snoop0 else d.mem.snoop1

/-- Writes the snoop filter of the half of an address. -/
def setSnooped (d : Dp) (a : Nat) (t : Tab (Option Bool)) : Dp :=
  if d.halfOf a = 0 then { d with mem := { d.mem with snoop0 := t } } else { d with mem := { d.mem with snoop1 := t } }

/-- The host comes to hold a line; a full filter first frees an entry, whichever it chooses, by a snoop (R41). -/
def hostHolds (d : Dp) (a : Nat) (modified : Bool) : Dp :=
  let t := d.snooped a
  let line := a / 128
  let d : Dp :=
    if t.length < 4194304 || (Tab.get (fun _ => none) t line).isSome then d
    else
      let (i, d) := d.draw
      match t[Config.freeNat i 0 % t.length]? with
      | some (v, _) => { d.setSnooped a (Tab.erase t v) with outs := d.outs ++ [.snoop v] }
      | none => d
  let was := (Tab.get (fun _ => none) (d.snooped a) line).getD false
  d.setSnooped a (Tab.set (fun _ => none) (d.snooped a) line (some (was || modified)))

/-- An access of the host to offset `x` of the committed HDM window (R40, R41). -/
def hdmAccess (d : Dp) (x : Nat) (k : HostAccess) : Dp :=
  let w := d.reg Reg.memHdm
  if !d.mem.hdmCommitted || (w.fld 26 16 + w.fld 8 0) * 2 ^ 30 ≤ x then d
  else
    let a := d.windowAt (x / 64 * 64)
    let gone (d : Dp) : Dp := d.setSnooped a (Tab.set (fun _ => none) (d.snooped a) (a / 128) none)
    match k with
    | .shared => d.hostHolds a false
    | .owned => d.hostHolds a true
    | .write bytes => gone (if d.isPoisoned a then d else d.setDpas a (slice bytes 0 64))
    | .release => gone d

/-- A write to a register with no behaviour of its own: RW fields are staged, W1C bits written 1 are cleared. -/
def registerWrite (d : Dp) (off size value : Nat) : Dp :=
  match widened off size value with
  | none => d
  | some (off, w, m) =>
    if msixTable ≤ off && off < msixTable + 72 * 16 then d.msixWrite (off - msixTable) w m
    else if hdmDecoder ≤ off && off < hdmDecoder + 0x28 then d.hdmWrite (off - hdmDecoder) w m
    else
      let d : Dp := match rwReg off with
        | some i => { d with regs := d.regs.stage off (Word.mix (i.mask &&& m) w (d.regs.stagedVal off)) }
        | none => d
      match blockOf off with
      | some (.lnk, o) =>
        if o = 0x0F0 then { d with regs := d.regs.clearStat off (w &&& 3) }
        else if 0x100 ≤ o && o < 0x200 && o % 0x20 = 0 then
          d.setPort ((o - 0x100) / 0x20) { d.port ((o - 0x100) / 0x20) with written := true }
        else d
      | some (b, _) => if off = b.stat.1 then { d with regs := d.regs.clearStat off (w &&& b.stat.2) } else d
      | none => d

/-! ### What a COMMIT keeps -/

/-- The value a register would take: its staged value, unless that holds a reserved encoding. -/
def newVal (d : Dp) (off : Nat) : Word :=
  let s := d.regs.stagedVal off
  match rwReg off with
  | some i => if i.reserved s then d.reg off else s
  | none => s

/-- Would a COMMIT change a register. -/
def changes (d : Dp) (off : Nat) : Bool := d.newVal off ≠ d.reg off

/-- Do any of some bit fields of a register change. -/
def fieldsChange (d : Dp) (off : Nat) (fs : List (Nat × Nat)) : Bool :=
  fs.any fun f => (d.newVal off).fld f.1 f.2 ≠ (d.reg off).fld f.1 f.2

/-- Is a register's bit 0 set both before and after a COMMIT. -/
def staysOn (d : Dp) (off : Nat) : Bool := (d.reg off).bit 0 && (d.newVal off).bit 0

/-- RING registers that a COMMIT keeps (R345, Table 11.19). -/
def ringKeeps (d : Dp) : List Nat :=
  ((List.range 64).map fun n =>
    (if d.staysOn (Reg.ringCfg n) then
      (if d.changes (Reg.ringBase n) then [Reg.ringBase n] else []) ++
      (if d.fieldsChange (Reg.ringCfg n) [(48, 44), (43, 38), (37, 34), (33, 32), (2, 2)] then [Reg.ringCfg n] else [])
     else []) ++
    (let lo := d.newVal (Reg.guardLo n)
     if lo.bit 0 && (d.newVal (Reg.guardHi n)).fld 51 7 < lo.fld 51 7 then [Reg.guardLo n, Reg.guardHi n] else []) ++
    (if d.staysOn (Reg.cqCfg n) then
      (if d.changes (Reg.cqBase n) then [Reg.cqBase n] else []) ++
      (if d.fieldsChange (Reg.cqCfg n) [(12, 8), (19, 16)] then [Reg.cqCfg n] else [])
     else [])).flatten ++
  ((List.range 8).map fun k =>
    if d.staysOn (Reg.nqCfg k) then
      (if d.changes (Reg.nqBase k) then [Reg.nqBase k] else []) ++
      (if d.fieldsChange (Reg.nqCfg k) [(12, 8), (19, 16)] then [Reg.nqCfg k] else [])
    else []).flatten

/-- MEM registers that a COMMIT keeps: pools that hold frames or leave their half, lock windows outside their half,
and the size of a committed HDM window (Tables 1.14–1.16, R40). -/
def memKeeps (d : Dp) : List Nat :=
  let gib := 2 ^ 30
  ([0, 1].map fun h =>
    let s := d.newVal (Reg.poolSize h)
    let base := (d.newVal (Reg.poolBase h)).fld 47 30 * gib
    let size := (s.fld 31 16 + s.fld 15 0) * gib
    let lo := if h = 0 then 0 else 0x009000000000
    let used := (d.mem.frames.any fun f => d.inPoolOf h f.base) || d.mem.promos.any fun p => d.inPoolOf h p.frame
    let bad := 0 < size && (base < lo || lo + 0x009000000000 < base + size)
    if used || bad then [Reg.poolBase h, Reg.poolSize h] else []).flatten ++
  ((List.range 8).map fun n =>
    let w := d.newVal (Reg.grLock n)
    let lo := if n < 4 then 0 else 0x009000000000
    let base := w.fld 47 21 * 2 ^ 21
    if w.bit 0 && (base < lo || lo + 0x009000000000 < base + w.fld 63 48 * 2 ^ 21) then [Reg.grLock n] else []).flatten ++
  (if d.mem.hdmCommitted then [Reg.memHdm] else [])

/-- The edges of monitor slot `s` as a COMMIT would leave them. -/
def newEdges (d : Dp) (s : Nat) : List Int :=
  (List.range 15).map fun i => signed 16 ((d.newVal (Reg.monEdge s (i / 4))).fld (16 * (i % 4) + 15) (16 * (i % 4)))

/-- Does a list never decrease. -/
def rising : List Int → Bool
  | a :: b :: l => a ≤ b && rising (b :: l)
  | _ => true

/-- The registers of monitor slot `s`. -/
def monRegs (s : Nat) : List Nat := Reg.monCfg s :: (List.range 4).map (Reg.monEdge s)

/-- The registers of a block that fail a check of their chapter. -/
def keeps (d : Dp) : Block → List Nat
  | .ring => d.ringKeeps
  | .mem => d.memKeeps
  | .mon => ((List.range 64).map fun s => if rising (d.newEdges s) then [] else monRegs s).flatten
  | _ => []

/-- One register at a COMMIT: applied, or kept with its staged value set back and CFG_ERR (R344). -/
def commitReg (b : Block) (kept : List Nat) (d : Dp) (off : Nat) : Dp :=
  match rwReg off with
  | none => d
  | some i =>
    let s := d.regs.stagedVal off
    if s = d.reg off then d
    else if i.reserved s || kept.contains off then
      ({ d with regs := d.regs.stage off (d.reg off) }).setStat b.stat.1 0
    else { d with regs := d.regs.commit off s }

/-! ### What an applied value does -/

/-- Completion ring `m` is enabled: it starts empty, and held records follow. -/
def cqStarts (d : Dp) (m : Nat) : Dp :=
  let d := d.setCq m { held := (d.cq m).held }
  d.releaseHeld m

/-- Rings, completion rings and notice rings whose EN a COMMIT changed. -/
def afterRing (old d : Dp) : Dp :=
  let was (off : Nat) : Bool := (old.reg off).bit 0
  let is (off : Nat) : Bool := (old.newVal off).bit 0 && (d.reg off).bit 0
  let d := (List.range 8).foldl (fun (d : Dp) k =>
    if !was (Reg.nqCfg k) && is (Reg.nqCfg k) then d.setNq k {} else d) d
  let d := (List.range 64).foldl (fun (d : Dp) m =>
    if !was (Reg.cqCfg m) && is (Reg.cqCfg m) then d.cqStarts m else d) d
  (List.range 64).foldl (fun (d : Dp) n =>
    if !was (Reg.ringCfg n) && (d.reg (Reg.ringCfg n)).bit 0 then d.ringStarts n
    else if was (Reg.ringCfg n) && !(d.reg (Reg.ringCfg n)).bit 0 then d.ringStops n
    else d) d

/-- A port goes down and trains again, or stays down (R351, Table 19.4). -/
def retrain (d : Dp) (q : Nat) : Dp :=
  let p := d.port q
  let d := d.setPort q { p with laneFail := 0, fallen := false, written := false, paused := false, preempt := false,
                                state := 0 }
  let d := d.setPort q { d.port q with state := if d.portMode q = 0 then 0 else 1 }
  (if 2 ≤ p.state then d.resendPort q else d).checkPeers

/-- With PFC_EN = 0 no port stays paused (R352). -/
def afterPfc (d : Dp) : Dp :=
  if (d.reg Reg.lnkCtl).bit 4 then d
  else ((List.range 8).foldl (fun (d : Dp) q => d.setPort q { d.port q with paused := false }) d).flushAll

/-- Ports whose set-up a COMMIT changed, or confirmed after a fall-back. -/
def afterLnk (old d : Dp) : Dp :=
  ptpCheck <| afterPfc <| (List.range 8).foldl (fun (d : Dp) q =>
    let p := d.port q
    let o := old.reg (Reg.portCfg q)
    let n := d.reg (Reg.portCfg q)
    if o.fld 3 0 ≠ n.fld 3 0 || (p.written && (p.fallen || p.laneFail ≠ 0)) then d.retrain q
    else
      let d := d.setPort q { p with written := false }
      if o ≠ n then d.portFall q else d) d

/-- The pipeline program is in force at once while none of its entries is open. -/
def afterFll (d : Dp) : Dp :=
  if d.fll.cursor < d.pipeLen then d
  else
    let r := d.regs
    { d with regs := (r.setForce Reg.fllPipeBase (r.val Reg.fllPipeBase)).setForce Reg.fllPipeCtl (r.val Reg.fllPipeCtl) }

/-- PHX_RNG_IDX.WR writes one stream's key and counter and is cleared (R75). -/
def afterPhx (d : Dp) : Dp :=
  let x := d.reg Reg.rngIdx
  if !x.bit 12 then d
  else
    let kc := ((d.reg Reg.rngKey).toNat, (d.reg Reg.rngCtr).toNat)
    let streams := Tab.set (fun _ => (0, 0)) d.phx.streams (x.fld 11 0) kc
    let y := x.put 12 12 0
    { d with phx := { d.phx with streams }, regs := (d.regs.stage Reg.rngIdx y).commit Reg.rngIdx y }

/-- Spaces whose root a COMMIT changed: their translations are invalidated (Table 1.19). -/
def afterAtu (old d : Dp) : Dp :=
  (List.range 16).foldl (fun (d : Dp) n =>
    if old.reg (Reg.atuRoot n) ≠ d.reg (Reg.atuRoot n) then d.atuInv n 1 0 else d) d

/-- Slots that a COMMIT changed start a window (R443, R448). -/
def afterMon (old d : Dp) : Dp :=
  (List.range 64).foldl (fun (d : Dp) s =>
    if (monRegs s).any fun off => old.reg off ≠ d.reg off then d.monRestart s else d) d

/-- The set of the granary a tier H line belongs to, over all slices (R26, Table 1.7). -/
def granarySetOf (d : Dp) (line : Nat) : Nat :=
  (d.place (128 * line)).2 * 12288 + Config.granarySet (natFld (128 * line) 35 7) % 12288

/-- A line of a lock window is loaded: it stays locked, or takes a locked way of its set, or is cached as an ordinary line
and counted (R27). The lines that are locked, the locked ways in use per set, the count. -/
def lockLine (d : Dp) (ways : Nat) (s : NatSet × Tab Nat × Nat) (line : Nat) : NatSet × Tab Nat × Nat :=
  let k := d.granarySetOf line
  if s.1.has line then s
  else if Tab.get (fun _ => 0) s.2.1 k < ways then (s.1.add line, Tab.modify (fun _ => 0) s.2.1 k (· + 1), s.2.2)
  else (s.1, s.2.1, s.2.2 + 1)

/-- The lines of lock window `n` by a value of its register: the first line and their number (Table 1.16). -/
def lockWindow (w : Word) : Nat × Nat := if w.bit 0 then (w.fld 47 21 * 2 ^ 14, w.fld 63 48 * 2 ^ 14) else (0, 0)

/-- The enabled lock windows are loaded in the order of their numbers, each in the order of its lines (R27; the order and
the count at every COMMIT are DEDUCED, log entry 150). -/
def loadLocks (d : Dp) : Dp :=
  let ways := (d.reg Reg.grCtl).fld 7 4
  let lines := (List.range 8).flatMap fun n =>
    let (lo, k) := lockWindow (d.reg (Reg.grLock n))
    (List.range k).map (lo + ·)
  let r := lines.foldl (d.lockLine ways) ([], [], 0)
  if r.2.2 = 0 then d else d.bump Reg.grLockOvf r.2.2

/-- A lock window that a COMMIT disables or moves writes back its dirty lines (R27). -/
def freeLocks (old d : Dp) : Dp :=
  let gone (n line : Nat) : Bool :=
    let (lo, k) := lockWindow (old.reg (Reg.grLock n))
    old.reg (Reg.grLock n) ≠ d.reg (Reg.grLock n) && lo ≤ line && line < lo + k
  { d with mem := { d.mem with past := Tab.keep (fun line _ => !((List.range 8).any fun n => gone n line)) d.mem.past } }

/-- What the applied values of a block do. -/
def after (b : Block) (old d : Dp) : Dp :=
  match b with
  | .ring => afterRing old d
  | .mem => ((freeLocks old d).loadLocks.redWaysApply 0).redWaysApply 1
  | .atu => afterAtu old d
  | .lnk => (afterLnk old d).progressPod
  | .fll => d.afterFll
  | .phx => d.afterPhx
  | .mon => afterMon old d
  | _ => d

/-- A write of 1 to a block's COMMIT register (R344). -/
def commit (d : Dp) (b : Block) : Dp := after b d (b.regs.foldl (commitReg b (d.keeps b)) d)

/-- RING_ENABLE: a RING COMMIT that takes EN of ring `n` from 0 to 1. -/
def ringEnable (d : Dp) (n : Nat) : Dp :=
  if !(d.reg (Reg.ringCfg n)).bit 0 && (d.newVal (Reg.ringCfg n)).bit 0 then d.commit .ring else d

/-- RING_DISABLE: a RING COMMIT that takes EN of ring `n` from 1 to 0. -/
def ringDisable (d : Dp) (n : Nat) : Dp :=
  if (d.reg (Reg.ringCfg n)).bit 0 && !(d.newVal (Reg.ringCfg n)).bit 0 then d.commit .ring else d

/-- PHX_RNG_WRITE: a PHX COMMIT with PHX_RNG_IDX.WR = 1. -/
def rngWrite (d : Dp) : Dp := if (d.newVal Reg.rngIdx).bit 12 then d.commit .phx else d

/-! ### Registers that act on their write -/

/-- A write of PHX_LS_LOAD (R73, Table 2.13). -/
def lsLoad (d : Dp) (go : Bool) (exp : Nat) : Dp :=
  let x := signed 6 exp
  if x < -24 || 24 < x then d.setStat (Block.phx.base + 0x0F0) 0
  else if go then { d with phx := { d.phx with lsLoad := some x } }
  else d

/-- A write of 1 to ASH_THAW (R440). -/
def ashThaw (d : Dp) : Dp := { d with ash := { d.ash with frozen := false } }

/-- A write of MON_RESTART (R443). -/
def monRestarts (d : Dp) (slots : Nat) : Dp :=
  (List.range 64).foldl (fun (d : Dp) s => if slots.testBit s then d.monRestart s else d) d

/-- The window of slot `s` ends (R443): it stops sampling and holds its record. -/
def monWindowEnd (d : Dp) (s : Nat) : Dp :=
  let m := d.mon s
  if m.running && (d.reg (Reg.monCfg s)).fld 63 32 ≠ 0 then
    d.setMon s { m with running := false, held := true, stop := d.now }
  else d

end Dp
end Sys2Proof.Machine
end

