-- ==== Sys2Proof/Machine/FaultPath.lean ====
section
/-!
DEFINITION. The fault path (R423–R435): transient faults, uncorrectable errors and poison, the counting of events
toward retirement, and retirement itself; monitor samples and what MCTP reads (R441–R444).
-/
namespace Sys2Proof.Machine
namespace Dp

/-! ### Entries that leave a tiller (R107) -/

/-- Entries in some contexts of tiller `t` go back to their lists under their own indexes. -/
def returnFrom (d : Dp) (t : Nat) (p : Ctx → Bool) : Dp :=
  let x := d.tiller t
  let mine := x.ctxs.filter p
  if mine.isEmpty then d
  else
    let d := d.setTiller t { x with ctxs := x.ctxs.filter fun c => !p c }
    let back (l : EList) : EList :=
      { l with returned := l.returned ++ (mine.filter fun c => c.uid = l.uid && c.half = l.half).map fun c => c.idx }
    let d : Dp := { d with lists := d.lists.map back }
    d.bump (Reg.tlrRedoCnt t) mine.length

/-- Every entry of a tiller goes back. -/
def emptyTiller (d : Dp) (t : Nat) : Dp := d.returnFrom t fun _ => true

/-- Every entry of every tiller of a half goes back. -/
def emptyHalf (d : Dp) (h : Nat) : Dp := (tillersOf h).foldl emptyTiller d

/-! ### Retirement (R430–R432) -/

/-- RESOURCE of a resource, as the RETIREMENT notice encodes it (Table 11.14). -/
def resourceCode (k : ResKind) (n : Nat) : Nat :=
  match k with
  | .tiller => n * 16
  | _ => n

/-- The class 5 entry of a resource with a CODE and the events in the window. -/
def retireLog (d : Dp) (k : ResKind) (n code events : Nat) : Dp :=
  d.ashLog { time := d.now, cls := 5, code, resource := resourceCode k n, data := events }

/-- SUB and bytes withdrawn of a retirement (Table 15.4a). -/
def retireKind : ResKind → Nat × Nat
  | .hpc => (0, 1207959552)
  | .lch => (1, 51539607552)
  | .pch => (2, 103079215104)
  | .lane => (3, 0)
  | .tiller => (4, 0)
  | .bank => (5, 0)

/-- A retirement is reported: class 5 entry, RETIREMENT notice and ASH_RET_CNT. -/
def retired (d : Dp) (k : ResKind) (n events : Nat) : Dp :=
  let d := d.retireLog k n 0 events
  let (sub, bytes) := retireKind k
  (d.notice 10 sub none (toLe 8 d.now ++ toLe 4 (resourceCode k n) ++ toLe 8 bytes)).bump (Reg.ashCnt 6)

/-- A tiller is retired: its entries return and it takes no more. -/
def retireTiller (d : Dp) (t events : Nat) : Dp :=
  if (d.tiller t).retired then d
  else
    let d := d.emptyTiller t
    let d := d.setTiller t { d.tiller t with retired := true }
    (d.retired .tiller t events).haltStranded

/-- A crib bank is retired: the tiles of its tiller return, and a thirteenth bank retires the tiller. -/
def retireBank (d : Dp) (t b events : Nat) : Dp :=
  if (d.tiller t).bankRet.has b then d
  else
    let d := d.emptyTiller t
    let d := d.setTiller t { d.tiller t with bankRet := (d.tiller t).bankRet.add b }
    let d := d.retired .bank (t * 16 + b) events
    if 12 < (d.tiller t).bankRet.length then d.retireTiller t events else d.haltStranded

/-- A lane is retired: its port falls to 400G or goes down (R351). -/
def retireLane (d : Dp) (lane events : Nat) : Dp :=
  if (d.port (lane / 4)).laneRet.testBit (lane % 4) then d
  else (d.laneOut lane true).retired .lane lane events

/-- A tier L or peat channel is retired on request (R432). -/
def retireChannel (d : Dp) (peat : Bool) (c events : Nat) : Dp :=
  let mem := d.mem
  let ash := d.ash
  let d : Dp :=
    if peat then { d with mem := { mem with retP := mem.retP.add c }, ash := { ash with candP := ash.candP.remove c } }
    else { d with mem := { mem with retL := mem.retL.add c }, ash := { ash with candL := ash.candL.remove c } }
  d.retired (if peat then .pch else .lch) c events

/-- Pseudo-channels of half `h` retired or being copied. -/
def hpcOut (d : Dp) (h : Nat) : Nat := (d.ash.hpcRet.filter fun n => n / 512 = h).length

/-- Retirement of an HBM pseudo-channel begins: the limit of its half falls by 1.125 GiB, and the copy starts (R431). -/
def retireHpc (d : Dp) (n events : Nat) : Dp :=
  let step := 1207959552
  let mem := if n / 512 = 0 then { d.mem with hLimit0 := d.mem.hLimit0 - step }
    else { d.mem with hLimit1 := d.mem.hLimit1 - step }
  { d with mem, ash := { d.ash with hpcRet := d.ash.hpcRet ++ [n], hpcCopy := d.ash.hpcCopy ++ [(n, events)] } }

/-- The copy of a pseudo-channel ends: the retirement is reported (R431). -/
def hpcCopyDone (d : Dp) (n : Nat) : Dp :=
  match d.ash.hpcCopy.find? fun x => x.1 = n with
  | none => d
  | some (_, events) =>
    let a := { d.ash with hpcCopy := d.ash.hpcCopy.filter fun x => x.1 ≠ n }
    let a := if n / 512 = 0 then { a with hpcCount0 := a.hpcCount0 + 1 } else { a with hpcCount1 := a.hpcCount1 + 1 }
    ({ d with ash := a }).retired .hpc n events

/-! ### Counting of events (R429, R430) -/

/-- THR of a kind (ASH_RET_THR). -/
def threshold (d : Dp) (k : ResKind) : Nat :=
  let w := d.reg Reg.ashRetThr
  match k with
  | .hpc => w.fld 15 0
  | .lch => w.fld 31 16
  | .pch => w.fld 31 16
  | .lane => w.fld 47 32
  | .tiller => w.fld 63 48
  | .bank => w.fld 63 48

/-- Is a resource retired already. -/
def isRetired (d : Dp) (k : ResKind) (n : Nat) : Bool :=
  match k with
  | .hpc => d.ash.hpcRet.contains n
  | .lch => d.mem.retL.has n
  | .pch => d.mem.retP.has n
  | .lane => (d.port (n / 4)).laneRet.testBit (n % 4)
  | .tiller => (d.tiller n).retired
  | .bank => (d.tiller (n / 16)).bankRet.has (n % 16)

/-- A resource reaches its threshold (R430, R432). -/
def reachThreshold (d : Dp) (k : ResKind) (n events : Nat) : Dp :=
  let c := d.reg Reg.ashRetCtl
  match k with
  | .hpc => if c.bit 4 && d.hpcOut (n / 512) < c.fld 3 0 then d.retireHpc n events else d.retireLog k n 1 events
  | .lch => ({ d with ash := { d.ash with candL := d.ash.candL.add n } }).retireLog k n 2 events
  | .pch => ({ d with ash := { d.ash with candP := d.ash.candP.add n } }).retireLog k n 2 events
  | .lane => if c.bit 5 then d.retireLane n events else d.retireLog k n 1 events
  | .tiller => if c.bit 6 then d.retireTiller n events else d.retireLog k n 1 events
  | .bank => if c.bit 7 then d.retireBank (n / 16) (n % 16) events else d.retireLog k n 1 events

/-- Event times of a resource, newest first. -/
def eventsOf (d : Dp) (k : ResKind) (n : Nat) : List Nat :=
  ((d.ash.events.find? fun x => x.1 = k && x.2.1 = n).map fun x => x.2.2).getD []

/-- Writes the event times of a resource. -/
def setEvents (d : Dp) (k : ResKind) (n : Nat) (l : List Nat) : Dp :=
  let rest := d.ash.events.filter fun x => !(x.1 = k && x.2.1 = n)
  { d with ash := { d.ash with events := if l.isEmpty then rest else rest ++ [(k, n, l)] } }

/-- One event of a resource: its threshold is reached when THR events lie within the window. -/
def countEvent (d : Dp) (k : ResKind) (n : Nat) : Dp :=
  let thr := d.threshold k
  if thr = 0 || d.isRetired k n then d
  else
    let window := (d.reg Reg.ashRetWin).fld 31 0 * 1000000000
    let l := (d.now :: d.eventsOf k n).filter fun t => d.now ≤ t + window
    if l.length < thr then d.setEvents k n l else (d.setEvents k n []).reachThreshold k n l.length

/-- The resource to which an error at a device address belongs, by tier (Table 15.1). -/
def resourceAt (d : Dp) (a : Nat) : Option (ResKind × Nat) :=
  match tierOf a with
  | some 0 => some (.hpc, (d.place a).2 * 64 + pseudoChannel a)
  | some 1 => some (.lch, (d.place a).2)
  | some _ => some (.pch, (d.place a).2)
  | none => none

/-- RESOURCE of an error at `a`: the granary slice that fronts the stack of the line (R26), or the memory's own resource. -/
def errorResource (d : Dp) (granary : Bool) (a n : Nat) : Nat := if granary then (d.place a).2 else n

/-! ### Transient faults (R423, R424) -/

/-- A memory error was corrected and written back: of the granary, or of the line at `a` in its tier. -/
def correctable (d : Dp) (granary : Bool) (a syndrome : Nat) : Dp :=
  match d.resourceAt a with
  | none => d
  | some (k, n) =>
    let code := if granary then 3 else (tierOf a).getD 0
    let d := (d.bump (Reg.ashCnt 3)).ashLog
      { time := d.now, cls := 1, code, resource := d.errorResource granary a n, addr := a, data := syndrome }
    if granary then d else d.countEvent k n

/-- A flit was sent again, `retries` times in a row: of the mesh, or of the seam. Each retry counts (Table 15.9). -/
def flitRetry (d : Dp) (seam : Bool) (retries : Nat) : Dp :=
  (d.bump (Reg.ashCnt 5) retries).ashLog { time := d.now, cls := 3, code := if seam then 4 else 3, data := retries }

/-- One lane event (R423). -/
def laneEvent (d : Dp) (lane : Nat) : Dp :=
  (d.ashLog { time := d.now, cls := 4, code := 2, resource := lane }).countEvent .lane lane

/-- Training of a lane failed: it reaches its threshold at once, and its port falls (R351, R429). With a threshold of 0 there is
none to reach (DEDUCED, log entry 177). -/
def laneTrainingFail (d : Dp) (lane : Nat) : Dp :=
  let d := d.laneOut lane false
  if d.isRetired .lane lane || d.threshold .lane = 0 then d
  else (d.setEvents .lane lane []).reachThreshold .lane lane ((d.eventsOf .lane lane).length + 1)

/-- Crib parity: the tile in context `k` of tiller `t` returns and is done once more, and the bank counts one event.
DEDUCED (log entry 11): the return is the one retry of its entry. -/
def cribParity (d : Dp) (t k b : Nat) : Dp :=
  let d := (d.bump (Reg.ashCnt 5)).ashLog { time := d.now, cls := 3, code := 2, resource := t * 16 + b, data := 1 }
  (d.returnFrom t fun c => c.num = k).countEvent .bank (t * 16 + b)

/-! ### Uncorrectable errors (R425, R427) -/

/-- Marks what lies in a line of the sheaf journal as unreadable (Table 9.5). Whether a copy is still readable is judged
where R281 judges it, at the replay (DEDUCED, log entry 9). -/
def journalBad (d : Dp) (a : Nat) : Dp :=
  let o := (a - 0x020000000000) / 128 * 128
  if 0x1000 ≤ o && o < 0x41000 then
    let i := (o - 0x1000) / 64
    [i, i + 1].foldl (fun (d : Dp) id => d.setSheaf id { d.sheaf id with tableBad := true }) d
  else if 0x100000 ≤ o && o < 0x200000 then
    { d with journal := { d.journal with actBad := d.journal.actBad.add ((o - 0x100000) / 128) } }
  else if 0x200000 ≤ o then
    let i := (o - 0x200000) / 64
    let log := [i, i + 1].foldl (fun (t : Tab (Option CommitRec)) k =>
      match Tab.get (fun _ => none) t k with
      | some r => Tab.set (fun _ => none) t k (some { r with poisoned := true })
      | none => t) d.journal.log
    { d with journal := { d.journal with log } }
  else d

/-- An uncorrectable error of a line of device memory, or of the granary's copy of it. -/
def lineLost (d : Dp) (granary : Bool) (a syndrome : Nat) : Dp :=
  match d.resourceAt a with
  | none => d
  | some (k, n) =>
    let code := if granary then 3 else (tierOf a).getD 0
    let d := if inJournal a then d.journalBad a else d.poisonLine a
    let d := (d.bump (Reg.ashCnt 4)).ashLog
      { time := d.now, cls := 2, code, flags := 4, resource := d.errorResource granary a n, addr := a, data := syndrome }
    if granary then d else d.countEvent k n

/-- An uncorrectable error (R425, R427). What a bin or a crib held is lost with its entry, which returns. -/
def uncorrectable (d : Dp) (w : UeAt) : Dp :=
  let log (code resource flags addr : Nat) (d : Dp) : Dp :=
    (d.bump (Reg.ashCnt 4)).ashLog { time := d.now, cls := 2, code, flags, resource, addr }
  match w with
  | .line g a s => d.lineLost g a s
  | .host a =>
    log 6 0 4 0 { d with mem := { d.mem with poison := d.mem.poison.add ((2 ^ 60 + a) / 128) } }
  | .bin t k => (log 4 (t.val * 16) 0 0 (d.returnFrom t fun c => c.num = k)).countEvent .tiller t
  | .crib t k b =>
    (log 5 (t.val * 16 + b.val) 0 0 (d.returnFrom t fun c => c.num = k)).countEvent .bank (t.val * 16 + b.val)
  | .sram => d.fatal 3

/-- A parity error is fetched again (R423). -/
def parityRefetch (d : Dp) (w : ParityAt) : Dp :=
  match w with
  | .granary a second =>
    if second then d.lineLost true a 0
    else (d.bump (Reg.ashCnt 5)).ashLog { time := d.now, cls := 3, code := 0, resource := d.errorResource true a 0, addr := a, data := 1 }
  | .bin t k returns =>
    let d := (d.bump (Reg.ashCnt 5)).ashLog { time := d.now, cls := 3, code := 1, resource := t.val * 16, data := 1 }
    let d := if returns then d.returnFrom t fun c => c.num = k else d
    d.countEvent .tiller t

/-- An IDE integrity failure on the host link (R461). -/
def ideFailure (d : Dp) (stream : Nat) : Dp := d.ashLog { time := d.now, cls := 13, code := 0, data := stream }

/-! ### Monitors and MCTP (R441–R444) -/

/-- One millisecond's samples of temperatures, voltages and power: source, number and value (R442). -/
def monitorSample (d : Dp) (rs : List (Nat × Nat × Int)) : Dp :=
  rs.foldl (fun (d : Dp) r =>
    if 8 ≤ r.1 && r.1 ≤ 10 then d.monSample r.1 (fun q => q = r.2.1) r.2.2 else d) d

/-- An answer to a request. -/
def answer (d : Dp) (a : Answer) : Dp := { d with resps := d.resps ++ [a] }

/-- An answer to a vendor-defined MCTP command. -/
def respond (d : Dp) (bs : List Byte) : Dp := d.answer (.mctp bs)

/-- The MCTP command ASH_READ (Table 15.6); invalid data is answered with code 2. -/
def ashRead (d : Dp) (start count : Nat) : Dp :=
  if 4096 ≤ start || count = 0 || 8 < count then d.respond (toLe 1 2)
  else
    let es := (List.range count).map fun i => ashBytes (Tab.get (fun _ => none) d.ash.entries ((start + i) % 4096))
    d.respond (toLe 1 0 ++ toLe 2 d.ash.head ++ toLe 1 (if d.ash.frozen then 1 else 0) ++ es.flatten)

/-- The MCTP command MON_READ. -/
def mctpMonRead (d : Dp) (s restart : Nat) : Dp :=
  if 64 ≤ s || 2 ≤ restart then d.respond (toLe 1 2)
  else
    let d := d.respond (toLe 1 0 ++ d.monRecord s)
    if restart = 1 then d.monRestart s else d

end Dp
end Sys2Proof.Machine
end

