-- ==== Sys2Proof/Machine/Planes.lean ====
section
/-!
DEFINITION. The units beside the data plane: Kiln with its one-time memory and flash (16_kiln_security_debug.md),
clocks, power, reset and pins (14 and 18), the maintenance gate (17), and the debug window (R518).
-/
namespace Sys2Proof.Machine

/-- One generation of an OTP word (R455): its data, and whether its MARK and ECC make it valid. -/
structure OtpGen where
  data : Word
  valid : Bool
  deriving DecidableEq, Repr

/-- A segment as running (R450, R460). -/
structure Segment where
  version : Nat
  rb : Nat
  digest : List Byte
  debugOnly : Bool
  deriving DecidableEq, Repr

/-- Kiln. -/
structure Kiln where
  /-- programmed generations of each OTP word, generation 0 first -/
  words : Tab (List OtpGen) := []
  /-- programmed bits of each rollback counter (R457) -/
  rb : Tab Nat := []
  /-- the RETIRED fuse (R466) -/
  retired : Bool := false
  /-- debug level in force: 0 NONE, 1 OBSERVE, 2 INVASIVE -/
  debug : Nat := 0
  /-- ATTEST_CLOSED (R465) -/
  closed : Bool := false
  /-- KLN_NONCE, and whether the nonce is outstanding (R463) -/
  nonce : List Byte := []
  nonceOut : Bool := false
  /-- KLN_TOK0 to KLN_TOK15 -/
  tok : Tab Word := []
  /-- KLN_TOK_RES -/
  tokRes : Nat := 0
  /-- segments running -/
  segs : Tab (Option Segment) := []
  /-- KLN_STATE.BOOT_ERR -/
  bootErr : Nat := 0
  /-- the flash: one image of each segment, and the certificate chain (R453, R458) -/
  flash : Tab (List Byte) := []
  chain : List Byte := []
  /-- the module is in recovery; KLN_RCV_STAT (R452) -/
  recovery : Bool := false
  rcvState : Nat := 0
  rcvReason : Nat := 0
  /-- secured SPDM sessions: number and transport, 0 DOE, 1 MCTP (R459) -/
  sessions : List (Nat × Nat) := []
  /-- the number of the next session -/
  nextSession : Nat := 0
  /-- IDE keys by stream (R461) -/
  ide : Tab (List Byte) := []
  deriving DecidableEq, Repr

/-- The 54 V input (R494): switch open, precharging, or closed with the main conversion on. -/
inductive Supply where
  | off | precharge | on
  deriving DecidableEq, Repr

/-- Clocks, power, reset and pins. -/
structure Pwr where
  /-- AUX_12V is present (R495) -/
  aux : Bool := true
  /-- Hearth runs (R500) -/
  hearth : Bool := true
  /-- the 54 V input, its voltage in 10 mV, current in 10 mA and power in mW (PWR_IN) -/
  supply : Supply := .on
  vin : Nat := 5400
  iin : Nat := 0
  pin : Nat := 0
  /-- PERST# is asserted (R497) -/
  perst : Bool := false
  /-- PERST# has not been deasserted since 54 V was applied: the next deassertion is the cold reset -/
  fresh : Bool := false
  /-- CLK_ROOT -/
  refOk : Bool := true
  lock : Bool := true
  /-- the reference was lost: the links stay down until a cold reset (R407) -/
  refLost : Bool := false
  /-- the CXL link is up -/
  link : Bool := true
  /-- Memory_Active -/
  memActive : Bool := true
  d3hot : Bool := false
  /-- D0-I in force -/
  idle : Bool := false
  /-- a half is in reset (R498) -/
  reset0 : Bool := false
  reset1 : Bool := false
  /-- clock settings asked for by request (R411) -/
  req0 : Nat := 0
  req1 : Nat := 0
  /-- thermal throttle per junction sensor: the setting it forces (R412) -/
  throttle : Tab Nat := []
  /-- setting that power forces on each half, and whether it is the power cap, as against an excursion or the limit -/
  cap0 : Nat := 0
  cap1 : Nat := 0
  /-- the trip is latched, THERMTRIP# asserted (R509) -/
  trip : Bool := false
  /-- the hot-swap switch opened on a trip and stays open -/
  tripOpen : Bool := false
  /-- seam epochs waiting or in progress: half and the setting it takes (R409) -/
  epochs : List (Nat × Nat) := []
  /-- WAKE# is asserted; PME_Status (R506) -/
  wake : Bool := false
  pme : Bool := false
  /-- dynamic address and endpoint ID, 0 for none (R504, R505) -/
  i3c : Nat := 0
  eid : Nat := 0
  /-- last readings of the sensors in 1/16 °C (R507) -/
  sensors : Tab Int := []
  /-- readings of the reference sensor at the last training, by activity * 64 + unit (R478) -/
  trained : Tab Int := []
  /-- last readings of the core rails 1 to 15 in mV (Table 15.7) -/
  rails : Tab Int := []
  deriving DecidableEq, Repr

/-- The maintenance gate. -/
structure Mnt where
  /-- the next request number (R474) -/
  next : Nat := 1
  /-- requests that have reached the gate and are not judged yet -/
  arrived : List Req := []
  running : List Req := []
  /-- queued requests in order of arrival (R477) -/
  queue : List Req := []
  /-- MNT_LAST -/
  lastReq : Nat := 0
  lastAct : Nat := 0
  lastStatus : Nat := 0
  lastReason : Nat := 0
  /-- the staged segment, and whether it has been swapped in and is being written to flash (R468) -/
  staged : Option (Nat × List Byte) := none
  swapped : Bool := false
  /-- PWR_DOM_RES -/
  domNum : Nat := 0
  domRes : Nat := 0
  /-- OTP_RES -/
  otpRes : Nat := 0
  otpReason : Nat := 0
  deriving DecidableEq, Repr

/-- The debug window (R518): DBG_SEL, halted Stokers, and what has been written through it. -/
structure Dbg where
  sel : Nat := 0
  halt : Nat := 0
  /-- instructions a halted Stoker has executed by STEP -/
  steps : Tab Nat := []
  /-- SRAM of the units, by offset in BAR0 -/
  sram : Tab Byte := []
  /-- bins and cribs: tiller * 2^24 + offset in BAR0 − 0x320_0000 -/
  bins : Tab Byte := []
  deriving DecidableEq, Repr

end Sys2Proof.Machine
end

