-- ==== Sys2Proof/Machine/State.lean ====
section
/-!
DEFINITION. The state of the module as plain data, and the state after reset.
-/
namespace Sys2Proof.Machine

/-- The whole module: the commands that wait, first in first out, and its units. -/
structure State where
  pending : List Instr := []
  dp : Dp := {}
  kiln : Kiln := {}
  pwr : Pwr := {}
  mnt : Mnt := {}
  dbg : Dbg := {}
  deriving DecidableEq, Repr

/-- What stops the module in a way the spec gives no state for: no command of the table does. -/
inductive Fault where
  /-- The module has been damaged, as it can be above 65.0 V (Table 18.3). Raised by no command: an input above 65.0 V has the
  effects of the rows below it, and no command says that damage has come about (log entry 33). Unsafe where it has. -/
  | damaged
  deriving DecidableEq, Repr

/-- What the model refuses. -/
inductive Refusal where
  /-- A command without a meaning: raised by an arm of `exec`, if any. Safe: the model stops. -/
  | notModelled (mnemonic : String)
  deriving DecidableEq, Repr

/-- How a step of the module ends. -/
abbrev Result : Type := Host.Outcome State Fault Refusal

/-- A segment of which the spec gives no contents (DESIGN CHOICE, log entry 4). -/
def Segment.blank : Segment := { version := 0, rb := 0, digest := List.replicate 64 0, debugOnly := false }

/-- The module once a cold reset and its boot chain are over: every register at the value Table 19.2 gives, memory with
nothing listed, all six segments running, the supplies and the reference in range (log entries 3 to 6). -/
def State.reset : State :=
  { kiln := { segs := (List.range 6).map fun n => (n, some Segment.blank) } }

end Sys2Proof.Machine
end

