-- ==== Sys2Proof/Machine/Power.lean ====
section
/-!
DEFINITION. What the power state, resets and Kiln let the other units do (R6, R415, Tables 14.6 and 16.9), and the
clock settings of the halves (R408–R412).
-/
namespace Sys2Proof.Machine

/-- Segment `n` runs. -/
def Kiln.seg (k : Kiln) (n : Nat) : Option Segment := Tab.get (fun _ => none) k.segs n

namespace Pwr

/-- Setting asked for by request for a half. -/
def req (p : Pwr) (h : Nat) : Nat := if h = 0 then p.req0 else p.req1

/-- Writes the setting asked for. -/
def setReq (p : Pwr) (h v : Nat) : Pwr := if h = 0 then { p with req0 := v } else { p with req1 := v }

/-- Setting that power forces on a half. -/
def cap (p : Pwr) (h : Nat) : Nat := if h = 0 then p.cap0 else p.cap1

/-- Writes the setting that power forces. -/
def setCap (p : Pwr) (h v : Nat) : Pwr := if h = 0 then { p with cap0 := v } else { p with cap1 := v }

/-- Setting that junction sensors force on a half (R412). -/
def thermal (p : Pwr) (h : Nat) : Nat := p.throttle.foldl (fun a e => if e.1 / 16 = h then max a e.2 else a) 0

/-- Setting forced on a half, 0 when none is. -/
def forced (p : Pwr) (h : Nat) : Nat := max (p.thermal h) (p.cap h)

/-- Setting that a protective action holds a half at: a trip gates it, else what is forced (R412, R509). -/
def heldAt (p : Pwr) (h : Nat) : Nat := if p.trip then 3 else p.forced h

/-- The setting a half goes to: the lowest of those asked for and forced; a trip gates it (R412, R419, R509). -/
def goal (p : Pwr) (h : Nat) : Nat := if p.trip then 3 else max (p.req h) (p.forced h)

/-- CLK_CUR.CAUSEh. -/
def cause (p : Pwr) (h : Nat) : Nat :=
  if p.trip then 1 else if p.forced h = 0 || p.forced h < p.req h then 0 else if p.cap h ≤ p.thermal h then 1 else 2

/-- Half `h` is in reset. -/
def inReset (p : Pwr) (h : Nat) : Bool := if h = 0 then p.reset0 else p.reset1

/-- PWR_STAT.CAP_ACT. -/
def capAct (p : Pwr) : Bool := p.cap0 ≠ 0 || p.cap1 ≠ 0

/-- The main conversion is on. -/
def main (p : Pwr) : Bool := p.supply = .on

/-- The last reading of a sensor in 1/16 °C. -/
def sensor (p : Pwr) (n : Nat) : Int := Tab.get (fun _ => 0) p.sensors n

end Pwr

namespace State

/-- The module is powered, out of PERST#, and in D0, D0-H or D0-I. -/
def awake (s : State) : Bool := s.pwr.main && !s.pwr.perst && !s.pwr.d3hot && s.pwr.hearth

/-- The host reaches the module's registers and memory: awake, its link up, and not in recovery (R407, R452). -/
def hostLive (s : State) : Bool := s.awake && s.pwr.link && !s.pwr.refLost && !s.kiln.recovery

/-- Kiln answers: powered in D0 and in D3hot (Table 14.6). -/
def kilnLive (s : State) : Bool := s.pwr.main && s.pwr.hearth

/-- What the other units let the data plane do. -/
def gates (s : State) : Gates :=
  { up0 := !s.pwr.idle && !s.pwr.reset0
    up1 := !s.pwr.idle && !s.pwr.reset1
    reset0 := s.pwr.reset0
    reset1 := s.pwr.reset1
    stokers := s.dbg.halt
    awake := s.awake && s.pwr.memActive && (s.kiln.seg 5).isSome && (s.kiln.seg 1).isSome && !s.kiln.recovery
    closed := s.kiln.retired
    gleaner := (s.kiln.seg 2).isSome
    flail := (s.kiln.seg 3).isSome
    culm := (s.kiln.seg 4).isSome }

/-- PWR_STATE: 0 D0, 1 D0-H, 2 D0-I, 3 D3hot, 4 D3cold (R421). -/
def powerState (s : State) : Nat :=
  if !s.pwr.main then 4
  else if s.pwr.d3hot then 3
  else if s.pwr.idle then 2
  else if s.dp.aclk0 ≠ 0 || s.dp.aclk1 ≠ 0 || (List.range 16).any s.dp.domOff.has then 1
  else 0

/-- ALERT# is asserted (R506). -/
def alert (s : State) : Bool :=
  !s.pwr.throttle.isEmpty || s.pwr.capAct || (s.dp.regs.statVal Reg.glbStat).bit 1 || s.pwr.trip

/-! ### Clock settings (R408–R410) -/

/-- A half takes a clock setting: at GATED its tiles in progress return to their lists (R408). -/
def applyClock (s : State) (h v : Nat) : State :=
  let d : Dp := if h = 0 then { s.dp with aclk0 := v } else { s.dp with aclk1 := v }
  { s with dp := if v = 3 then (d.emptyHalf h).haltStranded else d }

/-- A half's FCLK is to change: its epoch waits, or the one that waits takes the new setting. -/
def askEpoch (s : State) (h v : Nat) : State :=
  let p := s.pwr
  if p.epochs.any fun e => e.1 = h then
    { s with pwr := { p with epochs := p.epochs.map fun e => if e.1 = h then (h, v) else e } }
  else { s with pwr := { p with epochs := p.epochs ++ [(h, v)] } }

/-- A half whose goal lies below its setting is lowered in a single step: at an epoch when its FCLK changes, else at
once (R409, R410). -/
def steerHalf (s : State) (h : Nat) : State :=
  let now := s.dp.aclk h
  let goal := s.pwr.goal h
  if goal ≤ now then s else if now = 0 then s.askEpoch h goal else s.applyClock h goal

/-- Both halves are lowered to what is asked for and forced. -/
def steer (s : State) : State := (s.steerHalf 0).steerHalf 1

/-- The seam reopens: the epoch at the front is over, and its half runs at its new setting, or the lower one that has
been forced meanwhile (R409, R419). -/
def reopen (s : State) : State :=
  match s.pwr.epochs with
  | [] => s
  | (h, v) :: rest =>
    let s := { s with pwr := { s.pwr with epochs := rest }, dp := s.dp.bump Reg.clkEpochCnt }
    (s.applyClock h (max v (s.pwr.goal h))).steer

/-- A half being raised takes its next faster setting: GATED or SLOW16, then SLOW8, then FULL (R410). -/
def raiseStep (s : State) (h : Nat) : State :=
  let now := s.dp.aclk h
  let goal := s.pwr.goal h
  if now ≤ goal || s.pwr.epochs.any fun e => e.1 = h then s
  else if now = 1 then s.askEpoch h 0
  else s.applyClock h (if now = 3 && goal = 2 then 2 else 1)

end State
end Sys2Proof.Machine
end

