-- ==== Sys2Proof/Machine/KilnOps.lean ====
section
/-!
DEFINITION. Kiln's own operations: one-time words and rollback counters (R455–R457), the checks of a segment (R450,
R451), the boot chain (R449), tokens and levels (R463–R466), and measurements (R460).
-/
namespace Sys2Proof.Machine
namespace Kiln

/-! ### One-time memory (R455) -/

/-- The programmed generations of a word. -/
def gens (k : Kiln) (i : Nat) : List OtpGen := Tab.get (fun _ => []) k.words i

/-- Writes the generations of a word. -/
def setGens (k : Kiln) (i : Nat) (l : List OtpGen) : Kiln := { k with words := Tab.set (fun _ => []) k.words i l }

/-- The live generation of a word: its highest-numbered valid one. -/
def live (k : Kiln) (i : Nat) : Option (Nat × Word) :=
  let l := k.gens i
  ((List.range l.length).reverse).findSome? fun g =>
    match l[g]? with
    | some x => if x.valid then some (g, x.data) else none
    | none => none

/-- A word as it reads: the live generation, or zero. -/
def word (k : Kiln) (i : Nat) : Word :=
  match k.live i with
  | some (_, w) => w
  | none => 0

/-- The value of a rollback counter (R457). -/
def counter (k : Kiln) (n : Nat) : Nat := Tab.get (fun _ => 0) k.rb n

/-- LIFECYCLE: 0 DEPLOYED, 1 DEPLOYED_DEBUG, 2 RETIRED. -/
def lifecycle (k : Kiln) : Nat := if k.retired then 2 else (k.word 0).fld 1 0

/-- Is a key slot revoked. -/
def revoked (k : Kiln) (slot : Nat) : Bool := (k.word 2).bit slot

/-- Has a key slot a role: bit 0 firmware, bit 1 debug, bit 2 lifecycle. -/
def role (k : Kiln) (slot r : Nat) : Bool := (k.word 1).bit (8 * slot + r)

/-- The hash of a slot's public key, as 64 bytes. -/
def keyHash (k : Kiln) (slot : Nat) : List Byte :=
  ((List.range 8).map fun j => toLe 8 (k.word (4 + 8 * slot + j)).toNat).flatten

/-- Is the hash of a slot programmed. -/
def hashed (k : Kiln) (slot : Nat) : Bool := (List.range 8).any fun j => (k.live (4 + 8 * slot + j)).isSome

/-- Why OTP_PROG refuses a word, 0 when it does not (R456). -/
def progReason (k : Kiln) (i : Nat) (w : Word) : Nat :=
  let fw (s : Nat) : Bool := k.role s 0
  if 4 ≤ (k.gens i).length then 1
  else if i < 64 && i ≠ 2 then 2
  else if i = 2 && (k.word 2 &&& ~~~w) ≠ 0 then 3
  else if i = 2 && ((List.range 4).any fun s => fw s && !k.revoked s) &&
      (List.range 4).all fun s => !(fw s) || w.bit s then 4
  else 0

/-- An OTP write begins: the next generation counts as programmed, its MARK is not yet. -/
def progBegin (k : Kiln) (i : Nat) (w : Word) : Kiln :=
  k.setGens i (k.gens i ++ [{ data := w, valid := false }])

/-- Marks the last generation of a list. -/
def markLast : List OtpGen → List OtpGen
  | [] => []
  | [g] => [{ g with valid := true }]
  | g :: h :: l => g :: markLast (h :: l)

/-- An OTP write ends with its MARK. -/
def progEnd (k : Kiln) (i : Nat) : Kiln := k.setGens i (markLast (k.gens i))

/-- Bits of a rollback counter are programmed up to a target; it never falls. -/
def advance (k : Kiln) (n target : Nat) : Kiln :=
  if k.counter n < target then { k with rb := Tab.set (fun _ => 0) k.rb n target } else k

/-! ### Segments (R450, R451) -/

/-- The header and digest of a segment image, as it would run. -/
def segmentOf (img : List Byte) : Segment :=
  { version := leAt img 8 4, rb := leAt img 6 1, digest := slice img 24 64, debugOnly := (leAt img 7 1).testBit 0 }

/-- The first check of Table 16.3 that a segment image fails, 0 when it passes all. `n` is the segment it is for. -/
def segReason (k : Kiln) (n : Nat) (img : List Byte) : Nat :=
  let key := leAt img 5 1
  let len := leAt img 16 8
  let dbg := (leAt img 7 1).testBit 0
  let pub := Config.slotKey key
  let body := img.drop 256
  if leAt img 0 4 ≠ 0x524F4C59 || leAt img 4 1 ≠ n || 3 < key || 64 < leAt img 6 1 || 1 < leAt img 7 1 ||
      !zeroAt img 13 3 || !zeroAt img 152 104 || len = 0 || 8388608 < len || body.length ≠ len then 1
  else if 0x21 < leAt img 12 1 then 2
  else if Crypto.sha512 pub ≠ k.keyHash key then 3
  else if k.revoked key || !k.role key 0 || (dbg && !k.role key 1) then 4
  else if !Crypto.verify pub (Crypto.sha512 (slice img 0 88)) (slice img 88 64) then 5
  else if Crypto.sha512 body ≠ slice img 24 64 then 6
  else if leAt img 6 1 < k.counter n then 7
  else if dbg && k.debug ≠ 2 then 8
  else 0

/-- A segment runs. -/
def run (k : Kiln) (n : Nat) (g : Option Segment) : Kiln := { k with segs := Tab.set (fun _ => none) k.segs n g }

/-- The image of a segment in the flash. -/
def image (k : Kiln) (n : Nat) : List Byte := Tab.get (fun _ => []) k.flash n

/-- Writes a segment to the flash. -/
def setImage (k : Kiln) (n : Nat) (img : List Byte) : Kiln := { k with flash := Tab.set (fun _ => []) k.flash n img }

/-- One segment at boot: it runs when it passes its checks, and the first failure is kept in BOOT_ERR. -/
def bootSeg (k : Kiln) (n : Nat) : Kiln :=
  let r := k.segReason n (k.image n)
  if r = 0 then k.run n (some (segmentOf (k.image n)))
  else { k.run n none with bootErr := if k.bootErr = 0 then r else k.bootErr }

/-- The boot chain in the order of Table 16.1; when segment 0 fails, the ROM enters recovery instead (R449, R452). -/
def boot (k : Kiln) : Kiln :=
  let k := { k with segs := [], bootErr := 0, recovery := false }
  let k := k.bootSeg 0
  if (k.seg 0).isNone then { k with recovery := true } else [5, 1, 2, 3, 4].foldl bootSeg k

/-- Recovery installs one segment of a bundle when it passes, and keeps the reason of the first one refused (R452). -/
def install (k : Kiln) (img : List Byte) : Kiln :=
  let n := leAt img 4 1
  let r := if 5 < n then 1 else k.segReason n img
  if r = 0 then k.setImage n img else { k with rcvReason := if k.rcvReason = 0 then r else k.rcvReason }

/-- Recovery installs every segment of a bundle that passes, and reports the first one refused (R452). -/
def recover (k : Kiln) (segs : List (List Byte)) : Kiln :=
  let k := segs.foldl install { k with rcvReason := 0 }
  let state := if k.rcvReason = 0 && !segs.isEmpty then 2 else 3
  { k.boot with rcvState := state, rcvReason := k.rcvReason }

/-! ### Identity and nonce -/

/-- The device secret: all ones once RETIRED (R466). -/
def secret (k : Kiln) : List Byte := if k.retired then List.replicate 32 0xFF else slice Config.deviceSecret 0 32

/-- KLN_ID_PUB: the identity public key, zero in RETIRED (R458, R471). -/
def idPub (k : Kiln) : List Byte :=
  if k.retired then List.replicate 32 0
  else Crypto.publicKey ((Crypto.sha512 (0x49 :: k.secret)).take 32)

/-- A new nonce of 32 bytes from the random source; it replaces any outstanding one (R463). -/
def drawNonce (k : Kiln) (draw : Nat) : Kiln :=
  { k with nonce := (List.range 32).map (Config.freeByte draw), nonceOut := true }

/-! ### Tokens (R463–R467) -/

/-- The token registers as 128 bytes. -/
def tokenBytes (k : Kiln) : List Byte :=
  ((List.range 16).map fun i => toLe 8 (Tab.get (fun _ => (0 : Word)) k.tok i).toNat).flatten

/-- How a token is judged (Table 16.8); `staged`: a live update is staged. -/
def tokenResult (k : Kiln) (staged : Bool) (t : List Byte) : Nat :=
  let kind := leAt t 4 1
  let value := leAt t 5 1
  let key := leAt t 6 1
  if leAt t 0 4 ≠ 0x4B544244 || kind = 0 || 2 < kind || 2 < value || 3 < key || !zeroAt t 7 1 || !zeroAt t 48 16 then 7
  else if !k.nonceOut || slice t 16 32 ≠ k.nonce then 4
  else if leAt t 8 8 ≠ (k.word 3).toNat then 3
  else if k.revoked key || !k.hashed key || !k.role key kind then 5
  else if !Crypto.verify (Config.slotKey key) (Crypto.sha512 (slice t 0 64)) (slice t 64 64) then 2
  else if kind = 1 && value = 2 && value > k.debug && (k.word 0).fld 1 0 ≠ 1 then 6
  else if kind = 2 && (staged || k.retired || (value < 2 && 4 ≤ (k.gens 0).length)) then 6
  else 1

/-- A debug level takes effect; INVASIVE ends every secured session and closes attestation until the next cold reset
(R464, R465). -/
def setLevel (k : Kiln) (v : Nat) : Kiln :=
  if v = 2 then { k with debug := 2, sessions := [], closed := true } else { k with debug := v }

/-- KLN_DBG_CLOSE (R464). -/
def closeDebug (k : Kiln) : Kiln := { k with debug := 0 }

/-- The RETIRED fuse is programmed (R466): the identity key is gone, and with it the secured sessions. -/
def retire (k : Kiln) : Kiln := { k with retired := true, sessions := [] }

/-! ### Measurements (R460) -/

/-- Content of a measurement block (Table 16.5). -/
def block (k : Kiln) (staged : Bool) (i : Nat) : List Byte :=
  if 1 ≤ i && i ≤ 6 then
    match k.seg (i - 1) with
    | some g => g.digest ++ toLe 4 g.version ++ toLe 1 g.rb
    | none => []
  else if i = 7 then
    toLe 1 k.lifecycle ++ toLe 1 k.debug ++ toLe 1 (if k.closed then 1 else 0) ++ toLe 1 (if staged then 1 else 0)
  else if i = 8 then Crypto.sha512 (((List.range 256).map fun j => toLe 8 (k.word j).toNat).flatten)
  else if i = 9 then ((List.range 6).map fun j => toLe 1 (k.counter j)).flatten
  else if i = 10 then toLe 8 (k.word 3).toNat ++ toLe 1 0x21
  else []

/-- KLN_STATE (Table 16.12). -/
def stateWord (k : Kiln) (staged : Bool) : Nat :=
  k.lifecycle + 4 * k.debug + (if k.closed then 16 else 0) + (if staged then 32 else 0) +
  (List.range 6).foldl (fun a n => a + (if (k.seg n).isSome then 2 ^ (8 + n) else 0)) 0 + k.bootErr * 2 ^ 16

end Kiln
end Sys2Proof.Machine
end

