-- ==== Sys2Proof/Machine/Gate.lean ====
section
/-!
DEFINITION. The maintenance gate (R473–R483): judgement of a request, its start, its queue, its refusal and its end.
-/
namespace Sys2Proof.Machine

/-! ### The conflict matrix (Table 17.2) -/

/-- The half in which the resource of an activity lies (R475). -/
def resHalf (act res : Nat) : Option Nat :=
  match act with
  | 1 => some (res / 8)
  | 2 => some (res / 16)
  | 3 => some (res / 8)
  | 4 => some (res / 16)
  | 5 => some res
  | 7 =>
    if res < 16 then some (res / 8)
    else if res < 24 then some ((res - 16) / 4)
    else if res < 32 then some ((res - 24) / 4)
    else if res < 36 then some ((res - 32) / 2)
    else if res < 38 then some (res - 36)
    else if res < 42 then some ((res - 38) / 2)
    else if res < 43 then none
    else if res < 49 then some ((res - 43) % 2)
    else none
  | 9 => some (res % 2)
  | 10 => some (res / 96)
  | 11 => some (res / 96)
  | 12 => if res < 2 then some res else none
  | 15 => some (if res < 32 then res / 16 else (res - 32) / 8)
  | _ => none

/-- The domain that holds the resource of an activity (rule D of R475). -/
def resDomain (act res : Nat) : Option Nat :=
  match act with
  | 1 => some (16 + res / 2)
  | 4 => some (38 + res / 8)
  | 10 => some (res / 12)
  | 11 => some (res / 12)
  | _ => none

/-- Rules of Table 17.2. -/
inductive Rule where
  | free | same | half | port | domain | segment | never
  deriving DecidableEq, Repr

/-- The upper half of the matrix. -/
def ruleAt (a b : Nat) : Rule :=
  match a, b with
  | 1, 1 => .half | 1, 5 => .half | 1, 7 => .domain | 1, 8 => .segment
  | 2, 2 => .half | 2, 5 => .half | 2, 8 => .segment | 2, 15 => .same
  | 3, 3 => .half | 3, 5 => .half | 3, 8 => .segment | 3, 15 => .same
  | 4, 4 => .port | 4, 7 => .domain | 4, 8 => .segment
  | 5, 5 => .never | 5, 6 => .never | 5, 7 => .half | 5, 15 => .half
  | 6, 6 => .never | 6, 11 => .never
  | 7, 7 => .never | 7, 10 => .domain | 7, 11 => .domain
  | 8, 8 => .never | 8, 14 => .segment | 8, 15 => .segment
  | 10, 10 => .same | 10, 11 => .same | 11, 11 => .same
  | 12, 12 => .never | 13, 13 => .never | 14, 14 => .same | 15, 15 => .never
  | _, _ => .free

/-- The resource of a channel retirement in the numbering of activities 2 and 3. -/
def chanRes (act res : Nat) : Nat × Nat := if act = 15 then (if res < 32 then (2, res) else (3, res - 32)) else (act, res)

/-- May `a` and `b` not run together, `a` having the lower code. -/
def clash (a b : Req) : Bool :=
  match ruleAt a.act b.act with
  | .free => false
  | .never => true
  | .same => if b.act = 15 then chanRes a.act a.res = chanRes b.act b.res else a.res = b.res
  | .half => (resHalf a.act a.res).isSome && resHalf a.act a.res = resHalf b.act b.res
  | .port => a.res / 4 = b.res / 4
  | .domain =>
    if b.act = 7 then resDomain a.act a.res = some b.res else resDomain b.act b.res = some a.res
  | .segment =>
    let seg := if a.act = 8 then a.res else b.res
    let other := if a.act = 8 then b.act else a.act
    (seg = 5 && other ≤ 3) || (seg = 4 && other = 4) || (seg = 2 && other = 14) || (seg = 3 && other = 15)

/-- May two activities not run together (R475). -/
def conflicts (a b : Req) : Bool := if a.act ≤ b.act then clash a b else clash b a

/-! ### Refusals by state (Table 17.3) -/

namespace Dp

/-- Does a range of device memory have a byte in tier L channel `c`, or in peat channel `c - 32`. -/
def inChannel (d : Dp) (c a n : Nat) : Bool :=
  0 < n && (List.range ((a + n - 1) / 4096 + 1 - a / 4096)).any fun k =>
    let x := (a / 4096 + k) * 4096
    match tierOf x with
    | some 1 => (d.place x).2 = c
    | some 2 => (d.place x).2 + 32 = c
    | _ => false

/-- Does a range of a space have a byte in a channel. -/
def spanInChannel (d : Dp) (c space : Nat) (lo hi : Int) : Bool :=
  lo < hi && (List.range (((hi - 1) / 4096 - lo / 4096 + 1).toNat)).any fun k =>
    match d.translate space ((lo / 4096 + k).toNat * 4096) false with
    | .ok (.dev a) => d.inChannel c a 1
    | _ => false

/-- Does a sheaf that counts have a shadow buffer, a region or a journal line in a channel. -/
def sheafInChannel (d : Dp) (c : Nat) : Bool :=
  d.journal.sheaves.any fun (id, s) => s.state.counted &&
    (d.inChannel c s.shadowH (s.sizeH * 4096) || d.inChannel c s.shadowL (s.sizeL * 4096) ||
     (s.actions.any fun a => d.spanInChannel c s.space a.dva (a.dva + a.len : Nat)) ||
     d.inChannel c (0x020000001000 + 64 * id) 64 ||
     d.inChannel c (0x020000100000 + 2048 * s.slot) 2048 ||
     (s.state ≠ .opened && d.inChannel c (0x020000200000 + 64 * (s.seq % logSize)) 64))

/-- Is an UPDATE running whose arrays have a line of a tier L channel's Flail engine (R252). -/
def updateInChannel (d : Dp) (c : Nat) : Bool :=
  d.rings.any fun (_, r) => r.outst.any fun o =>
    o.op = 0x30 && updKind o.bytes ≠ 3 && (match o.phase with | .finished _ => false | _ => true) &&
    o.spans.any fun x => d.spanInChannel c o.space x.lo x.hi

/-- Is a BARRIER or REDUCE active in a group in which some member has a port as its only one that is up. -/
def onlyPath (d : Dp) (q : Nat) : Bool :=
  d.lnk.colls.any fun c => (c.op = 0x48 || c.op = 0x4C) && !c.ended &&
    c.members.any fun m => m ≠ d.me && d.upPorts (d.portsTo m c.group) = [q]

/-- Tillers of the module that are not retired. -/
def tillersLeft (d : Dp) : Nat := ((List.range 192).filter fun t => !(d.tiller t).retired).length

/-- Is the resource of a request retired, or being retired by the fault path. -/
def resRetired (d : Dp) (q : Req) : Bool :=
  match q.act with
  | 2 => d.isRetired .lch q.res
  | 3 => d.isRetired .pch q.res
  | 4 => d.isRetired .lane q.res
  | 10 => d.isRetired .tiller q.res
  | 15 => if q.res < 32 then d.isRetired .lch q.res else d.isRetired .pch (q.res - 32)
  | _ => false

end Dp

namespace State

/-- Why the OTP write of a request is refused, 0 when it is not (R456, R457); the spec gives no number for R457. -/
def otpReason (s : State) (q : Req) : Nat :=
  if q.res < 256 then
    if q.ch = .token then (if 4 ≤ (s.kiln.gens q.res).length then 1 else 0)
    else s.kiln.progReason q.res (BitVec.ofNat 64 (leAt q.bytes 0 8))
  else
    match s.kiln.seg (q.res - 256) with
    | some g => if q.param ≤ g.rb then 0 else 1 + Config.freeNat s.dp.draws 0 % 255
    | none => 1 + Config.freeNat s.dp.draws 0 % 255

/-- Does the state of the module refuse a request (Table 17.3). -/
def refusedByState (s : State) (q : Req) : Bool :=
  let d := s.dp
  let p := s.pwr
  d.resRetired q ||
  match q.act with
  | 1 => d.ash.hpcCopy.any fun x => x.1 / 64 = q.res
  | 4 => d.onlyPath (q.res / 4)
  | 5 =>
    (q.param ≠ 0 && p.req (1 - q.res) ≠ 0) || (p.heldAt q.res ≠ 0 && q.param < max (d.aclk q.res) (p.heldAt q.res))
  | 6 => p.req0 ≠ 0 || p.req1 ≠ 0
  | 7 =>
    -- which slices of the half hold a partial is left open: a free value
    16 ≤ q.res && q.res < 24 && q.param = 0 && !d.regionEmpty ((q.res - 16) / 4) &&
      Config.freeNat d.draws (q.res - 16) % 2 = 1
  | 8 => s.mnt.staged.isSome
  | 10 => d.tillersLeft ≤ 1
  | 11 => d.domOff.has (q.res / 12)
  | 13 => s.otpReason q ≠ 0
  | 15 => d.sheafInChannel q.res || (q.res < 32 && d.updateInChannel q.res)
  | _ => false

/-! ### Starts -/

/-- Takes every entry from a tiller, which receives no more until it is given back. -/
def grant (d : Dp) (t : Nat) : Dp :=
  let d := d.emptyTiller t
  d.setTiller t { d.tiller t with granted := true }

/-- Gives a tiller back. -/
def release (d : Dp) (t : Nat) : Dp := d.setTiller t { d.tiller t with granted := false }

/-- Tillers of a group. -/
def groupOf (g : Nat) : List Nat := (List.range 12).map (12 * g + ·)

/-- The lane of a recalibration leaves its port, or comes back (R473, R351). -/
def recalibrate (d : Dp) (lane : Nat) (on : Bool) : Dp :=
  let q := lane / 4
  let p := d.port q
  let b := 2 ^ (lane % 4)
  let recal := if on then p.recal ||| b else if p.recal.testBit (lane % 4) then p.recal - b else p.recal
  let d := d.setPort q { p with recal }
  if on then (d.portFall q).progressPod
  else if (p.state = 0 && p.fallen = false) || 2 ≤ p.state then (d.setPort q { d.port q with state := d.portMode q }).flushAll
  else d

/-- A peat channel is in retraining, or no longer (R36, R480). -/
def retrainPeat (d : Dp) (c : Nat) (on : Bool) : Dp :=
  { d with mem := { d.mem with retrainP := if on then d.mem.retrainP.add c else d.mem.retrainP.remove c } }

/-- The retraining of a peat channel is over: moves that waited for it go on. -/
def retrainedPeat (d : Dp) (c : Nat) : Dp :=
  let d := retrainPeat d c false
  d.restartAll (d.stalledOn (· = .retrain))

/-- What a granted activity does at its start (Tables 14.7 and 17.1). -/
def startEffect (s : State) (q : Req) : State :=
  match q.act with
  | 3 => { s with dp := retrainPeat s.dp q.res true }
  | 4 => { s with dp := recalibrate s.dp q.res true }
  | 5 => ({ s with pwr := s.pwr.setReq q.res q.param }).steer
  | 7 =>
    if q.param = 1 then
      if 38 ≤ q.res && q.res < 42 && s.dp.domOff.has q.res then
        let d : Dp := { s.dp with domOff := s.dp.domOff.remove q.res }
        { s with dp := (d.retrain (2 * (q.res - 38))).retrain (2 * (q.res - 38) + 1) }
      else s
    else if q.res < 16 && !s.dp.domOff.has q.res then { s with dp := (groupOf q.res).foldl grant s.dp }
    else s
  | 8 => { s with mnt := { s.mnt with staged := some (q.res, q.bytes), swapped := false } }
  | 10 => { s with dp := grant s.dp q.res }
  | 13 =>
    if q.res < 256 then { s with kiln := s.kiln.progBegin q.res (BitVec.ofNat 64 (leAt q.bytes 0 8)) } else s
  | 14 => { s with dp := s.dp.drainStart q.res }
  | _ => s

/-- A request's channel learns that it has been queued. -/
def toldQueued (s : State) (q : Req) : State :=
  match q.ch with
  | .domain => { s with mnt := { s.mnt with domNum := q.res, domRes := 2 } }
  | .otp => { s with mnt := { s.mnt with otpRes := 2, otpReason := 0 } }
  | _ => s

/-- The result word of a MAINT (R485). -/
def maintResult (num pos : Nat) : Nat := num + pos * 2 ^ 32

/-- A MAINT with ASYNC = 1 completes once its activity has started or been queued (R485). -/
def asyncDone (d : Dp) (q : Req) (pos : Nat) : Dp :=
  match q.ch with
  | .maint uid _ true => d.finished uid { status := stOK, result := maintResult q.num pos }
  | _ => d

/-- Sets the result a MAINT with ASYNC = 0 will report for its queue position. -/
def keepPos (d : Dp) (q : Req) (pos : Nat) : Dp :=
  match q.ch with
  | .maint uid _ false => d.modUid uid fun o => { o with count := pos }
  | _ => d

/-- A granted request starts (R474). -/
def start (s : State) (q : Req) (queued : Bool) : State :=
  let s := { s with mnt := { s.mnt with running := s.mnt.running ++ [q] }, dp := s.dp.bump (Reg.mntCnt 0) }
  let s := if queued then s else { s.toldQueued q with dp := asyncDone s.dp q 0 }
  s.startEffect q

/-- Requests in the queue that count toward its 16 entries (R478). -/
def queued (s : State) : Nat := (s.mnt.queue.filter fun q => q.ch ≠ .hearth).length

/-- A refused request waits in the queue (R477). -/
def enqueue (s : State) (q : Req) : State :=
  let q := { q with since := s.dp.now }
  let s := { s with mnt := { s.mnt with queue := s.mnt.queue ++ [q] } }
  let pos := s.queued
  { s.toldQueued q with dp := keepPos (asyncDone (s.dp.bump (Reg.mntCnt 2)) q pos) q pos }

/-- A refusal is reported through the channel of its request (R476). -/
def refuse (s : State) (q : Req) : State :=
  let d := s.dp.bump (Reg.mntCnt 1)
  match q.ch with
  | .maint uid _ _ => { s with dp := d.finished uid { status := stConflict, result := q.num } }
  | .clk h =>
    let w := (d.reg (Reg.clkHalf h)).put 1 0 (d.aclk h)
    let r := (d.regs.commit (Reg.clkHalf h) w).stage (Reg.clkHalf h) w
    { s with dp := ({ d with regs := r }).setStat Reg.clkStat 1 }
  | .idle =>
    let w : Word := if s.pwr.idle then 1 else 0
    let r := (d.regs.commit Reg.pwrCtl w).stage Reg.pwrCtl w
    { s with dp := ({ d with regs := r }).setStat Reg.pwrStat 2 }
  | .domain => { s with dp := d, mnt := { s.mnt with domNum := q.res, domRes := 3 } }
  | .otp => { s with dp := d, mnt := { s.mnt with otpRes := 3, otpReason := 0 } }
  | .pldm => { s with dp := d.answer .pldmRefused }
  | _ => { s with dp := d }

/-! ### Ends -/

/-- An activity ends or leaves the queue: MAINT_DONE, the class 12 entry, MNT_LAST, and its channel (R479). -/
def report (s : State) (q : Req) (status reason : Nat) : State :=
  let d := s.dp.notice 9 q.act none (toLe 8 s.dp.now ++ toLe 4 q.num ++ toLe 1 status)
  let d := d.ashLog { time := d.now, cls := 12, code := q.act, data := q.num }
  let mnt := { s.mnt with lastReq := q.num, lastAct := q.act, lastStatus := status, lastReason := reason }
  let s := { s with dp := d, mnt }
  match q.ch with
  | .maint uid _ false =>
    let pos := (s.dp.findOutst uid).elim 0 fun x => x.2.count
    let detail := if status = stDenied then 4 else 0
    { s with dp := s.dp.finished uid { status, detail, result := maintResult q.num pos } }
  | .domain => { s with mnt := { s.mnt with domNum := q.res, domRes := if status = stOK then 1 else 3 } }
  | .otp => { s with mnt := { s.mnt with otpRes := if status = stOK then 1 else 3, otpReason := 0 } }
  | .pldm => { s with dp := s.dp.answer (if status = stDenied then .pldmEnd reason else if status = stOK then .pldmEnd 0 else .pldmRefused) }
  | _ => s

/-- The reference sensor of a unit that activities 1 to 3 retrain (R478). -/
def refSensor (act unit : Nat) : Nat :=
  match act with
  | 1 => 32 + unit / 4
  | 2 => if unit < 16 then 38 else 39
  | _ => if unit < 8 then 38 else 39

/-- The unit of a retraining is trained at the present reading of its sensor. -/
def trainedNow (s : State) (act unit : Nat) : State :=
  let v := s.pwr.sensor (refSensor act unit)
  { s with pwr := { s.pwr with trained := Tab.set (fun _ => 0) s.pwr.trained (act * 64 + unit) v } }

/-- The RW fields of a tiller's registers return to their reset values (R414). -/
def resetTlr (d : Dp) (t : Nat) : Dp :=
  let off := Reg.tlrCtl t
  { d with regs := (d.regs.stage off (regReset off)).commit off (regReset off) }

/-- A domain is off (Table 14.7). Of a granary slice pair, the dirty lines have been written back: what they held before is
gone. -/
def domainOff (d : Dp) (k : Nat) : Dp :=
  let d : Dp := { d with domOff := d.domOff.add k }
  if k < 16 then (((groupOf k).foldl release d)).haltStranded
  else if 16 ≤ k && k < 24 then
    { d with mem := { d.mem with past := Tab.keep (fun line _ => (d.place (128 * line)).2 / 2 ≠ k - 16) d.mem.past } }
  else if 38 ≤ k && k < 42 then ((d.portFall (2 * (k - 38))).portFall (2 * (k - 38) + 1)).progressPod
  else d

/-- A domain is on (Table 14.7): a port still training by now has failed to. -/
def domainOn (d : Dp) (k : Nat) : Dp :=
  let was := d.domOff.has k
  let d : Dp := { d with domOff := d.domOff.remove k }
  if k < 16 then (if was then (groupOf k).foldl resetTlr d else d)
  else if 38 ≤ k && k < 42 then
    [2 * (k - 38), 2 * (k - 38) + 1].foldl (fun (d : Dp) q =>
      if (d.port q).state = 1 then d.setPort q { d.port q with state := 0 } else d) d
  else d

/-- A tiller is reinstated with its banks, and its events are forgotten (R482). -/
def reinstate (d : Dp) (t : Nat) : Dp :=
  if !(d.tiller t).retired then d
  else
    let d := d.setTiller t { d.tiller t with retired := false, bankRet := [] }
    (List.range 16).foldl (fun (d : Dp) b => d.setEvents .bank (t * 16 + b) []) (d.setEvents .tiller t [])

/-- What an activity has done once it ends by itself. -/
def endEffect (s : State) (q : Req) : State :=
  match q.act with
  | 1 => s.trainedNow 1 q.res
  | 2 => s.trainedNow 2 q.res
  | 3 => { s.trainedNow 3 q.res with dp := retrainedPeat s.dp q.res }
  | 4 => { s with dp := recalibrate s.dp q.res false }
  | 6 => { s with pwr := { s.pwr with idle := q.param = 1 } }
  | 7 => { s with dp := if q.param = 1 then domainOn s.dp q.res else domainOff s.dp q.res }
  | 8 =>
    match s.mnt.staged with
    | some (n, img) => { s with kiln := s.kiln.setImage n img, mnt := { s.mnt with staged := none, swapped := false } }
    | none => s
  | 9 => { s with dp := s.dp.bump (Reg.mntCnt 4) }
  | 10 => { s with dp := (release s.dp q.res).retireTiller q.res 0 }
  | 11 => { s with dp := reinstate s.dp q.res }
  | 13 =>
    if q.res < 256 then { s with kiln := s.kiln.progEnd q.res }
    else { s with kiln := s.kiln.advance (q.res - 256) q.param }
  | 15 => { s with dp := if q.res < 32 then s.dp.retireChannel false q.res 0 else s.dp.retireChannel true (q.res - 32) 0 }
  | _ => s

/-- What an activity that is broken off leaves: its unit as it was before it started (R520). -/
def stopEffect (s : State) (q : Req) : State :=
  match q.act with
  | 3 => { s with dp := retrainedPeat s.dp q.res }
  | 4 => { s with dp := recalibrate s.dp q.res false }
  | 7 => if q.res < 16 then { s with dp := (groupOf q.res).foldl release s.dp } else s
  | 5 =>
    let back := if s.pwr.forced q.res ≠ 0 then 0 else s.dp.aclk q.res
    { s with pwr := { s.pwr.setReq q.res back with epochs := s.pwr.epochs.filter fun e => e.1 ≠ q.res || back ≠ s.dp.aclk q.res } }
  | 8 => { s with mnt := { s.mnt with staged := none, swapped := false } }
  | 10 => { s with dp := release s.dp q.res }
  | 14 => { s with dp := s.dp.drainOver q.res stCancelled }
  | _ => s

/-- A running activity leaves the gate. -/
def leave (s : State) (num : Nat) : State :=
  { s with mnt := { s.mnt with running := s.mnt.running.filter fun q => q.num ≠ num } }

/-! ### Judgement -/

/-- Would a request start now (R474): neither the state nor a running activity refuses it. -/
def grants (s : State) (q : Req) : Bool := !s.refusedByState q && !(s.mnt.running.any (conflicts q))

/-- The queue is scanned in order of arrival: what would start now starts, and what names a retired resource leaves
(R477). -/
def scanList (s : State) : List Req → State
  | [] => s
  | q :: rest =>
    let out (s : State) : State := { s with mnt := { s.mnt with queue := s.mnt.queue.filter fun x => x.num ≠ q.num } }
    let bad := if q.act = 8 then s.kiln.segReason q.res q.bytes else 0
    if s.dp.resRetired q then scanList ((out s).report q stConflict 0) rest
    else if bad ≠ 0 then scanList ((out s).report q stDenied bad) rest
    else if s.grants q then scanList ((out s).start q true) rest
    else scanList s rest

/-- A scan of the queue. -/
def scan (s : State) : State := s.scanList s.mnt.queue

/-- Judges a request that has reached the gate: it starts, is queued, or is refused (R474–R477). -/
def letIn (s : State) (q : Req) : State :=
  if s.grants q then s.start q false
  else if q.queue && !s.dp.resRetired q && (q.ch = .hearth || s.queued < 16) then s.enqueue q
  else s.refuse q

/-- The number the next request takes, and the one after it (R474). -/
def nextNum (n : Nat) : Nat := if (n + 1) % 2 ^ 32 = 0 then 1 else (n + 1) % 2 ^ 32

/-- A request that is judged as it arrives. -/
def admitNow (s : State) (q : Req) : State :=
  let n := s.mnt.next
  ({ s with mnt := { s.mnt with next := nextNum n } }).letIn { q with num := n }

/-- Judges the oldest request that waits for an activity on a resource; a firmware segment passes the security gate
first (R474). With none waiting nothing happens. -/
def judge (s : State) (act res : Nat) : State :=
  match s.mnt.arrived.find? fun q => q.act = act && q.res = res with
  | none => s
  | some q =>
    let s := { s with mnt := { s.mnt with arrived := s.mnt.arrived.filter fun x => x.num ≠ q.num } }
    if act = 8 then
      let r := s.kiln.segReason res q.bytes
      if r ≠ 0 then ({ s with dp := asyncDone s.dp q 0 }).report q stDenied r else s.letIn q
    else s.letIn q

/-- A request reaches the gate and takes its number (R474). -/
def submit (s : State) (q : Req) : State :=
  let n := s.mnt.next
  { s with mnt := { s.mnt with next := nextNum n, arrived := s.mnt.arrived ++ [{ q with num := n }] } }

/-- Requests that the data plane has made reach the gate, oldest first. -/
def absorb (s : State) : State :=
  let l := s.dp.asks
  if l.isEmpty then s else l.foldl submit { s with dp := { s.dp with asks := [] } }

/-- Is the patrol scrub of a tier and half paused (R478): by another activity on its tier in its half, or while the half
is below FULL. -/
def scrubPaused (s : State) (res : Nat) : Bool :=
  let tier := res / 2
  let onTier (q : Req) : Bool :=
    (tier = 0 && q.act = 1) || (tier = 1 && (q.act = 2 || (q.act = 15 && q.res < 32))) ||
    (tier = 2 && (q.act = 3 || (q.act = 15 && 32 ≤ q.res)))
  s.dp.aclk (res % 2) ≠ 0 || s.mnt.running.any fun q => onTier q && resHalf q.act q.res = some (res % 2)

/-- Has Gleaner of half `h` work that comes before a snapshot drain (R35): of a stalled stream, or a PROMOTE or DEMOTE. -/
def gleanerMoves (s : State) (h : Nat) : Bool := s.dp.gleanerBusy h s.dp.nextUid

/-- The half whose Gleaners drain the image of a request: that of the ring that asked (DEDUCED, log entry 149). -/
def drainHalf (s : State) (base : Nat) : Nat :=
  ((s.dp.locks.find? fun l => l.base = base).bind (·.drain)).elim 0 fun t => s.dp.stokerHalf t.ring

/-- Has Gleaner of half `h` work that comes before patrol scrub (R35). -/
def gleanerDrains (s : State) (h : Nat) : Bool :=
  s.gleanerMoves h || s.mnt.running.any fun q => q.act = 14 && s.drainHalf q.res = h

/-- May a running activity end now: a clock change once its half runs at its goal, a drain once its transfer has
ended and Gleaner has served what comes before it, a firmware update once the segment has been swapped in, a scrub pass while
it is not paused and Gleaner has nothing before it (R35). -/
def mayEnd (s : State) (q : Req) : Bool :=
  match q.act with
  | 5 => s.dp.aclk q.res = s.pwr.goal q.res && !(s.pwr.epochs.any fun e => e.1 = q.res)
  | 8 => s.mnt.swapped
  | 9 => !s.scrubPaused q.res && !s.gleanerDrains (q.res % 2)
  | 14 => !s.gleanerMoves (s.drainHalf q.res) && (s.dp.locks.find? fun l => l.base = q.res).elim true fun l => l.ended.isSome
  | _ => true

/-- An activity ends by itself (R479), and the queue is scanned. -/
def activityEnd (s : State) (num : Nat) : State :=
  match s.mnt.running.find? fun q => q.num = num with
  | none => s
  | some q =>
    if !s.mayEnd q then s
    else
      let s := s.leave num
      if q.act = 14 then
        let status := ((s.dp.locks.find? fun l => l.base = q.res).bind (·.ended)).getD stCancelled
        ((({ s with dp := s.dp.drainOver q.res status }).report q status 0).scan).absorb
      else (((s.endEffect q).report q stOK 0).scan).absorb

/-- A running activity is broken off with a status. -/
def breakOff (s : State) (status : Nat) (q : Req) : State := ((s.leave q.num).stopEffect q).report q status 0

/-- A request leaves the queue, or the gate's entrance, with a status. -/
def withdraw (s : State) (status : Nat) (q : Req) : State :=
  let keep (l : List Req) : List Req := l.filter fun x => x.num ≠ q.num
  ({ s with mnt := { s.mnt with queue := keep s.mnt.queue, arrived := keep s.mnt.arrived } }).report q status 0

/-- Has the fault path retired the resource of a running activity (R487): a reinstatement loses its tiller when the tiller
was in service before the change. -/
def lostResource (s old : State) (q : Req) : Bool :=
  s.dp.resRetired q || (q.act = 11 && !old.dp.isRetired .tiller q.res && s.dp.isRetired .tiller q.res)

/-- What follows a change of the data plane at the gate: requests it made arrive; activities whose resource the fault
path has retired end with CONFLICT and the queue is scanned (R477, R487); drains of images that are no longer locked
end (R394). -/
def settle (old s : State) : State :=
  let s := s.absorb
  let s := if s.dp.regs.cntVal (Reg.ashCnt 6) = old.dp.regs.cntVal (Reg.ashCnt 6) then s
    else ((s.mnt.running.filter (s.lostResource old)).foldl (breakOff · stConflict) s).scan
  (s.mnt.running.filter fun q => q.act = 14 && !(s.dp.locks.any fun l => l.base = q.res)).foldl (breakOff · stCancelled) s

end State
end Sys2Proof.Machine
end

