-- ==== Sys2Proof/Machine/PowerCmds.lean ====
section
/-!
DEFINITION. Supplies, clocks, temperatures and the fatal events of the board (R407–R412, R488–R509), as shared
operations.
-/
namespace Sys2Proof.Machine
namespace State

/-- A change of the data plane by an event of the board: what it would write to the host is not written while the host
cannot be reached. -/
def event (s : State) (f : Dp → Dp) : State :=
  let d := f s.dp
  if s.hostLive then { s with dp := d }
  else
    let o := s.dp
    { s with dp := { d with nqs := o.nqs, cqs := o.cqs, vecs := o.vecs, outs := o.outs, mem := { d.mem with host := o.mem.host, atc := o.mem.atc, pageReqs := o.mem.pageReqs } } }

/-- WAKE# and PME_Status follow an ash-log entry of class 6 or 7 in D3hot and in D3cold (R506). -/
def wakeCheck (old s : State) : State :=
  let d := s.dp
  let news := d.ash.head ≠ old.dp.ash.head
  let cls := (Tab.get (fun _ => none) d.ash.entries ((d.ash.head + 4095) % 4096)).elim 0 (·.cls)
  if news && (s.pwr.d3hot || !s.pwr.main) && (cls = 6 || cls = 7) then
    { s with pwr := { s.pwr with wake := true, pme := true } }
  else s

/-- A FATAL event (R428). -/
def fatal (s : State) (cause : Nat) : State := wakeCheck s (s.event fun d => d.fatal cause)

/-! ### Loss of power (Tables 14.9 and 18.3) -/

/-- The host's own memory, and what has reached the host already, are no part of the module: no reset and no loss of
power touches them. -/
def hostSide (d : Dp) : Dp :=
  { mem := { host := d.mem.host, poison := d.mem.poison.filter fun e => 2 ^ 53 ≤ e.1 }, outs := d.outs, draws := d.draws,
    nextUid := d.nextUid }

/-- What is left of the data plane without the main supply: the ash log and the time, in Hearth. -/
def darkDp (d : Dp) : Dp :=
  let a := d.ash
  let ash : Ash := { entries := a.entries, head := a.head, present := a.present, frozen := a.frozen, fatalIdx := a.fatalIdx }
  { hostSide d with now := d.now, ash, resps := d.resps }

/-- Kiln without power: the level, the nonce and the sessions are gone; fuses and flash stay. -/
def darkKiln (k : Kiln) : Kiln :=
  { words := k.words, rb := k.rb, retired := k.retired, closed := k.closed, flash := k.flash, chain := k.chain }

/-- An OTP write under way completes on Hearth's supply (Table 18.13). -/
def finishOtp (s : State) : State :=
  (s.mnt.running.filter fun q => q.act = 13).foldl (fun s q => s.endEffect q) s

/-- The module loses its main supply: Hearth stays while AUX_12V is present. -/
def powerLoss (s : State) (vin : Nat) : State :=
  let s := if s.pwr.aux then s.finishOtp else s
  let p := s.pwr
  let d := darkDp s.dp
  { s with
    dp := if p.aux then d else { d with ash := {} }
    kiln := darkKiln s.kiln
    mnt := {}
    dbg := {}
    pwr := { aux := p.aux, hearth := p.aux && p.hearth, supply := .off, vin, perst := true, refOk := p.refOk,
             lock := p.lock, refLost := p.refLost, link := false, memActive := false, trip := p.trip, tripOpen := p.tripOpen,
             wake := p.wake && p.aux, pme := p.pme && p.aux, i3c := if p.aux then p.i3c else 0,
             eid := if p.aux then p.eid else 0,
             sensors := p.sensors.filter fun e => 36 ≤ e.1 } }

/-- VIN rises through 45.0 V: precharge starts, unless the switch has been opened by a trip (R494, R509). -/
def vinRise (s : State) (vin : Nat) : State :=
  if s.pwr.supply = .off && 4500 ≤ vin && vin ≤ 6200 then
    if s.pwr.tripOpen then { s with pwr := { s.pwr with vin } }
    else { s with pwr := { s.pwr with vin, supply := .precharge, fresh := true } }
  else s

/-- The capacitance is charged: the switch closes and the main conversion starts. -/
def prechargeDone (s : State) : State :=
  if s.pwr.supply = .precharge then { s with pwr := { s.pwr with supply := .on } } else s

/-- Hearth comes out of reset on its first supply, and the boot ROM verifies segment 0; AUX_12V may be that supply. -/
def hearthStart (s : State) (aux : Bool) : State :=
  let s := { s with pwr := { s.pwr with aux := s.pwr.aux || aux } }
  if s.pwr.hearth || (!s.pwr.aux && s.pwr.supply = .off) then s
  else { s with pwr := { s.pwr with hearth := true }, kiln := { s.kiln with bootErr := 0 }.bootSeg 0 }

/-- AUX_12V goes: with no main supply Hearth loses power, and with it the ash log (R495). -/
def auxLoss (s : State) : State :=
  let s := { s with pwr := { s.pwr with aux := false } }
  if s.pwr.supply ≠ .off then s
  else
    { s with dp := { s.dp with ash := {}, resps := [] }, mnt := {},
             pwr := { s.pwr with hearth := false, wake := false, pme := false, i3c := 0, eid := 0, sensors := [] },
             kiln := { s.kiln with segs := [] } }

/-- VIN out of its operating range for 1 ms while running (R492). -/
def vinOut (s : State) (vin : Nat) : State :=
  if s.pwr.main && (vin < 4400 || 5900 < vin) then ({ s with pwr := { s.pwr with vin } }).fatal 6 else s

/-- VIN collapses or overshoots: the switch opens (R492). -/
def vinCollapse (s : State) (vin : Nat) : State :=
  let old := s
  if s.pwr.supply ≠ .off && (vin < 4000 || 6200 < vin) then
    let s := if s.pwr.aux || s.pwr.hearth then s.event (·.fatal 6) else s
    wakeCheck old (s.powerLoss vin)
  else s

/-- More than 80 A for 10 µs: FATAL, and the switch opens (R493). -/
def overcurrent (s : State) : State := if s.pwr.main then (s.fatal 6).powerLoss s.pwr.vin else s

/-! ### The reference clock (R407) -/

/-- The reference is lost: held over, FATAL, and the links go down until a cold reset. -/
def referenceLost (s : State) : State :=
  if !s.pwr.refOk then s
  else
    let s := { s with pwr := { s.pwr with refOk := false, lock := false } }
    if !s.pwr.main then s
    else
      let s := s.fatal 1
      let d := (List.range 8).foldl (fun (d : Dp) q => d.setPort q { d.port q with state := 0, preempt := false }) s.dp
      let d := (List.range 8).foldl (fun (d : Dp) q => d.resendPort q) d
      { s with dp := d.checkPeers.progressPod, pwr := { s.pwr with refLost := true, link := false } }

/-- The root PLL locks to a valid reference. -/
def rootLock (s : State) : State :=
  if s.pwr.hearth then { s with pwr := { s.pwr with refOk := true, lock := true } } else s

/-! ### Forced clock changes (R412, R493, R509) -/

/-- A forced change is counted (R412). -/
def forcedCount (s : State) : State := { s with dp := s.dp.bump Reg.clkForceCnt }

/-- A THERMAL notice with its class 6 entry. -/
def thermalNotice (s : State) (sub sensor : Nat) (reading : Int) : State :=
  wakeCheck s (s.event fun d =>
    let d := d.ashLog { time := d.now, cls := 6, code := sub, resource := 0, data := unsigned 32 reading }
    d.notice 11 sub none (toLe 8 d.now ++ toLe 2 sensor ++ toLe 2 (unsigned 16 reading)))

/-- Is a sensor's group being recalibrated: it then reports its last value (R483). -/
def held (s : State) (sensor : Nat) : Bool :=
  let group := if sensor < 32 then sensor / 16 else 2
  s.mnt.running.any fun q => q.act = 12 && q.res = group

/-- A sensor's reading is taken. -/
def read (s : State) (n : Nat) (v : Int) : State :=
  if s.held n then s else { s with pwr := { s.pwr with sensors := Tab.set (fun _ => 0) s.pwr.sensors n v } }

/-- What a sensor reports: its last value while its group is recalibrated (R483). -/
def reading (s : State) (n : Nat) (v : Int) : Int := if s.held n then s.pwr.sensor n else v

/-- The input power the power cap gets: the last value while the voltage and current sensors are recalibrated (R483). -/
def wattsSeen (s : State) (watts : Nat) : Nat :=
  if s.mnt.running.any fun q => q.act = 12 && q.res = 3 then s.pwr.pin / 1000 else watts

/-- The setting a junction sensor forces. -/
def throttleOf (s : State) (n : Nat) : Nat := Tab.get (fun _ => 0) s.pwr.throttle n

/-- Writes the setting a junction sensor forces. -/
def setThrottle (s : State) (n v : Nat) : State :=
  { s with pwr := { s.pwr with throttle := Tab.set (fun _ => 0) s.pwr.throttle n v } }

/-- A junction sensor reaches 100 °C: its half is forced to SLOW8. -/
def throttleStart (s : State) (n : Nat) (v : Int) : State :=
  let v := s.reading n v
  if !s.pwr.main || v < 1600 || s.throttleOf n ≠ 0 then s
  else (((s.read n v).setThrottle n 1).forcedCount.steer).thermalNotice 0 n v

/-- 1 ms later it is still as hot: SLOW16. -/
def throttleEscalate (s : State) (n : Nat) (v : Int) : State :=
  let v := s.reading n v
  if v < 1600 || s.throttleOf n ≠ 1 then s
  else ((s.read n v).setThrottle n 2).forcedCount.steer

/-- 10 ms below 95 °C: the half is released. -/
def throttleEnd (s : State) (n : Nat) (v : Int) : State :=
  let v := s.reading n v
  if 1520 ≤ v || s.throttleOf n = 0 then s
  else ((((s.read n v).setThrottle n 0).thermalNotice 1 n v).scan).absorb

/-- A forced change for power is counted in CLK_FORCE_CNT and in PWR_CAP_CNT. -/
def powerCounted (s : State) : State := { s with dp := (s.dp.bump Reg.clkForceCnt).bump Reg.pwrCapCnt }

/-- A forced change for power: counted, and logged with class 6. -/
def powerForced (s : State) (code watts : Nat) : State :=
  let s := s.powerCounted
  wakeCheck s ({ s with dp := s.dp.ashLog { time := s.dp.now, cls := 6, code, data := watts } }.steer)

/-- A 10 ms window above SUSTAIN_W: the half with more array cycles is forced to SLOW8, then the other too. -/
def powerCap (s : State) (watts c0 c1 : Nat) : State :=
  let w := s.dp.reg Reg.pwrCap
  let watts := s.wattsSeen watts
  if !s.awake || !w.bit 0 || watts ≤ w.fld 31 16 then s
  else
    let first := if c0 < c1 then 1 else 0
    let h? : Option Nat :=
      if s.pwr.cap0 = 0 && s.pwr.cap1 = 0 then some first
      else if s.pwr.cap0 = 0 then some 0
      else if s.pwr.cap1 = 0 then some 1
      else none
    match h? with
    | none => s
    | some h => ({ s with pwr := s.pwr.setCap h 1 }).powerForced 3 watts

/-- Input power above 3,400 W: both halves are forced to SLOW16. -/
def excursion (s : State) (watts : Nat) : State :=
  if !s.pwr.main then s else ({ s with pwr := { s.pwr with cap0 := 2, cap1 := 2 } }).powerForced 4 watts

/-- The 70 A limit engages: both halves are forced to SLOW16 as for the excursion. DEDUCED (log entry 10): the ash log
has no class for it, so no entry is written. -/
def currentLimited (s : State) : State :=
  if !s.pwr.main then s else ({ s with pwr := { s.pwr with cap0 := 2, cap1 := 2 } }).powerCounted.steer

/-- 100 ms below RESUME_W: the halves that power has forced are released. -/
def capRelease (s : State) (watts : Nat) : State :=
  if (s.dp.reg Reg.pwrCap).fld 47 32 ≤ s.wattsSeen watts || !s.pwr.capAct then s
  else (({ s with pwr := { s.pwr with cap0 := 0, cap1 := 0 } }).scan).absorb

/-- A trip latches (R509): both halves are gated at once, and THERMAL and FATAL follow. -/
def thermalTrip (s : State) (n : Nat) (v : Int) : State :=
  let limit : Int := if n < 32 then 1760 else 1520
  if !s.pwr.main || s.pwr.trip || v < limit then s
  else
    let full := (if s.dp.aclk0 = 0 then 1 else 0) + (if s.dp.aclk1 = 0 then 1 else 0)
    let s := { s with pwr := { s.pwr with trip := true, epochs := [],
                                          sensors := Tab.set (fun _ => 0) s.pwr.sensors n v } }
    let s := { s with dp := (s.dp.bump Reg.clkForceCnt).bump Reg.clkEpochCnt full }
    (((s.applyClock 0 3).applyClock 1 3).thermalNotice 2 n v).fatal 5

/-- 100 ms after a trip the switch opens, and stays open until the next cold reset. -/
def tripOpens (s : State) : State :=
  if s.pwr.trip && s.pwr.supply ≠ .off then
    let s := s.powerLoss s.pwr.vin
    { s with pwr := { s.pwr with tripOpen := true } }
  else s

end State
end Sys2Proof.Machine
end

