-- ==== Sys2Proof/Machine/Resets.lean ====
section
/-!
DEFINITION. Resets and D3hot (R416, R417, R498–R501, R515, R517, R520, R521): what each clears and keeps, and what it
ends.
-/
namespace Sys2Proof.Machine

/-! ### Persistent defaults (R517) -/

/-- One default: entry `i` of the persistent set-up, staged when it is valid and names a register with RW fields
outside KLN and OTP. -/
def stageDefault (k : Kiln) (r : Regs) (i : Nat) : Regs :=
  let a := k.word (64 + 2 * i)
  let off := a.fld 25 3 * 8
  if !a.bit 63 then r
  else
    match rwReg off, blockOf off with
    | some info, some (b, _) =>
      if b = .kln || b = .otp then r
      else r.stage off (Word.mix info.mask (k.word (65 + 2 * i)) (r.stagedVal off))
    | _, _ => r

/-- The persistent defaults, in increasing order. -/
def stageDefaults (k : Kiln) (r : Regs) : Regs := (List.range 32).foldl (stageDefault k) r

namespace Dp

/-! ### Warm reset of the data plane (Table 19.3, R499) -/

/-- Evicts a frame of a pool that is emptied, or leaves its leaf where it cannot be returned (R499). -/
def emptyFrame (d : Dp) (f : Frame) : Dp :=
  if (d.leafAt f.space f.page f.base).isNone || (f.dirty && d.meetsLock f.home f.size) then
    { d with mem := { d.mem with frames := d.mem.frames.filter fun x => x.base ≠ f.base } }
  else d.evict f

/-- Both promotion pools are emptied. -/
def emptyPools (d : Dp) : Dp := d.mem.frames.foldl emptyFrame d

/-- What a warm reset or an FLR leaves of the data plane: promotions are finished and pools emptied, then only the
kept state stays. -/
def warm (d : Dp) : Dp :=
  let d := (d.snapHalfReset.replay).emptyPools
  let d := (d.ash.hpcCopy.map fun x => x.1).foldl (fun (d : Dp) n => d.hpcCopyDone n) d
  let m := d.mem
  let ctl := d.regs.val Reg.klnCtl
  let regs : Regs := { cnt := d.regs.cnt }
  let mem : Mem := { dpa := m.dpa, host := m.host, poison := m.poison, hLimit0 := m.hLimit0, hLimit1 := m.hLimit1, retL := m.retL, retP := m.retP }
  let phx : Phx := { x := d.phx.x, clean := d.phx.clean, skips := d.phx.skips, streams := d.phx.streams }
  let keepTiller (t : Tab Tiller) (x : Nat × Tiller) : Tab Tiller :=
    Tab.set (fun _ => {}) t x.1 { retired := x.2.retired, bankRet := x.2.bankRet }
  let keepPort (t : Tab Port) (x : Nat × Port) : Tab Port := Tab.set (fun _ => {}) t x.1 { laneRet := x.2.laneRet }
  { regs := (regs.stage Reg.klnCtl ctl).commit Reg.klnCtl ctl
    now := d.now
    mem
    outs := d.outs
    resps := d.resps
    draws := d.draws
    nextUid := d.nextUid
    phx
    tillers := d.tillers.foldl keepTiller []
    aclk0 := d.aclk0
    aclk1 := d.aclk1
    journal := { nextSeq := d.journal.nextSeq, actions := d.journal.actions, log := d.journal.log, actBad := d.journal.actBad }
    ash := d.ash
    locks := d.locks.map fun l => { l with drain := none, draining := false, ended := none }
    lnk := { ports := d.lnk.ports.foldl keepPort [] }
    fll := { step := d.fll.step, applied := d.fll.applied } }

/-! ### Reset of a half (R281, R498, R521) -/

/-- Halts an outstanding descriptor at a reset of its ring's half: its position is saved, without a notice. -/
def haltQuiet (d : Dp) (n : Nat) (o : Outst) (h : Halt) : Dp :=
  let d := (d.returnEntries o.uid).resetGroups o.uid
  let d := match o.sheaf with
    | some id => d.clearMarks id o.uid
    | none => d
  let d := d.modOutst n o.uid fun o => { o with phase := .halted h, ofs := h.ofs }
  let r := d.ring n
  if r.state = .running then d.setRing n { r with state := .halted } else d

/-- Is a descriptor spared by a reset of a half: done already, or a SHEAF_COMMIT whose sheaf the reset replays or
aborts. -/
def spared (d : Dp) (o : Outst) : Bool :=
  match o.phase with
  | .finished _ => true
  | .halted _ => true
  | _ => o.op = 0x39 && o.sheaf.any fun id => (d.sheaf id).state = .aborted || (d.sheaf id).waiter = some o.uid

/-- Halts every descriptor of ring `n` with RETIRED, DETAIL 2, and sends one notice, for the lowest SEQ (R521). A ring that
drains keeps reading DRAINING while it holds halted descriptors (R336, R345). -/
def haltRing (d : Dp) (n : Nat) : Dp :=
  let l := (d.ring n).outst.filter fun o => !d.spared o
  match l with
  | [] =>
    if (d.ring n).state = .running then d.haltBeforeNotice n { status := stRetired, detail := 2, ofs := 0 } else d
  | o :: rest =>
    let h (o : Outst) : Halt := { status := stRetired, detail := 2, ofs := d.tileOffset o o.ofs }
    rest.foldl (fun (d : Dp) o => d.haltQuiet n o (h o)) (d.haltWork n o (h o))

/-- Sheaves that are not committed yet are aborted with cause 3; a SHEAF_COMMIT of theirs ends (Table 9.4). -/
def abortOpen (d : Dp) : Dp :=
  (d.journal.sheaves.map fun x => x.1).foldl (fun (d : Dp) id =>
    let s := d.sheaf id
    if s.state = SheafSt.opened || s.state = SheafSt.committing then
      let d := d.abortSheaf id 3
      match s.waiter with
      | some u => (d.setSheaf id { d.sheaf id with waiter := none }).finished u { status := stSheafAborted }
      | none => d
    else d) d

/-- A reset of half `h` at the data plane: entries return, the half's rings halt, open sheaves are aborted, the dirty lines of
its granary are written back (R498), and the TLR counters of the half read 0 (R108). -/
def halfReset (d : Dp) (h : Nat) : Dp :=
  let d := (d.emptyHalf h).snapHalfReset.abortOpen
  let on (n : Nat) : Bool := d.stokerHalf n = h && (d.ringOn n || (d.ring n).state = .draining)
  let d := ((List.range 64).filter on).foldl (fun (d : Dp) n => d.haltRing n) d
  let mine (off : Nat) : Bool :=
    0x0700000 + 0x1000 * (96 * h) ≤ off && off < 0x0700000 + 0x1000 * (96 * h + 96)
  { d with regs := { d.regs with cnt := d.regs.cnt.filter fun e => !mine e.1 },
           mem := { d.mem with past := Tab.keep (fun line _ => d.halfOf (128 * line) ≠ h) d.mem.past } }

/-- A half leaves reset: committed sheaves are replayed, and a pseudo-channel copy of the half is completed. -/
def halfExit (d : Dp) (h : Nat) : Dp :=
  let mine := (d.ash.hpcCopy.map fun x => x.1).filter fun n => n / 512 = h
  mine.foldl (fun (d : Dp) n => d.hpcCopyDone n) d.replay

/-! ### D3hot (R416) -/

/-- Committing and committed sheaves are carried through, in the order of their commit records. -/
def carrySheaves (d : Dp) : Dp :=
  let d := (d.journal.sheaves.map fun x => x.1).foldl commitPoint d
  d.journal.order.foldl promotionEnd d

/-- Every descriptor whose work is done completes. -/
def completeAll (d : Dp) : Dp :=
  (List.range 64).foldl (fun (d : Dp) n =>
    (d.ring n).outst.foldl (fun (d : Dp) o =>
      match (d.ring n).outst.find? fun x => x.uid = o.uid with
      | some x =>
        match x.phase with
        | .finished e => d.complete n o.uid e
        | _ => d
      | none => d) d) d

/-- Has the driver done all that R416 asks of it before D3hot: no dispatch, nothing outstanding, no sheaf that is not FREE or
ABORTED, and no image draining. -/
def ready3hot (d : Dp) : Bool :=
  !(d.reg Reg.glbCtl).bit 0 && (d.rings.all fun x => x.2.outst.isEmpty) &&
  !(d.journal.sheaves.any fun x => x.2.state.counted) && !(d.locks.any fun l => l.draining)

/-- Where the driver has not done what R416 asks of it, the rings end as RING_RESUME CANCEL ends them, and records are
written. -/
def endRings (d : Dp) : Dp :=
  if d.ready3hot then d else
  let d := ((List.range 64).filter d.ringOn).foldl (fun (d : Dp) n => d.cancelRing n []) d
  d.carrySheaves.completeAll

/-- Tile contexts and ports in D3hot; the granary has been written back (Table 14.9). -/
def hot (d : Dp) : Dp :=
  let down (t : Tab Port) (x : Nat × Port) : Tab Port := Tab.set (fun _ => {}) t x.1 { x.2 with state := 0, preempt := false }
  { d with tillers := d.tillers.foldl (fun t x => Tab.set (fun _ => {}) t x.1 { x.2 with ctxs := [] }) [],
           lnk := { d.lnk with ports := d.lnk.ports.foldl down [] }, mem := { d.mem with past := [] } }

end Dp

namespace State

/-! ### Maintenance at a reset (R520, Table 17.6) -/

/-- An OTP write, or the flash write of a segment that has been swapped in: it completes first. -/
def mustFinish (s : State) (q : Req) : Bool := q.act = 13 || (q.act = 8 && s.mnt.swapped)

/-- Ends a running activity at a reset: it completes first, or is broken off with CANCELLED. -/
def endRunning (s : State) (q : Req) : State :=
  if s.mustFinish q then ((s.leave q.num).endEffect q).report q stOK 0 else s.breakOff stCancelled q

/-- Hearth's own request for a retraining or a recalibration. -/
def hearthAsks (s : State) (act res : Nat) : State :=
  s.submit { act, res, ch := .hearth, queue := true }

/-- Retrainings and recalibrations that have been broken off are asked for again when AUTO_RT = 1. -/
def askAgain (s : State) (l : List Req) : State :=
  if (s.dp.reg Reg.mntCtl).bit 1 then
    (l.filter fun q => q.act ≤ 4 || q.act = 12).foldl (fun s q => s.hearthAsks q.act q.res) s
  else s

/-- Every activity and request ends (R520). -/
def endMaintenance (s : State) : State :=
  let s := s.mnt.running.foldl endRunning s
  (s.mnt.queue ++ s.mnt.arrived).foldl (fun s q => s.withdraw stCancelled q) s

/-- The module with RING_NQ_CFGk at `f k`. -/
def withNotices (s : State) (f : Nat → Word) : State :=
  { s with dp := { s.dp with regs := (List.range 8).foldl (fun r k => r.commit (Reg.nqCfg k) (f k)) s.dp.regs } }

/-- Every activity and request ends, and no MAINT_DONE notice is sent: the notice rings are reset (R520). -/
def endUnnoticed (s : State) : State :=
  let nq (k : Nat) : Word := s.dp.reg (Reg.nqCfg k)
  (s.withNotices fun k => (nq k).put 0 0 0).endMaintenance.withNotices nq

/-! ### Warm reset and FLR -/

/-- What a warm reset leaves of Kiln: fuses, flash, running segments, sessions and keys. -/
def warmKiln (k : Kiln) : Kiln := { k with debug := 0, nonce := [], nonceOut := false, tok := [], tokRes := 0, rcvState := 0, rcvReason := 0 }

/-- A warm reset or an FLR: maintenance ends first, then the set-up registers and the volatile state are cleared, and
the persistent defaults are staged (R498, R515, R517, R520). -/
def warm (s : State) : State :=
  let was := s.mnt.running.filter fun q => !s.mustFinish q
  let s := s.endUnnoticed
  let d := s.dp.warm
  let k := warmKiln s.kiln
  let p := { s.pwr with req0 := 0, req1 := 0, idle := false, d3hot := false, epochs := [], reset0 := false, reset1 := false }
  let mnt : Mnt := { next := s.mnt.next }
  let s := { s with dp := { d with regs := stageDefaults k d.regs }, kiln := k, pwr := p, mnt, dbg := {} }
  (s.askAgain was).steer

/-- A warm reset by PERST#, a hot reset or a link-down reset. -/
def warmReset (s : State) (how : WarmBy) : State :=
  if !s.pwr.main || !s.pwr.hearth || s.pwr.perst then s
  else
    let s := s.warm
    match how with
    | .perst => { s with pwr := { s.pwr with perst := true, link := false, memActive := false } }
    | .hotReset => { s with pwr := { s.pwr with link := !s.pwr.refLost } }
    | .linkDown => { s with pwr := { s.pwr with link := !s.pwr.refLost } }

/-- A Function Level Reset: the CXL link stays up. -/
def flr (s : State) : State := if s.awake && s.pwr.link then s.warm else s

/-- PERST# is deasserted after a warm reset: recovery when RCV_REQ is 1 (R452). -/
def perstRises (s : State) : State :=
  if !s.pwr.main || !s.pwr.hearth || !s.pwr.perst || s.pwr.fresh then s
  else
    { s with pwr := { s.pwr with perst := false, link := s.pwr.refOk && !s.pwr.refLost, memActive := (s.kiln.seg 5).isSome },
             kiln := { s.kiln with recovery := (s.dp.reg Reg.klnCtl).bit 0 || (s.kiln.seg 0).isNone } }

/-! ### Cold reset (R449, R498, R500) -/

/-- The first PERST# deassertion after 54 V was applied: everything volatile is cleared and the boot chain runs. After a
trip it unlatches the trip, and the switch closes again before the module boots. -/
def coldReset (s : State) : State :=
  let p := s.pwr
  if p.tripOpen && p.supply = .off && 4500 ≤ p.vin then
    { s with pwr := { p with trip := false, tripOpen := false, supply := .precharge, fresh := true, perst := true } }
  else if !p.main || !p.hearth || !p.fresh then s
  else
    let k := Kiln.boot { darkKiln s.kiln with closed := false }
    let d := hostSide s.dp
    { s with
      dp := { d with regs := stageDefaults k d.regs }
      kiln := k
      mnt := {}
      dbg := {}
      pwr := { aux := p.aux, hearth := p.hearth, supply := p.supply, vin := p.vin, iin := p.iin, pin := p.pin, refOk := p.refOk,
               lock := p.lock, link := p.refOk, memActive := false, i3c := p.i3c, eid := p.eid, sensors := p.sensors } }

/-- Memory training is done: Memory_Active, and every unit's reference reading is taken (R478, R500). -/
def memtrain (s : State) : State :=
  if !s.awake || s.kiln.recovery || (s.kiln.seg 5).isNone then s
  else
    let s := { s with pwr := { s.pwr with memActive := true } }
    let s := (List.range 16).foldl (fun s u => (s.trainedNow 1 u).trainedNow 3 u) s
    (List.range 32).foldl (fun s u => s.trainedNow 2 u) s

/-- Recovery: a Yalior bundle is installed, and the module boots (R452). -/
def recoveryGo (s : State) (segs : List (List Byte)) : State :=
  if !s.kiln.recovery || !s.awake || !s.pwr.link then s
  else { s with kiln := s.kiln.recover segs, pwr := { s.pwr with memActive := false } }

/-! ### Reset of a half -/

/-- Hearth resets one half (R498, R521). -/
def halfReset (s : State) (h : Nat) : State :=
  if !s.awake || s.pwr.inReset h then s
  else
    let mine := s.mnt.running.filter fun q => resHalf q.act q.res = some h && !s.mustFinish q
    let s := mine.foldl endRunning s
    let p := if h = 0 then { s.pwr with reset0 := true } else { s.pwr with reset1 := true }
    (({ s with dp := s.dp.halfReset h, pwr := p }).askAgain mine).absorb

/-- A half leaves reset (R281). -/
def halfExit (s : State) (h : Nat) : State :=
  if !s.awake || !s.pwr.inReset h then s
  else
    let p := if h = 0 then { s.pwr with reset0 := false } else { s.pwr with reset1 := false }
    { s with dp := s.dp.halfExit h, pwr := p }

/-! ### D3hot -/

/-- A PMCSR write of D3hot (R416). -/
def d3hotEntry (s : State) : State :=
  if !s.hostLive then s
  else
    let s := { s with dp := s.dp.endRings }
    let s := s.absorb.endMaintenance
    { s with dp := s.dp.hot, pwr := { s.pwr with d3hot := true } }

/-- A PMCSR write of D0: the ports train again. -/
def d3hotExit (s : State) : State :=
  if !s.pwr.d3hot || !s.pwr.main then s
  else
    let d := (List.range 8).foldl (fun (d : Dp) q => d.retrain q) s.dp
    { s with dp := d, pwr := { s.pwr with d3hot := false, wake := false } }

end State
end Sys2Proof.Machine
end

