-- ==== Sys2Proof/Machine/KilnCmds.lean ====
section
/-!
DEFINITION. What Kiln does on request (R456–R468, R518): tokens, one-time writes, SPDM, IDE keys, firmware by PLDM,
the swap of a staged segment, and the debug window.
-/
namespace Sys2Proof.Machine
namespace State

/-- An answer on the sideband or the mailbox. -/
def answer (s : State) (a : Answer) : State := { s with dp := s.dp.answer a }

/-! ### Tokens (R463–R466) -/

/-- RETIRED takes effect: the fuse is programmed and the tiers read zero (R466). -/
def retire (s : State) : State :=
  let m := s.dp.mem
  { s with kiln := s.kiln.retire,
           dp := { s.dp with mem := { m with dpa := [], past := [], poison := m.poison.filter fun e => 2 ^ 53 ≤ e.1 }, journal := {} } }

/-- An accepted token takes effect (R464). -/
def tokenActs (s : State) (t : List Byte) : State :=
  let value := leAt t 5 1
  if leAt t 4 1 = 1 then { s with kiln := s.kiln.setLevel value }
  else if value = 2 then s.retire
  else s.admitNow { act := 13, res := 0, ch := .token, queue := true, bytes := toLe 8 value }

/-- Kiln judges a token; any attempt consumes the nonce. -/
def token (s : State) (t : List Byte) : State :=
  let r := s.kiln.tokenResult s.mnt.staged.isSome t
  let s := { s with kiln := { s.kiln with nonceOut := false, tokRes := r } }
  if r = 1 then s.tokenActs t else s

/-- Kiln draws a nonce. -/
def drawNonce (s : State) : State :=
  let (i, d) := s.dp.draw
  { s with dp := d, kiln := s.kiln.drawNonce i }

/-! ### One-time writes (R456, R457) -/

/-- A write to OTP_PROG or OTP_RB_ADV: refused with its reason, else judged at the maintenance gate. -/
def otpWrite (s : State) (q : Req) : State :=
  let r := s.otpReason q
  if r ≠ 0 then
    let s := { s with mnt := { s.mnt with otpRes := 3, otpReason := r } }
    if 256 ≤ q.res then { s with dp := s.dp.draw.2 } else s
  else s.admitNow q

/-- OTP_PROG with GO = 1: the committed OTP_IDX and OTP_DATA. -/
def otpProg (s : State) (queue : Bool) : State :=
  s.otpWrite { act := 13, res := (s.dp.reg Reg.otpIdx).fld 7 0, ch := .otp, queue,
               bytes := toLe 8 (s.dp.reg Reg.otpData).toNat }

/-- OTP_RB_ADV. -/
def otpRbAdv (s : State) (n target : Nat) : State :=
  if 6 ≤ n || target = 0 then s else s.otpWrite { act := 13, res := 256 + n, param := target, ch := .otp }

/-! ### The debug window (R518, Table 19.5) -/

/-- The address of a byte of a bin or crib in the tables of the window: none while DBG_SEL selects no tiller. -/
def binKey (g : Dbg) (o : Nat) : Option Nat := if g.sel < 192 then some (g.sel * 2 ^ 24 + (o - 0x3200000)) else none

/-- Does an offset lie in the bin or the crib aperture. -/
def inBin (o : Nat) : Bool := (0x3200000 ≤ o && o < 0x3400000) || (0x3400000 ≤ o && o < 0x3480000)

/-- Does an offset lie in the SRAM of a unit. -/
def inSram (o : Nat) : Bool := 0x3800000 ≤ o && o < 0x4000000

/-- One byte written through the window. -/
def dbgPut (g : Dbg) (o : Nat) (b : Byte) : Dbg :=
  if inBin o then
    match binKey g o with
    | some k => { g with bins := Tab.set (fun _ => 0) g.bins k b }
    | none => g
  else if inSram o then { g with sram := Tab.set (fun _ => 0) g.sram o b }
  else g

/-- Halted Stokers execute one instruction each. -/
def dbgStep (g : Dbg) (m : Nat) : Dbg :=
  (List.range 8).foldl (fun (g : Dbg) n =>
    if m.testBit n && g.halt.testBit n then { g with steps := Tab.modify (fun _ => 0) g.steps n (· + 1) } else g) g

/-- A write through the window at INVASIVE. -/
def dbgWrite (g : Dbg) (off size value : Nat) : Dbg :=
  match Dp.widened off size value with
  | none => g
  | some (o, w, m) =>
    if o = 0x3000000 then { g with sel := (Word.mix m w (BitVec.ofNat 64 g.sel)).fld 7 0 }
    else if o = 0x3000008 then
      dbgStep { g with halt := (Word.mix m w (BitVec.ofNat 64 g.halt)).fld 7 0 } ((w &&& m).fld 15 8)
    else (List.range size).foldl (fun (g : Dbg) i => dbgPut g (off + i) (BitVec.ofNat 8 (value / 256 ^ i))) g

/-- A byte read through the window. -/
def dbgByte (g : Dbg) (o : Nat) : Byte :=
  if o / 8 * 8 = 0x3000000 then BitVec.ofNat 8 (g.sel / 256 ^ (o % 8))
  else if o / 8 * 8 = 0x3000008 then BitVec.ofNat 8 (g.halt / 256 ^ (o % 8))
  else if inBin o then (binKey g o).elim 0 fun k => Tab.get (fun _ => 0) g.bins k
  else if inSram o then Tab.get (fun _ => 0) g.sram o
  else 0

/-- A write to the debug window: it acts at INVASIVE only. -/
def windowWrite (s : State) (off size value : Nat) : State :=
  if s.kiln.debug = 2 && 0x3000000 ≤ off && off < 0x4000000 then { s with dbg := dbgWrite s.dbg off size value } else s

/-- Halts and releases Stokers. -/
def stokerHalt (s : State) (m : Nat) : State :=
  if s.kiln.debug = 2 then { s with dbg := { s.dbg with halt := m % 256 } } else s

/-- Steps halted Stokers. -/
def stokerStep (s : State) (m : Nat) : State :=
  if s.kiln.debug = 2 then { s with dbg := dbgStep s.dbg m } else s

/-! ### SPDM and IDE (R459–R461) -/

/-- Does Kiln refuse what would sign with the identity key or derive session keys from it (R465, Table 16.9). -/
def signs (s : State) : Bool := !s.kiln.closed && !s.kiln.retired

/-- A signature of 64 bytes over a transcript the spec does not give: free bytes. -/
def freeSig (s : State) : List Byte × State :=
  let (i, d) := s.dp.draw
  ((List.range 64).map (Config.freeByte i), { s with dp := d })

/-- The blocks a GET_MEASUREMENTS asks for. -/
def measured (s : State) (b : Nat) : List (Nat × List Byte) :=
  let one (i : Nat) := (i, s.kiln.block s.mnt.staged.isSome i)
  if b = 0xFF then (List.range 10).map fun i => one (i + 1)
  else if 1 ≤ b && b ≤ 10 then [one b]
  else []

/-- An SPDM request on transport 0 (DOE) or 1 (MCTP). -/
def spdm (s : State) (tr : Nat) : Spdm → State
  | .agree => s.answer .agreed
  | .certificate slot o l =>
    if slot = 0 then s.answer (.certificate ((s.kiln.chain.drop o).take l)) else s.answer .unsupported
  | .challenge slot =>
    if slot ≠ 0 then s.answer .unsupported
    else if !s.signs then s.answer .unspecified
    else
      let (sig, s) := s.freeSig
      s.answer (.challenge sig)
  | .measurements b signed =>
    if !signed then s.answer (.measurements (s.measured b) none)
    else if !s.signs then s.answer .unspecified
    else
      let (sig, s) := s.freeSig
      s.answer (.measurements (s.measured b) (some sig))
  | .keyExchange =>
    if !s.signs then s.answer .unspecified
    else if 4 ≤ (s.kiln.sessions.filter fun x => x.2 = tr).length then s.answer .unsupported
    else
      let k := s.kiln
      let n := k.nextSession
      ({ s with kiln := { k with sessions := k.sessions ++ [(n, tr)], nextSession := n + 1 } }).answer (.session n)
  | .heartbeat n => s.answer (if s.kiln.sessions.contains (n, tr) then .agreed else .unsupported)
  | .keyUpdate n => s.answer (if s.kiln.sessions.contains (n, tr) then .agreed else .unsupported)
  | .endSession n =>
    if s.kiln.sessions.contains (n, tr) then
      ({ s with kiln := { s.kiln with sessions := s.kiln.sessions.filter fun x => x ≠ (n, tr) } }).answer .agreed
    else s.answer .unsupported
  | .nonce => let s := s.drawNonce; s.answer (.nonce s.kiln.nonce)
  | .token t => let s := s.token t; s.answer (.token s.kiln.tokRes)
  | .windowRead o l =>
    s.answer (.window ((List.range l).map fun i => if s.kiln.debug = 0 then 0 else dbgByte s.dbg (o + i)))
  | .windowWrite o z v => (s.windowWrite o z v).answer .agreed
  | .other => s.answer .unsupported

/-- IDE_KM over a secured session on DOE: keys of a stream are programmed or refreshed, unless attestation is closed. -/
def ideKey (s : State) (session stream : Nat) (key : List Byte) : State :=
  if s.kiln.sessions.contains (session, 0) && s.signs then
    { s with kiln := { s.kiln with ide := Tab.set (fun _ => []) s.kiln.ide stream (slice key 0 32) } }
  else s

/-! ### Live update (R468) -/

/-- A PLDM firmware update delivers a segment: busy while another is on its way, else a request for activity 8. -/
def pldm (s : State) (n : Nat) (img : List Byte) : State :=
  let busy := s.mnt.staged.isSome || (s.mnt.arrived ++ s.mnt.queue ++ s.mnt.running).any fun q => q.act = 8
  if s.kiln.retired || !s.awake then s.answer .pldmRefused
  else if busy then s.answer .pldmBusy
  else (s.answer .pldmTaken).submit { act := 8, res := n, ch := .pldm, bytes := img }

/-- Is a unit at its quiescent point (Table 16.10). -/
def quiescent (s : State) (n : Nat) : Bool :=
  let d := s.dp
  match n with
  | 2 => d.mem.promos.isEmpty && d.mem.jobs.isEmpty && !(d.snaps.any fun x => x.copied) && !(d.locks.any fun l => l.draining)
  | 3 =>
    !(d.rings.any fun (_, r) => r.outst.any fun o => o.op = 0x30 && (match o.phase with | .finished _ => false | _ => true)) &&
    !(d.journal.sheaves.any fun (_, x) => x.state = .committed)
  | 4 => d.lnk.colls.all (·.ended)
  | _ => true

/-- At the unit's quiescent point the staged segment is swapped in, and its flash write starts. -/
def swap (s : State) : State :=
  match s.mnt.staged with
  | none => s
  | some (n, img) =>
    if s.mnt.swapped || !s.quiescent n then s
    else
      { s with kiln := (s.kiln.run n (some (Kiln.segmentOf img))).setImage n [], mnt := { s.mnt with swapped := true } }

end State
end Sys2Proof.Machine
end

