-- ==== Sys2Proof/Machine/Act.lean ====
section
/-!
DEFINITION. How a command acts on the module: who brings it about, and what follows at the maintenance gate. A command
that cannot arrive in the power state, reset or recovery the module is in changes nothing (Tables 14.6, 14.8 and 18.5).
-/
namespace Sys2Proof.Machine
namespace State

/-- A change of the data plane while `ok` holds, with what follows at the maintenance gate; else nothing. -/
def dpWhen (s : State) (ok : Bool) (f : Dp → Dp) : State := if ok then settle s { s with dp := f s.dp } else s

/-- A change of the module while `ok` holds, with what follows at the maintenance gate; else nothing. -/
def allWhen (s : State) (ok : Bool) (f : State → State) : State := if ok then settle s (f s) else s

/-- Frames reach the module: it is awake and its links have not gone down with the reference (R407). -/
def podLive (s : State) : Bool := s.awake && !s.pwr.refLost

/-- What the host does to rings and registers. -/
def byHost (s : State) (f : Dp → Dp) : Result := .next (s.dpWhen s.hostLive f)

/-- What a unit or a timer of the module does. -/
def byUnit (s : State) (f : Dp → Dp) : Result := .next (s.dpWhen s.awake f)

/-- What a frame or a port of the pod links does. -/
def byPod (s : State) (f : Dp → Dp) : Result := .next (s.dpWhen s.podLive f)

/-- What Kiln does on request. -/
def byKiln (s : State) (f : State → State) : Result := .next (s.allWhen s.kilnLive f)

/-- The dispatch of an opcode at the head of ring `n` (R322); `mine` tells the rows of one opcode apart. -/
def dispatched (s : State) (op : Nat) (mine : List Byte → Bool) (spans : List Byte → List Span) (body : OpCtx → Dp → Dp)
    (n : Fin 64) : Result :=
  s.byHost (Dp.dispatch s.gates op (fun d n h bs => d.scaleGate n h bs && mine bs) spans body n)

/-- Every descriptor of the opcode. -/
def everyForm (_ : List Byte) : Bool := true

/-- No spans. -/
def noSpans (_ : List Byte) : List Span := []

end State
end Sys2Proof.Machine
end

