-- ==== Sys2Proof/Machine/Board.lean ====
section
/-!
DEFINITION. Meanings: supplies, clocks, temperatures, resets and D3hot (14_fabric_clocks_power.md,
18_module_hardware.md).
-/
namespace Sys2Proof.Machine
open State

/-! ### Forced clock changes -/

/-- THROTTLE_START (R412, Table 14.5). -/
def execThrottleStart (sensor : Fin 32) (reading : Int) (s : State) : Result :=
  .next (s.allWhen true fun s => s.throttleStart sensor reading)

/-- THROTTLE_ESCALATE (R412). -/
def execThrottleEscalate (sensor : Fin 32) (reading : Int) (s : State) : Result :=
  .next (s.allWhen true fun s => s.throttleEscalate sensor reading)

/-- THROTTLE_END (R412, R477). -/
def execThrottleEnd (sensor : Fin 32) (reading : Int) (s : State) : Result :=
  .next (s.allWhen true fun s => s.throttleEnd sensor reading)

/-- POWER_CAP (R412): the average of the window and the array cycles of each half in it. -/
def execPowerCap (watts cycles0 cycles1 : Nat) (s : State) : Result :=
  .next (s.allWhen true fun s => s.powerCap watts cycles0 cycles1)

/-- POWER_CAP_RELEASE (R412). -/
def execPowerCapRelease (watts : Nat) (s : State) : Result := .next (s.allWhen true fun s => s.capRelease watts)

/-- POWER_EXCURSION (R412): above 3,400 W. -/
def execPowerExcursion (watts : Nat) (s : State) : Result := .next (s.allWhen (decide (3400 < watts)) fun s => s.excursion watts)

/-- CURRENT_LIMIT (R493): both halves are forced to SLOW16 as for an excursion. -/
def execCurrentLimit (_watts : Nat) (s : State) : Result := .next (s.allWhen true fun s => s.currentLimited)

/-- THERMAL_TRIP (R509). -/
def execThermalTrip (sensor : Fin 36) (reading : Int) (s : State) : Result :=
  .next (s.allWhen true fun s => s.thermalTrip sensor reading)

/-- TRIP_SWITCH_OPEN (R509). -/
def execTripSwitchOpen (s : State) : Result := .next s.tripOpens

/-- SEAM_REOPEN (R409). -/
def execSeamReopen (s : State) : Result := .next (s.allWhen s.awake State.reopen)

/-- CLOCK_RAISE_STEP (R410). -/
def execClockRaiseStep (half : Fin 2) (s : State) : Result := .next (s.allWhen s.awake fun s => s.raiseStep half)

/-! ### Supplies -/

/-- OVERCURRENT (R493). -/
def execOvercurrent (s : State) : Result := .next s.overcurrent

/-- VIN_OUT_OF_RANGE (R492). Above 65.0 V the rows of 59.0 V and of 62.0 V hold too; that the module can be damaged there gives
no further effect (log entry 33). -/
def execVinOutOfRange (vin : Nat) (s : State) : Result := .next (s.allWhen true fun s => s.vinOut vin)

/-- VIN_COLLAPSE (R492). -/
def execVinCollapse (vin : Nat) (s : State) : Result :=
  .next (s.vinCollapse vin)

/-- VIN_RISE (R494). -/
def execVinRise (vin : Nat) (s : State) : Result :=
  .next (s.vinRise vin)

/-- PRECHARGE_DONE (R494). -/
def execPrechargeDone (s : State) : Result := .next s.prechargeDone

/-- HEARTH_START (R500); `aux`: the supply that has come into range is AUX_12V. -/
def execHearthStart (aux : Bool) (s : State) : Result := .next (s.hearthStart aux)

/-- PRSNT_HIGH (R490): the carrier removes 54 V. -/
def execPrsntHigh (s : State) : Result := .next (if s.pwr.supply = .off then s else s.powerLoss 0)

/-- AUX_12V_LOSS (R495). -/
def execAux12vLoss (s : State) : Result := .next s.auxLoss

/-! ### Reference -/

/-- REFERENCE_LOST (R407). -/
def execReferenceLost (s : State) : Result := .next (s.allWhen true State.referenceLost)

/-- ROOT_PLL_LOCK (R407). -/
def execRootPllLock (s : State) : Result := .next s.rootLock

/-! ### Resets and D3hot -/

/-- COLD_RESET (R498, R449). -/
def execColdReset (s : State) : Result := .next s.coldReset

/-- MEMTRAIN_DONE (R500). -/
def execMemtrainDone (s : State) : Result := .next s.memtrain

/-- WARM_RESET (R498, R499, R520). -/
def execWarmReset (how : WarmBy) (s : State) : Result := .next (s.warmReset how)

/-- FLR (R498). -/
def execFlr (s : State) : Result := .next s.flr

/-- PERST_DEASSERTION (R452). -/
def execPerstDeassertion (s : State) : Result := .next s.perstRises

/-- D3HOT_ENTRY (R416). -/
def execD3hotEntry (s : State) : Result := .next s.d3hotEntry

/-- D3HOT_EXIT (R415). -/
def execD3hotExit (s : State) : Result := .next s.d3hotExit

/-- PME_STATUS_CLEAR (R506). -/
def execPmeStatusClear (s : State) : Result :=
  .next (if s.pwr.main then { s with pwr := { s.pwr with pme := false, wake := false } } else s)

end Sys2Proof.Machine
end

