-- ==== Sys2Proof/Machine/Descriptors.lean ====
section
/-!
DEFINITION. Meanings: one per opcode row. Each dispatches the descriptor at the head of a ring when it is of that row
and every gate of R322 grants it; the operation itself stands in the file of its chapter.
-/
namespace Sys2Proof.Machine
open State

/-- NOP (R327). -/
def execNop (ring : Fin 64) (s : State) : Result := s.dispatched 0x00 everyForm noSpans opNop ring

/-- FENCE (R326). -/
def execFence (ring : Fin 64) (s : State) : Result := s.dispatched 0x01 everyForm noSpans opFence ring

/-- LOG_READ (R341). -/
def execLogRead (ring : Fin 64) (s : State) : Result := s.dispatched 0x02 everyForm logReadSpans opLogRead ring

/-- MON_READ (R342). -/
def execMonRead (ring : Fin 64) (s : State) : Result := s.dispatched 0x03 everyForm monReadSpans opMonRead ring

/-- PROMOTE (R37). -/
def execPromote (ring : Fin 64) (s : State) : Result := s.dispatched 0x08 everyForm noSpans (opMove false) ring

/-- DEMOTE (R37). -/
def execDemote (ring : Fin 64) (s : State) : Result := s.dispatched 0x09 everyForm noSpans (opMove true) ring

/-- GEMM (R105). -/
def execGemm (ring : Fin 64) (s : State) : Result := s.dispatched 0x10 everyForm (fun bs => (parseGemm bs).spans) opGemm ring

/-- COPY (R129). -/
def execCopy (ring : Fin 64) (s : State) : Result := s.dispatched 0x14 everyForm copySpans opCopy ring

/-- GATHER (R132). -/
def execGather (ring : Fin 64) (s : State) : Result := s.dispatched 0x15 everyForm (fun bs => (parseIdx bs).spans) opGather ring

/-- SCATTER_ADD (R133). -/
def execScatterAdd (ring : Fin 64) (s : State) : Result := s.dispatched 0x16 everyForm (fun bs => (parseIdx bs).spans) opScatter ring

/-- GEMM_SP (R170). -/
def execGemmSp (ring : Fin 64) (s : State) : Result := s.dispatched 0x18 everyForm (fun bs => (parseSp bs).spans) opGemmSp ring

/-- COMPRESS (R153). -/
def execCompress (ring : Fin 64) (s : State) : Result := s.dispatched 0x19 everyForm compressSpans opCompress ring

/-- PRUNE (R183). -/
def execPrune (ring : Fin 64) (s : State) : Result := s.dispatched 0x20 everyForm (maskSpans .prune) (opMask .prune) ring

/-- REGROW (R183). -/
def execRegrow (ring : Fin 64) (s : State) : Result := s.dispatched 0x21 everyForm (maskSpans .regrow) (opMask .regrow) ring

/-- REMASK (R183). -/
def execRemask (ring : Fin 64) (s : State) : Result := s.dispatched 0x22 everyForm (maskSpans .remask) (opMask .remask) ring

/-- PREDICT (R195). -/
def execPredict (ring : Fin 64) (s : State) : Result := s.dispatched 0x23 everyForm (fun bs => (parsePred bs).spans) opPredict ring

/-- FUSED_GRG (R233). -/
def execFusedGrg (ring : Fin 64) (s : State) : Result := s.dispatched 0x28 everyForm (fun bs => (parseFused bs).spans) opFused ring

/-- UPDATE with ADAMW, SGDM or ADAFACTOR on the Flail engines (R250); a reserved OPT is malformed here. -/
def execUpdate (ring : Fin 64) (s : State) : Result :=
  s.dispatched 0x30 (fun bs => updKind bs = 0) updSpans (opUpdate startUpdate) ring

/-- UPDATE with OPT = ACCUM (R250). -/
def execUpdateAccum (ring : Fin 64) (s : State) : Result :=
  s.dispatched 0x30 (fun bs => updKind bs = 1) updSpans (opUpdate startAccum) ring

/-- UPDATE with AT = NETWORK (R254). -/
def execUpdateNetwork (ring : Fin 64) (s : State) : Result :=
  s.dispatched 0x30 (fun bs => updKind bs = 2) updSpans (opUpdate startNetwork) ring

/-- UPDATE with OPT = STEP (R246). -/
def execUpdateStep (ring : Fin 64) (s : State) : Result := s.dispatched 0x30 (fun bs => updKind bs = 3) updSpans opStep ring

/-- Which row a NORM belongs to: 0 PARTIAL (and the reserved mode), 1 CLOSE, 2 CLOSE_POD. -/
def normRow (bs : List Byte) : Nat :=
  let m := (parseNorm bs).mode
  if m = 1 || m = 2 then m else 0

/-- NORM with MODE = PARTIAL (R242). -/
def execNormPartial (ring : Fin 64) (s : State) : Result :=
  s.dispatched 0x31 (fun bs => normRow bs = 0) (NormP.spans ((s.dp.reg Reg.fllNormBase).fld 51 15 * 2 ^ 15)) opNorm ring

/-- NORM with MODE = CLOSE (R243). -/
def execNormClose (ring : Fin 64) (s : State) : Result :=
  s.dispatched 0x31 (fun bs => normRow bs = 1) (NormP.spans ((s.dp.reg Reg.fllNormBase).fld 51 15 * 2 ^ 15)) opNorm ring

/-- NORM with MODE = CLOSE_POD (R243). -/
def execNormClosePod (ring : Fin 64) (s : State) : Result :=
  s.dispatched 0x31 (fun bs => normRow bs = 2) (NormP.spans ((s.dp.reg Reg.fllNormBase).fld 51 15 * 2 ^ 15)) opNorm ring

/-- RECOMPUTE (R258). -/
def execRecompute (ring : Fin 64) (s : State) : Result := s.dispatched 0x32 everyForm recomputeSpans opRecompute ring

/-- SHEAF_OPEN (R284). -/
def execSheafOpen (ring : Fin 64) (s : State) : Result := s.dispatched 0x38 everyForm noSpans opSheafOpen ring

/-- SHEAF_COMMIT (R278). -/
def execSheafCommit (ring : Fin 64) (s : State) : Result := s.dispatched 0x39 everyForm noSpans opSheafCommit ring

/-- SHEAF_ABORT (R285). -/
def execSheafAbort (ring : Fin 64) (s : State) : Result := s.dispatched 0x3A everyForm noSpans opSheafAbort ring

/-- ROUTE in DISPATCH mode (R294); the reserved mode is malformed here. -/
def execRouteDispatch (ring : Fin 64) (s : State) : Result :=
  s.dispatched 0x40 (fun bs => routeMode bs = 0) routeSpans (opRoute Dp.startDispatch) ring

/-- ROUTE in RUN mode (R299). -/
def execRouteRun (ring : Fin 64) (s : State) : Result :=
  s.dispatched 0x40 (fun bs => routeMode bs = 1) routeSpans (opRoute Dp.startRun) ring

/-- ROUTE in COMBINE mode (R304). -/
def execRouteCombine (ring : Fin 64) (s : State) : Result :=
  s.dispatched 0x40 (fun bs => routeMode bs = 2) routeSpans (opRoute Dp.startCombine) ring

/-- CANCEL (R306). -/
def execCancel (ring : Fin 64) (s : State) : Result := s.dispatched 0x41 everyForm noSpans opCancel ring

/-- Is a REDUCE of step records. -/
def ofRecords (bs : List Byte) : Bool := (parseRed bs).kind = 3

/-- REDUCE (R366). -/
def execReduce (ring : Fin 64) (s : State) : Result := s.dispatched 0x48 (fun bs => !ofRecords bs) redSpans opReduce ring

/-- REDUCE with KIND = STEPREC (R373). -/
def execReduceSteprec (ring : Fin 64) (s : State) : Result := s.dispatched 0x48 ofRecords redSpans opReduce ring

/-- Members of the group an ALLTOALL names, as the group table gives them now; 0 for a group that cannot be read. -/
def groupSize (d : Dp) (n : Nat) (bs : List Byte) : Nat :=
  let e : Env := { ring := n, uid := 2 ^ 64, seq := 0, op := 0x49, space := d.spaceOf n }
  match Dp.run (readGroup e (d.reg Reg.lnkGrpBase) (leAt bs 16 2)) Dp.atsFuel d with
  | (.ok (some g, _), _) => g.members.length
  | _ => 0

/-- ALLTOALL (R379). -/
def execAlltoall (ring : Fin 64) (s : State) : Result :=
  s.dispatched 0x49 everyForm (fun bs => Dp.msgSpans 0x49 (groupSize s.dp ring bs) bs) (opMsg 0x49) ring

/-- SEND (R380). -/
def execSend (ring : Fin 64) (s : State) : Result := s.dispatched 0x4A everyForm (Dp.msgSpans 0x4A 0) (opMsg 0x4A) ring

/-- RECV (R380). -/
def execRecv (ring : Fin 64) (s : State) : Result := s.dispatched 0x4B everyForm (Dp.msgSpans 0x4B 0) (opMsg 0x4B) ring

/-- BARRIER (R379). -/
def execBarrier (ring : Fin 64) (s : State) : Result := s.dispatched 0x4C everyForm noSpans (opMsg 0x4C) ring

/-- SNAPSHOT with OP = TAKE (R388); the reserved OP is malformed here. -/
def execSnapshotTake (ring : Fin 64) (s : State) : Result :=
  s.dispatched 0x50 (fun bs => Dp.snapKind bs = 0) snapSpans opTake ring

/-- SNAPSHOT with OP = DRAIN (R394). -/
def execSnapshotDrain (ring : Fin 64) (s : State) : Result :=
  s.dispatched 0x50 (fun bs => Dp.snapKind bs = 1) snapSpans opDrain ring

/-- SNAPSHOT with OP = UNLOCK (R394). -/
def execSnapshotUnlock (ring : Fin 64) (s : State) : Result :=
  s.dispatched 0x50 (fun bs => Dp.snapKind bs = 2) snapSpans opUnlock ring

/-- RESTORE (R395). -/
def execRestore (ring : Fin 64) (s : State) : Result := s.dispatched 0x51 everyForm restoreSpans opRestore ring

/-- MAINT (R485). -/
def execMaint (ring : Fin 64) (s : State) : Result := s.dispatched 0x58 everyForm maintSpans opMaint ring

end Sys2Proof.Machine
end

