-- ==== Sys2Proof/Machine/Doorbells.lean ====
section
/-!
DEFINITION. Meanings: doorbells, descriptor fetch, ring resume, completion, interrupts, address translation and page
requests (01_state_tiers.md, 11_command_rings.md).
-/
namespace Sys2Proof.Machine
open State

/-- SQ_TAIL (R320). -/
def execSqTail (ring : Fin 64) (tail : Nat) (s : State) : Result := s.byHost fun d => d.sqTail ring tail

/-- CQ_HEAD (R320, R330). -/
def execCqHead (cq : Fin 64) (head : Nat) (s : State) : Result := s.byHost fun d => d.cqHead cq head

/-- NQ_HEAD (R320, R338). -/
def execNqHead (nq : Fin 8) (head : Nat) (s : State) : Result := s.byHost fun d => d.nqHead nq head

/-- DESCRIPTOR_FETCH (R321): the slots as they stand in host memory, each with whether it arrived poisoned. -/
def execDescriptorFetch (ring : Fin 64) (slots : List (List Byte × Bool)) (s : State) : Result :=
  s.byHost fun d => d.descriptorFetch ring slots

/-- RESUME (R336). -/
def execResume (ring : Fin 64) (s : State) : Result := s.byHost (Dp.resumeRing · s.gates ring)

/-- SKIP (R336). -/
def execSkip (ring : Fin 64) (s : State) : Result := s.byHost (Dp.skipRing · s.gates ring)

/-- Is a request for maintenance a MAINT of ring `n` that has not started. -/
def ofRing (n : Nat) (q : Req) : Bool :=
  match q.ch with
  | .maint _ r _ => r = n
  | _ => false

/-- RING_RESUME_CANCEL (R336, R477): its descriptors end, and queued maintenance of the ring is withdrawn. -/
def execRingResumeCancel (ring : Fin 64) (pendingSlots : List (List Byte)) (s : State) : Result :=
  .next (s.allWhen s.hostLive fun s =>
    let l := (s.mnt.queue ++ s.mnt.arrived).filter (ofRing ring)
    l.foldl (fun s q => s.withdraw stCancelled q) { s with dp := s.dp.cancelRing ring pendingSlots })

/-- RING_ENABLE (R345). -/
def execRingEnable (ring : Fin 64) (s : State) : Result := s.byHost fun d => d.ringEnable ring

/-- RING_DISABLE (R345). -/
def execRingDisable (ring : Fin 64) (s : State) : Result := s.byHost fun d => d.ringDisable ring

/-- ATU_INV (R22). -/
def execAtuInv (space : Fin 16) (scope : Fin 4) (address : Nat) (s : State) : Result :=
  s.byHost fun d => d.atuInv space scope address

/-- ATU_INV_COMPLETE (R22, R135, R270). -/
def execAtuInvComplete (s : State) : Result := s.byUnit Dp.atuInvComplete

/-- ATS_INVALIDATION (R25). -/
def execAtsInvalidation (pasid : Option Nat) (page pages : Nat) (s : State) : Result :=
  s.byHost fun d => d.atsInvalidation pasid page pages

/-- DESCRIPTOR_COMPLETE (R324, R328–R333). -/
def execDescriptorComplete (ring : Fin 64) (seq : Nat) (s : State) : Result := s.byHost fun d => d.descriptorComplete ring seq

/-- MSIX_COALESCE_EXPIRY (R329). -/
def execMsixCoalesceExpiry (vector : Fin 72) (s : State) : Result := s.byHost fun d => d.coalesceExpiry vector

/-- PRI_SUCCESS (R335). -/
def execPriSuccess (group : Fin 512) (s : State) : Result := s.byHost fun d => d.priSuccess group

/-- PRI_INVALID_REQUEST (R335): DETAIL 7. -/
def execPriInvalidRequest (group : Fin 512) (s : State) : Result := s.byHost fun d => d.priFails group 7

/-- PRI_RESPONSE_FAILURE (R335). -/
def execPriResponseFailure (group : Fin 512) (s : State) : Result := s.byHost fun d => d.priResponseFailure group

/-- PRI_TIMEOUT (R335): DETAIL 8. -/
def execPriTimeout (group : Fin 512) (s : State) : Result := s.byHost fun d => d.priFails group 8

/-- PRI_RESET (R335). -/
def execPriReset (s : State) : Result := s.byHost Dp.priReset

/-- HDM_WINDOW_ACCESS (R40, R41): CXL.mem reaches the window once Memory_Active is set. -/
def execHdmWindowAccess (offset : Nat) (access : HostAccess) (s : State) : Result :=
  .next (s.dpWhen (s.hostLive && s.pwr.memActive) fun d => d.hdmAccess offset access)

/-- HDM_DECODER_COMMIT (R348). -/
def execHdmDecoderCommit (s : State) : Result := s.byHost Dp.hdmCommit

end Sys2Proof.Machine
end

