-- ==== Sys2Proof/Machine/Errors.lean ====
section
/-!
DEFINITION. Meanings: errors, retirement, watchdogs and resets of a half (15_faults_log_monitors.md, R454, R461, R521).
-/
namespace Sys2Proof.Machine
open State

/-- CORRECTABLE_ERROR (R423). -/
def execCorrectableError (granary : Bool) (dpa syndrome : Nat) (s : State) : Result :=
  s.byUnit fun d => d.correctable granary dpa syndrome

/-- UNCORRECTABLE_ERROR (R425, R427). -/
def execUncorrectableError (place : UeAt) (s : State) : Result := s.byUnit fun d => d.uncorrectable place

/-- PARITY_REFETCH (R423). -/
def execParityRefetch (place : ParityAt) (s : State) : Result := s.byUnit fun d => d.parityRefetch place

/-- CRIB_PARITY (R423). -/
def execCribParity (tiller : Fin 192) (ctx : Nat) (bank : Fin 16) (s : State) : Result :=
  s.byUnit fun d => d.cribParity tiller ctx bank

/-- FLIT_RETRY (R423): of the mesh or the seam, with how often the flit was sent again. -/
def execFlitRetry (seam : Bool) (retries : Nat) (s : State) : Result := s.byUnit fun d => d.flitRetry seam retries

/-- FLIT_RETRY_EXHAUSTED (R423): FATAL, cause 4. -/
def execFlitRetryExhausted (s : State) : Result := s.byUnit fun d => d.fatal 4

/-- LANE_EVENT (R423). -/
def execLaneEvent (lane : Fin 32) (s : State) : Result := s.byPod fun d => d.laneEvent lane

/-- HPC_COPY_DONE (R431). -/
def execHpcCopyDone (channel : Fin 1024) (s : State) : Result :=
  .next (s.dpWhen (s.awake && !s.pwr.inReset (channel.val / 512)) fun d => d.hpcCopyDone channel)

/-- IDE_INTEGRITY_FAILURE (R461). -/
def execIdeIntegrityFailure (stream : Nat) (s : State) : Result := s.byHost fun d => d.ideFailure stream

/-- WATCHDOG_MISS (R454): of a firmware unit that runs; FATAL, cause 7. -/
def execWatchdogMiss (unit : Fin 6) (s : State) : Result :=
  .next (s.allWhen (s.kilnLive && (s.kiln.seg unit).isSome) fun s => s.fatal 7)

/-- HEARTH_WATCHDOG_EXPIRY (R454): FATAL, cause 7. -/
def execHearthWatchdogExpiry (s : State) : Result := .next (s.allWhen s.pwr.hearth fun s => s.fatal 7)

/-- HALF_RESET (R521, R281). -/
def execHalfReset (half : Fin 2) (s : State) : Result := .next (s.allWhen true fun s => s.halfReset half)

/-- HALF_RESET_EXIT (R281, R431). -/
def execHalfResetExit (half : Fin 2) (s : State) : Result := .next (s.allWhen true fun s => s.halfExit half)

end Sys2Proof.Machine
end

