-- ==== Sys2Proof/Machine/Frames.lean ====
section
/-!
DEFINITION. Meanings: Culm frames, ports and their timers (12_pod_links.md). A row names a type of Table 12.6; a frame
that is given with another TYPE or AUX is taken as one of its row.
-/
namespace Sys2Proof.Machine
namespace Dp

/-- A DATA frame: of a repair, of a row that a ROUTE sends, or of a collective. -/
def anyData (d : Dp) (f : Culm) : Dp :=
  if f.aux = 3 && 254 ≤ f.aux2 then d.rxRow f
  else
    match (if f.aux = 2 then d.repairOf f else none) with
    | some p => d.rxRepair p f
    | none => d.rxData f

/-- A CREDIT frame: of rows of a ROUTE, the request of a repair, or credit of a message. -/
def anyCredit (d : Dp) (f : Culm) : Dp :=
  if 254 ≤ f.aux2 then d.rxRowCredit f
  else
    match d.repairAsked f with
    | some own => d.sendRepair own f
    | none => d.rxControl f

/-- An ABORT frame: the refusal of a repair, or the end of a message. -/
def anyAbort (d : Dp) (f : Culm) : Dp :=
  match d.repairOf f with
  | some p => d.repairRefused p f
  | none => d.rxControl f

end Dp
open State

/-- A frame of the bulk class. -/
def bulk (f : Culm) (ty : Nat) : Culm := { f with ty, ember := false }

/-- A frame of the ember class. -/
def emberAs (f : Culm) (ty aux : Nat) : Culm := { f with ty, ember := true, aux }

/-- DATA (R361). -/
def execData (frame : Culm) (s : State) : Result := s.byPod fun d => (d.anyData (bulk frame 0)).progressPod

/-- ACK (R361). -/
def execAck (frame : Culm) (s : State) : Result := s.byPod fun d => (d.rxAck (emberAs frame 1 frame.aux)).progressPod

/-- NAK (R362). -/
def execNak (frame : Culm) (s : State) : Result := s.byPod fun d => (d.rxNak (emberAs frame 2 frame.aux)).progressPod

/-- CREDIT (R364). -/
def execCredit (frame : Culm) (s : State) : Result := s.byPod fun d => (d.anyCredit (emberAs frame 3 frame.aux)).progressPod

/-- BARRIER_ARRIVE (R379). -/
def execBarrierArrive (frame : Culm) (s : State) : Result := s.byPod fun d => (d.rxControl (emberAs frame 4 0)).progressPod

/-- BARRIER_RELEASE (R379). -/
def execBarrierRelease (frame : Culm) (s : State) : Result := s.byPod fun d => (d.rxControl (emberAs frame 4 1)).progressPod

/-- READY (R370, R371, R374). -/
def execReady (frame : Culm) (s : State) : Result := s.byPod fun d => (d.rxControl (emberAs frame 5 0)).progressPod

/-- BITMAP (R370). -/
def execBitmap (frame : Culm) (s : State) : Result := s.byPod fun d => (d.rxControl (emberAs frame 5 1)).progressPod

/-- ABORT (R382). -/
def execAbort (frame : Culm) (s : State) : Result := s.byPod fun d => (d.anyAbort (emberAs frame 5 2)).progressPod

/-- CANCEL_FRAME (R306). -/
def execCancelFrame (frame : Culm) (s : State) : Result := s.byPod fun d => (d.rxCancel (emberAs frame 6 0)).progressPod

/-- FINGERPRINT (R256). -/
def execFingerprint (frame : Culm) (s : State) : Result := s.byPod fun d => d.rxFingerprint (emberAs frame 7 0)

/-- VERDICT_MATCH (R256). -/
def execVerdictMatch (frame : Culm) (s : State) : Result := s.byPod fun d => d.rxMatch (emberAs frame 7 1)

/-- VERDICT_MISMATCH (R257). -/
def execVerdictMismatch (frame : Culm) (s : State) : Result := s.byPod fun d => d.rxMismatch (emberAs frame 7 2)

/-- SHARD_RET (R376). -/
def execShardRet (frame : Culm) (s : State) : Result := s.byPod fun d => (d.shardRet (bulk frame 9)).progressPod

/-- STEPREC (R373). -/
def execSteprec (frame : Culm) (s : State) : Result := s.byPod fun d => (d.rxControl (emberAs frame 10 0)).progressPod

/-- CONNECTION_RESET_NAK (R363). -/
def execConnectionResetNak (frame : Culm) (s : State) : Result :=
  s.byPod fun d => d.rxResetNak { emberAs frame 2 0 with aux2 := 1 }

/-- CONNECTION_RESET_ACK (R363). -/
def execConnectionResetAck (frame : Culm) (s : State) : Result :=
  s.byPod fun d => d.rxResetAck { emberAs frame 1 0 with aux2 := 1 }

/-- FRAME_DISCARD (R359): sender, class and PSN where they can be told. -/
def execFrameDiscard (known : Option (Nat × Nat × Nat)) (s : State) : Result := s.byPod fun d => d.frameDiscard known

/-- PFC_PAUSE (R352). -/
def execPfcPause (port : Fin 8) (on : Bool) (s : State) : Result := s.byPod fun d => d.pfcPause port on

/-- PTP_MESSAGE (R353): the offset measured from the time source, in ns. -/
def execPtpMessage (offset : Int) (s : State) : Result := s.byPod fun d => d.ptpMessage offset

/-- ACK_TIMER (R361). -/
def execAckTimer (peer : Nat) (cls : Fin 2) (s : State) : Result := s.byPod fun d => d.ackTimer peer cls

/-- REORDER_TIMEOUT (R361). -/
def execReorderTimeout (peer : Nat) (cls : Fin 2) (s : State) : Result := s.byPod fun d => d.reorderTimeout peer cls

/-- RETX_TIMEOUT (R362). -/
def execRetxTimeout (peer : Nat) (cls : Fin 2) (s : State) : Result := s.byPod fun d => (d.retxTimeout peer cls).progressPod

/-- LANE_TRAINING_FAIL (R351). -/
def execLaneTrainingFail (lane : Fin 32) (s : State) : Result := s.byPod fun d => (d.laneTrainingFail lane).progressPod

/-- PORT_UP (R351). -/
def execPortUp (port : Fin 8) (s : State) : Result := s.byPod fun d => (d.portUp port).progressPod

/-- PREEMPTION_VERIFIED (R352). -/
def execPreemptionVerified (port : Fin 8) (s : State) : Result := s.byPod fun d => d.preemptVerified port

end Sys2Proof.Machine
end

