-- ==== Sys2Proof/Machine/Happenings.lean ====
section
/-!
DEFINITION. Meanings: what goes on after dispatch (list entries, promotions, sheaves, generations, snapshots, time-outs
of descriptors) by chapters 1, 7, 9, 10, 11 and 13.
-/
namespace Sys2Proof.Machine
open State

/-- FENCE_TIMEOUT (R326). -/
def execFenceTimeout (ring : Fin 64) (s : State) : Result := s.byHost fun d => d.fenceTimeout ring

/-- SHEAF_COMMIT_POINT (R278). -/
def execSheafCommitPoint (sheaf : Fin 4096) (s : State) : Result := s.byUnit fun d => d.commitPoint sheaf

/-- SHEAF_PROMOTION_END (R278, R281). -/
def execSheafPromotionEnd (sheaf : Fin 4096) (s : State) : Result := s.byUnit fun d => (d.promotionEnd sheaf).wake

/-- COUNT_EXCHANGE (R295): per member in rank order, whether it refuses, its digest and its counts. -/
def execCountExchange (gen round : Nat) (counts : List (Bool × Nat × List Nat)) (s : State) : Result :=
  s.byPod fun d => d.countExchange gen round counts

/-- EXPERT_FETCH_DONE (R300). -/
def execExpertFetchDone (gen expert : Nat) (s : State) : Result :=
  s.byUnit fun d => ((d.fetchDone gen expert).gleanerNext 0).gleanerNext 1

/-- A2A_TIMEOUT (R304, Table 10.7). -/
def execA2aTimeout (gen : Nat) (s : State) : Result := s.byUnit fun d => d.a2aTimeout gen

/-- BARRIER_TIMEOUT (R381). -/
def execBarrierTimeout (coll : Nat) (s : State) : Result := s.byUnit fun d => d.barrierTimeout coll

/-- SNAPSHOT_COPY (R388). -/
def execSnapshotCopy (s : State) : Result := s.byUnit Dp.snapshotCopy

/-- SNAPSHOT_COPY_DONE (R388). -/
def execSnapshotCopyDone (s : State) : Result := s.byUnit Dp.snapshotCopyDone

/-- SNAPSHOT_TIMEOUT (R388). -/
def execSnapshotTimeout (ring : Fin 64) (s : State) : Result := s.byUnit fun d => d.snapshotTimeout ring

/-- LIST_ENTRY_TAKE (R206, R207, R212). -/
def execListEntryTake (tiller : Fin 192) (s : State) : Result := s.byUnit fun d => d.takeEntry s.gates tiller

/-- LIST_ENTRY_DONE (R205). -/
def execListEntryDone (tiller : Fin 192) (ctx : Fin 8) (s : State) : Result :=
  s.byUnit fun d => d.finishEntry s.gates tiller ctx

/-- PROMOTION_DONE (R31). -/
def execPromotionDone (space : Fin 16) (page : Nat) (s : State) : Result := s.byUnit fun d => d.promotionDone space page

/-- FP_DEADLINE (R256). -/
def execFpDeadline (shard step : Nat) (s : State) : Result := s.byUnit fun d => d.fpDeadline shard step

/-- NET_TIMEOUT (R254). -/
def execNetTimeout (shard : Nat) (s : State) : Result := s.byUnit fun d => d.netTimeout shard

/-- DEADLINE_EXPIRY (R370). -/
def execDeadlineExpiry (coll : Nat) (s : State) : Result := s.byUnit fun d => (d.deadlineExpiry coll).progressPod

/-- PEER_TIMEOUT (R370). -/
def execPeerTimeout (coll : Nat) (s : State) : Result := s.byUnit fun d => d.peerTimeout coll

/-- STRAGGLER_TIMEOUT (R374). -/
def execStragglerTimeout (coll rank : Nat) (s : State) : Result := s.byUnit fun d => d.stragglerTimeout coll rank

end Sys2Proof.Machine
end

