-- ==== Sys2Proof/Machine/Settings.lean ====
section
/-!
DEFINITION. Meanings: writes of set-up registers and COMMIT (19_setup_register_map.md, R9, R344, R411, R415).
-/
namespace Sys2Proof.Machine
namespace State

/-- A token register (Table 16.12): a 4-byte write holds zero in the other half (R513). -/
def tokWrite (s : State) (off size value : Nat) : State :=
  match Dp.widened off size value with
  | none => s
  | some (o, w, m) => { s with kiln := { s.kiln with tok := Tab.set (fun _ => 0) s.kiln.tok ((o - 0x0F00040) / 8) (w &&& m) } }

/-- Is a register of a tiller whose group is switched off (R414). -/
def tlrDark (s : State) (off : Nat) : Bool :=
  match blockOf off with
  | some (.tlr t, _) => s.dp.domOff.has (t.val / 12)
  | _ => false

/-- A write to a register with no behaviour of its own (R9, R513). In recovery only the KLN_RCV registers respond
(R452). -/
def writeReg (s : State) (off size value : Nat) : State :=
  if s.kiln.recovery then
    s.dpWhen (s.awake && s.pwr.link && !s.pwr.refLost && 0x0F00180 ≤ off && off < 0x0F00190) fun d => d.registerWrite off size value
  else if !s.hostLive || s.tlrDark off then s
  else if 0x0F00040 ≤ off && off < 0x0F000C0 then s.tokWrite off size value
  else s.dpWhen true fun d => d.registerWrite off size value

/-- A CLK COMMIT asks for activity 5 for each half whose CLK_HALFh it changes (R411). -/
def askClock (old s : State) (h : Nat) : State :=
  let w := s.dp.reg (Reg.clkHalf h)
  if w = old.dp.reg (Reg.clkHalf h) then s
  else s.submit { act := 5, res := h, param := w.fld 1 0, ch := .clk h, queue := w.bit 4 }

/-- A PWR COMMIT asks for activity 6 when it changes PWR_CTL.IDLE (R415). -/
def askIdle (old s : State) : State :=
  let w := s.dp.reg Reg.pwrCtl
  if w.bit 0 = (old.dp.reg Reg.pwrCtl).bit 0 then s
  else s.submit { act := 6, res := 0, param := w.fld 0 0, ch := .idle }

/-- A COMMIT of a block, with the requests for maintenance that it makes. -/
def commitBlock (s : State) (b : Block) : State :=
  let t := { s with dp := s.dp.commit b }
  match b with
  | .clk => askClock s (askClock s t 0) 1
  | .pwr => askIdle s t
  | .tlr i => if s.dp.domOff.has (i.val / 12) then s else t
  | _ => t

end State
open State

/-- REGISTER_COMMIT (R344). -/
def execRegisterCommit (block : Block) (s : State) : Result := .next (s.allWhen s.hostLive fun s => s.commitBlock block)

/-- REGISTER_WRITE (R9, R513). -/
def execRegisterWrite (offset size value : Nat) (s : State) : Result := .next (s.writeReg offset size value)

/-- RED_WAYS_APPLY (R219). -/
def execRedWaysApply (half : Fin 2) (s : State) : Result := s.byUnit fun d => d.redWaysApply half

/-- PHX_RNG_WRITE (R75). -/
def execPhxRngWrite (s : State) : Result := s.byHost Dp.rngWrite

/-- PHX_TRAP_ARM (R66). -/
def execPhxTrapArm (s : State) : Result := s.byHost Dp.trapArm

/-- PHX_LS_LOAD (R73). -/
def execPhxLsLoad (go : Bool) (exp : Fin 64) (s : State) : Result := s.byHost fun d => d.lsLoad go exp

/-- ASH_THAW (R440). -/
def execAshThaw (s : State) : Result := s.byHost Dp.ashThaw

/-- MON_RESTART (R443). -/
def execMonRestart (slots : BitVec 64) (s : State) : Result := s.byHost fun d => d.monRestarts slots.toNat

end Sys2Proof.Machine
end

