-- ==== Sys2Proof/Machine/Trust.lean ====
section
/-!
DEFINITION. Meanings: Kiln, one-time memory, SPDM, PLDM, the sideband, monitors and the debug window
(16_kiln_security_debug.md, 15_faults_log_monitors.md, R504, R505, R518).
-/
namespace Sys2Proof.Machine
namespace State

/-- What group 3 of the sensors reports while it is recalibrated (R483): its last values. -/
def lastVolts (s : State) (src qual : Nat) (v : Int) : Int :=
  if !(s.mnt.running.any fun q => q.act = 12 && q.res = 3) then v
  else if src = 10 then ((s.pwr.pin / 1000 : Nat) : Int)
  else if qual = 0 then ((10 * s.pwr.vin : Nat) : Int)
  else Tab.get (fun _ => 0) s.pwr.rails qual

/-- A reading as the monitors get it (R442, R483): source, number and value. -/
def reported (s : State) (r : Nat × Nat × Int) : Nat × Nat × Int :=
  if r.1 = 8 then (r.1, r.2.1, s.reading r.2.1 r.2.2)
  else if r.1 = 9 || r.1 = 10 then (r.1, r.2.1, s.lastVolts r.1 r.2.1 r.2.2)
  else r

/-- Takes a reading: a sensor, the input voltage or a core rail in mV, the input power in W, whose millisecond counts
as energy in mJ (Table 14.13). -/
def takeReading (s : State) (r : Nat × Nat × Int) : State :=
  let p := s.pwr
  if r.1 = 8 then { s with pwr := { p with sensors := Tab.set (fun _ => 0) p.sensors r.2.1 r.2.2 } }
  else if r.1 = 9 && r.2.1 = 0 then { s with pwr := { p with vin := (r.2.2 / 10).toNat } }
  else if r.1 = 9 then { s with pwr := { p with rails := Tab.set (fun _ => 0) p.rails r.2.1 r.2.2 } }
  else if r.1 = 10 then
    let pin := 1000 * r.2.2.toNat
    { s with dp := s.dp.bump Reg.pwrEnergy r.2.2.toNat, pwr := { p with pin, iin := 10 * pin / p.vin } }
  else s

/-- One millisecond's readings. With the main supply off only the sensors that Hearth powers are read (R507). -/
def sample (s : State) (rs : List (Nat × Nat × Int)) : State :=
  let on := if s.pwr.main then rs else if s.pwr.hearth then rs.filter fun r => r.1 = 8 && 36 ≤ r.2.1 else []
  let got := on.map s.reported
  let s := got.foldl takeReading s
  if s.awake then { s with dp := s.dp.monitorSample got } else s

end State
open State

/-- OTP_PROG with GO = 1 (R456). -/
def execOtpProg (queue : Bool) (s : State) : Result := .next (s.allWhen s.hostLive fun s => s.otpProg queue)

/-- OTP_RB_ADV (R457). -/
def execOtpRbAdv (counter : Fin 8) (target : Fin 128) (s : State) : Result :=
  .next (s.allWhen s.hostLive fun s => s.otpRbAdv counter target)

/-- KLN_NONCE_REQ (R463). -/
def execKlnNonceReq (s : State) : Result := .next (s.allWhen s.hostLive State.drawNonce)

/-- KLN_TOK_GO (R464). -/
def execKlnTokGo (s : State) : Result := .next (s.allWhen s.hostLive fun s => s.token s.kiln.tokenBytes)

/-- KLN_DBG_CLOSE (R464). -/
def execKlnDbgClose (s : State) : Result := .next (s.allWhen s.hostLive fun s => { s with kiln := s.kiln.closeDebug })

/-- KLN_RCV_GO (R452): the segments of the bundle that the ROM fetches. -/
def execKlnRcvGo (segments : List (List Byte)) (s : State) : Result := .next (s.recoveryGo segments)

/-- SPDM_REQUEST (R459–R465): over DOE (0), which needs the host link, or MCTP (1). -/
def execSpdmRequest (transport : Fin 2) (request : Spdm) (s : State) : Result :=
  .next (s.allWhen (s.kilnLive && (transport = 1 || (s.pwr.link && !s.pwr.perst))) fun s => s.spdm transport request)

/-- IDE_KM (R461): over a secured session on DOE. -/
def execIdeKm (session stream : Nat) (key : List Byte) (s : State) : Result :=
  .next (s.allWhen (s.kilnLive && s.pwr.link && !s.pwr.perst) fun s => s.ideKey session stream key)

/-- PLDM_FIRMWARE_UPDATE (R468). -/
def execPldmFirmwareUpdate (segment : Fin 6) (bytes : List Byte) (s : State) : Result := s.byKiln fun s => s.pldm segment bytes

/-- ASH_READ (R441): served while Hearth has a supply. -/
def execAshRead (start count : Nat) (s : State) : Result := .next (s.dpWhen s.pwr.hearth fun d => d.ashRead start count)

/-- MCTP_MON_READ (R441, R444). -/
def execMctpMonRead (slot restart : Nat) (s : State) : Result := .next (s.dpWhen s.pwr.hearth fun d => d.mctpMonRead slot restart)

/-- ENTDAA (R504). -/
def execEntdaa (address : Fin 128) (s : State) : Result :=
  .next (if s.pwr.hearth then { s with pwr := { s.pwr with i3c := address } } else s)

/-- SET_ENDPOINT_ID (R505). -/
def execSetEndpointId (eid : Fin 256) (s : State) : Result :=
  .next (if s.pwr.hearth then { s with pwr := { s.pwr with eid } } else s)

/-- MONITOR_WINDOW_END (R443). -/
def execMonitorWindowEnd (slot : Fin 64) (s : State) : Result := s.byUnit fun d => d.monWindowEnd slot

/-- MONITOR_SAMPLE (R442). -/
def execMonitorSample (readings : List (Nat × Nat × Int)) (s : State) : Result := .next (s.sample readings)

/-- DBG_STOKER_HALT (R518). -/
def execDbgStokerHalt (mask : Fin 256) (s : State) : Result := .next (s.allWhen s.hostLive fun s => s.stokerHalt mask)

/-- DBG_STOKER_STEP (R518). -/
def execDbgStokerStep (mask : Fin 256) (s : State) : Result := .next (s.allWhen s.hostLive fun s => s.stokerStep mask)

/-- DEBUG_WINDOW_WRITE (R518). -/
def execDebugWindowWrite (offset size value : Nat) (s : State) : Result :=
  .next (s.allWhen s.hostLive fun s => s.windowWrite offset size value)

end Sys2Proof.Machine
end

