-- ==== Sys2Proof/Machine/Upkeep.lean ====
section
/-!
DEFINITION. Meanings: maintenance (17_live_service.md). The row of an activity is its request's turn at the gate: the
oldest request for it that has arrived is judged.
-/
namespace Sys2Proof.Machine
namespace State

/-- The oldest request that waits for an activity on a resource is judged (R474). -/
def turn (s : State) (act res : Nat) : State := s.allWhen s.awake fun s => s.judge act res

/-- A continuous scrub pass of a tier of a half ends (R478), unless MNT_SCRUB does not ask for it or it is paused. -/
def scrubPass (s : State) (res : Nat) : State :=
  if (s.dp.reg Reg.mntScrub).bit (res / 2) && !s.scrubPaused res && !s.gleanerDrains (res % 2) then
    { s with dp := s.dp.bump (Reg.mntCnt 4) } else s

/-- Is Hearth's request for an activity on a resource under way already. -/
def asked (s : State) (act res : Nat) : Bool :=
  (s.mnt.arrived ++ s.mnt.queue ++ s.mnt.running).any fun q => q.act = act && q.res = res && q.ch = .hearth

/-- Hearth asks for an activity when MNT_CTL.AUTO_RT = 1 (R478). -/
def autoAsk (s : State) (act res : Nat) : State :=
  if (s.dp.reg Reg.mntCtl).bit 1 && !s.asked act res then s.hearthAsks act res else s

/-- Units that activities 1, 2 and 3 retrain (Table 17.1). -/
def retrainUnits (act : Nat) : Nat := if act = 2 then 32 else 16

/-- Hearth asks for the retraining of a unit whose sensor has moved by 10 °C since it was trained (R478). -/
def autoRetrain (s : State) (act unit : Nat) : State :=
  let moved := s.pwr.sensor (refSensor act unit) - Tab.get (fun _ => 0) s.pwr.trained (act * 64 + unit)
  if unit < retrainUnits act && 160 ≤ moved.natAbs then s.autoAsk act unit else s

/-- PWR_DOM_REQ (R414, Table 14.13): a domain that cannot be switched alone is refused. -/
def domainWrite (s : State) (dom : Nat) (queue on : Bool) : State :=
  if 50 ≤ dom || !domainAlone dom then { s with mnt := { s.mnt with domNum := dom, domRes := 3 } }
  else s.admitNow { act := 7, res := dom, param := if on then 1 else 0, ch := .domain, queue }

end State
open State

/-- HBM_RT, activity 1 (R473). -/
def execHbmRt (stack : Fin 16) (s : State) : Result := .next (s.turn 1 stack)

/-- L_RT, activity 2 (R473). -/
def execLRt (channel : Fin 32) (s : State) : Result := .next (s.turn 2 channel)

/-- P_RT, activity 3 (R473). -/
def execPRt (channel : Fin 16) (s : State) : Result := .next (s.turn 3 channel)

/-- LANE, activity 4 (R473). -/
def execLane (lane : Fin 32) (s : State) : Result := .next (s.turn 4 lane)

/-- CLOCK, activity 5 (R411). -/
def execClock (half : Fin 2) (s : State) : Result := .next (s.turn 5 half)

/-- IDLE, activity 6 (R415). -/
def execIdle (s : State) : Result := .next (s.turn 6 0)

/-- DOMAIN, activity 7 (R414): through MAINT, or by a write of PWR_DOM_REQ. -/
def execDomain (how : DomainBy) (s : State) : Result :=
  match how with
  | .request domain => .next (s.turn 7 domain)
  | .write domain queue on => .next (s.allWhen s.hostLive fun s => s.domainWrite domain queue on)

/-- FW, activity 8 (R468). -/
def execFw (segment : Fin 6) (s : State) : Result := .next (s.turn 8 segment)

/-- FW_SWAP (R468, Table 16.10). -/
def execFwSwap (s : State) : Result := .next (s.allWhen s.awake State.swap)

/-- SCRUB, activity 9 (R478): a pass asked for through MAINT is judged; with none waiting a continuous pass ends. -/
def execScrub (part : Fin 6) (s : State) : Result :=
  .next (if s.mnt.arrived.any fun q => q.act = 9 && q.res = part.val then s.turn 9 part
    else s.allWhen s.awake fun s => s.scrubPass part)

/-- TLR_RET, activity 10 (R482). -/
def execTlrRet (tiller : Fin 192) (s : State) : Result := .next (s.turn 10 tiller)

/-- TLR_REIN, activity 11 (R482). -/
def execTlrRein (tiller : Fin 192) (s : State) : Result := .next (s.turn 11 tiller)

/-- SENSOR, activity 12 (R483). -/
def execSensor (group : Fin 4) (s : State) : Result := .next (s.turn 12 group)

/-- DRAIN, activity 14 (R393). -/
def execDrain (image : Nat) (s : State) : Result := .next (s.turn 14 image)

/-- CH_RET, activity 15 (R432). -/
def execChRet (channel : Fin 48) (s : State) : Result := .next (s.turn 15 channel)

/-- MAINT_ACTIVITY_END (R479). -/
def execMaintActivityEnd (request : Nat) (s : State) : Result := .next (s.allWhen s.awake fun s => s.activityEnd request)

/-- QUEUE_TIMEOUT (R477): Hearth's own requests do not time out. -/
def execQueueTimeout (request : Nat) (s : State) : Result :=
  .next (s.allWhen s.awake fun s =>
    match s.mnt.queue.find? fun q => q.num = request && q.ch ≠ .hearth with
    | some q => { s with dp := s.dp.bump (Reg.mntCnt 3) }.withdraw stTimeout q
    | none => s)

/-- MNT_CANCEL (R477). -/
def execMntCancel (request : Nat) (s : State) : Result :=
  .next (s.allWhen s.hostLive fun s =>
    match s.mnt.queue.find? fun q => q.num = request with
    | some q => s.withdraw stCancelled q
    | none => s)

/-- AUTO_RT_REQUEST (R478): activity `kind + 1` on a unit. -/
def execAutoRtRequest (kind : Fin 3) (unit : Nat) (s : State) : Result :=
  .next (s.allWhen s.awake fun s => s.autoRetrain (kind + 1) unit)

/-- LANE_RECAL_REQUEST (R478). -/
def execLaneRecalRequest (lane : Fin 32) (s : State) : Result := .next (s.allWhen s.awake fun s => s.autoAsk 4 lane)

/-- SENSOR_RECAL_TIMER (R478): one request for each sensor group. -/
def execSensorRecalTimer (s : State) : Result :=
  .next (s.allWhen s.awake fun s => (List.range 4).foldl (fun s g => s.autoAsk 12 g) s)

end Sys2Proof.Machine
end

