-- ==== Sys2Proof/Machine/Dispatch.lean ====
section
/-!
DEFINITION. What each command does: one arm per constructor of `Instr`, each a call of its meaning.
-/
namespace Sys2Proof.Machine

def exec (i : Instr) (s : State) : Host.Outcome State Fault Refusal :=
  match i with
  | .sqTail ring tail => Sys2Proof.Machine.execSqTail ring tail s
  | .cqHead cq head => Sys2Proof.Machine.execCqHead cq head s
  | .nqHead nq head => Sys2Proof.Machine.execNqHead nq head s
  | .descriptorFetch ring slots => Sys2Proof.Machine.execDescriptorFetch ring slots s
  | .resume ring => Sys2Proof.Machine.execResume ring s
  | .skip ring => Sys2Proof.Machine.execSkip ring s
  | .ringResumeCancel ring pendingSlots => Sys2Proof.Machine.execRingResumeCancel ring pendingSlots s
  | .ringEnable ring => Sys2Proof.Machine.execRingEnable ring s
  | .ringDisable ring => Sys2Proof.Machine.execRingDisable ring s
  | .registerCommit block => Sys2Proof.Machine.execRegisterCommit block s
  | .registerWrite offset size value => Sys2Proof.Machine.execRegisterWrite offset size value s
  | .redWaysApply half => Sys2Proof.Machine.execRedWaysApply half s
  | .phxRngWrite => Sys2Proof.Machine.execPhxRngWrite s
  | .phxTrapArm => Sys2Proof.Machine.execPhxTrapArm s
  | .phxLsLoad go exp => Sys2Proof.Machine.execPhxLsLoad go exp s
  | .atuInv space scope address => Sys2Proof.Machine.execAtuInv space scope address s
  | .atuInvComplete => Sys2Proof.Machine.execAtuInvComplete s
  | .atsInvalidation pasid page pages => Sys2Proof.Machine.execAtsInvalidation pasid page pages s
  | .descriptorComplete ring seq => Sys2Proof.Machine.execDescriptorComplete ring seq s
  | .msixCoalesceExpiry vector => Sys2Proof.Machine.execMsixCoalesceExpiry vector s
  | .priSuccess group => Sys2Proof.Machine.execPriSuccess group s
  | .priInvalidRequest group => Sys2Proof.Machine.execPriInvalidRequest group s
  | .priResponseFailure group => Sys2Proof.Machine.execPriResponseFailure group s
  | .priTimeout group => Sys2Proof.Machine.execPriTimeout group s
  | .nop ring => Sys2Proof.Machine.execNop ring s
  | .fence ring => Sys2Proof.Machine.execFence ring s
  | .fenceTimeout ring => Sys2Proof.Machine.execFenceTimeout ring s
  | .logRead ring => Sys2Proof.Machine.execLogRead ring s
  | .monRead ring => Sys2Proof.Machine.execMonRead ring s
  | .promote ring => Sys2Proof.Machine.execPromote ring s
  | .demote ring => Sys2Proof.Machine.execDemote ring s
  | .gemm ring => Sys2Proof.Machine.execGemm ring s
  | .copy ring => Sys2Proof.Machine.execCopy ring s
  | .gather ring => Sys2Proof.Machine.execGather ring s
  | .scatterAdd ring => Sys2Proof.Machine.execScatterAdd ring s
  | .gemmSp ring => Sys2Proof.Machine.execGemmSp ring s
  | .compress ring => Sys2Proof.Machine.execCompress ring s
  | .prune ring => Sys2Proof.Machine.execPrune ring s
  | .regrow ring => Sys2Proof.Machine.execRegrow ring s
  | .remask ring => Sys2Proof.Machine.execRemask ring s
  | .predict ring => Sys2Proof.Machine.execPredict ring s
  | .fusedGrg ring => Sys2Proof.Machine.execFusedGrg ring s
  | .update ring => Sys2Proof.Machine.execUpdate ring s
  | .updateAccum ring => Sys2Proof.Machine.execUpdateAccum ring s
  | .updateNetwork ring => Sys2Proof.Machine.execUpdateNetwork ring s
  | .updateStep ring => Sys2Proof.Machine.execUpdateStep ring s
  | .normPartial ring => Sys2Proof.Machine.execNormPartial ring s
  | .normClose ring => Sys2Proof.Machine.execNormClose ring s
  | .normClosePod ring => Sys2Proof.Machine.execNormClosePod ring s
  | .recompute ring => Sys2Proof.Machine.execRecompute ring s
  | .sheafOpen ring => Sys2Proof.Machine.execSheafOpen ring s
  | .sheafCommit ring => Sys2Proof.Machine.execSheafCommit ring s
  | .sheafCommitPoint sheaf => Sys2Proof.Machine.execSheafCommitPoint sheaf s
  | .sheafPromotionEnd sheaf => Sys2Proof.Machine.execSheafPromotionEnd sheaf s
  | .sheafAbort ring => Sys2Proof.Machine.execSheafAbort ring s
  | .routeDispatch ring => Sys2Proof.Machine.execRouteDispatch ring s
  | .countExchange gen round counts => Sys2Proof.Machine.execCountExchange gen round counts s
  | .routeRun ring => Sys2Proof.Machine.execRouteRun ring s
  | .expertFetchDone gen expert => Sys2Proof.Machine.execExpertFetchDone gen expert s
  | .routeCombine ring => Sys2Proof.Machine.execRouteCombine ring s
  | .a2aTimeout gen => Sys2Proof.Machine.execA2aTimeout gen s
  | .cancel ring => Sys2Proof.Machine.execCancel ring s
  | .reduce ring => Sys2Proof.Machine.execReduce ring s
  | .reduceSteprec ring => Sys2Proof.Machine.execReduceSteprec ring s
  | .alltoall ring => Sys2Proof.Machine.execAlltoall ring s
  | .send ring => Sys2Proof.Machine.execSend ring s
  | .recv ring => Sys2Proof.Machine.execRecv ring s
  | .barrier ring => Sys2Proof.Machine.execBarrier ring s
  | .barrierTimeout coll => Sys2Proof.Machine.execBarrierTimeout coll s
  | .snapshotTake ring => Sys2Proof.Machine.execSnapshotTake ring s
  | .snapshotCopy => Sys2Proof.Machine.execSnapshotCopy s
  | .snapshotCopyDone => Sys2Proof.Machine.execSnapshotCopyDone s
  | .snapshotTimeout ring => Sys2Proof.Machine.execSnapshotTimeout ring s
  | .snapshotDrain ring => Sys2Proof.Machine.execSnapshotDrain ring s
  | .snapshotUnlock ring => Sys2Proof.Machine.execSnapshotUnlock ring s
  | .restore ring => Sys2Proof.Machine.execRestore ring s
  | .maint ring => Sys2Proof.Machine.execMaint ring s
  | .listEntryTake tiller => Sys2Proof.Machine.execListEntryTake tiller s
  | .listEntryDone tiller ctx => Sys2Proof.Machine.execListEntryDone tiller ctx s
  | .promotionDone space page => Sys2Proof.Machine.execPromotionDone space page s
  | .hdmWindowAccess offset access => Sys2Proof.Machine.execHdmWindowAccess offset access s
  | .data frame => Sys2Proof.Machine.execData frame s
  | .ack frame => Sys2Proof.Machine.execAck frame s
  | .nak frame => Sys2Proof.Machine.execNak frame s
  | .credit frame => Sys2Proof.Machine.execCredit frame s
  | .barrierArrive frame => Sys2Proof.Machine.execBarrierArrive frame s
  | .barrierRelease frame => Sys2Proof.Machine.execBarrierRelease frame s
  | .ready frame => Sys2Proof.Machine.execReady frame s
  | .bitmap frame => Sys2Proof.Machine.execBitmap frame s
  | .abort frame => Sys2Proof.Machine.execAbort frame s
  | .cancelFrame frame => Sys2Proof.Machine.execCancelFrame frame s
  | .fingerprint frame => Sys2Proof.Machine.execFingerprint frame s
  | .verdictMatch frame => Sys2Proof.Machine.execVerdictMatch frame s
  | .verdictMismatch frame => Sys2Proof.Machine.execVerdictMismatch frame s
  | .fpDeadline shard step => Sys2Proof.Machine.execFpDeadline shard step s
  | .shardRet frame => Sys2Proof.Machine.execShardRet frame s
  | .netTimeout shard => Sys2Proof.Machine.execNetTimeout shard s
  | .steprec frame => Sys2Proof.Machine.execSteprec frame s
  | .connectionResetNak frame => Sys2Proof.Machine.execConnectionResetNak frame s
  | .connectionResetAck frame => Sys2Proof.Machine.execConnectionResetAck frame s
  | .frameDiscard known => Sys2Proof.Machine.execFrameDiscard known s
  | .pfcPause port on => Sys2Proof.Machine.execPfcPause port on s
  | .ptpMessage offset => Sys2Proof.Machine.execPtpMessage offset s
  | .ackTimer peer cls => Sys2Proof.Machine.execAckTimer peer cls s
  | .reorderTimeout peer cls => Sys2Proof.Machine.execReorderTimeout peer cls s
  | .retxTimeout peer cls => Sys2Proof.Machine.execRetxTimeout peer cls s
  | .deadlineExpiry coll => Sys2Proof.Machine.execDeadlineExpiry coll s
  | .peerTimeout coll => Sys2Proof.Machine.execPeerTimeout coll s
  | .laneTrainingFail lane => Sys2Proof.Machine.execLaneTrainingFail lane s
  | .correctableError granary dpa syndrome => Sys2Proof.Machine.execCorrectableError granary dpa syndrome s
  | .uncorrectableError place => Sys2Proof.Machine.execUncorrectableError place s
  | .parityRefetch place => Sys2Proof.Machine.execParityRefetch place s
  | .cribParity tiller ctx bank => Sys2Proof.Machine.execCribParity tiller ctx bank s
  | .flitRetry seam retries => Sys2Proof.Machine.execFlitRetry seam retries s
  | .flitRetryExhausted => Sys2Proof.Machine.execFlitRetryExhausted s
  | .laneEvent lane => Sys2Proof.Machine.execLaneEvent lane s
  | .hpcCopyDone channel => Sys2Proof.Machine.execHpcCopyDone channel s
  | .watchdogMiss unit => Sys2Proof.Machine.execWatchdogMiss unit s
  | .hearthWatchdogExpiry => Sys2Proof.Machine.execHearthWatchdogExpiry s
  | .halfReset half => Sys2Proof.Machine.execHalfReset half s
  | .halfResetExit half => Sys2Proof.Machine.execHalfResetExit half s
  | .ideIntegrityFailure stream => Sys2Proof.Machine.execIdeIntegrityFailure stream s
  | .throttleStart sensor reading => Sys2Proof.Machine.execThrottleStart sensor reading s
  | .throttleEscalate sensor reading => Sys2Proof.Machine.execThrottleEscalate sensor reading s
  | .throttleEnd sensor reading => Sys2Proof.Machine.execThrottleEnd sensor reading s
  | .powerCap watts cycles0 cycles1 => Sys2Proof.Machine.execPowerCap watts cycles0 cycles1 s
  | .powerCapRelease watts => Sys2Proof.Machine.execPowerCapRelease watts s
  | .powerExcursion watts => Sys2Proof.Machine.execPowerExcursion watts s
  | .currentLimit watts => Sys2Proof.Machine.execCurrentLimit watts s
  | .overcurrent => Sys2Proof.Machine.execOvercurrent s
  | .thermalTrip sensor reading => Sys2Proof.Machine.execThermalTrip sensor reading s
  | .tripSwitchOpen => Sys2Proof.Machine.execTripSwitchOpen s
  | .vinOutOfRange vin => Sys2Proof.Machine.execVinOutOfRange vin s
  | .vinCollapse vin => Sys2Proof.Machine.execVinCollapse vin s
  | .vinRise vin => Sys2Proof.Machine.execVinRise vin s
  | .prechargeDone => Sys2Proof.Machine.execPrechargeDone s
  | .hearthStart aux => Sys2Proof.Machine.execHearthStart aux s
  | .prsntHigh => Sys2Proof.Machine.execPrsntHigh s
  | .referenceLost => Sys2Proof.Machine.execReferenceLost s
  | .rootPllLock => Sys2Proof.Machine.execRootPllLock s
  | .coldReset => Sys2Proof.Machine.execColdReset s
  | .memtrainDone => Sys2Proof.Machine.execMemtrainDone s
  | .warmReset how => Sys2Proof.Machine.execWarmReset how s
  | .flr => Sys2Proof.Machine.execFlr s
  | .d3hotEntry => Sys2Proof.Machine.execD3hotEntry s
  | .d3hotExit => Sys2Proof.Machine.execD3hotExit s
  | .seamReopen => Sys2Proof.Machine.execSeamReopen s
  | .clockRaiseStep half => Sys2Proof.Machine.execClockRaiseStep half s
  | .hbmRt stack => Sys2Proof.Machine.execHbmRt stack s
  | .lRt channel => Sys2Proof.Machine.execLRt channel s
  | .pRt channel => Sys2Proof.Machine.execPRt channel s
  | .lane lane => Sys2Proof.Machine.execLane lane s
  | .clock half => Sys2Proof.Machine.execClock half s
  | .idle => Sys2Proof.Machine.execIdle s
  | .domain how => Sys2Proof.Machine.execDomain how s
  | .fw segment => Sys2Proof.Machine.execFw segment s
  | .fwSwap => Sys2Proof.Machine.execFwSwap s
  | .scrub part => Sys2Proof.Machine.execScrub part s
  | .tlrRet tiller => Sys2Proof.Machine.execTlrRet tiller s
  | .tlrRein tiller => Sys2Proof.Machine.execTlrRein tiller s
  | .sensor group => Sys2Proof.Machine.execSensor group s
  | .drain image => Sys2Proof.Machine.execDrain image s
  | .chRet channel => Sys2Proof.Machine.execChRet channel s
  | .maintActivityEnd request => Sys2Proof.Machine.execMaintActivityEnd request s
  | .queueTimeout request => Sys2Proof.Machine.execQueueTimeout request s
  | .mntCancel request => Sys2Proof.Machine.execMntCancel request s
  | .autoRtRequest kind unit => Sys2Proof.Machine.execAutoRtRequest kind unit s
  | .laneRecalRequest lane => Sys2Proof.Machine.execLaneRecalRequest lane s
  | .sensorRecalTimer => Sys2Proof.Machine.execSensorRecalTimer s
  | .otpProg queue => Sys2Proof.Machine.execOtpProg queue s
  | .otpRbAdv counter target => Sys2Proof.Machine.execOtpRbAdv counter target s
  | .klnNonceReq => Sys2Proof.Machine.execKlnNonceReq s
  | .klnTokGo => Sys2Proof.Machine.execKlnTokGo s
  | .klnDbgClose => Sys2Proof.Machine.execKlnDbgClose s
  | .klnRcvGo segments => Sys2Proof.Machine.execKlnRcvGo segments s
  | .spdmRequest transport request => Sys2Proof.Machine.execSpdmRequest transport request s
  | .ideKm session stream key => Sys2Proof.Machine.execIdeKm session stream key s
  | .pldmFirmwareUpdate segment bytes => Sys2Proof.Machine.execPldmFirmwareUpdate segment bytes s
  | .ashRead start count => Sys2Proof.Machine.execAshRead start count s
  | .mctpMonRead slot restart => Sys2Proof.Machine.execMctpMonRead slot restart s
  | .entdaa address => Sys2Proof.Machine.execEntdaa address s
  | .setEndpointId eid => Sys2Proof.Machine.execSetEndpointId eid s
  | .ashThaw => Sys2Proof.Machine.execAshThaw s
  | .monRestart slots => Sys2Proof.Machine.execMonRestart slots s
  | .monitorWindowEnd slot => Sys2Proof.Machine.execMonitorWindowEnd slot s
  | .dbgStokerHalt mask => Sys2Proof.Machine.execDbgStokerHalt mask s
  | .dbgStokerStep mask => Sys2Proof.Machine.execDbgStokerStep mask s
  | .debugWindowWrite offset size value => Sys2Proof.Machine.execDebugWindowWrite offset size value s
  | .portUp port => Sys2Proof.Machine.execPortUp port s
  | .preemptionVerified port => Sys2Proof.Machine.execPreemptionVerified port s
  | .priReset => Sys2Proof.Machine.execPriReset s
  | .hdmDecoderCommit => Sys2Proof.Machine.execHdmDecoderCommit s
  | .pmeStatusClear => Sys2Proof.Machine.execPmeStatusClear s
  | .monitorSample readings => Sys2Proof.Machine.execMonitorSample readings s
  | .stragglerTimeout coll rank => Sys2Proof.Machine.execStragglerTimeout coll rank s
  | .aux12vLoss => Sys2Proof.Machine.execAux12vLoss s
  | .perstDeassertion => Sys2Proof.Machine.execPerstDeassertion s

end Sys2Proof.Machine
end

