-- ==== Sys2Proof/Machine/Step.lean ====
section
/-!
DEFINITION. A step of the module: the command at the front of the queue, or, while none waits, a tick of TCLK.
-/
namespace Sys2Proof.Machine

/-- TCLK ticks while Hearth runs: the global time advances by 10 ns, slewed as PTP has it, and wraps (R346, R353; log entry 2). -/
def State.tick (s : State) : State :=
  if s.pwr.hearth then { s with dp := s.dp.tick } else s

/-- A step. -/
def step (s : State) : Host.Outcome State Fault Refusal :=
  match s.pending with
  | [] => .next s.tick
  | c :: rest => exec c { s with pending := rest }

/-- The command that a word spells is put at the front of the queue: the table gives no bits, so no word spells one. -/
def State.withFetchWord (s : State) (nbits w : Nat) : State :=
  match decodeTableWord nbits w with
  | some c => { s with pending := c :: s.pending }
  | none => s

end Sys2Proof.Machine
end

