-- ==== Sys2Proof/Machine/ReadBack.lean ====
section
/-!
DEFINITION. What a read of BAR0 returns (19_setup_register_map.md, R9, R512–R514): RW fields read their staged value,
RO fields the state they report, WO registers and reserved ranges zero. A read changes nothing, and no command of the
table is a read of a register: these are views of the state, in terms of which statements are made.
-/
namespace Sys2Proof.Machine

namespace Dp

/-- The mask with bit `i` set for each `i < n` of which `p` holds. -/
def maskOf (n : Nat) (p : Nat → Bool) : Nat := (List.range n).foldl (fun a i => if p i then a + 2 ^ i else a) 0

/-- RING_STATn.STATE (Table 11.19). -/
def ringCode : RingSt → Nat
  | .disabled => 0 | .running => 1 | .halted => 2 | .draining => 3

/-- RING_HALTn, RING_HALT_OFSn and RING_HALT_DVAn: the oldest halted descriptor, else a halt before the next one (R334). -/
def haltView (d : Dp) (n : Nat) : Nat × Nat × Nat :=
  match d.haltedOf n with
  | (o, h) :: _ => (o.seq * 2 ^ 32 + h.status * 2 ^ 24 + h.detail * 2 ^ 16 + o.op * 2 ^ 8 + h.slot, h.ofs, h.dva % 2 ^ 52)
  | [] =>
    match (d.ring n).haltNext with
    | some h => (h.seq * 2 ^ 32 + h.status * 2 ^ 24 + h.detail * 2 ^ 16 + h.slot, 0, h.dva % 2 ^ 52)
    | none => (0, 0, 0)

/-- The lanes a port uses (R351). -/
def lanesUp (d : Dp) (q : Nat) : Nat :=
  let p := d.port q
  let out := p.laneRet ||| p.laneFail ||| p.recal
  if p.state = 2 then 15 else if p.state = 3 then (if out % 4 = 0 then 3 else 12) else 0

/-- RO registers of the RING block (Table 11.19). -/
def readRing (d : Dp) (o : Nat) : Nat :=
  if 0x800 ≤ o && o < 0xA00 then
    let q := d.nq ((o - 0x800) / 0x40)
    if o % 0x40 = 0x10 then q.lost % 2 ^ 16 * 2 ^ 32 + q.tail * 2 ^ 16 + q.head else 0
  else if 0x1000 ≤ o && o < 0x3000 then
    let n := (o - 0x1000) / 0x80
    let r := d.ring n
    match o % 0x80 with
    | 0x40 => ringCode r.state * 2 ^ 62 + d.outstanding n % 512 * 2 ^ 53 + r.tail * 2 ^ 16 + r.head
    | 0x48 => r.doneSeq
    | 0x50 => (d.haltView n).1
    | 0x58 => (d.haltView n).2.1
    | 0x60 => (d.haltView n).2.2
    | 0x68 =>
      let c := d.cq n
      (if c.held.isEmpty then 0 else 2 ^ 32) + c.tail * 2 ^ 16 + c.head
    | _ => 0
  else 0

/-- RO registers of the PHX block (Tables 2.12–2.14). -/
def readPhx (d : Dp) (o : Nat) : Nat :=
  let p := d.phx
  let kc := Tab.get (fun _ => (0, 0)) p.streams ((d.reg Reg.rngIdx).fld 11 0)
  match o with
  | 0x010 => (if p.armed then 1 else 0) + (if p.fired then 2 else 0)
  | 0x020 => p.info0.toNat
  | 0x028 => p.info1.toNat
  | 0x030 => p.info2.toNat
  | 0x038 => p.info3.toNat
  | 0x040 => p.nanCnt
  | 0x060 => p.skips % 2 ^ 16 * 2 ^ 48 + p.clean % 2 ^ 16 * 2 ^ 32 + (if p.ovf then 256 else 0) + unsigned 6 p.x
  | 0x098 => kc.1
  | 0x0A0 => kc.2
  | _ => 0

/-- RO fields of a tiller's registers (Table 3.13). -/
def readTlr (d : Dp) (t o : Nat) : Nat :=
  let x := d.tiller t
  match o with
  | 0x010 => maskOf 8 (fun k => x.ctxs.any fun c => c.num = k) * 2 ^ 32 + (cribTiles x - 8) * 2 ^ 16 + (if x.retired then 2 else 0)
  | 0x018 => maskOf 16 x.bankRet.has
  | _ => 0

/-- LNK_PTP_STAT and LNK_PORT_STATq (Table 12.15). -/
def readLnk (d : Dp) (o : Nat) : Nat :=
  if o = 0x060 then (if d.lnk.ptpLocked && d.ptpOn then 2 ^ 63 else 0) + unsigned 32 d.lnk.ptpOffset
  else if 0x100 ≤ o && o < 0x200 && o % 0x20 = 8 then
    let q := (o - 0x100) / 0x20
    let p := d.port q
    p.laneRet * 2 ^ 12 + d.lanesUp q * 2 ^ 8 + (if d.portPaused q then 32 else 0) + (if p.preempt then 16 else 0) + p.state
  else 0

/-- RO registers and fields of the blocks that the data plane holds (Table 19.2). -/
def readRo (d : Dp) (b : Block) (o : Nat) : Nat :=
  match b with
  | .glb => if o = 0 then 0x1F7B422400002100 else if o = 0x010 then d.now else 0
  | .ring => d.readRing o
  | .atu => if o = 0x208 then (if d.mem.invQ.isEmpty then 0 else 1) else 0
  | .mem => if o = 0x088 then d.mem.hLimit0 else if o = 0x090 then d.mem.hLimit1 else 0
  | .tlr t => d.readTlr t o
  | .fll => if o = 0x040 then d.fll.step else if o = 0x048 then d.fll.applied else if o = 0x050 then d.fll.cursor % 2 ^ 16 else 0
  | .gln =>
    if o = 0x060 then
      let g := d.gen ((d.reg Reg.glnGenIdx).fld 15 0)
      g.credits % 2 ^ 32 * 2 ^ 16 + (match g.st with | .idle => 0 | .live => 1 | .draining => 2)
    else 0
  | .lnk => d.readLnk o
  | .cxd => if o = 0x0F0 && d.mem.priStopped then 2 else 0
  | .mon =>
    if 0x1000 ≤ o && o < 0x2000 && o % 0x40 = 0x28 then
      let m := d.mon ((o - 0x1000) / 0x40)
      (if m.held then 2 else 0) + (if m.running then 1 else 0)
    else 0
  | .ash =>
    match o with
    | 0x008 => d.ash.head
    | 0x038 => maskOf 16 d.ash.candP.has * 2 ^ 32 + maskOf 32 d.ash.candL.has
    | 0x040 => d.ash.hpcCount0
    | 0x048 => d.ash.hpcCount1
    | 0x0F0 => if d.ash.frozen then 2 else 0
    | _ => 0
  | .phx => d.readPhx o
  | _ => 0

/-- Counters that count cycles, bytes on links or hits, which show timing only (log entry 13). -/
def timingCounter (b : Block) (o : Nat) : Bool :=
  match b with
  | .fab => 0x100 ≤ o && o ≤ 0x120
  | .mem => 0x118 ≤ o && o ≤ 0x130
  | .tlr _ => o = 0x100 || o = 0x108
  | .spr => o = 0x110
  | .lnk => o = 0x230 || o = 0x240
  | _ => false

end Dp

namespace State

/-- RO registers and fields of the CLK, PWR, KLN, OTP and MNT blocks (Tables 14.12, 14.13, 16.12, 16.13 and 17.7). -/
def readUnit (s : State) (b : Block) (o : Nat) : Nat :=
  let k := s.kiln
  match b with
  | .clk =>
    match o with
    | 0x000 => (if s.pwr.refOk then 2 else 0) + (if s.pwr.lock then 1 else 0)
    | 0x018 => s.pwr.cause 1 * 2 ^ 10 + s.dp.aclk1 * 2 ^ 8 + s.pwr.cause 0 * 2 ^ 2 + s.dp.aclk0
    | 0x0F0 =>
      if s.pwr.epochs.isEmpty && !((s.mnt.queue ++ s.mnt.running).any fun q => q.act = 5) then 0 else 4
    | _ => 0
  | .pwr =>
    match o with
    | 0x000 => s.powerState
    | 0x010 => Dp.maskOf 50 fun n => !s.dp.domOff.has n
    | 0x018 => s.mnt.domNum % 64 * 2 ^ 8 + s.mnt.domRes
    | 0x030 => s.pwr.vin % 2 ^ 16 * 2 ^ 48 + s.pwr.iin % 2 ^ 16 * 2 ^ 32 + s.pwr.pin % 2 ^ 32
    | 0x0F0 => if s.pwr.capAct then 2 else 0
    | _ => 0
  | .kln =>
    if o = 0x008 then k.stateWord s.mnt.staged.isSome
    else if 0x018 ≤ o && o ≤ 0x030 then leAt k.nonce (o - 0x018) 8
    else if o = 0x0C8 then k.tokRes
    else if 0x100 ≤ o && o ≤ 0x118 then leAt k.idPub (o - 0x100) 8
    else if 0x140 ≤ o && o ≤ 0x168 then (k.seg ((o - 0x140) / 8)).elim 0 fun g => g.version % 2 ^ 32 * 2 ^ 32 + g.rb % 2 ^ 7
    else if o = 0x198 then k.rcvReason * 2 ^ 8 + k.rcvState
    else 0
  | .otp =>
    let i := (s.dp.reg Reg.otpIdx).fld 7 0
    if o = 0x018 then (k.word i).toNat
    else if o = 0x020 then
      (if 4 ≤ (k.gens i).length then 256 else 0) + (k.gens i).length * 4 + ((k.live i).elim 0 fun x => x.1)
    else if o = 0x028 then s.mnt.otpReason * 2 ^ 8 + s.mnt.otpRes
    else if 0x040 ≤ o && o ≤ 0x068 then k.counter ((o - 0x040) / 8)
    else 0
  | .mnt =>
    match o with
    | 0x018 => Dp.maskOf 16 fun a => a ≠ 0 && s.mnt.running.any fun q => q.act = a
    | 0x020 => s.queued
    | 0x028 => s.mnt.lastReq * 2 ^ 32 + s.mnt.lastAct * 2 ^ 24 + s.mnt.lastStatus * 2 ^ 16 + s.mnt.lastReason * 2 ^ 8
    | _ => 0
  | _ => 0

/-- The register at a BAR0 offset that is a multiple of 8; a counter of time reads a free value (log entry 13). -/
def register (s : State) (off : Nat) : Word :=
  if 0x3000000 ≤ off && off < 0x4000000 then
    if s.kiln.debug = 0 then 0 else BitVec.ofNat 64 (leNat ((List.range 8).map fun i => dbgByte s.dbg (off + i)))
  else if s.tlrDark off then 0
  else
    match blockOf off with
    | none => 0
    | some (b, o) =>
      if Dp.timingCounter b o then Config.timingCount s.dp.now off
      else
        (if (b.rw o).isSome then s.dp.regs.stagedVal off else 0) ||| s.dp.regs.statVal off ||| s.dp.regs.cntVal off |||
          BitVec.ofNat 64 (s.dp.readRo b o) ||| BitVec.ofNat 64 (s.readUnit b o)

/-- The registers that respond in recovery (R452). -/
def respondsInRecovery (off : Nat) : Bool := off = 0 || off = 0x0F00180 || off = 0x0F00188 || off = 0x0F00190 || off = 0x0F00198

/-- What the host reads with an access of `size` bytes at an offset of BAR0 (R513); none when the module does not answer. -/
def readBar (s : State) (off size : Nat) : Option Nat :=
  if !(s.awake && s.pwr.link && !s.pwr.refLost) then none
  else if !(size = 8 && off % 8 = 0 || size = 4 && off % 4 = 0) then some 0
  else
    let o := off / 8 * 8
    if s.kiln.recovery && !respondsInRecovery o then some 0
    else
      let w := s.register o
      some (if size = 8 then w.toNat else if off % 8 = 0 then w.fld 31 0 else w.fld 63 32)

/-- The PCI identifiers: vendor, device, revision, class code, subsystem vendor and subsystem (R313, R503). -/
def pciIdentifiers : List Nat := [0x1F7B, 0x4224, 0x21, 0x120000, 0x1F7B, 0x0001]

/-- The Provisioned ID of Hearth on I3C (R504): 0x1F7B over the low 32 bits of SERIAL, OTP word 3. -/
def provisionedId (s : State) : Nat := 0x1F7B * 2 ^ 32 + (s.kiln.word 3).fld 31 0

end State
end Sys2Proof.Machine
end

