-- ==== Sys2Proof/Safety.lean ====
section
/-!
DEFINITION. The terms in which statements about the module are made: what a command that changes the data plane alone
leaves, when the maintenance gate has nothing to do, when a descriptor is granted, and what is kept on every run.
-/
namespace Sys2Proof.Machine

namespace State

/-- The state after a change of the data plane alone, with what follows at the maintenance gate. -/
def plane (s : State) (d : Dp) : State := settle s { s with dp := d }

/-- The state `t` that a change of state `s` makes, with what follows at the maintenance gate. -/
def turned (s t : State) : State := settle s t

/-- The maintenance gate has nothing to do: no request is on its way to it, and every running drain has its image. -/
def Quiet (s : State) : Prop :=
  s.dp.asks = [] ∧ ∀ q ∈ s.mnt.running, q.act = 14 → ∃ l ∈ s.dp.locks, l.base = q.res

/-- Frames reach the module and it has not lost its reference, as the commands of the pod links need it. -/
def OnPod (s : State) : Prop := s.podLive = true

end State

/-! ### Kiln -/

/-- The later generations of a word keep the earlier ones: none goes, no data changes, and none loses its MARK. -/
def gensGrow (a b : List OtpGen) : Prop :=
  a.length ≤ b.length ∧ ∀ (i : Nat) (x : OtpGen), a[i]? = some x → ∃ y : OtpGen, b[i]? = some y ∧ y.data = x.data ∧ (x.valid = true → y.valid = true)

/-- What Kiln never takes back: generations of words, rollback counters, and the RETIRED fuse (R455, R457, R466). -/
def Kiln.Grows (a b : Kiln) : Prop :=
  (∀ i, gensGrow (a.gens i) (b.gens i)) ∧ (∀ n, a.counter n ≤ b.counter n) ∧ (a.retired = true → b.retired = true)

/-- What holds of Kiln on every run: at most four generations of a word (R455), a debug level of Table 16.6, attestation
closed while the level is INVASIVE (R465), and no secured session while it is closed or the module RETIRED. -/
structure Kiln.Sound (k : Kiln) : Prop where
  gens : ∀ i, (k.gens i).length ≤ 4
  level : k.debug ≤ 2
  shut : k.debug = 2 → k.closed = true
  ended : (k.closed || k.retired) = true → k.sessions = []

/-! ### Dispatch -/

/-- A descriptor that ring `n` dispatches now: the host is reached, the descriptor `bs` with header `h` stands at the
head of the ring, every gate of R322 grants it, its header and its SEQ are good (R318), and neither the security gate nor a
poisoned pipeline program stands in its way. -/
structure State.Granted (s : State) (n : Fin 64) (op : Nat) (mine : List Byte → Bool) (spans : List Byte → List Span)
    (h : Hdr) (bs : List Byte) : Prop where
  live : s.hostLive = true
  head : s.dp.nextDesc n = some (h, bs)
  opcode : h.op = op
  known : knownOp op = true
  row : mine bs = true
  program : (s.dp.pipeHalts n).isNone = true
  ring : s.dp.mayDispatch s.gates n = true
  waits : Dp.waitMet (s.dp.ring n) h = true
  free : s.dp.heldDesc (s.dp.spaceOf n) h (spans bs) = false
  boundary : s.dp.scaleGate n h bs = true
  clean : ((s.dp.ring n).fpoison.take h.slots).any id = false
  order : h.seq = (s.dp.ring n).expSeq
  header : firstBad (hdrBad bs) = none
  gate : Dp.secured s.gates op bs = false

/-- The descriptor as its meaning takes it. -/
def State.taken (s : State) (n : Fin 64) (spans : List Byte → List Span) (h : Hdr) (bs : List Byte) : OpCtx :=
  { g := s.gates, ring := n, uid := s.dp.nextUid, hdr := h, bytes := bs, spans := spans bs }

/-- What a granted descriptor leaves, when its meaning is `body` (R318, R322). -/
def State.dispatches (s : State) (n : Fin 64) (spans : List Byte → List Span) (h : Hdr) (bs : List Byte)
    (body : OpCtx → Dp → Dp) : State :=
  s.plane ((body (s.taken n spans h bs) (s.dp.takeDesc n h).2).fetchHalt n)

/-! ### Acceptance at dispatch -/

/-- A descriptor that its outcome table accepts: `bad` holds its malformed conditions with their bytes, `align` and
`overlap` say whether it breaks ALIGN and OVERLAP, and its opcode relates to sheaves as `rule` says (R105, R122, R271); the
sheaf it names is open, its ring's own, and has room for what the descriptor declares (R187, R270). -/
structure Dp.Accepts (d : Dp) (c : OpCtx) (bad : List (Bool × Nat)) (rule : SheafRule) (align overlap : Bool) : Prop where
  form : firstBad (bad ++ d.sheafBad c.ring c.hdr rule) = none
  aligned : align = false
  apart : (overlap || d.guardRefuses c.ring c.spans) = false
  own : d.sheafForeign c.ring c.hdr = false
  sheaf : d.sheafVerdict c.hdr = none
  room : d.declaring c = .ok

/-- A granted descriptor about to start: `c` is the descriptor as its meaning takes it, `d` the data plane in which it is
judged, `o` the record it becomes with the random streams of `convs` captured (R59), and `a` the data plane in which its
operation starts. -/
structure State.Enters (s : State) (n : Fin 64) (op : Nat) (mine : List Byte → Bool) (spans : List Byte → List Span)
    (h : Hdr) (bs : List Byte) (convs : List Conv) (c : OpCtx) (d : Dp) (o : Outst) (a : Dp) : Prop where
  granted : s.Granted n op mine spans h bs
  ctx : c = s.taken n spans h bs
  taken : d = (s.dp.takeDesc n h).2
  record : o = d.accepted c convs
  entered : a = d.accept c convs

/-- The state after a dispatch of ring `n` that has left data plane `x`: a slot behind it that could not be fetched halts
the ring now (R315), and what follows at the maintenance gate follows. -/
def State.left (s : State) (n : Fin 64) (x : Dp) : State := s.plane (x.fetchHalt n)

/-- The group of number `g` reads as `grp` for a descriptor that starts in `a`, and `b` is the data plane that knows the
ports of its members (R355). -/
def Dp.GroupRead (n : Nat) (o : Outst) (g : Nat) (a : Dp) (grp : Group) (b : Dp) : Prop :=
  ∃ w : Wk, Dp.run (readGroup (a.envOf n o) (a.reg Reg.lnkGrpBase) g) Dp.atsFuel a = (.ok (some grp, w), w.d) ∧ b = w.d.learnPorts g grp

/-- The work `m` of a descriptor ends with `v` in data plane `a`; `w` is what it leaves, its data plane among it. -/
def Dp.Works {α : Type} (m : M α) (a : Dp) (v : α) (w : Wk) : Prop := Dp.run m Dp.atsFuel a = (.ok (v, w), w.d)

/-! ### Maintenance -/

/-- The activity and the resource whose turn at the maintenance gate a command is (Table 17.1). -/
def turnOf : Instr → Option (Nat × Nat)
  | .hbmRt u => some (1, u)
  | .lRt u => some (2, u)
  | .pRt u => some (3, u)
  | .lane u => some (4, u)
  | .clock h => some (5, h)
  | .idle => some (6, 0)
  | .domain (.request u) => some (7, u)
  | .fw n => some (8, n)
  | .scrub p => some (9, p)
  | .tlrRet t => some (10, t)
  | .tlrRein t => some (11, t)
  | .sensor g => some (12, g)
  | .drain a => some (14, a)
  | .chRet c => some (15, c)
  | _ => none

/-! ### Frames -/

/-- Data plane `e` is `d` but for its links, the time, its counts, its status bits and its log. -/
def Dp.Linked (d e : Dp) : Prop :=
  e = { d with regs := { d.regs with cnt := e.regs.cnt, stat := e.regs.stat }, now := e.now, ash := e.ash, lnk := e.lnk }

/-- The module accepts frame `f` of class `cls` from its sender: the transport is on, the frame is for this module, the peer
is reachable, the epoch is that of the connection, and the PSN lies in the window and is not a duplicate (R359, R361, R363). -/
structure Dp.Hears (d : Dp) (cls : Nat) (f : Culm) : Prop where
  on : d.lnkOn = true
  here : f.dst = d.me
  reachable : (d.peer f.src).down = false
  epoch : f.epoch = (d.conn f.src cls).epoch
  fresh : Conn.accepts (d.conn f.src cls) f.psn = true

/-- The data plane after a frame has been accepted, before it acts: its PSN is noted, the frame counts, and every sixteenth
is acknowledged at once (R361). -/
def Dp.heard (d : Dp) (cls : Nat) (f : Culm) : Dp :=
  let c := d.conn f.src cls
  let c := Conn.advance { c with have_ := f.psn :: c.have_, fresh := c.fresh + 1 } 256
  let d := (d.setConn f.src cls c).bump (Reg.lnkCnt 1)
  if 16 ≤ c.fresh then d.sendAck f.src cls else d

end Sys2Proof.Machine
end

