-- ==== Sys2Proof/Certificates/Slice0/Obligations.lean ====
section
/-!
DEFINITION. The statements about the module, for the provers. The terms they use beyond those of the model stand in
`Sys2Proof/Safety.lean`.
-/
section

open Sys2Proof Sys2Proof.Machine Sys2Proof.Machine.State

/-! ### Descriptors: what a granted descriptor does at its dispatch

Each of these says what a command of an opcode row answers for every descriptor that ring `n` grants (`State.Granted`) and
that the opcode's outcome table accepts: first the next state, in terms of the start of its operation on the descriptor's
record `o`, then what that start is. -/

/-- A NOP completes at its dispatch with status OK and bytes 16–23 of its body as result word; bytes 24–63 are RSV, so that
a NOP with one of them set is malformed (R327), and so is one of more than one slot and one that names a sheaf. -/
def Obligations.NopCompletes : Prop :=
  ∀ (s : State) (n : Fin 64) (h : Hdr) (bs : List Byte) (c : OpCtx) (d : Dp) (o : Outst) (a : Dp),
    s.Enters n 0x00 everyForm noSpans h bs [] c d o a →
    (h.slots = 1 → h.sheafEn = false → zeroAt bs 24 40 = true →
      exec (.nop n) s = .next (s.left n (d.endNow c { status := stOK, result := leAt bs 16 8 }))) ∧
    (h.slots = 1 → h.sheafEn = false → zeroAt bs 24 40 = false → exec (.nop n) s = .next (s.left n (d.malformed c 24))) ∧
    ((h.slots ≠ 1 ∨ h.sheafEn = true) → exec (.nop n) s = .next (s.left n (d.malformed c 1)))

/-- A FENCE that is not malformed stands outstanding at its dispatch and blocks its ring; FENCE_TIMEOUT ends the oldest one
of a ring whose TIMEOUT is not 0 and whose waits are not met: TIMEOUT, DETAIL 1, the first wait not met as result word (5
for SELF), and the ring halts after it (R326). -/
def Obligations.FenceWaitsAndTimesOut : Prop :=
  (∀ (s : State) (n : Fin 64) (h : Hdr) (bs : List Byte) (c : OpCtx) (d : Dp) (o : Outst) (a : Dp),
    s.Enters n 0x01 everyForm noSpans h bs [] c d o a → firstBad (fenceBad n h bs ++ d.sheafBad n h .never) = none →
    exec (.fence n) s = .next (s.left n (d.begin c)) ∧ Dp.fenced ((d.begin c).ring n) = true) ∧
  (∀ (s : State) (n : Fin 64) (o : Outst) (i : Nat), s.hostLive = true →
    (s.dp.ring n).outst.find? (fun o => o.op = 0x01 && o.phase = .running) = some o → leAt o.bytes 20 4 ≠ 0 →
    s.dp.fenceReady n o = false →
    i = ((fenceWaits o.bytes).find? fun w => !s.dp.waitDone w.2.1 w.2.2).elim 5 (·.1) →
    exec (.fenceTimeout n) s =
      .next (s.plane (s.dp.complete n o.uid { status := stTimeout, detail := 1, result := i, halts := true })))

/-- LOG_READ and MON_READ copy their entries to their destination and are done, to complete with status OK: a LOG_READ with
the entries copied and the entries returned as zeros in its result word (R341), a MON_READ with the slots copied (R342).
That an entry returned as zeros is not counted as copied is the model's reading (log entry 14). -/
def Obligations.LogAndMonitorReadsCopy : Prop :=
  (∀ (s : State) (n : Fin 64) (h : Hdr) (bs : List Byte) (c : OpCtx) (d : Dp) (o : Outst) (a : Dp),
    s.Enters n 0x02 everyForm logReadSpans h bs [] c d o a →
    d.Accepts c (logReadBad bs) .never (leAt bs 32 8 % 64 ≠ 0) false →
    exec (.logRead n) s = .next (s.left n (startLogRead n o a)) ∧
    ∀ (z : Nat) (w : Wk), Dp.Works (logReadWork (a.envOf n o) bs) a z w → startLogRead n o a =
      w.d.finished o.uid { status := stOK, result := (leAt bs 20 4 - z) % 2 ^ 32 + z % 2 ^ 16 * 2 ^ 32 }) ∧
  (∀ (s : State) (n : Fin 64) (h : Hdr) (bs : List Byte) (c : OpCtx) (d : Dp) (o : Outst) (a : Dp),
    s.Enters n 0x03 everyForm monReadSpans h bs [] c d o a →
    d.Accepts c (monReadBad bs) .never (leAt bs 32 8 % 64 ≠ 0) false →
    exec (.monRead n) s = .next (s.left n (startMonRead n o a)) ∧
    ∀ w : Wk, Dp.Works (monReadWork (a.envOf n o) bs) a () w → startMonRead n o a =
      w.d.finished o.uid { status := stOK, result := leAt bs 17 1 })

/-- PROMOTE and DEMOTE take the pages of their range in DVA order from their first on (R37); a range whose first page is
moved and reaches its end is done with status OK and one page moved. While Gleaner has work that comes first, they wait for
it (R35). -/
def Obligations.PagesMove : Prop :=
  ∀ (demote : Bool) (s : State) (n : Fin 64) (h : Hdr) (bs : List Byte) (c : OpCtx) (d : Dp) (o : Outst) (a : Dp),
    s.Enters n (if demote then 0x09 else 0x08) everyForm noSpans h bs [] c d o a →
    firstBad (moveBad demote bs ++ d.sheafBad n h .never) = none →
    exec (if demote then .demote n else .promote n) s = .next (s.left n (startMove demote n o a)) ∧
    (∀ (v : Nat) (r b : Dp), r = a.setPhase o.uid .running → leAt bs 24 8 ≠ 0 →
      a.gleanerBusy (a.stokerHalf n) o.uid = false →
      r.moveOne demote bs o.space (r.stokerHalf n) (leAt bs 16 8) = (.moved v, b) → leAt bs 16 8 + leAt bs 24 8 ≤ v →
      startMove demote n o a = b.finished o.uid { status := stOK, result := 1 }) ∧
    (a.gleanerBusy (a.stokerHalf n) o.uid = true →
      startMove demote n o a = a.setPhase o.uid (.stalled (.gleaner (a.stokerHalf n))))

/-- A GEMM that the halves which receive its entries have the crib and the reduce region for starts (R214, R219); it hands
the halves the module's own list of tiles when it names no tile list, and the entries of the list it names, in its order, when
that is good; one whose list is malformed is refused at its dispatch with the list's byte (R105, R205, R208–R211). -/
def Obligations.GemmStarts : Prop :=
  ∀ (s : State) (n : Fin 64) (h : Hdr) (bs : List Byte) (c : OpCtx) (d : Dp) (o : Outst) (a : Dp) (q : GemmP)
      (l : Option (Bool × List TileRow × List TileRow)),
    q = parseGemm bs → l = Dp.tileListOf c q.tlist d →
    s.Enters n 0x10 everyForm (fun bs => (parseGemm bs).spans) h bs [q.d.conv] c d o a →
    (firstBad (GemmP.bad bs) = none → l.any (fun x => (scannedParts q.ownOrder (d.halvesOf n) x).isNone) = true →
      exec (.gemm n) s = .next (s.left n (d.malformed c 40))) ∧
    (l.any (fun x => (scannedParts q.ownOrder (d.halvesOf n) x).isNone) = false →
      d.Accepts c (GemmP.bad bs) .may q.misaligned q.overlaps →
      d.cribRefusal (Dp.receiving (Dp.judgedParts q.ownOrder (d.halvesOf n) l)) q.need q.groupKib = none →
      exec (.gemm n) s = .next (s.left n (startGemm n o a))) ∧
    (a.hasList o.uid = false → q.tlist = 0 →
      ∀ b, a.declareFor n o (a.stokerHalf n) (Dp.storedRanges o.spans) = (true, b) →
      startGemm n o a = (b.addLists n o.uid q.need (Dp.divide (a.halvesOf n) q.ownOrder) q.q_).setPhase o.uid .running) ∧
    (a.hasList o.uid = false → q.tlist ≠ 0 →
      ∀ (x : Bool × List TileRow × List TileRow) (parts : List (Nat × List Entry)) (w : Wk) (b : Dp),
      Dp.Works (Work.readTileList (a.envOf n o) q.tlist) a x w → scannedParts q.ownOrder (a.halvesOf n) x = some parts →
      w.d.declareFor n o (w.d.stokerHalf n) (Dp.storedRanges o.spans) = (true, b) →
      startGemm n o a = (b.addLists n o.uid q.need parts q.q_).setPhase o.uid .running)

/-- COPY, GATHER and SCATTER_ADD start; a COPY without compression hands its tiles to the halves of its ring, and GATHER and
SCATTER_ADD resolve their index list first, whereupon a SCATTER_ADD runs its pre-pass (R129, R132, R133, R136). -/
def Obligations.CopiesStart : Prop :=
  (∀ (s : State) (n : Fin 64) (h : Hdr) (bs : List Byte) (c : OpCtx) (d : Dp) (o : Outst) (a : Dp),
    s.Enters n 0x14 everyForm copySpans h bs [if copyCmp bs then (parseS bs 320).conv else (parseT bs 192).conv] c d o a →
    d.Accepts c (copyBad bs) .may ((!copyFill bs && (parseT bs 64).misaligned) ||
      (if copyCmp bs then (parseS bs 320).misaligned else (parseT bs 192).misaligned)) (copyOverlaps bs) →
    (copyCmp bs = false → d.cribRefusal (Dp.receiving (Dp.divide (d.halvesOf n) (elementTiles (parseT bs 192).count))) 0 0 = none) →
    exec (.copy n) s = .next (s.left n (startCopy n o a)) ∧
    (copyCmp bs = false → a.hasList o.uid = false →
      ∀ b, a.declareFor n o (a.stokerHalf n) (Dp.storedRanges o.spans) = (true, b) → startCopy n o a =
        (b.addLists n o.uid 0 (Dp.divide (a.halvesOf n) (elementTiles (parseT bs 192).count))).setPhase o.uid .running)) ∧
  (∀ (s : State) (n : Fin 64) (h : Hdr) (bs : List Byte) (c : OpCtx) (d : Dp) (o : Outst) (a : Dp) (q : IdxP),
    q = parseIdx bs → s.Enters n 0x15 everyForm (fun bs => (parseIdx bs).spans) h bs [q.t.conv] c d o a →
    d.Accepts c (IdxP.bad true bs) .may q.misaligned q.overlaps →
    d.cribRefusal (Dp.receiving (Dp.divide (d.halvesOf n) (elementTiles q.t.count))) 0 0 = none →
    exec (.gather n) s = .next (s.left n (startGather n o a)) ∧
    ∀ (l : List (Option Nat × Nat)) (w : Wk) (r b : Dp), a.hasList o.uid = false →
      Dp.Works (Work.scanIndexes (a.envOf n o) q (TDesc.at0 q.s.ext q.gdim)) a (l, false) w →
      r = w.d.modOutst n o.uid (fun o => { o with resolved := l.map (·.1), count := idxResult l }) →
      r.declareFor n o (r.stokerHalf n) (Dp.storedRanges o.spans) = (true, b) → startGather n o a =
        (b.addLists n o.uid 0 (Dp.divide (w.d.halvesOf n) (elementTiles q.t.count))).setPhase o.uid .running) ∧
  (∀ (s : State) (n : Fin 64) (h : Hdr) (bs : List Byte) (c : OpCtx) (d : Dp) (o : Outst) (a : Dp) (q : IdxP),
    q = parseIdx bs → s.Enters n 0x16 everyForm (fun bs => (parseIdx bs).spans) h bs [q.t.conv] c d o a →
    d.Accepts c (IdxP.bad false bs) .may q.misaligned q.overlaps →
    d.cribRefusal (Dp.receiving (Dp.divide (d.halvesOf n) (elementTiles q.t.count))) 0 0 = none →
    exec (.scatterAdd n) s = .next (s.left n (startScatter n o a)) ∧
    ∀ (l : List (Option Nat × Nat)) (held : List (Nat × Nat × Bool)) (w v : Wk) (b : Dp), a.hasList o.uid = false →
      Dp.Works (Work.scanIndexes (a.envOf n o) q (TDesc.at0 q.t.ext q.gdim)) a (l, false) w →
      w.d.declareFor n o (a.stokerHalf n) (Dp.storedRanges o.spans) = (true, b) →
      Dp.Works (prePass (b.envOf n o) q (l.map (·.1))) b held v → startScatter n o a =
        ((v.d.modOutst n o.uid fun o => { o with resolved := l.map (·.1), count := idxResult l, held }).addLists n o.uid 0
          (Dp.divide (v.d.halvesOf n) (elementTiles q.t.count))).setPhase o.uid .running)

/-- GEMM_SP and COMPRESS start; a GEMM_SP that splits no hot row hands the list of its path to the halves of its ring, and
a COMPRESS stores the sparse form of its source and is done with the counts of R152 (R153, R170). -/
def Obligations.SparseStarts : Prop :=
  (∀ (s : State) (n : Fin 64) (h : Hdr) (bs : List Byte) (c : OpCtx) (d : Dp) (o : Outst) (a : Dp) (q : SpP) (p : SpPath),
    q = parseSp bs → q.path = some p → s.Enters n 0x18 everyForm (fun bs => (parseSp bs).spans) h bs [q.d.conv] c d o a →
    d.Accepts c (SpP.bad bs) .may (q.misaligned bs) q.overlaps → spRefusal c q d = none →
    exec (.gemmSp n) s = .next (s.left n (startSp n o a)) ∧
    (a.hasList o.uid = false → q.splits p a n o = false →
      ∀ (w : Wk) (parts : List (Nat × List Entry)), Dp.Works (pure [] : M (List Nat)) a [] w →
      parts = Dp.divide (a.halvesOf n) (spOrder q p none) → w.d.cribRefusal (Dp.receiving parts) (SpP.need p) 0 = none →
      startSp n o a = (w.d.bump (Reg.sprCnt 3) 0).startList (SpP.need p) parts n o (SpP.fill p))) ∧
  (∀ (s : State) (n : Fin 64) (h : Hdr) (bs : List Byte) (c : OpCtx) (d : Dp) (o : Outst) (a : Dp) (q : TDesc) (r : SRef),
    q = parseT bs 64 → r = parseS bs 192 → s.Enters n 0x19 everyForm compressSpans h bs [r.conv] c d o a →
    d.Accepts c (compressBad bs) .may (q.misaligned || r.misaligned) (Dp.selfOverlap (r.spans true) (q.spans false)) →
    exec (.compress n) s = .next (s.left n (startCompress n o a)) ∧
    ∀ (x : Nat) (w : Wk) (b : Dp), a.declareFor n o (a.stokerHalf n) (Dp.storedRanges o.spans) = (true, b) →
      Dp.Works (compressWork (b.envOf n o) q r ((leAt bs 16 1).testBit 0)) b x w →
      startCompress n o a = w.d.finished o.uid { status := stOK, result := x })

/-- PRUNE, REGROW and REMASK whose arrays the limits of their sheaf leave room for plan their shard's new form, declare the
ranges they write, write every byte of the plan to the shadow lines of their sheaf, and are done with the units pruned and
regrown (R183, R194); past a limit the sheaf is aborted with cause 4 and they complete with SHEAF_ABORTED (R187). -/
def Obligations.MasksRebuild : Prop :=
  ∀ (op : MaskOp) (s : State) (n : Fin 64) (h : Hdr) (bs : List Byte) (c : OpCtx) (d : Dp) (o : Outst) (a : Dp) (q : MaskP)
    (random : Conv),
    q = parseMask bs →
    random = { stream := q.stream, radv := q.radv, sr := op ≠ .prune && q.r.form ≠ 0 && q.gCrit = 1, sat := false,
               lsm := false, lsg := false, code := 4 } →
    s.Enters n (match op with | .prune => 0x20 | .regrow => 0x21 | .remask => 0x22) everyForm (maskSpans op) h bs
      [random, q.r.conv] c d o a →
    d.Accepts c (MaskP.bad op bs) .must (q.misaligned op) (Dp.selfOverlap q.outs (q.ins op)) →
    (maskLimits op c [random, q.r.conv] d = true →
      exec (match op with | .prune => .prune n | .regrow => .regrow n | .remask => .remask n) s =
        .next (s.left n ((d.abortSheaf h.sheafId 4).refuse c stSheafAborted))) ∧
    (maskLimits op c [random, q.r.conv] d = false →
      exec (match op with | .prune => .prune n | .regrow => .regrow n | .remask => .remask n) s =
        .next (s.left n (startMask op n o a))) ∧
    ∀ (ranges : List (Nat × Nat)) (pruned grown : Nat) (plan w : Wk) (b : Dp),
      Dp.Works (Work.maskPlan (a.envOf n o) q op) a (ranges, pruned, grown, none) plan →
      plan.d.declareFor n o (a.stokerHalf n) ranges = (true, b) → Dp.Works (maskWrite (a.envOf n o) o.uid plan) b () w →
      startMask op n o a = w.d.finished o.uid { status := stOK, result := pruned % 2 ^ 32 + grown % 2 ^ 32 * 2 ^ 32 }

/-- PREDICT and FUSED_GRG start when the halves that receive their entries have the crib for them (R214): a PREDICT hands its
entries to the halves of its ring, and a FUSED_GRG its own list, or the entries of the tile list it names, once it has judged
the prediction record it names (R203, R208, R210, R233, Table 6.9). A SPECULATIVE PREDICT on a training ring is denied with
DETAIL 2 (R197). -/
def Obligations.FusedPairsStart : Prop :=
  (∀ (s : State) (n : Fin 64) (h : Hdr) (bs : List Byte) (c : OpCtx) (d : Dp) (o : Outst) (a : Dp) (q : PredP),
    q = parsePred bs → s.Enters n 0x23 everyForm (fun bs => (parsePred bs).spans) h bs [] c d o a →
    d.Accepts c (PredP.bad bs) .never q.misaligned
      (Dp.selfOverlap [q.recordSpan] (q.x.spans false ++ q.u.spans false ++ q.v.spans false)) →
    ((q.spec && (d.reg (Reg.ringCfg n)).bit 3) = true →
      exec (.predict n) s = .next (s.left n (d.endNow c { status := stDenied, detail := 2 }))) ∧
    ((q.spec && (d.reg (Reg.ringCfg n)).bit 3) = false →
      d.cribRefusal (Dp.receiving (Dp.divide (d.halvesOf n) q.order)) 8 0 = none →
      exec (.predict n) s = .next (s.left n (startPredict n o a))) ∧
    (a.hasList o.uid = false → startPredict n o a =
      (a.addLists n o.uid 8 (Dp.divide (a.halvesOf n) q.order)).setPhase o.uid .running)) ∧
  (∀ (s : State) (n : Fin 64) (h : Hdr) (bs : List Byte) (c : OpCtx) (d : Dp) (o : Outst) (a : Dp) (q : FusedP)
      (l : Option (Bool × List TileRow × List TileRow)),
    q = parseFused bs → l = Dp.tileListOf c q.tlist d →
    s.Enters n 0x28 everyForm (fun bs => (parseFused bs).spans) h bs [q.yConv] c d o a →
    (l.any (fun x => (scannedParts q.order (d.halvesOf n) x).isNone) = false →
      d.Accepts c (FusedP.bad bs) .may q.misaligned
        (Dp.selfOverlap (q.y.spans true) (q.ins ++ (l.map fun x => tileListSpan q.tlist x 7).toList)) →
      d.cribRefusal (Dp.receiving (Dp.judgedParts q.order (d.halvesOf n) l)) 8 q.groupKib = none →
      exec (.fusedGrg n) s = .next (s.left n (startFused n o a))) ∧
    (a.hasList o.uid = false →
      ∀ (use : Nat) (x : Bool × List TileRow × List TileRow) (parts : List (Nat × List Entry)) (w : Wk) (r b : Dp),
      Dp.Works (fusedPrep (a.envOf n o) q (Word.bit o.cfg 3)) a (use, x) w →
      r = w.d.modOutst n o.uid (fun o => { o with count2 := use }) →
      r.declareFor n { o with spans := q.stores } (r.stokerHalf n) (Dp.storedRanges q.stores) = (true, b) →
      (q.tlist = 0 → parts = Dp.divide (a.halvesOf n) q.order) →
      (q.tlist ≠ 0 → scannedParts q.order (a.halvesOf n) x = some parts) →
      startFused n o a = (b.addLists n o.uid 8 parts).setPhase o.uid .running))

/-- The four rows of UPDATE start. On the Flail engines an UPDATE whose record lets it run writes its shard's new values
and is done; with OPT = ACCUM it adds its partials; one that its record lets skip or refuses ends as the record says; with
OPT = STEP it stands as the step boundary when its record is closed and reduced, and is denied else (R246, R247, R250,
R254). -/
def Obligations.UpdatesStart : Prop :=
  (∀ (s : State) (n : Fin 64) (h : Hdr) (bs : List Byte) (c : OpCtx) (d : Dp) (o : Outst) (a : Dp) (q : UpdP)
      (bad : List (Bool × Nat)),
    q = parseUpd bs → bad = UpdP.bad ((d.reg Reg.fllCtl).bit 2) ((d.reg Reg.fllFpBase).fld 51 17) bs →
    d.Accepts c bad .must q.misaligned (Dp.selfOverlap q.outs q.ins) →
    (s.Enters n 0x30 (fun bs => updKind bs = 0) updSpans h bs (if q.opt = 3 then [] else [q.w.conv]) c d o a →
      exec (.update n) s = .next (s.left n (startUpdate n o a)) ∧
      ∀ (x : StepRec) (v : Wk), a.declarationEnds n o = false →
        Dp.Works (Work.readRec (a.envOf n o) q.stepRec) a x v →
        (∀ e, recVerdict x = some e → startUpdate n o a = v.d.finished o.uid e) ∧
        (∀ (b : Dp) (bytes : List Byte) (w : Wk), recVerdict x = none →
          v.d.declareFor n o (v.d.stokerHalf n) (Dp.storedRanges o.spans) = (true, b) →
          Dp.Works (updWork (b.envOf n o) q) b (none, bytes) w → startUpdate n o a = w.d.updated o q bytes)) ∧
    (s.Enters n 0x30 (fun bs => updKind bs = 1) updSpans h bs (if q.opt = 3 then [] else [q.w.conv]) c d o a →
      exec (.updateAccum n) s = .next (s.left n (startAccum n o a)) ∧
      ∀ (b : Dp) (bytes : List Byte) (w : Wk),
        a.declareFor n o (a.stokerHalf n) (Dp.storedRanges o.spans) = (true, b) →
        Dp.Works (Work.updAccum (b.envOf n o) q) b bytes w → startAccum n o a = w.d.updated o q bytes) ∧
    (s.Enters n 0x30 (fun bs => updKind bs = 2) updSpans h bs (if q.opt = 3 then [] else [q.w.conv]) c d o a →
      exec (.updateNetwork n) s = .next (s.left n (startNetwork n o a)) ∧
      ∀ (x : StepRec) (v : Wk), (a.coll o.uid).isSome = false → a.declarationEnds n o = false →
        Dp.Works (Work.readRec (a.envOf n o) q.stepRec) a x v →
        (∀ e, recVerdict x = some e → startNetwork n o a = v.d.finished o.uid e) ∧
        ∀ (b r : Dp) (step : Nat) (data : List Byte) (bad : Bool) (w : Wk) (g : Group), recVerdict x = none →
        v.d.declareFor n o (v.d.stokerHalf n) (Dp.storedRanges o.spans) = (true, b) →
        Dp.Works (shardWork (b.envOf n o) q) b (none, step, data, bad) w →
        Dp.GroupRead n o ((w.d.reg Reg.lnkNet).fld 15 0) w.d g r →
        startNetwork n o a = (((r.addColl
          { uid := o.uid, ring := n, op := 0x30, o, id := q.shardId, group := (w.d.reg Reg.lnkNet).fld 15 0,
            members := g.members.map (·.endpoint), rank := g.rank, coord := g.coord, fixed := true, start := step, data,
            dataBad := bad }).grant
          { uid := o.uid, ring := n, op := 0x30, o, id := q.shardId, group := (w.d.reg Reg.lnkNet).fld 15 0,
            members := g.members.map (·.endpoint), rank := g.rank, coord := g.coord, fixed := true, start := step, data,
            dataBad := bad } (q.shardId % g.members.length) 0 0 (q.count * q.w.esize)).applyEarly).progressAll)) ∧
  (∀ (s : State) (n : Fin 64) (h : Hdr) (bs : List Byte) (c : OpCtx) (d : Dp) (o : Outst) (a : Dp),
    s.Enters n 0x30 (fun bs => updKind bs = 3) updSpans h bs [] c d o a →
    d.Accepts c (UpdP.stepBad bs) .never (parseUpd bs).misaligned false →
    exec (.updateStep n) s = .next (s.left n (startStep n o a)) ∧
    ∀ (r : StepRec) (w : Wk), Dp.Works (Work.readRec (a.envOf n o) (parseUpd bs).stepRec) a r w →
      startStep n o a =
        if !r.closed || !r.reduced then w.d.finished o.uid { status := stDenied, detail := 3 }
        else (w.d.modOutst n o.uid fun o =>
          { o with count := if r.ovf then 1 else 0, count2 := 1, poisoned := o.poisoned || w.poison }).setPhase o.uid .running)

/-- The three rows of NORM write their partial, or close their record, and are done; a RECOMPUTE that no open sheaf has
lines in the way of stands outstanding until every earlier descriptor of its ring is complete (R242, R243, R258). -/
def Obligations.NormsAndReleases : Prop :=
  (∀ (k : Fin 3) (s : State) (n : Fin 64) (h : Hdr) (bs : List Byte) (c : OpCtx) (d : Dp) (o : Outst) (a : Dp) (base : Nat),
    base = (s.dp.reg Reg.fllNormBase).fld 51 15 * 2 ^ 15 →
    s.Enters n 0x31 (fun bs => normRow bs = k.val) (NormP.spans base) h bs [] c d o a →
    d.Accepts c (NormP.bad base bs) .never (parseNorm bs).misaligned
      (Dp.selfOverlap ((NormP.spans base bs).filter (·.stored)) ((NormP.spans base bs).filter fun x => !x.stored)) →
    exec (match k with | 0 => .normPartial n | 1 => .normClose n | 2 => .normClosePod n) s =
      .next (s.left n (startNorm n o a)) ∧
    ∀ (x : Nat) (w : Wk), Dp.Works (normWork (a.envOf n o) base (parseNorm bs)) a x w →
      startNorm n o a = w.d.finished o.uid { status := stOK, result := x }) ∧
  (∀ (s : State) (n : Fin 64) (h : Hdr) (bs : List Byte) (c : OpCtx) (d : Dp) (o : Outst) (a : Dp),
    s.Enters n 0x32 everyForm recomputeSpans h bs [] c d o a →
    d.Accepts c (recomputeBad bs) .never (leAt bs 24 8 % 128 ≠ 0 || leAt bs 32 8 % 128 ≠ 0) false →
    (∀ x ∈ d.journal.sheaves, x.2.state ≠ .opened ∨ x.2.space ≠ d.spaceOf n ∨ ∀ y ∈ x.2.actions,
      Dp.meets y.dva y.len (leAt bs 24 8) (leAt bs 32 8) = false ∨
      ∀ k < Dp.linesIn y.dva y.len, d.isMarked x.2 (y.line0 + k) = false) →
    exec (.recompute n) s = .next (s.left n (d.begin c)))

/-- SHEAF_OPEN opens the sheaf its header names, in the lowest free slot of the action table and in the space of its ring,
and answers how many sheaves count. SHEAF_COMMIT of an open sheaf, with nothing outstanding, takes it to COMMITTING with the
next SEQ. SHEAF_ABORT aborts an open sheaf with cause 1, or takes an aborted one to FREE and answers its cause (R267, R278,
R284, R285, Table 9.10). -/
def Obligations.SheavesOpenCommitAbort : Prop :=
  (∀ (s : State) (n : Fin 64) (h : Hdr) (bs : List Byte) (c : OpCtx) (d : Dp) (o : Outst) (a : Dp) (id : Nat) (x : Sheaf),
    s.Enters n 0x38 everyForm noSpans h bs [] c d o a → id = h.sheafId →
    firstBad (Dp.sheafOpenBad bs ++ d.sheafBad n h .own) = none → leAt bs 16 8 % 4096 = 0 → leAt bs 32 8 % 4096 = 0 →
    Dp.insideTier 1 (leAt bs 16 8) (leAt bs 24 4 * 4096) = true → d.meetsReserved (leAt bs 16 8) (leAt bs 24 4 * 4096) = false →
    (leAt bs 28 4 = 0 ∨ (Dp.insideTier 0 (leAt bs 32 8) (leAt bs 28 4 * 4096) = true ∧
      d.meetsReserved (leAt bs 32 8) (leAt bs 28 4 * 4096) = false)) →
    (d.sheaf id).state.counted = false → d.sheavesOpen < 512 →
    d.bufferConflict id (leAt bs 16 8) (leAt bs 24 4 * 4096) = false →
    d.bufferConflict id (leAt bs 32 8) (leAt bs 28 4 * 4096) = false →
    x = { state := .opened, ring := n, space := d.spaceOf n, excl := (leAt bs 40 1).testBit 0, slot := d.freeSlot,
          shadowH := leAt bs 32 8, sizeH := leAt bs 28 4, sizeL := leAt bs 24 4, shadowL := leAt bs 16 8,
          tableBad := (d.sheaf id).tableBad } →
    exec (.sheafOpen n) s =
      .next (s.left n ((a.setSheaf id x).finished o.uid { status := stOK, result := (a.setSheaf id x).sheavesOpen }))) ∧
  (∀ (s : State) (n : Fin 64) (h : Hdr) (bs : List Byte) (c : OpCtx) (d : Dp) (o : Outst) (a b : Dp) (id : Nat),
    s.Enters n 0x39 everyForm noSpans h bs [] c d o a → id = h.sheafId → (∀ x ∈ s.dp.rings, x.2.outst = []) →
    firstBad (d.sheafActBad n h bs ++ d.sheafBad n h .own) = none → (d.sheaf id).state = .opened →
    (d.sheaf id).waiter = none →
    b = a.setSheaf id { d.sheaf id with state := .committing, seq := d.journal.nextSeq, waiter := some o.uid } →
    exec (.sheafCommit n) s =
      .next (s.left n { b with journal := { b.journal with nextSeq := b.journal.nextSeq + 1 } })) ∧
  (∀ (s : State) (n : Fin 64) (h : Hdr) (bs : List Byte) (c : OpCtx) (d : Dp) (o : Outst) (a : Dp) (id : Nat),
    s.Enters n 0x3A everyForm noSpans h bs [] c d o a → id = h.sheafId → (∀ x ∈ s.dp.rings, x.2.outst = []) →
    firstBad (d.sheafActBad n h bs ++ d.sheafBad n h .own) = none →
    ((d.sheaf id).state = .opened → (d.sheaf id).waiter = none →
      exec (.sheafAbort n) s = .next (s.left n ((a.abortSheaf id 1).finished o.uid { status := stOK, result := 1 }))) ∧
    ((d.sheaf id).state = .aborted →
      exec (.sheafAbort n) s = .next (s.left n ((a.setSheaf id { d.sheaf id with state := .free, cause := 0 }).finished o.uid
        { status := stOK, result := (d.sheaf id).cause }))))

/-- The commit point of a committing sheaf whose regions nothing outstanding meets writes its record to the log at its SEQ
and makes it COMMITTED, last in the order of commit records; the end of promotion, which waits for an earlier record that
promotes a line of it, brings its marked lines home, writes the fingerprints of its UPDATEs with FLL_STEP of the commit
point, frees the id, and ends the SHEAF_COMMIT with the lines promoted and the SEQ (R256, R277, R278, Table 9.7). -/
def Obligations.SheafCommitsInSteps : Prop :=
  (∀ (s : State) (id : Fin 4096) (x : Sheaf) (q r : CommitRec), s.awake = true → x = s.dp.sheaf id →
    x.state = .committing → s.dp.sheafBusy x = false →
    q = { seq := x.seq, sheaf := id, ring := x.ring, actions := x.actions.length, slot := x.slot, time := s.dp.now,
          step := s.dp.fll.step, marked := s.dp.markedLines x, shadowL := x.shadowL, shadowH := x.shadowH, crc := 0 } →
    r = { q with crc := crc64 0 (Dp.recordHead q),
                 poisoned := (Tab.get (fun _ => none) s.dp.journal.log (x.seq % Dp.logSize)).any fun y => y.poisoned } →
    exec (.sheafCommitPoint id) s = .next (s.plane
      (({ s.dp with journal := { s.dp.journal with
          log := Tab.set (fun _ => none) s.dp.journal.log (x.seq % Dp.logSize) (some r),
          order := s.dp.journal.order ++ [id.val] } }).setSheaf id
        { x with state := .committed, marked := q.marked, crc := r.crc, step := s.dp.fll.step, stamp := s.dp.nextUid }))) ∧
  (∀ (s : State) (id : Fin 4096) (x : Sheaf), s.awake = true → x = s.dp.sheaf id → x.state = .committed →
    x.unreadable = false →
    (s.dp.promotesAfter id = true → exec (.sheafPromotionEnd id) s = .next (s.plane s.dp.wake)) ∧
    ∀ (u : Nat) (bad : Bool) (r b : Dp), s.dp.promotesAfter id = false → x.waiter = some u →
      s.dp.fpPagesReady x = (true, r) → r.promoteAll x = (bad, b) →
      exec (.sheafPromotionEnd id) s = .next (s.plane
        (((x.fps.foldl (Dp.commitFp x) b).freeSheaf id 0).finished u
          { status := if bad then stPoisoned else stOK, result := x.marked % 2 ^ 32 + x.seq % 2 ^ 32 * 2 ^ 32 }).wake))

/-- The three modes of ROUTE start once what they read is there and no row of Table 10.7 refuses them (otherwise they end as
that row says). A first DISPATCH makes its generation LIVE and hands its entries of 64 tokens to the halves of its ring; a RUN
lists the instances of the experts that received tokens; a COMBINE waits for the answers and combines them (R288, R292, R299,
R304). -/
def Obligations.RoutesStart : Prop :=
  (∀ (s : State) (n : Fin 64) (h : Hdr) (bs : List Byte) (c : OpCtx) (d : Dp) (o : Outst) (a : Dp) (q : RouteP),
    q = parseRoute bs → s.Enters n 0x40 (fun bs => routeMode bs = 0) routeSpans h bs (d.routeStreams c) c d o a →
    firstBad (RouteP.bad bs ++ d.sheafBad n h .never) = none →
    exec (.routeDispatch n) s = .next (s.left n (Dp.startDispatch n o a)) ∧
    ∀ (grp : Group) (r t : Dp) (x : Dp.RouteIn) (w : Wk) (parts : List (Nat × List Entry)),
      (a.gen q.gen).disps.contains o.uid = false → Dp.GroupRead n o q.group a grp r →
      Dp.Works (Dp.readRoute (r.envOf n o) q) r x w →
      (∀ e, w.d.routeRefusal n bs x = some e → Dp.startDispatch n o a = w.d.complete n o.uid e) ∧
      (w.d.routeRefusal n bs x = none → t = w.d.modOutst n o.uid (fun o => { o with spans := w.d.routeSpansOf q x }) →
        parts = Dp.divide (t.halvesOf n) (Dp.rankTiles q.t) →
        (q.replay = true → Dp.startDispatch n o a = t.startReplay n o x) ∧
        (q.replay = false → (t.gens.filter fun x => x.2.st ≠ .idle).length < 64 →
          t.cribRefusal (Dp.receiving parts) 0 0 = none →
          Dp.startDispatch n o a = ((t.setGen q.gen
            { st := .live, disps := [o.uid], body := bs, space := o.space, members := grp.members.map (·.endpoint),
              rank := grp.rank, nl := t.nlOf x.table, table := x.table, fill := List.replicate q.e 0, plays := 1,
              rowB := q.rowBytes, recvBase := q.recv, retBase := q.ret, due := q.rowBytes }).addLists n o.uid 0
                parts).setPhase o.uid .running))) ∧
  (∀ (s : State) (n : Fin 64) (h : Hdr) (bs : List Byte) (c : OpCtx) (d : Dp) (o : Outst) (a : Dp) (q : RouteP),
    q = parseRoute bs → s.Enters n 0x40 (fun bs => routeMode bs = 1) routeSpans h bs (d.routeStreams c) c d o a →
    firstBad (RouteP.bad bs ++ d.sheafBad n h .never) = none →
    exec (.routeRun n) s = .next (s.left n (Dp.startRun n o a)) ∧
    ∀ (t : Dp) (x : Dp.RouteIn) (w : Wk) (g : Gen) (j : RunJob), ((a.gen q.gen).job o.uid).isSome = false →
      Dp.Works (Dp.readRoute (a.envOf n o) q) a x w →
      (∀ e, w.d.routeRefusal n bs x = some e → Dp.startRun n o a = w.d.complete n o.uid e) ∧
      (w.d.routeRefusal n bs x = none → t = w.d.modOutst n o.uid (fun o => { o with spans := w.d.routeSpansOf q x }) →
        g = t.gen q.gen →
        j = { uid := o.uid, table := x.table, fill := x.fill, rowB := g.rowB, nl := leAt x.head 36 2, tm := x.tm,
              ansRow := Dp.ansRowOf x.tm, due := g.due } →
        Dp.startRun n o a = Dp.progressRun q.gen (((t.setGen q.gen
          { g with runs := g.runs ++ [j], retBase := q.ret, ansCode := some (parseFused x.tm).yConv.code }).grantReturn
            q.gen j.ansRow).setPhase o.uid .running) o.uid)) ∧
  (∀ (s : State) (n : Fin 64) (h : Hdr) (bs : List Byte) (c : OpCtx) (d : Dp) (o : Outst) (a : Dp) (q : RouteP),
    q = parseRoute bs → s.Enters n 0x40 (fun bs => routeMode bs = 2) routeSpans h bs (d.routeStreams c) c d o a →
    firstBad (RouteP.bad bs ++ d.sheafBad n h .never) = none →
    exec (.routeCombine n) s = .next (s.left n (Dp.startCombine n o a)) ∧
    ∀ (t : Dp) (x : Dp.RouteIn) (w : Wk) (g : Gen), (a.gen q.gen).combs.contains o.uid = false →
      Dp.Works (Dp.readRoute (a.envOf n o) q) a x w →
      (∀ e, w.d.routeRefusal n bs x = some e → Dp.startCombine n o a = w.d.complete n o.uid e) ∧
      (w.d.routeRefusal n bs x = none → t = w.d.modOutst n o.uid (fun o => { o with spans := w.d.routeSpansOf q x }) →
        g = t.gen q.gen →
        Dp.startCombine n o a = Dp.progressCombine q.gen (((t.setGen q.gen
          { g with combs := g.combs ++ [o.uid], retBase := q.ret }).grantReturn q.gen
            (Dp.combineRow { g with combs := g.combs ++ [o.uid], retBase := q.ret } q x.head)).setPhase o.uid .running) o.uid))

/-- CANCEL of a generation that is not LIVE with SCOPE 0 completes with OK and result 0 and changes nothing else, and of a
LIVE one sets CANCELLED in its record, retires it and answers its credits (R306, R307). A count exchange whose digests agree
assigns the round, and one that shows a refusal or another digest ends the DISPATCH with CONFLICT; an expert's fetch that is
served makes its pages present and pins them, and waits while a peat channel of its pages is retrained; the all-to-all
time-out ends the ROUTEs that are outstanding (R289, R295, R300, R304, R311). -/
def Obligations.GenerationsGoOn : Prop :=
  (∀ (s : State) (n : Fin 64) (h : Hdr) (bs : List Byte) (c : OpCtx) (d : Dp) (o : Outst) (a : Dp) (k : Nat) (g : Gen),
    s.Enters n 0x41 everyForm noSpans h bs [] c d o a → d.Accepts c (Dp.cancelBad bs) .never false false →
    (leAt bs 18 1).testBit 0 = false → k = leAt bs 16 2 → g = a.gen k →
    (g.st ≠ .live → exec (.cancel n) s = .next (s.left n (a.finished o.uid { status := stOK, result := 0 }))) ∧
    (g.st = .live → g.sent = false → exec (.cancel n) s =
      .next (s.left n ((a.retireGen k).finished o.uid { status := stOK, result := g.credits }))) ∧
    (∀ w : Wk, g.st = .live → Dp.Works (a.cancelMark k) a () w → (w.d.gen k).st = .live → exec (.cancel n) s =
      .next (s.left n ((w.d.retireGen k).finished o.uid { status := stOK, result := (w.d.gen k).credits })))) ∧
  (∀ (s : State) (k : Nat) (counts : List (Bool × Nat × List Nat)) (g : Gen) (r : Rounds) (u n : Nat) (o : Outst),
    s.podLive = true → g = s.dp.gen k → g.disps.head? = some u → s.dp.findOutst u = some (n, o) → g.rounds = some r →
    g.st = .live → counts.length = g.members.length → g.members.length ≠ 1 → o.phase = .running →
    r.round < g.q.k + g.q.sd →
    ((counts.any fun x => x.1 || x.2.1 ≠ Dp.routeDigest g.q g.table) = true → exec (.countExchange k r.round counts) s =
      .next (s.plane ((s.dp.idleGen k).finished o.uid { status := stConflict }))) ∧
    ((counts.any fun x => x.1 || x.2.1 ≠ Dp.routeDigest g.q g.table) = false → exec (.countExchange k r.round counts) s =
      .next (s.plane ((Dp.nextRound n o k (g.q.k + g.q.sd + 1) (s.dp.setGen k (Dp.assign g r
        ((List.range counts.length).map fun p =>
          if p = g.rank then Dp.countsOf g r else (counts.getD p (false, 0, [])).2.2)))).endDispatch k)))) ∧
  (∀ (s : State) (k l h : Nat) (g : Gen) (f : Fetch) (ps : List (Nat × Leaf)), s.awake = true → g = s.dp.gen k →
    s.dp.fetchHalf k l = some h → g.fetching.find? (fun f => f.slot = l) = some f → ps = s.dp.pagesAt g.space f.base f.len →
    ((ps.any fun p => p.2.res = 1 && s.dp.inRetraining p.2.addr p.2.size) = true →
      exec (.expertFetchDone k l) s = .next (s.plane ((s.dp.gleanerNext 0).gleanerNext 1))) ∧
    ∀ (b : Dp) (qs : List (Nat × Leaf)), s.dp.served (.fetch h k l) = true →
      (ps.any fun p => p.2.res = 1 && (s.dp.inRetraining p.2.addr p.2.size || s.dp.promoting g.space p.1)) = false →
      s.dp.pagesIn h g.space f.start ps = (true, b) → qs = b.pagesAt g.space f.base f.len →
      exec (.expertFetchDone k l) s = .next (s.plane
        ((((((b.dropFetch k l).pinRange k qs).pokeTable g.space f.table f.x 29
          (toLe 1 (Dp.rangeTier qs) ++ toLe 1 (Dp.rangeRes qs))).progressRuns k).gleanerNext 0).gleanerNext 1))) ∧
  (∀ (s : State) (k : Nat) (g : Gen), s.awake = true → g = s.dp.gen k → g.st = .live →
    exec (.a2aTimeout k) s = .next (s.plane ((if g.members.length = 1 then g.combs else g.uids).foldl
      (fun d u => d.endRoute k u { status := stTimeout }) s.dp)))

/-- REDUCE starts once its group is read and it is not refused (otherwise it ends as Table 12.13 says). An ALL_REDUCE or a
REDUCE_SCATTER with nothing held takes its leaf; a member that does not coordinate sends READY with its digest to the
coordinator, and the coordinator counts itself ready. An ALL_GATHER grants credit for the blocks of all members. A REDUCE of
step records whose step has no late member takes its record as its contribution, with OVF where what it folded in had it
(R370, R371, R373). -/
def Obligations.ReductionsStart : Prop :=
  (∀ (s : State) (n : Fin 64) (h : Hdr) (bs : List Byte) (c : OpCtx) (d : Dp) (o : Outst) (a : Dp) (q : RedP),
    q = parseRed bs → s.Enters n 0x48 (fun bs => !ofRecords bs) redSpans h bs (d.redStreams c) c d o a →
    firstBad (RedP.bad bs ++ d.sheafBad n h .never) = none →
    exec (.reduce n) s = .next (s.left n (Dp.startReduce n o a)) ∧
    ∀ (g : Group) (r : Dp), (a.coll o.uid).isSome = false → Dp.GroupRead n o q.group a g r →
      (∀ e, r.redRefusal n o.spans q g = some e → Dp.startReduce n o a = r.complete n o.uid e) ∧
      ∀ (leaf : List (FV × Bool)) (w : Wk) (x : Coll) (f : Culm), r.redRefusal n o.spans q g = none → q.kind ≠ 3 →
        r.lnk.holds = [] → Dp.Works (Dp.readLeaf (a.envOf n o) q false) r leaf w →
        x = { uid := o.uid, ring := n, op := 0x48, o, kind := q.kind, id := q.id, group := q.group,
              members := g.members.map (·.endpoint), rank := g.rank, coord := g.coord, start := r.elapsed, leaf,
              digest := q.digest g } →
        f = { ty := 5, ember := true, group := q.group, msg := q.id, aux := 0, aux32 := 0, payload := toLe 8 x.digest } →
        (q.kind ≠ 2 → g.rank ≠ g.coord → Dp.startReduce n o a =
          (((w.d.addColl x).postRank x g.coord 1 [f]).applyEarly).progress) ∧
        (q.kind ≠ 2 → g.rank = g.coord →
          Dp.startReduce n o a = ((w.d.addColl { x with ready := [g.rank] }).applyEarly).progress) ∧
        (∀ y : Coll, q.kind = 2 → y = { x with fixed := true, incl := List.range g.members.length } →
          Dp.startReduce n o a = (((w.d.addColl y).grantAll y (fun _ => 0)
            fun b => ((y.blockRange q.elems b).2 - (y.blockRange q.elems b).1) * q.s.conv.fmt.size).applyEarly).progress)) ∧
  (∀ (s : State) (n : Fin 64) (h : Hdr) (bs : List Byte) (c : OpCtx) (d : Dp) (o : Outst) (a : Dp) (q : RedP),
    q = parseRed bs → s.Enters n 0x48 ofRecords redSpans h bs (d.redStreams c) c d o a →
    firstBad (RedP.bad bs ++ d.sheafBad n h .never) = none →
    exec (.reduceSteprec n) s = .next (s.left n (Dp.startReduce n o a)) ∧
    ∀ (g : Group) (r b : Dp) (rec_ : List Byte) (bad : Bool) (w : Wk), q.kind = 3 → (a.coll o.uid).isSome = false →
      Dp.GroupRead n o q.group a g r → r.redRefusal n o.spans q g = none →
      Dp.Works (Work.poisonOf (Work.readBytes (a.envOf n o) q.hold 64)) r (rec_, bad) w →
      (leAt rec_ 8 1).testBit 2 = true → (leAt rec_ 8 1).testBit 1 = false → w.d.lnk.stepIncl = none →
      g.rank < g.members.length →
      b = { w.d with lnk := { w.d.lnk with
              holds := w.d.lnk.holds.map fun h =>
                if h.group = q.group && h.step = w.d.fll.step && h.ovf = none then { h with ovf := some ((leAt rec_ 8 1).testBit 0) }
                else h,
              foldedOvf := w.d.lnk.foldedOvf.filter fun x => x ≠ q.group } } →
      Dp.startReduce n o a = ((b.addColl
        { uid := o.uid, ring := n, op := 0x48, o, kind := 3, id := q.id, group := q.group,
          members := g.members.map (·.endpoint), rank := g.rank, coord := g.coord, start := r.elapsed, fixed := true,
          incl := List.range g.members.length, carry := [], late := false, dataBad := bad,
          data := if w.d.lnk.foldedOvf.contains q.group then
              slice rec_ 0 8 ++ toLe 1 (leAt rec_ 8 1 ||| 1) ++ slice rec_ 9 55 else rec_ }).applyEarly).progress)

/-- ALLTOALL, SEND, RECV and BARRIER start: the message becomes active with every member of its group included; an ALLTOALL
grants each other member its block and a RECV grants its peer the buffer (R364, R379, R380). BARRIER_TIMEOUT ends a BARRIER
with TIMEOUT_US ≠ 0 (R381). -/
def Obligations.MessagesStart : Prop :=
  (∀ (k : Fin 4) (s : State) (n : Fin 64) (h : Hdr) (bs : List Byte) (c : OpCtx) (d : Dp) (o : Outst) (a : Dp) (op : Nat),
    op = 0x49 + k → s.Enters n op everyForm (match k with
      | 0 => fun bs => Dp.msgSpans 0x49 (groupSize s.dp n bs) bs | 1 => Dp.msgSpans 0x4A 0 | 2 => Dp.msgSpans 0x4B 0 | 3 => noSpans)
      h bs [] c d o a →
    firstBad (Dp.msgBad op bs ++ d.sheafBad n h .never) = none →
    exec (match k with | 0 => .alltoall n | 1 => .send n | 2 => .recv n | 3 => .barrier n) s =
      .next (s.left n (Dp.startMsg op n o a)) ∧
    ∀ (g : Group) (r : Dp) (sp : List Span) (x : Coll) (y : Dp), (a.coll o.uid).isSome = false →
      Dp.GroupRead n o (leAt bs 16 2) a g r → sp = Dp.msgSpans op g.members.length bs →
      ((op = 0x4A ∨ op = 0x4B) → leAt bs 18 2 < g.members.length ∧ leAt bs 18 2 ≠ g.rank) →
      (op ≠ 0x4C → leAt bs 24 8 % 64 = 0) → (op = 0x49 → leAt bs 32 8 % 64 = 0) →
      (op = 0x49 → (sp.any fun a => a.stored && sp.any fun b => !b.stored && a.meets b) = false) →
      r.guardRefuses n sp = false → ((op = 0x49 ∨ op = 0x4C) → r.collById (leAt bs 20 4) = none) →
      x = { uid := o.uid, ring := n, op, o, id := leAt bs 20 4, group := leAt bs 16 2, members := g.members.map (·.endpoint),
            rank := g.rank, coord := g.coord, start := r.elapsed, fixed := true, incl := List.range g.members.length } →
      y = (r.modOutst n o.uid fun o => { o with spans := sp }).addColl x →
      Dp.startMsg op n o a = (match k with
        | 0 => (List.range g.members.length).foldl (fun (d : Dp) m =>
            if m = g.rank then d else d.grant { x with fixed := false, incl := [] } m 0 g.rank (leAt bs 40 8)) y
        | 2 => y.grant { x with fixed := false, incl := [] } (leAt bs 18 2) 0 0 (leAt bs 32 8)
        | _ => y).applyEarly.progress) ∧
  (∀ (s : State) (id : Nat) (x : Coll), s.awake = true → s.dp.collById id = some x → x.op = 0x4C → leAt x.o.bytes 24 4 ≠ 0 →
    exec (.barrierTimeout id) s = .next (s.plane (s.dp.endColl x.uid { status := stTimeout })))

/-- A TAKE that passes its checks waits for its target step; the stopped module's Gleaners copy; the end of the copy makes
the image COMPLETE, releases the hold and completes the descriptor; a TAKE that times out writes nothing (R388). -/
def Obligations.SnapshotsAreTaken : Prop :=
  (∀ (s : State) (n : Fin 64) (h : Hdr) (bs : List Byte) (c : OpCtx) (d : Dp) (o : Outst) (a : Dp),
    s.Enters n 0x50 (fun bs => Dp.snapKind bs = 0) snapSpans h bs [] c d o a →
    firstBad (snapBad bs ++ d.sheafBad n h .never) = none →
    exec (.snapshotTake n) s = .next (s.left n (startTake n o a)) ∧
    ∀ (entries : List (List Byte)) (l : List SnapRegion) (w : Wk) (target total : Nat), (a.snap o.uid).isSome = false →
      Dp.Works (readRegions (a.envOf n o) (leAt bs 40 8) (leAt bs 20 4)) a entries w → l = entries.map parseRegion →
      snapMisaligned bs = false → target = (if leAt bs 24 8 = 0 then w.d.fll.step + 1 else leAt bs 24 8) → total = (dataOfs l).2 →
      regionsBad l = false → l.any (·.misaligned) = false →
      ((l ++ [({ dva := leAt bs 40 8, len := roundUp (32 * leAt bs 20 4) 128, bytes := [] } : SnapRegion)]).any fun r =>
        w.d.regionMeets o.space r (leAt bs 32 8) total) = false →
      w.d.guardRefuses n o.spans = false → w.d.holds = false → w.d.fll.step < target → w.d.locks.length < 4 →
      w.d.meetsLock (leAt bs 32 8) total = false → w.d.imageOutside (leAt bs 32 8) total = false →
      startTake n o a =
        { w.d with snaps := w.d.snaps ++ [{ uid := o.uid, restore := false, target, list := some entries }] }) ∧
  (∀ (s : State) (x : Snap) (n : Nat) (o : Outst), s.awake = true →
    s.dp.snaps.find? (fun x => x.held && !x.restore && !x.copied) = some x → s.dp.findOutst x.uid = some (n, o) →
    o.phase = .running → s.dp.quiesced x.uid = true → exec .snapshotCopy s = .next (s.plane (s.dp.takeCopy n o x))) ∧
  (∀ (s : State) (x : Snap) (n : Nat) (o : Outst) (img count total stop crc : Nat) (a b : Dp), s.awake = true →
    s.dp.snaps.find? (fun x => x.copied) = some x → s.dp.findOutst x.uid = some (n, o) → img = leAt o.bytes 32 8 →
    count = leAt (s.dp.dpaBytes (img + 12) 4) 0 4 → total = leAt (s.dp.dpaBytes (img + 40) 8) 0 8 →
    stop = s.dp.elapsed - x.heldFrom → a = s.dp.setDpas (img + 56) (toLe 8 stop) →
    crc = crc64 0 (a.dpaBytes img 64 ++ a.dpaBytes (img + 0x1000) (64 * count) ++ a.dpaBytes (img + stateOfs count) 0x20000) →
    b = (a.setDpas (img + 64) (toLe 8 crc)).setImageState img 1 → leAt o.bytes 16 1 / 4 % 4 = 0 →
    exec .snapshotCopyDone s = .next (s.plane ((b.dropSnap x.uid).finished x.uid
      { status := stOK, result := stop / 1000 % 2 ^ 32 + cdiv total 1048576 % 2 ^ 32 * 2 ^ 32 }))) ∧
  (∀ (s : State) (n : Fin 64) (x : Snap), s.awake = true →
    s.dp.snaps.find? (fun x => (s.dp.findOutst x.uid).any fun y => y.1 = n.val) = some x → x.copied = false →
    (x.held && s.dp.quiesced x.uid) = false → exec (.snapshotTimeout n) s = .next (s.plane ((s.dp.dropSnap x.uid).finished x.uid { status := stTimeout })))

/-- DRAIN asks the maintenance gate for the drain of a locked image, and UNLOCK gives up its lock and any drain of it (R393,
R394). A RESTORE that passes its checks holds dispatch until it verifies and writes back (R395). -/
def Obligations.ImagesAreDrainedAndRestored : Prop :=
  (∀ (s : State) (n : Fin 64) (h : Hdr) (bs : List Byte) (c : OpCtx) (d : Dp) (o : Outst) (a b : Dp) (img kind : Nat)
      (tgt : DrainTo), s.Enters n 0x50 (fun bs => Dp.snapKind bs = 1) snapSpans h bs [] c d o a →
    firstBad (snapBad bs ++ d.sheafBad n h .never) = none → snapMisaligned bs = false → img = leAt bs 32 8 →
    kind = leAt bs 16 1 / 4 % 4 → d.locks.any (fun l => l.base = img) = true → Dp.insideTier 2 img 1 = true → kind ≠ 0 →
    tgt = { kind, dst := leAt bs 64 8, group := leAt bs 72 2, peer := leAt bs 74 2, tag := leAt bs 76 4,
            space := d.spaceOf n, ring := n } →
    b = { d with locks := d.locks.map fun l => if l.base = img then { l with drain := some tgt, ended := none } else l,
                 asks := d.asks ++ [{ act := 14, res := img, ch := .snapshot, queue := true }] } →
    exec (.snapshotDrain n) s = .next (s.left n ((b.begin c).finished c.uid { status := stOK }))) ∧
  (∀ (s : State) (n : Fin 64) (h : Hdr) (bs : List Byte) (c : OpCtx) (d : Dp) (o : Outst) (a b : Dp) (img : Nat),
    s.Enters n 0x50 (fun bs => Dp.snapKind bs = 2) snapSpans h bs [] c d o a →
    firstBad (snapBad bs ++ d.sheafBad n h .never) = none → snapMisaligned bs = false → img = leAt bs 32 8 →
    d.imageOutside img 0x1000 = false →
    b = { d with locks := d.locks.filter fun l => l.base ≠ img,
                 lnk := { d.lnk with colls := d.lnk.colls.filter fun x => !(x.op = 0x50 && leAt x.o.bytes 24 8 = img) } } →
    exec (.snapshotUnlock n) s = .next (s.left n ((b.begin c).finished c.uid { status := stOK }))) ∧
  (∀ (s : State) (n : Fin 64) (h : Hdr) (bs : List Byte) (c : OpCtx) (d : Dp) (o : Outst) (a : Dp) (img : Nat),
    s.Enters n 0x51 everyForm restoreSpans h bs [] c d o a → firstBad (restoreBad bs ++ d.sheafBad n h .never) = none →
    img = leAt bs 24 8 →
    exec (.restore n) s = .next (s.left n (startRestore n o a)) ∧
    ∀ (w : Wk) (entries : Option (List (List Byte))) (l : Option (List SnapRegion)) (total : Nat),
      (a.snap o.uid).isSome = false → Dp.Works (Dp.restoreList (a.envOf n o) bs) a entries w →
      l = entries.map (fun x => x.map parseRegion) → w.d.imageOutside img 0x1000 = false →
      total = leAt (w.d.dpaBytes (img + 40) 8) 0 8 → regionsBad (l.getD []) = false → restoreMisaligned bs = false →
      (l.getD []).any (·.misaligned) = false →
      ((l.getD ((w.d.directory img).map (·.1))).any fun r => w.d.regionMeets o.space r img total ||
        w.d.locks.any fun k => w.d.regionMeets o.space r k.base k.total) = false →
      w.d.guardRefuses n o.spans = false → w.d.holds = false → w.d.imageState img ≠ 0 →
      w.d.imageOutside img (max total 0x1000) = false →
      startRestore n o a = { w.d with snaps := w.d.snaps ++ [{ uid := o.uid, restore := true, target := 0, held := true,
                                                               heldAt := w.d.now, heldFrom := w.d.elapsed, list := entries }] })

/-- A MAINT reads the segment it names and puts its request to the maintenance gate (R485). -/
def Obligations.MaintAsksTheGate : Prop :=
  ∀ (s : State) (n : Fin 64) (h : Hdr) (bs : List Byte) (c : OpCtx) (d : Dp) (o : Outst) (a : Dp),
    s.Enters n 0x58 everyForm maintSpans h bs [] c d o a → firstBad (maintBad bs ++ d.sheafBad n h .never) = none →
    (leAt bs 16 1 = 8 → leAt bs 24 8 % 64 = 0) →
    exec (.maint n) s = .next (s.left n (startMaint n o a)) ∧
    ∀ (seg : List Byte) (w : Wk) (b : Dp), Dp.Works (maintWork (a.envOf n o) bs) a seg w →
      b = w.d.modOutst n o.uid (fun o => { o with poisoned := o.poisoned || w.poison }) →
      startMaint n o a = { b with asks := b.asks ++ [{ act := leAt bs 16 1, res := leAt bs 18 2, param := leAt bs 20 4, ch := .maint o.uid n ((leAt bs 17 1).testBit 1), queue := (leAt bs 17 1).testBit 0, bytes := seg }] }

/-- Whatever its opcode, a descriptor that every gate grants and that is malformed in its header, comes out of SEQ order, or
lies on a poisoned slot, completes with DENIED, DETAIL 1 and its first offending byte, and halts its ring (R318); one that
the security gate refuses completes with DENIED, DETAIL 4, and its ring goes on (Table 16.9). -/
def Obligations.BadDescriptorsAreDenied : Prop :=
  ∀ (s : State) (n : Fin 64) (op : Nat) (mine : List Byte → Bool) (spans : List Byte → List Span) (body : OpCtx → Dp → Dp)
    (h : Hdr) (bs : List Byte) (c : OpCtx) (d : Dp),
    s.hostLive = true → s.dp.nextDesc n = some (h, bs) → h.op = op → knownOp op = true → mine bs = true →
    s.dp.pipeHalts n = none → s.dp.mayDispatch s.gates n = true → Dp.waitMet (s.dp.ring n) h = true →
    s.dp.heldDesc (s.dp.spaceOf n) h (spans bs) = false → s.dp.scaleGate n h bs = true → c = s.taken n spans h bs →
    d = (s.dp.takeDesc n h).2 →
    (Dp.secured s.gates op bs = true →
      s.dispatched op mine spans body n = .next (s.left n (d.endNow c { status := stDenied, detail := 4 }))) ∧
    (∀ ofs, Dp.secured s.gates op bs = false →
      firstBad ((((s.dp.ring n).fpoison.take h.slots).any id, 0) :: (h.seq ≠ (s.dp.ring n).expSeq, 4) :: hdrBad bs) = some ofs →
      s.dispatched op mine spans body n =
        .next (s.left n (d.endNow c { status := stDenied, detail := 1, ofs, halts := true })))

/-! ### What goes on between dispatches -/

/-- The entries of a half that can no longer serve its list pass to the other half (R214), and then an idle tiller that is up
takes the next entry of the first operation it is eligible for into a free context; an entry of a tile list is read again as
it is taken, and one that names nothing halts the stream with FAULT_INDEX (R206, R207, R212). The end of an entry's work whose
inputs are there stores it, frees the context, drops the stats records of groups that are over, and goes on with the
operation; one whose inputs are missing waits (R205, R207, R230). The end of a page copy that Gleaner serves records the
frame, and the streams stalled on the page go on; while a peat channel of the page is retrained it waits (R31, R35, R36). -/
def Obligations.ListEntriesMove : Prop :=
  (∀ (s : State) (t : Fin 192) (k i n : Nat) (l : EList) (x : Entry) (o : Outst) (b : Dp), s.awake = true →
    b = s.dp.passLists s.gates → b.tillerUp s.gates t = true → b.freeCtx t = some k → b.pick t = some (l, i, x) →
    b.findOutst l.uid = some (n, o) →
    ((Dp.listDva o = 0 ∨ x.kind = .catchUp) → exec (.listEntryTake t) s = .next (s.plane (b.handOut t k l i x))) ∧
    (∀ (y : Entry) (w : Wk), Dp.Works (Dp.recheck (b.envOf n o) o x) b (some y) w →
      exec (.listEntryTake t) s = .next (s.plane (w.d.handOut t k l i { y with kib := x.kib, row := x.row }))) ∧
    (∀ w : Wk, Dp.Works (Dp.recheck (b.envOf n o) o x) b none w →
      exec (.listEntryTake t) s = .next (s.plane (w.d.haltTiles n o { status := stIndex, detail := 0 })))) ∧
  (∀ (s : State) (t : Fin 192) (k : Fin 8) (c : Ctx) (n : Nat) (o : Outst), s.awake = true →
    (s.dp.tiller t).ctxs.find? (fun c => c.num = k.val) = some c → s.dp.findOutst c.uid = some (n, o) →
    o.phase = .running → s.gates.up (t / 96) = true → s.dp.sheafStillOpen o = true →
    (∀ (more : Bool) (w : Wk), Dp.Works (Dp.entryWork (s.dp.tileEnv n o t c) o c.entry) s.dp (some more) w →
      exec (.listEntryDone t k) s = .next (s.plane
        (((if more then (w.d.entryDone t c).appendCatchUp n c (t / 96) else w.d.entryDone t c).dropStats c.uid).afterEntry
          c.uid))) ∧
    (∀ w : Wk, Dp.Works (Dp.entryWork (s.dp.tileEnv n o t c) o c.entry) s.dp none w →
      exec (.listEntryDone t k) s = .next (s.plane w.d))) ∧
  (∀ (s : State) (space : Fin 16) (page : Nat) (p : Promotion), s.awake = true →
    s.dp.mem.promos.find? (fun p => p.space = space.val && p.page = page) = some p →
    (s.dp.inRetraining p.home p.size = true → exec (.promotionDone space page) s = .next (s.plane s.dp)) ∧
    ∀ (l : Leaf) (f : Frame) (b r u v : Dp), s.dp.promotionServed space page = true →
      s.dp.inRetraining p.home p.size = false →
      b = ({ s.dp with mem := { s.dp.mem with promos := s.dp.mem.promos.filter (· ≠ p) } }).dropJobs
        (fun j => match j with
          | .promotion _ space page => space = p.space && page = p.page
          | .fetch _ _ _ => false) →
      b.walk p.space p.page = .ok l →
      r = (b.copyLines p.home p.frame (p.size / 128)).rewriteLeaf l.entry p.frame 0 0 →
      f = { base := p.frame, size := p.size, space := p.space, page := p.page, home := p.home, dirty := false, pinned := false } →
      u = (({ r with mem := { r.mem with frames := r.mem.frames ++ [f] } }).bump Reg.promoCnt).promoNotice 0 p.space p.page
        p.size (r.now - p.start) p.home →
      v = u.restartAll (u.stalledOn fun x => x = Stall.promotion space page) →
      exec (.promotionDone space page) s = .next (s.plane ((v.gleanerNext 0).gleanerNext 1)))

/-- A doorbell of an enabled ring in range moves it: SQ_TAIL adds the slots up to its value, CQ_HEAD and NQ_HEAD release
entries; one at or above the ring's size, past its tail or for a disabled ring is ignored and sets RING_STAT.DB_ERR (R320). -/
def Obligations.DoorbellsMove : Prop :=
  (∀ (s : State) (n : Fin 64) (t : Nat) (r : Ring), s.hostLive = true → r = s.dp.ring n →
    (s.dp.ringOn n = true → t < s.dp.sqSize n → exec (.sqTail n t) s = .next (s.plane (s.dp.setRing n
      { r with pend := r.pend + (t + s.dp.sqSize n - r.tail) % s.dp.sqSize n, tail := t }))) ∧
    ((s.dp.ringOn n = false ∨ s.dp.sqSize n ≤ t) →
      exec (.sqTail n t) s = .next (s.plane (s.dp.setStat Reg.ringStat 1)))) ∧
  (∀ (s : State) (m : Fin 64) (h k : Nat) (c : Cq), s.hostLive = true → c = s.dp.cq m →
    k = (h + s.dp.cqSize m - c.head) % s.dp.cqSize m →
    ((s.dp.reg (Reg.cqCfg m)).bit 0 = true → h < s.dp.cqSize m → k ≤ c.used →
      exec (.cqHead m h) s = .next (s.plane ((s.dp.setCq m { c with head := h, used := c.used - k }).releaseHeld m))) ∧
    (((s.dp.reg (Reg.cqCfg m)).bit 0 = false ∨ s.dp.cqSize m ≤ h ∨ c.used < k) →
      exec (.cqHead m h) s = .next (s.plane (s.dp.setStat Reg.ringStat 1)))) ∧
  (∀ (s : State) (m : Fin 8) (h k : Nat) (q : Nq), s.hostLive = true → q = s.dp.nq m →
    k = (h + s.dp.nqSize m - q.head) % s.dp.nqSize m →
    ((s.dp.reg (Reg.nqCfg m)).bit 0 = true → h < s.dp.nqSize m → k ≤ q.used →
      exec (.nqHead m h) s = .next (s.plane (s.dp.setNq m { q with head := h, used := q.used - k }))) ∧
    (((s.dp.reg (Reg.nqCfg m)).bit 0 = false ∨ s.dp.nqSize m ≤ h ∨ q.used < k) →
      exec (.nqHead m h) s = .next (s.plane (s.dp.setStat Reg.ringStat 1))))

/-- Fetched slots of a ring that translate arrive behind its head (R321). RESUME lets the halted descriptors of a halted
ring go on, SKIP completes the first of them with its status and lets the rest go on, and CANCEL of a ring with no request at
the maintenance gate ends its descriptors (R336, Table 11.12); RESUME and SKIP of any other ring change nothing. -/
def Obligations.FetchAndResume : Prop :=
  (∀ (s : State) (n : Fin 64) (bs : List Byte) (bad : Bool) (x : Nat) (b : Dp), s.hostLive = true → s.dp.ringOn n = true →
    ((s.dp.ring n).state = .running ∨ (s.dp.ring n).state = .halted) → (s.dp.ring n).fetchFault = none →
    s.dp.fetchWaits n = false → 1 ≤ s.dp.fetchSize n →
    s.dp.ringXlate (s.dp.spaceOf n) (s.dp.slotDva n (s.dp.ring n).head) false = (.found x, b) →
    exec (.descriptorFetch n [(bs, bad)]) s = .next (s.plane (b.slotArrives n bs bad))) ∧
  (∀ (s : State) (n : Fin 64) (a : Dp), s.hostLive = true → a = s.dp.unhalt n →
    (s.dp.resumable s.gates n = true →
      exec (.resume n) s = .next (s.plane (a.restartAll ((s.dp.haltedOf n).map fun x => x.1.uid))) ∧
      ∀ (o : Outst) (h : Halt) (l : List (Outst × Halt)), s.dp.haltedOf n = (o, h) :: l → exec (.skip n) s = .next (s.plane
        ((((a.letGo o.uid).complete n o.uid { status := h.status, detail := h.detail, ofs := h.ofs }).restartAll
          (l.map fun x => x.1.uid)).wake))) ∧
    (s.dp.resumable s.gates n = false →
      exec (.resume n) s = .next (s.plane s.dp) ∧ exec (.skip n) s = .next (s.plane s.dp))) ∧
  (∀ (s : State) (n : Fin 64) (slots : List (List Byte)), s.hostLive = true →
    (∀ q ∈ s.mnt.queue ++ s.mnt.arrived, ofRing n q = false) →
    exec (.ringResumeCancel n slots) s = .next (s.turned { s with dp := s.dp.cancelRing n slots }))

/-! ### Registers -/

/-- A COMMIT of a block goes through its registers: one whose staged value holds a reserved encoding, or that a check of its
chapter keeps, keeps its value and has it staged again; every other takes its staged value; and a register of no block in
hand keeps both (R344). A COMMIT of a block whose fields nothing else follows leaves exactly this. -/
def Obligations.CommitAppliesStaged : Prop :=
  (∀ (b : Block) (kept : List Nat) (d t : Dp) (off : Nat) (i : RwInfo), t = b.regs.foldl (Dp.commitReg b kept) d →
    rwReg off = some i →
    (off ∈ b.regs → (i.reserved (d.regs.stagedVal off) = false ∧ off ∉ kept) →
      t.reg off = d.regs.stagedVal off ∧ t.regs.stagedVal off = d.regs.stagedVal off) ∧
    (off ∈ b.regs → d.regs.stagedVal off ≠ d.reg off → (i.reserved (d.regs.stagedVal off) = true ∨ off ∈ kept) →
      t.reg off = d.reg off ∧ t.regs.stagedVal off = d.reg off ∧ (t.regs.statVal b.stat.1).bit 0 = true) ∧
    (off ∉ b.regs → t.reg off = d.reg off ∧ t.regs.stagedVal off = d.regs.stagedVal off)) ∧
  (∀ (s : State) (b : Block), s.hostLive = true →
    b ∈ [Block.glb, .fab, .spr, .gln, .cxd, .ash, .kln, .otp, .mnt] →
    exec (.registerCommit b) s = .next (s.plane (b.regs.foldl (Dp.commitReg b []) s.dp)))

/-- A write to a register of 8 bytes, or of 4 bytes to one half of it, stages its RW bits and leaves the others; a write to
a block's status register clears the bits written 1 that are W1C (R9, R513, Table 0.6). -/
def Obligations.WritesStageOrClear : Prop :=
  ∀ (s : State) (off size value o : Nat) (w m : Word) (b : Block) (r : Nat), s.hostLive = true → s.kiln.recovery = false →
    s.tlrDark off = false → (off < 0x0F00040 ∨ 0x0F000C0 ≤ off) → Dp.widened off size value = some (o, w, m) →
    (o < Dp.hdmDecoder ∨ Dp.hdmDecoder + 0x28 ≤ o) → (o < Dp.msixTable ∨ Dp.msixTable + 1152 ≤ o) →
    blockOf o = some (b, r) → b ≠ .lnk →
    (∀ i, rwReg o = some i → o ≠ b.stat.1 → exec (.registerWrite off size value) s = .next (s.plane
      { s.dp with regs := s.dp.regs.stage o ((i.mask &&& m &&& w) ||| (s.dp.regs.stagedVal o &&& ~~~(i.mask &&& m))) })) ∧
    (rwReg o = none → o = b.stat.1 → exec (.registerWrite off size value) s = .next (s.plane
      { s.dp with regs := s.dp.regs.clearStat o (w &&& b.stat.2) })) ∧
    (rwReg o = none → o ≠ b.stat.1 → exec (.registerWrite off size value) s = .next (s.plane s.dp))

/-- The registers that act when they are written. PHX_TRAP_ARM clears PHX_NAN_CNT and arms the trap, and while it is
disarmed a NaN that it acts on counts and does nothing else (R66); PHX_LS_LOAD with GO = 1 leaves its exponent to the next
step boundary, or sets CFG_ERR when it is out of range (R73); a PHX COMMIT with PHX_RNG_IDX.WR = 1 writes one stream's key and
counter (R75); a change of RED_WAYS is in force in a half that holds no partial (R219); ASH_THAW unfreezes the log (R440);
MON_RESTART starts the windows of the slots it names, and a window of a set length ends held (R443). -/
def Obligations.RegistersAct : Prop :=
  (∀ s : State, s.hostLive = true →
    exec .phxTrapArm s = .next (s.plane { s.dp with phx := { s.dp.phx with armed := true, nanCnt := 0 } })) ∧
  (∀ (d : Dp) (p : Bool) (g : Dp.Origin), d.phx.armed = false → (d.reg Reg.phxCtl).bit 1 = true →
    (p = true → (d.reg Reg.phxCtl).bit 3 = true) → d.phx.nanCnt < 2 ^ 64 - 1 →
    d.nanSeen p g = { d with phx := { d.phx with nanCnt := d.phx.nanCnt + 1 } }) ∧
  (∀ (s : State) (go : Bool) (e : Fin 64), s.hostLive = true →
    ((signed 6 e < -24 ∨ 24 < signed 6 e) → exec (.phxLsLoad go e) s = .next (s.plane (s.dp.setStat (Block.phx.base + 0x0F0) 0))) ∧
    (-24 ≤ signed 6 e → signed 6 e ≤ 24 → exec (.phxLsLoad go e) s = .next (s.plane
      { s.dp with phx := { s.dp.phx with lsLoad := if go then some (signed 6 e) else s.dp.phx.lsLoad } }))) ∧
  (∀ s : State, s.hostLive = true → (s.dp.newVal Reg.rngIdx).bit 12 = true → ∃ t : Dp,
    exec .phxRngWrite s = .next (s.plane t) ∧ (t.reg Reg.rngIdx).bit 12 = false ∧
    t.phx.streams = Tab.set (fun _ => (0, 0)) s.dp.phx.streams ((s.dp.regs.stagedVal Reg.rngIdx).fld 11 0)
      ((s.dp.regs.stagedVal Reg.rngKey).toNat, (s.dp.regs.stagedVal Reg.rngCtr).toNat)) ∧
  (∀ (s : State) (h : Fin 2), s.awake = true → s.dp.regionEmpty h = true → exec (.redWaysApply h) s = .next (s.plane
    (if h = 0 then { s.dp with redWays0 := (s.dp.reg Reg.grCtl).fld 1 0 }
     else { s.dp with redWays1 := (s.dp.reg Reg.grCtl).fld 1 0 }))) ∧
  (∀ s : State, s.hostLive = true → exec .ashThaw s = .next (s.plane { s.dp with ash := { s.dp.ash with frozen := false } })) ∧
  (∀ (s : State) (l : BitVec 64), s.hostLive = true → ∃ t : Dp, exec (.monRestart l) s = .next (s.plane t) ∧
    ∀ k : Nat, k < 64 → t.mon k = if l.toNat.testBit k then
      { start := s.dp.now, running := (s.dp.reg (Reg.monCfg k)).bit 8, bins := List.replicate 16 0 } else s.dp.mon k) ∧
  (∀ (s : State) (k : Fin 64), s.awake = true → (s.dp.mon k).running = true → (s.dp.reg (Reg.monCfg k)).fld 63 32 ≠ 0 →
    exec (.monitorWindowEnd k) s =
      .next (s.plane (s.dp.setMon k { s.dp.mon k with running := false, held := true, stop := s.dp.now })))

/-- A COMMIT that turns EN of a ring on starts it: RUNNING, empty, with its next SEQ from RING_SEQn; one that turns EN off
cancels the fetched descriptors and leaves it DISABLED once nothing is outstanding, else DRAINING (R345). -/
def Obligations.RingsStartAndStop : Prop :=
  (∀ (s : State) (n : Fin 64), s.hostLive = true →
    (((s.dp.reg (Reg.ringCfg n)).bit 0 = false ∧ (s.dp.newVal (Reg.ringCfg n)).bit 0 = true) →
      exec (.ringEnable n) s = .next (s.plane (Dp.afterRing s.dp (Block.ring.regs.foldl (Dp.commitReg .ring s.dp.ringKeeps) s.dp)))) ∧
    (((s.dp.reg (Reg.ringCfg n)).bit 0 = true ∧ (s.dp.newVal (Reg.ringCfg n)).bit 0 = false) →
      exec (.ringDisable n) s =
        .next (s.plane (Dp.afterRing s.dp (Block.ring.regs.foldl (Dp.commitReg .ring s.dp.ringKeeps) s.dp))))) ∧
  (∀ (d : Dp) (n : Nat), ((d.ringStarts n).ring n).state = .running ∧ ((d.ringStarts n).ring n).pend = 0 ∧
    ((d.ringStarts n).ring n).fetched = [] ∧ ((d.ringStarts n).ring n).tail = 0 ∧
    ((d.ringStarts n).ring n).expSeq = (d.reg (Reg.ringSeq n)).fld 31 0 ∧
    ∀ m, m ≠ n → (d.ringStarts n).ring m = d.ring m) ∧
  (∀ (d : Dp) (n : Nat), (d.ring n).fetched = [] →
    (d.ringStops n).ring n =
      { d.ring n with fetched := [], fpoison := [], pend := 0, haltNext := none, fetchFault := none,
                      state := if (d.ring n).outst.isEmpty then .disabled else .draining } ∧
    (∀ m, m ≠ n → (d.ringStops n).ring m = d.ring m) ∧
    (d.ringStops n).mem.pageReqs = d.mem.pageReqs.filter fun q => q.for_ ≠ PriFor.fetch n)

/-! ### Translations, completion and the host -/

/-- A write of ATU_INV with SCOPE 0–2 queues an invalidation, of which one runs and 16 wait; one more widens the last of
them to every space and sets ATU_STAT bit 1. The oldest completes once nothing that
it covers is held by a running SCATTER_ADD or a counted sheaf, and waits else (R22, R135, R270). A host invalidation takes its
range of host pages out of the translation cache, with every waiting one that no SCATTER_ADD holds a page of; those that one
does hold wait (R25, R137). -/
def Obligations.TranslationsInvalidate : Prop :=
  (∀ (s : State) (sp : Fin 16) (scope : Fin 4) (a : Nat), s.hostLive = true → scope.val ≤ 2 →
    (s.dp.mem.invQ.length ≤ 16 → exec (.atuInv sp scope a) s = .next (s.plane
      { s.dp with mem := { s.dp.mem with invQ := s.dp.mem.invQ ++ [{ space := sp, scope := scope, addr := a }] } })) ∧
    (16 < s.dp.mem.invQ.length → exec (.atuInv sp scope a) s = .next (s.plane
      (({ s.dp with mem := { s.dp.mem with invQ := s.dp.mem.invQ.take 16 ++
        [{ space := 0, scope := 2, addr := 0 }] } } : Dp).setStat Reg.atuStat 1)))) ∧
  (∀ (s : State) (x : Inv) (l : List Inv), s.awake = true → s.dp.mem.invQ = x :: l →
    (s.dp.invHeld x = false → exec .atuInvComplete s =
      .next (s.plane ({ s.dp with mem := { s.dp.mem with invQ := l } } : Dp).retryBroken)) ∧
    (s.dp.invHeld x = true → exec .atuInvComplete s = .next (s.plane s.dp))) ∧
  (∀ (s : State) (p : Option Nat) (page k : Nat) (l : List AtsInv), s.hostLive = true →
    l = s.dp.mem.atsInvs ++ [{ pasid := p, page, pages := k }] → ∃ t : Dp,
    exec (.atsInvalidation p page k) s = .next (s.plane t) ∧
    t = { s.dp with mem := { s.dp.mem with atc := t.mem.atc, atsInvs := l.filter s.dp.atsHeld } } ∧
    ∀ a, a ∈ t.mem.atc ↔ a ∈ s.dp.mem.atc ∧ ∀ y ∈ l, s.dp.atsHeld y = false →
      (a.pasid ≠ y.pasid ∨ a.page / 4096 < y.page ∨ y.page + y.pages ≤ a.page / 4096))

/-- A descriptor whose work is done completes at its DESCRIPTOR_COMPLETE (R324), and one whose work is not done stays. A
vector's coalescing interval ends: it sends its message if it was asked for within it (R329). -/
def Obligations.DescriptorsComplete : Prop :=
  (∀ (s : State) (n : Fin 64) (q : Nat) (o : Outst), s.hostLive = true →
    (s.dp.ring n).outst.find? (fun o => o.seq = q) = some o → (s.dp.ring n).outst.find? (fun x => x.uid = o.uid) = some o →
    (∀ e, o.phase = .finished e →
      exec (.descriptorComplete n q) s = .next (s.plane (s.dp.complete n o.uid e).unpinned.wake)) ∧
    (∀ h, o.phase = .halted h → exec (.descriptorComplete n q) s = .next (s.plane s.dp.unpinned.wake))) ∧
  (∀ (s : State) (v : Fin 72) (x : Vector), s.hostLive = true → x = s.dp.vec v → x.quiet = true →
    (x.asked = true → exec (.msixCoalesceExpiry v) s =
      .next (s.plane ((s.dp.setVec v { x with quiet := false, asked := false }).sendVec v))) ∧
    (x.asked = false → exec (.msixCoalesceExpiry v) s =
      .next (s.plane (s.dp.setVec v { x with quiet := false, asked := false })))) ∧
  (∀ (d : Dp) (v : Nat), d.coalUs v = 0 → ((d.vec v).masked = false →
      d.sendVec v = { d with outs := d.outs ++ [.msix v (d.vec v).addr (d.vec v).data] }) ∧
    ((d.vec v).masked = true → d.sendVec v = d.setVec v { d.vec v with pend := true }))

/-- DONE_SEQ is the number of the last of the leading descriptors, in order of dispatch, that have all completed (R324). -/
def Obligations.DoneSeqFollowsOrder : Prop :=
  ∀ (l : List (Nat × Nat × Bool)) (q : Nat), Dp.retire l q =
    (l.dropWhile (fun x => x.2.2), ((l.takeWhile fun x => x.2.2).getLast?.map fun x => x.2.1).getD q)

/-- Page request responses (R335, Table 11.11). Success repeats the ATS request, and what waited goes on; an Invalid Request, a
Response Failure and no response end the request with DETAIL 7, 9 and 8 and count; a Response Failure stops further page
requests until the host resets PRI. -/
def Obligations.PageRequestsAnswered : Prop :=
  (∀ (s : State) (g : Fin 512) (q : PageReq) (a : Dp), s.hostLive = true →
    s.dp.mem.pageReqs.find? (fun q => q.group = g.val) = some q →
    a = { s.dp with mem := { s.dp.mem with pageReqs := s.dp.mem.pageReqs.filter fun x => x.group ≠ g.val } } →
    (∀ (u : Nat) (b : Dp), q.for_ = .work u → a.atsRequest q.space q.page q.write = (true, b) →
      exec (.priSuccess g) s = .next (s.plane (b.restartAll (b.stalledOn fun x => x = Stall.request g.val)).retryGroups)) ∧
    (∀ b : Dp, a.atsRequest q.space q.page q.write = (false, b) →
      exec (.priSuccess g) s = .next (s.plane (b.requestFails q 6).retryGroups)) ∧
    exec (.priInvalidRequest g) s = .next (s.plane ((a.bump (Reg.cxdCnt 3)).requestFails q 7).retryGroups) ∧
    exec (.priTimeout g) s = .next (s.plane ((a.bump (Reg.cxdCnt 3)).requestFails q 8).retryGroups) ∧
    exec (.priResponseFailure g) s = .next (s.plane
      ((({ a with mem := { a.mem with priStopped := true } } : Dp).bump (Reg.cxdCnt 3)).requestFails q 9).retryGroups)) ∧
  (∀ (d : Dp) (q : PageReq) (k n : Nat), q.for_ = .fetch n → d.requestFails q k =
    (d.setRing n { d.ring n with
      fetchFault := some { status := stXlate, detail := k, dva := q.dva, space := q.space, write := q.write } }).fetchHalt n) ∧
  (∀ s : State, s.hostLive = true →
    exec .priReset s = .next (s.plane { s.dp with mem := { s.dp.mem with priStopped := false } }))

/-- The host commits the HDM decoder when its size is that of MEM_HDM and its interleave ways are 1, and sets Error Not
Committed else (R348). In the committed window the host comes to hold a line, gives one up, or writes 64 bytes back and gives
it up (R40, R41); outside it nothing happens. -/
def Obligations.HdmWindow : Prop :=
  (∀ (s : State) (ok : Bool), s.hostLive = true → s.dp.mem.hdmCommitted = false →
    ok = (s.dp.mem.hdmSize = ((s.dp.reg Reg.memHdm).fld 26 16 + (s.dp.reg Reg.memHdm).fld 8 0) * 2 ^ 30 &&
      s.dp.mem.hdmWays = 0) →
    exec .hdmDecoderCommit s =
      .next (s.plane { s.dp with mem := { s.dp.mem with hdmCommitted := ok, hdmError := !ok } })) ∧
  (∀ (s : State) (x a : Nat) (k : HostAccess) (size : Nat), s.hostLive = true → s.pwr.memActive = true →
    s.dp.mem.hdmCommitted = true →
    size = ((s.dp.reg Reg.memHdm).fld 26 16 + (s.dp.reg Reg.memHdm).fld 8 0) * 2 ^ 30 → a = s.dp.windowAt (x / 64 * 64) →
    (size ≤ x → exec (.hdmWindowAccess x k) s = .next (s.plane s.dp)) ∧
    (x < size → k = .release → exec (.hdmWindowAccess x k) s =
      .next (s.plane (s.dp.setSnooped a (Tab.erase (s.dp.snooped a) (a / 128))))) ∧
    (∀ bs : List Byte, x < size → k = .write bs → s.dp.isPoisoned a = false → ∃ t : Dp,
      exec (.hdmWindowAccess x k) s = .next (s.plane t) ∧
      (∀ i, i < 64 → t.dpaByte (a + i) = (slice bs 0 64).getD i 0) ∧
      (∀ b, (b < a ∨ a + 64 ≤ b) → t.dpaByte b = s.dp.dpaByte b) ∧ Tab.get (fun _ => none) (t.snooped a) (a / 128) = none) ∧
    (x < size → (s.dp.snooped a).length < 4194304 → (k = .shared ∨ k = .owned) → ∃ t : Dp,
      exec (.hdmWindowAccess x k) s = .next (s.plane t) ∧ Tab.get (fun _ => none) (t.snooped a) (a / 128) =
        some ((Tab.get (fun _ => none) (s.dp.snooped a) (a / 128)).getD false || k = .owned)))

/-! ### Frames and ports of the pod links -/

/-- An accepted control frame of a message that is dispatched here acts on it: CREDIT grants, an arrival and a release of a
BARRIER, READY and BITMAP of a REDUCE, an ABORT that ends it, and a STEPREC leaf; a CREDIT for rows of a LIVE generation lets
waiting rows go; a frame for a COLL_ID that is not dispatched yet is kept while fewer than 4,096 are (R356, R364, R365, R370,
R373, R382). -/
def Obligations.ControlFramesAct : Prop :=
  (∀ (s : State) (fr f : Culm) (h : Dp) (c : Coll) (r : Nat), s.podLive = true → s.dp.lnk.early.length < 4096 →
    s.dp.Hears 1 f → h = s.dp.heard 1 f → h.collById f.msg = some c → Dp.rankIn c f.src = some r →
    (∀ x : Credit, f = emberAs fr 3 fr.aux → f.aux2 < 254 → s.dp.repairAsked f = none → h.endedFor f.msg f.src false = none →
      x = { peer := f.src, msg := f.msg, level := f.aux2, block := f.aux32, start := leAt f.payload 0 8,
            len := leAt f.payload 8 8 } →
      exec (.credit fr) s =
        .next (s.plane (h.modColl c.uid fun c => { c with credits := c.credits ++ [x] }).progress.progressPod)) ∧
    (f = emberAs fr 4 0 → exec (.barrierArrive fr) s =
      .next (s.plane (h.modColl c.uid fun c => { c with arrived := r :: c.arrived }).progress.progressPod)) ∧
    (f = emberAs fr 4 1 → exec (.barrierRelease fr) s =
      .next (s.plane (h.modColl c.uid fun c => { c with released := true }).progress.progressPod)) ∧
    (f = emberAs fr 5 0 → h.endedFor f.msg f.src true = none → exec (.ready fr) s =
      .next (s.plane (h.readyFrom c.uid r (leAt f.payload 0 8) (f.aux32 = 1)).progress.progressPod)) ∧
    (f = emberAs fr 5 1 → exec (.bitmap fr) s = .next (s.plane
      (h.applyBitmap c.uid (Dp.bitRanks (slice f.payload 0 64)) (Dp.bitRanks (slice f.payload 64 64))).progress.progressPod)) ∧
    (f = emberAs fr 5 2 → s.dp.repairOf f = none → (c.op ≠ 0x48 ∨ c.rank ≠ c.coord ∨ c.fixed = true) →
      exec (.abort fr) s = .next (s.plane (h.endColl c.uid { status := f.aux2 }).progress.progressPod)) ∧
    (f = emberAs fr 10 0 → (c.hosted 0).all (fun v => (c.children v).all fun x => x.1 ≠ f.aux2 || c.host 0 x.2 ≠ r) = true →
      exec (.steprec fr) s = .next (s.plane (h.modColl c.uid fun c => { c with parts := c.parts ++
        [{ phase := 1, level := 0, block := 0, who := 0, ofs := 0, bytes := f.payload, poison := f.poison,
           src := f.src }] }).progress.progressPod))) ∧
  (∀ (s : State) (fr f : Culm) (h : Dp) (g : Gen), s.podLive = true → f = emberAs fr 3 fr.aux → 254 ≤ f.aux2 →
    s.dp.Hears 1 f → h = s.dp.heard 1 f → g = h.gen f.msg → g.st = .live → exec (.credit fr) s = .next (s.plane
      (((h.setGen f.msg { g with grants := g.grants ++
        [{ from_ := f.src, kind := f.aux2 - 254, start := leAt f.payload 0 8, len := leAt f.payload 8 8 }] }).pumpRows
          f.msg).progressPod))) ∧
  (∀ (s : State) (k : Fin 5) (fr f : Culm), s.podLive = true → s.dp.lnk.early.length < 4096 → s.dp.Hears 1 f →
    (s.dp.heard 1 f).collById f.msg = none → (s.dp.heard 1 f).endedFor f.msg f.src true = none →
    f = emberAs fr (match k with | 0 => 4 | 1 => 4 | 2 => 5 | 3 => 5 | 4 => 10)
      (match k with | 0 => 0 | 1 => 1 | 2 => 0 | 3 => 1 | 4 => 0) →
    exec (match k with
      | 0 => .barrierArrive fr | 1 => .barrierRelease fr | 2 => .ready fr | 3 => .bitmap fr | 4 => .steprec fr) s =
      .next (s.plane { s.dp.heard 1 f with lnk := { (s.dp.heard 1 f).lnk with
        early := (s.dp.heard 1 f).lnk.early ++ [f] } }.progressPod))

/-- Accepted DATA reaches the collective it names, or the RECV of its tag that lacks it and has room for it (R361, R379, R380);
a row of a LIVE generation reaches its buffer (R298). An ACK takes the frames it acknowledges off the connection and lets queued
frames follow; a NAK sends the frame it names again, at most MAX times, and past that the peer is unreachable (R361, R362). What
an outstanding descriptor waits on a peer for goes on, or ends with TIMEOUT, after each of them (R362). -/
def Obligations.DataAcksAndNaks : Prop :=
  (∀ (s : State) (fr f : Culm) (h : Dp) (c : Coll) (r : Nat) (p : Part), s.podLive = true → f = bulk fr 0 → s.dp.Hears 0 f →
    h = s.dp.heard 0 f →
    p = { phase := f.aux, level := 0, block := f.aux32, who := 0, ofs := f.ofs, bytes := f.payload, poison := f.poison,
          src := f.src } →
    (f.aux = 0 → h.collById f.msg = some c → Dp.rankIn c f.src = some r → exec (.data fr) s = .next (s.plane
      (h.modColl c.uid fun x => { x with parts := x.parts ++
        [{ p with level := f.aux2, who := Dp.edgeWho c f.aux32 f.aux2 r f.ofs }] }).progress.progressPod)) ∧
    (f.aux = 1 → h.collById f.msg = some c → Dp.rankIn c f.src = some r → exec (.data fr) s = .next (s.plane
      (h.modColl c.uid fun x => { x with parts := x.parts ++ [p] }).progress.progressPod)) ∧
    (f.aux = 2 → s.dp.repairOf f = none → h.byTag 0x4B f.src f.msg (fun c =>
        c.group = f.group && !(c.parts.any fun p => p.ofs = f.ofs) && f.ofs + f.payload.length ≤ Dp.msgLen c) = some c →
      exec (.data fr) s = .next (s.plane
        (h.modColl c.uid fun x => { x with parts := x.parts ++ [{ p with block := 0 }] }).progress.progressPod)) ∧
    (f.aux = 3 → f.aux2 < 254 → h.collById f.msg = some c → Dp.rankIn c f.src = some r →
      f.ofs + f.payload.length ≤ Dp.msgLen c → exec (.data fr) s = .next (s.plane
        (h.modColl c.uid fun x => { x with parts := x.parts ++ [{ p with block := r }] }).progress.progressPod)) ∧
    (∀ (g : Gen) (v w : Wk), f.aux = 3 → 254 ≤ f.aux2 → g = s.dp.gen f.msg → g.st = .live →
      Dp.Works (Dp.rowWork f g) s.dp () v → Dp.Works (Dp.rowWork f (h.gen f.msg)) h () w →
      exec (.data fr) s = .next (s.plane ((w.d.progressRoutes).settleGen f.msg).progressPod))) ∧
  (∀ (s : State) (fr f : Culm) (cls : Nat) (c : Conn) (done : TxFrame → Bool) (b : Dp), s.podLive = true →
    f = emberAs fr 1 fr.aux → s.dp.lnkOn = true → f.dst = s.dp.me → (s.dp.peer f.src).down = false →
    cls = (if f.aux = 1 then 1 else 0) → c = s.dp.conn f.src cls → f.epoch = c.epoch →
    (∀ t, done t = ((t.frame.psn + 2 ^ 32 - f.psn) % 2 ^ 32 = 0 || 2 ^ 31 ≤ (t.frame.psn + 2 ^ 32 - f.psn) % 2 ^ 32 ||
      ((t.frame.psn + 2 ^ 32 - f.psn) % 2 ^ 32 ≤ 256 &&
        (leAt f.payload 0 32).testBit ((t.frame.psn + 2 ^ 32 - f.psn) % 2 ^ 32 - 1)))) →
    b = (c.unacked.filter done).foldl (fun (d : Dp) t =>
      d.monSample 2 (fun x => x % 256 = 255 || x = t.port) ((d.now : Int) - t.time))
      (s.dp.setConn f.src cls { c with unacked := c.unacked.filter fun t => !done t }) →
    exec (.ack fr) s = .next (s.plane (b.flushQueue f.src cls).progressPod)) ∧
  (∀ (s : State) (fr f : Culm) (cls : Nat) (c : Conn) (t : TxFrame), s.podLive = true → f = emberAs fr 2 fr.aux →
    s.dp.lnkOn = true → f.dst = s.dp.me → (s.dp.peer f.src).down = false → cls = (if f.aux = 1 then 1 else 0) →
    c = s.dp.conn f.src cls → f.epoch = c.epoch → c.unacked.find? (fun t => t.frame.psn = f.psn) = some t →
    (∀ q, t.tries < (s.dp.reg Reg.lnkRetry).fld 3 0 → s.dp.route f.src t.frame.group cls = some q →
      exec (.nak fr) s = .next (s.plane (((s.dp.setConn f.src cls { c with unacked := c.unacked.map fun x =>
        if x.frame.psn = f.psn then { t with tries := t.tries + 1, port := q } else x }).emit q
          { t.frame with retx := true }).bump (Reg.lnkCnt 4)).progressPod)) ∧
    ((s.dp.reg Reg.lnkRetry).fld 3 0 ≤ t.tries → exec (.nak fr) s = .next (s.plane
      (((s.dp.bump (Reg.lnkCnt 5)).ashLog { time := s.dp.now, cls := 4, code := 0, data := f.src }).unreachable
        f.src).progressPod))) ∧
  (∀ (s : State) (fr f : Culm) (cls : Nat), s.podLive = true → s.dp.lnkOn = true → f.dst = s.dp.me →
    (s.dp.peer f.src).down = false → cls = (if f.aux = 1 then 1 else 0) → f.epoch ≠ (s.dp.conn f.src cls).epoch →
    (f = emberAs fr 1 fr.aux → exec (.ack fr) s = .next (s.plane (s.dp.bump (Reg.lnkCnt 2)).progressPod)) ∧
    (f = emberAs fr 2 fr.aux → exec (.nak fr) s = .next (s.plane (s.dp.bump (Reg.lnkCnt 2)).progressPod)))

/-- Restarted connections (R363). A reset NAK of a peer that is not restarting here makes the peer unreachable, so that what
waits on it ends with TIMEOUT and what has come from it and is not written is discarded, before both connections take its epoch
and the module answers; when both restart, the lower endpoint number keeps its epoch; a repeated one is only answered. The reset
ACK that answers this module's own completes the restart, and one of another epoch is discarded and counted. A discarded frame
counts and, where its connection and PSN can be told, is NAKed (R359); one that is written as Table 12.5 lays it out, with its
Culm CRC, is read back whole (R358). -/
def Obligations.ConnectionsRestart : Prop :=
  (∀ (s : State) (fr f : Culm) (p : Nat), s.podLive = true → f = { emberAs fr 2 0 with aux2 := 1 } → s.dp.lnkOn = true →
    f.dst = s.dp.me → p = f.src →
    ((s.dp.peer p).resetting = false → (f.epoch ≠ (s.dp.conn p 0).epoch ∨ (s.dp.peer p).down = true) →
      exec (.connectionResetNak fr) s = .next (s.plane
        ((((s.dp.unreachable p).dropUnwritten p).progressPod.answerReset p f.epoch).progressPod))) ∧
    ((s.dp.peer p).resetting = true → p ≤ s.dp.me → (f.epoch ≠ (s.dp.conn p 0).epoch ∨ (s.dp.peer p).down = true) →
      exec (.connectionResetNak fr) s = .next (s.plane (s.dp.answerReset p f.epoch).progressPod)) ∧
    ((s.dp.peer p).resetting = true → s.dp.me < p → f.epoch ≠ (s.dp.conn p 0).epoch →
      exec (.connectionResetNak fr) s = .next (s.plane s.dp)) ∧
    (f.epoch = (s.dp.conn p 0).epoch → (s.dp.peer p).down = false → exec (.connectionResetNak fr) s =
      .next (s.plane (s.dp.control p { ty := 1, ember := true, epoch := f.epoch, aux2 := 1 })))) ∧
  (∀ (d : Dp) (p e : Nat), ((d.answerReset p e).conn p 0) = { epoch := e } ∧ ((d.answerReset p e).conn p 1) = { epoch := e } ∧
    ((d.answerReset p e).peer p).down = false ∧ ((d.answerReset p e).peer p).resetting = false ∧
    ∀ c ∈ (d.dropUnwritten p).lnk.colls, ∀ x ∈ c.parts, x.stored = true ∨ x.src ≠ p) ∧
  (∀ (s : State) (fr f : Culm), s.podLive = true → f = { emberAs fr 1 0 with aux2 := 1 } → s.dp.lnkOn = true →
    f.dst = s.dp.me → (s.dp.peer f.src).down = false →
    (f.epoch = (s.dp.conn f.src 0).epoch → (s.dp.peer f.src).resetting = true →
      exec (.connectionResetAck fr) s = .next (s.plane
        (((s.dp.setPeer f.src { s.dp.peer f.src with resetting := false }).flushQueue f.src 0).flushQueue f.src 1))) ∧
    (f.epoch = (s.dp.conn f.src 0).epoch → (s.dp.peer f.src).resetting = false →
      exec (.connectionResetAck fr) s = .next (s.plane s.dp)) ∧
    (f.epoch ≠ (s.dp.conn f.src 0).epoch →
      exec (.connectionResetAck fr) s = .next (s.plane (s.dp.bump (Reg.lnkCnt 2))))) ∧
  (∀ s : State, s.podLive = true → s.dp.lnkOn = true →
    exec (.frameDiscard none) s = .next (s.plane (s.dp.bump (Reg.lnkCnt 2))) ∧
    ∀ (p cls psn : Nat), exec (.frameDiscard (some (p, cls, psn))) s =
      .next (s.plane ((s.dp.bump (Reg.lnkCnt 2)).sendNak p cls psn))) ∧
  (∀ (f : Culm) (b : List Byte), f.wf = true → f.ty ≤ 10 → b = Dp.culmBytes f → Dp.culmRead b = some f ∧
    b.length = 36 + f.payload.length ∧ leAt b 0 1 = 16 + f.ty ∧ leAt b 2 2 = f.src ∧ leAt b 4 2 = f.dst ∧
    leAt b 6 2 = f.group ∧ leAt b 8 4 = f.psn ∧ leAt b 12 4 = f.msg ∧ leAt b 16 8 = f.ofs ∧
    leAt b 24 2 = f.payload.length ∧ leAt b 26 1 = f.aux ∧ leAt b 27 1 = f.aux2 ∧ leAt b 28 4 = f.aux32 ∧
    slice b 32 f.payload.length = f.payload)

/-- Replica fingerprints (R256, R257) and shards of NETWORK UPDATEs (R376): the owner compares a fingerprint of a step it has
committed, until DEADLINE, and keeps one that is early; a verdict of the owner ends the comparison, or under REPAIR_FROM asks the
owner for its copy; DEADLINE leaves it UNCHECKED. An accepted CANCEL frame marks the record of the generation it names and retires
it (R306). A SHARD_RET writes the elements that its UPDATE lacks, and one that no UPDATE in progress waits for is discarded and
counted; FLL_NET_CTL.TIMEOUT ends the UPDATE, with the elements it wrote (R254). -/
def Obligations.FingerprintsAndShards : Prop :=
  (∀ (s : State) (fr f : Culm) (h : Dp), s.podLive = true → f = emberAs fr 7 0 → s.dp.Hears 1 f → h = s.dp.heard 1 f →
    (∀ x, h.fll.own.find? (fun x => x.shardId = f.msg && x.step = leAt f.payload 0 8) = some x →
      (x.expired = false → exec (.fingerprint fr) s = .next (s.plane (h.compareFp x f.src (leAt f.payload 8 8)))) ∧
      (x.expired = true → exec (.fingerprint fr) s = .next (s.plane (h.fpLate f.msg)))) ∧
    (h.fll.own.find? (fun x => x.shardId = f.msg && x.step = leAt f.payload 0 8) = none →
      exec (.fingerprint fr) s = .next (s.plane { h with fll := { h.fll with early := h.fll.early ++
        [{ module := f.src, shardId := f.msg, step := leAt f.payload 0 8, crc := leAt f.payload 8 8 }] } }))) ∧
  (∀ (s : State) (fr f : Culm) (h : Dp) (p : FpPend), s.podLive = true → s.dp.Hears 1 f → h = s.dp.heard 1 f →
    h.findPend f.msg (leAt f.payload 0 8) = some p → f.src = p.owner → p.repairing = false →
    (f = emberAs fr 7 1 →
      exec (.verdictMatch fr) s = .next (s.plane (((h.setFpEntry p 1 0).bump (Reg.fllCnt 1)).dropPend p))) ∧
    (∀ b : Dp, f = emberAs fr 7 2 → b = h.divergeNotice 1 p.step p.shardId p.owner h.me p.crc →
      ((b.reg Reg.fllCtl).fld 4 3 ≠ 1 →
        exec (.verdictMismatch fr) s = .next (s.plane ((b.diverge true).notRepaired p (leAt f.payload 8 8)))) ∧
      ((b.reg Reg.fllCtl).fld 4 3 = 1 → (b.peer p.owner).down = false → exec (.verdictMismatch fr) s = .next (s.plane
        (({ b.diverge false with fll := { (b.diverge false).fll with pend := (b.diverge false).fll.pend.map fun x =>
            if x = p then { p with repairing := true, peerCrc := leAt f.payload 8 8 } else x } } : Dp).posts p.owner 1
          [{ ty := 3, ember := true, msg := p.shardId, payload := toLe 8 0 ++ toLe 8 (Dp.repairLen p.desc) }]))))) ∧
  (∀ (s : State) (shard step : Nat) (p : FpPend) (a : Dp), s.awake = true →
    a = { s.dp with fll := { s.dp.fll with
            early := s.dp.fll.early.filter fun y => !(y.shardId = shard && y.step = step)
            own := s.dp.fll.own.map fun x => if x.shardId = shard && x.step = step then { x with expired := true } else x } } →
    a.findPend shard step = some p → p.repairing = false → exec (.fpDeadline shard step) s =
      .next (s.plane (((a.setFpEntry p 4 0).dropPend p).fpLate shard))) ∧
  (∀ (s : State) (fr f : Culm) (h : Dp) (k : Nat), s.podLive = true → f = emberAs fr 6 0 → s.dp.Hears 1 f →
    h = s.dp.heard 1 f → k = f.msg % 65536 →
    ((s.dp.gen k).sent = false → exec (.cancelFrame fr) s = .next (s.plane (h.retireGen k).progressPod)) ∧
    (∀ v w : Wk, Dp.Works (s.dp.cancelMark k) s.dp () v → Dp.Works (h.cancelMark k) h () w →
      exec (.cancelFrame fr) s = .next (s.plane (w.d.retireGen k).progressPod))) ∧
  (∀ (s : State) (fr f : Culm) (h : Dp), s.podLive = true → f = bulk fr 9 → s.dp.Hears 0 f → h = s.dp.heard 0 f →
    (∀ (c : Coll) (q : UpdP) (b : Dp), h.shardOf f = some c → q = parseUpd c.o.bytes →
      b = h.modColl c.uid (fun c' => { c' with parts := c'.parts ++ Dp.shardNew c q f }) →
      exec (.shardRet fr) s = .next (s.plane (b.settleShard c.uid).progressPod) ∧
      ∀ (x : Coll) (w : Wk), b.coll c.uid = some x → b.collRuns c.uid = true →
        (Dp.shardDue x (parseUpd x.o.bytes)).isEmpty = false →
        Dp.Works (Dp.shardWrite (b.envOf x.ring x.o) x (parseUpd x.o.bytes) (Dp.shardDue x (parseUpd x.o.bytes))) b () w →
        b.settleShard c.uid = w.d.shardNoted x (parseUpd x.o.bytes) (Dp.shardDue x (parseUpd x.o.bytes))) ∧
    (h.shardOf f = none → exec (.shardRet fr) s = .next (s.plane (h.bump (Reg.lnkCnt 2)).progressPod))) ∧
  (∀ (s : State) (shard k : Nat) (c : Coll), s.awake = true →
    s.dp.lnk.colls.find? (fun c => c.op = 0x30 && c.id = shard && s.dp.collLives c.uid) = some c →
    k = ((List.range (parseUpd c.o.bytes).count).filter c.returned.has).length →
    exec (.netTimeout shard) s = .next (s.plane ((s.dp.bump (Reg.fllCnt 0) k).endColl c.uid
      { status := stTimeout, result := k % 2 ^ 32 * 2 ^ 32 })))

/-! ### Timers, ports and errors -/

/-- Timers of connections and collectives; nothing is sent to an unreachable peer. One microsecond after an accepted frame its
acknowledgement is sent, a PSN that stays missing is NAKed, and the oldest frame without an acknowledgement is sent again (R361,
R362); the coordinator's deadline fixes the members, a silent coordinator ends a member's REDUCE with TIMEOUT, and a straggler is
treated as one, also when the REDUCE has ended at the coordinator (R370, R374). An acknowledgement carries the cumulative PSN of
its connection, and in bit i whether the PSN i after it has arrived (R361). -/
def Obligations.TimersAct : Prop :=
  (∀ (s : State) (p : Nat) (k : Fin 2) (c : Conn), s.podLive = true → c = s.dp.conn p k →
    ((s.dp.peer p).down = true → exec (.ackTimer p k) s = .next (s.plane s.dp) ∧
      exec (.reorderTimeout p k) s = .next (s.plane s.dp) ∧ exec (.retxTimeout p k) s = .next (s.plane s.dp.progressPod)) ∧
    ((s.dp.peer p).down = false →
      (c.fresh ≠ 0 → exec (.ackTimer p k) s = .next (s.plane (s.dp.sendAck p k))) ∧
      (c.have_ ≠ [] → exec (.reorderTimeout p k) s = .next (s.plane (s.dp.sendNak p k c.expect))) ∧
      ((s.dp.peer p).resetting = true → exec (.retxTimeout p k) s = .next (s.plane ((s.dp.control p
        { ty := 2, ember := true, epoch := (s.dp.conn p 0).epoch, aux2 := 1 }).bump (Reg.lnkCnt 3)).progressPod)) ∧
      (∀ (t : TxFrame) (l : List TxFrame) (q : Nat), (s.dp.peer p).resetting = false → c.unacked = t :: l →
        t.tries < (s.dp.reg Reg.lnkRetry).fld 3 0 → s.dp.route p t.frame.group k = some q →
        exec (.retxTimeout p k) s = .next (s.plane
          (((s.dp.setConn p k { c with unacked := c.unacked.map fun x =>
            if x.frame.psn = t.frame.psn then { t with tries := t.tries + 1, port := q } else x }).emit q
              { t.frame with retx := true }).bump (Reg.lnkCnt 4)).progressPod)))) ∧
  (∀ (s : State) (id : Nat) (c : Coll), s.awake = true → s.dp.collById id = some c → c.op = 0x48 → c.kind ≤ 1 →
    (c.rank = c.coord → c.fixed = false → (parseRed c.o.bytes).deadline ≠ 0 → exec (.deadlineExpiry id) s = .next (s.plane
      ((s.dp.modColl c.uid fun c => { c with expired := true }).tryFix c.uid).progress.progressPod)) ∧
    (c.rank ≠ c.coord → c.fixed = false →
      exec (.peerTimeout id) s = .next (s.plane (s.dp.endColl c.uid { status := stTimeout })))) ∧
  (∀ (s : State) (id r : Nat) (c : Coll), s.awake = true →
    ((s.dp.lnk.colls.find? fun c => c.id = id && c.ended && c.rank = c.coord && r < c.size && !c.ready.contains r).orElse
      fun _ => s.dp.collById id) = some c → c.op = 0x48 → c.kind ≤ 1 → c.rank = c.coord → c.fixed = true → r < c.size →
    c.ready.contains r = false → exec (.stragglerTimeout id r) s =
      .next (s.plane ((s.dp.modColl c.uid fun c => { c with ready := c.ready ++ [r] }).straggler c r 0xFFFFFFFF).progress)) ∧
  (∀ (d b : Dp) (p : Nat) (k : Fin 2) (q : Nat) (c : Conn), c = d.conn p k →
    b = d.setConn p k { c with fresh := 0, base := c.expect } → (b.peer p).down = false → b.route p 0 1 = some q →
    ∃ bits : List Byte, d.sendAck p k = b.emit q
      { ty := 1, ember := true, epoch := c.epoch, psn := (c.expect + 2 ^ 32 - 1) % 2 ^ 32, aux := k, payload := bits,
        src := b.me, dst := p } ∧
      ∀ i, i < 256 → (leAt bits 0 32).testBit i = c.have_.contains ((c.expect + i) % 2 ^ 32))

/-- Ports. PFC pauses the bulk class of a port and releases it (R352); a port whose training ends is up at what its lanes allow,
and verification enables preemption (R350, R352); a lane whose training fails leaves its port and counts as at its threshold
(R351, R429); the first PTP offset steps the time, and later ones are left to be slewed away (R353). -/
def Obligations.PortsAct : Prop :=
  (∀ (s : State) (q : Fin 8) (x : Port), s.podLive = true → x = s.dp.port q →
    ((s.dp.reg Reg.lnkCtl).bit 4 = true →
      exec (.pfcPause q true) s = .next (s.plane ((s.dp.setPort q { x with paused := true }).bump (Reg.lnkCnt 7))) ∧
      exec (.pfcPause q false) s = .next (s.plane ((s.dp.setPort q { x with paused := false }).lnk.conns.foldl
        (fun d (k, _) => if k % 2 = 0 then d.flushQueue (k / 2) 0 else d) (s.dp.setPort q { x with paused := false })))) ∧
    (x.state = 1 → exec (.portUp q) s = .next (s.plane
      (s.dp.setPort q { x with state := s.dp.portMode q, preempt := false, paused := false }).flushAll.progressPod)) ∧
    ((s.dp.reg Reg.lnkCtl).bit 5 = true → 2 ≤ x.state →
      exec (.preemptionVerified q) s = .next (s.plane (s.dp.setPort q { x with preempt := true })))) ∧
  (∀ (s : State) (lane : Fin 32) (a : Dp), s.podLive = true → a = s.dp.laneOut lane false →
    a.isRetired .lane lane = false → a.threshold .lane ≠ 0 →
    ((a.setEvents .lane lane []).reg Reg.ashRetCtl).bit 5 = true → exec (.laneTrainingFail lane) s =
      .next (s.plane ((a.setEvents .lane lane []).retireLane lane ((a.eventsOf .lane lane).length + 1)).progressPod)) ∧
  (∀ (s : State) (ofs : Int), s.podLive = true → (s.dp.reg Reg.lnkPtpCtl).bit 0 = true →
    2 ≤ (s.dp.port ((s.dp.reg Reg.lnkPtpCtl).fld 4 2)).state → exec (.ptpMessage ofs) s = .next (s.plane { s.dp with
      now := if s.dp.lnk.ptpStepped then s.dp.now else ((s.dp.now : Int) - ofs).toNat
      lnk := { s.dp.lnk with ptpLocked := true, ptpOffset := ofs, ptpStepped := true,
                             ptpLeft := if s.dp.lnk.ptpStepped then ofs else s.dp.lnk.ptpLeft } }))

/-- Transient faults (R423): a corrected memory error, a parity error fetched again, crib parity, flits sent again and lane
events are logged and counted, those of a granary with its slice, and count toward the retirement of their resource; a flit sent too often is FATAL. An IDE integrity
failure is logged (R461), and the copy of a retired pseudo-channel ends with the retirement's report (R431). Events of a resource
are counted within the window, and its threshold is reached when THR of them lie in it (R429, R430): a tiller whose threshold is
reached under ASH_RET_CTL bit 6 is retired, and takes no entries and holds none. -/
def Obligations.TransientFaultsCount : Prop :=
  (∀ (s : State) (a y n : Nat) (k : ResKind) (t : Nat), s.awake = true → s.dp.resourceAt a = some (k, n) →
    Dp.tierOf a = some t → exec (.correctableError false a y) s = .next (s.plane (((s.dp.bump (Reg.ashCnt 3)).ashLog
      { time := s.dp.now, cls := 1, code := t, resource := n, addr := a, data := y }).countEvent k n)) ∧
    exec (.correctableError true a y) s = .next (s.plane ((s.dp.bump (Reg.ashCnt 3)).ashLog
      { time := s.dp.now, cls := 1, code := 3, resource := (s.dp.place a).2, addr := a, data := y }))) ∧
  (∀ (s : State) (a : Nat) (t : Fin 192) (x : Fin 8) (b : Fin 16) (d : Dp), s.awake = true → d = s.dp.bump (Reg.ashCnt 5) →
    exec (.parityRefetch (.granary a false)) s =
      .next (s.plane (d.ashLog
        { time := s.dp.now, cls := 3, code := 0, resource := (s.dp.place a).2, addr := a, data := 1 })) ∧
    exec (.parityRefetch (.bin t x true)) s = .next (s.plane (((d.ashLog
      { time := s.dp.now, cls := 3, code := 1, resource := t.val * 16, data := 1 }).returnFrom t
        fun c => c.num = x).countEvent .tiller t)) ∧
    exec (.cribParity t x b) s = .next (s.plane (((d.ashLog
      { time := s.dp.now, cls := 3, code := 2, resource := t.val * 16 + b, data := 1 }).returnFrom t
        fun c => c.num = x).countEvent .bank (t * 16 + b)))) ∧
  (∀ (s : State) (seam : Bool) (k : Nat), s.awake = true → exec (.flitRetry seam k) s = .next (s.plane
      ((s.dp.bump (Reg.ashCnt 5) k).ashLog { time := s.dp.now, cls := 3, code := if seam then 4 else 3, data := k })) ∧
    exec .flitRetryExhausted s = .next (s.plane (s.dp.fatal 4))) ∧
  (∀ (s : State) (lane : Fin 32), s.podLive = true → exec (.laneEvent lane) s =
    .next (s.plane ((s.dp.ashLog { time := s.dp.now, cls := 4, code := 2, resource := lane }).countEvent .lane lane))) ∧
  (∀ (s : State) (k : Nat), s.hostLive = true → exec (.ideIntegrityFailure k) s =
    .next (s.plane (s.dp.ashLog { time := s.dp.now, cls := 13, code := 0, data := k }))) ∧
  (∀ (s : State) (c : Fin 1024) (k : Nat) (a : Ash), s.awake = true → s.pwr.inReset (c.val / 512) = false →
    s.dp.ash.hpcCopy.find? (fun x => x.1 = c.val) = some (c.val, k) →
    a = { s.dp.ash with hpcCopy := s.dp.ash.hpcCopy.filter fun x => x.1 ≠ c.val
                        hpcCount0 := s.dp.ash.hpcCount0 + (if c.val / 512 = 0 then 1 else 0)
                        hpcCount1 := s.dp.ash.hpcCount1 + (if c.val / 512 = 0 then 0 else 1) } →
    exec (.hpcCopyDone c) s = .next (s.plane (({ s.dp with ash := a } : Dp).retired .hpc c k))) ∧
  (∀ (d : Dp) (k : ResKind) (n : Nat) (l : List Nat), d.threshold k ≠ 0 → d.isRetired k n = false →
    l = ((d.now :: d.eventsOf k n).filter fun t => d.now ≤ t + (d.reg Reg.ashRetWin).fld 31 0 * 1000000000) →
    (l.length < d.threshold k → d.countEvent k n = d.setEvents k n l ∧ (d.countEvent k n).eventsOf k n = l) ∧
    (d.threshold k ≤ l.length → d.countEvent k n = (d.setEvents k n []).reachThreshold k n l.length)) ∧
  (∀ (d : Dp) (t k : Nat), (d.reg Reg.ashRetCtl).bit 6 = true → (d.tiller t).retired = false →
    ∃ u : Dp, d.reachThreshold .tiller t k = (u.retired .tiller t k).haltStranded ∧ (u.tiller t).retired = true ∧
      (u.tiller t).ctxs = [] ∧ ∀ x, x ≠ t → u.tiller x = d.tiller x)

/-- Uncorrectable errors (R425): a line of memory outside the sheaf journal is poisoned, the error counted, logged with class 2
and counted for its resource; a line of host memory is poisoned; what a bin or a crib held returns to its list; SRAM that has
no ECC to correct it is FATAL. -/
def Obligations.UncorrectableErrorsPoison : Prop :=
  ∀ (s : State) (a y : Nat) (t : Fin 192) (x : Nat) (b : Fin 16), s.awake = true →
    (∀ (k : ResKind) (n i : Nat), s.dp.resourceAt a = some (k, n) → Dp.tierOf a = some i → Dp.inJournal a = false →
      exec (.uncorrectableError (.line false a y)) s = .next (s.plane ((((s.dp.poisonLine a).bump (Reg.ashCnt 4)).ashLog
        { time := (s.dp.poisonLine a).now, cls := 2, code := i, flags := 4, resource := n, addr := a, data := y }).countEvent k n))) ∧
    exec (.uncorrectableError (.host a)) s = .next (s.plane (((({ s.dp with
      mem := { s.dp.mem with poison := s.dp.mem.poison.add ((2 ^ 60 + a) / 128) } } : Dp)).bump (Reg.ashCnt 4)).ashLog
        { time := s.dp.now, cls := 2, code := 6, flags := 4 })) ∧
    (∀ r : Dp, r = s.dp.returnFrom t (fun c => c.num = x) →
      exec (.uncorrectableError (.bin t x)) s = .next (s.plane (((r.bump (Reg.ashCnt 4)).ashLog
        { time := r.now, cls := 2, code := 4, resource := t.val * 16 }).countEvent .tiller t)) ∧
      exec (.uncorrectableError (.crib t x b)) s = .next (s.plane (((r.bump (Reg.ashCnt 4)).ashLog
        { time := r.now, cls := 2, code := 5, resource := t.val * 16 + b.val }).countEvent .bank (t.val * 16 + b.val)))) ∧
    exec (.uncorrectableError .sram) s = .next (s.plane (s.dp.fatal 3))

/-- What a fatal event does (R428): one ash-log entry with FLAGS bit 0, which freezes the log under ASH_CTL bit 0 (R440), a FATAL
notice with the cause in SUB and the index of that entry, GLB_STAT.FATAL, and under GLB_CTL.FATAL_STOP the halt of the rings. When
the log is frozen already no entry is written, ASH_DROP counts, and the notice bears the index of the entry that froze it. -/
def Obligations.FatalEvents : Prop :=
  ∀ (d a b : Dp) (k : Nat),
    (a = (if d.ash.frozen then d.bump (Reg.ashCnt 2) else
        if (d.reg Reg.ashCtl).bit 0 then
          { d.ashWrite { time := d.now, cls := 7, code := k, flags := 1 } with ash :=
            { (d.ashWrite { time := d.now, cls := 7, code := k, flags := 1 }).ash with frozen := true, fatalIdx := d.ash.head } }
        else d.ashWrite { time := d.now, cls := 7, code := k, flags := 1 })) →
    b = (a.notice 12 k none (toLe 8 d.now ++ toLe 2 (if d.ash.frozen then d.ash.fatalIdx else d.ash.head))).setStat
      Reg.glbStat 1 →
    ((b.reg Reg.glbCtl).bit 1 = false → d.fatal k = b) ∧
    ((b.reg Reg.glbCtl).bit 1 = true → d.fatal k = (List.range 64).foldl (fun d n => d.haltBefore n 0 k) b) ∧
    (d.ash.frozen = false → Tab.get (fun _ => none) a.ash.entries d.ash.head =
      some { time := d.now, cls := 7, code := k, flags := 1 }) ∧
    (d.ash.frozen = true → a.ash.entries = d.ash.entries) ∧ (b.regs.statVal Reg.glbStat).bit 1 = true

/-- Clock settings (R408–R410, R412, R493, R509). A junction sensor at 100 °C forces its half to SLOW8 and, still as hot 1 ms
later, to SLOW16, and below 95 °C releases it; the power cap forces the half with more array cycles and then the other to SLOW8;
an excursion and the current limit force both to SLOW16; their release lets both go. A half whose goal is lower takes it in one
step, at a seam epoch when it runs FULL and at once else; the epoch at the front ends and its half runs at the setting it
carries; a half being raised takes its next faster setting, at an epoch when that is FULL; a trip latches and gates both halves,
and 100 ms later the supply is off and stays so. The bound of 95 °C is taken strictly, and the current limit writes no entry of
the ash log (log entry 10). -/
def Obligations.ClocksAreForced : Prop :=
  (∀ (s b : State) (n : Fin 32) (v : Int), s.pwr.main = true → s.held n = false →
    b = { s with pwr := { s.pwr with sensors := Tab.set (fun _ => 0) s.pwr.sensors n v } } →
    (1600 ≤ v → s.throttleOf n = 0 → exec (.throttleStart n v) s =
      .next (s.turned ((b.setThrottle n 1).forcedCount.steer.thermalNotice 0 n v))) ∧
    (1600 ≤ v → s.throttleOf n = 1 → exec (.throttleEscalate n v) s = .next (s.turned (b.setThrottle n 2).forcedCount.steer)) ∧
    (v < 1520 → s.throttleOf n ≠ 0 →
      exec (.throttleEnd n v) s = .next (s.turned ((b.setThrottle n 0).thermalNotice 1 n v).scan.absorb))) ∧
  (∀ (s : State) (v w c0 c1 h : Nat), s.awake = true → (s.dp.reg Reg.pwrCap).bit 0 = true → w = s.wattsSeen v →
    (s.dp.reg Reg.pwrCap).fld 31 16 < w → ((s.pwr.cap0 = 0 ∧ s.pwr.cap1 = 0 ∧ h = (if c0 < c1 then 1 else 0)) ∨
      (s.pwr.cap0 = 0 ∧ s.pwr.cap1 ≠ 0 ∧ h = 0) ∨ (s.pwr.cap0 ≠ 0 ∧ s.pwr.cap1 = 0 ∧ h = 1)) →
    exec (.powerCap v c0 c1) s = .next (s.turned (({ s with pwr := s.pwr.setCap h 1 } : State).powerForced 3 w))) ∧
  (∀ (s b : State) (w : Nat), b = { s with pwr := { s.pwr with cap0 := 2, cap1 := 2 } } → s.pwr.main = true →
    (3400 < w → exec (.powerExcursion w) s = .next (s.turned (b.powerForced 4 w))) ∧
    exec (.currentLimit w) s = .next (s.turned b.powerCounted.steer)) ∧
  (∀ (s : State) (w : Nat), s.wattsSeen w < (s.dp.reg Reg.pwrCap).fld 47 32 → s.pwr.capAct = true →
    exec (.powerCapRelease w) s =
      .next (s.turned ({ s with pwr := { s.pwr with cap0 := 0, cap1 := 0 } } : State).scan.absorb)) ∧
  (∀ (s : State) (h : Fin 2), (s.pwr.goal h ≤ s.dp.aclk h → s.steerHalf h = s) ∧
    (s.dp.aclk h = 0 → 0 < s.pwr.goal h → (s.pwr.epochs.any fun e => e.1 = h.val) = false → s.steerHalf h =
      { s with pwr := { s.pwr with epochs := s.pwr.epochs ++ [(h.val, s.pwr.goal h)] } }) ∧
    (s.dp.aclk h ≠ 0 → s.dp.aclk h < s.pwr.goal h → s.pwr.goal h < 3 →
      (s.steerHalf h).dp.aclk h = s.pwr.goal h ∧ (s.steerHalf h).pwr = s.pwr)) ∧
  (∀ (s b : State) (h v : Nat) (l : List (Nat × Nat)), s.awake = true → s.pwr.epochs = (h, v) :: l →
    b = { s with pwr := { s.pwr with epochs := l }, dp := s.dp.bump Reg.clkEpochCnt } →
    exec .seamReopen s = .next (s.turned (b.applyClock h (max v (s.pwr.goal h))).steer)) ∧
  (∀ (s : State) (h : Fin 2), s.awake = true → s.pwr.goal h < s.dp.aclk h → (s.pwr.epochs.any fun e => e.1 = h.val) = false →
    (s.dp.aclk h = 1 → exec (.clockRaiseStep h) s =
      .next (s.turned { s with pwr := { s.pwr with epochs := s.pwr.epochs ++ [(h.val, 0)] } })) ∧
    (s.dp.aclk h ≠ 1 → ∃ t : State,
      exec (.clockRaiseStep h) s = .next (s.turned t) ∧ t.pwr = s.pwr ∧ t.kiln = s.kiln ∧ t.mnt = s.mnt ∧
      t.dp.aclk h = (if s.dp.aclk h = 3 ∧ s.pwr.goal h = 2 then 2 else 1))) ∧
  (∀ (s b : State) (n : Fin 36) (v : Int), s.pwr.main = true → s.pwr.trip = false →
    (if n.val < 32 then 1760 else 1520) ≤ v →
    b = { s with pwr := { s.pwr with trip := true, epochs := [], sensors := Tab.set (fun _ => 0) s.pwr.sensors n v }
                 dp := (s.dp.bump Reg.clkForceCnt).bump Reg.clkEpochCnt
                  ((if s.dp.aclk0 = 0 then 1 else 0) + if s.dp.aclk1 = 0 then 1 else 0) } →
    exec (.thermalTrip n v) s =
      .next (s.turned ((((b.applyClock 0 3).applyClock 1 3).thermalNotice 2 n v).fatal 5))) ∧
  (∀ s : State, s.pwr.trip = true → s.pwr.supply ≠ .off → ∃ t : State, exec .tripSwitchOpen s = .next t ∧
    t.pwr.supply = .off ∧ t.pwr.trip = true ∧ t.pwr.tripOpen = true ∧ (∀ v, exec (.vinRise v) t = .next { t with
      pwr := { t.pwr with vin := v } } ∨ (v < 4500 ∨ 6200 < v)))

/-- Supplies and the reference (R407, R490, R492–R495, R500). Above 45.0 V precharge starts, and the switch closes when it
is done, unless a trip keeps it open; the main supply goes at PRSNT, at a collapse, with its class 7 entry, and at an
overcurrent; Hearth, its ash log and the fuses outlive it while AUX_12V is there, and only the fuses, the flash and
ATTEST_CLOSED of Kiln outlive Hearth's supply. A voltage above 62.0 V starts no precharge, whatever
it is. The loss of the reference is FATAL with cause 1 and takes the links down until a cold reset, and a valid reference locks
the root PLL again. -/
def Obligations.SuppliesComeAndGo : Prop :=
  (∀ (s : State) (v : Nat),
    (s.pwr.supply = .off → s.pwr.tripOpen = false → 4500 ≤ v → v ≤ 6200 → exec (.vinRise v) s =
      .next { s with pwr := { s.pwr with vin := v, supply := .precharge, fresh := true } }) ∧
    ((v < 4500 ∨ 6200 < v) → exec (.vinRise v) s = .next s) ∧
    (s.pwr.main = true → (v < 4400 ∨ 5900 < v) → exec (.vinOutOfRange v) s =
      .next (s.turned (({ s with pwr := { s.pwr with vin := v } } : State).fatal 6))) ∧
    (s.pwr.supply ≠ .off → s.pwr.aux = true → s.hostLive = true → (v < 4000 ∨ 6200 < v) →
      (∀ q ∈ s.mnt.running, q.act ≠ 13) → ∃ t : State, exec (.vinCollapse v) s = .next t ∧ t.pwr.supply = .off ∧
      t.pwr.perst = true ∧ t.pwr.vin = v ∧ t.pwr.hearth = s.pwr.hearth ∧ t.kiln = darkKiln s.kiln ∧
      t.dp.ash.entries = (s.dp.fatal 6).ash.entries ∧ t.dp.now = (s.dp.fatal 6).now)) ∧
  (∀ s : State, (s.pwr.supply = .precharge → exec .prechargeDone s = .next { s with pwr := { s.pwr with supply := .on } }) ∧
    (s.pwr.main = true → ∃ t : State, exec .overcurrent s = .next t ∧ t.pwr.supply = .off ∧ t.pwr.vin = s.pwr.vin) ∧
    (s.pwr.supply ≠ .off → ∃ t : State, exec .prsntHigh s = .next t ∧ t.pwr.supply = .off ∧ t.pwr.vin = 0 ∧
      (s.pwr.aux = false → t.pwr.hearth = false ∧ t.dp.ash = {} ∧ t.kiln = darkKiln s.kiln)) ∧
    (s.pwr.supply = .off → exec .aux12vLoss s = .next { s with
      dp := { s.dp with ash := {}, resps := [] }
      mnt := {}
      pwr := { s.pwr with aux := false, hearth := false, wake := false, pme := false, i3c := 0, eid := 0, sensors := [] }
      kiln := { s.kiln with segs := [] } }) ∧
    (s.pwr.supply ≠ .off → exec .aux12vLoss s = .next { s with pwr := { s.pwr with aux := false } })) ∧
  (∀ (s : State) (aux : Bool), s.pwr.hearth = false → (aux = true ∨ s.pwr.supply ≠ .off) → exec (.hearthStart aux) s =
    .next { s with pwr := { s.pwr with aux := s.pwr.aux || aux, hearth := true }
                   kiln := Kiln.bootSeg { s.kiln with bootErr := 0 } 0 }) ∧
  (∀ s a t : State, s.pwr.refOk = true → s.pwr.main = true →
    a = ({ s with pwr := { s.pwr with refOk := false, lock := false } } : State).fatal 1 →
    t = { a with
      dp := ((List.range 8).foldl (fun (d : Dp) q => d.resendPort q) ((List.range 8).foldl (fun (d : Dp) q =>
        d.setPort q { d.port q with state := 0, preempt := false }) a.dp)).checkPeers.progressPod
      pwr := { a.pwr with refLost := true, link := false } } →
    exec .referenceLost s = .next (s.turned t) ∧ t.hostLive = false ∧ t.podLive = false) ∧
  (∀ s : State, s.pwr.hearth = true →
    exec .rootPllLock s = .next { s with pwr := { s.pwr with refOk := true, lock := true } })

/-- Resets (R281, R415, R416, R431, R452, R498, R500, R506, R515, R517, R520, R521). The first deassertion of PERST# boots
a cleared module and opens attestation; later ones start it again, in recovery when RCV_REQ asks for it; a warm reset
and an FLR end maintenance, clear what is volatile and stage the persistent defaults; memory training raises
Memory_Active; a half without maintenance in it is reset and leaves reset; D3hot ends the rings and is left again. The watchdog of
a running firmware unit and Hearth's own are FATAL with cause 7 (R454). -/
def Obligations.ResetsStartOver : Prop :=
  (∀ s : State, s.pwr.main = true → s.pwr.hearth = true → s.pwr.fresh = true → s.pwr.tripOpen = false → ∃ t : State,
    exec .coldReset s = .next t ∧ t.kiln = Kiln.boot { darkKiln s.kiln with closed := false } ∧ t.mnt = {} ∧ t.dbg = {} ∧
    t.pwr.perst = false ∧ t.pwr.fresh = false ∧ t.pwr.trip = false ∧ t.dp.mem.dpa = [] ∧ t.dp.rings = [] ∧ t.dp.ash = {} ∧
    t.dp.mem.host = s.dp.mem.host) ∧
  (∀ s : State, s.pwr.main = true → s.pwr.hearth = true → s.pwr.perst = true → s.pwr.fresh = false →
    exec .perstDeassertion s = .next { s with
      pwr := { s.pwr with
        perst := false, link := s.pwr.refOk && !s.pwr.refLost, memActive := (s.kiln.seg 5).isSome }
      kiln := { s.kiln with recovery := (s.dp.reg Reg.klnCtl).bit 0 || (s.kiln.seg 0).isNone } }) ∧
  (∀ s : State, s.awake = true → exec (.warmReset .perst) s = .next { s.warm with
      pwr := { s.warm.pwr with perst := true, link := false, memActive := false } } ∧
    exec (.warmReset .hotReset) s = .next { s.warm with pwr := { s.warm.pwr with link := !s.warm.pwr.refLost } } ∧
    exec (.warmReset .linkDown) s = .next { s.warm with pwr := { s.warm.pwr with link := !s.warm.pwr.refLost } } ∧
    (s.pwr.link = true → exec .flr s = .next s.warm)) ∧
  (∀ s : State, s.awake = true → s.kiln.recovery = false → (s.kiln.seg 5).isSome = true → ∃ t : State,
    exec .memtrainDone s = .next t ∧ t.dp = s.dp ∧ t.kiln = s.kiln ∧ t.mnt = s.mnt ∧ t.pwr.memActive = true) ∧
  (∀ (s : State) (h : Fin 2), s.awake = true →
    (s.pwr.inReset h = false → (∀ q ∈ s.mnt.running, resHalf q.act q.res ≠ some h.val) →
      exec (.halfReset h) s = .next (s.turned (({ s with
        dp := s.dp.halfReset h
        pwr := if h.val = 0 then { s.pwr with reset0 := true } else { s.pwr with reset1 := true } } : State).absorb))) ∧
    (s.pwr.inReset h = true → exec (.halfResetExit h) s = .next (s.turned { s with
      dp := s.dp.halfExit h
      pwr := if h.val = 0 then { s.pwr with reset0 := false } else { s.pwr with reset1 := false } }))) ∧
  (∀ (s a : State), s.hostLive = true → a = ({ s with dp := s.dp.endRings } : State).absorb.endMaintenance →
    exec .d3hotEntry s = .next { a with dp := a.dp.hot, pwr := { a.pwr with d3hot := true } }) ∧
  (∀ s : State, s.pwr.d3hot = true → s.pwr.main = true → exec .d3hotExit s = .next { s with
      dp := (List.range 8).foldl (fun (d : Dp) q => d.retrain q) s.dp, pwr := { s.pwr with d3hot := false, wake := false } }) ∧
  (∀ s : State, s.pwr.main = true → exec .pmeStatusClear s = .next { s with pwr := { s.pwr with pme := false, wake := false } }) ∧
  (∀ (s : State) (n : Fin 6), s.hostLive = true →
    ((s.kiln.seg n).isSome = true → exec (.watchdogMiss n) s = .next (s.turned { s with dp := s.dp.fatal 7 })) ∧
    exec .hearthWatchdogExpiry s = .next (s.turned { s with dp := s.dp.fatal 7 }))

/-! ### Maintenance -/

/-- The turn of an activity at the gate (R411, R414, R415, R432, R451, R468, R473, R474, R476–R478, R482, R483): of HBM_RT,
L_RT, P_RT, LANE, CLOCK, IDLE, DOMAIN of a request, FW, SCRUB, TLR_RET, TLR_REIN, SENSOR, DRAIN and CH_RET (`turnOf`). Its
oldest request that has arrived starts when nothing refuses it, is queued when it asks for that and may, and is refused else; a
segment that fails its checks is denied instead. What starts is among the activities that run, and counts; a queued request
stands last in the queue. -/
def Obligations.MaintenanceTurns : Prop :=
  (∀ (s b : State) (i : Instr) (act res : Nat) (q : Req), s.awake = true → turnOf i = some (act, res) →
    s.mnt.arrived.find? (fun q => q.act = act && q.res = res) = some q →
    b = { s with mnt := { s.mnt with arrived := s.mnt.arrived.filter fun x => x.num ≠ q.num } } →
    (act = 8 → s.kiln.segReason res q.bytes ≠ 0 → exec i s = .next (s.turned
      (({ b with dp := asyncDone s.dp q 0 } : State).report q stDenied (s.kiln.segReason res q.bytes)))) ∧
    ((act = 8 → s.kiln.segReason res q.bytes = 0) →
      (b.grants q = true → exec i s = .next (s.turned (b.start q false))) ∧
      (b.grants q = false → q.queue = true → s.dp.resRetired q = false → (q.ch = .hearth ∨ b.queued < 16) →
        exec i s = .next (s.turned (b.enqueue q))) ∧
      (b.grants q = false → (q.queue = false ∨ s.dp.resRetired q = true ∨ (q.ch ≠ .hearth ∧ 16 ≤ b.queued)) →
        exec i s = .next (s.turned (b.refuse q))))) ∧
  (∀ (s : State) (q : Req), (s.start q false).mnt.running = s.mnt.running ++ [q] ∧
    (s.start q false).mnt.queue = s.mnt.queue ∧ (s.enqueue q).mnt.running = s.mnt.running ∧
    (s.enqueue q).mnt.queue = s.mnt.queue ++ [{ q with since := s.dp.now }] ∧
    (s.refuse q).mnt.running = s.mnt.running ∧ (s.refuse q).mnt.queue = s.mnt.queue)

/-- Two activities run together only when the conflict matrix of Table 17.2 allows them (R475): what the gate grants conflicts
with nothing that runs. The matrix, read over the codes 1 to 8 and 10 to 15, is symmetric, its letters mean what R475 says, and
scrub conflicts with nothing. -/
def Obligations.ConflictsAreSymmetric : Prop :=
  (∀ (s : State) (q : Req), s.grants q = true → ∀ r ∈ s.mnt.running, conflicts q r = false) ∧
  (∀ a b : Req, conflicts a b = conflicts b a) ∧
  (∀ a b : Req, a.act ≤ b.act → (conflicts a b = true ↔ match ruleAt a.act b.act with
    | .free => False
    | .never => True
    | .same => (if b.act = 15 then chanRes a.act a.res = chanRes b.act b.res else a.res = b.res)
    | .half => ∃ h, resHalf a.act a.res = some h ∧ resHalf b.act b.res = some h
    | .port => a.res / 4 = b.res / 4
    | .domain => (b.act = 7 ∧ resDomain a.act a.res = some b.res) ∨ (b.act ≠ 7 ∧ resDomain b.act b.res = some a.res)
    | .segment => ∃ seg other, ((a.act = 8 ∧ seg = a.res ∧ other = b.act) ∨ (a.act ≠ 8 ∧ seg = b.res ∧ other = a.act)) ∧
        ((seg = 5 ∧ other ≤ 3) ∨ (seg = 4 ∧ other = 4) ∨ (seg = 2 ∧ other = 14) ∨ (seg = 3 ∧ other = 15)))) ∧ (∀ a b : Req, a.act = 9 → conflicts a b = false) ∧
  (∀ (i j : Fin 14) (code : Fin 14 → Nat), (∀ k : Fin 14, code k = if k.val < 8 then k.val + 1 else k.val + 2) →
    ruleAt (min (code i) (code j)) (max (code i) (code j)) = (([
      [.half, .free, .free, .free, .half, .free, .domain, .segment, .free, .free, .free, .free, .free, .free],
      [.free, .half, .free, .free, .half, .free, .free, .segment, .free, .free, .free, .free, .free, .same],
      [.free, .free, .half, .free, .half, .free, .free, .segment, .free, .free, .free, .free, .free, .same],
      [.free, .free, .free, .port, .free, .free, .domain, .segment, .free, .free, .free, .free, .free, .free],
      [.half, .half, .half, .free, .never, .never, .half, .free, .free, .free, .free, .free, .free, .half],
      [.free, .free, .free, .free, .never, .never, .free, .free, .free, .never, .free, .free, .free, .free],
      [.domain, .free, .free, .domain, .half, .free, .never, .free, .domain, .domain, .free, .free, .free, .free],
      [.segment, .segment, .segment, .segment, .free, .free, .free, .never, .free, .free, .free, .free, .segment, .segment],
      [.free, .free, .free, .free, .free, .free, .domain, .free, .same, .same, .free, .free, .free, .free],
      [.free, .free, .free, .free, .free, .never, .domain, .free, .same, .same, .free, .free, .free, .free],
      [.free, .free, .free, .free, .free, .free, .free, .free, .free, .free, .never, .free, .free, .free],
      [.free, .free, .free, .free, .free, .free, .free, .free, .free, .free, .free, .never, .free, .free],
      [.free, .free, .free, .free, .free, .free, .free, .segment, .free, .free, .free, .free, .same, .free],
      [.free, .same, .same, .free, .half, .free, .free, .segment, .free, .free, .free, .free, .free, .never]] :
      List (List Rule)).getD i []).getD j .free)

/-- Ends and requests of maintenance (R414, R477–R479, R468). A running activity that may end has its effect, is reported and
leaves room for the queue, and likewise a drain with the status its transfer ended in; a queued request times out or
is cancelled, Hearth's own excepted at the time-out; Hearth asks for a retraining when a sensor has moved by 10 °C, and
for lanes and sensors, while AUTO_RT = 1; PWR_DOM_REQ asks for a domain that can be switched alone; a staged segment is
swapped in at its unit's quiescent point; and a continuous scrub pass counts, unless its scrub is paused or waits for the
Gleaner. -/
def Obligations.MaintenanceEnds : Prop :=
  (∀ (s : State) (k : Nat) (q : Req), s.awake = true → s.mnt.running.find? (fun q => q.num = k) = some q → s.mayEnd q = true →
    (q.act ≠ 14 → exec (.maintActivityEnd k) s =
      .next (s.turned ((((s.leave k).endEffect q).report q stOK 0).scan).absorb)) ∧
    (∀ (l : ImageLock) (st : Nat), q.act = 14 → s.dp.locks.find? (fun l => l.base = q.res) = some l → l.ended = some st →
      exec (.maintActivityEnd k) s = .next (s.turned
        (((({ s.leave k with dp := s.dp.drainOver q.res st } : State).report q st 0).scan).absorb)))) ∧
  (∀ (s : State) (k : Nat) (q : Req), s.mnt.queue.find? (fun q => q.num = k) = some q →
    (s.awake = true → s.mnt.queue.find? (fun q => q.num = k && q.ch ≠ .hearth) = some q → exec (.queueTimeout k) s =
      .next (s.turned (({ s with dp := s.dp.bump (Reg.mntCnt 3) } : State).withdraw stTimeout q))) ∧
    (s.hostLive = true → exec (.mntCancel k) s = .next (s.turned (s.withdraw stCancelled q)))) ∧
  (∀ (s : State) (k : Fin 3) (u : Nat) (l : Fin 32), s.awake = true → (s.dp.reg Reg.mntCtl).bit 1 = true →
    (u < retrainUnits (k + 1) → s.asked (k + 1) u = false →
      160 ≤ (s.pwr.sensor (refSensor (k + 1) u) - Tab.get (fun _ => 0) s.pwr.trained ((k + 1) * 64 + u)).natAbs →
      exec (.autoRtRequest k u) s =
        .next (s.turned (s.submit { act := k + 1, res := u, ch := .hearth, queue := true }))) ∧
    (s.asked 4 l = false →
      exec (.laneRecalRequest l) s = .next (s.turned (s.submit { act := 4, res := l, ch := .hearth, queue := true }))) ∧
    ((∀ g, g < 4 → s.asked 12 g = false) → exec .sensorRecalTimer s = .next (s.turned
      ((((s.submit { act := 12, res := 0, ch := .hearth, queue := true }).submit
        { act := 12, res := 1, ch := .hearth, queue := true }).submit
        { act := 12, res := 2, ch := .hearth, queue := true }).submit
        { act := 12, res := 3, ch := .hearth, queue := true })))) ∧
  (∀ (s : State) (n : Fin 64) (w on : Bool), s.hostLive = true →
    (n.val < 50 → domainAlone n = true → exec (.domain (.write n w on)) s =
      .next (s.turned (s.admitNow { act := 7, res := n, param := if on then 1 else 0, ch := .domain, queue := w }))) ∧
    ((50 ≤ n.val ∨ domainAlone n = false) → exec (.domain (.write n w on)) s =
      .next (s.turned { s with mnt := { s.mnt with domNum := n, domRes := 3 } }))) ∧
  (∀ (s : State) (n : Nat) (img : List Byte), s.awake = true → s.mnt.staged = some (n, img) → s.mnt.swapped = false →
    (s.quiescent n = true → exec .fwSwap s = .next (s.turned
      { s with kiln := (s.kiln.run n (some (Kiln.segmentOf img))).setImage n [], mnt := { s.mnt with swapped := true } })) ∧
    (s.quiescent n = false → exec .fwSwap s = .next (s.turned s))) ∧
  (∀ (s : State) (p : Fin 6), s.awake = true → (s.mnt.arrived.any fun q => q.act = 9 && q.res = p.val) = false →
    (((s.dp.reg Reg.mntScrub).bit (p / 2) = true ∧ s.scrubPaused p = false ∧ s.gleanerDrains (p % 2) = false) →
      exec (.scrub p) s = .next (s.turned { s with dp := s.dp.bump (Reg.mntCnt 4) })) ∧
    (((s.dp.reg Reg.mntScrub).bit (p / 2) = false ∨ s.scrubPaused p = true ∨ s.gleanerDrains (p % 2) = true) →
      exec (.scrub p) s = .next (s.turned s)))

/-! ### Kiln, the sideband, monitors and the debug window -/

/-- Tokens (R463, R464, R466). A new nonce of free bytes replaces the one outstanding; an attempt consumes it and leaves its
result, and an accepted token sets the level, retires the module, or asks for the write of word 0; only a token that bears the
outstanding nonce and the device's number, under an unrevoked key with the role, is accepted; KLN_DBG_CLOSE closes the level. -/
def Obligations.TokensAct : Prop :=
  (∀ s : State, s.hostLive = true → exec .klnNonceReq s = .next (s.turned { s with
      dp := { s.dp with draws := s.dp.draws + 1 }
      kiln := { s.kiln with nonce := (List.range 32).map (Config.freeByte s.dp.draws), nonceOut := true } }) ∧
    exec .klnDbgClose s = .next (s.turned { s with kiln := { s.kiln with debug := 0 } })) ∧
  (∀ (s b : State) (t : List Byte) (r : Nat), s.hostLive = true → t = s.kiln.tokenBytes →
    r = s.kiln.tokenResult s.mnt.staged.isSome t → b = { s with kiln := { s.kiln with nonceOut := false, tokRes := r } } →
    (r ≠ 1 → exec .klnTokGo s = .next (s.turned b)) ∧
    (r = 1 → leAt t 4 1 = 1 → exec .klnTokGo s = .next (s.turned { b with kiln := b.kiln.setLevel (leAt t 5 1) })) ∧
    (r = 1 → leAt t 4 1 = 2 → leAt t 5 1 = 2 → exec .klnTokGo s = .next (s.turned { b with
      kiln := { b.kiln with retired := true, sessions := [] }
      dp := { b.dp with
        mem := { b.dp.mem with dpa := [], past := [], poison := b.dp.mem.poison.filter fun e => 2 ^ 53 ≤ e.1 }, journal := {} } })) ∧
    (r = 1 → leAt t 4 1 = 2 → leAt t 5 1 ≠ 2 → exec .klnTokGo s =
      .next (s.turned (b.admitNow { act := 13, res := 0, ch := .token, queue := true, bytes := toLe 8 (leAt t 5 1) })))) ∧
  (∀ (k : Kiln) (staged : Bool) (t : List Byte), k.tokenResult staged t = 1 → k.nonceOut = true ∧ slice t 16 32 = k.nonce ∧
    leAt t 8 8 = (k.word 3).toNat ∧ k.revoked (leAt t 6 1) = false ∧ k.role (leAt t 6 1) (leAt t 4 1) = true ∧
    Crypto.verify (Config.slotKey (leAt t 6 1)) (Crypto.sha512 (slice t 0 64)) (slice t 64 64) = true)

/-- One-time memory (R455–R457). OTP_PROG and OTP_RB_ADV are refused with their reason, or judged at the gate as activity 13; a
programmed generation counts from its start, reads once its MARK is written, and then is what the word reads as; a counter rises
to its target and never falls. The reason of a refused OTP_RB_ADV is a free value: the spec numbers none. -/
def Obligations.OneTimeMemoryIsWritten : Prop :=
  (∀ (s : State) (w : Bool) (q : Req), s.hostLive = true → q = { act := 13, res := (s.dp.reg Reg.otpIdx).fld 7 0, ch := .otp,
                                                                 queue := w, bytes := toLe 8 (s.dp.reg Reg.otpData).toNat } →
    (s.otpReason q ≠ 0 → exec (.otpProg w) s =
      .next (s.turned { s with mnt := { s.mnt with otpRes := 3, otpReason := s.otpReason q } })) ∧
    (s.otpReason q = 0 → exec (.otpProg w) s = .next (s.turned (s.admitNow q)))) ∧
  (∀ (s : State) (n : Fin 8) (t : Fin 128) (q : Req), s.hostLive = true → n.val < 6 → t.val ≠ 0 →
    q = { act := 13, res := 256 + n, param := t, ch := .otp } →
    (s.otpReason q ≠ 0 → exec (.otpRbAdv n t) s = .next (s.turned { s with
      dp := { s.dp with draws := s.dp.draws + 1 }, mnt := { s.mnt with otpRes := 3, otpReason := s.otpReason q } })) ∧
    (s.otpReason q = 0 → exec (.otpRbAdv n t) s = .next (s.turned (s.admitNow q)))) ∧
  (∀ (k : Kiln) (i : Nat) (w : Word), (k.progBegin i w).word i = k.word i ∧ ((k.progBegin i w).progEnd i).word i = w ∧
    ∀ j, j ≠ i → ((k.progBegin i w).progEnd i).word j = k.word j) ∧
  (∀ (k : Kiln) (n t : Nat), (k.advance n t).counter n = max (k.counter n) t ∧
    ∀ m, m ≠ n → (k.advance n t).counter m = k.counter m)

/-- Kiln on the links (R452, R459–R461, R465, R468). Recovery installs a bundle and boots; SPDM answers certificates
and unsigned measurements whatever the level, signs and opens sessions only while attestation is open and the module is not RETIRED,
at most 4 sessions on a transport; IDE keys are programmed over a session; a firmware segment is answered busy while another is
on its way, and else asks for activity 8. Signatures are free bytes: the spec gives no transcript. -/
def Obligations.KilnAnswers : Prop :=
  (∀ (s : State) (l : List (List Byte)), s.kiln.recovery = true → s.awake = true → s.pwr.link = true →
    exec (.klnRcvGo l) s = .next { s with kiln := s.kiln.recover l, pwr := { s.pwr with memActive := false } }) ∧
  (∀ (s : State) (tr : Fin 2) (o l b : Nat), s.kilnLive = true → (tr.val = 0 → s.pwr.link = true ∧ s.pwr.perst = false) →
    exec (.spdmRequest tr (.certificate 0 o l)) s = .next (s.turned (s.answer (.certificate ((s.kiln.chain.drop o).take l)))) ∧
    exec (.spdmRequest tr (.measurements b false)) s = .next (s.turned (s.answer (.measurements (s.measured b) none))) ∧
    (s.kiln.closed = false → s.kiln.retired = false →
      exec (.spdmRequest tr (.challenge 0)) s = .next (s.turned (({ s with dp := { s.dp with draws := s.dp.draws + 1 } } :
        State).answer (.challenge ((List.range 64).map (Config.freeByte s.dp.draws))))) ∧
      ((s.kiln.sessions.filter fun x => x.2 = tr.val).length < 4 → exec (.spdmRequest tr .keyExchange) s = .next (s.turned
        (({ s with kiln := { s.kiln with sessions := s.kiln.sessions ++ [(s.kiln.nextSession, tr.val)]
                                         nextSession := s.kiln.nextSession + 1 } } : State).answer
          (.session s.kiln.nextSession))))) ∧
    ((s.kiln.closed = true ∨ s.kiln.retired = true) →
      exec (.spdmRequest tr (.challenge 0)) s = .next (s.turned (s.answer .unspecified)) ∧
      exec (.spdmRequest tr (.measurements b true)) s = .next (s.turned (s.answer .unspecified)) ∧
      exec (.spdmRequest tr .keyExchange) s = .next (s.turned (s.answer .unspecified)))) ∧
  (∀ (s : State) (n k : Nat) (key : List Byte), s.kilnLive = true → s.pwr.link = true → s.pwr.perst = false →
    ((n, 0) ∈ s.kiln.sessions → s.kiln.closed = false → s.kiln.retired = false → exec (.ideKm n k key) s = .next (s.turned
      { s with kiln := { s.kiln with ide := Tab.set (fun _ => []) s.kiln.ide k (slice key 0 32) } })) ∧
    (s.kiln.closed = true → exec (.ideKm n k key) s = .next (s.turned s))) ∧
  (∀ (s : State) (n : Fin 6) (img : List Byte), s.kiln.retired = false → s.awake = true →
    (s.mnt.staged = none → (∀ q ∈ s.mnt.arrived ++ s.mnt.queue ++ s.mnt.running, q.act ≠ 8) →
      exec (.pldmFirmwareUpdate n img) s =
        .next (s.turned ((s.answer .pldmTaken).submit { act := 8, res := n, ch := .pldm, bytes := img }))) ∧
    ((s.mnt.staged.isSome = true ∨ ∃ q ∈ s.mnt.arrived ++ s.mnt.queue ++ s.mnt.running, q.act = 8) →
      exec (.pldmFirmwareUpdate n img) s = .next (s.turned (s.answer .pldmBusy))))

/-- The sideband, the monitors and the debug window (R441–R444, R504, R505, R507, R518). Hearth answers reads of the ash log and
of a monitor's record, which come before a restart they ask for, and takes its addresses; a millisecond's readings become
the sensors' values and samples; at INVASIVE, and only there, Stokers are halted and stepped and the window written. -/
def Obligations.SidebandServes : Prop :=
  (∀ (s : State) (n k : Nat), s.pwr.hearth = true →
    (n < 4096 → 0 < k → k ≤ 8 → exec (.ashRead n k) s = .next (s.plane (s.dp.respond (toLe 1 0 ++ toLe 2 s.dp.ash.head ++
      toLe 1 (if s.dp.ash.frozen then 1 else 0) ++ ((List.range k).map fun i =>
        Dp.ashBytes (Tab.get (fun _ => none) s.dp.ash.entries ((n + i) % 4096))).flatten)))) ∧
    ((4096 ≤ n ∨ k = 0 ∨ 8 < k) → exec (.ashRead n k) s = .next (s.plane (s.dp.respond (toLe 1 2)))) ∧
    (n < 64 → exec (.mctpMonRead n 0) s = .next (s.plane (s.dp.respond (toLe 1 0 ++ s.dp.monRecord n))) ∧
      exec (.mctpMonRead n 1) s = .next (s.plane ((s.dp.respond (toLe 1 0 ++ s.dp.monRecord n)).monRestart n)))) ∧
  (∀ (s : State) (a : Fin 128) (e : Fin 256), s.pwr.hearth = true →
    exec (.entdaa a) s = .next { s with pwr := { s.pwr with i3c := a } } ∧
    exec (.setEndpointId e) s = .next { s with pwr := { s.pwr with eid := e } }) ∧
  (∀ (s : State) (n : Nat) (v : Int) (b : State), s.awake = true → s.held n = false →
    b = { s with pwr := { s.pwr with sensors := Tab.set (fun _ => 0) s.pwr.sensors n v } } →
    exec (.monitorSample [(8, n, v)]) s = .next { b with dp := s.dp.monSample 8 (fun q => q = n) v }) ∧
  (∀ (s : State) (m : Fin 256) (o z v : Nat), s.hostLive = true →
    (s.kiln.debug = 2 →
      exec (.dbgStokerHalt m) s = .next (s.turned { s with dbg := { s.dbg with halt := m } }) ∧
      exec (.dbgStokerStep m) s = .next (s.turned { s with dbg := dbgStep s.dbg m }) ∧
      (0x3000000 ≤ o → o < 0x4000000 →
        exec (.debugWindowWrite o z v) s = .next (s.turned { s with dbg := dbgWrite s.dbg o z v }))) ∧
    (s.kiln.debug ≠ 2 → exec (.dbgStokerHalt m) s = .next (s.turned s) ∧ exec (.dbgStokerStep m) s = .next (s.turned s) ∧
      exec (.debugWindowWrite o z v) s = .next (s.turned s)))

/-! ### The module as a whole -/

/-- A step takes the command at the front of the queue and runs it with the queue's rest; while none waits, the module only
lets its time go by, 10 ns a tick while Hearth runs (R346; the tick is the model's choice, log entry 2): the global time follows,
and while a locked PTP servo has an offset left, it is slewed toward the time source by at most 100 ppm of the tick (R353; by how
much is a free value, log entry 175). -/
def Obligations.StepTakesFront : Prop :=
  (∀ (c : Instr) (l : List Instr) (s : State), s.pending = c :: l → step s = exec c { s with pending := l }) ∧
  (∀ s : State, s.pending = [] →
    step s = .next (if s.pwr.hearth then { s with dp := s.dp.tick } else s)) ∧
  (∀ d : Dp, d.tick.elapsed = d.elapsed + 10 ∧
    ((d.ptpOn = false ∨ d.lnk.ptpLeft = 0) → d.tick.now = (d.now + 10) % 2 ^ 64) ∧
    (d.ptpOn = true → d.lnk.ptpLeft ≠ 0 → ∃ ppm k : Int, 0 ≤ ppm ∧ ppm ≤ 100 ∧
      d.tick.lnk.ptpFrac + k * 1000000 = d.lnk.ptpFrac + (if d.lnk.ptpLeft < 0 then -10 else 10) * ppm ∧
      d.tick.lnk.ptpLeft = d.lnk.ptpLeft - k ∧ d.tick.now = ((d.now + 10 : Int) - k).toNat % 2 ^ 64))

/-- What commands leave alone. No command touches the queue. Where the maintenance gate has nothing to do, a change of the
data plane that makes no request, retires nothing and unlocks no image is the whole of what a command does. The commands of the
transport, the ports' clock and pauses among them, answer a next state and change of the data plane its links, the time, its
counts, its status bits and its log, and of the rest of the module nothing: no memory, no register that holds a setting, no ring
and no tile; a NAK and a reset NAK, after which descriptors that wait on the peer may go on or end, change nothing else before and
after that. -/
def Obligations.CommandsLeaveTheRest : Prop :=
  (∀ (c : Instr) (s t : State), exec c s = .next t → t.pending = s.pending) ∧
  (∀ (s : State) (d : Dp), s.Quiet → d.asks = [] → d.locks = s.dp.locks →
    d.regs.cntVal (Reg.ashCnt 6) = s.dp.regs.cntVal (Reg.ashCnt 6) → s.plane d = { s with dp := d }) ∧
  (∀ (c : Instr) (s : State) (p : Nat) (k : Fin 2) (f : Culm) (q : Fin 8) (on : Bool) (w : Option (Nat × Nat × Nat))
    (ofs : Int), s.Quiet → (c = .ackTimer p k ∨ c = .reorderTimeout p k ∨ c = .frameDiscard w ∨ c = .pfcPause q on ∨
      c = .preemptionVerified q ∨ c = .ptpMessage ofs ∨ c = .connectionResetAck f) →
    ∃ d : Dp, exec c s = .next { s with dp := d } ∧ s.dp.Linked d) ∧
  (∀ (s : State) (f : Culm), s.podLive = true →
    (∃ d : Dp, exec (.nak f) s = .next (s.plane d.progressPod) ∧ s.dp.Linked d) ∧
    ∃ a b : Dp, s.dp.Linked a ∧ (a.Linked b ∨ a.progressPod.Linked b) ∧
      (exec (.connectionResetNak f) s = .next (s.plane b) ∨ exec (.connectionResetNak f) s = .next (s.plane b.progressPod)))

/-- The store path keeps to its addresses (R126): a batch of bytes that no sheaf holds back changes only bytes of memory to
which the address of one of its cells goes, and besides only the order of its ring's stores, the dirty bits of pool frames, what
a dropped line of the granary could read as (R259), and poison; the bytes it stores leave it. -/
def Obligations.StoresStayInPlace : Prop :=
  ∀ (e : Env) (w v : Wk), e.sheaf = none → Work.flush e w = (.ok (), v) →
    (∀ x, v.d.dpaByte x = w.d.dpaByte x ∨ ∃ c ∈ w.cells, ∃ u, Work.locate e c.dva true w = (.ok (.dev x), u)) ∧
    (∀ x, v.d.hostByte x = w.d.hostByte x ∨ ∃ c ∈ w.cells, ∃ u, Work.locate e c.dva true w = (.ok (.host x), u)) ∧
    v.cells = [] ∧ v.poison = w.poison ∧
    (∃ b : Dp, (b = w.d ∨ ∃ r : Ring, b = w.d.setRing e.ring { w.d.ring e.ring with writes := r.writes }) ∧
      v.d = { b with mem := { w.d.mem with
        dpa := v.d.mem.dpa, host := v.d.mem.host, frames := v.d.mem.frames, poison := v.d.mem.poison,
        past := v.d.mem.past } })

/-- The operations over memory keep its canonical form, and a byte read after a write is the byte written there, or what it was
elsewhere; a line copied is read at its new place, with its poison. -/
def Obligations.MemoryKeepsItsForm : Prop :=
  (∀ (d : Dp) (a b n : Nat) (x : Byte) (l : List Byte) (host : Bool) (m : List (Nat × Byte × Bool)), d.mem.wf = true → (d.setDpa a x).mem.wf = true ∧
    (d.setHost a x).mem.wf = true ∧ (d.setDpas a l).mem.wf = true ∧ (d.setHosts a l).mem.wf = true ∧
    (d.copyLines a b n).mem.wf = true ∧ (d.storeLine a host m).mem.wf = true) ∧
  (∀ (d : Dp) (a x : Nat) (l : List Byte),
    (d.setDpas a l).dpaByte x = (if a ≤ x ∧ x < a + l.length then l.getD (x - a) 0 else d.dpaByte x) ∧
    (d.setHosts a l).hostByte x = (if a ≤ x ∧ x < a + l.length then l.getD (x - a) 0 else d.hostByte x)) ∧
  (∀ (d : Dp) (a b i : Nat), a % 128 = 0 → b % 128 = 0 → i < 128 → (d.copyLine a b).dpaByte (b + i) = d.dpaByte (a + i) ∧
    (d.copyLine a b).isPoisoned (b + i) = d.isPoisoned a)

/-- What no step takes back (R455, R457, R466): no generation of a one-time word goes, changes its data or loses its MARK, no
rollback counter falls, and RETIRED stays. -/
def Obligations.KilnTakesNothingBack : Prop :=
  ∀ s t : State, step s = .next t → Kiln.Grows s.kiln t.kiln

/-- Every step keeps Kiln sound: at most four generations of a word (R455), a level of Table 16.6, attestation closed at
INVASIVE (R465), and no secured session while it is closed or the module RETIRED. -/
def Obligations.KilnStaysSound : Prop :=
  ∀ s t : State, s.kiln.Sound → step s = .next t → t.kiln.Sound

/-- Reset meets the invariants: Kiln is sound and both memories are in their canonical form, with nothing listed. -/
def Obligations.ResetMeetsInvariants : Prop :=
  State.reset.kiln.Sound ∧ State.reset.dp.mem.wf = true ∧ State.reset.dp.mem.dpa = [] ∧ State.reset.dp.mem.host = [] ∧
    State.reset.pending = []

/-- Trust is opened by tokens alone (R463–R466): a step that raises the debug level, or retires the module, ran KLN_TOK_GO or an
SPDM request with a token; and attestation, once closed, is opened by a cold reset alone (R465). -/
def Obligations.TrustRisesByTokenOnly : Prop :=
  ∀ (s t : State), step s = .next t →
    ((s.kiln.debug < t.kiln.debug ∨ (s.kiln.retired = false ∧ t.kiln.retired = true)) → ∃ l : List Instr,
      s.pending = .klnTokGo :: l ∨ ∃ (tr : Fin 2) (b : List Byte), s.pending = .spdmRequest tr (.token b) :: l) ∧
    (s.kiln.closed = true → t.kiln.closed = false → ∃ l : List Instr, s.pending = .coldReset :: l)

end
end

