-- ==== Sys2Proof/Laws/Tab.lean ====
section
/-!
SUPPORT. Sparse tables: reading after writing, and the canonical form that every operation keeps.
-/
namespace Sys2Proof.Machine
namespace Tab

variable {α : Type}

theorem get_erase_same (d : Nat → α) (t : Tab α) (k : Nat) : Tab.get d (Tab.erase t k) k = d k := by
  induction t with
  | nil => rfl
  | cons e t ih =>
    obtain ⟨j, v⟩ := e
    by_cases h : j = k
    · simp [Tab.erase, h, ih]
    · simp [Tab.erase, h, Tab.get, ih]

theorem get_erase_other (d : Nat → α) (t : Tab α) {k m : Nat} (h : m ≠ k) :
    Tab.get d (Tab.erase t k) m = Tab.get d t m := by
  induction t with
  | nil => rfl
  | cons e t ih =>
    obtain ⟨j, v⟩ := e
    by_cases hj : j = k
    · subst hj
      simp [Tab.erase, Tab.get, ih, Ne.symm h]
    · simp [Tab.erase, hj, Tab.get, ih]

theorem get_insert_same (d : Nat → α) (t : Tab α) (k : Nat) (v : α) (h : ∀ e ∈ t, e.1 ≠ k) :
    Tab.get d (Tab.insert t k v) k = v := by
  induction t with
  | nil => simp [Tab.insert, Tab.get]
  | cons e t ih =>
    obtain ⟨j, w⟩ := e
    have hj : j ≠ k := h _ (List.mem_cons_self ..)
    by_cases hk : k < j
    · simp [Tab.insert, hk, Tab.get]
    · simp [Tab.insert, hk, Tab.get, hj, ih fun e he => h e (List.mem_cons_of_mem _ he)]

theorem get_insert_other (d : Nat → α) (t : Tab α) {k m : Nat} (v : α) (h : m ≠ k) :
    Tab.get d (Tab.insert t k v) m = Tab.get d t m := by
  induction t with
  | nil => simp [Tab.insert, Tab.get, Ne.symm h]
  | cons e t ih =>
    obtain ⟨j, w⟩ := e
    by_cases hk : k < j
    · simp [Tab.insert, hk, Tab.get, Ne.symm h]
    · simp [Tab.insert, hk, Tab.get, ih]

theorem erase_free (t : Tab α) (k : Nat) : ∀ e ∈ Tab.erase t k, e.1 ≠ k := by
  induction t with
  | nil => simp [Tab.erase]
  | cons e t ih =>
    obtain ⟨j, v⟩ := e
    by_cases h : j = k
    · simpa [Tab.erase, h] using ih
    · simpa [Tab.erase, h] using ih

theorem above_mono {k m : Nat} {t : Tab α} (h : Tab.above m t = true) (hk : k ≤ m) : Tab.above k t = true := by
  simp only [Tab.above, List.all_eq_true, decide_eq_true_eq] at h ⊢
  intro e he
  have := h e he
  omega

theorem above_erase {k m : Nat} {t : Tab α} (h : Tab.above m t = true) : Tab.above m (Tab.erase t k) = true := by
  induction t with
  | nil => rfl
  | cons e t ih =>
    obtain ⟨j, v⟩ := e
    simp only [Tab.above, List.all_cons, Bool.and_eq_true] at h
    by_cases hj : j = k
    · simpa [Tab.erase, hj] using ih h.2
    · have := ih h.2
      simp only [Tab.above] at this
      simp [Tab.erase, hj, Tab.above, this]
      simpa using h.1

theorem above_insert {k m : Nat} {t : Tab α} (v : α) (h : Tab.above m t = true) (hk : m < k) :
    Tab.above m (Tab.insert t k v) = true := by
  induction t with
  | nil => simp [Tab.insert, Tab.above, hk]
  | cons e t ih =>
    obtain ⟨j, w⟩ := e
    simp only [Tab.above, List.all_cons, Bool.and_eq_true] at h
    by_cases hj : k < j
    · simp only [Tab.insert, hj, if_true, Tab.above, List.all_cons, Bool.and_eq_true, decide_eq_true_eq]
      exact ⟨hk, by simpa using h.1, h.2⟩
    · have := ih h.2
      simp only [Tab.above] at this
      simp only [Tab.insert, hj, if_false, Tab.above, List.all_cons, Bool.and_eq_true]
      exact ⟨h.1, this⟩

theorem above_filter {k : Nat} {t : Tab α} (p : Nat × α → Bool) (h : Tab.above k t = true) :
    Tab.above k (t.filter p) = true := by
  simp only [Tab.above, List.all_eq_true] at h ⊢
  intro e he
  exact h e (List.mem_filter.mp he).1

variable [DecidableEq α]

/-- A read of the key written gives the value written. -/
@[simp] theorem get_set_same (d : Nat → α) (t : Tab α) (k : Nat) (v : α) : Tab.get d (Tab.set d t k v) k = v := by
  by_cases h : v = d k
  · simp [Tab.set, h, get_erase_same]
  · simp [Tab.set, h, get_insert_same d _ k v (erase_free t k)]

/-- A write leaves every other key alone. -/
theorem get_set_other (d : Nat → α) (t : Tab α) {k m : Nat} (v : α) (h : m ≠ k) :
    Tab.get d (Tab.set d t k v) m = Tab.get d t m := by
  by_cases hv : v = d k
  · simp [Tab.set, hv, get_erase_other d t h]
  · simp [Tab.set, hv, get_insert_other d _ v h, get_erase_other d t h]

/-- What a write of `v` at `k` makes every key read as. -/
theorem get_set (d : Nat → α) (t : Tab α) (k m : Nat) (v : α) :
    Tab.get d (Tab.set d t k v) m = if m = k then v else Tab.get d t m := by
  by_cases h : m = k
  · simp [h]
  · simp [h, get_set_other d t v h]

theorem wf_erase {d : Nat → α} {t : Tab α} (h : Tab.wf d t = true) (k : Nat) : Tab.wf d (Tab.erase t k) = true := by
  induction t with
  | nil => rfl
  | cons e t ih =>
    obtain ⟨j, v⟩ := e
    simp only [Tab.wf, Bool.and_eq_true] at h
    by_cases hj : j = k
    · simpa [Tab.erase, hj] using ih h.2
    · simp [Tab.erase, hj, Tab.wf, above_erase h.1.1, ih h.2]
      simpa using h.1.2

theorem wf_insert {d : Nat → α} {t : Tab α} {k : Nat} {v : α} (h : Tab.wf d t = true) (hk : ∀ e ∈ t, e.1 ≠ k)
    (hv : v ≠ d k) : Tab.wf d (Tab.insert t k v) = true := by
  induction t with
  | nil => simp [Tab.insert, Tab.wf, Tab.above, hv]
  | cons e t ih =>
    obtain ⟨j, w⟩ := e
    have hj : j ≠ k := hk _ (List.mem_cons_self ..)
    have h' := h
    simp only [Tab.wf, Bool.and_eq_true] at h
    by_cases hlt : k < j
    · simp only [Tab.insert, hlt, if_true, Tab.wf, Bool.and_eq_true]
      refine ⟨⟨?_, by simpa using hv⟩, ⟨h.1.1, h.1.2⟩, h.2⟩
      have := above_mono (k := k) h.1.1 (Nat.le_of_lt hlt)
      simp only [Tab.above] at this
      simp [Tab.above, hlt]
      simpa using this
    · have hgt : j < k := by omega
      simp only [Tab.insert, hlt, if_false, Tab.wf, Bool.and_eq_true]
      exact ⟨⟨above_insert v h.1.1 hgt, h.1.2⟩, ih h.2 fun e he => hk e (List.mem_cons_of_mem _ he)⟩

/-- A write keeps the canonical form. -/
theorem wf_set {d : Nat → α} {t : Tab α} (h : Tab.wf d t = true) (k : Nat) (v : α) : Tab.wf d (Tab.set d t k v) = true := by
  by_cases hv : v = d k
  · simpa [Tab.set, hv] using wf_erase h k
  · simpa [Tab.set, hv] using wf_insert (wf_erase h k) (erase_free t k) hv

/-- Dropping entries keeps the canonical form. -/
theorem wf_filter {d : Nat → α} {t : Tab α} (p : Nat × α → Bool) (h : Tab.wf d t = true) :
    Tab.wf d (t.filter p) = true := by
  induction t with
  | nil => rfl
  | cons e t ih =>
    obtain ⟨j, v⟩ := e
    simp only [Tab.wf, Bool.and_eq_true] at h
    by_cases hp : p (j, v) = true
    · simp only [List.filter_cons, hp, if_true, Tab.wf, Bool.and_eq_true]
      exact ⟨⟨above_filter p h.1.1, h.1.2⟩, ih h.2⟩
    · simp [hp, ih h.2]

end Tab
end Sys2Proof.Machine
end

