-- ==== Sys2Proof/Laws/Kiln.lean ====
section
/-!
SUPPORT. Kiln's operations: none takes back a generation, a counter or the RETIRED fuse, and each keeps Kiln sound.
-/
namespace Sys2Proof.Machine

theorem gensGrow_refl (a : List OtpGen) : gensGrow a a := ⟨Nat.le_refl _, fun _ x h => ⟨x, h, rfl, id⟩⟩

theorem gensGrow_trans {a b c : List OtpGen} (h : gensGrow a b) (k : gensGrow b c) : gensGrow a c := by
  refine ⟨Nat.le_trans h.1 k.1, fun i x hx => ?_⟩
  obtain ⟨y, hy, e, f⟩ := h.2 i x hx
  obtain ⟨z, hz, e', f'⟩ := k.2 i y hy
  exact ⟨z, hz, e'.trans e, fun v => f' (f v)⟩

theorem gensGrow_append (a b : List OtpGen) : gensGrow a (a ++ b) := by
  refine ⟨by simp, fun i x hx => ⟨x, ?_, rfl, id⟩⟩
  have hi : i < a.length := by
    rcases Nat.lt_or_ge i a.length with h | h
    · exact h
    · simp [List.getElem?_eq_none h] at hx
  rw [List.getElem?_append_left hi, hx]

theorem markLast_length (l : List OtpGen) : (Kiln.markLast l).length = l.length := by
  induction l using Kiln.markLast.induct with
  | case1 => rfl
  | case2 g => rfl
  | case3 g h l ih => simpa [Kiln.markLast] using ih

theorem gensGrow_markLast (l : List OtpGen) : gensGrow l (Kiln.markLast l) := by
  induction l using Kiln.markLast.induct with
  | case1 => exact gensGrow_refl _
  | case2 g =>
    refine ⟨Nat.le_refl _, fun i x hx => ?_⟩
    cases i with
    | zero => simp at hx; subst hx; exact ⟨{ g with valid := true }, by simp [Kiln.markLast], rfl, fun _ => rfl⟩
    | succ i => simp at hx
  | case3 g h l ih =>
    refine ⟨by simp [markLast_length], fun i x hx => ?_⟩
    cases i with
    | zero => exact ⟨x, by simpa [Kiln.markLast] using hx, rfl, id⟩
    | succ i =>
      obtain ⟨y, hy, e⟩ := ih.2 i x (by simpa using hx)
      exact ⟨y, by simpa [Kiln.markLast] using hy, e⟩

namespace Kiln

theorem Grows.refl (k : Kiln) : Grows k k := ⟨fun _ => gensGrow_refl _, fun _ => Nat.le_refl _, id⟩

theorem Grows.trans {a b c : Kiln} (h : Grows a b) (k : Grows b c) : Grows a c :=
  ⟨fun i => gensGrow_trans (h.1 i) (k.1 i), fun n => Nat.le_trans (h.2.1 n) (k.2.1 n), fun r => k.2.2 (h.2.2 r)⟩

/-- Two states of Kiln with the same words, counters and fuse. -/
theorem Grows.of_eq {a b : Kiln} (h : b.words = a.words) (k : b.rb = a.rb) (r : b.retired = a.retired) : Grows a b := by
  refine ⟨fun i => ?_, fun n => ?_, fun x => by rw [r]; exact x⟩
  · simpa [gens, h] using gensGrow_refl _
  · simp [counter, k]

theorem gens_setGens (k : Kiln) (i j : Nat) (l : List OtpGen) : (k.setGens i l).gens j = if j = i then l else k.gens j := by
  simp [gens, setGens, Tab.get_set]

theorem counter_setGens (k : Kiln) (i n : Nat) (l : List OtpGen) : (k.setGens i l).counter n = k.counter n := rfl

theorem grows_setGens {k : Kiln} {i : Nat} {l : List OtpGen} (h : gensGrow (k.gens i) l) : Grows k (k.setGens i l) := by
  refine ⟨fun j => ?_, fun n => Nat.le_refl _, id⟩
  rw [gens_setGens]
  by_cases e : j = i
  · simpa [e] using h
  · simpa [e] using gensGrow_refl _

theorem grows_progBegin (k : Kiln) (i : Nat) (w : Word) : Grows k (k.progBegin i w) :=
  grows_setGens (gensGrow_append _ _)

theorem grows_progEnd (k : Kiln) (i : Nat) : Grows k (k.progEnd i) := grows_setGens (gensGrow_markLast _)

theorem grows_advance (k : Kiln) (n target : Nat) : Grows k (k.advance n target) := by
  unfold advance
  split
  · rename_i h
    refine ⟨fun i => by simpa [gens] using gensGrow_refl _, fun m => ?_, id⟩
    by_cases e : m = n
    · simp [counter, e]; simp [counter] at h; omega
    · simp [counter, Tab.get_set, e]
  · exact Grows.refl k

theorem advance_rest (k : Kiln) (n target : Nat) :
    (k.advance n target).debug = k.debug ∧ (k.advance n target).retired = k.retired ∧ (k.advance n target).closed = k.closed := by
  unfold advance
  split <;> exact ⟨rfl, rfl, rfl⟩

theorem grows_retire (k : Kiln) : Grows k k.retire :=
  ⟨fun i => by simpa [gens, retire] using gensGrow_refl _, fun n => by simp [counter, retire], fun _ => rfl⟩

theorem grows_setLevel (k : Kiln) (v : Nat) : Grows k (k.setLevel v) := by
  unfold setLevel
  split <;> exact Grows.of_eq rfl rfl rfl

theorem grows_bootSeg (k : Kiln) (n : Nat) : Grows k (k.bootSeg n) := by
  unfold bootSeg
  simp only []
  split <;> exact Grows.of_eq rfl rfl rfl

theorem bootSeg_rest (k : Kiln) (n : Nat) :
    (k.bootSeg n).debug = k.debug ∧ (k.bootSeg n).closed = k.closed ∧ (k.bootSeg n).sessions = k.sessions ∧
      (k.bootSeg n).words = k.words ∧ (k.bootSeg n).rb = k.rb ∧ (k.bootSeg n).retired = k.retired := by
  unfold bootSeg
  simp only []
  split <;> exact ⟨rfl, rfl, rfl, rfl, rfl, rfl⟩

/-- Two states of Kiln that differ in nothing that soundness speaks of. -/
structure Alike (a b : Kiln) : Prop where
  words : b.words = a.words
  rb : b.rb = a.rb
  retired : b.retired = a.retired
  debug : b.debug = a.debug
  closed : b.closed = a.closed
  sessions : b.sessions = a.sessions

theorem Alike.refl (k : Kiln) : Alike k k := ⟨rfl, rfl, rfl, rfl, rfl, rfl⟩

theorem Alike.trans {a b c : Kiln} (h : Alike a b) (k : Alike b c) : Alike a c :=
  ⟨k.1.trans h.1, k.2.trans h.2, k.3.trans h.3, k.4.trans h.4, k.5.trans h.5, k.6.trans h.6⟩

theorem Alike.grows {a b : Kiln} (h : Alike a b) : Grows a b := Grows.of_eq h.words h.rb h.retired

theorem Alike.sound {a b : Kiln} (h : Alike a b) (s : Sound a) : Sound b :=
  ⟨fun i => by simpa [gens, h.words] using s.gens i, by rw [h.debug]; exact s.level,
   fun e => by rw [h.closed]; exact s.shut (h.debug ▸ e), fun e => by rw [h.sessions]; exact s.ended (by simpa [h.closed, h.retired] using e)⟩

theorem alike_bootSeg (k : Kiln) (n : Nat) : Alike k (k.bootSeg n) := by
  obtain ⟨a, b, c, d, e, f⟩ := bootSeg_rest k n
  exact ⟨d, e, f, a, b, c⟩

theorem alike_foldl_bootSeg (l : List Nat) (k : Kiln) : Alike k (l.foldl bootSeg k) := by
  induction l generalizing k with
  | nil => exact Alike.refl k
  | cons n l ih => exact (alike_bootSeg k n).trans (ih _)

theorem alike_boot (k : Kiln) : Alike k k.boot := by
  have e : Alike k { k with segs := [], bootErr := 0, recovery := false } := ⟨rfl, rfl, rfl, rfl, rfl, rfl⟩
  have h := e.trans (alike_bootSeg { k with segs := [], bootErr := 0, recovery := false } 0)
  unfold boot
  simp only []
  split
  · exact h.trans ⟨rfl, rfl, rfl, rfl, rfl, rfl⟩
  · exact h.trans (alike_foldl_bootSeg _ _)

theorem sound_setGens {k : Kiln} {i : Nat} {l : List OtpGen} (s : Sound k) (h : l.length ≤ 4) : Sound (k.setGens i l) := by
  refine ⟨fun j => ?_, s.level, s.shut, s.ended⟩
  rw [gens_setGens]
  by_cases e : j = i
  · simpa [e] using h
  · simpa [e] using s.gens j

theorem sound_progEnd {k : Kiln} (s : Sound k) (i : Nat) : Sound (k.progEnd i) :=
  sound_setGens s (by rw [markLast_length]; exact s.gens i)

theorem sound_advance {k : Kiln} (s : Sound k) (n target : Nat) : Sound (k.advance n target) := by
  unfold advance
  split
  · exact ⟨s.gens, s.level, s.shut, s.ended⟩
  · exact s

end Kiln
end Sys2Proof.Machine
end

