-- ==== Sys2Proof/Laws/Gate.lean ====
section
/-!
SUPPORT. The maintenance gate: whatever it does, the queue of commands stays, Kiln takes nothing back and stays sound.
-/
namespace Sys2Proof.Machine
namespace State

/-- What a command may do to Kiln's guards: a token may raise the debug level or retire the module, and a cold reset opens
attestation again. -/
structure Ways where
  token : Bool
  cold : Bool

/-- What every operation of the module keeps, its commands taken apart: the queue of commands, what Kiln never takes
back, Kiln's soundness, and what only a token or a cold reset changes. -/
structure Keeps (w : Ways) (s t : State) : Prop where
  pending : t.pending = s.pending
  grows : Kiln.Grows s.kiln t.kiln
  sound : Kiln.Sound s.kiln → Kiln.Sound t.kiln
  level : w.token = false → t.kiln.debug ≤ s.kiln.debug
  fuse : w.token = false → t.kiln.retired = s.kiln.retired
  shut : w.cold = false → s.kiln.closed = true → t.kiln.closed = true

variable {w : Ways}

theorem Keeps.refl (s : State) : Keeps w s s := ⟨rfl, Kiln.Grows.refl _, id, fun _ => Nat.le_refl _, fun _ => rfl, fun _ h => h⟩

theorem Keeps.trans {a b c : State} (h : Keeps w a b) (k : Keeps w b c) : Keeps w a c :=
  ⟨k.pending.trans h.pending, h.grows.trans k.grows, fun x => k.sound (h.sound x),
   fun e => Nat.le_trans (k.level e) (h.level e), fun e => (k.fuse e).trans (h.fuse e), fun e x => k.shut e (h.shut e x)⟩

/-- An operation that leaves the queue alone and, of Kiln, all that soundness speaks of. -/
theorem Keeps.of_alike {s t : State} (h : t.pending = s.pending) (k : Kiln.Alike s.kiln t.kiln) : Keeps w s t :=
  ⟨h, k.grows, k.sound, fun _ => by rw [k.debug] <;> exact Nat.le_refl _, fun _ => k.retired, fun _ e => by rw [k.closed]; exact e⟩

/-- An operation that leaves the queue and Kiln alone. -/
theorem Keeps.of_eq {s t : State} (h : t.pending = s.pending) (k : t.kiln = s.kiln) : Keeps w s t :=
  Keeps.of_alike h (by rw [k]; exact Kiln.Alike.refl _)

/-- An operation after one that leaves the queue and Kiln alone. -/
theorem Keeps.after {s t u : State} (k : Keeps w t u) (h : t.pending = s.pending) (e : t.kiln = s.kiln) : Keeps w s u :=
  (Keeps.of_eq h e).trans k

theorem Keeps.foldl {α : Type} {f : State → α → State} (hf : ∀ s a, Keeps w s (f s a)) (l : List α) (s : State) :
    Keeps w s (l.foldl f s) := by
  induction l generalizing s with
  | nil => exact Keeps.refl s
  | cons a l ih => exact (hf s a).trans (ih _)

/-- An operation on the one-time memory. -/
theorem Keeps.of_words {s t : State} (h : t.pending = s.pending) (g : Kiln.Grows s.kiln t.kiln)
    (k : Kiln.Sound s.kiln → Kiln.Sound t.kiln) (d : t.kiln.debug = s.kiln.debug) (r : t.kiln.retired = s.kiln.retired)
    (c : t.kiln.closed = s.kiln.closed) : Keeps w s t :=
  ⟨h, g, k, fun _ => by rw [d] <;> exact Nat.le_refl _, fun _ => r, fun _ e => by rw [c]; exact e⟩

/-- A choice between operations. -/
theorem Keeps.ite {s a b : State} {c : Prop} [Decidable c] (h : Keeps w s a) (k : Keeps w s b) : Keeps w s (if c then a else b) := by
  split
  · exact h
  · exact k

/-! ### Clocks -/

theorem keeps_applyClock (s : State) (h v : Nat) : Keeps w s (s.applyClock h v) := Keeps.of_eq rfl rfl

theorem keeps_askEpoch (s : State) (h v : Nat) : Keeps w s (s.askEpoch h v) := by
  unfold askEpoch
  simp only []
  split <;> exact Keeps.of_eq rfl rfl

theorem keeps_steerHalf (s : State) (h : Nat) : Keeps w s (s.steerHalf h) := by
  unfold steerHalf
  simp only []
  split
  · exact Keeps.refl s
  · split
    · exact keeps_askEpoch ..
    · exact keeps_applyClock ..

theorem keeps_steer (s : State) : Keeps w s s.steer := (keeps_steerHalf s 0).trans (keeps_steerHalf _ 1)

theorem keeps_reopen (s : State) : Keeps w s s.reopen := by
  unfold reopen
  split
  · exact Keeps.refl s
  · rename_i h v rest e
    have k : Keeps w s { s with pwr := { s.pwr with epochs := rest }, dp := s.dp.bump Reg.clkEpochCnt } := Keeps.of_eq rfl rfl
    exact (k.trans (keeps_applyClock ..)).trans (keeps_steer _)

theorem keeps_raiseStep (s : State) (h : Nat) : Keeps w s (s.raiseStep h) := by
  unfold raiseStep
  simp only []
  repeat' split
  all_goals first | exact Keeps.refl s | exact keeps_askEpoch .. | exact keeps_applyClock ..

/-! ### Requests -/

theorem keeps_submit (s : State) (q : Req) : Keeps w s (s.submit q) := Keeps.of_eq rfl rfl

theorem keeps_absorb (s : State) : Keeps w s s.absorb := by
  unfold absorb
  simp only []
  split
  · exact Keeps.refl s
  · have k : Keeps w s { s with dp := { s.dp with asks := [] } } := Keeps.of_eq rfl rfl
    exact k.trans (Keeps.foldl (fun s q => keeps_submit s q) _ _)

theorem keeps_toldQueued (s : State) (q : Req) : Keeps w s (s.toldQueued q) := by
  unfold toldQueued
  split <;> exact Keeps.of_eq rfl rfl

theorem keeps_enqueue (s : State) (q : Req) : Keeps w s (s.enqueue q) := by
  unfold enqueue
  simp only []
  refine Keeps.trans (Keeps.of_eq rfl rfl : Keeps w s { s with mnt := { s.mnt with queue := s.mnt.queue ++ [{ q with since := s.dp.now }] } }) ?_
  refine (keeps_toldQueued _ _).trans (Keeps.of_eq rfl rfl)

theorem keeps_refuse (s : State) (q : Req) : Keeps w s (s.refuse q) := by
  unfold refuse
  simp only []
  split <;> exact Keeps.of_eq rfl rfl

theorem keeps_report (s : State) (q : Req) (st r : Nat) : Keeps w s (s.report q st r) := by
  unfold report
  simp only []
  split <;> exact Keeps.of_eq rfl rfl

theorem keeps_leave (s : State) (n : Nat) : Keeps w s (s.leave n) := Keeps.of_eq rfl rfl

theorem keeps_stopEffect (s : State) (q : Req) : Keeps w s (s.stopEffect q) := by
  unfold stopEffect
  split
  all_goals first | exact Keeps.of_eq rfl rfl | skip
  split <;> exact Keeps.of_eq rfl rfl

theorem keeps_endEffect (s : State) (q : Req) : Keeps w s (s.endEffect q) := by
  unfold endEffect
  split
  all_goals first | exact Keeps.of_eq rfl rfl | skip
  · split
    · exact Keeps.of_alike rfl ⟨rfl, rfl, rfl, rfl, rfl, rfl⟩
    · exact Keeps.refl s
  · split
    · exact Keeps.of_words rfl (Kiln.grows_progEnd _ _) (fun h => Kiln.sound_progEnd h _) rfl rfl rfl
    · obtain ⟨a, b, c⟩ := Kiln.advance_rest s.kiln (q.res - 256) q.param
      exact Keeps.of_words rfl (Kiln.grows_advance _ _ _) (fun h => Kiln.sound_advance h _ _) a b c

/-- A request is granted only when its OTP word has a generation left. -/
theorem grants_otp {s : State} {q : Req} (h : s.grants q = true) (a : q.act = 13) (r : q.res < 256) :
    (s.kiln.gens q.res).length < 4 := by
  have k : s.refusedByState q = false := by
    simp only [grants, Bool.and_eq_true, Bool.not_eq_true'] at h
    exact h.1
  simp only [refusedByState, a, Bool.or_eq_false_iff, decide_eq_false_iff_not, ne_eq, Decidable.not_not] at k
  have k := k.2
  simp only [otpReason, r, if_true] at k
  split at k
  · split at k
    · cases k
    · omega
  · unfold Kiln.progReason at k
    simp only [] at k
    split at k
    · cases k
    · omega

theorem keeps_startEffect {s : State} {q : Req} (h : q.act = 13 → q.res < 256 → (s.kiln.gens q.res).length < 4) :
    Keeps w s (s.startEffect q) := by
  unfold startEffect
  split
  all_goals first | exact Keeps.of_eq rfl rfl | skip
  · exact Keeps.trans (Keeps.of_eq rfl rfl : Keeps w s { s with pwr := s.pwr.setReq q.res q.param }) (keeps_steer _)
  · repeat' split
    all_goals exact Keeps.of_eq rfl rfl
  · rename_i a
    split
    · rename_i r
      refine Keeps.of_words rfl (Kiln.grows_progBegin _ _ _) (fun k => Kiln.sound_setGens k ?_) rfl rfl rfl
      have := h a r
      simp
      omega
    · exact Keeps.refl s

theorem keeps_start {s : State} {q : Req} (b : Bool) (h : s.grants q = true) : Keeps w s (s.start q b) := by
  have g := fun a r => grants_otp h a r
  unfold start
  simp only []
  cases b
  · refine Keeps.trans (b := { { s with mnt := { s.mnt with running := s.mnt.running ++ [q] }, dp := s.dp.bump (Reg.mntCnt 0) }.toldQueued q with
      dp := asyncDone (s.dp.bump (Reg.mntCnt 0)) q 0 }) ?_ (keeps_startEffect ?_)
    · refine Keeps.trans (Keeps.of_eq rfl rfl : Keeps w s { s with mnt := { s.mnt with running := s.mnt.running ++ [q] }, dp := s.dp.bump (Reg.mntCnt 0) }) ?_
      exact (keeps_toldQueued _ _).trans (Keeps.of_eq rfl rfl)
    · intro a r
      have := g a r
      unfold toldQueued
      split <;> exact this
  · refine Keeps.trans (b := { s with mnt := { s.mnt with running := s.mnt.running ++ [q] }, dp := s.dp.bump (Reg.mntCnt 0) })
      (Keeps.of_eq rfl rfl) (keeps_startEffect ?_)
    exact g

theorem keeps_scanList (l : List Req) (s : State) : Keeps w s (s.scanList l) := by
  induction l generalizing s with
  | nil => exact Keeps.refl s
  | cons q l ih =>
    let out : State := { s with mnt := { s.mnt with queue := s.mnt.queue.filter fun x => x.num ≠ q.num } }
    have ho : Keeps w s out := Keeps.of_eq rfl rfl
    unfold scanList
    by_cases h1 : s.dp.resRetired q = true
    · simp only [h1, if_true]
      exact (ho.trans (keeps_report out q stConflict 0)).trans (ih _)
    · simp only [h1]
      by_cases h2 : (if q.act = 8 then s.kiln.segReason q.res q.bytes else 0) ≠ 0
      · simp only [h2, if_true, ne_eq, not_false_eq_true]
        exact (ho.trans (keeps_report out q stDenied _)).trans (ih _)
      · simp only [h2, if_false]
        by_cases h3 : s.grants q = true
        · simp only [h3, if_true]
          have h3' : out.grants q = true := h3
          exact (ho.trans (keeps_start true h3')).trans (ih _)
        · simp only [h3]
          exact ih s

theorem keeps_scan (s : State) : Keeps w s s.scan := keeps_scanList _ s

theorem keeps_letIn (s : State) (q : Req) : Keeps w s (s.letIn q) := by
  unfold letIn
  split
  · rename_i h; exact keeps_start false h
  · split
    · exact keeps_enqueue ..
    · exact keeps_refuse ..

theorem keeps_admitNow (s : State) (q : Req) : Keeps w s (s.admitNow q) := by
  unfold admitNow
  exact Keeps.trans (Keeps.of_eq rfl rfl : Keeps w s { s with mnt := { s.mnt with next := nextNum s.mnt.next } }) (keeps_letIn ..)

theorem keeps_judge (s : State) (act res : Nat) : Keeps w s (s.judge act res) := by
  unfold judge
  split
  · exact Keeps.refl s
  · rename_i q e
    have k : Keeps w s { s with mnt := { s.mnt with arrived := s.mnt.arrived.filter fun x => x.num ≠ q.num } } := Keeps.of_eq rfl rfl
    simp only []
    split
    · split
      · exact Keeps.after (keeps_report _ q stDenied _) rfl rfl
      · exact k.trans (keeps_letIn ..)
    · exact k.trans (keeps_letIn ..)

theorem keeps_activityEnd (s : State) (n : Nat) : Keeps w s (s.activityEnd n) := by
  unfold activityEnd
  split
  · exact Keeps.refl s
  · rename_i q e
    split
    · exact Keeps.refl s
    · simp only []
      split
      · refine (keeps_leave s n).trans (Keeps.trans ?_ ((keeps_scan _).trans (keeps_absorb _)))
        exact Keeps.after (keeps_report _ q _ 0) rfl rfl
      · refine (keeps_leave s n).trans (Keeps.trans ?_ ((keeps_scan _).trans (keeps_absorb _)))
        exact (keeps_endEffect _ q).trans (keeps_report ..)

theorem keeps_breakOff (s : State) (st : Nat) (q : Req) : Keeps w s (s.breakOff st q) :=
  ((keeps_leave s _).trans (keeps_stopEffect _ q)).trans (keeps_report ..)

theorem keeps_withdraw (s : State) (st : Nat) (q : Req) : Keeps w s (s.withdraw st q) :=
  Keeps.after (keeps_report _ q st 0) rfl rfl

/-- What follows at the gate keeps the queue, and Kiln. -/
theorem keeps_settle (old s : State) : Keeps w s (settle old s) := by
  unfold settle
  simp only []
  refine Keeps.trans (keeps_absorb s) (Keeps.trans ?_ (Keeps.foldl (fun s q => keeps_breakOff s _ q) _ _))
  split
  · exact Keeps.refl _
  · exact (Keeps.foldl (fun s q => keeps_breakOff s _ q) _ _).trans (keeps_scan _)

/-- A change of the data plane keeps the queue, and Kiln. -/
theorem keeps_plane (s : State) (d : Dp) : Keeps w s (s.plane d) :=
  Keeps.trans (Keeps.of_eq rfl rfl : Keeps w s { s with dp := d }) (keeps_settle s _)

theorem keeps_dpWhen (s : State) (ok : Bool) (f : Dp → Dp) : Keeps w s (s.dpWhen ok f) := by
  unfold dpWhen
  split
  · exact keeps_plane s _
  · exact Keeps.refl s

theorem keeps_allWhen {s : State} {ok : Bool} {f : State → State} (h : ok = true → Keeps w s (f s)) : Keeps w s (s.allWhen ok f) := by
  unfold allWhen
  split
  · rename_i e; exact (h e).trans (keeps_settle s _)
  · exact Keeps.refl s

end State
end Sys2Proof.Machine
end

