-- ==== Sys2Proof/Laws/State.lean ====
section
/-!
SUPPORT. Reads after writes of the state: for each update of the data plane that the shared operations make, what every
field of it reads as afterwards, and the reads of the tables that are written.
-/
namespace Sys2Proof.Machine
namespace Dp

variable (d : Dp)

/-! ### setRing -/

@[simp] theorem setRing_regs (n : Nat) (r : Ring) : (d.setRing n r).regs = d.regs := rfl
@[simp] theorem setRing_now (n : Nat) (r : Ring) : (d.setRing n r).now = d.now := rfl
@[simp] theorem setRing_elapsed (n : Nat) (r : Ring) : (d.setRing n r).elapsed = d.elapsed := rfl
@[simp] theorem setRing_mem (n : Nat) (r : Ring) : (d.setRing n r).mem = d.mem := rfl
@[simp] theorem setRing_cqs (n : Nat) (r : Ring) : (d.setRing n r).cqs = d.cqs := rfl
@[simp] theorem setRing_nqs (n : Nat) (r : Ring) : (d.setRing n r).nqs = d.nqs := rfl
@[simp] theorem setRing_vecs (n : Nat) (r : Ring) : (d.setRing n r).vecs = d.vecs := rfl
@[simp] theorem setRing_outs (n : Nat) (r : Ring) : (d.setRing n r).outs = d.outs := rfl
@[simp] theorem setRing_resps (n : Nat) (r : Ring) : (d.setRing n r).resps = d.resps := rfl
@[simp] theorem setRing_draws (n : Nat) (r : Ring) : (d.setRing n r).draws = d.draws := rfl
@[simp] theorem setRing_nextUid (n : Nat) (r : Ring) : (d.setRing n r).nextUid = d.nextUid := rfl
@[simp] theorem setRing_phx (n : Nat) (r : Ring) : (d.setRing n r).phx = d.phx := rfl
@[simp] theorem setRing_lists (n : Nat) (r : Ring) : (d.setRing n r).lists = d.lists := rfl
@[simp] theorem setRing_partials (n : Nat) (r : Ring) : (d.setRing n r).partials = d.partials := rfl
@[simp] theorem setRing_stats (n : Nat) (r : Ring) : (d.setRing n r).stats = d.stats := rfl
@[simp] theorem setRing_tillers (n : Nat) (r : Ring) : (d.setRing n r).tillers = d.tillers := rfl
@[simp] theorem setRing_redWays0 (n : Nat) (r : Ring) : (d.setRing n r).redWays0 = d.redWays0 := rfl
@[simp] theorem setRing_redWays1 (n : Nat) (r : Ring) : (d.setRing n r).redWays1 = d.redWays1 := rfl
@[simp] theorem setRing_aclk0 (n : Nat) (r : Ring) : (d.setRing n r).aclk0 = d.aclk0 := rfl
@[simp] theorem setRing_aclk1 (n : Nat) (r : Ring) : (d.setRing n r).aclk1 = d.aclk1 := rfl
@[simp] theorem setRing_domOff (n : Nat) (r : Ring) : (d.setRing n r).domOff = d.domOff := rfl
@[simp] theorem setRing_journal (n : Nat) (r : Ring) : (d.setRing n r).journal = d.journal := rfl
@[simp] theorem setRing_ash (n : Nat) (r : Ring) : (d.setRing n r).ash = d.ash := rfl
@[simp] theorem setRing_mons (n : Nat) (r : Ring) : (d.setRing n r).mons = d.mons := rfl
@[simp] theorem setRing_locks (n : Nat) (r : Ring) : (d.setRing n r).locks = d.locks := rfl
@[simp] theorem setRing_snaps (n : Nat) (r : Ring) : (d.setRing n r).snaps = d.snaps := rfl
@[simp] theorem setRing_asks (n : Nat) (r : Ring) : (d.setRing n r).asks = d.asks := rfl
@[simp] theorem setRing_lnk (n : Nat) (r : Ring) : (d.setRing n r).lnk = d.lnk := rfl
@[simp] theorem setRing_fll (n : Nat) (r : Ring) : (d.setRing n r).fll = d.fll := rfl
@[simp] theorem setRing_gens (n : Nat) (r : Ring) : (d.setRing n r).gens = d.gens := rfl
@[simp] theorem setRing_exchanges (n : Nat) (r : Ring) : (d.setRing n r).exchanges = d.exchanges := rfl

/-! ### setCq -/

@[simp] theorem setCq_regs (n : Nat) (c : Cq) : (d.setCq n c).regs = d.regs := rfl
@[simp] theorem setCq_now (n : Nat) (c : Cq) : (d.setCq n c).now = d.now := rfl
@[simp] theorem setCq_elapsed (n : Nat) (c : Cq) : (d.setCq n c).elapsed = d.elapsed := rfl
@[simp] theorem setCq_mem (n : Nat) (c : Cq) : (d.setCq n c).mem = d.mem := rfl
@[simp] theorem setCq_rings (n : Nat) (c : Cq) : (d.setCq n c).rings = d.rings := rfl
@[simp] theorem setCq_nqs (n : Nat) (c : Cq) : (d.setCq n c).nqs = d.nqs := rfl
@[simp] theorem setCq_vecs (n : Nat) (c : Cq) : (d.setCq n c).vecs = d.vecs := rfl
@[simp] theorem setCq_outs (n : Nat) (c : Cq) : (d.setCq n c).outs = d.outs := rfl
@[simp] theorem setCq_resps (n : Nat) (c : Cq) : (d.setCq n c).resps = d.resps := rfl
@[simp] theorem setCq_draws (n : Nat) (c : Cq) : (d.setCq n c).draws = d.draws := rfl
@[simp] theorem setCq_nextUid (n : Nat) (c : Cq) : (d.setCq n c).nextUid = d.nextUid := rfl
@[simp] theorem setCq_phx (n : Nat) (c : Cq) : (d.setCq n c).phx = d.phx := rfl
@[simp] theorem setCq_lists (n : Nat) (c : Cq) : (d.setCq n c).lists = d.lists := rfl
@[simp] theorem setCq_partials (n : Nat) (c : Cq) : (d.setCq n c).partials = d.partials := rfl
@[simp] theorem setCq_stats (n : Nat) (c : Cq) : (d.setCq n c).stats = d.stats := rfl
@[simp] theorem setCq_tillers (n : Nat) (c : Cq) : (d.setCq n c).tillers = d.tillers := rfl
@[simp] theorem setCq_redWays0 (n : Nat) (c : Cq) : (d.setCq n c).redWays0 = d.redWays0 := rfl
@[simp] theorem setCq_redWays1 (n : Nat) (c : Cq) : (d.setCq n c).redWays1 = d.redWays1 := rfl
@[simp] theorem setCq_aclk0 (n : Nat) (c : Cq) : (d.setCq n c).aclk0 = d.aclk0 := rfl
@[simp] theorem setCq_aclk1 (n : Nat) (c : Cq) : (d.setCq n c).aclk1 = d.aclk1 := rfl
@[simp] theorem setCq_domOff (n : Nat) (c : Cq) : (d.setCq n c).domOff = d.domOff := rfl
@[simp] theorem setCq_journal (n : Nat) (c : Cq) : (d.setCq n c).journal = d.journal := rfl
@[simp] theorem setCq_ash (n : Nat) (c : Cq) : (d.setCq n c).ash = d.ash := rfl
@[simp] theorem setCq_mons (n : Nat) (c : Cq) : (d.setCq n c).mons = d.mons := rfl
@[simp] theorem setCq_locks (n : Nat) (c : Cq) : (d.setCq n c).locks = d.locks := rfl
@[simp] theorem setCq_snaps (n : Nat) (c : Cq) : (d.setCq n c).snaps = d.snaps := rfl
@[simp] theorem setCq_asks (n : Nat) (c : Cq) : (d.setCq n c).asks = d.asks := rfl
@[simp] theorem setCq_lnk (n : Nat) (c : Cq) : (d.setCq n c).lnk = d.lnk := rfl
@[simp] theorem setCq_fll (n : Nat) (c : Cq) : (d.setCq n c).fll = d.fll := rfl
@[simp] theorem setCq_gens (n : Nat) (c : Cq) : (d.setCq n c).gens = d.gens := rfl
@[simp] theorem setCq_exchanges (n : Nat) (c : Cq) : (d.setCq n c).exchanges = d.exchanges := rfl

/-! ### setNq -/

@[simp] theorem setNq_regs (k : Nat) (q : Nq) : (d.setNq k q).regs = d.regs := rfl
@[simp] theorem setNq_now (k : Nat) (q : Nq) : (d.setNq k q).now = d.now := rfl
@[simp] theorem setNq_elapsed (k : Nat) (q : Nq) : (d.setNq k q).elapsed = d.elapsed := rfl
@[simp] theorem setNq_mem (k : Nat) (q : Nq) : (d.setNq k q).mem = d.mem := rfl
@[simp] theorem setNq_rings (k : Nat) (q : Nq) : (d.setNq k q).rings = d.rings := rfl
@[simp] theorem setNq_cqs (k : Nat) (q : Nq) : (d.setNq k q).cqs = d.cqs := rfl
@[simp] theorem setNq_vecs (k : Nat) (q : Nq) : (d.setNq k q).vecs = d.vecs := rfl
@[simp] theorem setNq_outs (k : Nat) (q : Nq) : (d.setNq k q).outs = d.outs := rfl
@[simp] theorem setNq_resps (k : Nat) (q : Nq) : (d.setNq k q).resps = d.resps := rfl
@[simp] theorem setNq_draws (k : Nat) (q : Nq) : (d.setNq k q).draws = d.draws := rfl
@[simp] theorem setNq_nextUid (k : Nat) (q : Nq) : (d.setNq k q).nextUid = d.nextUid := rfl
@[simp] theorem setNq_phx (k : Nat) (q : Nq) : (d.setNq k q).phx = d.phx := rfl
@[simp] theorem setNq_lists (k : Nat) (q : Nq) : (d.setNq k q).lists = d.lists := rfl
@[simp] theorem setNq_partials (k : Nat) (q : Nq) : (d.setNq k q).partials = d.partials := rfl
@[simp] theorem setNq_stats (k : Nat) (q : Nq) : (d.setNq k q).stats = d.stats := rfl
@[simp] theorem setNq_tillers (k : Nat) (q : Nq) : (d.setNq k q).tillers = d.tillers := rfl
@[simp] theorem setNq_redWays0 (k : Nat) (q : Nq) : (d.setNq k q).redWays0 = d.redWays0 := rfl
@[simp] theorem setNq_redWays1 (k : Nat) (q : Nq) : (d.setNq k q).redWays1 = d.redWays1 := rfl
@[simp] theorem setNq_aclk0 (k : Nat) (q : Nq) : (d.setNq k q).aclk0 = d.aclk0 := rfl
@[simp] theorem setNq_aclk1 (k : Nat) (q : Nq) : (d.setNq k q).aclk1 = d.aclk1 := rfl
@[simp] theorem setNq_domOff (k : Nat) (q : Nq) : (d.setNq k q).domOff = d.domOff := rfl
@[simp] theorem setNq_journal (k : Nat) (q : Nq) : (d.setNq k q).journal = d.journal := rfl
@[simp] theorem setNq_ash (k : Nat) (q : Nq) : (d.setNq k q).ash = d.ash := rfl
@[simp] theorem setNq_mons (k : Nat) (q : Nq) : (d.setNq k q).mons = d.mons := rfl
@[simp] theorem setNq_locks (k : Nat) (q : Nq) : (d.setNq k q).locks = d.locks := rfl
@[simp] theorem setNq_snaps (k : Nat) (q : Nq) : (d.setNq k q).snaps = d.snaps := rfl
@[simp] theorem setNq_asks (k : Nat) (q : Nq) : (d.setNq k q).asks = d.asks := rfl
@[simp] theorem setNq_lnk (k : Nat) (q : Nq) : (d.setNq k q).lnk = d.lnk := rfl
@[simp] theorem setNq_fll (k : Nat) (q : Nq) : (d.setNq k q).fll = d.fll := rfl
@[simp] theorem setNq_gens (k : Nat) (q : Nq) : (d.setNq k q).gens = d.gens := rfl
@[simp] theorem setNq_exchanges (k : Nat) (q : Nq) : (d.setNq k q).exchanges = d.exchanges := rfl

/-! ### setVec -/

@[simp] theorem setVec_regs (v : Nat) (x : Vector) : (d.setVec v x).regs = d.regs := rfl
@[simp] theorem setVec_now (v : Nat) (x : Vector) : (d.setVec v x).now = d.now := rfl
@[simp] theorem setVec_elapsed (v : Nat) (x : Vector) : (d.setVec v x).elapsed = d.elapsed := rfl
@[simp] theorem setVec_mem (v : Nat) (x : Vector) : (d.setVec v x).mem = d.mem := rfl
@[simp] theorem setVec_rings (v : Nat) (x : Vector) : (d.setVec v x).rings = d.rings := rfl
@[simp] theorem setVec_cqs (v : Nat) (x : Vector) : (d.setVec v x).cqs = d.cqs := rfl
@[simp] theorem setVec_nqs (v : Nat) (x : Vector) : (d.setVec v x).nqs = d.nqs := rfl
@[simp] theorem setVec_outs (v : Nat) (x : Vector) : (d.setVec v x).outs = d.outs := rfl
@[simp] theorem setVec_resps (v : Nat) (x : Vector) : (d.setVec v x).resps = d.resps := rfl
@[simp] theorem setVec_draws (v : Nat) (x : Vector) : (d.setVec v x).draws = d.draws := rfl
@[simp] theorem setVec_nextUid (v : Nat) (x : Vector) : (d.setVec v x).nextUid = d.nextUid := rfl
@[simp] theorem setVec_phx (v : Nat) (x : Vector) : (d.setVec v x).phx = d.phx := rfl
@[simp] theorem setVec_lists (v : Nat) (x : Vector) : (d.setVec v x).lists = d.lists := rfl
@[simp] theorem setVec_partials (v : Nat) (x : Vector) : (d.setVec v x).partials = d.partials := rfl
@[simp] theorem setVec_stats (v : Nat) (x : Vector) : (d.setVec v x).stats = d.stats := rfl
@[simp] theorem setVec_tillers (v : Nat) (x : Vector) : (d.setVec v x).tillers = d.tillers := rfl
@[simp] theorem setVec_redWays0 (v : Nat) (x : Vector) : (d.setVec v x).redWays0 = d.redWays0 := rfl
@[simp] theorem setVec_redWays1 (v : Nat) (x : Vector) : (d.setVec v x).redWays1 = d.redWays1 := rfl
@[simp] theorem setVec_aclk0 (v : Nat) (x : Vector) : (d.setVec v x).aclk0 = d.aclk0 := rfl
@[simp] theorem setVec_aclk1 (v : Nat) (x : Vector) : (d.setVec v x).aclk1 = d.aclk1 := rfl
@[simp] theorem setVec_domOff (v : Nat) (x : Vector) : (d.setVec v x).domOff = d.domOff := rfl
@[simp] theorem setVec_journal (v : Nat) (x : Vector) : (d.setVec v x).journal = d.journal := rfl
@[simp] theorem setVec_ash (v : Nat) (x : Vector) : (d.setVec v x).ash = d.ash := rfl
@[simp] theorem setVec_mons (v : Nat) (x : Vector) : (d.setVec v x).mons = d.mons := rfl
@[simp] theorem setVec_locks (v : Nat) (x : Vector) : (d.setVec v x).locks = d.locks := rfl
@[simp] theorem setVec_snaps (v : Nat) (x : Vector) : (d.setVec v x).snaps = d.snaps := rfl
@[simp] theorem setVec_asks (v : Nat) (x : Vector) : (d.setVec v x).asks = d.asks := rfl
@[simp] theorem setVec_lnk (v : Nat) (x : Vector) : (d.setVec v x).lnk = d.lnk := rfl
@[simp] theorem setVec_fll (v : Nat) (x : Vector) : (d.setVec v x).fll = d.fll := rfl
@[simp] theorem setVec_gens (v : Nat) (x : Vector) : (d.setVec v x).gens = d.gens := rfl
@[simp] theorem setVec_exchanges (v : Nat) (x : Vector) : (d.setVec v x).exchanges = d.exchanges := rfl

/-! ### bump -/

@[simp] theorem bump_now (off k : Nat) : (d.bump off k).now = d.now := rfl
@[simp] theorem bump_elapsed (off k : Nat) : (d.bump off k).elapsed = d.elapsed := rfl
@[simp] theorem bump_mem (off k : Nat) : (d.bump off k).mem = d.mem := rfl
@[simp] theorem bump_rings (off k : Nat) : (d.bump off k).rings = d.rings := rfl
@[simp] theorem bump_cqs (off k : Nat) : (d.bump off k).cqs = d.cqs := rfl
@[simp] theorem bump_nqs (off k : Nat) : (d.bump off k).nqs = d.nqs := rfl
@[simp] theorem bump_vecs (off k : Nat) : (d.bump off k).vecs = d.vecs := rfl
@[simp] theorem bump_outs (off k : Nat) : (d.bump off k).outs = d.outs := rfl
@[simp] theorem bump_resps (off k : Nat) : (d.bump off k).resps = d.resps := rfl
@[simp] theorem bump_draws (off k : Nat) : (d.bump off k).draws = d.draws := rfl
@[simp] theorem bump_nextUid (off k : Nat) : (d.bump off k).nextUid = d.nextUid := rfl
@[simp] theorem bump_phx (off k : Nat) : (d.bump off k).phx = d.phx := rfl
@[simp] theorem bump_lists (off k : Nat) : (d.bump off k).lists = d.lists := rfl
@[simp] theorem bump_partials (off k : Nat) : (d.bump off k).partials = d.partials := rfl
@[simp] theorem bump_stats (off k : Nat) : (d.bump off k).stats = d.stats := rfl
@[simp] theorem bump_tillers (off k : Nat) : (d.bump off k).tillers = d.tillers := rfl
@[simp] theorem bump_redWays0 (off k : Nat) : (d.bump off k).redWays0 = d.redWays0 := rfl
@[simp] theorem bump_redWays1 (off k : Nat) : (d.bump off k).redWays1 = d.redWays1 := rfl
@[simp] theorem bump_aclk0 (off k : Nat) : (d.bump off k).aclk0 = d.aclk0 := rfl
@[simp] theorem bump_aclk1 (off k : Nat) : (d.bump off k).aclk1 = d.aclk1 := rfl
@[simp] theorem bump_domOff (off k : Nat) : (d.bump off k).domOff = d.domOff := rfl
@[simp] theorem bump_journal (off k : Nat) : (d.bump off k).journal = d.journal := rfl
@[simp] theorem bump_ash (off k : Nat) : (d.bump off k).ash = d.ash := rfl
@[simp] theorem bump_mons (off k : Nat) : (d.bump off k).mons = d.mons := rfl
@[simp] theorem bump_locks (off k : Nat) : (d.bump off k).locks = d.locks := rfl
@[simp] theorem bump_snaps (off k : Nat) : (d.bump off k).snaps = d.snaps := rfl
@[simp] theorem bump_asks (off k : Nat) : (d.bump off k).asks = d.asks := rfl
@[simp] theorem bump_lnk (off k : Nat) : (d.bump off k).lnk = d.lnk := rfl
@[simp] theorem bump_fll (off k : Nat) : (d.bump off k).fll = d.fll := rfl
@[simp] theorem bump_gens (off k : Nat) : (d.bump off k).gens = d.gens := rfl
@[simp] theorem bump_exchanges (off k : Nat) : (d.bump off k).exchanges = d.exchanges := rfl

/-! ### setStat -/

@[simp] theorem setStat_now (off i : Nat) : (d.setStat off i).now = d.now := rfl
@[simp] theorem setStat_elapsed (off i : Nat) : (d.setStat off i).elapsed = d.elapsed := rfl
@[simp] theorem setStat_mem (off i : Nat) : (d.setStat off i).mem = d.mem := rfl
@[simp] theorem setStat_rings (off i : Nat) : (d.setStat off i).rings = d.rings := rfl
@[simp] theorem setStat_cqs (off i : Nat) : (d.setStat off i).cqs = d.cqs := rfl
@[simp] theorem setStat_nqs (off i : Nat) : (d.setStat off i).nqs = d.nqs := rfl
@[simp] theorem setStat_vecs (off i : Nat) : (d.setStat off i).vecs = d.vecs := rfl
@[simp] theorem setStat_outs (off i : Nat) : (d.setStat off i).outs = d.outs := rfl
@[simp] theorem setStat_resps (off i : Nat) : (d.setStat off i).resps = d.resps := rfl
@[simp] theorem setStat_draws (off i : Nat) : (d.setStat off i).draws = d.draws := rfl
@[simp] theorem setStat_nextUid (off i : Nat) : (d.setStat off i).nextUid = d.nextUid := rfl
@[simp] theorem setStat_phx (off i : Nat) : (d.setStat off i).phx = d.phx := rfl
@[simp] theorem setStat_lists (off i : Nat) : (d.setStat off i).lists = d.lists := rfl
@[simp] theorem setStat_partials (off i : Nat) : (d.setStat off i).partials = d.partials := rfl
@[simp] theorem setStat_stats (off i : Nat) : (d.setStat off i).stats = d.stats := rfl
@[simp] theorem setStat_tillers (off i : Nat) : (d.setStat off i).tillers = d.tillers := rfl
@[simp] theorem setStat_redWays0 (off i : Nat) : (d.setStat off i).redWays0 = d.redWays0 := rfl
@[simp] theorem setStat_redWays1 (off i : Nat) : (d.setStat off i).redWays1 = d.redWays1 := rfl
@[simp] theorem setStat_aclk0 (off i : Nat) : (d.setStat off i).aclk0 = d.aclk0 := rfl
@[simp] theorem setStat_aclk1 (off i : Nat) : (d.setStat off i).aclk1 = d.aclk1 := rfl
@[simp] theorem setStat_domOff (off i : Nat) : (d.setStat off i).domOff = d.domOff := rfl
@[simp] theorem setStat_journal (off i : Nat) : (d.setStat off i).journal = d.journal := rfl
@[simp] theorem setStat_ash (off i : Nat) : (d.setStat off i).ash = d.ash := rfl
@[simp] theorem setStat_mons (off i : Nat) : (d.setStat off i).mons = d.mons := rfl
@[simp] theorem setStat_locks (off i : Nat) : (d.setStat off i).locks = d.locks := rfl
@[simp] theorem setStat_snaps (off i : Nat) : (d.setStat off i).snaps = d.snaps := rfl
@[simp] theorem setStat_asks (off i : Nat) : (d.setStat off i).asks = d.asks := rfl
@[simp] theorem setStat_lnk (off i : Nat) : (d.setStat off i).lnk = d.lnk := rfl
@[simp] theorem setStat_fll (off i : Nat) : (d.setStat off i).fll = d.fll := rfl
@[simp] theorem setStat_gens (off i : Nat) : (d.setStat off i).gens = d.gens := rfl
@[simp] theorem setStat_exchanges (off i : Nat) : (d.setStat off i).exchanges = d.exchanges := rfl

/-! ### setDpa -/

@[simp] theorem setDpa_regs (a : Nat) (b : Byte) : (d.setDpa a b).regs = d.regs := rfl
@[simp] theorem setDpa_now (a : Nat) (b : Byte) : (d.setDpa a b).now = d.now := rfl
@[simp] theorem setDpa_elapsed (a : Nat) (b : Byte) : (d.setDpa a b).elapsed = d.elapsed := rfl
@[simp] theorem setDpa_rings (a : Nat) (b : Byte) : (d.setDpa a b).rings = d.rings := rfl
@[simp] theorem setDpa_cqs (a : Nat) (b : Byte) : (d.setDpa a b).cqs = d.cqs := rfl
@[simp] theorem setDpa_nqs (a : Nat) (b : Byte) : (d.setDpa a b).nqs = d.nqs := rfl
@[simp] theorem setDpa_vecs (a : Nat) (b : Byte) : (d.setDpa a b).vecs = d.vecs := rfl
@[simp] theorem setDpa_outs (a : Nat) (b : Byte) : (d.setDpa a b).outs = d.outs := rfl
@[simp] theorem setDpa_resps (a : Nat) (b : Byte) : (d.setDpa a b).resps = d.resps := rfl
@[simp] theorem setDpa_draws (a : Nat) (b : Byte) : (d.setDpa a b).draws = d.draws := rfl
@[simp] theorem setDpa_nextUid (a : Nat) (b : Byte) : (d.setDpa a b).nextUid = d.nextUid := rfl
@[simp] theorem setDpa_phx (a : Nat) (b : Byte) : (d.setDpa a b).phx = d.phx := rfl
@[simp] theorem setDpa_lists (a : Nat) (b : Byte) : (d.setDpa a b).lists = d.lists := rfl
@[simp] theorem setDpa_partials (a : Nat) (b : Byte) : (d.setDpa a b).partials = d.partials := rfl
@[simp] theorem setDpa_stats (a : Nat) (b : Byte) : (d.setDpa a b).stats = d.stats := rfl
@[simp] theorem setDpa_tillers (a : Nat) (b : Byte) : (d.setDpa a b).tillers = d.tillers := rfl
@[simp] theorem setDpa_redWays0 (a : Nat) (b : Byte) : (d.setDpa a b).redWays0 = d.redWays0 := rfl
@[simp] theorem setDpa_redWays1 (a : Nat) (b : Byte) : (d.setDpa a b).redWays1 = d.redWays1 := rfl
@[simp] theorem setDpa_aclk0 (a : Nat) (b : Byte) : (d.setDpa a b).aclk0 = d.aclk0 := rfl
@[simp] theorem setDpa_aclk1 (a : Nat) (b : Byte) : (d.setDpa a b).aclk1 = d.aclk1 := rfl
@[simp] theorem setDpa_domOff (a : Nat) (b : Byte) : (d.setDpa a b).domOff = d.domOff := rfl
@[simp] theorem setDpa_journal (a : Nat) (b : Byte) : (d.setDpa a b).journal = d.journal := rfl
@[simp] theorem setDpa_ash (a : Nat) (b : Byte) : (d.setDpa a b).ash = d.ash := rfl
@[simp] theorem setDpa_mons (a : Nat) (b : Byte) : (d.setDpa a b).mons = d.mons := rfl
@[simp] theorem setDpa_locks (a : Nat) (b : Byte) : (d.setDpa a b).locks = d.locks := rfl
@[simp] theorem setDpa_snaps (a : Nat) (b : Byte) : (d.setDpa a b).snaps = d.snaps := rfl
@[simp] theorem setDpa_asks (a : Nat) (b : Byte) : (d.setDpa a b).asks = d.asks := rfl
@[simp] theorem setDpa_lnk (a : Nat) (b : Byte) : (d.setDpa a b).lnk = d.lnk := rfl
@[simp] theorem setDpa_fll (a : Nat) (b : Byte) : (d.setDpa a b).fll = d.fll := rfl
@[simp] theorem setDpa_gens (a : Nat) (b : Byte) : (d.setDpa a b).gens = d.gens := rfl
@[simp] theorem setDpa_exchanges (a : Nat) (b : Byte) : (d.setDpa a b).exchanges = d.exchanges := rfl

/-! ### setHost -/

@[simp] theorem setHost_regs (a : Nat) (b : Byte) : (d.setHost a b).regs = d.regs := rfl
@[simp] theorem setHost_now (a : Nat) (b : Byte) : (d.setHost a b).now = d.now := rfl
@[simp] theorem setHost_elapsed (a : Nat) (b : Byte) : (d.setHost a b).elapsed = d.elapsed := rfl
@[simp] theorem setHost_rings (a : Nat) (b : Byte) : (d.setHost a b).rings = d.rings := rfl
@[simp] theorem setHost_cqs (a : Nat) (b : Byte) : (d.setHost a b).cqs = d.cqs := rfl
@[simp] theorem setHost_nqs (a : Nat) (b : Byte) : (d.setHost a b).nqs = d.nqs := rfl
@[simp] theorem setHost_vecs (a : Nat) (b : Byte) : (d.setHost a b).vecs = d.vecs := rfl
@[simp] theorem setHost_outs (a : Nat) (b : Byte) : (d.setHost a b).outs = d.outs := rfl
@[simp] theorem setHost_resps (a : Nat) (b : Byte) : (d.setHost a b).resps = d.resps := rfl
@[simp] theorem setHost_draws (a : Nat) (b : Byte) : (d.setHost a b).draws = d.draws := rfl
@[simp] theorem setHost_nextUid (a : Nat) (b : Byte) : (d.setHost a b).nextUid = d.nextUid := rfl
@[simp] theorem setHost_phx (a : Nat) (b : Byte) : (d.setHost a b).phx = d.phx := rfl
@[simp] theorem setHost_lists (a : Nat) (b : Byte) : (d.setHost a b).lists = d.lists := rfl
@[simp] theorem setHost_partials (a : Nat) (b : Byte) : (d.setHost a b).partials = d.partials := rfl
@[simp] theorem setHost_stats (a : Nat) (b : Byte) : (d.setHost a b).stats = d.stats := rfl
@[simp] theorem setHost_tillers (a : Nat) (b : Byte) : (d.setHost a b).tillers = d.tillers := rfl
@[simp] theorem setHost_redWays0 (a : Nat) (b : Byte) : (d.setHost a b).redWays0 = d.redWays0 := rfl
@[simp] theorem setHost_redWays1 (a : Nat) (b : Byte) : (d.setHost a b).redWays1 = d.redWays1 := rfl
@[simp] theorem setHost_aclk0 (a : Nat) (b : Byte) : (d.setHost a b).aclk0 = d.aclk0 := rfl
@[simp] theorem setHost_aclk1 (a : Nat) (b : Byte) : (d.setHost a b).aclk1 = d.aclk1 := rfl
@[simp] theorem setHost_domOff (a : Nat) (b : Byte) : (d.setHost a b).domOff = d.domOff := rfl
@[simp] theorem setHost_journal (a : Nat) (b : Byte) : (d.setHost a b).journal = d.journal := rfl
@[simp] theorem setHost_ash (a : Nat) (b : Byte) : (d.setHost a b).ash = d.ash := rfl
@[simp] theorem setHost_mons (a : Nat) (b : Byte) : (d.setHost a b).mons = d.mons := rfl
@[simp] theorem setHost_locks (a : Nat) (b : Byte) : (d.setHost a b).locks = d.locks := rfl
@[simp] theorem setHost_snaps (a : Nat) (b : Byte) : (d.setHost a b).snaps = d.snaps := rfl
@[simp] theorem setHost_asks (a : Nat) (b : Byte) : (d.setHost a b).asks = d.asks := rfl
@[simp] theorem setHost_lnk (a : Nat) (b : Byte) : (d.setHost a b).lnk = d.lnk := rfl
@[simp] theorem setHost_fll (a : Nat) (b : Byte) : (d.setHost a b).fll = d.fll := rfl
@[simp] theorem setHost_gens (a : Nat) (b : Byte) : (d.setHost a b).gens = d.gens := rfl
@[simp] theorem setHost_exchanges (a : Nat) (b : Byte) : (d.setHost a b).exchanges = d.exchanges := rfl

/-! ### Reads of what has been written -/

theorem ring_setRing (n m : Nat) (r : Ring) : (d.setRing n r).ring m = if m = n then r else d.ring m := Tab.get_set ..

@[simp] theorem ring_setRing_same (n : Nat) (r : Ring) : (d.setRing n r).ring n = r := Tab.get_set_same ..

theorem cq_setCq (n m : Nat) (c : Cq) : (d.setCq n c).cq m = if m = n then c else d.cq m := Tab.get_set ..

theorem nq_setNq (n m : Nat) (q : Nq) : (d.setNq n q).nq m = if m = n then q else d.nq m := Tab.get_set ..

theorem vec_setVec (n m : Nat) (x : Vector) : (d.setVec n x).vec m = if m = n then x else d.vec m := Tab.get_set ..

@[simp] theorem reg_setRing (n : Nat) (r : Ring) (off : Nat) : (d.setRing n r).reg off = d.reg off := rfl

@[simp] theorem reg_bump (off k o : Nat) : (d.bump off k).reg o = d.reg o := rfl

@[simp] theorem reg_setStat (off i o : Nat) : (d.setStat off i).reg o = d.reg o := rfl

@[simp] theorem ring_bump (off k n : Nat) : (d.bump off k).ring n = d.ring n := rfl

/-- Adding to a counter leaves every other counter alone. -/
theorem cntVal_bump (off k o : Nat) :
    (d.bump off k).regs.cntVal o = if o = off then d.regs.cntVal off + BitVec.ofNat 64 k else d.regs.cntVal o := by
  simp only [bump, Regs.bump, Regs.cntVal, Tab.modify, Tab.get_set]

/-- Setting a bit of a status register leaves every other status register alone. -/
theorem statVal_setStat (off i o : Nat) :
    (d.setStat off i).regs.statVal o =
      if o = off then d.regs.statVal off ||| BitVec.ofNat 64 (2 ^ i) else d.regs.statVal o := by
  simp only [setStat, Regs.setStat, Regs.statVal, Tab.modify, Tab.get_set]

end Dp

/-! ### The register file -/

namespace Regs

variable (r : Regs)

theorem stagedVal_stage (off o : Nat) (w : Word) : (r.stage off w).stagedVal o = if o = off then w else r.stagedVal o :=
  Tab.get_set ..

theorem val_commit (off o : Nat) (w : Word) : (r.commit off w).val o = if o = off then w else r.val o := Tab.get_set ..

@[simp] theorem val_stage (off o : Nat) (w : Word) : (r.stage off w).val o = r.val o := rfl

@[simp] theorem stagedVal_commit (off o : Nat) (w : Word) : (r.commit off w).stagedVal o = r.stagedVal o := rfl

end Regs
end Sys2Proof.Machine
end

