-- ==== Sys2Proof/Laws/Act.lean ====
section
/-!
SUPPORT. How a command acts: what a change leaves when its condition holds, that the maintenance gate leaves a change
alone that concerns it in nothing, and what a granted descriptor leaves.
-/
namespace Sys2Proof.Machine
namespace State

theorem absorb_none {s : State} (h : s.dp.asks = []) : s.absorb = s := by simp [absorb, h]

/-- A change that makes no request, retires nothing and takes no lock from a running drain leaves the gate alone. -/
theorem settle_idle (old s : State) (asks : s.dp.asks = [])
    (cnt : s.dp.regs.cntVal (Reg.ashCnt 6) = old.dp.regs.cntVal (Reg.ashCnt 6))
    (drains : ∀ q ∈ s.mnt.running, q.act = 14 → ∃ l ∈ s.dp.locks, l.base = q.res) : settle old s = s := by
  have e : s.mnt.running.filter (fun q => q.act = 14 && !(s.dp.locks.any fun l => l.base = q.res)) = [] := by
    rw [List.filter_eq_nil_iff]
    intro q hq
    simp only [Bool.and_eq_true, decide_eq_true_eq, Bool.not_eq_true', not_and, Bool.not_eq_false, List.any_eq_true]
    exact fun a => drains q hq a
  simp only [settle, absorb_none asks, if_pos cnt, e, List.foldl_nil]

/-- The same for a change of the data plane. -/
theorem plane_idle (s : State) (d : Dp) (asks : d.asks = [])
    (cnt : d.regs.cntVal (Reg.ashCnt 6) = s.dp.regs.cntVal (Reg.ashCnt 6))
    (drains : ∀ q ∈ s.mnt.running, q.act = 14 → ∃ l ∈ d.locks, l.base = q.res) : s.plane d = { s with dp := d } :=
  settle_idle s { s with dp := d } asks cnt drains

theorem dpWhen_true (s : State) (f : Dp → Dp) {ok : Bool} (h : ok = true) : s.dpWhen ok f = s.plane (f s.dp) := by
  simp [dpWhen, h, plane]

theorem allWhen_true (s : State) (f : State → State) {ok : Bool} (h : ok = true) : s.allWhen ok f = s.turned (f s) := by
  simp [allWhen, h, turned]

theorem byHost_live {s : State} (h : s.hostLive = true) (f : Dp → Dp) : s.byHost f = .next (s.plane (f s.dp)) := by
  rw [byHost, dpWhen_true s f h]

theorem byUnit_live {s : State} (h : s.awake = true) (f : Dp → Dp) : s.byUnit f = .next (s.plane (f s.dp)) := by
  rw [byUnit, dpWhen_true s f h]

theorem byPod_live {s : State} (h : s.podLive = true) (f : Dp → Dp) : s.byPod f = .next (s.plane (f s.dp)) := by
  rw [byPod, dpWhen_true s f h]

theorem byKiln_live {s : State} (h : s.kilnLive = true) (f : State → State) : s.byKiln f = .next (s.turned (f s)) := by
  rw [byKiln, allWhen_true s f h]

/-! ### Dispatch -/

/-- A granted descriptor is taken, and its meaning follows (R318, R322). -/
theorem dispatch_granted {s : State} {n : Fin 64} {op : Nat} {mine : List Byte → Bool} {spans : List Byte → List Span}
    {h : Hdr} {bs : List Byte} (g : s.Granted n op mine spans h bs) (body : OpCtx → Dp → Dp) :
    Dp.dispatch s.gates op (fun d n h bs => d.scaleGate n h bs && mine bs) spans body n s.dp =
      (body (s.taken n spans h bs) (s.dp.takeDesc n h).2).fetchHalt n := by
  have e : firstBad ((!knownOp h.op || ((s.dp.ring n).fpoison.take h.slots).any id, 0) ::
      (h.seq ≠ (s.dp.ring n).expSeq, 4) :: hdrBad bs) = none := by
    have k := g.header
    simp only [firstBad, g.opcode, g.known, g.clean, g.order, ne_eq, not_true_eq_false, decide_false, Bool.not_true,
      Bool.or_self] at k ⊢
    exact k
  have p : s.dp.pipeHalts n = none := by simpa using g.program
  have l : (h.op ≠ op && knownOp h.op) = false := by simp [g.opcode]
  have k : (!s.dp.mayDispatch s.gates n || !Dp.waitMet (s.dp.ring n) h || s.dp.heldDesc (s.dp.spaceOf n) h (spans bs) ||
      !(s.dp.scaleGate n h bs && mine bs)) = false := by
    simp [g.ring, g.waits, g.free, g.boundary, g.row]
  have known : knownOp h.op = true := by rw [g.opcode]; exact g.known
  have sec : Dp.secured s.gates h.op bs = false := by rw [g.opcode]; exact g.gate
  unfold Dp.dispatch
  simp only [g.head, p]
  rw [if_neg (by rw [l]; exact Bool.false_ne_true), known]
  simp only [if_true]
  rw [if_neg (by rw [k]; exact Bool.false_ne_true)]
  simp only [sec, Bool.false_eq_true, if_false]
  have e' := e
  rw [known] at e'
  rw [e']
  rfl

/-- What a command of an opcode row answers for a granted descriptor. -/
theorem dispatched_granted {s : State} {n : Fin 64} {op : Nat} {mine : List Byte → Bool} {spans : List Byte → List Span}
    {h : Hdr} {bs : List Byte} (g : s.Granted n op mine spans h bs) (body : OpCtx → Dp → Dp) :
    s.dispatched op mine spans body n = .next (s.dispatches n spans h bs body) := by
  rw [dispatched, byHost_live g.live, dispatch_granted g body]
  rfl

/-- What a command of an opcode row answers for a descriptor about to start. -/
theorem Enters.dispatched {s : State} {n : Fin 64} {op : Nat} {mine : List Byte → Bool} {spans : List Byte → List Span}
    {h : Hdr} {bs : List Byte} {convs : List Conv} {c : OpCtx} {d : Dp} {o : Outst} {a : Dp}
    (e : s.Enters n op mine spans h bs convs c d o a) (body : OpCtx → Dp → Dp) :
    s.dispatched op mine spans body n = .next (s.left n (body c d)) := by
  rw [dispatched_granted e.granted, e.ctx, e.taken]
  rfl

/-- A descriptor about to start that its outcome table accepts starts. -/
theorem Enters.start {s : State} {n : Fin 64} {op : Nat} {mine : List Byte → Bool} {spans : List Byte → List Span}
    {h : Hdr} {bs : List Byte} {convs : List Conv} {c : OpCtx} {d : Dp} {o : Outst} {a : Dp}
    (e : s.Enters n op mine spans h bs convs c d o a) (own : d.sheafForeign n h = false) (v : d.sheafVerdict h = none)
    (room : d.declaring c = .ok) (start : Nat → Outst → Dp → Dp) : Dp.enter c convs start d = start n o a := by
  have b : c.hdr = h ∧ c.ring = n.val := by rw [e.ctx]; exact ⟨rfl, rfl⟩
  rw [Dp.enter, b.1, b.2, own, v, room, e.record, e.entered]
  rfl

theorem Enters.bytes {s : State} {n : Fin 64} {op : Nat} {mine : List Byte → Bool} {spans : List Byte → List Span}
    {h : Hdr} {bs : List Byte} {convs : List Conv} {c : OpCtx} {d : Dp} {o : Outst} {a : Dp}
    (e : s.Enters n op mine spans h bs convs c d o a) :
    c.bytes = bs ∧ c.hdr = h ∧ c.ring = n.val ∧ o.bytes = bs := by
  rw [e.record, e.ctx]
  exact ⟨rfl, rfl, rfl, rfl⟩

end State

/-- No condition is met exactly when none of the list is. -/
theorem firstBad_none {l : List (Bool × Nat)} : firstBad l = none ↔ ∀ x ∈ l, x.1 = false := by
  induction l with
  | nil => simp [firstBad]
  | cons x l ih =>
    obtain ⟨c, o⟩ := x
    cases c
    · simp [firstBad, ih]
    · simp [firstBad]
      cases firstBad l <;> simp

namespace Dp

/-! ### Judgement -/

/-- A descriptor that is not malformed and may never name a sheaf names none. -/
theorem sheafEn_never {d : Dp} {n : Nat} {h : Hdr} {l : List (Bool × Nat)} (f : firstBad (l ++ d.sheafBad n h .never) = none) :
    h.sheafEn = false :=
  firstBad_none.mp f (h.sheafEn, 1) (List.mem_append_right _ (by simp [sheafBad]))

/-- So no sheaf stands in its way. -/
theorem verdict_never {d : Dp} {n : Nat} {h : Hdr} {l : List (Bool × Nat)} (f : firstBad (l ++ d.sheafBad n h .never) = none) :
    d.sheafVerdict h = none := by simp [sheafVerdict, sheafEn_never f]

/-- It is no other ring's either. -/
theorem foreign_never {d : Dp} {n m : Nat} {h : Hdr} {l : List (Bool × Nat)} (f : firstBad (l ++ d.sheafBad n h .never) = none) :
    d.sheafForeign m h = false := by simp [sheafForeign, sheafEn_never f]

/-- And there is nothing to declare. -/
theorem declaring_never {d : Dp} {c : OpCtx} (h : c.hdr.sheafEn = false) : d.declaring c = .ok := by simp [declaring, h]

/-- A descriptor that passes every check of its outcome table goes on. -/
theorem judged_accepted {d : Dp} {c : OpCtx} {bad : List (Bool × Nat)} {rule : Dp.SheafRule} {align overlap : Bool}
    (h : d.Accepts c bad rule align overlap) (go : Dp → Dp) : judged c bad rule align overlap go d = go d := by
  simp [judged, h.form, h.aligned, h.apart]

/-- A descriptor whose sheaf stands in nothing's way becomes outstanding and starts. -/
theorem enter_accepted {d : Dp} {c : OpCtx} (own : d.sheafForeign c.ring c.hdr = false) (h : d.sheafVerdict c.hdr = none)
    (room : d.declaring c = .ok) (convs : List Conv) (start : Nat → Outst → Dp → Dp) :
    enter c convs start d = start c.ring (d.accepted c convs) (d.accept c convs) := by
  simp [enter, own, h, room]

/-- A descriptor that names no sheaf becomes outstanding and starts. -/
theorem enter_never {d : Dp} {c : OpCtx} (h : c.hdr.sheafEn = false) (convs : List Conv) (start : Nat → Outst → Dp → Dp) :
    enter c convs start d = start c.ring (d.accepted c convs) (d.accept c convs) :=
  enter_accepted (by simp [sheafForeign, h]) (by simp [sheafVerdict, h]) (declaring_never h) convs start

theorem cribJudged_room {d : Dp} {c : OpCtx} {halves : List Nat} {need kib : Nat}
    (h : d.cribRefusal halves need kib = none) (go : Dp → Dp) : cribJudged c halves need kib go d = go d := by
  simp [cribJudged, h]

end Dp

namespace State

/-- A descriptor about to start that its outcome table accepts starts. -/
theorem Enters.start_accepted {s : State} {n : Fin 64} {op : Nat} {mine : List Byte → Bool} {spans : List Byte → List Span}
    {h : Hdr} {bs : List Byte} {convs : List Conv} {c : OpCtx} {d : Dp} {o : Outst} {a : Dp} {bad : List (Bool × Nat)}
    {rule : Dp.SheafRule} {align overlap : Bool} (e : s.Enters n op mine spans h bs convs c d o a)
    (ac : d.Accepts c bad rule align overlap) (start : Nat → Outst → Dp → Dp) : Dp.enter c convs start d = start n o a := by
  obtain ⟨_, eh, er, _⟩ := e.bytes
  exact e.start (by rw [← eh, ← er]; exact ac.own) (by rw [← eh]; exact ac.sheaf) ac.room start

/-- A descriptor about to start that is not malformed and may name no sheaf starts. -/
theorem Enters.start_never {s : State} {n : Fin 64} {op : Nat} {mine : List Byte → Bool} {spans : List Byte → List Span}
    {h : Hdr} {bs : List Byte} {convs : List Conv} {c : OpCtx} {d : Dp} {o : Outst} {a : Dp} {l : List (Bool × Nat)}
    (e : s.Enters n op mine spans h bs convs c d o a) (f : firstBad (l ++ d.sheafBad n h .never) = none)
    (start : Nat → Outst → Dp → Dp) : Dp.enter c convs start d = start n o a := by
  obtain ⟨_, eh, _, _⟩ := e.bytes
  exact e.start (Dp.foreign_never f) (Dp.verdict_never f) (Dp.declaring_never (by rw [eh]; exact Dp.sheafEn_never f)) start

end State
end Sys2Proof.Machine
end

