-- ==== Sys2Proof/Laws/Bytes.lean ====
section
/-!
SUPPORT. Bytes of numbers: a number written little-endian and read back, and numbers built bit by bit.
-/
namespace Sys2Proof.Machine

/-- A number built bit by bit: its size and its bits. -/
theorem fold_bits (p : Nat → Bool) : ∀ n,
    (List.range n).foldl (fun a i => if p i then a + 2 ^ i else a) 0 < 2 ^ n ∧
    ∀ i, ((List.range n).foldl (fun a i => if p i then a + 2 ^ i else a) 0).testBit i = (decide (i < n) && p i) := by
  intro n
  induction n with
  | zero => simp
  | succ n ih =>
    rw [List.range_succ, List.foldl_append]
    simp only [List.foldl_cons, List.foldl_nil]
    generalize (List.range n).foldl (fun a i => if p i then a + 2 ^ i else a) 0 = v at ih
    obtain ⟨l, b⟩ := ih
    have pw : 2 ^ (n + 1) = 2 ^ n + 2 ^ n := by omega
    refine ⟨by split <;> omega, fun i => ?_⟩
    split
    · rename_i h
      rw [Nat.add_comm]
      by_cases e : i = n
      · subst e
        rw [Nat.testBit_two_pow_add_eq, b]; simp [h]
      · rcases Nat.lt_or_gt_of_ne e with e | e
        · rw [Nat.testBit_two_pow_add_gt (by omega), b]; simp [e]; intro; omega
        · rw [Nat.testBit_lt_two_pow (Nat.lt_of_lt_of_le (by omega : 2 ^ n + v < 2 ^ (n+1)) (Nat.pow_le_pow_right (by omega) e))]
          simp; omega
    · rename_i h
      rw [b]
      by_cases e : i = n
      · subst e; simp [h]
      · have : (i < n) ↔ (i < n + 1) := by omega
        simp [this]

theorem length_toLe (k n : Nat) : (toLe k n).length = k := by
  induction k generalizing n with
  | zero => rfl
  | succ k ih => simp [toLe, ih]

theorem leNat_toLe (k n : Nat) : leNat (toLe k n) = n % 256 ^ k := by
  induction k generalizing n with
  | zero => simp [toLe, leNat, Nat.mod_one]
  | succ k ih =>
    rw [Nat.pow_succ, Nat.mul_comm (256 ^ k) 256, Nat.mod_mul]
    simp only [toLe, leNat, ih, BitVec.toNat_ofNat]

theorem leAt_toLe (k n : Nat) : leAt (toLe k n) 0 k = n % 256 ^ k := by
  unfold leAt slice
  simp only [List.drop_zero]
  rw [List.take_of_length_le (by rw [length_toLe] <;> omega), length_toLe]
  simp [leNat_toLe]

/-- A field behind other bytes. -/
theorem leAt_skip (a b : List Byte) (o k : Nat) (h : a.length ≤ o) : leAt (a ++ b) o k = leAt b (o - a.length) k := by
  unfold leAt slice
  rw [List.drop_append, List.drop_eq_nil_of_le h, List.nil_append]

/-- A number in front of other bytes. -/
theorem leAt_head (k n : Nat) (b : List Byte) (h : n < 256 ^ k) : leAt (toLe k n ++ b) 0 k = n := by
  have : slice (toLe k n ++ b) 0 k = toLe k n := by
    unfold slice
    simp only [List.drop_zero]
    rw [List.take_append_of_le_length (by rw [length_toLe] <;> omega), List.take_of_length_le (by rw [length_toLe] <;> omega), length_toLe]
    simp
  unfold leAt
  rw [this, leNat_toLe, Nat.mod_eq_of_lt h]

end Sys2Proof.Machine
end

