-- ==== Sys2Proof/Laws/Keeps.lean ====
section
/-!
SUPPORT. What the operations of Kiln, of the board, of resets and of the commands' meanings keep (`Keeps`), one lemma per
operation.
-/
namespace Sys2Proof.Machine
open State
namespace Kiln
theorem sound_fresh {k : Kiln} (g : ∀ i, (k.gens i).length ≤ 4) (d : k.debug = 0) (s : k.sessions = []) : Sound k :=
  ⟨g, by omega, fun h => by omega, fun _ => s⟩

theorem grows_darkKiln (k : Kiln) : Grows k (darkKiln k) := Grows.of_eq rfl rfl rfl
theorem sound_darkKiln {k : Kiln} (s : Sound k) : Sound (darkKiln k) := sound_fresh s.gens rfl rfl
theorem grows_warmKiln (k : Kiln) : Grows k (warmKiln k) := Grows.of_eq rfl rfl rfl
theorem sound_warmKiln {k : Kiln} (s : Sound k) : Sound (warmKiln k) :=
  ⟨s.gens, by simp [warmKiln], fun h => by simp [warmKiln] at h, s.ended⟩
theorem sound_setLevel {k : Kiln} (s : Sound k) {v : Nat} (h : v ≤ 2) : Sound (k.setLevel v) := by
  unfold setLevel
  split
  · exact ⟨s.gens, by simp, fun _ => rfl, fun _ => rfl⟩
  · rename_i n
    exact ⟨s.gens, h, fun e => absurd e n, s.ended⟩
theorem sound_retire {k : Kiln} (s : Sound k) : Sound k.retire := ⟨s.gens, s.level, s.shut, fun _ => rfl⟩
theorem alike_install (k : Kiln) (img : List Byte) : Alike k (k.install img) := by
  unfold install
  simp only []
  by_cases c : (if 5 < leAt img 4 1 then 1 else k.segReason (leAt img 4 1) img) = 0
  · simp only [c, if_true]
    exact ⟨rfl, rfl, rfl, rfl, rfl, rfl⟩
  · simp only [c, if_false]
    exact ⟨rfl, rfl, rfl, rfl, rfl, rfl⟩
theorem alike_installs (l : List (List Byte)) (k : Kiln) : Alike k (l.foldl install k) := by
  induction l generalizing k with
  | nil => exact Alike.refl k
  | cons a l ih => exact (alike_install k a).trans (ih _)
theorem alike_recover (k : Kiln) (l : List (List Byte)) : Alike k (k.recover l) := by
  have a : Alike k { k with rcvReason := 0 } := ⟨rfl, rfl, rfl, rfl, rfl, rfl⟩
  have b := (a.trans (alike_installs l _)).trans (alike_boot _)
  revert b
  unfold recover
  generalize l.foldl install { k with rcvReason := 0 } = X
  simp only []
  generalize X.boot = Y
  exact fun b => ⟨b.words, b.rb, b.retired, b.debug, b.closed, b.sessions⟩
end Kiln
namespace State
variable {w : Ways}
theorem keeps_wakeCheck (old s : State) : Keeps w s (wakeCheck old s) := by
  unfold wakeCheck; simp only []; split <;> exact Keeps.of_eq rfl rfl
theorem keeps_event (s : State) (f) : Keeps w s (s.event f) := by
  unfold event; simp only []; split <;> exact Keeps.of_eq rfl rfl
theorem keeps_fatal (s : State) (c) : Keeps w s (s.fatal c) := (keeps_event s _).trans (keeps_wakeCheck _ _)
theorem keeps_finishOtp (s : State) : Keeps w s s.finishOtp := Keeps.foldl (fun s q => keeps_endEffect s q) _ _
theorem keeps_powerLoss (s : State) (v) : Keeps w s (s.powerLoss v) := by
  unfold powerLoss
  simp only []
  have h : ∀ s : State, Keeps w s { s with
    dp := if s.pwr.aux then darkDp s.dp else { darkDp s.dp with ash := {} }
    kiln := darkKiln s.kiln
    mnt := {}
    dbg := {}
    pwr := { aux := s.pwr.aux, hearth := s.pwr.aux && s.pwr.hearth, supply := .off, vin := v, perst := true, refOk := s.pwr.refOk,
             lock := s.pwr.lock, refLost := s.pwr.refLost, link := false, memActive := false, trip := s.pwr.trip, tripOpen := s.pwr.tripOpen,
             wake := s.pwr.wake && s.pwr.aux, pme := s.pwr.pme && s.pwr.aux, i3c := if s.pwr.aux then s.pwr.i3c else 0,
             eid := if s.pwr.aux then s.pwr.eid else 0,
             sensors := s.pwr.sensors.filter fun e => 36 ≤ e.1 } } := fun s =>
    ⟨rfl, Kiln.grows_darkKiln _, Kiln.sound_darkKiln, fun _ => Nat.zero_le _, fun _ => rfl, fun _ h => h⟩
  refine Keeps.trans ?_ (h _)
  split
  · exact keeps_finishOtp s
  · exact Keeps.refl s
theorem keeps_vinRise (s : State) (v) : Keeps w s (s.vinRise v) := by
  unfold vinRise; repeat' split
  all_goals exact Keeps.of_eq rfl rfl
theorem keeps_prechargeDone (s : State) : Keeps w s s.prechargeDone := by
  unfold prechargeDone; split <;> exact Keeps.of_eq rfl rfl
theorem keeps_hearthStart (s : State) (b) : Keeps w s (s.hearthStart b) := by
  unfold hearthStart; simp only []; split
  · exact Keeps.of_eq rfl rfl
  · exact Keeps.of_alike rfl (Kiln.Alike.trans (b := { s.kiln with bootErr := 0 }) ⟨rfl, rfl, rfl, rfl, rfl, rfl⟩ (Kiln.alike_bootSeg _ 0))
theorem keeps_auxLoss (s : State) : Keeps w s s.auxLoss := by
  unfold auxLoss; simp only []; split
  · exact Keeps.of_eq rfl rfl
  · exact Keeps.of_alike rfl ⟨rfl, rfl, rfl, rfl, rfl, rfl⟩
theorem keeps_vinOut (s : State) (v) : Keeps w s (s.vinOut v) := by
  unfold vinOut; split
  · exact Keeps.after (keeps_fatal _ 6) rfl rfl
  · exact Keeps.refl s
theorem keeps_vinCollapse (s : State) (v) : Keeps w s (s.vinCollapse v) := by
  unfold vinCollapse; simp only []; split
  · refine Keeps.trans ?_ (keeps_wakeCheck _ _)
    refine Keeps.trans ?_ (keeps_powerLoss _ _)
    split
    · exact keeps_event _ _
    · exact Keeps.refl s
  · exact Keeps.refl s
theorem keeps_overcurrent (s : State) : Keeps w s s.overcurrent := by
  unfold overcurrent; split
  · exact (keeps_fatal _ _).trans (keeps_powerLoss _ _)
  · exact Keeps.refl s
theorem keeps_referenceLost (s : State) : Keeps w s s.referenceLost := by
  unfold referenceLost; simp only []; split
  · exact Keeps.refl s
  · split
    · exact Keeps.of_eq rfl rfl
    · have k : Keeps w s (fatal { s with pwr := { s.pwr with refOk := false, lock := false } } 1) := Keeps.after (keeps_fatal _ _) rfl rfl
      revert k
      generalize fatal { s with pwr := { s.pwr with refOk := false, lock := false } } 1 = X
      exact fun k => k.trans (Keeps.of_eq rfl rfl)
theorem keeps_rootLock (s : State) : Keeps w s s.rootLock := by
  unfold rootLock; split <;> exact Keeps.of_eq rfl rfl
theorem keeps_read (s : State) (n v) : Keeps w s (s.read n v) := by
  unfold read; split <;> exact Keeps.of_eq rfl rfl
theorem keeps_thermalNotice (s : State) (a b c) : Keeps w s (s.thermalNotice a b c) :=
  (keeps_event s _).trans (keeps_wakeCheck _ _)
theorem keeps_throttleStart (s : State) (n v) : Keeps w s (s.throttleStart n v) := by
  unfold throttleStart; simp only []; split
  · exact Keeps.refl s
  · refine Keeps.trans ?_ (keeps_thermalNotice _ _ _ _)
    refine Keeps.trans ?_ (keeps_steer _)
    exact (keeps_read s n _).trans (Keeps.of_eq rfl rfl)
theorem keeps_throttleEscalate (s : State) (n v) : Keeps w s (s.throttleEscalate n v) := by
  unfold throttleEscalate; simp only []; split
  · exact Keeps.refl s
  · refine Keeps.trans ?_ (keeps_steer _)
    exact (keeps_read s n _).trans (Keeps.of_eq rfl rfl)
theorem keeps_throttleEnd (s : State) (n v) : Keeps w s (s.throttleEnd n v) := by
  unfold throttleEnd; simp only []; split
  · exact Keeps.refl s
  · refine Keeps.trans ?_ (keeps_absorb _)
    refine Keeps.trans ?_ (keeps_scan _)
    refine Keeps.trans ?_ (keeps_thermalNotice _ _ _ _)
    exact (keeps_read s n _).trans (Keeps.of_eq rfl rfl)
theorem keeps_powerForced (s : State) (a b) : Keeps w s (s.powerForced a b) := by
  unfold powerForced
  simp only []
  refine Keeps.trans ?_ (keeps_wakeCheck _ _)
  exact Keeps.after (keeps_steer _) rfl rfl
theorem keeps_powerCap (s : State) (a b c) : Keeps w s (s.powerCap a b c) := by
  unfold powerCap
  simp only []
  split
  · exact Keeps.refl s
  · split
    · exact Keeps.refl s
    · exact Keeps.after (keeps_powerForced _ _ _) rfl rfl
theorem keeps_excursion (s : State) (a) : Keeps w s (s.excursion a) := by
  unfold excursion; split
  · exact Keeps.refl s
  · exact Keeps.after (keeps_powerForced _ _ _) rfl rfl
theorem keeps_currentLimited (s : State) : Keeps w s s.currentLimited := by
  unfold currentLimited; split
  · exact Keeps.refl s
  · exact Keeps.after (keeps_steer _) rfl rfl
theorem keeps_capRelease (s : State) (a) : Keeps w s (s.capRelease a) := by
  unfold capRelease; split
  · exact Keeps.refl s
  · refine Keeps.trans ?_ (keeps_absorb _)
    exact Keeps.after (keeps_scan _) rfl rfl
theorem keeps_thermalTrip (s : State) (n v) : Keeps w s (s.thermalTrip n v) := by
  unfold thermalTrip
  generalize (if n < 32 then (1760 : Int) else 1520) = lim
  simp only []
  by_cases c : (!s.pwr.main || s.pwr.trip || decide (v < lim)) = true
  all_goals simp only [c, if_true]
  · exact Keeps.refl s
  · refine Keeps.trans ?_ (keeps_fatal _ _)
    refine Keeps.trans ?_ (keeps_thermalNotice _ _ _ _)
    refine Keeps.trans ?_ (keeps_applyClock _ _ _)
    exact Keeps.after (keeps_applyClock _ _ _) rfl rfl
theorem keeps_tripOpens (s : State) : Keeps w s s.tripOpens := by
  unfold tripOpens; split
  · exact (keeps_powerLoss s s.pwr.vin).trans (Keeps.of_eq rfl rfl)
  · exact Keeps.refl s
theorem keeps_endRunning (s : State) (q) : Keeps w s (s.endRunning q) := by
  unfold endRunning; split
  · exact ((keeps_leave s _).trans (keeps_endEffect _ q)).trans (keeps_report _ _ _ _)
  · exact keeps_breakOff _ _ _
theorem keeps_hearthAsks (s : State) (a r) : Keeps w s (s.hearthAsks a r) := keeps_submit _ _
theorem keeps_askAgain (s : State) (l) : Keeps w s (s.askAgain l) := by
  unfold askAgain; split
  · exact Keeps.foldl (fun s q => keeps_hearthAsks s _ _) _ _
  · exact Keeps.refl s
theorem keeps_endMaintenance (s : State) : Keeps w s s.endMaintenance :=
  (Keeps.foldl (fun s q => keeps_endRunning s q) _ s).trans (Keeps.foldl (fun s q => keeps_withdraw s _ q) _ _)
theorem keeps_withNotices (s : State) (f) : Keeps w s (s.withNotices f) := Keeps.of_eq rfl rfl
theorem keeps_endUnnoticed (s : State) : Keeps w s s.endUnnoticed :=
  ((keeps_withNotices s _).trans (keeps_endMaintenance _)).trans (keeps_withNotices _ _)
theorem keeps_warm (s : State) : Keeps w s s.warm := by
  unfold warm
  simp only []
  refine Keeps.trans ?_ (keeps_steer _)
  refine Keeps.trans ?_ (keeps_askAgain _ _)
  exact (keeps_endUnnoticed s).trans ⟨rfl, Kiln.grows_warmKiln _, Kiln.sound_warmKiln, fun _ => Nat.zero_le _, fun _ => rfl, fun _ h => h⟩
theorem keeps_warmReset (s : State) (h) : Keeps w s (s.warmReset h) := by
  unfold warmReset
  simp only []
  split
  · exact Keeps.refl s
  · split <;> exact (keeps_warm s).trans (Keeps.of_eq rfl rfl)
theorem keeps_flr (s : State) : Keeps w s s.flr := by
  unfold flr; split
  · exact keeps_warm s
  · exact Keeps.refl s
theorem keeps_perstRises (s : State) : Keeps w s s.perstRises := by
  unfold perstRises; split
  · exact Keeps.refl s
  · exact Keeps.of_alike rfl ⟨rfl, rfl, rfl, rfl, rfl, rfl⟩
theorem keeps_coldReset (hw : w.cold = true) (s : State) : Keeps w s s.coldReset := by
  unfold coldReset
  simp only []
  split
  · exact Keeps.of_eq rfl rfl
  · split
    · exact Keeps.refl s
    · have a := Kiln.alike_boot { darkKiln s.kiln with closed := false }
      exact ⟨rfl, (Kiln.Grows.of_eq rfl rfl rfl : Kiln.Grows s.kiln { darkKiln s.kiln with closed := false }).trans a.grows,
        fun h => a.sound (Kiln.sound_fresh h.gens rfl rfl), fun _ => by rw [show _ = _ from a.debug]; exact Nat.zero_le _,
        fun _ => a.retired, fun e => by rw [hw] at e; cases e⟩
theorem keeps_trainedNow (s : State) (a u) : Keeps w s (s.trainedNow a u) := Keeps.of_eq rfl rfl
theorem keeps_memtrain (s : State) : Keeps w s s.memtrain := by
  unfold memtrain
  simp only []
  split
  · exact Keeps.refl s
  · refine Keeps.trans ?_ (Keeps.foldl (fun s u => keeps_trainedNow s 2 u) _ _)
    refine Keeps.after (Keeps.foldl (fun s u => ?_) _ _) rfl rfl
    exact (keeps_trainedNow s 1 u).trans (keeps_trainedNow _ 3 u)
theorem keeps_recoveryGo (s : State) (l) : Keeps w s (s.recoveryGo l) := by
  unfold recoveryGo; split
  · exact Keeps.refl s
  · exact Keeps.of_alike rfl (Kiln.alike_recover _ _)
theorem keeps_halfReset (s : State) (h) : Keeps w s (s.halfReset h) := by
  unfold halfReset
  simp only []
  split
  · exact Keeps.refl s
  · refine Keeps.trans ?_ (keeps_absorb _)
    refine Keeps.trans ?_ (keeps_askAgain _ _)
    exact (Keeps.foldl (fun s q => keeps_endRunning s q) _ s).trans (Keeps.of_eq rfl rfl)
theorem keeps_halfExit (s : State) (h) : Keeps w s (s.halfExit h) := by
  unfold halfExit; split <;> exact Keeps.of_eq rfl rfl
theorem keeps_d3hotEntry (s : State) : Keeps w s s.d3hotEntry := by
  unfold d3hotEntry
  simp only []
  split
  · exact Keeps.refl s
  · have k : Keeps w s (absorb { s with dp := s.dp.endRings }) := Keeps.after (keeps_absorb _) rfl rfl
    have k := k.trans (keeps_endMaintenance _)
    revert k
    generalize endMaintenance (absorb { s with dp := s.dp.endRings }) = X
    exact fun k => k.trans (Keeps.of_eq rfl rfl)
theorem keeps_d3hotExit (s : State) : Keeps w s s.d3hotExit := by
  unfold d3hotExit; split <;> exact Keeps.of_eq rfl rfl
/-! kiln -/
theorem keeps_answer (s : State) (a) : Keeps w s (s.answer a) := Keeps.of_eq rfl rfl
theorem token_value {k : Kiln} {b : Bool} {t : List Byte} (h : k.tokenResult b t = 1) : leAt t 5 1 ≤ 2 := by
  unfold Kiln.tokenResult at h
  simp only [] at h
  split at h
  · cases h
  · rename_i n
    simp only [Bool.or_eq_true, decide_eq_true_eq, not_or] at n
    omega
theorem keeps_tokenActs (hw : w.token = true) {s : State} {t : List Byte} (h : leAt t 5 1 ≤ 2) : Keeps w s (s.tokenActs t) := by
  unfold tokenActs
  simp only []
  split
  · exact ⟨rfl, Kiln.grows_setLevel _ _, fun x => Kiln.sound_setLevel x h, fun e => by rw [hw] at e; (cases e), fun e => by rw [hw] at e; (cases e),
      fun _ e => by unfold Kiln.setLevel; (split; rfl; exact e)⟩
  · split
    · exact ⟨rfl, Kiln.grows_retire _, Kiln.sound_retire, fun e => by rw [hw] at e; (cases e), fun e => by rw [hw] at e; (cases e), fun _ e => e⟩
    · exact keeps_admitNow _ _
theorem keeps_token (hw : w.token = true) (s : State) (t) : Keeps w s (s.token t) := by
  unfold token
  simp only []
  have a : Keeps w s { s with kiln := { s.kiln with nonceOut := false, tokRes := s.kiln.tokenResult s.mnt.staged.isSome t } } :=
    Keeps.of_alike rfl ⟨rfl, rfl, rfl, rfl, rfl, rfl⟩
  split
  · rename_i h
    exact a.trans (keeps_tokenActs hw (token_value h))
  · exact a
theorem keeps_drawNonce (s : State) : Keeps w s s.drawNonce := Keeps.of_alike rfl ⟨rfl, rfl, rfl, rfl, rfl, rfl⟩
theorem keeps_otpWrite (s : State) (q) : Keeps w s (s.otpWrite q) := by
  unfold otpWrite
  simp only []
  split
  · split <;> exact Keeps.of_eq rfl rfl
  · exact keeps_admitNow _ _
theorem keeps_otpProg (s : State) (b) : Keeps w s (s.otpProg b) := keeps_otpWrite _ _
theorem keeps_otpRbAdv (s : State) (a b) : Keeps w s (s.otpRbAdv a b) := by
  unfold otpRbAdv; split
  · exact Keeps.refl s
  · exact keeps_otpWrite _ _
theorem keeps_windowWrite (s : State) (a b c) : Keeps w s (s.windowWrite a b c) := by
  unfold windowWrite; split <;> exact Keeps.of_eq rfl rfl
theorem keeps_stokerHalt (s : State) (a) : Keeps w s (s.stokerHalt a) := by
  unfold stokerHalt; split <;> exact Keeps.of_eq rfl rfl
theorem keeps_stokerStep (s : State) (a) : Keeps w s (s.stokerStep a) := by
  unfold stokerStep; split <;> exact Keeps.of_eq rfl rfl
theorem keeps_spdm (s : State) (tr : Nat) (r : Spdm) (hw : ∀ t, r = .token t → w.token = true) : Keeps w s (s.spdm tr r) := by
  unfold spdm
  split
  · exact keeps_answer _ _
  · split <;> exact keeps_answer _ _
  · split
    · exact keeps_answer _ _
    · split
      · exact keeps_answer _ _
      · exact Keeps.of_eq rfl rfl
  · split
    · exact keeps_answer _ _
    · split
      · exact keeps_answer _ _
      · exact Keeps.of_eq rfl rfl
  · split
    · exact keeps_answer _ _
    · split
      · exact keeps_answer _ _
      · rename_i g _
        refine Keeps.of_words rfl (Kiln.Grows.of_eq rfl rfl rfl) (fun h => ⟨h.gens, h.level, h.shut, fun e => ?_⟩) rfl rfl rfl
        exfalso
        revert g e
        simp only [answer, signs]
        cases s.kiln.closed <;> cases s.kiln.retired <;> simp
  · exact keeps_answer _ _
  · exact keeps_answer _ _
  · split
    · refine Keeps.of_words rfl (Kiln.Grows.of_eq rfl rfl rfl) (fun h => ⟨h.gens, h.level, h.shut, fun e => ?_⟩) rfl rfl rfl
      have := h.ended e
      simp [answer, this]
    · exact keeps_answer _ _
  · exact (keeps_drawNonce s).trans (keeps_answer _ _)
  · exact (keeps_token (hw _ rfl) s _).trans (keeps_answer _ _)
  · exact keeps_answer _ _
  · exact (keeps_windowWrite s _ _ _).trans (keeps_answer _ _)
  · exact keeps_answer _ _
theorem keeps_ideKey (s : State) (a b c) : Keeps w s (s.ideKey a b c) := by
  unfold ideKey; split
  · exact Keeps.of_alike rfl ⟨rfl, rfl, rfl, rfl, rfl, rfl⟩
  · exact Keeps.refl s
theorem keeps_pldm (s : State) (a b) : Keeps w s (s.pldm a b) := by
  unfold pldm
  simp only []
  split
  · exact keeps_answer _ _
  · split
    · exact keeps_answer _ _
    · exact (keeps_answer s _).trans (keeps_submit _ _)
theorem keeps_swap (s : State) : Keeps w s s.swap := by
  unfold swap; split
  · exact Keeps.refl s
  · split
    · exact Keeps.refl s
    · exact Keeps.of_alike rfl ⟨rfl, rfl, rfl, rfl, rfl, rfl⟩
theorem keeps_domainWrite (s : State) (a b c) : Keeps w s (s.domainWrite a b c) := by
  unfold domainWrite; split
  · exact Keeps.of_eq rfl rfl
  · exact keeps_admitNow _ _
theorem keeps_scrubPass (s : State) (r) : Keeps w s (s.scrubPass r) := by
  unfold scrubPass; split <;> exact Keeps.of_eq rfl rfl
theorem keeps_autoAsk (s : State) (a b) : Keeps w s (s.autoAsk a b) := by
  unfold autoAsk; split
  · exact keeps_hearthAsks _ _ _
  · exact Keeps.refl s
theorem keeps_autoRetrain (s : State) (a b) : Keeps w s (s.autoRetrain a b) := by
  unfold autoRetrain
  simp only []
  split
  · exact keeps_autoAsk _ _ _
  · exact Keeps.refl s
theorem keeps_turn (s : State) (a b) : Keeps w s (s.turn a b) := keeps_allWhen fun _ => keeps_judge _ _ _
theorem keeps_takeReading (s : State) (r) : Keeps w s (s.takeReading r) := by
  unfold takeReading
  simp only []
  repeat' split
  all_goals exact Keeps.of_eq rfl rfl
theorem keeps_sample (s : State) (l) : Keeps w s (s.sample l) := by
  unfold sample
  generalize (if s.pwr.main then l else if s.pwr.hearth then l.filter fun r => r.1 = 8 && 36 ≤ r.2.1 else []) = on
  simp only []
  have k : Keeps w s _ := Keeps.foldl (fun s r => keeps_takeReading s r) (on.map s.reported) s
  revert k
  generalize (on.map s.reported).foldl takeReading s = X
  intro k
  split
  · exact k.trans (Keeps.of_eq rfl rfl)
  · exact k
theorem keeps_tokWrite (s : State) (a b c) : Keeps w s (s.tokWrite a b c) := by
  unfold tokWrite; split
  · exact Keeps.refl s
  · exact Keeps.of_alike rfl ⟨rfl, rfl, rfl, rfl, rfl, rfl⟩
theorem keeps_writeReg (s : State) (a b c) : Keeps w s (s.writeReg a b c) := by
  unfold writeReg
  split
  · exact keeps_dpWhen _ _ _
  · split
    · exact Keeps.refl s
    · split
      · exact keeps_tokWrite _ _ _ _
      · exact keeps_dpWhen _ _ _
theorem keeps_askClock (o s : State) (h) : Keeps w s (askClock o s h) := by
  unfold askClock; simp only []; split
  · exact Keeps.refl s
  · exact keeps_submit _ _
theorem keeps_askIdle (o s : State) : Keeps w s (askIdle o s) := by
  unfold askIdle; simp only []; split
  · exact Keeps.refl s
  · exact keeps_submit _ _
theorem keeps_commitBlock (s : State) (b) : Keeps w s (s.commitBlock b) := by
  unfold commitBlock
  simp only []
  have a : Keeps w s { s with dp := s.dp.commit b } := Keeps.of_eq rfl rfl
  split
  · exact (a.trans (keeps_askClock _ _ _)).trans (keeps_askClock _ _ _)
  · exact a.trans (keeps_askIdle _ _)
  · split
    · exact Keeps.refl s
    · exact a
  · exact a
end State


end Sys2Proof.Machine
end

