-- ==== Sys2Proof/Laws/Memory.lean ====
section
/-!
SUPPORT. Memory: every operation keeps the canonical form of both memories, and what a byte reads as after a write.
-/
namespace Sys2Proof.Machine

namespace Dp

variable (d : Dp)

/-! ### The canonical form -/

theorem wf_setDpa {d : Dp} (h : d.mem.wf = true) (a : Nat) (b : Byte) : (d.setDpa a b).mem.wf = true := by
  simp only [Mem.wf, Bool.and_eq_true] at h ⊢
  exact ⟨Tab.wf_set h.1 a b, h.2⟩

theorem wf_setHost {d : Dp} (h : d.mem.wf = true) (a : Nat) (b : Byte) : (d.setHost a b).mem.wf = true := by
  simp only [Mem.wf, Bool.and_eq_true] at h ⊢
  exact ⟨h.1, Tab.wf_set h.2 a b⟩

theorem wf_setDpas {d : Dp} (h : d.mem.wf = true) (a : Nat) (bs : List Byte) : (d.setDpas a bs).mem.wf = true := by
  induction bs generalizing d a with
  | nil => exact h
  | cons b bs ih => exact ih (wf_setDpa h a b) (a + 1)

theorem wf_setHosts {d : Dp} (h : d.mem.wf = true) (a : Nat) (bs : List Byte) : (d.setHosts a bs).mem.wf = true := by
  induction bs generalizing d a with
  | nil => exact h
  | cons b bs ih => exact ih (wf_setHost h a b) (a + 1)

/-- What a line held before is all that keeping it changes. -/
theorem keepPast_eq (line : Nat) :
    d.keepPast line = { d with mem := { d.mem with past := (d.keepPast line).mem.past } } := by
  unfold keepPast
  split <;> rfl

theorem wf_keepPast {d : Dp} (h : d.mem.wf = true) (line : Nat) : (d.keepPast line).mem.wf = true := by
  rw [keepPast_eq]
  exact h

@[simp] theorem dpaByte_keepPast (line x : Nat) : (d.keepPast line).dpaByte x = d.dpaByte x := by
  rw [keepPast_eq]
  rfl

@[simp] theorem hostByte_keepPast (line x : Nat) : (d.keepPast line).hostByte x = d.hostByte x := by
  rw [keepPast_eq]
  rfl

@[simp] theorem isPoisoned_keepPast (line x : Nat) : (d.keepPast line).isPoisoned x = d.isPoisoned x := by
  rw [keepPast_eq]
  rfl

theorem wf_copyLine {d : Dp} (h : d.mem.wf = true) (src dst : Nat) : (d.copyLine src dst).mem.wf = true := by
  have k (p : Bool) (e : Dp) (h : e.mem.wf = true) (bs : List Byte) :
      (if p then (e.setDpas dst bs).poisonLine dst else (e.setDpas dst bs).cleanLine dst).mem.wf = true := by
    have l := wf_setDpas h dst bs
    cases p <;> exact l
  exact k _ _ (wf_keepPast h _) _

theorem wf_copyLines {d : Dp} (h : d.mem.wf = true) (src dst n : Nat) : (d.copyLines src dst n).mem.wf = true := by
  induction n generalizing d src dst with
  | zero => exact h
  | succ n ih => exact ih (wf_copyLine h src dst) _ _

/-! ### Reads after writes -/

theorem dpaByte_setDpa (a x : Nat) (b : Byte) : (d.setDpa a b).dpaByte x = if x = a then b else d.dpaByte x := Tab.get_set ..

theorem hostByte_setHost (a x : Nat) (b : Byte) : (d.setHost a b).hostByte x = if x = a then b else d.hostByte x := Tab.get_set ..

@[simp] theorem hostByte_setDpa (a x : Nat) (b : Byte) : (d.setDpa a b).hostByte x = d.hostByte x := rfl

@[simp] theorem dpaByte_setHost (a x : Nat) (b : Byte) : (d.setHost a b).dpaByte x = d.dpaByte x := rfl

/-- A byte after a run of bytes has been written: the byte written there, else as before. -/
theorem dpaByte_setDpas (a x : Nat) (bs : List Byte) :
    (d.setDpas a bs).dpaByte x = if a ≤ x ∧ x < a + bs.length then bs[x - a]?.getD 0 else d.dpaByte x := by
  induction bs generalizing d a with
  | nil => simp [setDpas] <;> intro h k <;> omega
  | cons b bs ih =>
    rw [setDpas, ih, dpaByte_setDpa]
    by_cases e : x = a
    · subst e
      simp <;> intro h <;> omega
    · by_cases k : a ≤ x ∧ x < a + (b :: bs).length
      · have k' : a + 1 ≤ x ∧ x < a + 1 + bs.length := by simp at k; omega
        rw [if_pos k', if_pos k]
        have : x - a = (x - (a + 1)) + 1 := by omega
        rw [this, List.getElem?_cons_succ]
      · have k' : ¬(a + 1 ≤ x ∧ x < a + 1 + bs.length) := by simp at k; omega
        rw [if_neg k', if_neg k, if_neg e]

theorem hostByte_setDpas (a x : Nat) (bs : List Byte) : (d.setDpas a bs).hostByte x = d.hostByte x := by
  induction bs generalizing d a with
  | nil => rfl
  | cons b bs ih => rw [setDpas, ih, hostByte_setDpa]

theorem setDpas_poison (a : Nat) (bs : List Byte) : (d.setDpas a bs).mem.poison = d.mem.poison := by
  induction bs generalizing d a with
  | nil => rfl
  | cons b bs ih => rw [setDpas, ih]; rfl

theorem isPoisoned_poisonLine (a x : Nat) : (d.poisonLine a).isPoisoned x = if x / 128 = a / 128 then true else d.isPoisoned x :=
  Tab.get_set (fun _ => false) d.mem.poison (a / 128) (x / 128) true

theorem isPoisoned_cleanLine (a x : Nat) : (d.cleanLine a).isPoisoned x = if x / 128 = a / 128 then false else d.isPoisoned x :=
  Tab.get_set (fun _ => false) d.mem.poison (a / 128) (x / 128) false

end Dp

/-- The memories after reset are in the canonical form. -/
theorem reset_mem_wf : State.reset.dp.mem.wf = true := rfl

end Sys2Proof.Machine
end

