-- ==== Sys2Proof/Laws/Store.lean ====
section
/-!
SUPPORT. Pieces of work run step by step, and the store path: what a batch of stores can change.
-/
namespace Sys2Proof.Machine

namespace Dp

theorem find_map {f : Frame → Frame} {p : Frame → Bool} (h : ∀ x, p (f x) = p x) (l : List Frame) :
    (l.map f).find? p = (l.find? p).map f := by
  induction l with
  | nil => rfl
  | cons x l ih =>
    rw [List.map_cons, List.find?_cons, List.find?_cons, h]
    cases p x
    · exact ih
    · rfl

theorem walkFrom_frames (d : Dp) (fs : List Frame) (va : Nat) : ∀ (fuel : Nat) (l : Level) (b : Nat),
    ({ d with mem := { d.mem with frames := fs } } : Dp).walkFrom va fuel l b = d.walkFrom va fuel l b := by
  intro fuel
  induction fuel with
  | zero => intro l b; rfl
  | succ n ih =>
    intro l b
    unfold walkFrom
    simp only [ih]
    rfl

/-- Marking a frame dirty changes no translation. -/
theorem translate_touch (d : Dp) (a sp va : Nat) (wr sh : Bool) : (d.touchFrame a).translate sp va wr sh = d.translate sp va wr sh := by
  unfold translate
  have w : (d.touchFrame a).walk sp va = d.walk sp va := by
    have k : (d.touchFrame a).walkEntry sp va = d.walkEntry sp va := by
      unfold walkEntry touchFrame
      simp only [walkFrom_frames]
      rfl
    unfold walk
    rw [k]
  rw [w]
  split
  · rfl
  · rename_i l _
    unfold judge
    dsimp only
    have f : ∀ x, ((d.touchFrame a).frameAt x).any (fun f => decide (f.space = sp) && decide (f.page = va / l.size * l.size)) =
        (d.frameAt x).any (fun f => decide (f.space = sp) && decide (f.page = va / l.size * l.size)) := by
      intro x
      unfold frameAt touchFrame
      dsimp only
      rw [find_map (by intro y; split <;> rfl)]
      cases d.mem.frames.find? (fun f => decide (f.base ≤ x) && decide (x < f.base + f.size)) with
      | none => rfl
      | some y => simp only [Option.map_some, Option.any_some]; split <;> rfl
    rw [f]
    rfl
theorem storeFold (host : Bool) (line : Nat) (bytes : List (Nat × Byte × Bool)) : ∀ d : Dp,
    let e := bytes.foldl (fun (d : Dp) x =>
      let a := 128 * line + x.1
      if host then d.setHost (a - 2 ^ 60) x.2.1 else d.setDpa a x.2.1) d
    (d.mem.wf = true → e.mem.wf = true) ∧
    (∀ x, e.dpaByte x = d.dpaByte x ∨ (host = false ∧ ∃ y ∈ bytes, x = 128 * line + y.1)) ∧
    (∀ x, e.hostByte x = d.hostByte x ∨ (host = true ∧ ∃ y ∈ bytes, x = 128 * line + y.1 - 2 ^ 60)) ∧
    e = { d with mem := { d.mem with dpa := e.mem.dpa, host := e.mem.host } } := by
  induction bytes with
  | nil => intro d; exact ⟨id, fun x => .inl rfl, fun x => .inl rfl, rfl⟩
  | cons y bytes ih =>
    intro d
    simp only [List.foldl_cons]
    cases host with
    | false =>
      obtain ⟨a, b, c, e⟩ := ih (d.setDpa (128 * line + y.1) y.2.1)
      refine ⟨fun h => a (wf_setDpa h _ _), fun x => ?_, fun x => ?_, e⟩
      · rcases b x with b | ⟨_, z, hz, b⟩
        · rw [dpaByte_setDpa] at b
          by_cases k : x = 128 * line + y.1
          · exact .inr ⟨rfl, y, List.mem_cons_self, k⟩
          · rw [if_neg k] at b; exact .inl b
        · exact .inr ⟨rfl, z, List.mem_cons_of_mem _ hz, b⟩
      · rcases c x with c | ⟨h, _⟩
        · exact .inl c
        · cases h
    | true =>
      obtain ⟨a, b, c, e⟩ := ih (d.setHost (128 * line + y.1 - 2 ^ 60) y.2.1)
      refine ⟨fun h => a (wf_setHost h _ _), fun x => ?_, fun x => ?_, e⟩
      · rcases b x with b | ⟨h, _⟩
        · exact .inl b
        · cases h
      · rcases c x with c | ⟨_, z, hz, c⟩
        · rw [hostByte_setHost] at c
          by_cases k : x = 128 * line + y.1 - 2 ^ 60
          · exact .inr ⟨rfl, y, List.mem_cons_self, k⟩
          · rw [if_neg k] at c; exact .inl c
        · exact .inr ⟨rfl, z, List.mem_cons_of_mem _ hz, c⟩

/-- What storing into a line can change. -/
theorem storeLine_frame (d : Dp) (line : Nat) (host : Bool) (bytes : List (Nat × Byte × Bool)) :
    (d.mem.wf = true → (d.storeLine line host bytes).mem.wf = true) ∧
    (∀ x, (d.storeLine line host bytes).dpaByte x = d.dpaByte x ∨ (host = false ∧ ∃ y ∈ bytes, x = 128 * line + y.1)) ∧
    (∀ x, (d.storeLine line host bytes).hostByte x = d.hostByte x ∨ (host = true ∧ ∃ y ∈ bytes, x = 128 * line + y.1 - 2 ^ 60)) ∧
    d.storeLine line host bytes = { d with mem := { d.mem with
      dpa := (d.storeLine line host bytes).mem.dpa
      host := (d.storeLine line host bytes).mem.host
      poison := (d.storeLine line host bytes).mem.poison
      past := (d.storeLine line host bytes).mem.past } } := by
  have K : ∃ p, (if host then d else d.keepPast line) = { d with mem := { d.mem with past := p } } := by
    cases host
    · exact ⟨_, keepPast_eq d line⟩
    · exact ⟨_, rfl⟩
  obtain ⟨p, K⟩ := K
  have F := storeFold host line bytes { d with mem := { d.mem with past := p } }
  unfold storeLine
  rw [K]
  dsimp only at F ⊢
  split <;> split <;> split <;>
    first
    | exact ⟨F.1, F.2.1, F.2.2.1, by rw [F.2.2.2]⟩
    | exact ⟨id, fun _ => .inl rfl, fun _ => .inl rfl, rfl⟩

end Dp

namespace Work
/-- One step of a piece of work after another. -/
theorem bind_run {α β : Type} (x : M α) (f : α → M β) (w : Wk) :
    (x >>= f) w = match x w with
      | (.ok a, w') => f a w'
      | (.error t, w') => (.error t, w') := by
  show ExceptT.bind x f w = _
  unfold ExceptT.bind ExceptT.mk
  show StateT.bind x (ExceptT.bindCont f) w = _
  unfold StateT.bind
  show (match x w with | (r, s) => ExceptT.bindCont f r s) = _
  rcases x w with ⟨_ | a, w'⟩ <;> rfl
theorem pure_run {α : Type} (a : α) (w : Wk) : (pure a : M α) w = (.ok a, w) := rfl
theorem get_run (w : Wk) : (get : M Wk) w = (.ok w, w) := rfl
theorem modify_run (f : Wk → Wk) (w : Wk) : (modify f : M Unit) w = (.ok (), f w) := rfl
theorem change_run (f : Dp → Dp) (w : Wk) : change f w = (.ok (), { w with d := f w.d }) := rfl
theorem trouble_run {α : Type} (t : Trouble) (w : Wk) : (trouble t : M α) w = (.error t, w) := rfl

theorem locate_run (e : Env) (va : Nat) (wr : Bool) (w : Wk) : locate e va wr w =
    match e.held.find? fun x => x.1 = va / 4096 with
    | some (_, a, host) => (.ok (if host then .host (a + va % 4096) else .dev (a + va % 4096)), w)
    | none =>
      match w.d.translate e.space va wr e.sheaf.isSome with
      | .ok l => (.ok l, w)
      | .error t => (.error t, w) := by
  unfold locate
  generalize e.held.find? (fun x => decide (x.1 = va / 4096)) = r
  cases r with
  | some y => obtain ⟨_, a, host⟩ := y; rfl
  | none =>
    dsimp only
    rw [bind_run, get_run]
    dsimp only
    cases w.d.translate e.space va wr e.sheaf.isSome <;> rfl

/-- Work `w0` is work `w` but for dirty bits of pool frames. -/
structure Near (w w0 : Wk) : Prop where
  tr : ∀ sp va wr sh, w0.d.translate sp va wr sh = w.d.translate sp va wr sh
  eq : w0 = { w with d := { w.d with mem := { w.d.mem with frames := w0.d.mem.frames } } }

theorem Near.refl (w : Wk) : Near w w := ⟨fun _ _ _ _ => rfl, rfl⟩

theorem Near.touch {w w0 : Wk} (h : Near w w0) (a : Nat) : Near w { w0 with d := w0.d.touchFrame a } := by
  refine ⟨fun sp va wr sh => by rw [← h.tr]; exact Dp.translate_touch _ _ _ _ _ _, ?_⟩
  rw [h.eq]; rfl

theorem locate_near {w w0 : Wk} (h : Near w w0) {e : Env} {va : Nat} {wr : Bool} {l : Loc} {w1 : Wk}
    (k : locate e va wr w0 = (.ok l, w1)) : w1 = w0 ∧ locate e va wr w = (.ok l, w) := by
  rw [locate_run] at k ⊢
  split at k
  · injection k with k1 k2
    exact ⟨k2.symm, by rw [k1]⟩
  · rw [h.tr] at k
    split at k
    · injection k with k1 k2
      exact ⟨k2.symm, by rw [k1]⟩
    · injection k with k1 k2
      cases k1

/-- The place of a stored byte is where the address of its cell goes. -/
def At (e : Env) (w : Wk) (c : Cell) (p : Placed) : Prop :=
  (∃ a, locate e c.dva true w = (.ok (.dev a), w) ∧ p.1 = a / 128 ∧ p.2.1 = false ∧ p.2.2.1 = a % 128) ∨
  (∃ a, locate e c.dva true w = (.ok (.host a), w) ∧ p.1 = (2 ^ 60 + a) / 128 ∧ p.2.1 = true ∧ p.2.2.1 = a % 128)

theorem placeCell_near {w w0 w1 : Wk} (h : Near w w0) {e : Env} (s : e.sheaf = none) {ls : List Nat} {c : Cell} {p : Placed}
    (k : placeCell e ls c w0 = (.ok p, w1)) : Near w w1 ∧ At e w c p := by
  unfold placeCell at k
  rw [bind_run] at k
  rcases q : locate e c.dva true w0 with ⟨_ | l, w2⟩
  · rw [q] at k; dsimp only at k; injection k with k _; cases k
  · rw [q] at k
    dsimp only at k
    obtain ⟨rfl, r⟩ := locate_near h q
    rw [s] at k
    cases l with
    | host a =>
      dsimp only at k
      rw [pure_run] at k
      injection k with k1 k2
      injection k1 with k1
      subst k1 k2
      exact ⟨h, .inr ⟨a, r, rfl, rfl, rfl⟩⟩
    | dev a =>
      dsimp only at k
      rw [bind_run, change_run] at k
      dsimp only at k
      rw [pure_run] at k
      injection k with k1 k2
      injection k1 with k1
      subst k1 k2
      exact ⟨h.touch a, .inl ⟨a, r, rfl, rfl, rfl⟩⟩

theorem placeCells_near {w : Wk} {e : Env} (s : e.sheaf = none) {ls : List Nat} : ∀ (cs : List Cell) (w0 w1 : Wk) (ps : List Placed),
    Near w w0 → placeCells e ls cs w0 = (.ok ps, w1) → Near w w1 ∧ ∀ p ∈ ps, ∃ c ∈ cs, At e w c p := by
  intro cs
  induction cs with
  | nil =>
    intro w0 w1 ps h k
    unfold placeCells at k
    rw [pure_run] at k
    injection k with k1 k2
    injection k1 with k1
    subst k1 k2
    exact ⟨h, fun p hp => absurd hp (List.not_mem_nil)⟩
  | cons c cs ih =>
    intro w0 w1 ps h k
    unfold placeCells at k
    rw [bind_run] at k
    rcases q : placeCell e ls c w0 with ⟨_ | p, w2⟩
    · rw [q] at k; dsimp only at k; injection k with k _; cases k
    · rw [q] at k
      dsimp only at k
      obtain ⟨h2, a2⟩ := placeCell_near h s q
      rw [bind_run] at k
      rcases q' : placeCells e ls cs w2 with ⟨_ | ps', w3⟩
      · rw [q'] at k; dsimp only at k; injection k with k _; cases k
      · rw [q'] at k
        dsimp only at k
        obtain ⟨h3, a3⟩ := ih w2 w3 ps' h2 q'
        rw [pure_run] at k
        injection k with k1 k2
        injection k1 with k1
        subst k1 k2
        refine ⟨h3, fun p' hp => ?_⟩
        rcases List.mem_cons.mp hp with rfl | hp
        · exact ⟨c, List.mem_cons_self, a2⟩
        · obtain ⟨c', m, a⟩ := a3 p' hp
          exact ⟨c', List.mem_cons_of_mem _ m, a⟩


theorem latest_sub (cells : List Cell) : ∀ c ∈ cells.foldr (fun (c : Cell) acc => if acc.any fun x => x.dva = c.dva then acc else c :: acc) [], c ∈ cells := by
  induction cells with
  | nil => intro c h; exact absurd h List.not_mem_nil
  | cons x l ih =>
    intro c h
    rw [List.foldr_cons] at h
    split at h
    · exact List.mem_cons_of_mem _ (ih c h)
    · rcases List.mem_cons.mp h with rfl | h
      · exact List.mem_cons_self
      · exact List.mem_cons_of_mem _ (ih c h)

theorem inOrder_sub (d : Dp) (e : Env) (l : List Placed) : ∀ p ∈ inOrder d e l, p ∈ l := by
  unfold inOrder
  dsimp only
  split
  · exact fun p h => h
  · exact fun p h => (List.mem_filter.mp h).1

theorem stores_frame (f : Nat × Bool → List (Nat × Byte × Bool)) : ∀ (keys : List (Nat × Bool)) (d : Dp),
    let u := keys.foldl (fun (d : Dp) k => d.storeLine k.1 k.2 (f k)) d
    (∀ x, u.dpaByte x = d.dpaByte x ∨ ∃ k y, y ∈ f k ∧ k.2 = false ∧ x = 128 * k.1 + y.1) ∧
    (∀ x, u.hostByte x = d.hostByte x ∨ ∃ k y, y ∈ f k ∧ k.2 = true ∧ x = 128 * k.1 + y.1 - 2 ^ 60) ∧
    u = { d with mem := { d.mem with dpa := u.mem.dpa, host := u.mem.host, poison := u.mem.poison, past := u.mem.past } } := by
  intro keys
  induction keys with
  | nil => intro d; exact ⟨fun _ => .inl rfl, fun _ => .inl rfl, rfl⟩
  | cons k keys ih =>
    intro d
    dsimp only
    rw [List.foldl_cons]
    obtain ⟨_, a, b, c⟩ := Dp.storeLine_frame d k.1 k.2 (f k)
    obtain ⟨a', b', c'⟩ := ih (d.storeLine k.1 k.2 (f k))
    generalize keys.foldl (fun (d : Dp) k => d.storeLine k.1 k.2 (f k)) (d.storeLine k.1 k.2 (f k)) = u at a' b' c' ⊢
    refine ⟨fun x => ?_, fun x => ?_, ?_⟩
    · rcases a' x with h | h
      · rcases a x with g | ⟨g, y, m, e⟩
        · exact .inl (h.trans g)
        · exact .inr ⟨k, y, m, g, e⟩
      · exact .inr h
    · rcases b' x with h | h
      · rcases b x with g | ⟨g, y, m, e⟩
        · exact .inl (h.trans g)
        · exact .inr ⟨k, y, m, g, e⟩
      · exact .inr h
    · rw [c] at c'
      exact c'

theorem noteOrder_cases (e : Env) (l : List Placed) (d : Dp) : noteOrder e l d = d ∨
    ∃ r : Ring, noteOrder e l d = d.setRing e.ring { d.ring e.ring with writes := r.writes } := by
  unfold noteOrder
  dsimp only
  split
  · exact .inr ⟨{ d.ring e.ring with writes := _ }, rfl⟩
  · exact .inl rfl

/-- What a batch of stores leaves. -/
theorem flush_run (e : Env) (w v : Wk) (h : flush e w = (.ok (), v)) : ∃ (ps : List Placed) (w1 : Wk) (ls : List Nat) (cs : List Cell),
    (∀ c ∈ cs, c ∈ w.cells) ∧ placeCells e ls cs w = (.ok ps, w1) ∧
    ∃ u : Dp, u = (((inOrder w1.d e ps).map fun p => (p.1, p.2.1)).eraseDups).foldl (fun (d : Dp) k =>
      d.storeLine k.1 k.2 (((inOrder w1.d e ps).filter fun p => (p.1, p.2.1) = k).map fun p => (p.2.2.1, p.2.2.2.1, p.2.2.2.2)))
        (noteOrder e (inOrder w1.d e ps) w1.d) ∧ v = { w1 with cells := [], d := u } := by
  unfold flush at h
  rw [bind_run, get_run] at h
  dsimp only at h
  rw [bind_run] at h
  generalize hl : w.cells.foldr (fun (c : Cell) acc => if acc.any fun x => x.dva = c.dva then acc else c :: acc) [] = latest at h
  rcases q : placeCells e (latest.map fun c => c.dva / 128) latest w with ⟨_ | ps, w1⟩
  · rw [q] at h; dsimp only at h; injection h with h _; cases h
  · rw [q] at h
    dsimp only at h
    rw [bind_run, get_run] at h
    dsimp only at h
    rw [bind_run, change_run] at h
    dsimp only at h
    rw [modify_run] at h
    injection h with _ h
    exact ⟨ps, w1, _, latest, fun c hc => latest_sub _ c (hl ▸ hc), q, _, rfl, h.symm⟩

end Work

end Sys2Proof.Machine
end

