-- ==== Sys2Proof/Laws/Load.lean ====
section
/-!
SUPPORT. Loads from plain memory: where translation leads to tier H, which is neither withdrawn, locked nor in a pool, a
piece of work reads what memory holds.
-/
namespace Sys2Proof.Machine

theorem natFld_page {u v hi lo : Nat} (h : v / 4096 = u / 4096) (l : 12 ≤ lo) : natFld v hi lo = natFld u hi lo := by
  have k : ∀ x : Nat, x >>> lo = x / 4096 / 2 ^ (lo - 12) := by
    intro x
    rw [Nat.shiftRight_eq_div_pow, Nat.div_div_eq_div_mul, show 4096 = 2 ^ 12 from rfl, ← Nat.pow_add, Nat.add_sub_cancel' l]
  unfold natFld
  rw [k, k, h]

namespace Dp

theorem walkFrom_page (d : Dp) {u v : Nat} (h : v / 4096 = u / 4096) : ∀ (fuel : Nat) (l : Level) (b : Nat),
    d.walkFrom v fuel l b = d.walkFrom u fuel l b := by
  have i : ∀ l : Level, l.index v = l.index u := by
    intro l
    cases l <;> simp only [Level.index] <;> rw [natFld_page h (by decide)]
  intro fuel
  induction fuel with
  | zero => intro l b; rfl
  | succ n ih =>
    intro l b
    unfold walkFrom
    simp only [ih, i]

/-- Two addresses of one 4 KiB page are walked alike. -/
theorem walk_page (d : Dp) (sp : Nat) {u v : Nat} (h : v / 4096 = u / 4096) : d.walk sp v = d.walk sp u := by
  have k : d.walkEntry sp v = d.walkEntry sp u := by
    unfold walkEntry
    dsimp only
    rw [walkFrom_page d h]
    have : (2 ^ 52 ≤ v) ↔ (2 ^ 52 ≤ u) := by omega
    simp only [this]
  unfold walk
  rw [k]

/-- Nothing is locked, withdrawn, retired or in a pool, no window is set aside, and nothing is poisoned. -/
structure Plain (d : Dp) : Prop where
  locks : d.locks = []
  hdm : d.reg Reg.memHdm = 0
  limit0 : d.mem.hLimit0 = 0x009000000000
  size0 : d.reg (Reg.poolSize 0) = 0
  size1 : d.reg (Reg.poolSize 1) = 0
  clean : d.mem.poison = []

/-- A writable page of tier H in plain memory leads to its device address. -/
theorem judge_plain {d : Dp} (p : d.Plain) {l : Leaf} {sp v : Nat} {wr sh : Bool} (t : l.tier = 0) (q : l.perm = 2) (r : l.res = 0)
    (s : (wr && sh && !l.shd) = false) (a : l.addr + (v - v / l.size * l.size) < 0x009000000000) :
    d.judge sp v wr sh l = .ok (.dev (l.addr + (v - v / l.size * l.size))) := by
  generalize e : l.addr + (v - v / l.size * l.size) = x at a ⊢
  have j : inJournal x = false := by simp [inJournal]; omega
  have w : d.withdrawn x = false := by
    simp only [withdrawn, hLimit, if_pos a, p.limit0]
    simp
    omega
  have k : d.retiredChannel x = false := by
    have : tierOf x = some 0 := by simp [tierOf]; omega
    simp [retiredChannel, this]
  have z : ∀ hi lo, Word.fld (0 : Word) hi lo = 0 := by intro hi lo; simp [Word.fld]
  have m : d.inHdm x = false := by
    unfold inHdm
    rw [p.hdm]
    dsimp only
    rw [z, z, Bool.or_eq_false_iff, Bool.and_eq_false_iff, Bool.and_eq_false_iff]
    simp only [decide_eq_false_iff_not]
    rw [Nat.zero_mul, Nat.sub_zero, Nat.sub_zero]
    exact ⟨.inl (by omega), .inl (by omega)⟩
  have o : d.inPool x = false := by
    unfold inPool inPoolOf pool
    rw [p.size0, p.size1]
    dsimp only
    rw [z, z, Bool.or_eq_false_iff]
    constructor <;>
    · rw [Bool.and_eq_false_iff]
      simp only [decide_eq_false_iff_not]
      omega
  unfold judge
  simp only [e, t, q, r, j, w, k, m, o, s, lockedAt, p.locks, List.any_nil]
  simp

/-- A page of tier H in plain memory is where the translation of each of its addresses leads. -/
theorem translate_plain {d : Dp} (p : d.Plain) {l : Leaf} {sp u v : Nat} {wr sh : Bool} (h : v / 4096 = u / 4096)
    (k : d.walk sp u = .ok l) (t : l.tier = 0) (q : l.perm = 2) (r : l.res = 0) (s : (wr && sh && !l.shd) = false)
    (a : l.addr + (v - v / l.size * l.size) < 0x009000000000) :
    d.translate sp v wr sh = .ok (.dev (l.addr + (v - v / l.size * l.size))) := by
  unfold translate
  rw [walk_page d sp h, k]
  exact judge_plain p t q r s a

end Dp

namespace Work

/-- A byte that translates is read from memory. -/
theorem readByte_plain {e : Env} {v x : Nat} {w : Wk} (h : e.held = []) (k : e.kept = []) (c : w.d.mem.poison = [])
    (t : w.d.translate e.space v false e.sheaf.isSome = .ok (.dev x)) : readByte e v w = (.ok (w.d.dpaByte x), w) := by
  unfold readByte
  rw [bind_run, locate_run, h, t]
  dsimp only [List.find?_nil]
  rw [bind_run, get_run]
  dsimp only
  have : w.d.mem.poison.has (lineOf (.dev x)) = false := by rw [c]; rfl
  rw [this, k]
  rfl

/-- Bytes that translate are read from memory. -/
theorem readBytes_plain {e : Env} (h : e.held = []) (k : e.kept = []) {w : Wk} (c : w.d.mem.poison = []) (f : Nat → Nat) : ∀ (n v : Nat),
    (∀ u, v ≤ u → u < v + n → w.d.translate e.space u false e.sheaf.isSome = .ok (.dev (f u))) →
    readBytes e v n w = (.ok ((List.range n).map fun i => w.d.dpaByte (f (v + i))), w) := by
  intro n
  induction n with
  | zero => intro v t; rfl
  | succ n ih =>
    intro v t
    unfold readBytes
    rw [bind_run, readByte_plain h k c (t v (Nat.le_refl _) (by omega))]
    dsimp only
    rw [bind_run, ih (v + 1) (fun u a b => t u (by omega) (by omega))]
    dsimp only
    rw [pure_run, List.range_succ_eq_map, List.map_cons, List.map_map]
    simp only [Function.comp_def, Nat.add_zero, Nat.succ_eq_add_one, Nat.add_assoc, Nat.add_comm 1]

/-- What a piece of work that meets no poison answers is kept by `poisonOf`. -/
theorem poisonOf_run {α : Type} {x : M α} {w : Wk} {a : α} (h : x { w with poison := false } = (.ok a, { w with poison := false })) :
    poisonOf x w = (.ok (a, false), w) := by
  unfold poisonOf
  rw [bind_run, get_run]
  dsimp only
  rw [bind_run, show (set ({ w with poison := false } : Wk) : M Unit) w = (.ok (), { w with poison := false }) from rfl]
  dsimp only
  rw [bind_run, h]
  rfl

theorem intact_run {α : Type} {x : M α} {w : Wk} {a : α} (h : x { w with poison := false } = (.ok a, { w with poison := false })) :
    intact x w = (.ok a, w) := by
  unfold intact
  rw [bind_run, poisonOf_run h]
  rfl

/-- A list of loads that each leave the work as it was. -/
theorem mapM_run {α β : Type} {f : α → M β} {w : Wk} (h : ∀ x, ∃ v, f x w = (.ok v, w)) :
    ∀ l : List α, ∃ vs, l.mapM f w = (.ok vs, w) := by
  intro l
  induction l with
  | nil => exact ⟨[], by rw [List.mapM_nil]; rfl⟩
  | cons x l ih =>
    obtain ⟨v, hv⟩ := h x
    obtain ⟨vs, hs⟩ := ih
    refine ⟨v :: vs, ?_⟩
    rw [List.mapM_cons, bind_run, hv]
    dsimp only
    rw [bind_run, hs]
    rfl

/-- Every cell of a batch translates to a device address. -/
def Placeable (e : Env) (d : Dp) (l : List Cell) : Prop :=
  ∀ c ∈ l, ∃ x, d.translate e.space c.dva true e.sheaf.isSome = .ok (.dev x)

theorem placeCells_plain {e : Env} (h : e.held = []) (s : e.sheaf = none) (ls : List Nat) {w : Wk} (f : w.d.mem.frames = []) :
    ∀ l : List Cell, Placeable e w.d l → ∃ ps, placeCells e ls l w = (.ok ps, w) := by
  intro l
  induction l with
  | nil => intro _; exact ⟨[], rfl⟩
  | cons c l ih =>
    intro g
    obtain ⟨x, hx⟩ := g c List.mem_cons_self
    obtain ⟨ps, hp⟩ := ih fun c m => g c (List.mem_cons_of_mem _ m)
    have q : placeCell e ls c w = (.ok (x / 128, false, x % 128, c.byte, c.poison), w) := by
      unfold placeCell
      rw [bind_run, locate_run, h, hx]
      dsimp only [List.find?_nil]
      rw [s]
      dsimp only
      rw [bind_run, change_run]
      dsimp only
      have : w.d.touchFrame x = w.d := by
        unfold Dp.touchFrame
        rw [f]
        show { w.d with mem := { w.d.mem with frames := [] } } = w.d
        rw [← f]
      rw [this]
      rfl
    refine ⟨(x / 128, false, x % 128, c.byte, c.poison) :: ps, ?_⟩
    unfold placeCells
    rw [bind_run, q]
    dsimp only
    rw [bind_run, hp]
    rfl

/-- A batch whose cells all translate, to memory without pool frames, is stored. -/
theorem flush_plain {e : Env} (h : e.held = []) (s : e.sheaf = none) {w : Wk} (f : w.d.mem.frames = [])
    (g : Placeable e w.d w.cells) : ∃ w', flush e w = (.ok (), w') := by
  obtain ⟨ps, hp⟩ := placeCells_plain h s
    ((w.cells.foldr (fun (c : Cell) acc => if acc.any fun x => x.dva = c.dva then acc else c :: acc) []).map fun c => c.dva / 128)
    f _ fun c m => g c (latest_sub w.cells c m)
  unfold flush
  rw [bind_run, get_run]
  dsimp only
  rw [bind_run, hp]
  exact ⟨_, rfl⟩

/-- A loop that puts bytes into the batch and nothing else. -/
theorem forIn_put (f : Nat → Nat) (b : List Byte) : ∀ (l : List Nat) (w : Wk), ∃ new : List Cell,
    (forIn l PUnit.unit fun p _ => do put (f p) b false; pure (ForInStep.yield PUnit.unit) : M PUnit) w =
      (.ok PUnit.unit, { w with cells := w.cells ++ new }) ∧ ∀ c ∈ new, ∃ p ∈ l, ∃ i < b.length, c.dva = f p + i := by
  intro l
  induction l with
  | nil => intro w; exact ⟨[], by rw [List.append_nil]; rfl, fun c m => absurd m List.not_mem_nil⟩
  | cons p l ih =>
    intro w
    obtain ⟨new, hn, hm⟩ := ih
      { w with cells := w.cells ++ List.zipWith (fun i b => ({ dva := f p + i, byte := b, poison := false } : Cell)) (List.range b.length) b }
    refine ⟨List.zipWith (fun i b => ({ dva := f p + i, byte := b, poison := false } : Cell)) (List.range b.length) b ++ new, ?_, ?_⟩
    · rw [List.forIn_cons, bind_run, bind_run]
      exact hn.trans (by simp only [List.append_assoc])
    · intro c m
      rcases List.mem_append.mp m with m | m
      · obtain ⟨i, hi, e⟩ := List.mem_iff_getElem.mp m
        have k : i < b.length := by simpa using hi
        refine ⟨p, List.mem_cons_self, i, k, ?_⟩
        rw [← e, List.getElem_zipWith, List.getElem_range]
      · obtain ⟨q, hq, i, hi, e⟩ := hm c m
        exact ⟨q, List.mem_cons_of_mem _ hq, i, hi, e⟩

end Work
end Sys2Proof.Machine
end

