-- ==== Sys2Proof/Laws/Net.lean ====
section
/-!
SUPPORT. What the transport's operations change of the data plane, one lemma per operation.
-/
namespace Sys2Proof.Machine

/-- The flags byte of a Culm header and its fields. -/
theorem culm_flags (a b c d : Bool) (e : Fin 4) :
    let x (v : Bool) (k : Nat) : Nat := if v then 2 ^ k else 0
    let n := x a 0 + x b 1 + x c 2 + x d 3 + e.val * 16
    n < 64 ∧ n.testBit 0 = a ∧ n.testBit 1 = b ∧ n.testBit 2 = c ∧ n.testBit 3 = d ∧ natFld n 5 4 = e := by
  revert a b c d e; decide

namespace Dp

theorem crc32cBit_lt {c : Nat} (h : c < 2 ^ 32) : crc32cBit c < 2 ^ 32 := by
  unfold crc32cBit
  split
  · exact Nat.xor_lt_two_pow (by omega) (by decide)
  · omega

/-- A CRC-32C takes 32 bits. -/
theorem crc32c_lt (bs : List Byte) : crc32c bs < 2 ^ 32 := by
  have byte (c : Nat) (b : Byte) (h : c < 2 ^ 32) : crc32cByte c b < 2 ^ 32 := by
    have : c ^^^ b.toNat < 2 ^ 32 := Nat.xor_lt_two_pow h (by have := b.isLt; omega)
    unfold crc32cByte
    generalize c ^^^ b.toNat = x at this
    have k (l : List Nat) : ∀ x, x < 2 ^ 32 → l.foldl (fun c _ => crc32cBit c) x < 2 ^ 32 := by
      induction l with
      | nil => exact fun _ h => h
      | cons _ l ih => exact fun x h => ih _ (crc32cBit_lt h)
    exact k _ x this
  have all : ∀ c, c < 2 ^ 32 → bs.foldl crc32cByte c < 2 ^ 32 := by
    induction bs with
    | nil => exact fun _ h => h
    | cons b bs ih => exact fun c h => ih _ (byte c b h)
  exact Nat.xor_lt_two_pow (all _ (by decide)) (by decide)

/-- Data plane `e` is `d` but for its links, the time, counts, status bits and the log; no retirement is counted. -/
structure Lk (d e : Dp) : Prop where
  eq : e = { d with regs := { d.regs with cnt := e.regs.cnt, stat := e.regs.stat }, now := e.now, ash := e.ash, lnk := e.lnk }
  cnt : e.regs.cntVal (Reg.ashCnt 6) = d.regs.cntVal (Reg.ashCnt 6)

theorem Lk.refl (d : Dp) : Lk d d := ⟨rfl, rfl⟩
theorem Lk.trans {a b c : Dp} (h : Lk a b) (k : Lk b c) : Lk a c := by
  refine ⟨?_, k.cnt.trans h.cnt⟩
  have e := k.eq
  rw [h.eq] at e
  exact e
theorem Lk.foldl {α : Type} {f : Dp → α → Dp} (h : ∀ d x, Lk d (f d x)) (l : List α) (d : Dp) : Lk d (l.foldl f d) := by
  induction l generalizing d with
  | nil => exact Lk.refl d
  | cons x l ih => exact (h d x).trans (ih _)
theorem lk_setConn (d : Dp) (p c x) : Lk d (d.setConn p c x) := ⟨rfl, rfl⟩
theorem lk_setPeer (d : Dp) (p x) : Lk d (d.setPeer p x) := ⟨rfl, rfl⟩
theorem lk_setPort (d : Dp) (p x) : Lk d (d.setPort p x) := ⟨rfl, rfl⟩
theorem lk_setStat (d : Dp) (p x) : Lk d (d.setStat p x) := ⟨rfl, rfl⟩
theorem lk_bump (d : Dp) (off n) (h : off ≠ Reg.ashCnt 6) : Lk d (d.bump off n) := by
  refine ⟨rfl, ?_⟩
  unfold bump Regs.bump Regs.cntVal
  exact Tab.get_set_other _ _ _ (Ne.symm h)
theorem lk_lnkCnt (d : Dp) (i n) (h : i < 16) : Lk d (d.bump (Reg.lnkCnt i) n) := by
  apply lk_bump
  unfold Reg.lnkCnt Reg.ashCnt
  omega
theorem lk_emit (d : Dp) (q f) : Lk d (d.emit q f) := by
  unfold emit
  exact Lk.trans (b := { d with lnk := { d.lnk with sent := d.lnk.sent ++ [{ port := q, frame := f, line := _ }] } }) ⟨rfl, rfl⟩
    (lk_lnkCnt _ 0 _ (by omega))
theorem lk_ash (d : Dp) (a : Ash) (off) (h : off ≠ Reg.ashCnt 6) : Lk d (({ d with ash := a } : Dp).bump off) :=
  Lk.trans (b := { d with ash := a }) ⟨rfl, rfl⟩ (lk_bump _ _ _ h)
theorem lk_ashWrite (d : Dp) (e) : Lk d (d.ashWrite e) := by
  unfold ashWrite
  exact lk_ash d _ _ (by decide)
theorem lk_ashLog (d : Dp) (e) : Lk d (d.ashLog e) := by
  unfold ashLog
  dsimp only
  split
  · exact lk_bump _ _ _ (by decide)
  · split
    · split
      · split
        · exact lk_ash d _ _ (by decide)
        · exact lk_ashWrite _ _
      · exact lk_ashWrite _ _
    · exact lk_ashWrite _ _
theorem lk_unreachable (d : Dp) (p) : Lk d (d.unreachable p) := by
  unfold unreachable
  split
  · exact Lk.refl d
  · dsimp only
    exact ((lk_setPeer d _ _).trans ((lk_setStat _ _ _).trans (lk_lnkCnt _ 10 _ (by omega)))).trans (lk_ashLog _ _)
theorem lk_post (d : Dp) (p c f) : Lk d (d.post p c f) := by
  unfold post
  dsimp only
  split
  · exact Lk.refl d
  · split
    · exact lk_setConn _ _ _ _
    · split
      · split
        · exact ((lk_setConn _ _ _ _).trans (lk_setPeer _ _ _)).trans (lk_emit _ _ _)
        · exact (lk_setConn _ _ _ _).trans (lk_emit _ _ _)
      · split
        · exact lk_unreachable _ _
        · exact lk_setConn _ _ _ _
theorem lk_flushQueue (d : Dp) (p c) : Lk d (d.flushQueue p c) := by
  unfold flushQueue posts
  exact (lk_setConn _ _ _ _).trans (Lk.foldl (fun d f => lk_post d p c f) _ _)
theorem lk_control (d : Dp) (p f) : Lk d (d.control p f) := by
  unfold control
  split
  · exact lk_emit _ _ _
  · exact Lk.refl d
theorem lk_sendAck (d : Dp) (p c) : Lk d (d.sendAck p c) := (lk_setConn _ _ _ _).trans (lk_control _ _ _)
theorem lk_sendNak (d : Dp) (p c k) : Lk d (d.sendNak p c k) := (lk_control _ _ _).trans (lk_lnkCnt _ 3 _ (by omega))
theorem lk_resend (d : Dp) (p c k) : Lk d (d.resend p c k) := by
  unfold resend
  dsimp only
  split
  · exact Lk.refl d
  · split
    · exact Lk.refl d
    · split
      · exact ((lk_lnkCnt d 5 1 (by omega)).trans (lk_ashLog _ _)).trans (lk_unreachable _ _)
      · split
        · split
          · exact lk_unreachable _ _
          · exact Lk.refl d
        · exact ((lk_setConn _ _ _ _).trans (lk_emit _ _ _)).trans (lk_lnkCnt _ 4 _ (by omega))
theorem lk_adopt (d : Dp) (p e) : Lk d (d.adoptEpoch p e) := (lk_setConn _ _ _ _).trans (lk_setConn _ _ _ _)
theorem lk_askReset (d : Dp) (p) : Lk d (d.askReset p) := (lk_control _ _ _).trans (lk_lnkCnt _ 3 _ (by omega))
theorem lk_restartPeer (d : Dp) (p) : Lk d (d.restartPeer p) := by
  unfold restartPeer
  exact ((lk_adopt _ _ _).trans (lk_setPeer _ _ _)).trans (lk_askReset _ _)
theorem lk_rxNak (d : Dp) (f) : Lk d (d.rxNak f) := by
  unfold rxNak
  dsimp only
  split
  · exact Lk.refl d
  · split
    · exact (lk_restartPeer _ _).trans (lk_lnkCnt _ 2 _ (by omega))
    · split
      · split
        · exact lk_lnkCnt _ 2 _ (by omega)
        · exact lk_resend _ _ _ _
      · split
        · exact lk_lnkCnt _ 2 _ (by omega)
        · exact lk_resend _ _ _ _
theorem lk_answerReset (d : Dp) (p e) : Lk d (d.answerReset p e) := by
  unfold answerReset
  exact ((lk_adopt _ _ _).trans (lk_setPeer _ _ _)).trans (lk_control _ _ _)
theorem lk_rxResetAck (d : Dp) (f) : Lk d (d.rxResetAck f) := by
  unfold rxResetAck
  dsimp only
  split
  · exact Lk.refl d
  · split
    · exact lk_lnkCnt _ 2 _ (by omega)
    · split
      · exact Lk.refl d
      · exact ((lk_setPeer _ _ _).trans (lk_flushQueue _ _ _)).trans (lk_flushQueue _ _ _)
theorem lk_frameDiscard (d : Dp) (f) : Lk d (d.frameDiscard f) := by
  unfold frameDiscard
  dsimp only
  split
  · exact Lk.refl d
  · split
    · exact (lk_lnkCnt _ 2 _ (by omega)).trans (lk_sendNak _ _ _ _)
    · exact lk_lnkCnt _ 2 _ (by omega)
theorem lk_ackTimer (d : Dp) (p c) : Lk d (d.ackTimer p c) := by
  unfold ackTimer; split
  · exact Lk.refl d
  · exact lk_sendAck _ _ _
theorem lk_reorder (d : Dp) (p c) : Lk d (d.reorderTimeout p c) := by
  unfold reorderTimeout; dsimp only; split
  · exact Lk.refl d
  · exact lk_sendNak _ _ _ _
theorem lk_pfc (d : Dp) (q on) : Lk d (d.pfcPause q on) := by
  unfold pfcPause; dsimp only; split
  · exact Lk.refl d
  · split
    · exact (lk_setPort _ _ _).trans (lk_lnkCnt _ 7 _ (by omega))
    · refine (lk_setPort _ _ _).trans (Lk.foldl (fun d x => ?_) _ _)
      split
      · exact lk_flushQueue _ _ _
      · exact Lk.refl d
theorem lk_preempt (d : Dp) (q) : Lk d (d.preemptVerified q) := by
  unfold preemptVerified; dsimp only; split
  · exact lk_setPort _ _ _
  · exact Lk.refl d
theorem lk_ptp (d : Dp) (o) : Lk d (d.ptpMessage o) := by
  unfold ptpMessage; split
  · exact Lk.refl d
  · split <;> exact ⟨rfl, rfl⟩

end Dp
end Sys2Proof.Machine
end

