-- ==== Sys2Proof/Tests/Slice0.lean ====
section
/-!
SUPPORT. Tests of the model: well-formedness refuses what cannot arrive, and for every statement with hypotheses a state and
operands that meet them (`witness_…`). Descriptors are written out field by field from the layouts of the spec.
-/
namespace Sys2Proof.Tests
open Machine Machine.State

/- One proof at a time: many at once need more threads than the memory limit has room for. -/
set_option Elab.async false

/-! ### Small machines -/

/-- A descriptor of opcode `op` and `slots` slots whose other bytes are 0 but for fields `fs`, each a byte offset, a width in
bytes and a value (R316). -/
def desc (op slots : Nat) (fs : List (Nat × Nat × Nat)) : List Byte :=
  toLe (64 * slots) (fs.foldl (fun a f => a + f.2.2 * 2 ^ (8 * f.1)) (op + (slots - 1) * 256))

/-- The header fields of a descriptor in sheaf 1: SHEAF_EN and SHEAF_ID. -/
def inSheaf : List (Nat × Nat × Nat) := [(1, 1, 8), (2, 2, 1)]

/-- The fields of a tensor descriptor at byte `o`: its base, its conversion word, and per dimension extent and stride
(Table 4.1). -/
def tensor (o base conv : Nat) (dims : List (Nat × Nat)) : List (Nat × Nat × Nat) :=
  [(o, 8, base), (o + 8, 4, conv), (o + 24, 1, dims.length)] ++
    ((List.range dims.length).flatMap fun d =>
      [(o + 32 + 4 * d, 4, (dims.getD d (0, 0)).1), (o + 64 + 6 * d, 6, (dims.getD d (0, 0)).2)])

/-- The fields of a RowPack reference at byte `o` with room for `cap` values, its arrays 1 KiB apart from `base` on
(Table 5.1). -/
def rowPack (o base conv rows cols cap : Nat) : List (Nat × Nat × Nat) :=
  [(o, 4, conv), (o + 8, 1, 2), (o + 12, 4, rows), (o + 16, 4, cols), (o + 24, 8, base), (o + 32, 8, base + 0x400),
   (o + 40, 8, base + 0x800), (o + 48, 8, base + 0xC00), (o + 56, 8, base + 0x1000), (o + 88, 8, cap)]

/-- Bytes in memory from address `a` on. -/
def cells (a : Nat) (l : List Byte) : List (Nat × Byte) :=
  ((List.range l.length).map fun k => (a + k, l.getD k 0)).filter fun x => x.2 ≠ 0

/-- A module with ring 0 enabled, whose translation maps the first pages one to one, with further registers in force. -/
def small (regs : List (Nat × Nat)) (mem : List (Nat × Byte)) : Dp :=
  let l := [(Reg.glbCtl, 1), (Reg.ringCfg 0, 1 + 8 * 2 ^ 44 + 256 * 2 ^ 55), (Reg.atuCtl, 1), (Reg.atuRoot 0, 0x10001)] ++ regs
  { State.reset.dp with
    regs := l.foldl (fun (r : Regs) x => r.commit x.1 (BitVec.ofNat 64 x.2)) State.reset.dp.regs
    mem := { State.reset.dp.mem with dpa := [(0x10000, 1), (0x10002, 2), (0x20000, 0x82), (0x20001, 4)] ++ mem } }

/-- Descriptor `bs` stands at the head of ring 0 of data plane `d`. -/
def fetched (d : Dp) (bs : List Byte) : State :=
  { State.reset with dp := d.setRing 0 { state := .running, fetched := bs, fpoison := List.replicate (bs.length / 64) false } }

/-- Sheaf 1 is open on ring 0, with shadow buffers in both tiers, of which `used` lines of tier H are taken. -/
def openedAt (used : Nat) (d : Dp) : Dp :=
  let x : Sheaf := { state := .opened, ring := 0, shadowL := 0x20010000000, sizeL := 256, shadowH := 0x8000000, sizeH := 256, usedH := used }
  { d with journal := { d.journal with sheaves := [(1, x)] } }

/-- Sheaf 1 is open on ring 0, its shadow buffers empty. -/
abbrev opened : Dp → Dp := openedAt 0

/-- Is descriptor `bs` granted on ring 0 of `s` (State.Granted). -/
def grants (s : State) (op : Nat) (mine : List Byte → Bool) (spans : List Byte → List Span) (bs : List Byte) : Bool :=
  s.hostLive && decide (s.dp.nextDesc 0 = some (parseHdr bs, bs)) && decide ((parseHdr bs).op = op) && knownOp op && mine bs &&
  (s.dp.pipeHalts 0).isNone && s.dp.mayDispatch s.gates 0 && Dp.waitMet (s.dp.ring 0) (parseHdr bs) &&
  !s.dp.heldDesc (s.dp.spaceOf 0) (parseHdr bs) (spans bs) && s.dp.scaleGate 0 (parseHdr bs) bs &&
  !((s.dp.ring 0).fpoison.take (parseHdr bs).slots).any id && decide ((parseHdr bs).seq = (s.dp.ring 0).expSeq) &&
  (firstBad (hdrBad bs)).isNone && !Dp.secured s.gates op bs

/-- The descriptor as its meaning takes it. -/
@[irreducible] def ctx (s : State) (spans : List Byte → List Span) (bs : List Byte) : OpCtx := s.taken 0 spans (parseHdr bs) bs

/-- The data plane in which it is judged. -/
@[irreducible] def taken (s : State) (bs : List Byte) : Dp := (s.dp.takeDesc 0 (parseHdr bs)).2

/-- Its record once it is accepted, with the streams of `convs`. -/
@[irreducible] def rec_ (s : State) (spans : List Byte → List Span) (bs : List Byte) (convs : List Conv) : Outst :=
  (taken s bs).accepted (ctx s spans bs) convs

/-- The data plane in which its operation starts. -/
@[irreducible] def begun (s : State) (spans : List Byte → List Span) (bs : List Byte) (convs : List Conv) : Dp :=
  (taken s bs).accept (ctx s spans bs) convs

theorem enters {s : State} {op : Nat} {mine : List Byte → Bool} {spans : List Byte → List Span} {bs : List Byte}
    (convs : List Conv) (h : grants s op mine spans bs = true) :
    s.Enters 0 op mine spans (parseHdr bs) bs convs (ctx s spans bs) (taken s bs) (rec_ s spans bs convs)
      (begun s spans bs convs) := by
  simp only [grants, Bool.and_eq_true, decide_eq_true_eq, Bool.not_eq_true', Option.isNone_iff_eq_none, and_assoc] at h
  obtain ⟨live, head, opcode, known, row, program, ring, waits, free, boundary, clean, order, header, gate⟩ := h
  exact ⟨{ live, head, opcode, known, row, ring, waits, free, boundary, clean, order, header, gate, program := by simp [program] },
    by rw [ctx], by rw [taken]; rfl, by rw [rec_], by rw [begun]⟩

/-- Does the outcome table accept the descriptor (Dp.Accepts). -/
def accepts (d : Dp) (c : OpCtx) (bad : List (Bool × Nat)) (rule : Dp.SheafRule) (align overlap : Bool) : Bool :=
  (firstBad (bad ++ d.sheafBad c.ring c.hdr rule)).isNone && !align && !(overlap || d.guardRefuses c.ring c.spans) &&
  !d.sheafForeign c.ring c.hdr && (d.sheafVerdict c.hdr).isNone && decide (d.declaring c = .ok)

theorem accepted_of {d : Dp} {c : OpCtx} {bad : List (Bool × Nat)} {rule : Dp.SheafRule} {align overlap : Bool}
    (h : accepts d c bad rule align overlap = true) : d.Accepts c bad rule align overlap := by
  simp only [accepts, Bool.and_eq_true, Bool.not_eq_true', Option.isNone_iff_eq_none, decide_eq_true_eq, and_assoc] at h
  obtain ⟨form, aligned, apart, own, sheaf, room⟩ := h
  exact ⟨form, aligned, apart, own, sheaf, room⟩

/-- What a piece of work answers, when it meets no trouble. -/
def answer {α : Type} (m : M α) (a : Dp) : Option α :=
  match StateT.run (ExceptT.run m) { d := a } with
  | (.ok v, _) => some v
  | _ => none

/-- What a piece of work leaves. -/
def after {α : Type} (m : M α) (a : Dp) : Wk := (StateT.run (ExceptT.run m) { d := a }).2

theorem works {α : Type} {m : M α} {a : Dp} {v : α} (h : answer m a = some v) : Dp.Works m a v (after m a) := by
  show Dp.run m (2 ^ 32) a = _
  rw [show (2 ^ 32 : Nat) = 4294967295 + 1 from rfl, Dp.run]
  unfold answer at h
  unfold after
  have e : m.run { d := a } = StateT.run (ExceptT.run m) { d := a } := rfl
  rw [e]
  split at h
  · next x w hx => rw [hx]; cases h; rfl
  · cases h

/-! ### Work on plain memory -/

theorem works_of {α : Type} {m : M α} {a : Dp} {v : α} {w : Wk} (h : m { d := a } = (.ok v, w)) : Dp.Works m a v w := by
  show Dp.run m (2 ^ 32) a = _
  rw [show (2 ^ 32 : Nat) = 4294967295 + 1 from rfl, Dp.run, show m.run { d := a } = m { d := a } from rfl, h]

/-- Does a walk end at leaf `l`. -/
def leafIs (r : Except Nat Leaf) (l : Leaf) : Bool :=
  match r with
  | .ok x => decide (x = l)
  | .error _ => false

theorem leaf_eq {r : Except Nat Leaf} {l : Leaf} (h : leafIs r l = true) : r = .ok l := by
  cases r with
  | error e => cases h
  | ok x => exact congrArg _ (of_decide_eq_true h)

/-- The page of 1 GiB that `small` maps one to one. -/
abbrev wide : Leaf := { addr := 0, size := 2 ^ 30, tier := 0, res := 0, perm := 2, shd := true, entry := 0x20000 }

/-- Is memory plain (Dp.Plain). -/
def isPlain (d : Dp) : Bool :=
  decide (d.locks = []) && decide (d.reg Reg.memHdm = 0) && decide (d.mem.hLimit0 = 0x009000000000) &&
  decide (d.reg (Reg.poolSize 0) = 0) && decide (d.reg (Reg.poolSize 1) = 0) && decide (d.mem.poison = [])

theorem plain_of {d : Dp} (h : isPlain d = true) : d.Plain := by
  simp only [isPlain, Bool.and_eq_true, decide_eq_true_eq, and_assoc] at h
  obtain ⟨locks, window, limit, pool0, pool1, clean⟩ := h
  exact ⟨locks, window, limit, pool0, pool1, clean⟩

/-- Where some pages of `wide` lie in plain memory, each of their addresses leads to itself. -/
theorem translate_wide {d : Dp} {sp : Nat} (p : isPlain d = true) {k n : Nat} (o : k + n ≤ 2 ^ 18)
    (h : ((List.range n).all fun i => leafIs (d.walk sp (4096 * (k + i))) wide) = true) {v : Nat} {wr sh : Bool}
    (a : 4096 * k ≤ v) (b : v < 4096 * (k + n)) : d.translate sp v wr sh = .ok (.dev v) := by
  have m := List.all_eq_true.mp h (v / 4096 - k) (List.mem_range.mpr (by omega))
  have z : v / wide.size = 0 := Nat.div_eq_of_lt (show v < 2 ^ 30 by omega)
  have t := Dp.translate_plain (plain_of p) (l := wide) (sp := sp) (u := 4096 * (k + (v / 4096 - k))) (v := v) (wr := wr) (sh := sh)
    (by omega) (leaf_eq m) rfl rfl rfl (by simp) (by rw [z]; simp; omega)
  rw [z] at t
  simpa using t

theorem found {x : Option (Nat × Outst)} {m : Nat} (o : Outst) (h : x.map (·.1) = some m) : x = some (m, (x.map (·.2)).getD o) := by
  cases x with
  | none => cases h
  | some y => cases h; rfl

theorem sums_length (F : Nat → FV) : (((List.range 8).map F).map fun v => toLe 4 v.bits32).flatten.length = 32 := by
  simp [length_toLe, List.length_flatten, Function.comp_def] <;> rfl

open Work in
/-- NORM CLOSE ends wherever its arrays lie in plain memory. -/
theorem normClose_plain {e : Env} {base : Nat} {q : NormP} {w : Wk} (h : e.held = []) (kp : e.kept = []) (s : e.sheaf = none) (c : w.d.mem.poison = [])
    (f : w.d.mem.frames = []) (z : w.cells = []) (t : ∀ v, (base ≤ v ∧ v < base + 32768) ∨ (q.stepRec ≤ v ∧ v < q.stepRec + 64) → ∀ wr,
      w.d.translate e.space v wr e.sheaf.isSome = .ok (.dev v)) : ∃ w', Work.normClose e base q w = (.ok (), w') := by
  have m : ∃ slots, (List.range 4096).mapM (fun p => readBytes e (base + 8 * p) 8) { w with poison := false } =
      (.ok slots, { w with poison := false }) := by
    have k : ∀ l : List Nat, (∀ p ∈ l, p < 4096) → ∃ vs, l.mapM (fun p => readBytes e (base + 8 * p) 8) { w with poison := false } =
        (.ok vs, { w with poison := false }) := by
      intro l
      induction l with
      | nil => intro _; exact ⟨[], by rw [List.mapM_nil]; rfl⟩
      | cons p l ih =>
        intro g
        have := g p List.mem_cons_self
        obtain ⟨vs, hs⟩ := ih fun p m => g p (List.mem_cons_of_mem _ m)
        refine ⟨((List.range 8).map fun i => w.d.dpaByte (id (base + 8 * p + i))) :: vs, ?_⟩
        rw [List.mapM_cons, bind_run, readBytes_plain (w := { w with poison := false }) h kp c id 8 (base + 8 * p)
          fun u a b => t u (.inl ⟨by omega, by omega⟩) false]
        dsimp only
        rw [bind_run, hs]
        rfl
    exact k _ fun p m => List.mem_range.mp m
  obtain ⟨slots, hs⟩ := m
  unfold Work.normClose
  rw [bind_run, poisonOf_run hs]
  dsimp only
  rw [if_neg (by decide), bind_run, get_run]
  dsimp only
  generalize hv : ((List.range 4096).filter fun p => decide (leAt (slots.getD p []) 5 1 = 1)) = valid
  have below : ∀ p ∈ valid, p < 4096 := fun p m => by rw [← hv] at m; exact List.mem_range.mp (List.mem_filter.mp m).1
  generalize hb : (_ ++ List.replicate 16 0 : List Byte) = bs
  have len : bs.length = 64 := by rw [← hb]; simp only [List.length_append, length_toLe, sums_length, List.length_replicate]
  rw [bind_run]
  unfold put
  rw [modify_run]
  dsimp only
  rw [bind_run]
  obtain ⟨new, hn, hm⟩ := forIn_put (fun p => base + 8 * p + 5) [0] valid
    { w with cells := w.cells ++ List.zipWith (fun i b => ({ dva := q.stepRec + i, byte := b, poison := false } : Cell)) (List.range bs.length) bs }
  unfold put at hn
  rw [hn]
  dsimp only
  refine flush_plain h s f fun x hx => ?_
  have : (base ≤ x.dva ∧ x.dva < base + 32768) ∨ (q.stepRec ≤ x.dva ∧ x.dva < q.stepRec + 64) := by
    rw [z, List.nil_append] at hx
    rcases List.mem_append.mp hx with m | m
    · obtain ⟨i, hi, e⟩ := List.mem_iff_getElem.mp m
      have k : i < bs.length := by simpa using hi
      rw [← e, List.getElem_zipWith, List.getElem_range]
      exact .inr ⟨Nat.le_add_right _ _, by dsimp only; omega⟩
    · obtain ⟨p, hp, i, hi, e⟩ := hm x m
      have := below p hp
      rw [e]
      exact .inl ⟨by omega, by simp at hi; omega⟩
  exact ⟨_, t _ this true⟩

/-! ### Descriptors -/

def dNop : List Byte := desc 0x00 1 [(16, 8, 0xFFFFFFFFFFFFFFFF)]
def dFence : List Byte := desc 0x01 1 [(16, 1, 1), (20, 4, 5), (24, 8, 2 ^ 63 + 63 * 2 ^ 32 + 1)]
def dLogRead : List Byte := desc 0x02 1 [(16, 1, 3), (20, 4, 1), (32, 8, 0x40000), (40, 8, 64)]
def dMonRead : List Byte := desc 0x03 1 [(16, 1, 63), (17, 1, 1), (32, 8, 0x40000), (40, 8, 192)]
def dGemm (tlist : Nat) : List Byte := desc 0x10 7 ([(16, 4, 1), (20, 4, 1), (24, 4, 1), (28, 2, 1), (33, 1, 1), (34, 1, 1), (40, 8, tlist)] ++
  tensor 64 0x40000 2 [(1, 2), (1, 2)] ++ tensor 192 0x41000 2 [(1, 2), (1, 2)] ++ tensor 320 0x42000 4 [(1, 4), (1, 4)])
def dCopy : List Byte := desc 0x14 5 (tensor 64 0x40000 4 [(2, 4)] ++ tensor 192 0x41000 2 [(2, 2)])
def dIdx (op : Nat) : List Byte := desc op 5 ([(16, 8, 0x43000), (24, 4, 1)] ++ tensor 64 0x40000 4 [(1, 4)] ++ tensor 192 0x41000 4 [(1, 4)])
def dGemmSp : List Byte := desc 0x18 7 ([(16, 4, 1), (20, 4, 1), (24, 4, 4), (28, 1, 3), (29, 1, 3), (30, 1, 2)] ++ rowPack 64 0x40000 2 1 4 4 ++
  tensor 192 0x42000 2 [(1, 2), (4, 2)] ++ tensor 320 0x43000 4 [(1, 4), (1, 4)])
def dCompress : List Byte := desc 0x19 5 ([(16, 1, 0)] ++ tensor 64 0x40000 4 [(4, 4), (1, 16)] ++ rowPack 192 0x41000 4 1 4 4)
def dMask (op g : Nat) : List Byte := desc op 8 (inSheaf ++ [(16, 1, 4 * g)] ++ rowPack 64 0x40000 4 1 4 4)
def dPredict (spec : Nat) : List Byte := desc 0x23 7 ([(16, 4, 1), (20, 4, 1), (24, 2, 16), (26, 1, spec), (32, 8, 0x48000)] ++ tensor 64 0x40000 2 [(1, 2), (1, 2)] ++
  tensor 192 0x41000 0 [(16, 1), (1, 16)] ++ tensor 320 0x42000 0 [(1, 1), (16, 1)])
def dFused (tlist : Nat) : List Byte := desc 0x28 8 ([(17, 1, 2)] ++ tensor 64 0x40000 2 [(1, 2), (1, 2)] ++ tensor 192 0x41000 2 [(1, 2), (1, 2)] ++
  tensor 320 0x42000 2 [(1, 2), (1, 2)] ++ [(448, 8, 0x43000), (456, 4, 4), (504, 8, tlist)])
def dUpdate (b : Nat) : List Byte := desc 0x30 7 (inSheaf ++ [(16, 1, b), (24, 8, 0x45000)] ++ tensor 64 0x40000 4 [(1, 4)] ++
  tensor 192 0x41000 4 [(1, 4)] ++ (if b = 1 then [(320, 8, 0x46000), (328, 8, 0x47000)] else []))
def dAccum : List Byte := desc 0x30 7 (inSheaf ++ [(16, 1, 3)] ++ tensor 64 0x40000 4 [(1, 4)] ++ [(360, 8, 0x46000)])
def dStep : List Byte := desc 0x30 1 [(16, 1, 4), (24, 8, 0x45000)]
def dNorm (mode : Nat) : List Byte := if mode = 0 then desc 0x31 3 (tensor 64 0x40000 4 [(1, 4)]) else
  desc 0x31 1 [(16, 1, mode), (20, 4, mode - 1), (24, 8, 0x45000)]
def dRecompute : List Byte := desc 0x32 1 [(24, 8, 0x40000), (32, 8, 128)]
def dSheafOpen : List Byte := desc 0x38 1 (inSheaf ++ [(16, 8, 0x20010000000), (24, 4, 256)])
def dSheafEnd (op : Nat) : List Byte := desc op 1 (inSheaf)
def dDispatch : List Byte := desc 0x40 6 ([(17, 1, 1), (24, 4, 1), (28, 2, 1), (32, 4, 1)] ++ tensor 64 0x40000 4 [(1, 4), (1, 4)] ++
  tensor 192 0x41000 2 [(1, 2), (1, 2)] ++ [(320, 8, 0x50000), (328, 8, 0x51000), (336, 8, 0x52000), (344, 8, 0x53000), (352, 8, 0x54000)])
def dReplay : List Byte := desc 0x40 6 ([(16, 1, 4), (17, 1, 1), (24, 4, 1), (28, 2, 1), (32, 4, 1)] ++ tensor 192 0x41000 2 [(1, 2), (1, 2)] ++
  [(320, 8, 0x50000), (328, 8, 0x51000), (336, 8, 0x52000), (344, 8, 0x53000), (352, 8, 0x54000)])
def dRun : List Byte := desc 0x40 2 [(16, 1, 1), (17, 1, 1), (24, 4, 1), (28, 2, 1), (32, 4, 1), (40, 8, 0x55000), (64, 8, 0x50000),
  (72, 8, 0x51000), (80, 8, 0x52000), (88, 8, 0x53000), (96, 8, 0x54000)]
def dCombine : List Byte := desc 0x40 4 ([(16, 1, 2), (17, 1, 1), (24, 4, 1), (28, 2, 1), (32, 4, 1)] ++ tensor 64 0x40000 2 [(1, 2), (1, 2)] ++
  [(192, 8, 0x50000), (200, 8, 0x51000), (208, 8, 0x52000), (216, 8, 0x53000), (224, 8, 0x54000)])
def dCancel : List Byte := desc 0x41 1 []
def dReduce : List Byte := desc 0x48 5 (tensor 64 0x40000 4 [(1, 4)] ++ tensor 192 0x41000 4 [(1, 4)])
/-- An ALL_GATHER of `n` elements. -/
def dGather2 (n : Nat) : List Byte := desc 0x48 5 ([(16, 1, 2)] ++ tensor 64 0x40000 4 [(1, 4)] ++ tensor 192 0x41000 4 [(n, 4)])
def dReduceRec : List Byte := desc 0x48 1 [(16, 1, 3), (32, 8, 0x45000), (40, 8, 0x46000)]
def dMsg (op : Nat) : List Byte := desc op 1 (match op with
  | 0x49 => [(24, 8, 0x40000), (32, 8, 0x41000), (40, 8, 64)]
  | 0x4C => []
  | _ => [(18, 2, 1), (24, 8, 0x40000), (32, 8, 64)])
def dTake : List Byte := desc 0x50 2 [(32, 8, 0x40000000000), (56, 4, 1)]
def dDrain : List Byte := desc 0x50 2 [(16, 1, 13), (32, 8, 0x40000000000), (64, 8, 0x60000)]
def dUnlock : List Byte := desc 0x50 1 [(16, 1, 2), (32, 8, 0x40000000000)]
def dRestore : List Byte := desc 0x51 2 [(24, 8, 0x40000000000), (48, 4, 1)]
def dMaint : List Byte := desc 0x58 1 [(16, 1, 1)]
def dMove (demote : Bool) : List Byte := if demote then desc 0x09 1 [(16, 8, 2 ^ 30), (24, 8, 4096), (32, 1, 1), (40, 8, 0x20008200000)]
  else desc 0x08 1 [(16, 8, 2 ^ 30 + 4096), (24, 8, 4096), (40, 8, 0x71000), (48, 1, 1)]

/-- Group 0 of two modules, of which this one is rank `r`, coordinated by rank 0 (Table 12.9). -/
def group (r : Nat) : List (Nat × Byte) :=
  cells 0x4A000 (toLe 2 2 ++ toLe 2 r ++ toLe 2 0 ++ toLe 1 1 ++ toLe 1 0 ++ toLe 8 0x4B000) ++
  cells 0x4B000 (toLe 2 0 ++ toLe 1 1 ++ toLe 29 0 ++ toLe 2 1 ++ toLe 1 1)

/-- A module on a pod, with that group. -/
def onPod (r : Nat) (regs : List (Nat × Nat)) (mem : List (Nat × Byte)) : Dp :=
  small ([(Reg.lnkCtl, 1), (Reg.lnkId, r), (Reg.lnkGrpBase, 0x4A000)] ++ regs) (mem ++ group r)

/-- A step record of step 7 at 0x45000, with flags `f`, of one contribution (Table 8.2). -/
def record (f : Nat) : List (Nat × Byte) := cells 0x45000 (toLe 8 7 ++ toLe 1 f ++ toLe 3 0 ++ toLe 4 1)

/-- Two pages of 4 KiB at 1 GiB: the first in tier H, the second in tier L (Tables 1.4 and 1.5). -/
def pages : List (Nat × Byte) :=
  cells 0x20008 (toLe 8 0x30001) ++ cells 0x30000 (toLe 8 0x31001) ++ cells 0x31000 (toLe 8 0x70082 ++ toLe 8 0x20008000092)

/-- The expert table of one expert, owned by module 0 at its local slot 0, at 0x51000 (Table 10.2). -/
def expert : List Byte := toLe 8 0x56000 ++ toLe 8 0x1000 ++ toLe 8 0x800 ++ toLe 4 0 ++ toLe 1 1 ++ toLe 11 0

/-- A LIVE generation of the DISPATCH `dDispatch`, whose expert received no token. -/
def gen0 : Gen := { st := .live, body := dDispatch, members := [0, 1], nl := 1, table := [expert], fill := [0], ansRow := 128 }

/-- An outstanding descriptor number 5 of ring 0. -/
def outst (bs : List Byte) (ph : Phase) : Outst :=
  { uid := 5, seq := 0, op := leAt bs 0 1, cls := 0, cmode := 0, sheaf := none, bytes := bs, phase := ph, start := 0, lsExp := 0, streams := [] }

/-- Data plane `d` with descriptor `bs` outstanding on ring 0. -/
def holding (d : Dp) (bs : List Byte) (ph : Phase) : Dp := d.setRing 0 { state := .running, outst := [outst bs ph] }

/-- A module whose Gleaner has an earlier move to do in half 0: a PROMOTE of ring 63 waits for it. -/
def gleaning : Dp :=
  { (small [] []).setRing 63 { state := .running, outst := [outst (dMove false) (.stalled (.gleaner 0))] } with nextUid := 6 }

/-- An outstanding BARRIER of COLL_ID 7 with a time-out. -/
def barrier0 : Coll :=
  { uid := 5, ring := 0, op := 0x4C, o := outst (desc 0x4C 1 [(20, 4, 7), (24, 4, 9)]) .running, id := 7, group := 0, members := [0, 1],
    rank := 0, coord := 0, start := 0 }

/-- A module with a TAKE outstanding as number 5, in the state `x`. -/
def taking (x : Snap) : State :=
  { State.reset with dp := { holding (small [] []) dTake .running with snaps := [x] } }

/-- An entry of that group's member table. -/
abbrev member (p : Nat) : Member := { endpoint := p, ports := 1, mac := List.replicate 6 0, ip6 := List.replicate 16 0 }

/-- The group of `onPod`. -/
abbrev pair : Group := { rank := 0, coord := 0, members := [member 0, member 1] }

/-- State.reset with register `r` at `v`. -/
abbrev withReg (r v : Nat) : State :=
  { State.reset with dp := { State.reset.dp with regs := State.reset.dp.regs.commit r (BitVec.ofNat 64 v) } }

theorem works_some {α : Type} {m : M α} {a : Dp} (h : (answer m a).isSome = true) :
    Dp.Works m a ((answer m a).get h) (after m a) := works (by simp)

theorem granted_pair {α : Type} {p : Bool × α} (h : p.1 = true) : p = (true, p.2) := by
  obtain ⟨x, y⟩ := p
  cases h
  rfl

/-- Some descriptor of an opcode is granted and meets `P` (the hypotheses of the statements about descriptors). -/
def Met (op : Nat) (mine : List Byte → Bool) (spans : List Byte → List Span) (convs : List Byte → List Conv)
    (P : Fin 64 → Hdr → List Byte → OpCtx → Dp → Outst → Dp → Prop) : Prop :=
  ∃ (s : State) (n : Fin 64) (h : Hdr) (bs : List Byte) (c : OpCtx) (d : Dp) (o : Outst) (a : Dp),
    s.Enters n op mine spans h bs (convs bs) c d o a ∧ P n h bs c d o a

theorem met {op : Nat} {mine : List Byte → Bool} {spans : List Byte → List Span} {convs : List Byte → List Conv}
    {P : Fin 64 → Hdr → List Byte → OpCtx → Dp → Outst → Dp → Prop} (s : State) (bs : List Byte)
    (h : grants s op mine spans bs = true)
    (p : P 0 (parseHdr bs) bs (ctx s spans bs) (taken s bs) (rec_ s spans bs (convs bs)) (begun s spans bs (convs bs))) :
    Met op mine spans convs P :=
  ⟨s, 0, _, _, _, _, _, _, enters (convs bs) h, p⟩

/-- The same where the streams captured depend on what the descriptor reads. -/
def MetBy (op : Nat) (mine : List Byte → Bool) (spans : List Byte → List Span) (convs : OpCtx → Dp → List Conv)
    (P : Fin 64 → Hdr → List Byte → OpCtx → Dp → Outst → Dp → Prop) : Prop :=
  ∃ (s : State) (n : Fin 64) (h : Hdr) (bs : List Byte) (c : OpCtx) (d : Dp) (o : Outst) (a : Dp),
    s.Enters n op mine spans h bs (convs c d) c d o a ∧ P n h bs c d o a

theorem metBy {op : Nat} {mine : List Byte → Bool} {spans : List Byte → List Span} {convs : OpCtx → Dp → List Conv}
    {P : Fin 64 → Hdr → List Byte → OpCtx → Dp → Outst → Dp → Prop} (s : State) (bs : List Byte) (cs : List Conv)
    (h : grants s op mine spans bs = true) (e : convs (ctx s spans bs) (taken s bs) = cs)
    (p : P 0 (parseHdr bs) bs (ctx s spans bs) (taken s bs) (rec_ s spans bs cs) (begun s spans bs cs)) :
    MetBy op mine spans convs P := by
  subst e
  exact ⟨s, 0, _, _, _, _, _, _, enters _ h, p⟩

/-- No random stream is captured. -/
abbrev noConvs : List Byte → List Conv := fun _ => []

/-- A module with nothing but descriptor `bs` at the head of ring 0. -/
abbrev plain (bs : List Byte) : State := fetched (small [] []) bs
/-- With sheaf 1 open, and a closed and reduced step record. -/
abbrev shadowed (bs : List Byte) : State := fetched (opened (small [] (record 6))) bs
/-- On a pod of two, as rank 0, with a closed record that is not reduced. -/
abbrev podded (bs : List Byte) : State := fetched (onPod 0 [] (record 4)) bs


/-! ### Well-formed commands -/

/-- A frame with nothing in it. -/
abbrev frame0 : Culm := { ty := 0, ember := false }

theorem test_wf_refuses : ([.sqTail 0 (2 ^ 32), .cqHead 0 (2 ^ 32), .nqHead 0 (2 ^ 32), .descriptorFetch 0 [([], false)],
    .descriptorFetch 0 (List.replicate 33 (List.replicate 64 0, false)), .ringResumeCancel 0 [[]], .registerWrite 4 8 0,
    .registerWrite 0 2 0, .registerWrite (2 ^ 26) 4 0, .registerWrite 0 4 (2 ^ 32), .atuInv 0 0 (2 ^ 52),
    .atsInvalidation (some (2 ^ 20)) 0 0, .atsInvalidation none (2 ^ 52) 0, .atsInvalidation none 0 (2 ^ 52),
    .descriptorComplete 0 (2 ^ 32), .countExchange (2 ^ 16) 0 [], .countExchange 0 256 [], .expertFetchDone (2 ^ 16) 0,
    .expertFetchDone 0 (2 ^ 16), .a2aTimeout (2 ^ 16), .barrierTimeout (2 ^ 32), .promotionDone 0 (2 ^ 52),
    .hdmWindowAccess (2 ^ 41) .shared, .hdmWindowAccess 0 (.write []), .fpDeadline (2 ^ 32) 0, .fpDeadline 0 (2 ^ 64),
    .netTimeout (2 ^ 32), .frameDiscard (some (2 ^ 12, 0, 0)), .frameDiscard (some (0, 2, 0)), .frameDiscard (some (0, 0, 2 ^ 32)),
    .ackTimer (2 ^ 12) 0, .reorderTimeout (2 ^ 12) 0, .retxTimeout (2 ^ 12) 0, .deadlineExpiry (2 ^ 32), .peerTimeout (2 ^ 32),
    .stragglerTimeout (2 ^ 32) 0, .stragglerTimeout 0 (2 ^ 16)] : List Instr).all (fun c => !c.wf) = true := by decide +kernel

theorem test_wf_refuses_events : ([.correctableError false (2 ^ 43) 0, .correctableError false 0 (2 ^ 32),
    .uncorrectableError (.line false (2 ^ 43) 0), .uncorrectableError (.line false 0 (2 ^ 32)), .uncorrectableError (.host (2 ^ 64)),
    .uncorrectableError (.bin 0 8), .uncorrectableError (.crib 0 8 0), .parityRefetch (.granary (2 ^ 43) false),
    .parityRefetch (.bin 0 8 false), .cribParity 0 8 0, .flitRetry false 0, .flitRetry false 9, .ideIntegrityFailure (2 ^ 32),
    .powerCap (2 ^ 32) 0 0, .powerCapRelease (2 ^ 32), .powerExcursion (2 ^ 32), .currentLimit (2 ^ 32), .vinOutOfRange (2 ^ 16),
    .vinCollapse (2 ^ 16), .vinRise (2 ^ 16), .drain (2 ^ 43), .maintActivityEnd (2 ^ 32), .queueTimeout (2 ^ 32), .mntCancel (2 ^ 32),
    .autoRtRequest 0 32, .klnRcvGo (List.replicate 7 []), .spdmRequest 0 (.certificate 16 0 0), .spdmRequest 0 (.certificate 0 (2 ^ 16) 0),
    .spdmRequest 0 (.certificate 0 0 (2 ^ 16)), .spdmRequest 0 (.challenge 16), .spdmRequest 0 (.measurements 256 false),
    .spdmRequest 0 (.heartbeat (2 ^ 32)), .spdmRequest 0 (.keyUpdate (2 ^ 32)), .spdmRequest 0 (.endSession (2 ^ 32)),
    .spdmRequest 0 (.token []), .spdmRequest 0 (.windowRead (2 ^ 26) 0), .spdmRequest 0 (.windowRead 0 (2 ^ 16)),
    .spdmRequest 0 (.windowWrite 1 4 0), .ideKm 0 0 [], .ashRead (2 ^ 16) 0, .ashRead 0 256, .mctpMonRead 256 0, .mctpMonRead 0 256,
    .monitorSample (List.replicate 65 (0, 0, 0)), .debugWindowWrite 2 4 0] : List Instr).all (fun c => !c.wf) = true := by decide +kernel

theorem test_wf_refuses_frames : ([{ frame0 with ty := 16 }, { frame0 with epoch := 4 }, { frame0 with src := 2 ^ 12 },
    { frame0 with dst := 2 ^ 12 }, { frame0 with group := 2 ^ 16 }, { frame0 with psn := 2 ^ 32 }, { frame0 with msg := 2 ^ 32 },
    { frame0 with ofs := 2 ^ 64 }, { frame0 with aux := 256 }, { frame0 with aux2 := 256 }, { frame0 with aux32 := 2 ^ 32 },
    { frame0 with payload := List.replicate 4097 0 }] : List Culm).all (fun f => !(Instr.data f).wf && !(Instr.ack f).wf) = true := by
  decide +kernel

theorem test_wf_accepts : ([.sqTail 63 (2 ^ 32 - 1), .registerWrite 0x3FFFFF8 8 (2 ^ 64 - 1), .descriptorFetch 0 [(List.replicate 64 0, true)],
    .nop 63, .hdmWindowAccess (2 ^ 41 - 1) (.write (List.replicate 64 0)), .flitRetry true 8, .klnRcvGo (List.replicate 6 []),
    .data { frame0 with ty := 15, payload := List.replicate 4096 0 }, .spdmRequest 1 (.token (List.replicate 128 0))] : List Instr).all
    Instr.wf = true := by decide +kernel

theorem test_no_words : decodeTableWord 8 0 = none ∧ (State.reset.withFetchWord 8 0).pending = [] := by decide +kernel

/-! ### Numbers -/

-- R47 and Table 2.2: 0x7F of F8n is an alias of 448, 0x7E its canonical code; 0x80 is its NaN.
theorem test_f8n_codes : Fmt.f8n.decode 0x7F = .fin false 14 5 ∧ Fmt.f8n.decode 0x7E = .fin false 14 5 ∧
    (Fmt.f8n.decode 0x80).isNan = true ∧ Fmt.f8n.convert true .nearestEven (.fin false 14 5) = 0x7E := by decide +kernel

-- R56 and Table 2.6: 464 rounds to 448, above it F8n overflows to NaN with SAT = 0.
theorem test_f8n_overflow : Fmt.f8n.convert false .nearestEven (.fin false 464 0) = 0x7E ∧
    Fmt.f8n.convert false .nearestEven (.fin false 465 0) = 0x80 ∧ Fmt.f8n.convert true .nearestEven (.fin true 465 0) = 0xFE := by
  decide +kernel

-- The worked example of chapter 2: 250 is stored as 0x78, and with a drawn r = 0x5A3C19E7 as 0x77.
theorem test_f8n_example : Fmt.f8n.convert false .nearestEven (.fin false 250 0) = 0x78 ∧
    Fmt.f8n.convert false (.stochastic 0x5A3C19E7) (.fin false 250 0) = 0x77 := by decide +kernel

/-! ### Commands -/

-- Table 19.2: reset values of a ring's configuration, the maintenance control and the power cap.
theorem test_reset_registers : State.reset.dp.reg (Reg.ringCfg 63) = 0x0810600300000000 ∧ State.reset.dp.reg Reg.mntCtl = 0x27100002 ∧
    State.reset.dp.reg Reg.pwrCap = 0x0AF00BB80001 := by decide +kernel

/-- What a command leaves, as `f` reads it. -/
def sees {α : Type} (c : Instr) (s : State) (f : State → α) : Option α :=
  match exec c s with
  | .next t => some (f t)
  | _ => none

-- R320: a doorbell of a disabled ring sets RING_STAT.DB_ERR.
theorem test_doorbell_disabled : sees (.sqTail 0 1) State.reset (fun t => (t.dp.regs.statVal Reg.ringStat).bit 1) = some true := by
  decide +kernel

-- R9: a write of 4 bytes leaves the other half of the staged value alone.
theorem test_half_write : sees (.registerWrite (Reg.pwrCap + 4) 4 0xFFFFFFFF) State.reset (fun t => t.dp.regs.stagedVal Reg.pwrCap) =
    some 0xFFFF0BB80001 := by decide +kernel

-- R344: a reserved encoding (CTX_MAX 9) keeps the old value and sets CFG_ERR.
theorem test_reserved_kept : sees (.registerCommit (.tlr 5))
    { State.reset with dp := { State.reset.dp with regs := State.reset.dp.regs.stage (Reg.tlrCtl 5) 9 } }
    (fun t => (t.dp.reg (Reg.tlrCtl 5), t.dp.regs.stagedVal (Reg.tlrCtl 5), (t.dp.regs.statVal (Block.tlr 5).stat.1).bit 0)) =
    some (8, 8, true) := by decide +kernel

-- R493: 100 °C throttles half 1, which runs at SLOW8 at once when it is gated by no epoch; 99.9375 °C does not.
theorem test_throttle : sees (.throttleStart 31 1600) State.reset (fun t => (t.pwr.goal 0, t.pwr.goal 1)) = some (0, 1) ∧
    sees (.throttleStart 31 1599) State.reset (fun t => (t.pwr.goal 0, t.pwr.goal 1)) = some (0, 0) := by decide +kernel

-- R457: a counter never falls.
theorem test_counter : ((State.reset.kiln.advance 2 9).advance 2 4).counter 2 = 9 := by decide +kernel

-- R346, R353: while no command waits the time goes by.
theorem test_idle : (match step State.reset with | .next t => t.dp.now | _ => 0) = State.reset.dp.now + 10 := by decide +kernel

/-! ### Witnesses: descriptors -/

theorem witness_NopCompletes :
    (Met 0x00 everyForm noSpans noConvs fun _ h bs _ _ _ _ => h.slots = 1 ∧ h.sheafEn = false ∧ zeroAt bs 24 40 = true) ∧
    (Met 0x00 everyForm noSpans noConvs fun _ h bs _ _ _ _ => h.slots = 1 ∧ h.sheafEn = false ∧ zeroAt bs 24 40 = false) ∧
    (Met 0x00 everyForm noSpans noConvs fun _ h _ _ _ _ _ => h.slots ≠ 1 ∨ h.sheafEn = true) :=
  ⟨met (plain dNop) dNop (by decide +kernel) (by decide +kernel),
   met (plain (desc 0 1 [(63, 1, 1)])) (desc 0 1 [(63, 1, 1)]) (by decide +kernel) (by decide +kernel),
   met (plain (desc 0 2 [])) (desc 0 2 []) (by decide +kernel) (by decide +kernel)⟩

/-- A FENCE outstanding on ring 0 that waits for a descriptor of ring 63. -/
abbrev fenceWaiting : State :=
  { State.reset with dp := (small [] []).setRing 0 { state := .running, outst := [rec_ (plain dFence) noSpans dFence []] } }

theorem witness_FenceWaitsAndTimesOut :
    (Met 0x01 everyForm noSpans noConvs fun n h bs _ d _ _ => firstBad (fenceBad n h bs ++ d.sheafBad n h .never) = none) ∧
    (∃ (s : State) (n : Fin 64) (o : Outst), s.hostLive = true ∧
      (s.dp.ring n).outst.find? (fun o => o.op = 0x01 && o.phase = .running) = some o ∧ leAt o.bytes 20 4 ≠ 0 ∧
      s.dp.fenceReady n o = false) :=
  ⟨met (plain dFence) dFence (by decide +kernel) (by decide +kernel),
   ⟨fenceWaiting, 0, { rec_ (plain dFence) noSpans dFence [] with phase := .running }, by decide +kernel⟩⟩

theorem witness_LogAndMonitorReadsCopy :
    (Met 0x02 everyForm logReadSpans noConvs fun n _ bs c d o a =>
      d.Accepts c (logReadBad bs) .never (leAt bs 32 8 % 64 ≠ 0) false ∧
      ∃ (z : Nat) (w : Wk), Dp.Works (logReadWork (a.envOf n o) bs) a z w) ∧
    (Met 0x03 everyForm monReadSpans noConvs fun n _ bs c d o a =>
      d.Accepts c (monReadBad bs) .never (leAt bs 32 8 % 64 ≠ 0) false ∧
      ∃ w : Wk, Dp.Works (monReadWork (a.envOf n o) bs) a () w) :=
  ⟨met (plain dLogRead) dLogRead (by decide +kernel) ⟨accepted_of (by decide +kernel), 1, _, works (by decide +kernel)⟩,
   met (plain dMonRead) dMonRead (by decide +kernel) ⟨accepted_of (by decide +kernel), _, works (by decide +kernel)⟩⟩

theorem witness_PagesMove (demote : Bool) :
    (Met (if demote then 0x09 else 0x08) everyForm noSpans noConvs fun n h bs _ d o a =>
      firstBad (moveBad demote bs ++ d.sheafBad n h .never) = none ∧ leAt bs 24 8 ≠ 0 ∧
      a.gleanerBusy (a.stokerHalf n) o.uid = false ∧ ∃ (v : Nat) (r b : Dp), r = a.setPhase o.uid .running ∧
        r.moveOne demote bs o.space (r.stokerHalf n) (leAt bs 16 8) = (.moved v, b) ∧ leAt bs 16 8 + leAt bs 24 8 ≤ v) ∧
    (Met (if demote then 0x09 else 0x08) everyForm noSpans noConvs fun n h bs _ d o a =>
      firstBad (moveBad demote bs ++ d.sheafBad n h .never) = none ∧ a.gleanerBusy (a.stokerHalf n) o.uid = true) := by
  cases demote
  · exact ⟨met (fetched (small [] pages) (dMove false)) (dMove false) (by decide +kernel)
      ⟨by decide +kernel, by decide +kernel, by decide +kernel, 2 ^ 30 + 8192, _, _, rfl,
        Prod.ext (show Prod.fst _ = _ by decide +kernel) rfl, by decide +kernel⟩,
      met (fetched gleaning (dMove false)) (dMove false) (by decide +kernel) (by decide +kernel)⟩
  · exact ⟨met (fetched (small [] pages) (dMove true)) (dMove true) (by decide +kernel)
      ⟨by decide +kernel, by decide +kernel, by decide +kernel, 2 ^ 30 + 4096, _, _, rfl,
        Prod.ext (show Prod.fst _ = _ by decide +kernel) rfl, by decide +kernel⟩,
      met (fetched gleaning (dMove true)) (dMove true) (by decide +kernel) (by decide +kernel)⟩

/-- The tile list that GEMM `bs` names, as its ring reads it. -/
abbrev gemmList (c : OpCtx) (bs : List Byte) (d : Dp) : Option (Bool × List TileRow × List TileRow) :=
  Dp.tileListOf c (parseGemm bs).tlist d

/-- Is the tile list that GEMM `bs` names malformed. -/
abbrev gemmListBad (c : OpCtx) (n : Fin 64) (bs : List Byte) (d : Dp) : Bool :=
  (gemmList c bs d).any fun x => (scannedParts (parseGemm bs).ownOrder (d.halvesOf n) x).isNone

/-- Do the outcome table and the crib let a GEMM with a good tile list start. -/
abbrev GemmAccepts (n : Fin 64) (bs : List Byte) (c : OpCtx) (d : Dp) : Prop :=
  gemmListBad c n bs d = false ∧ d.Accepts c (GemmP.bad bs) .may (parseGemm bs).misaligned (parseGemm bs).overlaps ∧
  d.cribRefusal (Dp.receiving (Dp.judgedParts (parseGemm bs).ownOrder (d.halvesOf n) (gemmList c bs d)))
    (parseGemm bs).need (parseGemm bs).groupKib = none

theorem witness_GemmStarts :
    (Met 0x10 everyForm (fun bs => (parseGemm bs).spans) (fun bs => [(parseGemm bs).d.conv]) fun n _ bs c d _ _ =>
      firstBad (GemmP.bad bs) = none ∧ gemmListBad c n bs d = true) ∧
    (Met 0x10 everyForm (fun bs => (parseGemm bs).spans) (fun bs => [(parseGemm bs).d.conv]) fun n _ bs c d o a =>
      GemmAccepts n bs c d ∧ a.hasList o.uid = false ∧ (parseGemm bs).tlist = 0 ∧
      ∃ b, a.declareFor n o (a.stokerHalf n) (Dp.storedRanges o.spans) = (true, b)) ∧
    (Met 0x10 everyForm (fun bs => (parseGemm bs).spans) (fun bs => [(parseGemm bs).d.conv]) fun n _ bs c d o a =>
      GemmAccepts n bs c d ∧ a.hasList o.uid = false ∧ (parseGemm bs).tlist ≠ 0 ∧
      ∃ (x : Bool × List TileRow × List TileRow) (parts : List (Nat × List Entry)) (w : Wk) (b : Dp),
        Dp.Works (Work.readTileList (a.envOf n o) (parseGemm bs).tlist) a x w ∧
        scannedParts (parseGemm bs).ownOrder (a.halvesOf n) x = some parts ∧
        w.d.declareFor n o (w.d.stokerHalf n) (Dp.storedRanges o.spans) = (true, b)) :=
  ⟨met (plain (dGemm 0x60000)) (dGemm 0x60000) (by decide +kernel) (by decide +kernel),
   met (plain (dGemm 0)) (dGemm 0) (by decide +kernel)
    ⟨⟨by decide +kernel, accepted_of (by decide +kernel), by decide +kernel⟩, by decide +kernel, by decide +kernel, _,
      granted_pair (by decide +kernel)⟩,
   met (fetched (small [] [(0x60000, 1)]) (dGemm 0x60000)) (dGemm 0x60000) (by decide +kernel)
    ⟨⟨by decide +kernel, accepted_of (by decide +kernel), by decide +kernel⟩, by decide +kernel, by decide +kernel,
      (false, [{ im := 0, jn := 0, slice := 0, kind := 0, rsv := 0, batch := 0 }], []), _, _, _, works (by decide +kernel),
      Option.some_get (by decide +kernel) |>.symm, granted_pair (by decide +kernel)⟩⟩

theorem witness_CopiesStart :
    (Met 0x14 everyForm copySpans (fun bs => [if copyCmp bs then (parseS bs 320).conv else (parseT bs 192).conv])
      fun n _ bs c d o a =>
      d.Accepts c (copyBad bs) .may ((!copyFill bs && (parseT bs 64).misaligned) ||
        (if copyCmp bs then (parseS bs 320).misaligned else (parseT bs 192).misaligned)) (copyOverlaps bs) ∧
      d.cribRefusal (Dp.receiving (Dp.divide (d.halvesOf n) (elementTiles (parseT bs 192).count))) 0 0 = none ∧ copyCmp bs = false ∧ a.hasList o.uid = false ∧
      ∃ b, a.declareFor n o (a.stokerHalf n) (Dp.storedRanges o.spans) = (true, b)) ∧
    (Met 0x15 everyForm (fun bs => (parseIdx bs).spans) (fun bs => [(parseIdx bs).t.conv]) fun n _ bs c d o a =>
      d.Accepts c (IdxP.bad true bs) .may (parseIdx bs).misaligned (parseIdx bs).overlaps ∧
      d.cribRefusal (Dp.receiving (Dp.divide (d.halvesOf n) (elementTiles (parseIdx bs).t.count))) 0 0 = none ∧ a.hasList o.uid = false ∧
      ∃ (l : List (Option Nat × Nat)) (w : Wk) (r : Dp),
        Dp.Works (Work.scanIndexes (a.envOf n o) (parseIdx bs) (TDesc.at0 (parseIdx bs).s.ext (parseIdx bs).gdim)) a (l, false) w ∧
        r = w.d.modOutst n o.uid (fun o => { o with resolved := l.map (·.1), count := idxResult l }) ∧
        ∃ b, r.declareFor n o (r.stokerHalf n) (Dp.storedRanges o.spans) = (true, b)) ∧
    (Met 0x16 everyForm (fun bs => (parseIdx bs).spans) (fun bs => [(parseIdx bs).t.conv]) fun n _ bs c d o a =>
      d.Accepts c (IdxP.bad false bs) .may (parseIdx bs).misaligned (parseIdx bs).overlaps ∧
      d.cribRefusal (Dp.receiving (Dp.divide (d.halvesOf n) (elementTiles (parseIdx bs).t.count))) 0 0 = none ∧ a.hasList o.uid = false ∧
      ∃ (l : List (Option Nat × Nat)) (w v : Wk) (b : Dp) (held : List (Nat × Nat × Bool)),
        Dp.Works (Work.scanIndexes (a.envOf n o) (parseIdx bs) (TDesc.at0 (parseIdx bs).t.ext (parseIdx bs).gdim)) a (l, false) w ∧
        w.d.declareFor n o (a.stokerHalf n) (Dp.storedRanges o.spans) = (true, b) ∧
        Dp.Works (prePass (b.envOf n o) (parseIdx bs) (l.map (·.1))) b held v) :=
  ⟨met (plain dCopy) dCopy (by decide +kernel) ⟨accepted_of (by decide +kernel), by decide +kernel, by decide +kernel,
      by decide +kernel, _, granted_pair (by decide +kernel)⟩,
   met (plain (dIdx 0x15)) (dIdx 0x15) (by decide +kernel) ⟨accepted_of (by decide +kernel), by decide +kernel,
      by decide +kernel, [(some 0, 0)], _, _, works (by decide +kernel), rfl, _, granted_pair (by decide +kernel)⟩,
   met (plain (dIdx 0x16)) (dIdx 0x16) (by decide +kernel) ⟨accepted_of (by decide +kernel), by decide +kernel,
      by decide +kernel, [(some 0, 0)], _, _, _, _, works (by decide +kernel), granted_pair (by decide +kernel),
      works_some (by decide +kernel)⟩⟩

/-- Do the outcome table and the crib let a GEMM_SP start. -/
abbrev SpAccepts (bs : List Byte) (c : OpCtx) (d : Dp) : Prop :=
  d.Accepts c (SpP.bad bs) .may ((parseSp bs).misaligned bs) (parseSp bs).overlaps ∧ spRefusal c (parseSp bs) d = none

theorem witness_SparseStarts :
    (Met 0x18 everyForm (fun bs => (parseSp bs).spans) (fun bs => [(parseSp bs).d.conv]) fun n _ bs c d o a =>
      ∃ p, (parseSp bs).path = some p ∧ SpAccepts bs c d ∧ a.hasList o.uid = false ∧ (parseSp bs).splits p a n o = false ∧
      ∃ w : Wk, Dp.Works (pure [] : M (List Nat)) a [] w ∧
        w.d.cribRefusal (Dp.receiving (Dp.divide (a.halvesOf n) (spOrder (parseSp bs) p none))) (SpP.need p) 0 = none) ∧
    (Met 0x19 everyForm compressSpans (fun bs => [(parseS bs 192).conv]) fun n _ bs c d o a =>
      d.Accepts c (compressBad bs) .may ((parseT bs 64).misaligned || (parseS bs 192).misaligned)
        (Dp.selfOverlap ((parseS bs 192).spans true) ((parseT bs 64).spans false)) ∧
      ∃ (b : Dp) (x : Nat) (w : Wk), a.declareFor n o (a.stokerHalf n) (Dp.storedRanges o.spans) = (true, b) ∧
        Dp.Works (compressWork (b.envOf n o) (parseT bs 64) (parseS bs 192) ((leAt bs 16 1).testBit 0)) b x w) :=
  ⟨met (plain dGemmSp) dGemmSp (by decide +kernel) ⟨.expand, by decide +kernel, ⟨accepted_of (by decide +kernel), by decide +kernel⟩,
      by decide +kernel, by decide +kernel, _, works (by decide +kernel), by decide +kernel⟩,
   met (plain dCompress) dCompress (by decide +kernel) ⟨accepted_of (by decide +kernel), _, _, _,
      granted_pair (by decide +kernel), works_some (by decide +kernel)⟩⟩

/-- The conversion that MasksRebuild captures for random keys (Table 6.8). -/
abbrev maskConv (op : MaskOp) (q : MaskP) : Conv :=
  { stream := q.stream, radv := q.radv, sr := op ≠ .prune && q.r.form ≠ 0 && q.gCrit = 1, sat := false, lsm := false,
    lsg := false, code := 4 }

/-- The streams that a mask command captures. -/
abbrev maskConvs (op : MaskOp) (bs : List Byte) : List Conv := [maskConv op (parseMask bs), (parseMask bs).r.conv]

/-- What the outcome table asks of a mask command. -/
abbrev MaskAccepts (op : MaskOp) (bs : List Byte) (c : OpCtx) (d : Dp) : Prop :=
  d.Accepts c (MaskP.bad op bs) .must ((parseMask bs).misaligned op) (Dp.selfOverlap (parseMask bs).outs ((parseMask bs).ins op))

/-- The opcode of a mask command. -/
abbrev maskCode (op : MaskOp) : Nat := match op with | .prune => 0x20 | .regrow => 0x21 | .remask => 0x22

/-- What a mask command that stays within the limits does. -/
abbrev Rebuilds (op : MaskOp) (n : Fin 64) (bs : List Byte) (c : OpCtx) (d : Dp) (o : Outst) (a : Dp) : Prop :=
  MaskAccepts op bs c d ∧ maskLimits op c (maskConvs op bs) d = false ∧
  ∃ (x : List (Nat × Nat) × Nat × Nat) (plan w : Wk) (b : Dp),
    Dp.Works (Work.maskPlan (a.envOf n o) (parseMask bs) op) a (x.1, x.2.1, x.2.2, none) plan ∧
    plan.d.declareFor n o (a.stokerHalf n) x.1 = (true, b) ∧ Dp.Works (maskWrite (a.envOf n o) o.uid plan) b () w

theorem rebuilds {op : MaskOp} {n : Fin 64} {bs : List Byte} {c : OpCtx} {d : Dp} {o : Outst} {a : Dp}
    (h : accepts d c (MaskP.bad op bs) .must ((parseMask bs).misaligned op)
      (Dp.selfOverlap (parseMask bs).outs ((parseMask bs).ins op)) = true)
    (l : maskLimits op c (maskConvs op bs) d = false) (p : (answer (Work.maskPlan (a.envOf n o) (parseMask bs) op) a).isSome = true)
    {r : List (Nat × Nat) × Nat × Nat × Option Ending} (q : r = (answer (Work.maskPlan (a.envOf n o) (parseMask bs) op) a).get p)
    (g : r.2.2.2 = none)
    (f : ((after (Work.maskPlan (a.envOf n o) (parseMask bs) op) a).d.declareFor n o (a.stokerHalf n) r.1).1 = true)
    (w : answer (maskWrite (a.envOf n o) o.uid (after (Work.maskPlan (a.envOf n o) (parseMask bs) op) a))
      ((after (Work.maskPlan (a.envOf n o) (parseMask bs) op) a).d.declareFor n o (a.stokerHalf n) r.1).2 = some ()) :
    Rebuilds op n bs c d o a :=
  ⟨accepted_of h, l, (r.1, r.2.1, r.2.2.1), _, _, _, works (by rw [← g, q]; exact (Option.some_get p).symm), granted_pair f, works w⟩

theorem witness_MasksRebuild (op : MaskOp) :
    (Met (maskCode op) everyForm (maskSpans op) (maskConvs op) fun _ _ bs c d _ _ =>
      MaskAccepts op bs c d ∧ maskLimits op c (maskConvs op bs) d = true) ∧
    (Met (maskCode op) everyForm (maskSpans op) (maskConvs op) fun n _ bs c d o a => Rebuilds op n bs c d o a) := by
  cases op
  · exact ⟨met (fetched (openedAt 8192 (small [] (record 6))) (dMask 0x20 0)) (dMask 0x20 0) (by decide +kernel)
        ⟨accepted_of (by decide +kernel), by decide +kernel⟩,
      met (shadowed (dMask 0x20 0)) (dMask 0x20 0) (by decide +kernel)
        (rebuilds (by decide +kernel) (by decide +kernel) (by decide +kernel) rfl (by decide +kernel)
          (by decide +kernel) (by decide +kernel))⟩
  · exact ⟨met (fetched (openedAt 8192 (small [] (record 6))) (dMask 0x21 1)) (dMask 0x21 1) (by decide +kernel)
        ⟨accepted_of (by decide +kernel), by decide +kernel⟩,
      met (shadowed (dMask 0x21 1)) (dMask 0x21 1) (by decide +kernel)
        (rebuilds (by decide +kernel) (by decide +kernel) (by decide +kernel) rfl (by decide +kernel)
          (by decide +kernel) (by decide +kernel))⟩
  · exact ⟨met (fetched (openedAt 8192 (small [] (record 6))) (dMask 0x22 1)) (dMask 0x22 1) (by decide +kernel)
        ⟨accepted_of (by decide +kernel), by decide +kernel⟩,
      met (shadowed (dMask 0x22 1)) (dMask 0x22 1) (by decide +kernel)
        (rebuilds (by decide +kernel) (by decide +kernel) (by decide +kernel) rfl (by decide +kernel)
          (by decide +kernel) (by decide +kernel))⟩

/-- What the outcome table asks of a PREDICT. -/
abbrev PredAccepts (bs : List Byte) (c : OpCtx) (d : Dp) : Prop :=
  d.Accepts c (PredP.bad bs) .never (parsePred bs).misaligned (Dp.selfOverlap [(parsePred bs).recordSpan]
    ((parsePred bs).x.spans false ++ (parsePred bs).u.spans false ++ (parsePred bs).v.spans false))

/-- The tile list that FUSED_GRG `bs` names, as its ring reads it. -/
abbrev fusedList (c : OpCtx) (bs : List Byte) (d : Dp) : Option (Bool × List TileRow × List TileRow) :=
  Dp.tileListOf c (parseFused bs).tlist d

/-- Do the outcome table and the crib let a FUSED_GRG start. -/
abbrev FusedAccepts (n : Fin 64) (bs : List Byte) (c : OpCtx) (d : Dp) : Prop :=
  (fusedList c bs d).any (fun x => (scannedParts (parseFused bs).order (d.halvesOf n) x).isNone) = false ∧
  d.Accepts c (FusedP.bad bs) .may (parseFused bs).misaligned (Dp.selfOverlap ((parseFused bs).y.spans true)
    ((parseFused bs).ins ++ ((fusedList c bs d).map fun x => tileListSpan (parseFused bs).tlist x 7).toList)) ∧
  d.cribRefusal (Dp.receiving (Dp.judgedParts (parseFused bs).order (d.halvesOf n) (fusedList c bs d))) 8
    (parseFused bs).groupKib = none

/-- Does a FUSED_GRG that has read what it names declare its spans. -/
abbrev FusedPrepared (n : Fin 64) (bs : List Byte) (o : Outst) (a : Dp) (x : Bool × List TileRow × List TileRow) : Prop :=
  a.hasList o.uid = false ∧ ∃ (use : Nat) (w : Wk) (r b : Dp),
    Dp.Works (fusedPrep (a.envOf n o) (parseFused bs) (Word.bit o.cfg 3)) a (use, x) w ∧
    r = w.d.modOutst n o.uid (fun o => { o with count2 := use }) ∧
    r.declareFor n { o with spans := (parseFused bs).stores } (r.stokerHalf n)
      (Dp.storedRanges (parseFused bs).stores) = (true, b)

theorem witness_FusedPairsStart :
    (Met 0x23 everyForm (fun bs => (parsePred bs).spans) noConvs fun n _ bs c d _ _ =>
      PredAccepts bs c d ∧ ((parsePred bs).spec && (d.reg (Reg.ringCfg n)).bit 3) = true) ∧
    (Met 0x23 everyForm (fun bs => (parsePred bs).spans) noConvs fun n _ bs c d o a =>
      PredAccepts bs c d ∧ ((parsePred bs).spec && (d.reg (Reg.ringCfg n)).bit 3) = false ∧
      d.cribRefusal (Dp.receiving (Dp.divide (d.halvesOf n) (parsePred bs).order)) 8 0 = none ∧ a.hasList o.uid = false) ∧
    (Met 0x28 everyForm (fun bs => (parseFused bs).spans) (fun bs => [(parseFused bs).yConv]) fun n _ bs c d o a =>
      FusedAccepts n bs c d ∧ (parseFused bs).tlist = 0 ∧ FusedPrepared n bs o a (false, [], [])) ∧
    (Met 0x28 everyForm (fun bs => (parseFused bs).spans) (fun bs => [(parseFused bs).yConv]) fun n _ bs c d o a =>
      FusedAccepts n bs c d ∧ (parseFused bs).tlist ≠ 0 ∧ ∃ x parts, FusedPrepared n bs o a x ∧
      scannedParts (parseFused bs).order (a.halvesOf n) x = some parts) :=
  ⟨met (fetched (small [(Reg.ringCfg 0, 9 + 8 * 2 ^ 44 + 256 * 2 ^ 55)] []) (dPredict 1)) (dPredict 1) (by decide +kernel)
    ⟨accepted_of (by decide +kernel), by decide +kernel⟩,
   met (plain (dPredict 0)) (dPredict 0) (by decide +kernel) ⟨accepted_of (by decide +kernel), by decide +kernel⟩,
   met (plain (dFused 0)) (dFused 0) (by decide +kernel)
    ⟨⟨by decide +kernel, accepted_of (by decide +kernel), by decide +kernel⟩, by decide +kernel, by decide +kernel, 0, _, _, _,
      works (by decide +kernel), rfl, granted_pair (by decide +kernel)⟩,
   met (fetched (small [] [(0x60000, 1)]) (dFused 0x60000)) (dFused 0x60000) (by decide +kernel)
    ⟨⟨by decide +kernel, accepted_of (by decide +kernel), by decide +kernel⟩, by decide +kernel,
      (false, [{ im := 0, jn := 0, slice := 0, kind := 0, rsv := 0, batch := 0 }], []), _,
      ⟨by decide +kernel, 0, _, _, _, works (by decide +kernel), rfl, granted_pair (by decide +kernel)⟩,
      (Option.some_get (by decide +kernel)).symm⟩⟩

/-- What the outcome table of UPDATE asks of a descriptor. -/
abbrev UpdAccepts (d : Dp) (c : OpCtx) (bs : List Byte) : Prop :=
  d.Accepts c (UpdP.bad ((d.reg Reg.fllCtl).bit 2) ((d.reg Reg.fllFpBase).fld 51 17) bs) .must (parseUpd bs).misaligned
    (Dp.selfOverlap (parseUpd bs).outs (parseUpd bs).ins)

/-- The streams an UPDATE captures. -/
abbrev updConvs (bs : List Byte) : List Conv := if (parseUpd bs).opt = 3 then [] else [(parseUpd bs).w.conv]

/-- Has an UPDATE of network or Flail rows read record `x` of its step. -/
abbrev RecRead (n : Fin 64) (bs : List Byte) (o : Outst) (a : Dp) (x : StepRec) (v : Wk) : Prop :=
  a.declarationEnds n o = false ∧ Dp.Works (Work.readRec (a.envOf n o) (parseUpd bs).stepRec) a x v

theorem recRead {n : Fin 64} {bs : List Byte} {o : Outst} {a : Dp} (h : a.declarationEnds n o = false)
    (r : (answer (Work.readRec (a.envOf n o) (parseUpd bs).stepRec) a).isSome = true) :
    RecRead n bs o a ((answer (Work.readRec (a.envOf n o) (parseUpd bs).stepRec) a).get r)
      (after (Work.readRec (a.envOf n o) (parseUpd bs).stepRec) a) := ⟨h, works_some r⟩

theorem witness_UpdatesStart :
    (Met 0x30 (fun bs => updKind bs = 0) updSpans updConvs fun n _ bs c d o a => UpdAccepts d c bs ∧
      ∃ (x : StepRec) (v : Wk) (b : Dp) (bytes : List Byte) (w : Wk), RecRead n bs o a x v ∧ recVerdict x = none ∧
        v.d.declareFor n o (v.d.stokerHalf n) (Dp.storedRanges o.spans) = (true, b) ∧
        Dp.Works (updWork (b.envOf n o) (parseUpd bs)) b (none, bytes) w) ∧
    (Met 0x30 (fun bs => updKind bs = 0) updSpans updConvs fun n _ bs c d o a => UpdAccepts d c bs ∧
      ∃ (x : StepRec) (v : Wk) (e : Ending), RecRead n bs o a x v ∧ recVerdict x = some e) ∧
    (Met 0x30 (fun bs => updKind bs = 1) updSpans updConvs fun n _ bs c d o a => UpdAccepts d c bs ∧
      ∃ (b : Dp) (bytes : List Byte) (w : Wk), a.declareFor n o (a.stokerHalf n) (Dp.storedRanges o.spans) = (true, b) ∧
        Dp.Works (Work.updAccum (b.envOf n o) (parseUpd bs)) b bytes w) ∧
    (Met 0x30 (fun bs => updKind bs = 2) updSpans updConvs fun n _ bs c d o a => UpdAccepts d c bs ∧
      (a.coll o.uid).isSome = false ∧ ∃ (x : StepRec) (v : Wk) (e : Ending), RecRead n bs o a x v ∧ recVerdict x = some e) ∧
    (Met 0x30 (fun bs => updKind bs = 2) updSpans updConvs fun n _ bs c d o a => UpdAccepts d c bs ∧
      (a.coll o.uid).isSome = false ∧ ∃ (x : StepRec) (v : Wk) (b r : Dp) (step : Nat) (data : List Byte) (bad : Bool) (w : Wk)
        (g : Group), RecRead n bs o a x v ∧ recVerdict x = none ∧
        v.d.declareFor n o (v.d.stokerHalf n) (Dp.storedRanges o.spans) = (true, b) ∧
        Dp.Works (shardWork (b.envOf n o) (parseUpd bs)) b (none, step, data, bad) w ∧
        Dp.GroupRead n o ((w.d.reg Reg.lnkNet).fld 15 0) w.d g r) ∧
    (Met 0x30 (fun bs => updKind bs = 3) updSpans noConvs fun n _ bs c d o a =>
      d.Accepts c (UpdP.stepBad bs) .never (parseUpd bs).misaligned false ∧
      ∃ (r : StepRec) (w : Wk), Dp.Works (Work.readRec (a.envOf n o) (parseUpd bs).stepRec) a r w) :=
  ⟨met (shadowed (dUpdate 1)) (dUpdate 1) (by decide +kernel) ⟨accepted_of (by decide +kernel), _, _, _, List.replicate 12 0, _,
      recRead (by decide +kernel) (by decide +kernel), by decide +kernel, granted_pair (by decide +kernel),
      works (by decide +kernel)⟩,
   met (fetched (opened (small [] [])) (dUpdate 1)) (dUpdate 1) (by decide +kernel) ⟨accepted_of (by decide +kernel), _, _,
      { status := stDenied, detail := 3 }, recRead (by decide +kernel) (by decide +kernel), by decide +kernel⟩,
   met (shadowed dAccum) dAccum (by decide +kernel) ⟨accepted_of (by decide +kernel), _, _, _,
      granted_pair (by decide +kernel), works_some (by decide +kernel)⟩,
   met (fetched (opened (onPod 0 [] (record 7))) (dUpdate 9)) (dUpdate 9) (by decide +kernel)
    ⟨accepted_of (by decide +kernel), by decide +kernel, _, _, { status := stOK, result := 1 },
      recRead (by decide +kernel) (by decide +kernel), by decide +kernel⟩,
   met (fetched (opened (onPod 0 [] (record 6))) (dUpdate 9)) (dUpdate 9) (by decide +kernel)
    ⟨accepted_of (by decide +kernel), by decide +kernel, _, _, _, _, 7, [0, 0, 0, 0], false, _, pair,
      recRead (by decide +kernel) (by decide +kernel), by decide +kernel, granted_pair (by decide +kernel),
      works (by decide +kernel), _, works (by decide +kernel), rfl⟩,
   met (shadowed dStep) dStep (by decide +kernel) ⟨accepted_of (by decide +kernel), _, _, works_some (by decide +kernel)⟩⟩

/-- A module whose partial array lies at 0x48000. -/
abbrev normal (bs : List Byte) : State := fetched (small [(Reg.fllNormBase, 0x48000)] []) bs

theorem norm_closes {d : Dp} {e : Env} {q : NormP} (m : q.mode ≠ 0) (r : q.stepRec = 0x45000) (h : e.held = [])
    (kp : e.kept = []) (s : e.sheaf = none) (f : d.mem.frames = []) (p : isPlain d = true)
    (w : ((List.range 11).all fun i => leafIs (d.walk e.space (4096 * (0x45 + i))) wide) = true) :
    ∃ (x : Nat) (w : Wk), Dp.Works (normWork e 0x48000 q) d x w := by
  obtain ⟨v, hv⟩ := normClose_plain (base := 0x48000) (q := q) (w := { d }) h kp s (plain_of p).clean f rfl
    fun u a wr => translate_wide p (k := 0x45) (n := 11) (by decide) w (by omega) (by omega)
  refine ⟨0, v, works_of ?_⟩
  unfold normWork
  rw [if_neg m, Work.bind_run, hv]
  rfl

theorem witness_NormsAndReleases :
    (∀ k : Fin 3, Met 0x31 (fun bs => normRow bs = k.val) (NormP.spans 0x48000) noConvs fun n _ bs c d o a =>
      d.Accepts c (NormP.bad 0x48000 bs) .never (parseNorm bs).misaligned
        (Dp.selfOverlap ((NormP.spans 0x48000 bs).filter (·.stored)) ((NormP.spans 0x48000 bs).filter fun x => !x.stored)) ∧
      ∃ (x : Nat) (w : Wk), Dp.Works (normWork (a.envOf n o) 0x48000 (parseNorm bs)) a x w) ∧
    (((small [(Reg.fllNormBase, 0x48000)] []).reg Reg.fllNormBase).fld 51 15 * 2 ^ 15 = 0x48000) ∧
    (Met 0x32 everyForm recomputeSpans noConvs fun n _ bs c d _ _ =>
      d.Accepts c (recomputeBad bs) .never (leAt bs 24 8 % 128 ≠ 0 || leAt bs 32 8 % 128 ≠ 0) false ∧
      ∀ x ∈ d.journal.sheaves, x.2.state ≠ .opened ∨ x.2.space ≠ d.spaceOf n ∨ ∀ y ∈ x.2.actions,
        Dp.meets y.dva y.len (leAt bs 24 8) (leAt bs 32 8) = false ∨
        ∀ k < Dp.linesIn y.dva y.len, d.isMarked x.2 (y.line0 + k) = false) := by
  refine ⟨fun k => ?_, by decide +kernel,
    met (shadowed dRecompute) dRecompute (by decide +kernel) ⟨accepted_of (by decide +kernel), by decide +kernel⟩⟩
  match k with
  | 0 => exact met (normal (dNorm 0)) (dNorm 0) (by decide +kernel) ⟨accepted_of (by decide +kernel), _, _, works_some (by decide +kernel)⟩
  | 1 =>
    refine met (normal (dNorm 1)) (dNorm 1) (by decide +kernel) ⟨accepted_of (by decide +kernel), norm_closes ?_ ?_ ?_ ?_ ?_ ?_ ?_ ?_⟩
    all_goals decide +kernel
  | 2 =>
    refine met (normal (dNorm 2)) (dNorm 2) (by decide +kernel) ⟨accepted_of (by decide +kernel), norm_closes ?_ ?_ ?_ ?_ ?_ ?_ ?_ ?_⟩
    all_goals decide +kernel

/-- Sheaf 1 in another state. -/
abbrev sheafIn (st : SheafSt) (w : Option Nat) : Dp :=
  { small [] [] with journal := { (small [] []).journal with sheaves := [(1, { state := st, ring := 0, seq := 1, waiter := w })] } }

theorem witness_SheavesOpenCommitAbort :
    (Met 0x38 everyForm noSpans noConvs fun n h bs _ d _ _ =>
      firstBad (Dp.sheafOpenBad bs ++ d.sheafBad n h .own) = none ∧ leAt bs 16 8 % 4096 = 0 ∧ leAt bs 32 8 % 4096 = 0 ∧
      Dp.insideTier 1 (leAt bs 16 8) (leAt bs 24 4 * 4096) = true ∧
      d.meetsReserved (leAt bs 16 8) (leAt bs 24 4 * 4096) = false ∧ leAt bs 28 4 = 0 ∧
      (d.sheaf h.sheafId).state.counted = false ∧ d.sheavesOpen < 512 ∧
      d.bufferConflict h.sheafId (leAt bs 16 8) (leAt bs 24 4 * 4096) = false ∧
      d.bufferConflict h.sheafId (leAt bs 32 8) (leAt bs 28 4 * 4096) = false) ∧
    (∀ k : Fin 2, ∃ (s : State) (n : Fin 64) (h : Hdr) (bs : List Byte) (c : OpCtx) (d : Dp) (o : Outst) (a : Dp),
      s.Enters n (0x39 + k.val) everyForm noSpans h bs [] c d o a ∧ (∀ x ∈ s.dp.rings, x.2.outst = []) ∧
      firstBad (d.sheafActBad n h bs ++ d.sheafBad n h .own) = none ∧ (d.sheaf h.sheafId).state = .opened ∧
      (d.sheaf h.sheafId).waiter = none) ∧
    (∃ (s : State) (n : Fin 64) (h : Hdr) (bs : List Byte) (c : OpCtx) (d : Dp) (o : Outst) (a : Dp),
      s.Enters n 0x3A everyForm noSpans h bs [] c d o a ∧ (∀ x ∈ s.dp.rings, x.2.outst = []) ∧
      firstBad (d.sheafActBad n h bs ++ d.sheafBad n h .own) = none ∧ (d.sheaf h.sheafId).state = .aborted) := by
  refine ⟨met (plain dSheafOpen) dSheafOpen (by decide +kernel) (by decide +kernel), fun k => ?_,
    ⟨fetched (sheafIn .aborted none) (dSheafEnd 0x3A), 0, _, dSheafEnd 0x3A, _, _, _, _, enters [] (by decide +kernel), by decide +kernel⟩⟩
  match k with
  | 0 => exact ⟨shadowed (dSheafEnd 0x39), 0, _, dSheafEnd 0x39, _, _, _, _, enters [] (by decide +kernel), by decide +kernel⟩
  | 1 => exact ⟨shadowed (dSheafEnd 0x3A), 0, _, dSheafEnd 0x3A, _, _, _, _, enters [] (by decide +kernel), by decide +kernel⟩

/-- Sheaf 1 is committed, but sheaf 2, which promotes the same line, was committed before it. -/
abbrev behind : Dp :=
  let a : Action := { dva := 0x40000, len := 128, dseq := 0, uid := 0, inL := false, dataOfs := 0, plist := 0, line0 := 0 }
  let x : Sheaf := { state := .committed, ring := 0, seq := 1, shadowL := 0x20010000000, actions := [a] }
  let d := small [] (cells 0x20010000000 [1] ++ cells 0x20010040000 (toLe 8 0x40000))
  { d with journal := { d.journal with sheaves := [(1, x), (2, x)], order := [2, 1] } }

theorem witness_SheafCommitsInSteps :
    (∃ (s : State) (id : Fin 4096) (x : Sheaf), s.awake = true ∧ x = s.dp.sheaf id ∧ x.state = .committing ∧
      s.dp.sheafBusy x = false) ∧
    (∃ (s : State) (id : Fin 4096) (x : Sheaf), s.awake = true ∧ x = s.dp.sheaf id ∧ x.state = .committed ∧ x.unreadable = false ∧
      s.dp.promotesAfter id = true) ∧
    (∃ (s : State) (id : Fin 4096) (x : Sheaf) (u : Nat) (bad : Bool) (r b : Dp), s.awake = true ∧ x = s.dp.sheaf id ∧
      x.state = .committed ∧ x.unreadable = false ∧ s.dp.promotesAfter id = false ∧ x.waiter = some u ∧
      s.dp.fpPagesReady x = (true, r) ∧ r.promoteAll x = (bad, b)) :=
  ⟨⟨{ State.reset with dp := sheafIn .committing (some 5) }, 1, _, by decide +kernel, rfl, by decide +kernel⟩,
   ⟨{ State.reset with dp := behind }, 1, _, by decide +kernel, rfl, by decide +kernel⟩,
   ⟨{ State.reset with dp := sheafIn .committed (some 5) }, 1, _, 5, _, _, _, by decide +kernel, rfl, by decide +kernel,
      by decide +kernel, by decide +kernel, by decide +kernel, granted_pair (by decide +kernel), rfl⟩⟩

/-- A pod of two whose group owns one expert, with a LIVE generation and its routing record at 0x50000 (Table 10.3). -/
abbrev expertPod (gens : List (Nat × Gen)) (mem : List (Nat × Byte)) : Dp :=
  { onPod 0 [] (cells 0x50000 (toLe 2 0 ++ toLe 1 1 ++ toLe 1 1 ++ toLe 4 0 ++ toLe 4 1 ++ toLe 2 1 ++ toLe 14 0 ++ toLe 4 128 ++
      toLe 4 0 ++ toLe 2 1) ++ cells 0x51000 expert ++ mem) with gens }

/-- A row of Table 10.7 refuses a ROUTE that has read what its mode reads. -/
abbrev RouteRefused (n : Fin 64) (bs : List Byte) (o : Outst) (a : Dp) : Prop :=
  ∃ (x : Dp.RouteIn) (w : Wk) (e : Ending), Dp.Works (Dp.readRoute (a.envOf n o) (parseRoute bs)) a x w ∧
    w.d.routeRefusal n bs x = some e

/-- None does. -/
abbrev RouteTaken (n : Fin 64) (bs : List Byte) (o : Outst) (a : Dp) (x : Dp.RouteIn) (w : Wk) : Prop :=
  Dp.Works (Dp.readRoute (a.envOf n o) (parseRoute bs)) a x w ∧ w.d.routeRefusal n bs x = none

theorem routeRefused {n : Fin 64} {bs : List Byte} {o : Outst} {a : Dp}
    (h : (answer (Dp.readRoute (a.envOf n o) (parseRoute bs)) a).isSome = true)
    (r : ((after (Dp.readRoute (a.envOf n o) (parseRoute bs)) a).d.routeRefusal n bs
      ((answer (Dp.readRoute (a.envOf n o) (parseRoute bs)) a).get h)).isSome = true) : RouteRefused n bs o a :=
  ⟨_, _, _, works_some h, (Option.some_get r).symm⟩

theorem routeTaken {n : Fin 64} {bs : List Byte} {o : Outst} {a : Dp}
    (h : (answer (Dp.readRoute (a.envOf n o) (parseRoute bs)) a).isSome = true)
    (r : (after (Dp.readRoute (a.envOf n o) (parseRoute bs)) a).d.routeRefusal n bs
      ((answer (Dp.readRoute (a.envOf n o) (parseRoute bs)) a).get h) = none) :
    RouteTaken n bs o a ((answer (Dp.readRoute (a.envOf n o) (parseRoute bs)) a).get h)
      (after (Dp.readRoute (a.envOf n o) (parseRoute bs)) a) := ⟨works_some h, r⟩

/-- A DISPATCH whose group is read, in the data plane `r` that follows. -/
abbrev Dispatched (n : Fin 64) (bs : List Byte) (o : Outst) (a r : Dp) : Prop :=
  (a.gen (parseRoute bs).gen).disps.contains o.uid = false ∧ ∃ grp, Dp.GroupRead n o (parseRoute bs).group a grp r

theorem dispatched {n : Fin 64} {bs : List Byte} {o : Outst} {a : Dp} (d : (a.gen (parseRoute bs).gen).disps.contains o.uid = false)
    (h : answer (readGroup (a.envOf n o) (a.reg Reg.lnkGrpBase) (parseRoute bs).group) a = some (some pair)) :
    Dispatched n bs o a ((after (readGroup (a.envOf n o) (a.reg Reg.lnkGrpBase) (parseRoute bs).group) a).d.learnPorts
      (parseRoute bs).group pair) := ⟨d, pair, _, works h, rfl⟩

/-- A ROUTE of mode `k` meets `P`. -/
abbrev MetPhase (k : Nat) (P : Fin 64 → List Byte → Outst → Dp → Prop) : Prop :=
  MetBy 0x40 (fun bs => routeMode bs = k) routeSpans (fun c d => d.routeStreams c) fun n h bs _ d o a =>
    firstBad (RouteP.bad bs ++ d.sheafBad n h .never) = none ∧ P n bs o a

/-- A DISPATCH captures no stream. -/
theorem no_streams {s : State} {bs : List Byte} (m : (parseRoute bs).mode = 0) (d : Dp) :
    d.routeStreams (ctx s routeSpans bs) = [] := by
  have cb : (ctx s routeSpans bs).bytes = bs := by unfold ctx; rfl
  unfold Dp.routeStreams
  dsimp only
  rw [cb, m]
  split <;> first | rfl | (rename_i h; cases h) | (rename_i h _; cases h)

theorem witness_RoutesStart_refused_dispatch : MetPhase 0 fun n bs o a => ∃ r, Dispatched n bs o a r ∧ RouteRefused n bs o r :=
  metBy (fetched (expertPod [(0, gen0)] []) dDispatch) dDispatch [] (by decide +kernel) (no_streams (by decide +kernel) _)
    ⟨by decide +kernel, _, dispatched (by decide +kernel) (by decide +kernel), routeRefused (by decide +kernel) (by decide +kernel)⟩

theorem witness_RoutesStart_replay : MetPhase 0 fun n bs o a =>
    ∃ r x w, Dispatched n bs o a r ∧ RouteTaken n bs o r x w ∧ (parseRoute bs).replay = true :=
  metBy (fetched (expertPod [(0, gen0)] []) dReplay) dReplay [] (by decide +kernel) (no_streams (by decide +kernel) _)
    ⟨by decide +kernel, _, _, _, dispatched (by decide +kernel) (by decide +kernel),
      routeTaken (by decide +kernel) (by decide +kernel), by decide +kernel⟩

theorem witness_RoutesStart_dispatch : MetPhase 0 fun n bs o a =>
    ∃ r x w t, Dispatched n bs o a r ∧ RouteTaken n bs o r x w ∧ (parseRoute bs).replay = false ∧
      t = w.d.modOutst n o.uid (fun o => { o with spans := w.d.routeSpansOf (parseRoute bs) x }) ∧
      (t.gens.filter fun x => x.2.st ≠ .idle).length < 64 ∧
      t.cribRefusal (Dp.receiving (Dp.divide (t.halvesOf n) (Dp.rankTiles (parseRoute bs).t))) 0 0 = none :=
  metBy (fetched (expertPod [] []) dDispatch) dDispatch [] (by decide +kernel) (no_streams (by decide +kernel) _)
    ⟨by decide +kernel, _, _, _, _, dispatched (by decide +kernel) (by decide +kernel),
      routeTaken (by decide +kernel) (by decide +kernel), by decide +kernel, rfl, by decide +kernel, by decide +kernel⟩

/-- The RUN `dRun` of `gen0`, its template at 0x55000. -/
abbrev running (gens : List (Nat × Gen)) : State := fetched (expertPod gens (cells 0x55000 (dFused 0))) dRun

/-- Bytes of tier H. -/
abbrev bytesAt (d : Dp) (a n : Nat) : List Byte := (List.range n).map fun i => d.dpaByte (a + i)

/-- What a RUN of one expert reads in plain memory. -/
abbrev runReads (d : Dp) : Dp.RouteIn :=
  { table := [bytesAt d 0x51000 40], head := bytesAt d 0x50000 64, fill := [leNat (bytesAt d 0x50080 8) % 2 ^ 32], tm := bytesAt d 0x55000 512 }

theorem run_reads {d : Dp} {e : Env} {q : RouteP}
    (f : q.mode = 1 ∧ q.e = 1 ∧ q.rec_ = 0x50000 ∧ q.ownerOfs = 128 ∧ q.xt = 0x51000 ∧ q.template = 0x55000)
    (h : e.held = []) (k : e.kept = []) (p : isPlain d = true)
    (w : ((List.range 6).all fun i => leafIs (d.walk e.space (4096 * (0x50 + i))) wide) = true) :
    Dp.readRoute e q { d } = (.ok (runReads d), { d }) := by
  obtain ⟨f1, f2, f3, f4, f5, f6⟩ := f
  have r (a n : Nat) (lo : 0x50000 ≤ a) (hi : a + n ≤ 0x56000) : Work.readBytes e a n { d } = (.ok (bytesAt d a n), { d }) :=
    Work.readBytes_plain (w := { d }) h k (plain_of p).clean id n a
      fun u x y => translate_wide p (k := 0x50) (n := 6) (by decide) w (by omega) (by omega)
  have one {α : Type} (g : Nat → M α) (v : α) (x : g 0 { d } = (.ok v, { d })) : (List.range 1).mapM g { d } = (.ok [v], { d }) := by
    rw [show List.range 1 = [0] from rfl, List.mapM_cons, Work.bind_run, x]
    dsimp only
    rw [Work.bind_run, List.mapM_nil]
    rfl
  have table := r 0x51000 40 (by decide) (by decide)
  have head := r 0x50000 64 (by decide) (by decide)
  have number := r (0x50000 + 128 + 8 * 0) 8 (by decide) (by decide)
  have tm := r 0x55000 512 (by decide) (by decide)
  unfold runReads
  generalize bytesAt d 0x51000 40 = b1 at table ⊢
  generalize bytesAt d 0x50000 64 = b2 at head ⊢
  rw [show bytesAt d 0x50080 8 = bytesAt d (0x50000 + 128 + 8 * 0) 8 from rfl]
  generalize bytesAt d (0x50000 + 128 + 8 * 0) 8 = b3 at number ⊢
  generalize bytesAt d 0x55000 512 = b4 at tm ⊢
  have fill : (do return (← Work.readNat e (0x50000 + 128 + 8 * 0) 8) % 2 ^ 32 : M Nat) { d } = (.ok (leNat b3 % 2 ^ 32), { d }) := by
    unfold Work.readNat
    rw [Work.bind_run, Work.bind_run, number]
    rfl
  unfold Dp.readRoute readTable
  rw [f1, f2, f3, f4, f5, f6, if_neg (by decide), Work.bind_run, Work.intact_run (one _ _ table)]
  dsimp only
  rw [if_neg (by simp), Work.bind_run, Work.intact_run head]
  dsimp only
  rw [if_pos rfl, Work.bind_run, Work.intact_run (one _ _ fill)]
  dsimp only
  rw [if_pos rfl, Work.bind_run, Work.intact_run tm]
  rfl

theorem peek_of {α : Type} {c : OpCtx} {m : Env → M α} {d : Dp} {x : α} (h : m (d.envOf c.ring (d.opened c)) { d } = (.ok x, { d })) :
    Dp.peek c m d = some x := by
  have w := works_of h
  unfold Dp.Works at w
  unfold Dp.peek
  rw [w]

theorem run_streams {c : OpCtx} {d : Dp} {cs : List Conv} {x : Dp.RouteIn} (m : (parseRoute c.bytes).mode = 1)
    (h : Dp.readRoute (d.envOf c.ring (d.opened c)) (parseRoute c.bytes) { d } = (.ok x, { d }))
    (e : cs = if (d.routeRefusal c.ring c.bytes x).isSome then [] else [(parseFused x.tm).yConv]) : d.routeStreams c = cs := by
  unfold Dp.routeStreams
  dsimp only
  rw [peek_of (m := fun e => Dp.readRoute e (parseRoute c.bytes)) h, m, e]
  rfl

/-- The RUN `dRun` is granted in `s` and meets `P`. -/
theorem met_run {s : State} {cs : List Conv} {P : Fin 64 → List Byte → Outst → Dp → Prop} {a d : Dp}
    (ha : a = begun s routeSpans dRun cs) (hd : d = taken s dRun) (g : grants s 0x40 (fun bs => routeMode bs = 1) routeSpans dRun = true)
    (b : firstBad (RouteP.bad dRun ++ d.sheafBad 0 (parseHdr dRun) .never) = none)
    (pd : isPlain d = true) (wd : ((List.range 6).all fun i => leafIs (d.walk (d.spaceOf 0) (4096 * (0x50 + i))) wide) = true)
    (e : cs = if (d.routeRefusal 0 dRun (runReads d)).isSome then [] else [(parseFused (runReads d).tm).yConv])
    (p : P 0 dRun (rec_ s routeSpans dRun cs) a) : MetPhase 1 P := by
  subst ha hd
  have cb : (ctx s routeSpans dRun).bytes = dRun := by unfold ctx; rfl
  have cr : (ctx s routeSpans dRun).ring = 0 := by unfold ctx; rfl
  refine metBy s dRun cs g (run_streams (by rw [cb]; decide +kernel)
    (run_reads (by rw [cb]; decide +kernel) rfl rfl pd (by rw [← cr] at wd; exact wd)) (by rw [cb, cr]; exact e)) ⟨b, p⟩

theorem witness_RoutesStart_run : MetPhase 1 fun n bs o a =>
    ((a.gen (parseRoute bs).gen).job o.uid).isSome = false ∧ ∃ x w, RouteTaken n bs o a x w := by
  refine met_run (s := running [(0, gen0)]) (cs := [(parseFused (dFused 0)).yConv]) rfl rfl ?_ ?_ ?_ ?_ ?_
    ⟨?_, runReads _, { d := _ }, works_of (run_reads ?_ ?_ ?_ ?_ ?_), ?_⟩
  all_goals decide +kernel

theorem witness_RoutesStart_refused_run : MetPhase 1 fun n bs o a =>
    ((a.gen (parseRoute bs).gen).job o.uid).isSome = false ∧ RouteRefused n bs o a := by
  refine met_run (s := running []) (cs := []) rfl rfl ?_ ?_ ?_ ?_ ?_
    ⟨?_, runReads _, { d := _ }, Dp.rejection 20, works_of (run_reads ?_ ?_ ?_ ?_ ?_), ?_⟩
  all_goals decide +kernel

theorem witness_RoutesStart_refused_combine : MetPhase 2 fun n bs o a =>
    (a.gen (parseRoute bs).gen).combs.contains o.uid = false ∧ RouteRefused n bs o a :=
  metBy (fetched (expertPod [] []) dCombine) dCombine [] (by decide +kernel) (by decide +kernel)
    ⟨by decide +kernel, by decide +kernel, routeRefused (by decide +kernel) (by decide +kernel)⟩

theorem witness_RoutesStart_combine : MetPhase 2 fun n bs o a =>
    (a.gen (parseRoute bs).gen).combs.contains o.uid = false ∧ ∃ x w, RouteTaken n bs o a x w :=
  metBy (fetched (expertPod [(0, gen0)] []) dCombine) dCombine [(parseRoute dCombine).y.conv] (by decide +kernel) (by decide +kernel)
    ⟨by decide +kernel, by decide +kernel, _, _, routeTaken (by decide +kernel) (by decide +kernel)⟩

/-- Generation 0 in its first round, with its DISPATCH outstanding as number 5. -/
abbrev exchanging : State :=
  let g : Gen := { gen0 with disps := [5], rounds := some { ranked := [[0]], scores := [[]], used := [0] } }
  { State.reset with dp := holding (expertPod [(0, g)] []) dDispatch .running }

/-- The count exchange of another module that refuses, and of one that agrees with this one. -/
abbrev exchanged (refuses : Bool) : List (Bool × Nat × List Nat) :=
  [(false, Dp.routeDigest gen0.q gen0.table, [0]), (refuses, Dp.routeDigest gen0.q gen0.table, [0])]

/-- Gleaner of half 0 fetches the expert of generation 0, whose one page lies at `base`: in tier H at 0x56000, and in peat at
1 GiB + 8 KiB; channel 0 of tier P is retrained. -/
abbrev fetching (base : Nat) : State :=
  let g : Gen := { gen0 with fetching := [{ slot := 0, x := 0, table := 0x51000, base, len := 4096, start := 0 }] }
  let d := expertPod [(0, g)] (pages ++ cells 0x31010 (toLe 8 0x400000001A2))
  { State.reset with dp := { d with mem := { d.mem with jobs := [.fetch 0 0 0], retrainP := NatSet.add [] 0 } } }

theorem witness_GenerationsGoOn :
    (Met 0x41 everyForm noSpans noConvs fun _ _ bs c d _ a => d.Accepts c (Dp.cancelBad bs) .never false false ∧
      (leAt bs 18 1).testBit 0 = false ∧ (a.gen (leAt bs 16 2)).st ≠ .live) ∧
    (Met 0x41 everyForm noSpans noConvs fun _ _ bs c d _ a => d.Accepts c (Dp.cancelBad bs) .never false false ∧
      (leAt bs 18 1).testBit 0 = false ∧ (a.gen (leAt bs 16 2)).st = .live ∧ (a.gen (leAt bs 16 2)).sent = false) ∧
    (Met 0x41 everyForm noSpans noConvs fun _ _ bs c d _ a => d.Accepts c (Dp.cancelBad bs) .never false false ∧
      (leAt bs 18 1).testBit 0 = false ∧ (a.gen (leAt bs 16 2)).st = .live ∧ ∃ w : Wk,
        Dp.Works (a.cancelMark (leAt bs 16 2)) a () w ∧ (w.d.gen (leAt bs 16 2)).st = .live) :=
  ⟨met (plain dCancel) dCancel (by decide +kernel) ⟨accepted_of (by decide +kernel), by decide +kernel⟩,
   met (fetched { small [] [] with gens := [(0, gen0)] } dCancel) dCancel (by decide +kernel)
    ⟨accepted_of (by decide +kernel), by decide +kernel⟩,
   met (fetched { small [] [] with gens := [(0, { gen0 with sent := true })] } dCancel) dCancel (by decide +kernel)
    ⟨accepted_of (by decide +kernel), by decide +kernel, by decide +kernel, _, works (by decide +kernel), by decide +kernel⟩⟩

theorem witness_GenerationsGoOn_rounds (refuses : Bool) :
    ∃ (s : State) (k : Nat) (counts : List (Bool × Nat × List Nat)) (g : Gen) (r : Rounds) (u n : Nat)
      (o : Outst), s.podLive = true ∧ g = s.dp.gen k ∧ g.disps.head? = some u ∧ s.dp.findOutst u = some (n, o) ∧
      g.rounds = some r ∧ g.st = .live ∧ counts.length = g.members.length ∧ g.members.length ≠ 1 ∧ o.phase = .running ∧
      r.round < g.q.k + g.q.sd ∧ (counts.any fun x => x.1 || x.2.1 ≠ Dp.routeDigest g.q g.table) = refuses := by
  cases refuses
  · exact ⟨exchanging, 0, exchanged false, _, { ranked := [[0]], scores := [[]], used := [0] }, 5, 0,
      outst dDispatch .running, by decide +kernel, rfl, by decide +kernel⟩
  · exact ⟨exchanging, 0, exchanged true, _, { ranked := [[0]], scores := [[]], used := [0] }, 5, 0,
      outst dDispatch .running, by decide +kernel, rfl, by decide +kernel⟩

theorem witness_GenerationsGoOn_fetches :
    (∃ (s : State) (k l h : Nat) (g : Gen) (f : Fetch) (ps : List (Nat × Leaf)), s.awake = true ∧ g = s.dp.gen k ∧
      s.dp.fetchHalf k l = some h ∧ g.fetching.find? (fun f => f.slot = l) = some f ∧ ps = s.dp.pagesAt g.space f.base f.len ∧
      (ps.any fun p => p.2.res = 1 && s.dp.inRetraining p.2.addr p.2.size) = true) ∧
    (∃ (s : State) (k l h : Nat) (g : Gen) (f : Fetch) (ps : List (Nat × Leaf)) (b : Dp), s.awake = true ∧ g = s.dp.gen k ∧
      s.dp.fetchHalf k l = some h ∧ g.fetching.find? (fun f => f.slot = l) = some f ∧ ps = s.dp.pagesAt g.space f.base f.len ∧
      s.dp.served (.fetch h k l) = true ∧
      (ps.any fun p => p.2.res = 1 && (s.dp.inRetraining p.2.addr p.2.size || s.dp.promoting g.space p.1)) = false ∧
      s.dp.pagesIn h g.space f.start ps = (true, b)) ∧
    (∃ (s : State) (k : Nat) (g : Gen), s.awake = true ∧ g = s.dp.gen k ∧ g.st = .live) :=
  ⟨⟨fetching 0x40002000, 0, 0, 0, _, { slot := 0, x := 0, table := 0x51000, base := 0x40002000, len := 4096, start := 0 }, _,
      by decide +kernel, rfl, by decide +kernel, by decide +kernel, rfl, by decide +kernel⟩,
   ⟨fetching 0x56000, 0, 0, 0, _, { slot := 0, x := 0, table := 0x51000, base := 0x56000, len := 4096, start := 0 }, _, _,
      by decide +kernel, rfl, by decide +kernel, by decide +kernel, rfl, by decide +kernel, by decide +kernel,
      granted_pair (by decide +kernel)⟩,
   ⟨exchanging, 0, _, by decide +kernel, rfl, by decide +kernel⟩⟩

/-- What a reduction of a tensor whose group is read meets. -/
abbrev RedMet (P : Fin 64 → List Byte → Outst → Dp → Group → Dp → Prop) : Prop :=
  MetBy 0x48 (fun bs => !ofRecords bs) redSpans (fun c d => d.redStreams c) fun n h bs _ d o a =>
    firstBad (RedP.bad bs ++ d.sheafBad n h .never) = none ∧ (a.coll o.uid).isSome = false ∧
    ∃ (g : Group) (r : Dp), Dp.GroupRead n o (parseRed bs).group a g r ∧ P n bs o a g r

/-- Its leaf is read. -/
abbrev LeafRead (n : Fin 64) (bs : List Byte) (o : Outst) (a : Dp) (g : Group) (r : Dp) : Prop :=
  r.redRefusal n o.spans (parseRed bs) g = none ∧ (parseRed bs).kind ≠ 3 ∧ r.lnk.holds = [] ∧
  ∃ (leaf : List (FV × Bool)) (w : Wk), Dp.Works (Dp.readLeaf (a.envOf n o) (parseRed bs) false) r leaf w

theorem redMet {P : Fin 64 → List Byte → Outst → Dp → Group → Dp → Prop} (s : State) (bs : List Byte) (cs : List Conv) (g : Group)
    (h : grants s 0x48 (fun bs => !ofRecords bs) redSpans bs = true) (e : (taken s bs).redStreams (ctx s redSpans bs) = cs)
    (b : firstBad (RedP.bad bs ++ (taken s bs).sheafBad 0 (parseHdr bs) .never) = none)
    (f : ((begun s redSpans bs cs).coll (rec_ s redSpans bs cs).uid).isSome = false)
    (x : answer (readGroup ((begun s redSpans bs cs).envOf 0 (rec_ s redSpans bs cs)) ((begun s redSpans bs cs).reg Reg.lnkGrpBase)
      (parseRed bs).group) (begun s redSpans bs cs) = some (some g))
    (p : P 0 bs (rec_ s redSpans bs cs) (begun s redSpans bs cs) g ((after (readGroup ((begun s redSpans bs cs).envOf 0
      (rec_ s redSpans bs cs)) ((begun s redSpans bs cs).reg Reg.lnkGrpBase) (parseRed bs).group)
      (begun s redSpans bs cs)).d.learnPorts (parseRed bs).group g)) : RedMet P :=
  metBy s bs cs h e ⟨b, f, g, _, ⟨_, works x, rfl⟩, p⟩

theorem witness_ReductionsStart_refused : RedMet fun n bs o _ g r => ∃ e, r.redRefusal n o.spans (parseRed bs) g = some e := by
  refine redMet (podded (dGather2 1)) (dGather2 1) [] pair ?_ ?_ ?_ ?_ ?_ ⟨Dp.rejection 96, ?_⟩ <;> decide +kernel

theorem witness_ReductionsStart_first : RedMet fun n bs o a g r =>
    LeafRead n bs o a g r ∧ (parseRed bs).kind ≠ 2 ∧ g.rank = g.coord := by
  refine redMet (podded dReduce) dReduce [(parseRed dReduce).t.conv] pair ?_ ?_ ?_ ?_ ?_
    ⟨⟨?_, ?_, ?_, _, _, works_some ?_⟩, ?_, ?_⟩ <;> decide +kernel

theorem witness_ReductionsStart_other : RedMet fun n bs o a g r =>
    LeafRead n bs o a g r ∧ (parseRed bs).kind ≠ 2 ∧ g.rank ≠ g.coord := by
  refine redMet (fetched (onPod 1 [] []) dReduce) dReduce [(parseRed dReduce).t.conv] { pair with rank := 1 } ?_ ?_ ?_ ?_ ?_
    ⟨⟨?_, ?_, ?_, _, _, works_some ?_⟩, ?_, ?_⟩ <;> decide +kernel

theorem witness_ReductionsStart_gather : RedMet fun n bs o a g r => LeafRead n bs o a g r ∧ (parseRed bs).kind = 2 := by
  refine redMet (podded (dGather2 2)) (dGather2 2) [(parseRed (dGather2 2)).t.conv] pair ?_ ?_ ?_ ?_ ?_
    ⟨⟨?_, ?_, ?_, _, _, works_some ?_⟩, ?_⟩ <;> decide +kernel

theorem witness_ReductionsStart_records :
    MetBy 0x48 ofRecords redSpans (fun c d => d.redStreams c) fun n h bs _ d o a =>
      firstBad (RedP.bad bs ++ d.sheafBad n h .never) = none ∧ (parseRed bs).kind = 3 ∧ (a.coll o.uid).isSome = false ∧
      ∃ (g : Group) (r : Dp) (rec_ : List Byte) (bad : Bool) (w : Wk),
        Dp.GroupRead n o (parseRed bs).group a g r ∧ r.redRefusal n o.spans (parseRed bs) g = none ∧
        Dp.Works (Work.poisonOf (Work.readBytes (a.envOf n o) (parseRed bs).hold 64)) r (rec_, bad) w ∧
        (leAt rec_ 8 1).testBit 2 = true ∧ (leAt rec_ 8 1).testBit 1 = false ∧ w.d.lnk.stepIncl = none ∧
        g.rank < g.members.length := by
  refine metBy (podded dReduceRec) dReduceRec [] ?_ ?_ ⟨?_, ?_, ?_, pair, _, toLe 8 7 ++ toLe 4 4 ++ toLe 4 1 ++ toLe 48 0, false, _,
    ⟨_, works ?_, rfl⟩, ?_, works ?_, ?_, ?_, ?_, ?_⟩ <;> decide +kernel

/-- The spans that each message is judged with. -/
abbrev msgSp (k : Fin 4) : List Byte → List Span :=
  match k with
  | 0 => fun bs => Dp.msgSpans 0x49 2 bs
  | 1 => Dp.msgSpans 0x4A 0
  | 2 => Dp.msgSpans 0x4B 0
  | 3 => noSpans

/-- No row of the outcome table refuses message `k` in group `g`, with the spans `sp`. -/
abbrev MsgTaken (k : Fin 4) (n : Fin 64) (bs : List Byte) (g : Group) (r : Dp) (sp : List Span) : Prop :=
  ((0x49 + k.val = 0x4A ∨ 0x49 + k.val = 0x4B) → leAt bs 18 2 < g.members.length ∧ leAt bs 18 2 ≠ g.rank) ∧
  (0x49 + k.val ≠ 0x4C → leAt bs 24 8 % 64 = 0) ∧ (0x49 + k.val = 0x49 → leAt bs 32 8 % 64 = 0) ∧
  (0x49 + k.val = 0x49 → (sp.any fun a => a.stored && sp.any fun b => !b.stored && a.meets b) = false) ∧
  r.guardRefuses n sp = false ∧ ((0x49 + k.val = 0x49 ∨ 0x49 + k.val = 0x4C) → r.collById (leAt bs 20 4) = none)

/-- The hypotheses of MessagesStart on a message. -/
abbrev MsgMet (k : Fin 4) : Prop :=
  Met (0x49 + k.val) everyForm (msgSp k) noConvs fun n h bs _ d o a =>
    firstBad (Dp.msgBad (0x49 + k.val) bs ++ d.sheafBad n h .never) = none ∧ (a.coll o.uid).isSome = false ∧
    ∃ (g : Group) (r : Dp) (sp : List Span), Dp.GroupRead n o (leAt bs 16 2) a g r ∧
      sp = Dp.msgSpans (0x49 + k.val) g.members.length bs ∧ MsgTaken k n bs g r sp

theorem msgMet (k : Fin 4) (bs : List Byte) (h : grants (podded bs) (0x49 + k.val) everyForm (msgSp k) bs = true)
    (b : firstBad (Dp.msgBad (0x49 + k.val) bs ++ (taken (podded bs) bs).sheafBad 0 (parseHdr bs) .never) = none)
    (f : ((begun (podded bs) (msgSp k) bs []).coll (rec_ (podded bs) (msgSp k) bs []).uid).isSome = false)
    (x : answer (readGroup ((begun (podded bs) (msgSp k) bs []).envOf 0 (rec_ (podded bs) (msgSp k) bs []))
      ((begun (podded bs) (msgSp k) bs []).reg Reg.lnkGrpBase) (leAt bs 16 2)) (begun (podded bs) (msgSp k) bs []) = some (some pair))
    (p : MsgTaken k 0 bs pair ((after (readGroup ((begun (podded bs) (msgSp k) bs []).envOf 0 (rec_ (podded bs) (msgSp k) bs []))
        ((begun (podded bs) (msgSp k) bs []).reg Reg.lnkGrpBase) (leAt bs 16 2)) (begun (podded bs) (msgSp k) bs [])).d.learnPorts
        (leAt bs 16 2) pair) (Dp.msgSpans (0x49 + k.val) pair.members.length bs)) : MsgMet k :=
  met (podded bs) bs h ⟨b, f, pair, _, _, ⟨_, works x, rfl⟩, rfl, p⟩

theorem witness_MessagesStart : ∀ k : Fin 4, MsgMet k := by
  intro k
  match k with
  | 0 => refine msgMet 0 (dMsg 0x49) ?_ ?_ ?_ ?_ ?_ <;> decide +kernel
  | 1 => refine msgMet 1 (dMsg 0x4A) ?_ ?_ ?_ ?_ ?_ <;> decide +kernel
  | 2 => refine msgMet 2 (dMsg 0x4B) ?_ ?_ ?_ ?_ ?_ <;> decide +kernel
  | 3 => refine msgMet 3 (dMsg 0x4C) ?_ ?_ ?_ ?_ ?_ <;> decide +kernel

theorem witness_MessagesStart_timeout :
    ∃ (s : State) (id : Nat) (x : Coll), s.awake = true ∧ s.dp.collById id = some x ∧ x.op = 0x4C ∧ leAt x.o.bytes 24 4 ≠ 0 :=
  ⟨{ State.reset with dp := { small [] [] with lnk := { (small [] []).lnk with colls := [barrier0] } } }, 7, barrier0, by decide +kernel⟩

/-- The base of the images, in tier P. -/
abbrev image : Nat := 0x40000000000

theorem witness_SnapshotsAreTaken :
    (Met 0x50 (fun bs => Dp.snapKind bs = 0) snapSpans noConvs fun n h bs _ d o a =>
      firstBad (snapBad bs ++ d.sheafBad n h .never) = none ∧ (a.snap o.uid).isSome = false ∧
      ∃ (entries : List (List Byte)) (l : List SnapRegion) (w : Wk) (target total : Nat),
        Dp.Works (readRegions (a.envOf n o) (leAt bs 40 8) (leAt bs 20 4)) a entries w ∧ l = entries.map parseRegion ∧
        snapMisaligned bs = false ∧ target = (if leAt bs 24 8 = 0 then w.d.fll.step + 1 else leAt bs 24 8) ∧ total = (dataOfs l).2 ∧
        regionsBad l = false ∧ l.any (·.misaligned) = false ∧
        ((l ++ [({ dva := leAt bs 40 8, len := roundUp (32 * leAt bs 20 4) 128, bytes := [] } : SnapRegion)]).any fun r =>
          w.d.regionMeets o.space r (leAt bs 32 8) total) = false ∧
        w.d.guardRefuses n o.spans = false ∧ w.d.holds = false ∧ w.d.fll.step < target ∧ w.d.locks.length < 4 ∧
        w.d.meetsLock (leAt bs 32 8) total = false ∧ w.d.imageOutside (leAt bs 32 8) total = false) ∧
    (∃ (s : State) (x : Snap) (n : Nat) (o : Outst), s.awake = true ∧
      s.dp.snaps.find? (fun x => x.held && !x.restore && !x.copied) = some x ∧ s.dp.findOutst x.uid = some (n, o) ∧
      o.phase = .running ∧ s.dp.quiesced x.uid = true) ∧
    (∃ (s : State) (x : Snap) (n : Nat) (o : Outst), s.awake = true ∧ s.dp.snaps.find? (fun x => x.copied) = some x ∧
      s.dp.findOutst x.uid = some (n, o) ∧ leAt o.bytes 16 1 / 4 % 4 = 0) ∧
    (∃ (s : State) (n : Fin 64) (x : Snap), s.awake = true ∧
      s.dp.snaps.find? (fun x => (s.dp.findOutst x.uid).any fun y => y.1 = n.val) = some x ∧ x.copied = false ∧
      (x.held && s.dp.quiesced x.uid) = false) := by
  refine ⟨met (plain dTake) dTake ?_ ⟨?_, ?_, [], [], _, 1, 0x30000, works ?_, rfl, ?_⟩,
    ⟨taking { uid := 5, restore := false, target := 1, held := true }, _, 0, outst dTake .running, ?_, rfl, ?_⟩,
    ⟨taking { uid := 5, restore := false, target := 1, held := true, copied := true }, _, 0, outst dTake .running, ?_, rfl, ?_⟩,
    ⟨taking { uid := 5, restore := false, target := 1 }, 0, _, ?_, rfl, ?_⟩⟩ <;> decide +kernel

theorem witness_ImagesAreDrainedAndRestored :
    (Met 0x50 (fun bs => Dp.snapKind bs = 1) snapSpans noConvs fun n h bs _ d _ _ =>
      firstBad (snapBad bs ++ d.sheafBad n h .never) = none ∧ snapMisaligned bs = false ∧
      d.locks.any (fun l => l.base = leAt bs 32 8) = true ∧ Dp.insideTier 2 (leAt bs 32 8) 1 = true ∧ leAt bs 16 1 / 4 % 4 ≠ 0) ∧
    (Met 0x50 (fun bs => Dp.snapKind bs = 2) snapSpans noConvs fun n h bs _ d _ _ =>
      firstBad (snapBad bs ++ d.sheafBad n h .never) = none ∧ snapMisaligned bs = false ∧
      d.imageOutside (leAt bs 32 8) 0x1000 = false) ∧
    (Met 0x51 everyForm restoreSpans noConvs fun n h bs _ d o a =>
      firstBad (restoreBad bs ++ d.sheafBad n h .never) = none ∧ (a.snap o.uid).isSome = false ∧
      ∃ (w : Wk) (entries : Option (List (List Byte))) (l : Option (List SnapRegion)) (total : Nat),
        Dp.Works (Dp.restoreList (a.envOf n o) bs) a entries w ∧ l = entries.map (fun x => x.map parseRegion) ∧
        w.d.imageOutside (leAt bs 24 8) 0x1000 = false ∧ total = leAt (w.d.dpaBytes (leAt bs 24 8 + 40) 8) 0 8 ∧
        regionsBad (l.getD []) = false ∧ restoreMisaligned bs = false ∧ (l.getD []).any (·.misaligned) = false ∧
        ((l.getD ((w.d.directory (leAt bs 24 8)).map (·.1))).any fun r => w.d.regionMeets o.space r (leAt bs 24 8) total ||
          w.d.locks.any fun k => w.d.regionMeets o.space r k.base k.total) = false ∧
        w.d.guardRefuses n o.spans = false ∧ w.d.holds = false ∧ w.d.imageState (leAt bs 24 8) ≠ 0 ∧
        w.d.imageOutside (leAt bs 24 8) (max total 0x1000) = false) := by
  refine ⟨met (fetched { small [] [] with locks := [{ base := image, total := 0x30000 }] } dDrain) dDrain ?_ ?_,
   met (plain dUnlock) dUnlock ?_ ?_,
   met (fetched (small [] (cells (image + 72) (toLe 8 1))) dRestore) dRestore ?_
    ⟨?_, ?_, _, none, none, 0, works ?_, rfl, ?_⟩⟩ <;> decide +kernel

theorem witness_MaintAsksTheGate :
    Met 0x58 everyForm maintSpans noConvs fun n h bs _ d o a => firstBad (maintBad bs ++ d.sheafBad n h .never) = none ∧
      (leAt bs 16 1 = 8 → leAt bs 24 8 % 64 = 0) ∧ ∃ (seg : List Byte) (w : Wk), Dp.Works (maintWork (a.envOf n o) bs) a seg w :=
  met (plain dMaint) dMaint (by decide +kernel) ⟨by decide +kernel, by decide +kernel, _, _, works_some (by decide +kernel)⟩

/-- What every bad descriptor of BadDescriptorsAreDenied meets: all gates but its header grant it. -/
def Gated (s : State) (op : Nat) (h : Hdr) (bs : List Byte) : Bool :=
  s.hostLive && decide (s.dp.nextDesc 0 = some (h, bs)) && decide (h.op = op) && knownOp op && everyForm bs &&
  decide (s.dp.pipeHalts 0 = none) && s.dp.mayDispatch s.gates 0 && Dp.waitMet (s.dp.ring 0) h &&
  !s.dp.heldDesc (s.dp.spaceOf 0) h (noSpans bs) && s.dp.scaleGate 0 h bs

theorem witness_BadDescriptorsAreDenied :
    (∃ (s : State) (h : Hdr) (bs : List Byte), Gated s 0x03 h bs = true ∧ Dp.secured s.gates 0x03 bs = true) ∧
    (∃ (s : State) (h : Hdr) (bs : List Byte) (ofs : Nat), Gated s 0x00 h bs = true ∧ Dp.secured s.gates 0x00 bs = false ∧
      firstBad ((((s.dp.ring 0).fpoison.take h.slots).any id, 0) :: (h.seq ≠ (s.dp.ring 0).expSeq, 4) :: hdrBad bs) = some ofs) :=
  ⟨⟨{ plain (desc 3 1 []) with kiln := { State.reset.kiln with retired := true } }, parseHdr (desc 3 1 []), desc 3 1 [], by decide +kernel⟩,
   ⟨plain (desc 0 1 [(4, 4, 1)]), parseHdr (desc 0 1 [(4, 4, 1)]), desc 0 1 [(4, 4, 1)], 4, by decide +kernel⟩⟩

/-! ### Witnesses: what goes on between dispatches -/

/-- Data plane `d` with descriptor `bs` running as number 5, and entry `x` listed. -/
abbrev listed (d : Dp) (bs : List Byte) (x : Entry) : State :=
  { State.reset with dp := { holding d bs .running with lists := [{ uid := 5, ring := 0, half := 0, entries := [x] }] } }

/-- Data plane `d` with descriptor `bs` running as number 5, and entry `x` in context 0 of tiller 0. -/
abbrev working (d : Dp) (bs : List Byte) (x : Entry) : State :=
  { State.reset with
    dp := (holding d bs .running).setTiller 0 { ctxs := [{ num := 0, uid := 5, half := 0, idx := 0, entry := x }] } }

/-- The page of the second entry of `pages` under promotion to its frame at 1.75 GiB, which Gleaner serves; it lies in peat
when `peat` is set, with channel 0 in retraining. -/
abbrev promoting (peat : Bool) : State :=
  { State.reset with dp := { small [] pages with mem := { (small [] pages).mem with
      jobs := [.promotion 0 0 (2 ^ 30 + 4096)]
      retrainP := NatSet.add [] 0
      promos := [{ space := 0, page := 2 ^ 30 + 4096, size := 4096, home := if peat then 0x40000000000 else 0x20008000000,
                   frame := 0x70000000, start := 0 }] } } }

theorem witness_ListEntriesMove_take (k : Fin 4) :
    ∃ (s : State) (t : Fin 192) (m i n : Nat) (l : EList) (x : Entry) (o : Outst) (b : Dp), b = s.dp.passLists s.gates ∧
      (s.awake = true ∧ b.tillerUp s.gates t = true ∧ b.freeCtx t = some m ∧ b.pick t = some (l, i, x) ∧
        b.findOutst l.uid = some (n, o)) ∧
      (match k with
       | 0 => Dp.listDva o = 0
       | 1 => Dp.listDva o ≠ 0 ∧ x.kind = .catchUp
       | 2 => ∃ w : Wk, Dp.Works (Dp.recheck (b.envOf n o) o x) b none w
       | 3 => ∃ w : Wk, Dp.Works (Dp.recheck (b.envOf n o) o x) b (some x) w) := by
  match k with
  | 0 => exact ⟨listed (small [] []) dCopy { kind := .compute }, 0, 0, 0, 0,
      { uid := 5, ring := 0, half := 0, entries := [{ kind := .compute }] }, { kind := .compute }, outst dCopy .running, _,
      rfl, by decide +kernel, by decide +kernel⟩
  | 1 => exact ⟨listed (small [] []) (dGemm 0x44000) { kind := .catchUp }, 0, 0, 0, 0,
      { uid := 5, ring := 0, half := 0, entries := [{ kind := .catchUp }] }, { kind := .catchUp }, outst (dGemm 0x44000) .running, _,
      rfl, by decide +kernel, by decide +kernel⟩
  | 2 => exact ⟨listed (small [] (cells 0x44040 (toLe 4 1))) (dGemm 0x44000) { kind := .compute }, 0, 0, 0, 0,
      { uid := 5, ring := 0, half := 0, entries := [{ kind := .compute }] }, { kind := .compute }, outst (dGemm 0x44000) .running, _,
      rfl, by decide +kernel, _, works (by decide +kernel)⟩
  | 3 => exact ⟨listed (small [] []) (dGemm 0x44000) { kind := .compute }, 0, 0, 0, 0,
      { uid := 5, ring := 0, half := 0, entries := [{ kind := .compute }] }, { kind := .compute }, outst (dGemm 0x44000) .running, _,
      rfl, by decide +kernel, _, works (by decide +kernel)⟩

theorem witness_ListEntriesMove_done (waits : Bool) :
    ∃ (s : State) (t : Fin 192) (k : Fin 8) (c : Ctx) (n : Nat) (o : Outst), (s.awake = true ∧
      (s.dp.tiller t).ctxs.find? (fun c => c.num = k.val) = some c ∧ s.dp.findOutst c.uid = some (n, o) ∧
      o.phase = .running ∧ s.gates.up (t / 96) = true ∧ s.dp.sheafStillOpen o = true) ∧
      ∃ w : Wk, Dp.Works (Dp.entryWork (s.dp.tileEnv n o t c) o c.entry) s.dp (if waits then none else some false) w := by
  cases waits
  · exact ⟨working (small [] []) dCopy { kind := .compute }, 0, 0, { num := 0, uid := 5, half := 0, idx := 0, entry := { kind := .compute } },
      0, outst dCopy .running, by decide +kernel, _, works (by decide +kernel)⟩
  · exact ⟨working (small [] []) (desc 0x10 7 [(28, 2, 2)]) { kind := .reduce }, 0, 0,
      { num := 0, uid := 5, half := 0, idx := 0, entry := { kind := .reduce } }, 0, outst (desc 0x10 7 [(28, 2, 2)]) .running,
      by decide +kernel, _, works (by decide +kernel)⟩

theorem witness_ListEntriesMove_promotion :
    (∃ (s : State) (space : Fin 16) (page : Nat) (p : Promotion), s.awake = true ∧
      s.dp.mem.promos.find? (fun p => p.space = space.val && p.page = page) = some p ∧
      s.dp.inRetraining p.home p.size = true) ∧
    ∃ (s : State) (space : Fin 16) (page : Nat) (p : Promotion) (l : Leaf) (b : Dp), (s.awake = true ∧
      s.dp.mem.promos.find? (fun p => p.space = space.val && p.page = page) = some p ∧
      s.dp.promotionServed space page = true ∧ s.dp.inRetraining p.home p.size = false) ∧
      b = ({ s.dp with mem := { s.dp.mem with promos := s.dp.mem.promos.filter (· ≠ p) } }).dropJobs
        (fun j => match j with
          | .promotion _ space page => space = p.space && page = p.page
          | .fetch _ _ _ => false) ∧
      b.walk p.space p.page = .ok l :=
  ⟨⟨promoting true, 0, 2 ^ 30 + 4096, { space := 0, page := 2 ^ 30 + 4096, size := 4096, home := 0x40000000000, frame := 0x70000000, start := 0 }, by decide +kernel⟩,
   ⟨promoting false, 0, 2 ^ 30 + 4096, { space := 0, page := 2 ^ 30 + 4096, size := 4096, home := 0x20008000000, frame := 0x70000000, start := 0 },
    { addr := 0x20008000000, size := 4096, tier := 1, res := 0, perm := 2, shd := false, entry := 0x31008 }, _, by decide +kernel, rfl, leaf_eq (by decide +kernel)⟩⟩

/-- A module with ring 0 enabled and running, with registers `regs`, and memory that maps its tables. -/
abbrev idle (regs : List (Nat × Nat)) : State := fetched (small regs []) []

/-- CQ 0 and NQ 0 enabled with 16 entries each, three of them used. -/
abbrev queued : State :=
  { State.reset with dp := ((small [(Reg.cqCfg 0, 0x401), (Reg.nqCfg 0, 0x401)] []).setCq 0 { used := 3 }).setNq 0 { used := 3 } }

theorem witness_DoorbellsMove :
    (∃ (s : State) (n : Fin 64) (t : Nat), s.hostLive = true ∧ s.dp.ringOn n = true ∧ t < s.dp.sqSize n) ∧
    (∃ (s : State) (n : Fin 64) (t : Nat), s.hostLive = true ∧ (s.dp.ringOn n = false ∨ s.dp.sqSize n ≤ t)) ∧
    (∃ (s : State) (m : Fin 64) (h k : Nat) (c : Cq), s.hostLive = true ∧ c = s.dp.cq m ∧
      k = (h + s.dp.cqSize m - c.head) % s.dp.cqSize m ∧ (s.dp.reg (Reg.cqCfg m)).bit 0 = true ∧ h < s.dp.cqSize m ∧ k ≤ c.used ∧
      k ≠ 0) ∧
    (∃ (s : State) (m : Fin 64) (h : Nat), s.hostLive = true ∧ ((s.dp.reg (Reg.cqCfg m)).bit 0 = false ∨ s.dp.cqSize m ≤ h)) ∧
    (∃ (s : State) (m : Fin 64) (h : Nat), s.hostLive = true ∧ (s.dp.reg (Reg.cqCfg m)).bit 0 = true ∧ h < s.dp.cqSize m ∧
      (s.dp.cq m).used < (h + s.dp.cqSize m - (s.dp.cq m).head) % s.dp.cqSize m) ∧
    (∃ (s : State) (m : Fin 8) (h k : Nat) (q : Nq), s.hostLive = true ∧ q = s.dp.nq m ∧
      k = (h + s.dp.nqSize m - q.head) % s.dp.nqSize m ∧ (s.dp.reg (Reg.nqCfg m)).bit 0 = true ∧ h < s.dp.nqSize m ∧ k ≤ q.used ∧
      k ≠ 0) ∧
    (∃ (s : State) (m : Fin 8) (h : Nat), s.hostLive = true ∧ ((s.dp.reg (Reg.nqCfg m)).bit 0 = false ∨ s.dp.nqSize m ≤ h)) ∧
    (∃ (s : State) (m : Fin 8) (h : Nat), s.hostLive = true ∧ (s.dp.reg (Reg.nqCfg m)).bit 0 = true ∧ h < s.dp.nqSize m ∧
      (s.dp.nq m).used < (h + s.dp.nqSize m - (s.dp.nq m).head) % s.dp.nqSize m) :=
  ⟨⟨idle [], 0, 255, by decide +kernel⟩, ⟨idle [], 0, 256, by decide +kernel⟩, ⟨queued, 0, 3, 3, { used := 3 }, by decide +kernel⟩,
   ⟨queued, 0, 16, by decide +kernel⟩, ⟨queued, 0, 4, by decide +kernel⟩, ⟨queued, 0, 3, 3, { used := 3 }, by decide +kernel⟩,
   ⟨queued, 0, 16, by decide +kernel⟩, ⟨queued, 0, 4, by decide +kernel⟩⟩

/-- Ring 0 in the host's page at 1 GiB, with four slots to fetch. -/
abbrev pulling : State :=
  let d := small [(Reg.ringCfg 0, 1 + 8 * 2 ^ 44 + 16 * 2 ^ 49 + 256 * 2 ^ 55), (Reg.atuCtl, 3), (Reg.ringBase 0, 0x40060000)]
    (cells 0x20008 (toLe 8 0x400000B2))
  let m : Mem := { d.mem with atc := [{ pasid := none, page := 0x40060000, target := 0x12340000, read := true, write := true }] }
  let x : Dp := { d with mem := m }
  { State.reset with dp := x.setRing 0 { state := .running, pend := 4, tail := 4 } }

/-- Ring 0 halted by its descriptor number 5, which a walk stopped. -/
abbrev halting : State :=
  let o := outst dCopy (.halted { status := stXlate, detail := 1 })
  { State.reset with dp := (small [] []).setRing 0 { state := .halted, outst := [o] } }

theorem witness_FetchAndResume :
    (∃ (s : State) (n : Fin 64) (x : Nat) (b : Dp), s.hostLive = true ∧ s.dp.ringOn n = true ∧
      ((s.dp.ring n).state = .running ∨ (s.dp.ring n).state = .halted) ∧ (s.dp.ring n).fetchFault = none ∧
      s.dp.fetchWaits n = false ∧ 1 ≤ s.dp.fetchSize n ∧
      s.dp.ringXlate (s.dp.spaceOf n) (s.dp.slotDva n (s.dp.ring n).head) false = (.found x, b)) ∧
    (∃ (s : State) (n : Fin 64) (o : Outst) (h : Halt) (l : List (Outst × Halt)), s.hostLive = true ∧
      s.dp.resumable s.gates n = true ∧ s.dp.haltedOf n = (o, h) :: l) ∧
    (∃ (s : State) (n : Fin 64), s.hostLive = true ∧ s.dp.resumable s.gates n = false) ∧
    (∃ (s : State) (n : Fin 64), s.hostLive = true ∧ ∀ q ∈ s.mnt.queue ++ s.mnt.arrived, ofRing n q = false) :=
  ⟨⟨pulling, 0, 0x12340000, _, by decide +kernel, by decide +kernel, by decide +kernel, by decide +kernel, by decide +kernel,
     by decide +kernel, Prod.ext (show Prod.fst _ = _ by decide +kernel) rfl⟩,
   ⟨halting, 0, outst dCopy (.halted { status := stXlate, detail := 1 }), { status := stXlate, detail := 1 }, [], by decide +kernel⟩,
   ⟨State.reset, 0, by decide +kernel⟩, ⟨State.reset, 0, by decide +kernel⟩⟩

/-! ### Witnesses: registers -/

theorem witness_CommitAppliesStaged :
    (∃ (b : Block) (off : Nat) (i : RwInfo) (d : Dp), rwReg off = some i ∧ off ∈ b.regs ∧ i.reserved (d.regs.stagedVal off) = false ∧
      d.regs.stagedVal off ≠ d.reg off) ∧
    (∃ (b : Block) (off : Nat) (i : RwInfo) (d : Dp), rwReg off = some i ∧ off ∈ b.regs ∧ d.regs.stagedVal off ≠ d.reg off ∧
      i.reserved (d.regs.stagedVal off) = true) ∧
    (∃ (b : Block) (kept : List Nat) (off : Nat) (i : RwInfo) (d : Dp), rwReg off = some i ∧ off ∈ b.regs ∧
      d.regs.stagedVal off ≠ d.reg off ∧ off ∈ kept) ∧
    (∃ (b : Block) (off : Nat) (i : RwInfo), rwReg off = some i ∧ off ∉ b.regs) ∧
    (∃ (s : State) (b : Block), s.hostLive = true ∧ b ∈ [Block.glb, .fab, .spr, .gln, .cxd, .ash, .kln, .otp, .mnt]) :=
  ⟨⟨.glb, Reg.glbCtl, _, { State.reset.dp with regs := State.reset.dp.regs.stage Reg.glbCtl 1 }, rfl, by decide +kernel⟩,
   ⟨.mem, Reg.grCtl, _, { State.reset.dp with regs := State.reset.dp.regs.stage Reg.grCtl 3 }, rfl, by decide +kernel⟩,
   ⟨.glb, [Reg.glbCtl], Reg.glbCtl, _, { State.reset.dp with regs := State.reset.dp.regs.stage Reg.glbCtl 1 }, rfl, by decide +kernel⟩,
   ⟨.fab, Reg.glbCtl, _, rfl, by decide +kernel⟩, ⟨State.reset, .glb, by decide +kernel⟩⟩

theorem witness_WritesStageOrClear :
    ∀ k : Fin 3, ∃ (s : State) (off size value o : Nat) (w m : Word) (b : Block) (r : Nat), s.hostLive = true ∧ s.kiln.recovery = false ∧
      s.tlrDark off = false ∧ (off < 0x0F00040 ∨ 0x0F000C0 ≤ off) ∧ Dp.widened off size value = some (o, w, m) ∧
      (o < Dp.hdmDecoder ∨ Dp.hdmDecoder + 0x28 ≤ o) ∧ (o < Dp.msixTable ∨ Dp.msixTable + 1152 ≤ o) ∧
      blockOf o = some (b, r) ∧ b ≠ .lnk ∧
      (if k = 0 then (rwReg o).isSome ∧ o ≠ b.stat.1 else if k = 1 then rwReg o = none ∧ o = b.stat.1
       else rwReg o = none ∧ o ≠ b.stat.1) := by
  intro k
  match k with
  | 0 => exact ⟨State.reset, Reg.glbCtl, 8, 1, Reg.glbCtl, 1, 0xFFFFFFFFFFFFFFFF, .glb, _, by decide +kernel, by decide +kernel,
      by decide +kernel, by decide +kernel, rfl, by decide +kernel, by decide +kernel, rfl, by decide +kernel, by decide +kernel⟩
  | 1 => exact ⟨State.reset, Reg.ringStat, 8, 2, Reg.ringStat, 2, 0xFFFFFFFFFFFFFFFF, .ring, _, by decide +kernel, by decide +kernel,
      by decide +kernel, by decide +kernel, rfl, by decide +kernel, by decide +kernel, rfl, by decide +kernel, by decide +kernel⟩
  | 2 => exact ⟨State.reset, 0, 8, 2, 0, 2, 0xFFFFFFFFFFFFFFFF, .glb, _, by decide +kernel, by decide +kernel,
      by decide +kernel, by decide +kernel, rfl, by decide +kernel, by decide +kernel, rfl, by decide +kernel, by decide +kernel⟩

theorem witness_RegistersAct :
    (∀ p : Bool, ∃ d : Dp, d.phx.armed = false ∧ (d.reg Reg.phxCtl).bit 1 = true ∧ (p = true → (d.reg Reg.phxCtl).bit 3 = true) ∧
      d.phx.nanCnt < 2 ^ 64 - 1) ∧
    (∃ s : State, s.hostLive = true) ∧
    (∃ e : Fin 64, signed 6 e < -24 ∨ 24 < signed 6 e) ∧ (∃ e : Fin 64, -24 ≤ signed 6 e ∧ signed 6 e ≤ 24) ∧
    (∃ s : State, s.hostLive = true ∧ (s.dp.newVal Reg.rngIdx).bit 12 = true) ∧
    (∃ (s : State) (h : Fin 2), s.awake = true ∧ s.dp.regionEmpty h = true) ∧
    (∃ (s : State) (k : Fin 64), s.awake = true ∧ (s.dp.mon k).running = true ∧ (s.dp.reg (Reg.monCfg k)).fld 63 32 ≠ 0) :=
  ⟨fun p => ⟨{ (withReg Reg.phxCtl 10).dp with phx := { State.reset.dp.phx with armed := false } }, by revert p; decide +kernel⟩,
   ⟨State.reset, by decide +kernel⟩,
   ⟨25, by decide⟩, ⟨24, by decide⟩,
   ⟨{ State.reset with dp := { State.reset.dp with regs := State.reset.dp.regs.stage Reg.rngIdx 0x1000 } }, by decide +kernel⟩,
   ⟨State.reset, 1, by decide +kernel⟩,
   ⟨{ State.reset with dp := (withReg (Reg.monCfg 63) (2 ^ 32 + 256)).dp.setMon 63 { running := true } }, 63, by decide +kernel⟩⟩

theorem witness_RingsStartAndStop :
    (∃ (s : State) (n : Fin 64), s.hostLive = true ∧ (s.dp.reg (Reg.ringCfg n)).bit 0 = false ∧
      (s.dp.newVal (Reg.ringCfg n)).bit 0 = true) ∧
    (∃ (s : State) (n : Fin 64), s.hostLive = true ∧ (s.dp.reg (Reg.ringCfg n)).bit 0 = true ∧
      (s.dp.newVal (Reg.ringCfg n)).bit 0 = false) ∧
    (∃ (d : Dp) (n : Nat), (d.ring n).fetched = []) :=
  ⟨⟨{ State.reset with dp := { State.reset.dp with regs := State.reset.dp.regs.stage (Reg.ringCfg 63) 0x0810600300000001 } }, 63, by decide +kernel⟩,
   ⟨{ State.reset with dp := { (small [] []) with regs := (small [] []).regs.stage (Reg.ringCfg 0) 0x0810600300000000 } }, 0, by decide +kernel⟩,
   ⟨State.reset.dp, 0, by decide +kernel⟩⟩

/-! ### Witnesses: translations, completion and the host -/

/-- An invalidation of the page of `dCopy`'s destination is queued. -/
abbrev invalid (d : Dp) : State :=
  { State.reset with dp := { d with mem := { d.mem with invQ := [{ space := 0, scope := 2, addr := 0 }] } } }

theorem witness_TranslationsInvalidate :
    (∃ (s : State) (scope : Fin 4), s.hostLive = true ∧ scope.val ≤ 2 ∧ s.dp.mem.invQ.length ≤ 16) ∧
    (∃ (s : State) (scope : Fin 4), s.hostLive = true ∧ scope.val ≤ 2 ∧ 16 < s.dp.mem.invQ.length) ∧
    (∃ (s : State) (x : Inv) (l : List Inv), s.awake = true ∧ s.dp.mem.invQ = x :: l ∧ s.dp.invHeld x = false) ∧
    (∃ (s : State) (x : Inv) (l : List Inv), s.awake = true ∧ s.dp.mem.invQ = x :: l ∧ s.dp.invHeld x = true) ∧
    (∃ s : State, s.hostLive = true) :=
  ⟨⟨State.reset, 2, by decide +kernel⟩,
   ⟨{ State.reset with dp := { State.reset.dp with mem := { State.reset.dp.mem with
        invQ := List.replicate 17 { space := 0, scope := 2, addr := 0 } } } }, 2, by decide +kernel⟩,
   ⟨invalid (small [] []), { space := 0, scope := 2, addr := 0 }, [], by decide +kernel⟩,
   ⟨invalid ((small [] []).setRing 0 { state := .running, outst := [{ outst (dIdx 0x16) .running with held := [(0, 0x40000, false)] }] }), { space := 0, scope := 2, addr := 0 }, [], by decide +kernel⟩,
   ⟨State.reset, by decide +kernel⟩⟩

theorem witness_DescriptorsComplete :
    (∃ (s : State) (n : Fin 64) (q : Nat) (o : Outst) (e : Ending), s.hostLive = true ∧
      (s.dp.ring n).outst.find? (fun o => o.seq = q) = some o ∧ (s.dp.ring n).outst.find? (fun x => x.uid = o.uid) = some o ∧
      o.phase = .finished e) ∧
    (∃ (s : State) (n : Fin 64) (q : Nat) (o : Outst) (h : Halt), s.hostLive = true ∧
      (s.dp.ring n).outst.find? (fun o => o.seq = q) = some o ∧ (s.dp.ring n).outst.find? (fun x => x.uid = o.uid) = some o ∧
      o.phase = .halted h) ∧
    (∀ asked : Bool, ∃ (s : State) (v : Fin 72) (x : Vector), s.hostLive = true ∧ x = s.dp.vec v ∧ x.quiet = true ∧ x.asked = asked) ∧
    (∀ masked : Bool, ∃ (d : Dp) (v : Nat), d.coalUs v = 0 ∧ (d.vec v).masked = masked) := by
  refine ⟨⟨{ State.reset with dp := holding (small [] []) dCopy (.finished { status := stOK }) }, 0, 0, outst dCopy (.finished { status := stOK }), { status := stOK }, by decide +kernel⟩,
    ⟨halting, 0, 0, outst dCopy (.halted { status := stXlate, detail := 1 }), { status := stXlate, detail := 1 }, by decide +kernel⟩,
    fun asked => ⟨{ State.reset with dp := State.reset.dp.setVec 71 { masked := false, quiet := true, asked } }, 71,
      { masked := false, quiet := true, asked }, ?_⟩, fun masked => ⟨State.reset.dp.setVec 0 { masked }, 0, ?_⟩⟩
  · cases asked <;> decide +kernel
  · cases masked <;> decide +kernel

/-! ### Witnesses: the host and the pod -/

/-- A page request of group 511 of ring 63, by a fetch or by descriptor 5. -/
abbrev request (f : PriFor) : PageReq :=
  { group := 511, pasid := none, space := 0, dva := 0x40060000, page := 0x40060000, write := false, for_ := f }

/-- A module that waits for the answer to it. -/
abbrev asking (f : PriFor) : State :=
  { State.reset with dp := { small [] [] with mem := { (small [] []).mem with pageReqs := [request f] } } }

-- Whatever the host answers to the repeated ATS request, which is free, one of the clauses on Success applies.
theorem witness_PageRequestsAnswered :
    (∃ (s : State) (g : Fin 512) (q : PageReq) (a : Dp), s.hostLive = true ∧
      s.dp.mem.pageReqs.find? (fun q => q.group = g.val) = some q ∧
      a = { s.dp with mem := { s.dp.mem with pageReqs := s.dp.mem.pageReqs.filter fun x => x.group ≠ g.val } } ∧ q.for_ = .work 5 ∧
      ((∃ b : Dp, a.atsRequest q.space q.page q.write = (true, b)) ∨ ∃ b : Dp, a.atsRequest q.space q.page q.write = (false, b))) ∧
    (∃ (q : PageReq) (n : Nat), q.for_ = .fetch n) := by
  refine ⟨⟨asking (.work 5), 511, request (.work 5), _, by decide +kernel, by decide +kernel, rfl, rfl, ?_⟩, ⟨request (.fetch 63), 63, rfl⟩⟩
  generalize Dp.atsRequest _ _ _ _ = r
  obtain ⟨x, b⟩ := r
  cases x
  · exact .inr ⟨b, rfl⟩
  · exact .inl ⟨b, rfl⟩

/-- A module with a window of 1 GiB in tier P, its decoder committed or not, and size `z` in it. -/
abbrev windowed (done : Bool) (z : Nat) : State :=
  let d := (withReg Reg.memHdm 0x10000).dp
  let m : Mem := { d.mem with hdmCommitted := done, hdmSize := z }
  { State.reset with dp := { d with mem := m } }

theorem witness_HdmWindow :
    (∀ ok : Bool, ∃ s : State, s.hostLive = true ∧ s.dp.mem.hdmCommitted = false ∧
      ok = (s.dp.mem.hdmSize = ((s.dp.reg Reg.memHdm).fld 26 16 + (s.dp.reg Reg.memHdm).fld 8 0) * 2 ^ 30 && s.dp.mem.hdmWays = 0)) ∧
    (∃ (s : State) (x a : Nat) (size : Nat), s.hostLive = true ∧ s.pwr.memActive = true ∧ s.dp.mem.hdmCommitted = true ∧
      size = ((s.dp.reg Reg.memHdm).fld 26 16 + (s.dp.reg Reg.memHdm).fld 8 0) * 2 ^ 30 ∧ a = s.dp.windowAt (x / 64 * 64) ∧
      x < size ∧ s.dp.isPoisoned a = false ∧ (s.dp.snooped a).length < 4194304) ∧
    (∃ (s : State) (x : Nat) (size : Nat), s.hostLive = true ∧ s.pwr.memActive = true ∧ s.dp.mem.hdmCommitted = true ∧
      size = ((s.dp.reg Reg.memHdm).fld 26 16 + (s.dp.reg Reg.memHdm).fld 8 0) * 2 ^ 30 ∧ size ≤ x) := by
  refine ⟨fun ok => ?_, ⟨windowed true (2 ^ 30), 2 ^ 30 - 1, _, 2 ^ 30, by decide +kernel, by decide +kernel, by decide +kernel,
    by decide +kernel, rfl, by decide +kernel, by decide +kernel, by decide +kernel⟩,
    ⟨windowed true (2 ^ 30), 2 ^ 30, 2 ^ 30, by decide +kernel⟩⟩
  cases ok
  · exact ⟨windowed false (2 ^ 29), by decide +kernel⟩
  · exact ⟨windowed false (2 ^ 30), by decide +kernel⟩

/-- A module on the pod with links `l`. -/
abbrev linked (l : Lnk) : State := { State.reset with dp := { onPod 0 [] [] with lnk := l } }

/-- Port 0 up to peer 1, with connection `c` of both classes and collectives `l`. -/
abbrev net (c : Conn) (l : List Coll) : Lnk :=
  { ports := [(0, { state := 2 })], conns := [(2, c), (3, c)], colls := l }

/-- A frame from peer 1 for message 7. -/
abbrev frame1 : Culm := { ty := 0, ember := false, src := 1, dst := 0, msg := 7 }

/-- Is a frame accepted (Dp.Hears). -/
def hears (d : Dp) (cls : Nat) (f : Culm) : Bool :=
  d.lnkOn && decide (f.dst = d.me) && !(d.peer f.src).down && decide (f.epoch = (d.conn f.src cls).epoch) &&
  Dp.Conn.accepts (d.conn f.src cls) f.psn

theorem hears_of {d : Dp} {cls : Nat} {f : Culm} (h : hears d cls f = true) : d.Hears cls f := by
  simp only [hears, Bool.and_eq_true, decide_eq_true_eq, Bool.not_eq_true'] at h
  exact ⟨h.1.1.1.1, h.1.1.1.2, h.1.1.2, h.1.2, h.2⟩

theorem witness_ControlFramesAct (k : Fin 7) :
    ∃ (s : State) (fr f : Culm) (h : Dp) (c : Coll) (r : Nat), s.podLive = true ∧ s.dp.lnk.early.length < 4096 ∧ s.dp.Hears 1 f ∧
      h = s.dp.heard 1 f ∧ h.collById f.msg = some c ∧ Dp.rankIn c f.src = some r ∧
      f = emberAs fr ([3, 4, 4, 5, 5, 5, 10].getD k 0) ([0, 0, 1, 0, 1, 2, 0].getD k 0) ∧ f.aux2 < 254 ∧
      s.dp.repairAsked f = none ∧ s.dp.repairOf f = none ∧ h.endedFor f.msg f.src false = none ∧ h.endedFor f.msg f.src true = none ∧
      c.op ≠ 0x48 ∧ (c.hosted 0).all (fun v => (c.children v).all fun x => x.1 ≠ f.aux2 || c.host 0 x.2 ≠ r) = true := by
  refine ⟨linked (net {} [barrier0]), { frame1 with aux2 := 253 }, _, _, barrier0, 1, by decide +kernel, by decide +kernel, hears_of ?_,
    rfl, ?_, ?_, rfl, ?_, ?_, ?_, ?_, ?_, ?_, ?_⟩ <;> revert k <;> decide +kernel

/-- A generation in which this module's rows have been received and its return buffer lies at 0x54000. -/
abbrev gen1 : Gen := { gen0 with sent := true, rowB := 4, recvBase := 0x53000, retBase := 0x54000 }

/-- A module on the pod with generation 7 in the state `g`. -/
abbrev generating (g : Gen) : State := { State.reset with dp := { expertPod [(7, g)] [] with lnk := net {} [] } }

theorem witness_ControlFramesAct_rows :
    ∃ (s : State) (fr f : Culm), s.podLive = true ∧ f = emberAs fr 3 fr.aux ∧ 254 ≤ f.aux2 ∧ s.dp.Hears 1 f ∧
      ((s.dp.heard 1 f).gen f.msg).st = .live :=
  ⟨generating gen1, { frame1 with aux2 := 255, payload := toLe 8 0 ++ toLe 8 128 }, _, by decide +kernel, rfl, by decide +kernel,
    hears_of (by decide +kernel), by decide +kernel⟩

theorem witness_ControlFramesAct_unknown (k : Fin 5) :
    ∃ (s : State) (fr f : Culm), s.podLive = true ∧ s.dp.lnk.early.length < 4096 ∧ s.dp.Hears 1 f ∧
      (s.dp.heard 1 f).collById f.msg = none ∧ (s.dp.heard 1 f).endedFor f.msg f.src true = none ∧
      f = emberAs fr (match k with | 0 => 4 | 1 => 4 | 2 => 5 | 3 => 5 | 4 => 10)
        (match k with | 0 => 0 | 1 => 1 | 2 => 0 | 3 => 1 | 4 => 0) := by
  refine ⟨linked (net {} []), frame1, _, by decide +kernel, by decide +kernel, hears_of ?_, ?_, ?_, rfl⟩ <;>
    revert k <;> decide +kernel

/-- A RECV of tag 7 from rank 1. -/
abbrev recv0 : Coll := { barrier0 with op := 0x4B, o := outst (dMsg 0x4B) .running }

/-- An ALL_TO_ALL of COLL_ID 7. -/
abbrev exchange0 : Coll := { barrier0 with op := 0x49, o := outst (dMsg 0x49) .running }

/-- A bulk frame without an acknowledgement, sent `n` times again. -/
abbrev flying (n : Nat) : Conn := { next := 1, unacked := [{ frame := { frame1 with src := 0, dst := 1 }, port := 0, tries := n }] }

theorem witness_DataAcksAndNaks (k : Fin 4) :
    ∃ (s : State) (fr f : Culm) (h : Dp) (c : Coll), s.podLive = true ∧ f = bulk fr 0 ∧ s.dp.Hears 0 f ∧
      h = s.dp.heard 0 f ∧ f.aux = k ∧ f.aux2 < 254 ∧ s.dp.repairOf f = none ∧
      if k = 2 then h.byTag 0x4B f.src f.msg (fun c =>
        c.group = f.group && !(c.parts.any fun p => p.ofs = f.ofs) && f.ofs + f.payload.length ≤ Dp.msgLen c) = some c
      else h.collById f.msg = some c ∧ Dp.rankIn c f.src = some 1 ∧ (k = 3 → f.ofs + f.payload.length ≤ Dp.msgLen c) := by
  match k with
  | 0 => refine ⟨linked (net {} [barrier0]), frame1, _, _, barrier0, ?_, rfl, hears_of ?_, rfl, rfl, ?_⟩ <;> decide +kernel
  | 1 => refine ⟨linked (net {} [barrier0]), { frame1 with aux := 1 }, _, _, barrier0, ?_, rfl, hears_of ?_, rfl, rfl, ?_⟩ <;>
      decide +kernel
  | 2 => refine ⟨linked (net {} [recv0]), { frame1 with aux := 2, ofs := 60, payload := [1, 2, 3, 4] }, _, _, recv0, ?_, rfl, hears_of ?_,
      rfl, rfl, ?_⟩ <;> decide +kernel
  | 3 => refine ⟨linked (net {} [exchange0]), { frame1 with aux := 3, aux2 := 253, ofs := 60, payload := [1, 2, 3, 4] }, _, _, exchange0, ?_,
      rfl, hears_of ?_, rfl, rfl, ?_⟩ <;> decide +kernel

theorem witness_DataAcksAndNaks_rows (answer : Bool) :
    ∃ (s : State) (fr f : Culm) (h : Dp) (v w : Wk), s.podLive = true ∧ f = bulk fr 0 ∧ s.dp.Hears 0 f ∧
      h = s.dp.heard 0 f ∧ f.aux = 3 ∧ f.aux2 = (if answer then 255 else 254) ∧ (s.dp.gen f.msg).st = .live ∧
      Dp.Works (Dp.rowWork f (s.dp.gen f.msg)) s.dp () v ∧ Dp.Works (Dp.rowWork f (h.gen f.msg)) h () w := by
  cases answer
  · exact ⟨generating gen1, { frame1 with aux := 3, aux2 := 254, payload := [1, 2, 3, 4] }, _, _, _, _, by decide +kernel, rfl,
      hears_of (by decide +kernel), rfl, rfl, rfl, by decide +kernel, works (by decide +kernel), works (by decide +kernel)⟩
  · exact ⟨generating gen1, { frame1 with aux := 3, aux2 := 255, payload := [1, 2, 3, 4], last := true }, _, _, _, _, by decide +kernel, rfl,
      hears_of (by decide +kernel), rfl, rfl, rfl, by decide +kernel, works (by decide +kernel), works (by decide +kernel)⟩

theorem witness_DataAcksAndNaks_acks :
    (∃ (s : State) (fr f : Culm) (cls : Nat), s.podLive = true ∧ f = emberAs fr 1 fr.aux ∧ s.dp.lnkOn = true ∧ f.dst = s.dp.me ∧
      (s.dp.peer f.src).down = false ∧ cls = (if f.aux = 1 then 1 else 0) ∧ f.epoch = (s.dp.conn f.src cls).epoch ∧
      (s.dp.conn f.src cls).unacked ≠ []) ∧
    (∀ last : Bool, ∃ (s : State) (fr f : Culm) (cls : Nat) (t : TxFrame), s.podLive = true ∧ f = emberAs fr 2 fr.aux ∧
      s.dp.lnkOn = true ∧ f.dst = s.dp.me ∧ (s.dp.peer f.src).down = false ∧ cls = (if f.aux = 1 then 1 else 0) ∧
      f.epoch = (s.dp.conn f.src cls).epoch ∧ (s.dp.conn f.src cls).unacked.find? (fun t => t.frame.psn = f.psn) = some t ∧
      if last then (s.dp.reg Reg.lnkRetry).fld 3 0 ≤ t.tries
      else t.tries < (s.dp.reg Reg.lnkRetry).fld 3 0 ∧ s.dp.route f.src t.frame.group cls = some 0) ∧
    (∀ nak : Bool, ∃ (s : State) (fr f : Culm) (cls : Nat), s.podLive = true ∧ s.dp.lnkOn = true ∧ f.dst = s.dp.me ∧
      (s.dp.peer f.src).down = false ∧ cls = (if f.aux = 1 then 1 else 0) ∧ f.epoch ≠ (s.dp.conn f.src cls).epoch ∧
      f = emberAs fr (if nak then 2 else 1) fr.aux) := by
  refine ⟨⟨linked (net (flying 0) []), frame1, _, 0, ?_, rfl, ?_⟩, fun last => ?_,
    fun nak => ⟨linked (net {} []), { frame1 with epoch := 1 }, _, 0, ?_, ?_, ?_, ?_, ?_, ?_, rfl⟩⟩
  · decide +kernel
  · decide +kernel
  · cases last
    · refine ⟨linked (net (flying 7) []), frame1, _, 0, { frame := { frame1 with src := 0, dst := 1 }, port := 0, tries := 7 }, ?_, rfl, ?_⟩ <;>
        decide +kernel
    · refine ⟨linked (net (flying 8) []), frame1, _, 0, { frame := { frame1 with src := 0, dst := 1 }, port := 0, tries := 8 }, ?_, rfl, ?_⟩ <;>
        decide +kernel
  all_goals (revert nak; decide +kernel)

/-- Links on which both connections to peer 1 are being restarted by this module. -/
abbrev restarting (r : Nat) : State :=
  { State.reset with dp := { onPod r [] [] with lnk := { (net {} []) with peers := [(1 - r, { resetting := true })] } } }

/-- Links on which peer 1 is unreachable. -/
abbrev cutOff : State := { State.reset with dp := { onPod 0 [] [] with lnk := { (net {} []) with peers := [(1, { down := true })] } } }

theorem witness_ConnectionsRestart :
    ∀ k : Fin 5, ∃ (s : State) (fr f : Culm) (p : Nat), s.podLive = true ∧ f = { emberAs fr 2 0 with aux2 := 1 } ∧ s.dp.lnkOn = true ∧
      f.dst = s.dp.me ∧ p = f.src ∧ match k with
      | 0 => (s.dp.peer p).resetting = false ∧ f.epoch ≠ (s.dp.conn p 0).epoch
      | 1 => (s.dp.peer p).resetting = false ∧ (s.dp.peer p).down = true
      | 2 => (s.dp.peer p).resetting = true ∧ p ≤ s.dp.me ∧ f.epoch ≠ (s.dp.conn p 0).epoch
      | 3 => (s.dp.peer p).resetting = true ∧ s.dp.me < p ∧ f.epoch ≠ (s.dp.conn p 0).epoch
      | 4 => f.epoch = (s.dp.conn p 0).epoch ∧ (s.dp.peer p).down = false
  | 0 => ⟨linked (net {} []), { frame1 with epoch := 1 }, _, 1, by decide +kernel, rfl, by decide +kernel⟩
  | 1 => ⟨cutOff, frame1, _, 1, by decide +kernel, rfl, by decide +kernel⟩
  | 2 => ⟨restarting 1, { frame1 with src := 0, dst := 1, epoch := 1 }, _, 0, by decide +kernel, rfl, by decide +kernel⟩
  | 3 => ⟨restarting 0, { frame1 with epoch := 1 }, _, 1, by decide +kernel, rfl, by decide +kernel⟩
  | 4 => ⟨linked (net {} []), frame1, _, 1, by decide +kernel, rfl, by decide +kernel⟩

theorem witness_ConnectionsRestart_ack :
    (∀ k : Fin 3, ∃ (s : State) (fr f : Culm), s.podLive = true ∧ f = { emberAs fr 1 0 with aux2 := 1 } ∧ s.dp.lnkOn = true ∧
      f.dst = s.dp.me ∧ (s.dp.peer f.src).down = false ∧
      if k = 2 then f.epoch ≠ (s.dp.conn f.src 0).epoch
      else f.epoch = (s.dp.conn f.src 0).epoch ∧ (s.dp.peer f.src).resetting = decide (k = 0)) ∧
    ∃ s : State, s.podLive = true ∧ s.dp.lnkOn = true := by
  refine ⟨fun k => ?_, linked (net {} []), by decide +kernel⟩
  match k with
  | 0 => exact ⟨restarting 0, frame1, _, by decide +kernel, rfl, by decide +kernel⟩
  | 1 => exact ⟨linked (net {} []), frame1, _, by decide +kernel, rfl, by decide +kernel⟩
  | 2 => exact ⟨linked (net {} []), { frame1 with epoch := 1 }, _, by decide +kernel, rfl, by decide +kernel⟩

theorem witness_ConnectionsRestart_frame : frame1.wf = true ∧ frame1.ty ≤ 10 := by decide

/-- A retransmitted bulk DATA frame of epoch 2, whose header is written out byte by byte from Table 12.5. -/
abbrev wire0 : Culm where
  ty := 0
  ember := false
  last := true
  retx := true
  epoch := 2
  src := 0xABC
  dst := 0x123
  group := 0x4567
  psn := 0x89ABCDEF
  msg := 0x01020304
  ofs := 0x1122334455667788
  aux := 3
  aux2 := 254
  aux32 := 0xA0B0C0D0
  payload := [1, 2, 3]

theorem test_culmHead : Dp.culmHead wire0 =
    [0x10, 0x26, 0xBC, 0x0A, 0x23, 0x01, 0x67, 0x45, 0xEF, 0xCD, 0xAB, 0x89, 0x04, 0x03, 0x02, 0x01,
     0x88, 0x77, 0x66, 0x55, 0x44, 0x33, 0x22, 0x11, 0x03, 0x00, 0x03, 0xFE, 0xD0, 0xC0, 0xB0, 0xA0] := by decide

/-- The check value of the CRC-32C: that of the digits 1 to 9. -/
theorem test_crc32c : Dp.crc32c [0x31, 0x32, 0x33, 0x34, 0x35, 0x36, 0x37, 0x38, 0x39] = 0xE3069283 := by decide +kernel

/-- A comparison of shard 7, step 0, with owner 1. -/
abbrev pend0 : FpPend := { fpidx := 0, shardId := 7, step := 0, owner := 1, crc := 3, entry := none, space := 0, desc := [], stamp := 0 }

/-- A module with registers `regs` and fingerprint state `f`, on links `l`. -/
abbrev finger (regs : List (Nat × Nat)) (f : Fll) (l : Lnk) : State := { State.reset with dp := { onPod 0 regs [] with fll := f, lnk := l } }

/-- A NETWORK UPDATE of shard 7 at step 9 in progress, owned by rank 1. -/
abbrev update0 : Coll :=
  { barrier0 with op := 0x30, o := outst (dUpdate 0) .running, start := 9, id := 7, members := [0, 1] }

/-- The owner's fingerprint of shard 7, step 0. -/
abbrev own0 (expired : Bool) : FpOwn := { shardId := 7, step := 0, crc := 4, space := 0, desc := [], expired }

theorem witness_FingerprintsAndShards :
    (∀ expired : Bool, ∃ (s : State) (fr f : Culm) (h : Dp), s.podLive = true ∧ f = emberAs fr 7 0 ∧ s.dp.Hears 1 f ∧
      h = s.dp.heard 1 f ∧ h.fll.own.find? (fun x => x.shardId = f.msg && x.step = leAt f.payload 0 8) = some (own0 expired)) ∧
    (∃ (s : State) (fr f : Culm) (h : Dp), s.podLive = true ∧ f = emberAs fr 7 0 ∧ s.dp.Hears 1 f ∧
      h = s.dp.heard 1 f ∧ h.fll.own.find? (fun x => x.shardId = f.msg && x.step = leAt f.payload 0 8) = none) := by
  refine ⟨fun x => ⟨finger [] { own := [own0 x] } (net {} []), frame1, _, _, ?_, rfl, hears_of ?_, rfl, ?_⟩,
    ⟨linked (net {} []), frame1, _, _, ?_, rfl, hears_of ?_, rfl, ?_⟩⟩
  all_goals first | decide +kernel | (revert x; decide +kernel)

theorem witness_FingerprintsAndShards_verdict (k : Fin 3) :
    ∃ (s : State) (fr f : Culm) (h : Dp) (p : FpPend), s.podLive = true ∧ s.dp.Hears 1 f ∧ h = s.dp.heard 1 f ∧
      h.findPend f.msg (leAt f.payload 0 8) = some p ∧ f.src = p.owner ∧ p.repairing = false ∧
      f = emberAs fr 7 (if k = 0 then 1 else 2) ∧ ∃ b : Dp, b = h.divergeNotice 1 p.step p.shardId p.owner h.me p.crc ∧
      if k = 2 then (b.reg Reg.fllCtl).fld 4 3 = 1 ∧ (b.peer p.owner).down = false else (b.reg Reg.fllCtl).fld 4 3 ≠ 1 := by
  refine ⟨finger [(Reg.fllCtl, if k = 2 then 8 else 0)] { pend := [pend0] } (net {} []), frame1, _, _, pend0, ?_, hears_of ?_, rfl, ?_,
    rfl, rfl, rfl, _, rfl, ?_⟩ <;> revert k <;> decide +kernel

theorem witness_FingerprintsAndShards_deadline :
    ∃ (s : State) (shard step : Nat) (p : FpPend) (a : Dp), s.awake = true ∧
      a = { s.dp with fll := { s.dp.fll with
              early := s.dp.fll.early.filter fun y => !(y.shardId = shard && y.step = step)
              own := s.dp.fll.own.map fun x => if x.shardId = shard && x.step = step then { x with expired := true } else x } } ∧
      a.findPend shard step = some p ∧ p.repairing = false :=
  ⟨finger [] { pend := [pend0] } (net {} []), 7, 0, pend0, _, by decide +kernel, rfl, by decide +kernel, rfl⟩

theorem witness_FingerprintsAndShards_cancel :
    (∃ (s : State) (fr f : Culm), s.podLive = true ∧ f = emberAs fr 6 0 ∧ s.dp.Hears 1 f ∧
      (s.dp.gen (f.msg % 65536)).sent = false) ∧
    (∃ (s : State) (fr f : Culm) (h : Dp) (v w : Wk), s.podLive = true ∧ f = emberAs fr 6 0 ∧ s.dp.Hears 1 f ∧ h = s.dp.heard 1 f ∧
      Dp.Works (s.dp.cancelMark (f.msg % 65536)) s.dp () v ∧ Dp.Works (h.cancelMark (f.msg % 65536)) h () w ∧
      (v.d.gen (f.msg % 65536)).sent = true) :=
  ⟨⟨linked (net {} []), frame1, _, by decide +kernel, rfl, hears_of (by decide +kernel), by decide +kernel⟩,
   ⟨generating gen1, frame1, _, _, _, _, by decide +kernel, rfl, hears_of (by decide +kernel), rfl, works (by decide +kernel),
     works (by decide +kernel), by decide +kernel⟩⟩

/-- A module in which `update0` runs on ring 0. -/
abbrev updating : State :=
  let d := holding (onPod 0 [] []) (dUpdate 0) .running
  { State.reset with dp := { d with lnk := net {} [update0] } }

/-- A frame that returns element 0 of shard 7 at step 9, with its bytes. -/
abbrev returned0 : Culm := { frame1 with aux32 := 9, payload := [0, 0, 0x80, 0x3F] }

theorem witness_FingerprintsAndShards_shard :
    (∃ (s : State) (fr f : Culm) (h : Dp) (c : Coll) (q : UpdP) (b : Dp) (x : Coll) (w : Wk), s.podLive = true ∧ f = bulk fr 9 ∧
      s.dp.Hears 0 f ∧ h = s.dp.heard 0 f ∧ h.shardOf f = some c ∧ q = parseUpd c.o.bytes ∧
      b = h.modColl c.uid (fun c' => { c' with parts := c'.parts ++ Dp.shardNew c q f }) ∧ b.coll c.uid = some x ∧
      b.collRuns c.uid = true ∧ (Dp.shardDue x (parseUpd x.o.bytes)).isEmpty = false ∧
      Dp.Works (Dp.shardWrite (b.envOf x.ring x.o) x (parseUpd x.o.bytes) (Dp.shardDue x (parseUpd x.o.bytes))) b () w) ∧
    (∃ (s : State) (fr f : Culm), s.podLive = true ∧ f = bulk fr 9 ∧ s.dp.Hears 0 f ∧ (s.dp.heard 0 f).shardOf f = none) ∧
    (∃ (s : State) (c : Coll), s.awake = true ∧
      s.dp.lnk.colls.find? (fun c => c.op = 0x30 && c.id = 7 && s.dp.collLives c.uid) = some c) :=
  ⟨⟨updating, returned0, _, _, update0, _, _,
      { update0 with parts := [{ phase := 4, level := 0, block := 0, who := 0, ofs := 0, bytes := [0, 0, 0x80, 0x3F], poison := false, src := 1 }] },
      _, by decide +kernel, rfl, hears_of (by decide +kernel), rfl, by decide +kernel, rfl, rfl, by decide +kernel, by decide +kernel,
      by decide +kernel, works (by decide +kernel)⟩,
   ⟨linked (net {} []), frame1, _, by decide +kernel, rfl, hears_of (by decide +kernel), by decide +kernel⟩,
   ⟨updating, update0, by decide +kernel⟩⟩

/-! ### Witnesses: timers, ports and errors -/

/-- A REDUCE of COLL_ID 7 with a deadline, at rank `r` of two. -/
abbrev reduce0 (r : Nat) (fixed : Bool) : Coll :=
  { barrier0 with op := 0x48, o := outst (desc 0x48 5 [(20, 4, 7), (24, 4, 9)]) .running, rank := r, fixed }

theorem witness_TimersAct :
    (∃ s : State, s.podLive = true ∧ (s.dp.peer 1).down = true) ∧
    (∃ (s : State) (c : Conn), s.podLive = true ∧ c = s.dp.conn 1 1 ∧ (s.dp.peer 1).down = false ∧ c.fresh ≠ 0 ∧ c.have_ ≠ []) ∧
    (∃ s : State, s.podLive = true ∧ (s.dp.peer 1).down = false ∧ (s.dp.peer 1).resetting = true) ∧
    (∃ (s : State) (c : Conn) (t : TxFrame) (q : Nat), s.podLive = true ∧ c = s.dp.conn 1 0 ∧ (s.dp.peer 1).down = false ∧
      (s.dp.peer 1).resetting = false ∧ c.unacked = [t] ∧ t.tries < (s.dp.reg Reg.lnkRetry).fld 3 0 ∧
      s.dp.route 1 t.frame.group 0 = some q) ∧
    (∃ (d b : Dp) (q : Nat) (c : Conn), c = d.conn 1 1 ∧ b = d.setConn 1 1 { c with fresh := 0, base := c.expect } ∧
      (b.peer 1).down = false ∧ b.route 1 0 1 = some q) :=
  ⟨⟨cutOff, by decide +kernel⟩, ⟨linked (net { fresh := 1, have_ := [2] } []), _, by decide +kernel, rfl, by decide +kernel⟩,
   ⟨restarting 0, by decide +kernel⟩,
   ⟨linked (net (flying 7) []), _, { frame := { frame1 with src := 0, dst := 1 }, port := 0, tries := 7 }, 0, by decide +kernel, rfl,
     by decide +kernel⟩,
   ⟨(linked (net {} [])).dp, _, 0, _, rfl, rfl, by decide +kernel⟩⟩

theorem witness_TimersAct_collectives :
    (∃ (s : State) (c : Coll), s.awake = true ∧ s.dp.collById 7 = some c ∧ c.op = 0x48 ∧ c.kind ≤ 1 ∧ c.rank = c.coord ∧
      c.fixed = false ∧ (parseRed c.o.bytes).deadline ≠ 0) ∧
    (∃ (s : State) (c : Coll), s.awake = true ∧ s.dp.collById 7 = some c ∧ c.op = 0x48 ∧ c.kind ≤ 1 ∧ c.rank ≠ c.coord ∧
      c.fixed = false) ∧
    (∀ ended : Bool, ∃ (s : State) (c : Coll), s.awake = true ∧
      ((s.dp.lnk.colls.find? fun c => c.id = 7 && c.ended && c.rank = c.coord && 1 < c.size && !c.ready.contains 1).orElse
        fun _ => s.dp.collById 7) = some c ∧ c.op = 0x48 ∧ c.kind ≤ 1 ∧ c.rank = c.coord ∧
      c.fixed = true ∧ 1 < c.size ∧ c.ready.contains 1 = false ∧ c.ended = ended) :=
  ⟨⟨linked (net {} [reduce0 0 false]), reduce0 0 false, by decide +kernel⟩, ⟨linked (net {} [reduce0 1 false]), reduce0 1 false, by decide +kernel⟩,
   fun ended => ⟨linked (net {} [{ reduce0 0 true with ended }]), { reduce0 0 true with ended }, by revert ended; decide +kernel⟩⟩

/-- A module whose port 7 is in state `n`, with register `r` at `v`. -/
abbrev ported (r v n : Nat) : State :=
  { State.reset with dp := { onPod 0 [(r, v)] [] with lnk := { ports := [(7, { state := n })] } } }

theorem witness_PortsAct :
    (∃ s : State, s.podLive = true ∧ (s.dp.reg Reg.lnkCtl).bit 4 = true) ∧
    (∃ s : State, s.podLive = true ∧ (s.dp.port 7).state = 1) ∧
    (∃ s : State, s.podLive = true ∧ (s.dp.reg Reg.lnkCtl).bit 5 = true ∧ 2 ≤ (s.dp.port 7).state) ∧
    (∃ (s : State) (lane : Fin 32) (a : Dp), s.podLive = true ∧ a = s.dp.laneOut lane false ∧ a.isRetired .lane lane = false ∧
      a.threshold .lane ≠ 0 ∧ ((a.setEvents .lane lane []).reg Reg.ashRetCtl).bit 5 = true) ∧
    (∃ s : State, s.podLive = true ∧ (s.dp.reg Reg.lnkPtpCtl).bit 0 = true ∧
      2 ≤ (s.dp.port ((s.dp.reg Reg.lnkPtpCtl).fld 4 2)).state) :=
  ⟨⟨ported Reg.lnkCtl 0x11 0, by decide +kernel⟩, ⟨ported Reg.lnkCtl 1 1, by decide +kernel⟩,
   ⟨ported Reg.lnkCtl 0x21 3, by decide +kernel⟩,
   ⟨ported Reg.ashRetCtl 0x20 2, 31, _, by decide +kernel, rfl, by decide +kernel, by decide +kernel, by decide +kernel⟩,
   ⟨ported Reg.lnkPtpCtl 0x1D 2, by decide +kernel⟩⟩

theorem witness_TransientFaultsCount :
    (∀ a ∈ [0x011FFFFFFFFF, 0x020004000000, 0x057FFFFFFFFF], ∃ (s : State) (k : ResKind) (n t : Nat), s.awake = true ∧
      s.dp.resourceAt a = some (k, n) ∧ Dp.tierOf a = some t ∧ Dp.inJournal a = false) ∧
    (∃ s : State, s.podLive = true ∧ s.hostLive = true) ∧
    (∃ (s : State) (c : Fin 1024) (k : Nat), s.awake = true ∧ s.pwr.inReset (c.val / 512) = false ∧
      s.dp.ash.hpcCopy.find? (fun x => x.1 = c.val) = some (c.val, k)) ∧
    (∀ many : Bool, ∃ (d : Dp) (k : ResKind) (n : Nat) (l : List Nat), d.threshold k ≠ 0 ∧ d.isRetired k n = false ∧
      l = ((d.now :: d.eventsOf k n).filter fun t => d.now ≤ t + (d.reg Reg.ashRetWin).fld 31 0 * 1000000000) ∧
      if many then d.threshold k ≤ l.length else l.length < d.threshold k) ∧
    (∃ (d : Dp) (t : Nat), (d.reg Reg.ashRetCtl).bit 6 = true ∧ (d.tiller t).retired = false) := by
  refine ⟨?_, ⟨State.reset, by decide +kernel⟩,
    ⟨{ State.reset with dp := { State.reset.dp with ash := { State.reset.dp.ash with hpcCopy := [(1023, 4)] } } }, 1023, 4, by decide +kernel⟩,
    fun many => ?_, ⟨(withReg Reg.ashRetCtl 0x40).dp, 191, by decide +kernel⟩⟩
  · intro a m
    have : (State.reset.dp.resourceAt a).isSome ∧ (Dp.tierOf a).isSome ∧ Dp.inJournal a = false := by
      revert m; revert a; decide +kernel
    obtain ⟨x, hx⟩ := Option.isSome_iff_exists.mp this.1
    obtain ⟨t, ht⟩ := Option.isSome_iff_exists.mp this.2.1
    exact ⟨State.reset, x.1, x.2, t, by decide +kernel, hx, ht, this.2.2⟩
  · cases many
    · exact ⟨State.reset.dp, .tiller, 191, _, by decide +kernel, by decide +kernel, rfl, by decide +kernel⟩
    · exact ⟨(withReg Reg.ashRetThr (2 ^ 48)).dp, .tiller, 191, _, by decide +kernel, by decide +kernel, rfl, by decide +kernel⟩

theorem witness_UncorrectableErrorsPoison :
    ∃ (s : State) (k : ResKind) (n i : Nat), s.awake = true ∧ s.dp.resourceAt 0 = some (k, n) ∧ Dp.tierOf 0 = some i ∧
      Dp.inJournal 0 = false :=
  ⟨State.reset, .hpc, 0, 0, by decide +kernel⟩

theorem witness_FatalEvents :
    (∃ d : Dp, d.ash.frozen = false ∧ (d.reg Reg.ashCtl).bit 0 = true ∧ (d.reg Reg.glbCtl).bit 1 = true) ∧
    (∃ d : Dp, d.ash.frozen = false ∧ (d.reg Reg.ashCtl).bit 0 = false ∧ (d.reg Reg.glbCtl).bit 1 = true) ∧
    (∃ d : Dp, d.ash.frozen = true ∧ (d.reg Reg.glbCtl).bit 1 = false) :=
  ⟨⟨State.reset.dp, by decide +kernel⟩, ⟨(withReg Reg.ashCtl 0).dp, by decide +kernel⟩,
   ⟨{ (withReg Reg.glbCtl 0).dp with ash := { State.reset.dp.ash with frozen := true } }, by decide +kernel⟩⟩

/-! ### Witnesses: clocks, supplies and resets -/

/-- A module with `p` for its clocks and supplies, and both halves at setting `a` (0 FULL, 3 gated). -/
abbrev powered (p : Pwr) (a : Nat) : State := { State.reset with pwr := p, dp := { State.reset.dp with aclk0 := a, aclk1 := a } }

/-- The supplies after reset. -/
abbrev pwr0 : Pwr := State.reset.pwr

theorem witness_ClocksAreForced :
    (∃ s : State, s.pwr.main = true ∧ s.held 31 = false ∧ s.throttleOf 31 = 0) ∧
    (∃ s : State, s.pwr.main = true ∧ s.held 31 = false ∧ s.throttleOf 31 = 1) ∧
    (∀ k : Fin 3, ∃ (s : State) (v w h : Nat), s.awake = true ∧ (s.dp.reg Reg.pwrCap).bit 0 = true ∧ w = s.wattsSeen v ∧
      (s.dp.reg Reg.pwrCap).fld 31 16 < w ∧ if k = 0 then s.pwr.cap0 = 0 ∧ s.pwr.cap1 = 0 ∧ h = (if 5 < 6 then 1 else 0) else
        if k = 1 then s.pwr.cap0 = 0 ∧ s.pwr.cap1 ≠ 0 ∧ h = 0 else s.pwr.cap0 ≠ 0 ∧ s.pwr.cap1 = 0 ∧ h = 1) ∧
    (∃ (s : State) (w : Nat), s.wattsSeen w < (s.dp.reg Reg.pwrCap).fld 47 32 ∧ s.pwr.capAct = true) ∧
    (∃ s : State, s.pwr.goal 1 ≤ s.dp.aclk 1) ∧
    (∃ s : State, s.dp.aclk 1 = 0 ∧ 0 < s.pwr.goal 1 ∧ (s.pwr.epochs.any fun e => e.1 = 1) = false) ∧
    (∃ s : State, s.dp.aclk 1 ≠ 0 ∧ s.dp.aclk 1 < s.pwr.goal 1 ∧ s.pwr.goal 1 < 3) ∧
    (∃ s : State, s.awake = true ∧ s.pwr.epochs = [(1, 2)]) ∧
    (∀ k : Fin 2, ∃ s : State, s.awake = true ∧ s.pwr.goal 1 < s.dp.aclk 1 ∧ (s.pwr.epochs.any fun e => e.1 = 1) = false ∧
      (s.dp.aclk 1 = 1 ↔ k = 0)) ∧
    (∃ s : State, s.pwr.main = true ∧ s.pwr.trip = false) ∧ (∃ s : State, s.pwr.trip = true ∧ s.pwr.supply ≠ .off) := by
  refine ⟨⟨State.reset, by decide +kernel⟩, ⟨State.reset.setThrottle 31 1, by decide +kernel⟩, fun k => ?_,
    ⟨powered { pwr0 with cap0 := 2, cap1 := 2 } 2, 0, by decide +kernel⟩, ⟨State.reset, by decide +kernel⟩,
    ⟨powered { pwr0 with cap1 := 2 } 0, by decide +kernel⟩, ⟨powered { pwr0 with cap1 := 2 } 1, by decide +kernel⟩,
    ⟨powered { pwr0 with epochs := [(1, 2)] } 0, by decide +kernel⟩, fun k => ?_, ⟨State.reset, by decide +kernel⟩,
    ⟨powered { pwr0 with trip := true } 3, by decide +kernel⟩⟩
  · match k with
    | 0 => exact ⟨State.reset, 3001, 3001, 1, by decide +kernel⟩
    | 1 => exact ⟨powered { pwr0 with cap1 := 1 } 0, 3001, 3001, 0, by decide +kernel⟩
    | 2 => exact ⟨powered { pwr0 with cap0 := 1 } 0, 3001, 3001, 1, by decide +kernel⟩
  · match k with
    | 0 => exact ⟨powered pwr0 1, by decide +kernel⟩
    | 1 => exact ⟨powered pwr0 3, by decide +kernel⟩

theorem witness_SuppliesComeAndGo :
    (∃ s : State, s.pwr.supply = .off ∧ s.pwr.tripOpen = false ∧ s.pwr.hearth = true) ∧
    (∃ s : State, s.pwr.main = true ∧ s.pwr.supply ≠ .off ∧ s.pwr.aux = true ∧ s.hostLive = true ∧
      (∀ q ∈ s.mnt.running, q.act ≠ 13) ∧ s.pwr.refOk = true) ∧
    (∃ s : State, s.pwr.supply = .precharge) ∧ (∃ s : State, s.pwr.supply ≠ .off ∧ s.pwr.aux = false) ∧
    (∃ s : State, s.pwr.hearth = false ∧ s.pwr.supply ≠ .off) ∧ (∃ s : State, s.pwr.hearth = true) :=
  ⟨⟨powered { pwr0 with supply := .off } 0, by decide +kernel⟩, ⟨State.reset, by decide +kernel⟩,
   ⟨powered { pwr0 with supply := .precharge } 0, by decide +kernel⟩, ⟨powered { pwr0 with aux := false } 0, by decide +kernel⟩,
   ⟨powered { pwr0 with hearth := false } 0, by decide +kernel⟩, ⟨State.reset, by decide +kernel⟩⟩

theorem witness_ResetsStartOver :
    (∃ s : State, s.pwr.main = true ∧ s.pwr.hearth = true ∧ s.pwr.fresh = true ∧ s.pwr.tripOpen = false) ∧
    (∃ s : State, s.pwr.main = true ∧ s.pwr.hearth = true ∧ s.pwr.perst = true ∧ s.pwr.fresh = false) ∧
    (∃ s : State, s.awake = true ∧ s.pwr.link = true ∧ s.kiln.recovery = false ∧ (s.kiln.seg 5).isSome = true ∧ s.hostLive = true) ∧
    (∃ s : State, s.awake = true ∧ s.pwr.inReset 1 = false ∧ ∀ q ∈ s.mnt.running, resHalf q.act q.res ≠ some 1) ∧
    (∃ s : State, s.awake = true ∧ s.pwr.inReset 1 = true) ∧ (∃ s : State, s.pwr.d3hot = true ∧ s.pwr.main = true) :=
  ⟨⟨powered { pwr0 with fresh := true } 0, by decide +kernel⟩, ⟨powered { pwr0 with perst := true, fresh := false } 0, by decide +kernel⟩,
   ⟨State.reset, by decide +kernel⟩, ⟨State.reset, by decide +kernel⟩, ⟨powered { pwr0 with reset1 := true } 0, by decide +kernel⟩,
   ⟨powered { pwr0 with d3hot := true } 0, by decide +kernel⟩⟩

/-! ### Witnesses: maintenance -/

/-- A module with requests `a` arrived, `r` running and `q` queued. -/
abbrev gate (a r q : List Req) : State := { State.reset with mnt := { State.reset.mnt with arrived := a, running := r, queue := q } }

/-- A request of Hearth for a retraining of stack 0, as number 9, in the queue where it must. -/
abbrev ask0 (queue : Bool) : Req := { num := 9, act := 1, res := 15, ch := .clk 0, queue }

theorem witness_MaintenanceTurns :
    (∀ k : Fin 3, ∃ (s b : State) (q : Req), s.awake = true ∧ turnOf (.hbmRt 15) = some (1, 15) ∧
      s.mnt.arrived.find? (fun q => q.act = 1 && q.res = 15) = some q ∧
      b = { s with mnt := { s.mnt with arrived := s.mnt.arrived.filter fun x => x.num ≠ q.num } } ∧
      if k = 0 then b.grants q = true else if k = 1 then b.grants q = false ∧ q.queue = true ∧ s.dp.resRetired q = false ∧ b.queued < 16
      else b.grants q = false ∧ q.queue = false) ∧
    (∃ (s : State) (q : Req), s.awake = true ∧ turnOf (.fw 5) = some (8, 5) ∧
      s.mnt.arrived.find? (fun q => q.act = 8 && q.res = 5) = some q ∧ s.kiln.segReason 5 q.bytes ≠ 0) := by
  refine ⟨fun k => ?_, ⟨gate [{ num := 9, act := 8, res := 5, ch := .pldm }] [] [], { num := 9, act := 8, res := 5, ch := .pldm },
    by decide +kernel⟩⟩
  match k with
  | 0 => exact ⟨gate [ask0 true] [] [], _, ask0 true, by decide +kernel, rfl, by decide +kernel, rfl, by decide +kernel⟩
  | 1 => exact ⟨gate [ask0 true] [{ num := 3, act := 1, res := 15, ch := .hearth }] [], _, ask0 true, by decide +kernel, rfl,
      by decide +kernel, rfl, by decide +kernel⟩
  | 2 => exact ⟨gate [ask0 false] [{ num := 3, act := 5, res := 1, ch := .hearth }] [], _, ask0 false, by decide +kernel, rfl,
      by decide +kernel, rfl, by decide +kernel⟩

theorem witness_ConflictsAreSymmetric :
    (∃ (s : State) (q r : Req), s.grants q = true ∧ r ∈ s.mnt.running) ∧
    (∃ code : Fin 14 → Nat, ∀ k : Fin 14, code k = if k.val < 8 then k.val + 1 else k.val + 2) :=
  ⟨⟨gate [] [{ num := 3, act := 1, res := 0, ch := .hearth }] [], ask0 true, { num := 3, act := 1, res := 0, ch := .hearth }, by decide +kernel⟩,
   ⟨fun k => if k.val < 8 then k.val + 1 else k.val + 2, fun _ => rfl⟩⟩

theorem witness_MaintenanceEnds :
    (∃ (s : State) (q : Req), s.awake = true ∧ s.mnt.running.find? (fun q => q.num = 9) = some q ∧ s.mayEnd q = true ∧ q.act ≠ 14) ∧
    (∃ (s : State) (q : Req) (l : ImageLock), s.awake = true ∧ s.mnt.running.find? (fun q => q.num = 9) = some q ∧
      s.mayEnd q = true ∧ q.act = 14 ∧ s.dp.locks.find? (fun l => l.base = q.res) = some l ∧ l.ended = some stOK) ∧
    (∃ (s : State) (q : Req), s.mnt.queue.find? (fun q => q.num = 9) = some q ∧ s.awake = true ∧
      s.mnt.queue.find? (fun q => q.num = 9 && q.ch ≠ .hearth) = some q ∧ s.hostLive = true) ∧
    (∃ s : State, s.awake = true ∧ (s.dp.reg Reg.mntCtl).bit 1 = true ∧ 15 < retrainUnits 1 ∧ s.asked 1 15 = false ∧
      160 ≤ (s.pwr.sensor (refSensor 1 15) - Tab.get (fun _ => 0) s.pwr.trained (1 * 64 + 15)).natAbs) ∧
    (∃ s : State, s.awake = true ∧ (s.dp.reg Reg.mntCtl).bit 1 = true ∧ s.asked 4 31 = false ∧ ∀ g, g < 4 → s.asked 12 g = false) ∧
    (∀ n ∈ [(23 : Fin 64), 41], n.val < 50 ∧ domainAlone n = true) ∧ (∀ n ∈ [(24 : Fin 64), 50, 63], 50 ≤ n.val ∨ domainAlone n = false) ∧
    (∀ q : Bool, ∃ (s : State) (n : Nat) (img : List Byte), s.awake = true ∧ s.mnt.staged = some (n, img) ∧ s.mnt.swapped = false ∧
      s.quiescent n = q) ∧
    (∀ k : Fin 4, ∃ (s : State) (p : Fin 6), s.awake = true ∧ (s.mnt.arrived.any fun q => q.act = 9 && q.res = p.val) = false ∧
      (s.dp.reg Reg.mntScrub).bit (p / 2) = decide (k ≠ 1) ∧ s.scrubPaused p = decide (k = 2) ∧
      s.gleanerDrains (p % 2) = decide (k = 3)) := by
  refine ⟨⟨gate [] [ask0 true] [], ask0 true, by decide +kernel⟩, ?_, ⟨gate [] [] [ask0 true], ask0 true, by decide +kernel⟩,
    ⟨{ State.reset with pwr := { pwr0 with sensors := Tab.set (fun _ => 0) pwr0.sensors (refSensor 1 15) 160, trained := [] } }, by decide +kernel⟩,
    ⟨State.reset, by decide +kernel⟩, by decide, by decide, fun q => ?_, fun k => ?_⟩
  · let r : Req := { num := 9, act := 14, res := image, ch := .snapshot }
    let l : ImageLock := { base := image, total := 0x30000, ended := some stOK }
    exact ⟨{ gate [] [r] [] with dp := { State.reset.dp with locks := [l] } }, r, l, by decide +kernel⟩
  · cases q
    · exact ⟨{ gate [] [] [] with mnt := { State.reset.mnt with staged := some (4, []) },
                                  dp := { State.reset.dp with lnk := { State.reset.dp.lnk with colls := [barrier0] } } }, 4, [], by decide +kernel⟩
    · exact ⟨{ gate [] [] [] with mnt := { State.reset.mnt with staged := some (4, []) } }, 4, [], by decide +kernel⟩
  · match k with
    | 0 => exact ⟨State.reset, 5, by decide +kernel⟩
    | 1 => exact ⟨withReg Reg.mntScrub 0, 5, by decide +kernel⟩
    | 2 => exact ⟨powered pwr0 3, 5, by decide +kernel⟩
    | 3 => exact ⟨{ State.reset with dp := gleaning }, 4, by decide +kernel⟩

/-! ### Witnesses: Kiln and the sideband -/

/-- A token of kind `k` and value `v` under key 0 for device 0 and a nonce of zeros. -/
abbrev token (k v : Nat) : List Byte := toLe 4 0x4B544244 ++ toLe 1 k ++ toLe 1 v ++ toLe 122 0

theorem witness_TokensAct :
    (∃ (s : State) (t : List Byte), s.hostLive = true ∧ t = s.kiln.tokenBytes ∧ s.kiln.tokenResult s.mnt.staged.isSome t ≠ 1) ∧
    (∀ (k : Kiln) (kind v : Nat), (kind, v) ∈ [(1, 0), (1, 1), (2, 2), (2, 0)] → k.nonceOut = true → k.nonce = List.replicate 32 0 →
      (k.word 3).toNat = 0 → k.revoked 0 = false → k.hashed 0 = true → k.role 0 kind = true → k.retired = false →
      (k.gens 0).length < 4 → Crypto.verify (Config.slotKey 0) (Crypto.sha512 (slice (token kind v) 0 64)) (slice (token kind v) 64 64) = true →
      k.tokenResult false (token kind v) = 1) := by
  refine ⟨⟨State.reset, _, by decide +kernel, rfl, by decide +kernel⟩, fun k kind v m n z w r h o t g y => ?_⟩
  have e : ∀ p ∈ [(1, 0), (1, 1), (2, 2), (2, 0)], leAt (token p.1 p.2) 0 4 = 0x4B544244 ∧ leAt (token p.1 p.2) 4 1 = p.1 ∧
      leAt (token p.1 p.2) 5 1 = p.2 ∧ leAt (token p.1 p.2) 6 1 = 0 ∧ leAt (token p.1 p.2) 8 8 = 0 ∧
      slice (token p.1 p.2) 16 32 = List.replicate 32 0 ∧ zeroAt (token p.1 p.2) 7 1 = true ∧
      zeroAt (token p.1 p.2) 48 16 = true := by decide +kernel
  obtain ⟨e0, e1, e2, e3, e4, e5, e6, e7⟩ := e _ m
  have c : (kind = 1 ∨ kind = 2) ∧ v ≤ 2 ∧ (kind = 1 → v ≠ 2) := by
    simp only [List.mem_cons, Prod.mk.injEq, List.not_mem_nil, or_false] at m
    omega
  dsimp only at *
  generalize token kind v = b at *
  simp only [Kiln.tokenResult, e0, e1, e2, e3, e4, e5, e6, e7, n, z, w, r, h, o, t, y]
  obtain ⟨rfl | rfl, c1, c2⟩ := c
  · simp [show v ≠ 2 from c2 rfl, show ¬2 < v from by omega]
  · simp [show ¬2 < v from by omega, show ¬4 ≤ (k.gens 0).length from by omega]

theorem witness_OneTimeMemoryIsWritten :
    (∃ (s : State) (q : Req), s.hostLive = true ∧ q = { act := 13, res := (s.dp.reg Reg.otpIdx).fld 7 0, ch := .otp,
                                                        queue := true, bytes := toLe 8 (s.dp.reg Reg.otpData).toNat } ∧ s.otpReason q ≠ 0) ∧
    (∃ (s : State) (q : Req), s.hostLive = true ∧ q = { act := 13, res := (s.dp.reg Reg.otpIdx).fld 7 0, ch := .otp,
                                                        queue := true, bytes := toLe 8 (s.dp.reg Reg.otpData).toNat } ∧ s.otpReason q = 0) ∧
    (∃ (s : State) (t : Fin 128), s.hostLive = true ∧ t.val ≠ 0 ∧ s.otpReason { act := 13, res := 256 + 5, param := t, ch := .otp } ≠ 0) ∧
    (∃ (s : State) (t : Fin 128), s.hostLive = true ∧ t.val ≠ 0 ∧ s.otpReason { act := 13, res := 256 + 5, param := t, ch := .otp } = 0) := by
  refine ⟨⟨State.reset, _, by decide +kernel, rfl, by decide +kernel⟩, ⟨withReg Reg.otpIdx 255, _, by decide +kernel, rfl, by decide +kernel⟩,
    ⟨State.reset, 127, by decide +kernel, by decide, ?_⟩,
    ⟨{ State.reset with kiln := { State.reset.kiln with segs := [(5, some { version := 0, rb := 127, digest := [], debugOnly := false })] } },
      127, by decide +kernel, by decide, by decide +kernel⟩⟩
  have e : State.reset.kiln.seg (261 - 256) = some { version := 0, rb := 0, digest := List.replicate 64 0, debugOnly := false } := by decide +kernel
  unfold State.otpReason
  rw [if_neg (by decide)]
  dsimp only
  rw [show (256 + 5 - 256 : Nat) = 261 - 256 from rfl, e]
  dsimp only
  rw [if_neg (by decide)]
  omega

theorem witness_KilnAnswers :
    (∃ s : State, s.kiln.recovery = true ∧ s.awake = true ∧ s.pwr.link = true) ∧
    (∃ s : State, s.kilnLive = true ∧ s.pwr.link = true ∧ s.pwr.perst = false ∧ s.kiln.closed = false ∧ s.kiln.retired = false ∧
      (s.kiln.sessions.filter fun x => x.2 = 0).length < 4 ∧ (7, 0) ∈ s.kiln.sessions ∧ s.awake = true ∧ s.mnt.staged = none ∧
      ∀ q ∈ s.mnt.arrived ++ s.mnt.queue ++ s.mnt.running, q.act ≠ 8) ∧
    (∃ s : State, s.kilnLive = true ∧ s.pwr.link = true ∧ s.pwr.perst = false ∧ s.kiln.closed = true ∧ s.kiln.retired = false ∧
      s.awake = true ∧ s.mnt.staged.isSome = true) :=
  ⟨⟨{ State.reset with kiln := { State.reset.kiln with recovery := true } }, by decide +kernel⟩,
   ⟨{ State.reset with kiln := { State.reset.kiln with sessions := [(7, 0)] } }, by decide +kernel⟩,
   ⟨{ State.reset with kiln := { State.reset.kiln with closed := true }, mnt := { State.reset.mnt with staged := some (0, []) } }, by decide +kernel⟩⟩

theorem witness_SidebandServes :
    ∃ s t : State, s.pwr.hearth = true ∧ s.awake = true ∧ s.held 41 = false ∧ s.hostLive = true ∧ s.kiln.debug ≠ 2 ∧
      t.hostLive = true ∧ t.kiln.debug = 2 :=
  ⟨State.reset, { State.reset with kiln := { State.reset.kiln with debug := 2, closed := true } }, by decide +kernel⟩

/-! ### Witnesses: the module as a whole -/

/-- Does a command answer a next state. -/
def goesOn (r : Host.Outcome State Fault Refusal) : Bool :=
  match r with
  | .next _ => true
  | _ => false

theorem goes_of {r : Host.Outcome State Fault Refusal} (h : goesOn r = true) : ∃ t, r = .next t := by
  cases r with
  | next t => exact ⟨t, rfl⟩
  | _ => cases h

theorem witness_CommandsLeaveTheRest (c : Instr) (m : c ∈ [.ackTimer 1 1, .reorderTimeout 1 1, .nak frame1, .frameDiscard none,
    .pfcPause 7 true, .preemptionVerified 7, .ptpMessage 5, .connectionResetNak frame1, .connectionResetAck frame1]) :
    ∃ s t : State, s.Quiet ∧ exec c s = .next t := by
  obtain ⟨t, h⟩ := goes_of (r := exec c (linked (net (flying 0) []))) (by revert m; revert c; decide +kernel)
  exact ⟨_, t, ⟨rfl, by intro q m; cases m⟩, h⟩

/-- The environment of a store of ring 0. -/
abbrev env0 : Env := (small [] []).envOf 0 (outst dCopy .running)

theorem witness_StoresStayInPlace :
    ∃ (w v : Wk), env0.sheaf = none ∧ w.cells ≠ [] ∧ Work.flush env0 w = (.ok (), v) := by
  let w : Wk := { d := small [] [], cells := [{ dva := 0x40000, byte := 7, poison := false }] }
  have h : (match Work.flush env0 w with | (.ok (), _) => true | _ => false) = true := by decide +kernel
  revert h
  generalize hf : Work.flush env0 w = r
  obtain ⟨x, v⟩ := r
  cases x with
  | error e => intro h; cases h
  | ok u => intro _; exact ⟨w, v, rfl, by simp [w], hf⟩

theorem witness_MemoryKeepsItsForm : State.reset.dp.mem.wf = true ∧ (small [] pages).mem.wf = true := by decide +kernel

theorem witness_KilnStaysSound : State.reset.kiln.Sound ∧ ∃ t : State, step State.reset = .next t := by
  refine ⟨⟨fun i => ?_, by decide +kernel, by decide +kernel, by decide +kernel⟩, goes_of (by decide +kernel)⟩
  show ((Tab.get (fun _ => []) [] i : List OtpGen)).length ≤ 4
  exact Nat.zero_le _

theorem witness_TrustRisesByTokenOnly :
    (∃ s t : State, step s = .next t ∧ s.kiln.closed = true ∧ t.kiln.closed = false) ∧ (∃ c : Instr, ∃ l : List Instr,
      ({ State.reset with pending := [c] } : State).pending = c :: l) := by
  refine ⟨?_, ⟨.klnTokGo, [], rfl⟩⟩
  let s : State := { powered { pwr0 with fresh := true } 0 with pending := [.coldReset], kiln := { State.reset.kiln with closed := true } }
  have h : (match step s with | .next t => !t.kiln.closed | _ => false) = true := by decide +kernel
  revert h
  generalize hf : step s = r
  cases r with
  | next t => intro h; exact ⟨s, t, hf, rfl, by simpa using h⟩
  | _ => intro h; cases h

end Sys2Proof.Tests
end

section
/-!
PROOFS. Writes to registers with no behaviour of their own (R9, R513, Table 0.6): which writes reach the register file,
and what they leave in it.
-/
namespace Sys2Proof.Machine

/-- What is written under a mask, with the mask in front as the register map gives it. -/
theorem Word.mix_eq (mask new old : Word) : Word.mix mask new old = (mask &&& new) ||| (old &&& ~~~mask) := by
  rw [Word.mix, BitVec.and_comm new mask]

namespace Dp

/-! ### The two halves of a write -/

/-- The RW bits of the register at `o`, those of the bytes written, are staged (R9). -/
def stageWrite (d : Dp) (o : Nat) (w m : Word) : Dp :=
  match rwReg o with
  | some i => { d with regs := d.regs.stage o (Word.mix (i.mask &&& m) w (d.regs.stagedVal o)) }
  | none => d

/-- The W1C bits written 1 of block `b`'s status register are cleared when `o` is its offset (Table 0.6). -/
def clearWrite (d : Dp) (b : Block) (o : Nat) (w : Word) : Dp :=
  if o = b.stat.1 then { d with regs := d.regs.clearStat o (w &&& b.stat.2) } else d

theorem stageWrite_rw {o : Nat} {i : RwInfo} (h : rwReg o = some i) (d : Dp) (w m : Word) :
    d.stageWrite o w m =
      { d with regs := d.regs.stage o ((i.mask &&& m &&& w) ||| (d.regs.stagedVal o &&& ~~~(i.mask &&& m))) } := by
  simp only [stageWrite, h, Word.mix_eq]

theorem stageWrite_none {o : Nat} (h : rwReg o = none) (d : Dp) (w m : Word) : d.stageWrite o w m = d := by
  simp only [stageWrite, h]

theorem clearWrite_stat {b : Block} {o : Nat} (h : o = b.stat.1) (d : Dp) (w : Word) :
    d.clearWrite b o w = { d with regs := d.regs.clearStat o (w &&& b.stat.2) } := if_pos h

theorem clearWrite_other {b : Block} {o : Nat} (h : o ≠ b.stat.1) (d : Dp) (w : Word) : d.clearWrite b o w = d := if_neg h

/-- Register `o` of block `b` is of the register file alone: in neither the HDM decoder nor the MSI-X table, and not of
LNK, whose ports also note that they were written. -/
structure PlainReg (b : Block) (o : Nat) : Prop where
  decoder : o < hdmDecoder ∨ hdmDecoder + 0x28 ≤ o
  vectors : o < msixTable ∨ msixTable + 72 * 16 ≤ o
  block : ∃ r, blockOf o = some (b, r)
  port : b ≠ .lnk

/-- A write to a register of the register file alone stages its RW bits, then clears its W1C bits. -/
theorem registerWrite_plain {b : Block} {off size value o : Nat} {w m : Word} (p : PlainReg b o)
    (wide : widened off size value = some (o, w, m)) (d : Dp) :
    d.registerWrite off size value = (d.stageWrite o w m).clearWrite b o w := by
  obtain ⟨decoder, vectors, ⟨r, block⟩, port⟩ := p
  have noVector : (msixTable ≤ o && o < msixTable + 72 * 16) = false := by
    simp only [Bool.and_eq_false_iff, decide_eq_false_iff_not]; omega
  have noDecoder : (hdmDecoder ≤ o && o < hdmDecoder + 0x28) = false := by
    simp only [Bool.and_eq_false_iff, decide_eq_false_iff_not]; omega
  simp only [registerWrite, wide, noVector, noDecoder, block]
  cases b with
  | lnk => exact absurd rfl port
  | _ => rfl

end Dp

namespace State

theorem recovery_of_hostLive {s : State} (h : s.hostLive = true) : s.kiln.recovery = false := by
  simp only [hostLive, Bool.and_eq_true, Bool.not_eq_true'] at h
  exact h.2

/-- A write the host makes outside the token window, and not to a tiller that is switched off, changes the data plane
alone (R9, R414, R452). -/
theorem registerWrite_live {s : State} {off : Nat} (live : s.hostLive = true) (lit : s.tlrDark off = false)
    (noToken : off < 0x0F00040 ∨ 0x0F000C0 ≤ off) (size value : Nat) :
    exec (.registerWrite off size value) s = .next (s.plane (s.dp.registerWrite off size value)) := by
  have outside : ¬((0x0F00040 ≤ off && off < 0x0F000C0) = true) := by
    simp only [Bool.and_eq_true, decide_eq_true_eq]; omega
  have up : ¬((!s.hostLive || s.tlrDark off) = true) := by simp [live, lit]
  have noRecovery : ¬(s.kiln.recovery = true) := by simp [recovery_of_hostLive live]
  change Host.Outcome.next (s.writeReg off size value) = _
  rw [writeReg, if_neg noRecovery, if_neg up, if_neg outside, dpWhen_true s _ rfl]

end State

/-- Settles O26: the write reaches the register file, where its RW bits are staged and its W1C bits cleared; each of the
three kinds of register is then one case of the two halves. -/
theorem writesStageOrClear : Obligations.WritesStageOrClear := by
  intro s off size value o w m b r live _ lit noToken wide decoder vectors block port
  have written : exec (.registerWrite off size value) s =
      .next (s.plane ((s.dp.stageWrite o w m).clearWrite b o w)) := by
    rw [State.registerWrite_live live lit noToken, Dp.registerWrite_plain ⟨decoder, vectors, ⟨r, block⟩, port⟩ wide]
  refine ⟨fun i rw' other => ?_, fun plain stat => ?_, fun plain other => ?_⟩
  · rw [written, Dp.clearWrite_other other, Dp.stageWrite_rw rw']
  · rw [written, Dp.stageWrite_none plain, Dp.clearWrite_stat stat]
  · rw [written, Dp.stageWrite_none plain, Dp.clearWrite_other other]

end Sys2Proof.Machine
end

section
/-!
PROOFS. PROMOTE and DEMOTE (R35, R37), and the invalidation of translations (R22, R25, R135, R270).
-/
namespace Sys2Proof.Machine

open State

/-! ### Pages that move -/

section Moves

variable {demote : Bool} {n : Nat} {o : Outst} {d : Dp}

/-- A range whose pages are all behind `v` is done, with status OK and the count of those moved (R37). -/
theorem Dp.moveRange_done {v : Nat} (f k moved : Nat) (behind : leAt o.bytes 16 8 + leAt o.bytes 24 8 ≤ v) :
    Dp.moveRange demote n o f v k moved d = d.finished o.uid { status := stOK, result := moved } := by
  cases f with
  | zero => rfl
  | succ f => simp [Dp.moveRange, behind]

/-- A page of the range that moves counts, and the next one follows it (R37). -/
theorem Dp.moveRange_moved {v w : Nat} {b : Dp} (f k moved : Nat) (inside : v < leAt o.bytes 16 8 + leAt o.bytes 24 8)
    (one : d.moveOne demote o.bytes o.space (d.stokerHalf n) v = (.moved w, b)) :
    Dp.moveRange demote n o (f + 1) v k moved d = Dp.moveRange demote n o f w (k + 1) (moved + 1) b := by
  rw [Dp.moveRange, if_neg (Nat.not_le.mpr inside), one]

/-- A move waits while Gleaner has work that comes first (R35). -/
theorem startMove_waits (busy : d.gleanerBusy (d.stokerHalf n) o.uid = true) :
    startMove demote n o d = d.setPhase o.uid (.stalled (.gleaner (d.stokerHalf n))) := by
  rw [startMove, if_pos busy]

/-- A move that has not been halted before and need not wait for Gleaner takes the pages from its first on (R37). -/
theorem startMove_fresh (free : d.gleanerBusy (d.stokerHalf n) o.uid = false) (count2 : o.count2 = 0) (ofs : o.ofs = 0)
    (count : o.count = 0) : startMove demote n o d = Dp.moveRange demote n o (leAt o.bytes 24 8 / 4096 + 2)
      (leAt o.bytes 16 8) 0 0 (d.setPhase o.uid .running) := by
  simp only [startMove, free, Bool.false_eq_true, if_false, count2, ofs, count, Nat.add_zero]

/-- A move whose first page moves and reaches the end of its range is done, with one page moved (R37). -/
theorem startMove_onePage {v : Nat} {b : Dp} (free : d.gleanerBusy (d.stokerHalf n) o.uid = false) (count2 : o.count2 = 0)
    (ofs : o.ofs = 0) (count : o.count = 0) (nonempty : leAt o.bytes 24 8 ≠ 0)
    (one : (d.setPhase o.uid .running).moveOne demote o.bytes o.space ((d.setPhase o.uid .running).stokerHalf n)
      (leAt o.bytes 16 8) = (.moved v, b)) (last : leAt o.bytes 16 8 + leAt o.bytes 24 8 ≤ v) :
    startMove demote n o d = b.finished o.uid { status := stOK, result := 1 } := by
  rw [startMove_fresh free count2 ofs count, Dp.moveRange_moved _ _ _ (by omega) one, Dp.moveRange_done _ _ _ last]

/-- A PROMOTE or DEMOTE that is not malformed becomes outstanding and starts (Table 1.11). -/
theorem opMove_enters {c : OpCtx} (form : firstBad (moveBad demote c.bytes ++ d.sheafBad c.ring c.hdr .never) = none) :
    opMove demote c d = Dp.enter c [] (startMove demote) d := by
  rw [opMove, form]

end Moves

/-- What the command PROMOTE or DEMOTE means. -/
theorem exec_move (demote : Bool) (n : Fin 64) (s : State) : exec (if demote then .demote n else .promote n) s =
    s.dispatched (if demote then 0x09 else 0x08) everyForm noSpans (opMove demote) n := by
  cases demote <;> rfl

/-- Settles O4: a descriptor that is not malformed enters, and its start either waits for Gleaner or takes its first page,
behind which a range that ends there is done. -/
theorem pagesMove : Obligations.PagesMove := by
  intro demote s n h bs c d o a e form
  obtain ⟨cbytes, chdr, cring, obytes⟩ := e.bytes
  obtain ⟨count2, ofs, count⟩ : o.count2 = 0 ∧ o.ofs = 0 ∧ o.count = 0 := by rw [e.record]; exact ⟨rfl, rfl, rfl⟩
  refine ⟨?_, fun v r b running nonempty free one last => ?_, startMove_waits⟩
  · rw [exec_move, e.dispatched, opMove_enters (by rw [cbytes, chdr, cring]; exact form), e.start_never form]
  · subst running obytes
    exact startMove_onePage free count2 ofs count nonempty one last

/-! ### Invalidations of the translation unit (R22) -/

namespace Dp

variable {d : Dp}

/-- An invalidation finds room while at most one runs and 15 wait (R22). -/
theorem atuInv_queues {space scope addr : Nat} (form : scope ≤ 2) (room : d.mem.invQ.length ≤ 16) :
    d.atuInv space scope addr = { d with mem := { d.mem with invQ := d.mem.invQ ++ [{ space, scope, addr }] } } := by
  rw [atuInv, if_neg (Nat.not_lt.mpr form)]
  exact if_pos room

/-- One more than the queue holds widens the last of it to every space (R22). -/
theorem atuInv_widens {space scope addr : Nat} (form : scope ≤ 2) (full : 16 < d.mem.invQ.length) :
    d.atuInv space scope addr = ({ d with mem := { d.mem with invQ := d.mem.invQ.take 16 ++
      [{ space := 0, scope := 2, addr := 0 }] } } : Dp).setStat Reg.atuStat 1 := by
  rw [atuInv, if_neg (Nat.not_lt.mpr form)]
  exact if_neg (Nat.not_le.mpr full)

/-- The oldest invalidation completes once nothing that it covers is held (R22, R135, R270). -/
theorem atuInvComplete_free {x : Inv} {l : List Inv} (queue : d.mem.invQ = x :: l) (free : d.invHeld x = false) :
    d.atuInvComplete = ({ d with mem := { d.mem with invQ := l } } : Dp).retryBroken := by
  simp only [atuInvComplete, queue, free, Bool.false_eq_true, if_false]

/-- While something that it covers is held it waits (R135, R270). -/
theorem atuInvComplete_held {x : Inv} {l : List Inv} (queue : d.mem.invQ = x :: l) (held : d.invHeld x = true) :
    d.atuInvComplete = d := by
  simp only [atuInvComplete, queue, held, if_true]

/-! ### Invalidations of the translation cache (R25) -/

/-- Settling changes the waiting invalidations, of which the held ones stay, and the cache alone (R25, R135). -/
theorem atsSettle_eq (d : Dp) : d.atsSettle = { d with mem := { d.mem with
    atc := d.atsSettle.mem.atc, atsInvs := d.mem.atsInvs.filter d.atsHeld } } := by
  simp only [atsSettle, List.partition_eq_filter_filter]

/-- An entry of the cache lies outside an invalidation: in another address space, or before or behind its pages. -/
theorem atsOutside_iff (a : Atc) (y : AtsInv) :
    ¬(a.pasid = y.pasid && y.page ≤ a.page / 4096 && a.page / 4096 < y.page + y.pages) = true ↔
      (a.pasid ≠ y.pasid ∨ a.page / 4096 < y.page ∨ y.page + y.pages ≤ a.page / 4096) := by
  simp only [Bool.and_eq_true, decide_eq_true_eq, Decidable.not_and_iff_not_or_not, Nat.not_le, Nat.not_lt, or_assoc, ne_eq]

/-- An entry stays in the cache exactly when it lies outside every invalidation that completes (R25). -/
theorem mem_atc_atsSettle (d : Dp) (a : Atc) : a ∈ d.atsSettle.mem.atc ↔ a ∈ d.mem.atc ∧
    ∀ y ∈ d.mem.atsInvs, d.atsHeld y = false →
      (a.pasid ≠ y.pasid ∨ a.page / 4096 < y.page ∨ y.page + y.pages ≤ a.page / 4096) := by
  simp only [atsSettle, List.partition_eq_filter_filter, List.mem_filter, Bool.not_eq_true', List.any_eq_false,
    Function.comp_apply, and_imp, atsOutside_iff]

end Dp

/-- Settles O29: the three commands act where the host or the unit is reached, and the rules of the queue of R22 and of
the translation cache of R25 say what they leave. -/
theorem translationsInvalidate : Obligations.TranslationsInvalidate := by
  refine ⟨fun s sp scope a live form => ⟨fun room => ?_, fun full => ?_⟩,
    fun s x l awake queue => ⟨fun free => ?_, fun held => ?_⟩, fun s p page k l live all => ?_⟩
  · rw [← Dp.atuInv_queues form room]
    exact byHost_live live _
  · rw [← Dp.atuInv_widens form full]
    exact byHost_live live _
  · rw [← Dp.atuInvComplete_free queue free]
    exact byUnit_live awake _
  · refine (byUnit_live awake Dp.atuInvComplete).trans ?_
    rw [Dp.atuInvComplete_held queue held]
  · subst all
    exact ⟨_, byHost_live live _, Dp.atsSettle_eq _, Dp.mem_atc_atsSettle _⟩

end Sys2Proof.Machine
end

section
/-!
PROOFS. The registers that act when they are written (R66, R73, R75, R219, R440, R443), and what the registers of a block
hold once a COMMIT has gone through them (R344).
-/
namespace Sys2Proof.Machine

open State

/-- Bit `i` is clear once zero is put there. -/
theorem Word.bit_put_zero (w : Word) (i : Nat) : (w.put i i 0).bit i = false := by
  have small : w.toNat - w.toNat / 2 ^ i % 2 * 2 ^ i < 2 ^ 64 := Nat.lt_of_le_of_lt (Nat.sub_le ..) w.isLt
  have upper : (w.toNat - w.toNat / 2 ^ i % 2 * 2 ^ i) / 2 ^ i = w.toNat / 2 ^ i - w.toNat / 2 ^ i % 2 := by
    rw [Nat.mul_comm]
    exact Nat.sub_mul_div ..
  have put : (w.put i i 0).toNat = w.toNat - w.toNat / 2 ^ i % 2 * 2 ^ i := by
    simp only [Word.put, Word.fld, Nat.add_sub_cancel_left, Nat.zero_mod, Nat.pow_one,
      Nat.shiftRight_eq_div_pow, Nat.shiftLeft_eq, Nat.zero_mul, Nat.add_zero, BitVec.toNat_ofNat, Nat.mod_eq_of_lt small]
  rw [Word.bit, put, Nat.testBit_eq_decide_div_mod_eq, upper, decide_eq_false_iff_not]
  omega

namespace Dp

/-! ### What a COMMIT leaves in the registers of its block (R344) -/

section CommitReg

variable (b : Block) (kept : List Nat) (d : Dp)

/-- A register's turn changes the register file alone, and in it no other register. -/
theorem commitReg_frame (off : Nat) : ∃ r : Regs, commitReg b kept d off = { d with regs := r } ∧
    ∀ o, o ≠ off → r.val o = d.reg o ∧ r.stagedVal o = d.regs.stagedVal o := by
  unfold commitReg
  split
  · exact ⟨d.regs, rfl, fun _ _ => ⟨rfl, rfl⟩⟩
  · dsimp only
    split
    · exact ⟨d.regs, rfl, fun _ _ => ⟨rfl, rfl⟩⟩
    · split
      · exact ⟨_, rfl, fun o other => ⟨rfl, (Regs.stagedVal_stage ..).trans (if_neg other)⟩⟩
      · exact ⟨_, rfl, fun o other => ⟨(Regs.val_commit ..).trans (if_neg other), rfl⟩⟩

theorem commitReg_phx (off : Nat) : (commitReg b kept d off).phx = d.phx := by
  obtain ⟨r, e, -⟩ := commitReg_frame b kept d off
  rw [e]

theorem commitRegs_phx (l : List Nat) : (l.foldl (commitReg b kept) d).phx = d.phx := by
  induction l generalizing d with
  | nil => rfl
  | cons off l ih => exact (ih _).trans (commitReg_phx b kept d off)

theorem commitReg_other {o off : Nat} (other : o ≠ off) : (commitReg b kept d off).reg o = d.reg o ∧
    (commitReg b kept d off).regs.stagedVal o = d.regs.stagedVal o := by
  obtain ⟨r, e, rest⟩ := commitReg_frame b kept d off
  rw [e]
  exact rest o other

/-- A register that the COMMIT does not keep holds its new value after its turn, and has it staged. -/
theorem commitReg_same {o : Nat} {i : RwInfo} (rw' : rwReg o = some i) (free : o ∉ kept) :
    (commitReg b kept d o).reg o = d.newVal o ∧ (commitReg b kept d o).regs.stagedVal o = d.newVal o := by
  simp only [commitReg, newVal, rw', List.contains_eq_mem, free, decide_false, Bool.or_false]
  by_cases same : d.regs.stagedVal o = d.reg o
  · simp only [same, if_true, ite_self, and_self]
  · simp only [if_neg same]
    split
    · exact ⟨rfl, (Regs.stagedVal_stage ..).trans (if_pos rfl)⟩
    · exact ⟨(Regs.val_commit ..).trans (if_pos rfl), rfl⟩

/-- No turn changes the new value of a register that the COMMIT does not keep. -/
theorem newVal_commitReg {o : Nat} {i : RwInfo} (off : Nat) (rw' : rwReg o = some i) (free : o ∉ kept) :
    (commitReg b kept d off).newVal o = d.newVal o := by
  by_cases same : o = off
  · subst same
    obtain ⟨holds, staged⟩ := commitReg_same b kept d rw' free
    rw [newVal, rw', staged, holds]
    exact ite_self _
  · obtain ⟨holds, staged⟩ := commitReg_other b kept d same
    rw [newVal, newVal, staged, holds]

theorem reg_commitRegs_other {o : Nat} {l : List Nat} (other : o ∉ l) : (l.foldl (commitReg b kept) d).reg o = d.reg o := by
  induction l generalizing d with
  | nil => rfl
  | cons off l ih =>
    obtain ⟨head, tail⟩ := not_or.mp (mt List.mem_cons.mpr other)
    exact (ih _ tail).trans (commitReg_other b kept d head).1

/-- Every register the COMMIT goes through and does not keep takes its new value. -/
theorem reg_commitRegs {o : Nat} {i : RwInfo} {l : List Nat} (rw' : rwReg o = some i) (free : o ∉ kept) (mem : o ∈ l) :
    (l.foldl (commitReg b kept) d).reg o = d.newVal o := by
  induction l generalizing d with
  | nil => exact absurd mem List.not_mem_nil
  | cons off l ih =>
    rw [List.foldl_cons]
    by_cases later : o ∈ l
    · rw [ih _ later, newVal_commitReg b kept d off rw' free]
    · obtain rfl : o = off := (List.mem_cons.mp mem).resolve_right later
      rw [reg_commitRegs_other b kept _ later, (commitReg_same b kept d rw' free).1]

end CommitReg

/-! ### The random streams (R75) -/

variable (d : Dp)

/-- A register without reserved values takes what is staged. -/
theorem newVal_unreserved {o : Nat} {mask reset : Word} (rw' : rwReg o = some { mask, reset }) :
    d.newVal o = d.regs.stagedVal o := by
  simp only [newVal, rw', Bool.false_eq_true, if_false]

/-- A PHX COMMIT leaves the staged value in a register of the block that has no reserved values. -/
theorem reg_commit_phx {o : Nat} {mask reset : Word} (rw' : rwReg o = some { mask, reset }) (mem : o ∈ Block.phx.regs) :
    (Block.phx.regs.foldl (commitReg .phx []) d).reg o = d.regs.stagedVal o :=
  (reg_commitRegs .phx [] d rw' List.not_mem_nil mem).trans (newVal_unreserved d rw')

theorem afterPhx_streams (wr : (d.reg Reg.rngIdx).bit 12 = true) : d.afterPhx.phx.streams =
    Tab.set (fun _ => (0, 0)) d.phx.streams ((d.reg Reg.rngIdx).fld 11 0)
      ((d.reg Reg.rngKey).toNat, (d.reg Reg.rngCtr).toNat) := by
  simp only [afterPhx, wr, Bool.not_true, Bool.false_eq_true, if_false]

/-- PHX_RNG_IDX.WR is cleared once it has been acted on. -/
theorem afterPhx_wr (wr : (d.reg Reg.rngIdx).bit 12 = true) : (d.afterPhx.reg Reg.rngIdx).bit 12 = false := by
  have cleared : d.afterPhx.reg Reg.rngIdx = (d.reg Reg.rngIdx).put 12 12 0 := by
    simp only [afterPhx, wr, Bool.not_true, Bool.false_eq_true, if_false]
    exact (Regs.val_commit ..).trans (if_pos rfl)
  rw [cleared, Word.bit_put_zero]

theorem rngWrite_eq (wr : (d.newVal Reg.rngIdx).bit 12 = true) :
    d.rngWrite = (Block.phx.regs.foldl (commitReg .phx []) d).afterPhx := if_pos wr

/-! ### The NaN trap and the loss scale (R66, R73) -/

/-- A NaN that the disarmed trap acts on counts and does nothing else (R66). -/
theorem nanSeen_disarmed {propagated : Bool} (g : Origin) (disarmed : d.phx.armed = false)
    (on : (d.reg Reg.phxCtl).bit 1 = true) (acts : propagated = true → (d.reg Reg.phxCtl).bit 3 = true)
    (room : d.phx.nanCnt < 2 ^ 64 - 1) :
    d.nanSeen propagated g = { d with phx := { d.phx with nanCnt := d.phx.nanCnt + 1 } } := by
  have seen : (!(d.reg Reg.phxCtl).bit 1 || (propagated && !(d.reg Reg.phxCtl).bit 3)) = false := by
    cases propagated with
    | false => simp only [on, Bool.not_true, Bool.false_and, Bool.or_self]
    | true => simp only [on, acts rfl, Bool.not_true, Bool.and_false, Bool.or_self]
  simp only [nanSeen, seen, disarmed, Bool.false_eq_true, if_false, Nat.min_eq_right (Nat.succ_le_of_lt room)]

theorem lsLoad_outside {e : Nat} (go : Bool) (outside : signed 6 e < -24 ∨ 24 < signed 6 e) :
    d.lsLoad go e = d.setStat (Block.phx.base + 0x0F0) 0 := by
  have cond : (signed 6 e < -24 || 24 < signed 6 e) = true := by simpa using outside
  exact if_pos cond

theorem lsLoad_inside {e : Nat} (go : Bool) (low : -24 ≤ signed 6 e) (high : signed 6 e ≤ 24) :
    d.lsLoad go e = { d with phx := { d.phx with lsLoad := if go then some (signed 6 e) else d.phx.lsLoad } } := by
  have cond : ¬(signed 6 e < -24 || 24 < signed 6 e) = true := by
    simp only [Bool.or_eq_true, decide_eq_true_eq]; omega
  refine (if_neg cond).trans ?_
  cases go <;> rfl

/-! ### RED_WAYS (R219) -/

theorem redWaysApply_empty {h : Nat} (empty : d.regionEmpty h = true) : d.redWaysApply h =
    if h = 0 then { d with redWays0 := (d.reg Reg.grCtl).fld 1 0 } else { d with redWays1 := (d.reg Reg.grCtl).fld 1 0 } := by
  simp only [redWaysApply, empty, Bool.not_true, Bool.false_eq_true, if_false]

/-! ### Monitor windows (R443) -/

/-- A fresh window of slot `k` from now on. -/
def freshWindow (k : Nat) : MonSlot :=
  { start := d.now, running := (d.reg (Reg.monCfg k)).bit 8, bins := List.replicate 16 0 }

theorem mon_monRestart (s k : Nat) : (d.monRestart s).mon k = if k = s then d.freshWindow s else d.mon k := Tab.get_set ..

/-- Starting a window changes neither the time nor the settings that another window starts from. -/
@[simp] theorem freshWindow_monRestart (s k : Nat) : (d.monRestart s).freshWindow k = d.freshWindow k := rfl

theorem mon_foldl_monRestart (slots : Nat) (l : List Nat) (k : Nat) :
    (l.foldl (fun (d : Dp) s => if slots.testBit s then d.monRestart s else d) d).mon k =
      if k ∈ l ∧ slots.testBit k = true then d.freshWindow k else d.mon k := by
  induction l generalizing d with
  | nil => simp
  | cons s l ih =>
    rw [List.foldl_cons, ih]
    by_cases named : slots.testBit s = true
    · by_cases same : k = s
      · subst same
        simp [named, mon_monRestart]
      · simp [named, same, mon_monRestart]
    · have later : k ∈ s :: l ∧ slots.testBit k = true ↔ k ∈ l ∧ slots.testBit k = true :=
        and_congr_left fun h => List.mem_cons.trans (or_iff_right fun same => named (same ▸ h))
      simp only [if_neg named, later]

theorem mon_monRestarts (slots : Nat) {k : Nat} (hk : k < 64) :
    (d.monRestarts slots).mon k = if slots.testBit k then d.freshWindow k else d.mon k := by
  simp only [monRestarts, mon_foldl_monRestart, List.mem_range, hk, true_and]

/-- A running window of a set length ends held. -/
theorem monWindowEnd_running {k : Nat} (running : (d.mon k).running = true) (length : (d.reg (Reg.monCfg k)).fld 63 32 ≠ 0) :
    d.monWindowEnd k = d.setMon k { d.mon k with running := false, held := true, stop := d.now } := by
  have cond : ((d.mon k).running && (d.reg (Reg.monCfg k)).fld 63 32 ≠ 0) = true := by simp [running, length]
  exact if_pos cond

end Dp

/-- A write of PHX_RNG_IDX.WR takes its stream's key and counter from what is staged, and clears the bit (R75). -/
theorem exec_phxRngWrite {s : State} (live : s.hostLive = true) (wr : (s.dp.newVal Reg.rngIdx).bit 12 = true) : ∃ t : Dp,
    exec .phxRngWrite s = .next (s.plane t) ∧ (t.reg Reg.rngIdx).bit 12 = false ∧
    t.phx.streams = Tab.set (fun _ => (0, 0)) s.dp.phx.streams ((s.dp.regs.stagedVal Reg.rngIdx).fld 11 0)
      ((s.dp.regs.stagedVal Reg.rngKey).toNat, (s.dp.regs.stagedVal Reg.rngCtr).toNat) := by
  have idx := s.dp.reg_commit_phx (o := Reg.rngIdx) rfl (by decide)
  have key := s.dp.reg_commit_phx (o := Reg.rngKey) rfl (by decide)
  have ctr := s.dp.reg_commit_phx (o := Reg.rngCtr) rfl (by decide)
  have set : ((Block.phx.regs.foldl (Dp.commitReg .phx []) s.dp).reg Reg.rngIdx).bit 12 = true := by
    rw [idx, ← s.dp.newVal_unreserved (o := Reg.rngIdx) rfl]
    exact wr
  refine ⟨s.dp.rngWrite, byHost_live live _, ?_, ?_⟩
  · rw [s.dp.rngWrite_eq wr]
    exact Dp.afterPhx_wr _ set
  · rw [s.dp.rngWrite_eq wr, Dp.afterPhx_streams _ set, idx, key, ctr, Dp.commitRegs_phx]

/-- Settles O27: each command acts where the host or the unit is reached, and the rule of its register says what it
leaves; the write of a random stream goes through a PHX COMMIT. -/
theorem registersAct : Obligations.RegistersAct := by
  refine ⟨fun s live => byHost_live live _, fun d p g disarmed on acts room => d.nanSeen_disarmed g disarmed on acts room,
    fun s go e live => ⟨fun outside => ?_, fun low high => ?_⟩, fun s live wr => exec_phxRngWrite live wr,
    fun s h awake empty => ?_, fun s live => byHost_live live _,
    fun s l live => ⟨_, byHost_live live _, fun k hk => s.dp.mon_monRestarts l.toNat hk⟩,
    fun s k awake running length => ?_⟩
  · rw [← s.dp.lsLoad_outside go outside]
    exact byHost_live live _
  · rw [← s.dp.lsLoad_inside go low high]
    exact byHost_live live _
  · refine (byUnit_live awake fun d => d.redWaysApply h).trans ?_
    simp only [s.dp.redWaysApply_empty empty, Fin.val_eq_zero_iff]
  · rw [← s.dp.monWindowEnd_running running length]
    exact byUnit_live awake _

end Sys2Proof.Machine
end

section
/-!
PROOFS. The starts of COPY, GATHER and SCATTER_ADD (R129, R132, R133, R136).
-/
namespace Sys2Proof.Machine

open State

namespace Dp

variable {d : Dp} {n : Nat} {o : Outst}

/-- Which halves a ring names is a register's, whatever its outstanding descriptors hold. -/
@[simp] theorem halvesOf_modOutst (m uid : Nat) (f : Outst → Outst) : (d.modOutst m uid f).halvesOf n = d.halvesOf n := rfl

/-- Once the regions of an operation are declared, its list enters the halves and it runs (R205, R270). -/
theorem startList_declared {b : Dp} (need : Nat) (parts : List (Nat × List Entry)) (fill : Nat)
    (declared : d.declareFor n o (d.stokerHalf n) (storedRanges o.spans) = (true, b)) :
    d.startList need parts n o fill = (b.addLists n o.uid need parts fill).setPhase o.uid .running := by
  rw [startList, declared]

/-- An elementwise operation whose tiles the halves of its ring can take goes on. -/
theorem elementJudged_room {c : OpCtx} {t : TDesc}
    (room : d.cribRefusal (receiving (divide (d.halvesOf c.ring) (elementTiles t.count))) 0 0 = none) (go : Dp → Dp) :
    elementJudged c t go d = go d := cribJudged_room room go

end Dp

/-- An elementwise operation that its outcome table accepts, and whose tiles the halves of its ring can take, starts. -/
theorem State.Enters.start_element {s : State} {n : Fin 64} {op : Nat} {mine : List Byte → Bool}
    {spans : List Byte → List Span} {h : Hdr} {bs : List Byte} {convs : List Conv} {c : OpCtx} {d : Dp} {o : Outst} {a : Dp}
    {bad : List (Bool × Nat)} {rule : Dp.SheafRule} {align overlap : Bool} {t : TDesc}
    (e : s.Enters n op mine spans h bs convs c d o a) (ac : d.Accepts c bad rule align overlap)
    (room : d.cribRefusal (Dp.receiving (Dp.divide (d.halvesOf n) (elementTiles t.count))) 0 0 = none)
    (start : Nat → Outst → Dp → Dp) :
    Dp.judged c bad rule align overlap (Dp.elementJudged c t (Dp.enter c convs start)) d = start n o a := by
  obtain ⟨-, -, ring, -⟩ := e.bytes
  rw [Dp.judged_accepted ac, Dp.elementJudged_room (by rw [ring]; exact room), e.start_accepted ac]

/-! ### COPY (R129, R136) -/

/-- A COPY with a dense destination that has no list yet hands the tiles of D to the halves of its ring (R129). -/
theorem startCopy_dense {n : Nat} {o : Outst} {d : Dp} (dense : copyCmp o.bytes = false)
    (fresh : d.hasList o.uid = false) : startCopy n o d =
    d.startList 0 (Dp.divide (d.halvesOf n) (elementTiles (parseT o.bytes 192).count)) n o := by
  simp only [startCopy, dense, fresh, Bool.false_eq_true, if_false]

theorem exec_copy (n : Fin 64) (s : State) : exec (.copy n) s = s.dispatched 0x14 everyForm copySpans opCopy n := rfl

/-- A COPY that its outcome table accepts starts; with a sparse destination it asks nothing of the halves (R136). -/
theorem opCopy_starts {s : State} {n : Fin 64} {h : Hdr} {bs : List Byte} {c : OpCtx} {d : Dp} {o : Outst} {a : Dp}
    (e : s.Enters n 0x14 everyForm copySpans h bs
      [if copyCmp bs then (parseS bs 320).conv else (parseT bs 192).conv] c d o a)
    (ac : d.Accepts c (copyBad bs) .may ((!copyFill bs && (parseT bs 64).misaligned) ||
      (if copyCmp bs then (parseS bs 320).misaligned else (parseT bs 192).misaligned)) (copyOverlaps bs))
    (room : copyCmp bs = false →
      d.cribRefusal (Dp.receiving (Dp.divide (d.halvesOf n) (elementTiles (parseT bs 192).count))) 0 0 = none) :
    opCopy c d = startCopy n o a := by
  obtain ⟨bytes, -, -, -⟩ := e.bytes
  rw [opCopy, bytes]
  cases cmp : copyCmp bs with
  | true =>
    simp only [cmp, if_true] at e ac ⊢
    exact (Dp.judged_accepted ac _).trans (e.start_accepted ac _)
  | false =>
    simp only [cmp, Bool.false_eq_true, if_false] at e ac ⊢
    exact e.start_element ac (room cmp) _

/-! ### GATHER and SCATTER_ADD (R132, R133, R135) -/

section Indexed

variable {n : Nat} {o : Outst} {d : Dp} {q : IdxP} {l : List (Option Nat × Nat)} {w : Wk}

/-- A GATHER whose index list resolves keeps what it resolves to, and hands the tiles of D to the halves (R132). -/
theorem startGather_resolved (body : q = parseIdx o.bytes) (fresh : d.hasList o.uid = false)
    (scan : Dp.Works (Work.scanIndexes (d.envOf n o) q (TDesc.at0 q.s.ext q.gdim)) d (l, false) w) : startGather n o d =
      (w.d.modOutst n o.uid fun o => { o with resolved := l.map (·.1), count := idxResult l }).startList 0
        (Dp.divide (w.d.halvesOf n) (elementTiles q.t.count)) n o := by
  subst body
  rw [Dp.Works] at scan
  simp only [startGather, fresh, Bool.false_eq_true, if_false, scan, Dp.halvesOf_modOutst]

/-- A SCATTER_ADD whose index list resolves and whose regions are declared runs its pre-pass before its tiles are handed to
the halves (R133, R135). -/
theorem startScatter_resolved {b : Dp} {held : List (Nat × Nat × Bool)} {v : Wk} (body : q = parseIdx o.bytes)
    (fresh : d.hasList o.uid = false)
    (scan : Dp.Works (Work.scanIndexes (d.envOf n o) q (TDesc.at0 q.t.ext q.gdim)) d (l, false) w)
    (declared : w.d.declareFor n o (d.stokerHalf n) (Dp.storedRanges o.spans) = (true, b))
    (pre : Dp.Works (prePass (b.envOf n o) q (l.map (·.1))) b held v) : startScatter n o d =
      ((v.d.modOutst n o.uid fun o => { o with resolved := l.map (·.1), count := idxResult l, held }).addLists n o.uid 0
        (Dp.divide (v.d.halvesOf n) (elementTiles q.t.count))).setPhase o.uid .running := by
  subst body
  rw [Dp.Works] at scan pre
  simp only [startScatter, fresh, Bool.false_eq_true, if_false, scan, declared, pre, Dp.halvesOf_modOutst]

theorem exec_gather (n : Fin 64) (s : State) :
    exec (.gather n) s = s.dispatched 0x15 everyForm (fun bs => (parseIdx bs).spans) opGather n := rfl

theorem exec_scatterAdd (n : Fin 64) (s : State) :
    exec (.scatterAdd n) s = s.dispatched 0x16 everyForm (fun bs => (parseIdx bs).spans) opScatter n := rfl

end Indexed

/-- Settles O6: a descriptor that its outcome table accepts starts, and the three starts hand the tiles of D to the halves
once nothing of the index list, the regions or the pre-pass stands in the way. -/
theorem copiesStart : Obligations.CopiesStart := by
  refine ⟨fun s n h bs c d o a e ac room => ⟨?_, fun dense fresh b declared => ?_⟩,
    fun s n h bs c d o a q body e ac room => ⟨?_, fun l w r b fresh scan resolved declared => ?_⟩,
    fun s n h bs c d o a q body e ac room => ⟨?_, fun l held w v b fresh scan declared pre => ?_⟩⟩
  all_goals obtain ⟨cbytes, -, -, rfl⟩ := e.bytes
  · rw [exec_copy, e.dispatched, opCopy_starts e ac room]
  · rw [startCopy_dense dense fresh, Dp.startList_declared _ _ _ declared]
  · subst body
    rw [exec_gather, e.dispatched, opGather, cbytes, e.start_element ac room]
  · rw [startGather_resolved body fresh scan, ← resolved, Dp.startList_declared _ _ _ declared]
  · subst body
    rw [exec_scatterAdd, e.dispatched, opScatter, cbytes, e.start_element ac room]
  · exact startScatter_resolved body fresh scan declared pre

end Sys2Proof.Machine
end

section
/-!
PROOFS. The store path keeps to its addresses (R126, R259).
-/
namespace Sys2Proof.Machine

namespace Work

variable {e : Env} {w : Wk} {c : Cell} {k : Nat × Bool} {y : Nat × Byte × Bool}

/-- A byte stored into device memory lies at the address where its cell goes. -/
theorem At.device (placed : At e w c (k.1, k.2, y)) (device : k.2 = false) :
    locate e c.dva true w = (.ok (.dev (128 * k.1 + y.1)), w) := by
  obtain ⟨a, goes, line, -, place⟩ | ⟨_, -, -, host, -⟩ := placed
  · dsimp only at line place
    rw [goes, line, place, Nat.div_add_mod]
  · exact absurd (host.symm.trans device) (by decide)

/-- A byte stored into host memory, whose lines stand above every device line, lies at the address where its cell goes. -/
theorem At.host (placed : At e w c (k.1, k.2, y)) (host : k.2 = true) :
    locate e c.dva true w = (.ok (.host (128 * k.1 + y.1 - 2 ^ 60)), w) := by
  obtain ⟨_, -, -, device, -⟩ | ⟨a, goes, line, -, place⟩ := placed
  · exact absurd (host.symm.trans device) (by decide)
  · dsimp only at line place
    have home : 128 * ((2 ^ 60 + a) / 128) + a % 128 - 2 ^ 60 = a := by omega
    rw [goes, line, place, home]

/-- The bytes of a batch that a line stores. -/
def lineBytes (l : List Placed) (k : Nat × Bool) : List (Nat × Byte × Bool) :=
  (l.filter fun p => (p.1, p.2.1) = k).map fun p => (p.2.2.1, p.2.2.2.1, p.2.2.2.2)

theorem mem_lineBytes {l : List Placed} : y ∈ lineBytes l k ↔ (k.1, k.2, y) ∈ l := by
  constructor
  · intro stored
    obtain ⟨p, mem, rfl⟩ := List.mem_map.mp stored
    obtain ⟨placed, key⟩ := List.mem_filter.mp mem
    rw [← of_decide_eq_true key]
    exact placed
  · intro placed
    exact List.mem_map.mpr ⟨_, List.mem_filter.mpr ⟨placed, decide_eq_true rfl⟩, rfl⟩

/-- Every byte that a line stores lies where the address of a cell of the batch goes. -/
theorem at_of_mem_lineBytes {d : Dp} {ls : List Nat} {cs : List Cell} {ps : List Placed} {w1 : Wk} (unheld : e.sheaf = none)
    (placed : placeCells e ls cs w = (.ok ps, w1))
    (stored : y ∈ lineBytes (inOrder d e ps) k) : ∃ c ∈ cs, At e w c (k.1, k.2, y) :=
  (placeCells_near unheld cs w w1 ps (Near.refl w) placed).2 _ (inOrder_sub d e ps _ (mem_lineBytes.mp stored))

/-- Placing cells marks no work as poisoned. -/
theorem Near.poison {w1 : Wk} (near : Near w w1) : w1.poison = w.poison := by rw [near.eq]

/-- Noting who stored a batch changes the order of its ring's stores alone, and leaves the dirty bits as they are. -/
theorem noteOrder_near {w1 : Wk} (near : Near w w1) (l : List Placed) : ∃ b : Dp,
    (b = w.d ∨ ∃ r : Ring, b = w.d.setRing e.ring { w.d.ring e.ring with writes := r.writes }) ∧
    noteOrder e l w1.d = { b with mem := { w.d.mem with frames := w1.d.mem.frames } } := by
  have frames : w1.d = { w.d with mem := { w.d.mem with frames := w1.d.mem.frames } } := congrArg Wk.d near.eq
  obtain same | ⟨r, noted⟩ := noteOrder_cases e l w1.d
  · exact ⟨w.d, .inl rfl, same.trans frames⟩
  · refine ⟨_, .inr ⟨r, rfl⟩, ?_⟩
    rw [noted, frames]
    rfl

end Work

open Work

/-- Settles O55: a byte that changed is one that a line of the batch stores, and a cell of the batch goes there; what is left
besides comes of the placing of the cells, the noting of their order and the stores into their lines. -/
theorem storesStayInPlace : Obligations.StoresStayInPlace := by
  intro e w v unheld flushed
  obtain ⟨ps, w1, ls, cs, ofBatch, placed, u, stores, rfl⟩ := flush_run e w v flushed
  obtain ⟨near, -⟩ := placeCells_near unheld cs w w1 ps (Near.refl w) placed
  obtain ⟨b, ring, noted⟩ := noteOrder_near (e := e) near (inOrder w1.d e ps)
  obtain ⟨device, host, rest⟩ := stores_frame (lineBytes (inOrder w1.d e ps))
    ((inOrder w1.d e ps).map fun p => (p.1, p.2.1)).eraseDups (noteOrder e (inOrder w1.d e ps) w1.d)
  change u = List.foldl (fun d k => d.storeLine k.1 k.2 (lineBytes (inOrder w1.d e ps) k)) _ _ at stores
  rw [← stores, noted] at device host rest
  refine ⟨fun x => (device x).imp id ?_, fun x => (host x).imp id ?_, rfl, near.poison, b, ring, ?_⟩
  · rintro ⟨k, y, stored, isDevice, rfl⟩
    obtain ⟨c, mem, goes⟩ := at_of_mem_lineBytes unheld placed stored
    exact ⟨c, ofBatch c mem, w, goes.device isDevice⟩
  · rintro ⟨k, y, stored, isHost, place⟩
    obtain ⟨c, mem, goes⟩ := at_of_mem_lineBytes unheld placed stored
    rw [place]
    exact ⟨c, ofBatch c mem, w, goes.host isHost⟩
  · have frames : u.mem.frames = w1.d.mem.frames := by rw [rest]
    rw [frames]
    exact rest

end Sys2Proof.Machine
end

section
/-!
PROOFS. The starts of GEMM_SP and COMPRESS (R152, R153, R163, R164, R170).
-/
namespace Sys2Proof.Machine

open State

/-! ### GEMM_SP (R163, R164) -/

theorem exec_gemmSp (n : Fin 64) (s : State) :
    exec (.gemmSp n) s = s.dispatched 0x18 everyForm (fun bs => (parseSp bs).spans) opGemmSp n := rfl

section Sparse

variable {c : OpCtx} {n : Nat} {o : Outst} {d : Dp} {q : SpP} {p : SpPath} {w : Wk}
  {parts : List (Nat × List Entry)}

/-- A GEMM_SP that its outcome table accepts, and whose tiles and hot rows the halves of its ring can take, starts (R163). -/
theorem opGemmSp_enters (body : q = parseSp c.bytes)
    (ac : d.Accepts c (SpP.bad c.bytes) .may (q.misaligned c.bytes) q.overlaps) (room : spRefusal c q d = none) :
    opGemmSp c d = Dp.enter c [q.d.conv] startSp d := by
  subst body
  simp only [opGemmSp, Dp.judged_accepted ac, room]

/-- A GEMM_SP that splits no hot row reads no row counts: its list is its path's order whole, and no reduce region is asked
for (R164). -/
theorem startSp_unsplit (body : q = parseSp o.bytes) (path : q.path = some p) (fresh : d.hasList o.uid = false)
    (unsplit : q.splits p d n o = false) (read : Dp.Works (pure [] : M (List Nat)) d [] w)
    (order : parts = Dp.divide (d.halvesOf n) (spOrder q p none))
    (room : w.d.cribRefusal (Dp.receiving parts) (SpP.need p) 0 = none) :
    startSp n o d = (w.d.bump (Reg.sprCnt 3) 0).startList (SpP.need p) parts n o (SpP.fill p) := by
  subst body order
  rw [Dp.Works] at read
  simp only [startSp, path, fresh, unsplit, Bool.false_eq_true, if_false, read, room]

end Sparse

/-! ### COMPRESS (R152, R153) -/

theorem exec_compress (n : Fin 64) (s : State) :
    exec (.compress n) s = s.dispatched 0x19 everyForm compressSpans opCompress n := rfl

/-- Once its regions are declared and its store has ended, a compressing store is done with the counts it answers (R152). -/
theorem runCompress_stored {s : TDesc} {r : SRef} {spill : Bool} {n x : Nat} {o : Outst} {d b : Dp} {w : Wk}
    (declared : d.declareFor n o (d.stokerHalf n) (Dp.storedRanges o.spans) = (true, b))
    (store : Dp.Works (compressWork (b.envOf n o) s r spill) b x w) :
    runCompress s r spill n o d = w.d.finished o.uid { status := stOK, result := x } := by
  rw [Dp.Works] at store
  simp only [runCompress, declared, store]

/-- Settles O7: a descriptor that its outcome table accepts starts; a GEMM_SP with no hot row to split then has its whole
list at once, and a COMPRESS is one store. -/
theorem sparseStarts : Obligations.SparseStarts := by
  refine ⟨fun s n h bs c d o a q p body path e ac room => ⟨?_, fun fresh unsplit w parts read order room => ?_⟩,
    fun s n h bs c d o a q r source form e ac => ⟨?_, fun x w b declared store => ?_⟩⟩
  all_goals obtain ⟨rfl, -, -, obytes⟩ := e.bytes
  · rw [exec_gemmSp, e.dispatched, opGemmSp_enters body ac room, e.start_accepted ac]
  · rw [← obytes] at body
    exact startSp_unsplit body path fresh unsplit read order room
  · subst source form
    rw [exec_compress, e.dispatched, opCompress, Dp.judged_accepted ac, e.start_accepted ac]
  · subst source form
    rw [startCompress, obytes]
    exact runCompress_stored declared store

end Sys2Proof.Machine
end

section
/-!
PROOFS. The start of PRUNE, REGROW and REMASK (R183, R187, R194).
-/
namespace Sys2Proof.Machine

open State

/-- The instruction of ring `n` that mask operation `op` is. -/
def MaskOp.instr (op : MaskOp) (n : Fin 64) : Instr :=
  match op with
  | .prune => .prune n
  | .regrow => .regrow n
  | .remask => .remask n

/-- The opcode of mask operation `op` (Table 11.4). -/
def MaskOp.opcode (op : MaskOp) : Nat :=
  match op with
  | .prune => 0x20
  | .regrow => 0x21
  | .remask => 0x22

theorem exec_mask (op : MaskOp) (n : Fin 64) (s : State) :
    exec (op.instr n) s = s.dispatched op.opcode everyForm (maskSpans op) (opMask op) n := by
  cases op with
  | prune => rfl
  | regrow => rfl
  | remask => rfl

section Masks

variable {op : MaskOp} {c : OpCtx} {n : Nat} {o : Outst} {d : Dp} {q : MaskP} {random : Conv}

/-- A mask operation that its outcome table accepts asks the limits of its sheaf: past one it aborts the sheaf with cause 4,
within them it enters (R187). -/
theorem opMask_accepted (body : q = parseMask c.bytes)
    (key : random = { stream := q.stream, radv := q.radv, sr := q.random op, sat := false, lsm := false, lsg := false, code := 4 })
    (ac : d.Accepts c (MaskP.bad op c.bytes) .must (q.misaligned op) (Dp.selfOverlap q.outs (q.ins op))) :
    opMask op c d = if maskLimits op c [random, q.r.conv] d then (d.abortSheaf c.hdr.sheafId 4).refuse c stSheafAborted
      else Dp.enter c [random, q.r.conv] (startMask op) d := by
  subst body key
  rw [opMask, Dp.judged_accepted ac]

/-- Once a mask operation has planned its shard's new form and declared the ranges it writes, and its write pass has ended,
it is done with its counts of units pruned and regrown (R183, R194). -/
theorem startMask_written {ranges : List (Nat × Nat)} {pruned grown : Nat} {plan w : Wk} {b : Dp}
    (body : q = parseMask o.bytes)
    (planned : Dp.Works (Work.maskPlan (d.envOf n o) q op) d (ranges, pruned, grown, none) plan)
    (declared : plan.d.declareFor n o (d.stokerHalf n) ranges = (true, b))
    (written : Dp.Works (maskWrite (d.envOf n o) o.uid plan) b () w) :
    startMask op n o d = w.d.finished o.uid { status := stOK, result := pruned % 2 ^ 32 + grown % 2 ^ 32 * 2 ^ 32 } := by
  subst body
  rw [Dp.Works] at planned written
  simp only [startMask, planned, declared, written]

end Masks

/-- Settles O8: an accepted descriptor meets the limits of its sheaf or enters, and one that enters plans, declares and
writes. -/
theorem masksRebuild : Obligations.MasksRebuild := by
  intro op s n h bs c d o a q random body key e ac
  obtain ⟨rfl, rfl, -, obytes⟩ := e.bytes
  have runs := (exec_mask op n s).trans (e.dispatched (opMask op))
  rw [opMask_accepted body key ac] at runs
  refine ⟨fun past => runs.trans ?_, fun within => runs.trans ?_, fun ranges pruned grown plan w b planned declared written => ?_⟩
  · rw [if_pos past]
  · rw [within, if_neg Bool.false_ne_true, e.start_accepted ac]
  · exact startMask_written (by rw [obytes]; exact body) planned declared written

end Sys2Proof.Machine
end

section
/-!
PROOFS. The starts of GEMM, PREDICT and FUSED_GRG (R105, R203, R205, R208–R211, R214, R219, R233).
-/
namespace Sys2Proof.Machine

open State

/-- A condition that is met behind others that are not is the first one met. -/
theorem firstBad_snoc {l : List (Bool × Nat)} (unmet : firstBad l = none) (k : Nat) : firstBad (l ++ [(true, k)]) = some k := by
  induction l with
  | nil => rfl
  | cons x l ih =>
    obtain ⟨met, ofs⟩ := x
    cases met with
    | false => exact ih unmet
    | true => exact Bool.noConfusion (firstBad_none.mp unmet (true, ofs) List.mem_cons_self)

namespace Dp

variable {d : Dp} {c : OpCtx} {bad : List (Bool × Nat)} {rule : SheafRule} {align overlap met : Bool} {k : Nat}

/-- A further condition that is not met leaves a descriptor accepted. -/
theorem Accepts.snoc (ac : d.Accepts c bad rule align overlap) (clear : met = false) :
    d.Accepts c (bad ++ [(met, k)]) rule align overlap := by
  subst clear
  refine { ac with form := firstBad_none.mpr fun x mem => ?_ }
  have form := firstBad_none.mp ac.form
  simp only [List.mem_append, List.mem_singleton] at mem form
  obtain (own | rfl) | sheaf := mem
  · exact form x (.inl own)
  · rfl
  · exact form x (.inr sheaf)

/-- A descriptor that may name a sheaf is malformed at the byte of the last condition when that one alone is met (R105). -/
theorem judged_snoc (form : firstBad bad = none) (last : met = true) (go : Dp → Dp) :
    judged c (bad ++ [(met, k)]) .may align overlap go d = d.malformed c k := by
  subst last
  simp only [judged, sheafBad, List.append_nil, firstBad_snoc form]

/-- A descriptor that names no sheaf has nothing to declare (R270). -/
theorem declareFor_noSheaf {n : Nat} {o : Outst} (noSheaf : o.sheaf = none) (h : Nat) (spans : List (Nat × Nat)) :
    d.declareFor n o h spans = (true, d) := by rw [declareFor, noSheaf]

end Dp

namespace State.Enters

variable {s : State} {n : Fin 64} {op : Nat} {mine : List Byte → Bool} {spans : List Byte → List Span} {h : Hdr}
  {bs : List Byte} {convs : List Conv} {c : OpCtx} {d : Dp} {o : Outst} {a : Dp} {bad : List (Bool × Nat)}
  {rule : Dp.SheafRule} {align overlap : Bool}

/-- The record of a descriptor without a sheaf names none. -/
theorem noSheaf (e : s.Enters n op mine spans h bs convs c d o a) (without : h.sheafEn = false) : o.sheaf = none := by
  obtain ⟨-, hdr, -, -⟩ := e.bytes
  rw [e.record]
  exact if_neg (by rw [hdr, without]; exact Bool.false_ne_true)

/-- A descriptor that its outcome table accepts starts when the halves that would receive its entries can take them (R214,
R219). -/
theorem start_crib (e : s.Enters n op mine spans h bs convs c d o a) (ac : d.Accepts c bad rule align overlap)
    {halves : List Nat} {need kib : Nat} (room : d.cribRefusal halves need kib = none) (start : Nat → Outst → Dp → Dp) :
    Dp.cribJudged c halves need kib (Dp.enter c convs start) d = start n o a := by
  rw [Dp.cribJudged_room room, e.start_accepted ac]

end State.Enters

/-! ### GEMM (R105, R205, R208–R211) -/

theorem exec_gemm (n : Fin 64) (s : State) :
    exec (.gemm n) s = s.dispatched 0x10 everyForm (fun bs => (parseGemm bs).spans) opGemm n := rfl

section Gemm

variable {n : Nat} {o : Outst} {d : Dp} {q : GemmP}

/-- A GEMM without a tile list that has no list yet hands out the module's own order (R208, R209). -/
theorem startGemm_ownOrder (body : q = parseGemm o.bytes) (fresh : d.hasList o.uid = false) (unlisted : q.tlist = 0) :
    startGemm n o d = d.startList q.need (Dp.divide (d.halvesOf n) q.ownOrder) n o q.q_ := by
  subst body
  simp only [startGemm, fresh, Bool.false_eq_true, if_false, unlisted, if_true]

/-- A GEMM whose tile list reads well hands out the entries that it names (R210, R211). -/
theorem startGemm_tileList {x : Bool × List TileRow × List TileRow} {parts : List (Nat × List Entry)} {w : Wk}
    (body : q = parseGemm o.bytes) (fresh : d.hasList o.uid = false) (listed : q.tlist ≠ 0)
    (read : Dp.Works (Work.readTileList (d.envOf n o) q.tlist) d x w)
    (good : scannedParts q.ownOrder (d.halvesOf n) x = some parts) :
    startGemm n o d = w.d.startList q.need parts n o q.q_ := by
  subst body
  rw [Dp.Works] at read
  simp only [startGemm, fresh, Bool.false_eq_true, if_false, listed, read, good]

end Gemm

/-- Settles O5: the tile list is one condition more of the outcome table; an accepted GEMM enters, and its start hands out
one of the two lists. -/
theorem gemmStarts : Obligations.GemmStarts := by
  intro s n h bs c d o a q l body list e
  obtain ⟨cbytes, -, ring, obytes⟩ := e.bytes
  subst list
  have runs := (exec_gemm n s).trans (e.dispatched opGemm)
  simp only [opGemm, cbytes, ← body, ring] at runs
  rw [← obytes] at body
  refine ⟨fun form malformed => ?_, fun good ac room => ?_, fun fresh unlisted b declared => ?_,
    fun fresh listed x parts w b read good declared => ?_⟩
  · rw [runs, Dp.judged_snoc form malformed]
  · rw [runs, Dp.judged_accepted (ac.snoc good), e.start_crib ac room]
  · rw [startGemm_ownOrder body fresh unlisted, Dp.startList_declared _ _ _ declared]
  · rw [startGemm_tileList body fresh listed read good, Dp.startList_declared _ _ _ declared]

/-! ### PREDICT (R197, R203) -/

theorem exec_predict (n : Fin 64) (s : State) :
    exec (.predict n) s = s.dispatched 0x23 everyForm (fun bs => (parsePred bs).spans) opPredict n := rfl

/-- A PREDICT that its outcome table accepts is denied when it is speculative on a training ring (R197), and asks the crib
of the halves of its ring else (R214). -/
theorem opPredict_accepted {c : OpCtx} {d : Dp} {q : PredP} (body : q = parsePred c.bytes)
    (ac : d.Accepts c (PredP.bad c.bytes) .never q.misaligned
      (Dp.selfOverlap [q.recordSpan] (q.x.spans false ++ q.u.spans false ++ q.v.spans false))) :
    opPredict c d = if q.spec && (d.reg (Reg.ringCfg c.ring)).bit 3 then d.refuse c stDenied 2
      else Dp.cribJudged c (Dp.receiving (Dp.divide (d.halvesOf c.ring) q.order)) 8 0 (Dp.enter c [] startPredict) d := by
  subst body
  rw [opPredict, Dp.judged_accepted ac]

/-- A PREDICT names no sheaf, so that nothing is declared before its entries are handed to the halves (R203). -/
theorem startPredict_fresh {n : Nat} {o : Outst} {d : Dp} {q : PredP} (body : q = parsePred o.bytes)
    (fresh : d.hasList o.uid = false) (noSheaf : o.sheaf = none) :
    startPredict n o d = (d.addLists n o.uid 8 (Dp.divide (d.halvesOf n) q.order)).setPhase o.uid .running := by
  subst body
  rw [startPredict, fresh, if_neg Bool.false_ne_true,
    Dp.startList_declared _ _ _ (Dp.declareFor_noSheaf (o := { o with spans := [] }) noSheaf _ _)]

/-! ### FUSED_GRG (R208, R210, R233, Table 6.9) -/

theorem exec_fusedGrg (n : Fin 64) (s : State) :
    exec (.fusedGrg n) s = s.dispatched 0x28 everyForm (fun bs => (parseFused bs).spans) opFused n := rfl

/-- A FUSED_GRG keeps how it uses its prediction record, and hands out its own order without a tile list, the entries that
its tile list names with one (R208, R210, Table 6.9). -/
theorem startFused_prepared {n : Nat} {o : Outst} {d : Dp} {q : FusedP} {use : Nat}
    {x : Bool × List TileRow × List TileRow} {parts : List (Nat × List Entry)} {w : Wk} (body : q = parseFused o.bytes)
    (fresh : d.hasList o.uid = false) (prep : Dp.Works (fusedPrep (d.envOf n o) q (Word.bit o.cfg 3)) d (use, x) w)
    (own : q.tlist = 0 → parts = Dp.divide (d.halvesOf n) q.order)
    (named : q.tlist ≠ 0 → scannedParts q.order (d.halvesOf n) x = some parts) :
    startFused n o d = (w.d.modOutst n o.uid fun o => { o with count2 := use }).startList 8 parts n { o with spans := q.stores } := by
  subst body
  rw [Dp.Works] at prep
  by_cases unlisted : (parseFused o.bytes).tlist = 0
  · simp only [startFused, fresh, Bool.false_eq_true, if_false, prep, unlisted, if_true, own unlisted]
  · simp only [startFused, fresh, Bool.false_eq_true, if_false, prep, unlisted, named unlisted]

/-- Settles O9: an accepted PREDICT is denied or enters, an accepted FUSED_GRG with a good list enters, and their starts
hand out their lists. -/
theorem fusedPairsStart : Obligations.FusedPairsStart := by
  refine ⟨fun s n h bs c d o a q body e ac => ?_, fun s n h bs c d o a q l body list e =>
    ⟨fun good ac room => ?_, fun fresh use x parts w r b prep kept declared own named => ?_⟩⟩
  all_goals obtain ⟨cbytes, hdr, ring, obytes⟩ := e.bytes
  · have runs := (exec_predict n s).trans (e.dispatched opPredict)
    rw [opPredict_accepted (q := q) (by rw [cbytes]; exact body) (by rw [cbytes]; exact ac), ring] at runs
    refine ⟨fun denied => ?_, fun allowed room => ?_, fun fresh => ?_⟩
    · rw [runs, if_pos denied, Dp.refuse]
    · rw [runs, if_neg (by rw [allowed]; exact Bool.false_ne_true), e.start_crib ac room]
    · exact startPredict_fresh (by rw [obytes]; exact body) fresh
        (e.noSheaf (by rw [← hdr]; exact Dp.sheafEn_never ac.form))
  · subst list
    rw [exec_fusedGrg, e.dispatched]
    simp only [opFused, cbytes, ← body, ring]
    rw [Dp.judged_accepted (ac.snoc good), e.start_crib ac room]
  · subst kept
    rw [startFused_prepared (by rw [obytes]; exact body) fresh prep own named]
    exact Dp.startList_declared (o := { o with spans := q.stores }) _ _ _ declared

end Sys2Proof.Machine
end

section
/-!
PROOFS. Entries of lists are taken and ended (R205–R207, R212, R214, R230), and page copies end (R31, R35, R36).
-/
namespace Sys2Proof.Machine

open State

/-- The jobs of Gleaner that end with the copy of promotion `p`: those of its page. -/
def Promotion.owns (p : Promotion) : Job → Bool
  | .promotion _ space page => space = p.space && page = p.page
  | .fetch _ _ _ => false

namespace Dp

/-- Work that only answers ends with its answer and leaves the data plane as it was. -/
theorem works_pure {α : Type} (d : Dp) (v : α) : Works (pure v) d v { d } := by
  rw [Works, show atsFuel = 4294967295 + 1 from rfl, run]
  rfl

/-! ### Entries taken (R206, R207, R212, R214) -/

/-- An entry that no tile list gave, and a catch-up tile, is not read again (R212). -/
theorem recheck_unlisted {o : Outst} {x : Entry} (unlisted : listDva o = 0 ∨ x.kind = .catchUp) (e : Env) :
    recheck e o x = pure (some x) := by
  simp only [recheck, Bool.or_eq_true, decide_eq_true_eq, if_pos unlisted]

/-- An idle tiller that is up and has a free context takes the entry it picks once the half that can no longer serve a list
has passed it on; an entry that names nothing when it is read again halts its stream with FAULT_INDEX (R206, R212, R214). -/
theorem takeEntry_read {d b : Dp} {g : Gates} {t k i n : Nat} {l : EList} {x : Entry} {o : Outst} {y : Option Entry} {w : Wk}
    (passed : b = d.passLists g) (up : b.tillerUp g t = true) (free : b.freeCtx t = some k)
    (next : b.pick t = some (l, i, x)) (found : b.findOutst l.uid = some (n, o))
    (read : Works (recheck (b.envOf n o) o x) b y w) :
    d.takeEntry g t = y.elim (w.d.haltTiles n o { status := stIndex, detail := 0 })
      fun y => w.d.handOut t k l i { y with kib := x.kib, row := x.row } := by
  subst passed
  rw [Works] at read
  simp only [takeEntry, up, Bool.not_true, Bool.false_eq_true, if_false, free, next, found, read]
  cases y with
  | none => rfl
  | some y => rfl

/-! ### Entries ended (R205, R207, R230) -/

/-- An entry of a running operation whose half is up, and whose sheaf is open or absent, is worked: it waits while an input
is missing, and else leaves its context, the stats records of groups that are over go, and the operation goes on (R205, R207,
R230). -/
theorem finishEntry_works {d : Dp} {g : Gates} {t k n : Nat} {c : Ctx} {o : Outst}
    (held : (d.tiller t).ctxs.find? (fun c => c.num = k) = some c) (found : d.findOutst c.uid = some (n, o))
    (running : o.phase = .running) (up : g.up (t / 96) = true) (opened : d.sheafStillOpen o = true)
    {r : Option Bool} {w : Wk} (work : Works (entryWork (d.tileEnv n o t c) o c.entry) d r w) :
    d.finishEntry g t k = r.elim w.d fun more => ((if more then (w.d.entryDone t c).appendCatchUp n c (t / 96)
      else w.d.entryDone t c).dropStats c.uid).afterEntry c.uid := by
  rw [Works] at work
  simp only [finishEntry, held, found, running, ne_eq, not_true_eq_false, decide_false, up, Bool.not_true, Bool.or_self,
    Bool.false_eq_true, if_false, opened, work]
  cases r with
  | none => rfl
  | some more => rfl

/-! ### Page copies ended (R31, R35, R36) -/

variable {d : Dp} {space page : Nat} {p : Promotion}

/-- While a peat channel with lines of the page is retrained, its copy waits (R36). -/
theorem promotionDone_retraining (found : d.mem.promos.find? (fun p => p.space = space && p.page = page) = some p)
    (retrained : d.inRetraining p.home p.size = true) : d.promotionDone space page = d := by
  simp only [promotionDone, found, retrained, Bool.or_true, if_true]

/-- A page copy that Gleaner serves ends; the streams stalled on the page go on, and then the moves that wait for Gleaner
(R31, R35). -/
theorem promotionDone_served (found : d.mem.promos.find? (fun p => p.space = space && p.page = page) = some p)
    (served : d.promotionServed space page = true) (steady : d.inRetraining p.home p.size = false) :
    d.promotionDone space page = ((((d.endPromotion p).restartAll
      ((d.endPromotion p).stalledOn fun x => x = .promotion space page)).gleanerNext 0).gleanerNext 1) := by
  simp only [promotionDone, found, served, steady, Bool.not_true, Bool.or_self, Bool.false_eq_true, if_false]

/-- A page whose leaf is found is copied to its frame, the leaf points there, and the frame is recorded clean, counted and
noticed (R31). -/
theorem endPromotion_mapped {l : Leaf} {f : Frame} {b r : Dp}
    (left : b = ({ d with mem := { d.mem with promos := d.mem.promos.filter (· ≠ p) } } : Dp).dropJobs p.owns)
    (mapped : b.walk p.space p.page = .ok l)
    (copied : r = (b.copyLines p.home p.frame (p.size / 128)).rewriteLeaf l.entry p.frame 0 0)
    (frame : f = { base := p.frame, size := p.size, space := p.space, page := p.page, home := p.home, dirty := false, pinned := false }) :
    d.endPromotion p = (({ r with mem := { r.mem with frames := r.mem.frames ++ [f] } } : Dp).bump Reg.promoCnt).promoNotice 0
      p.space p.page p.size (r.now - p.start) p.home := by
  subst left copied frame
  simp only [endPromotion]
  split
  case h_1 unmapped => exact nomatch mapped.symm.trans unmapped
  case h_2 m found =>
    obtain rfl : l = m := Except.ok.inj (mapped.symm.trans found)
    rfl

end Dp

theorem exec_listEntryTake (t : Fin 192) (s : State) :
    exec (.listEntryTake t) s = s.byUnit fun d => d.takeEntry s.gates t := rfl

theorem exec_listEntryDone (t : Fin 192) (k : Fin 8) (s : State) :
    exec (.listEntryDone t k) s = s.byUnit fun d => d.finishEntry s.gates t k := rfl

theorem exec_promotionDone (space : Fin 16) (page : Nat) (s : State) :
    exec (.promotionDone space page) s = s.byUnit fun d => d.promotionDone space page := rfl

/-- What the unit's own change leaves, once it is known, while the module is awake. -/
theorem State.byUnit_leaves {s : State} {f : Dp → Dp} {d : Dp} (awake : s.awake = true) (leaves : f s.dp = d) :
    s.byUnit f = .next (s.plane d) := by rw [byUnit_live awake, leaves]

/-- Settles O22: each command acts while the unit is awake; an entry taken is read again or stands as it is, an entry ended
has its inputs or waits, and a page copy waits or ends in its frame. -/
theorem listEntriesMove : Obligations.ListEntriesMove := by
  refine ⟨fun s t k i n l x o b awake passed up free next found => ?_,
    fun s t k c n o awake held found running up opened => ?_,
    fun s space page p awake found => ⟨fun retrained => ?_, fun l f b r u v served steady left mapped copied frame noted gone => ?_⟩⟩
  · have take {y : Option Entry} {w : Wk} (read : Dp.Works (Dp.recheck (b.envOf n o) o x) b y w) :=
      (exec_listEntryTake t s).trans (byUnit_leaves awake (Dp.takeEntry_read passed up free next found read))
    refine ⟨fun unlisted => ?_, fun y w read => take read, fun w read => take read⟩
    refine take (w := { d := b }) (y := some x) ?_
    rw [Dp.recheck_unlisted unlisted]
    exact Dp.works_pure b (some x)
  · have done {y : Option Bool} {w : Wk} (work : Dp.Works (Dp.entryWork (s.dp.tileEnv n o t c) o c.entry) s.dp y w) :=
      (exec_listEntryDone t k s).trans (byUnit_leaves awake (Dp.finishEntry_works held found running up opened work))
    exact ⟨fun more w work => done work, fun w work => done work⟩
  · exact (exec_promotionDone space page s).trans (byUnit_leaves awake (Dp.promotionDone_retraining found retrained))
  · have ended : s.dp.endPromotion p = u := (Dp.endPromotion_mapped left mapped copied frame).trans noted.symm
    subst gone
    rw [exec_promotionDone, byUnit_leaves awake (Dp.promotionDone_served found served steady), ended]

end Sys2Proof.Machine
end

section
/-!
PROOFS. The starts of UPDATE (R246, R247, R250, R254).
-/
namespace Sys2Proof.Machine

open State

theorem exec_update (n : Fin 64) (s : State) :
    exec (.update n) s = s.dispatched 0x30 (fun bs => updKind bs = 0) updSpans (opUpdate startUpdate) n := rfl

theorem exec_updateAccum (n : Fin 64) (s : State) :
    exec (.updateAccum n) s = s.dispatched 0x30 (fun bs => updKind bs = 1) updSpans (opUpdate startAccum) n := rfl

theorem exec_updateNetwork (n : Fin 64) (s : State) :
    exec (.updateNetwork n) s = s.dispatched 0x30 (fun bs => updKind bs = 2) updSpans (opUpdate startNetwork) n := rfl

theorem exec_updateStep (n : Fin 64) (s : State) :
    exec (.updateStep n) s = s.dispatched 0x30 (fun bs => updKind bs = 3) updSpans opStep n := rfl

/-- An UPDATE that its outcome table accepts starts, whatever its row's own start is (Table 8.12). -/
theorem State.Enters.start_update {s : State} {n : Fin 64} {mine : List Byte → Bool} {h : Hdr} {bs : List Byte} {c : OpCtx}
    {d : Dp} {o : Outst} {a : Dp} {q : UpdP} (body : q = parseUpd bs)
    (e : s.Enters n 0x30 mine updSpans h bs (if q.opt = 3 then [] else [q.w.conv]) c d o a)
    (ac : d.Accepts c (UpdP.bad ((d.reg Reg.fllCtl).bit 2) ((d.reg Reg.fllFpBase).fld 51 17) bs) .must q.misaligned
      (Dp.selfOverlap q.outs q.ins)) (start : Nat → Outst → Dp → Dp) :
    s.dispatched 0x30 mine updSpans (opUpdate start) n = .next (s.left n (start n o a)) := by
  obtain ⟨cbytes, -, -, -⟩ := e.bytes
  subst body
  rw [e.dispatched, opUpdate, cbytes, Dp.judged_accepted ac, e.start_accepted ac]

section Starts

variable {n : Nat} {o : Outst} {d b : Dp} {q : UpdP} {x : StepRec} {v w : Wk}

/-! ### The step record (R247) -/

/-- An UPDATE whose record lets it skip, or refuses it, ends as the record says (R247). -/
theorem Dp.recordJudged_ends {e : Ending} (undecided : d.declarationEnds n o = false)
    (read : Dp.Works (Work.readRec (d.envOf n o) q.stepRec) d x v) (verdict : recVerdict x = some e) (go : Dp → Dp) :
    Dp.recordJudged n o q go d = v.d.finished o.uid e := by
  rw [Dp.Works] at read
  simp only [recordJudged, undecided, Bool.false_eq_true, if_false, read, verdict]

/-- An UPDATE whose record lets it run goes on. -/
theorem Dp.recordJudged_runs (undecided : d.declarationEnds n o = false)
    (read : Dp.Works (Work.readRec (d.envOf n o) q.stepRec) d x v) (verdict : recVerdict x = none) (go : Dp → Dp) :
    Dp.recordJudged n o q go d = go v.d := by
  rw [Dp.Works] at read
  simp only [recordJudged, undecided, Bool.false_eq_true, if_false, read, verdict]

/-! ### On the engines (R250) -/

theorem startUpdate_ends {e : Ending} (body : q = parseUpd o.bytes) (undecided : d.declarationEnds n o = false)
    (read : Dp.Works (Work.readRec (d.envOf n o) q.stepRec) d x v) (verdict : recVerdict x = some e) :
    startUpdate n o d = v.d.finished o.uid e := by
  subst body
  exact Dp.recordJudged_ends undecided read verdict _

/-- An UPDATE that runs on the engines writes its shard's new values once its regions are declared (R250, R270). -/
theorem startUpdate_writes {bytes : List Byte} (body : q = parseUpd o.bytes) (undecided : d.declarationEnds n o = false)
    (read : Dp.Works (Work.readRec (d.envOf n o) q.stepRec) d x v) (verdict : recVerdict x = none)
    (declared : v.d.declareFor n o (v.d.stokerHalf n) (Dp.storedRanges o.spans) = (true, b))
    (work : Dp.Works (updWork (b.envOf n o) q) b (none, bytes) w) : startUpdate n o d = w.d.updated o q bytes := by
  subst body
  rw [Dp.Works] at work
  simp only [startUpdate, Dp.recordJudged_runs undecided read verdict, declared, work]

/-- An UPDATE with OPT = ACCUM names no record: it adds its partials once its regions are declared (R240, R250). -/
theorem startAccum_adds {bytes : List Byte} (body : q = parseUpd o.bytes)
    (declared : d.declareFor n o (d.stokerHalf n) (Dp.storedRanges o.spans) = (true, b))
    (work : Dp.Works (Work.updAccum (b.envOf n o) q) b bytes w) : startAccum n o d = w.d.updated o q bytes := by
  subst body
  rw [Dp.Works] at work
  simp only [startAccum, declared, work]

/-! ### Across the network (R254, R376) -/

theorem startNetwork_ends {e : Ending} (body : q = parseUpd o.bytes) (fresh : (d.coll o.uid).isSome = false)
    (undecided : d.declarationEnds n o = false) (read : Dp.Works (Work.readRec (d.envOf n o) q.stepRec) d x v)
    (verdict : recVerdict x = some e) : startNetwork n o d = v.d.finished o.uid e := by
  subst body
  rw [startNetwork, fresh, if_neg Bool.false_ne_true]
  exact Dp.recordJudged_ends undecided read verdict _

/-- A descriptor whose group reads goes on with its members (R355). -/
theorem Dp.withGroup_read {r : Dp} {k : Nat} {g : Group} (group : Dp.GroupRead n o k d g r) (ofs : Nat)
    (next : Group → Dp → Dp) : Dp.withGroup n o k ofs next d = next g r := by
  obtain ⟨u, read, rfl⟩ := group
  simp only [withGroup, read]

/-- A NETWORK UPDATE that runs becomes a collective of its shard's number, posts W's range as credit with its reducer, and
sends what it may (R254, R376). -/
theorem startNetwork_sends {r : Dp} {step k : Nat} {data : List Byte} {bad : Bool} {g : Group} {c : Coll}
    (body : q = parseUpd o.bytes) (fresh : (d.coll o.uid).isSome = false) (undecided : d.declarationEnds n o = false)
    (read : Dp.Works (Work.readRec (d.envOf n o) q.stepRec) d x v) (verdict : recVerdict x = none)
    (declared : v.d.declareFor n o (v.d.stokerHalf n) (Dp.storedRanges o.spans) = (true, b))
    (work : Dp.Works (shardWork (b.envOf n o) q) b (none, step, data, bad) w) (net : k = (w.d.reg Reg.lnkNet).fld 15 0)
    (group : Dp.GroupRead n o k w.d g r)
    (coll : c = { uid := o.uid, ring := n, op := 0x30, o, id := q.shardId, group := k, members := g.members.map (·.endpoint),
                  rank := g.rank, coord := g.coord, fixed := true, start := step, data, dataBad := bad }) :
    startNetwork n o d = (((r.addColl c).grant c (q.shardId % g.members.length) 0 0 (q.count * q.w.esize)).applyEarly).progressAll := by
  subst body net coll
  rw [Dp.Works] at work
  rw [startNetwork, fresh, if_neg Bool.false_ne_true]
  simp only [Dp.recordJudged_runs undecided read verdict, declared, work, Dp.withGroup_read group]

/-! ### The step boundary (R246) -/

/-- An UPDATE with OPT = STEP is denied while its record is open or not reduced, and stands as the step boundary else
(R246). -/
theorem startStep_judged (read : Dp.Works (Work.readRec (d.envOf n o) (parseUpd o.bytes).stepRec) d x w) :
    startStep n o d = if !x.closed || !x.reduced then w.d.finished o.uid { status := stDenied, detail := 3 }
      else (w.d.modOutst n o.uid fun o =>
        { o with count := if x.ovf then 1 else 0, count2 := 1, poisoned := o.poisoned || w.poison }).setPhase o.uid .running := by
  rw [Dp.Works] at read
  simp only [startStep, read]

end Starts

/-- Settles O10: an accepted UPDATE starts, and each row's start goes by the judgement of its record. -/
theorem updatesStart : Obligations.UpdatesStart := by
  refine ⟨fun s n h bs c d o a q bad body conditions ac => ?_, fun s n h bs c d o a e ac => ?_⟩
  · subst conditions
    refine ⟨fun e => ⟨?_, fun x v undecided read => ⟨fun y verdict => ?_, fun b bytes w verdict declared work => ?_⟩⟩,
      fun e => ⟨?_, fun b bytes w declared work => ?_⟩,
      fun e => ⟨?_, fun x v fresh undecided read =>
        ⟨fun y verdict => ?_, fun b r step data bad w g verdict declared work group => ?_⟩⟩⟩
    all_goals obtain ⟨-, -, -, obytes⟩ := e.bytes
    · exact (exec_update n s).trans (e.start_update body ac startUpdate)
    · exact startUpdate_ends (by rw [obytes]; exact body) undecided read verdict
    · exact startUpdate_writes (by rw [obytes]; exact body) undecided read verdict declared work
    · exact (exec_updateAccum n s).trans (e.start_update body ac startAccum)
    · exact startAccum_adds (by rw [obytes]; exact body) declared work
    · exact (exec_updateNetwork n s).trans (e.start_update body ac startNetwork)
    · exact startNetwork_ends (by rw [obytes]; exact body) fresh undecided read verdict
    · exact startNetwork_sends (by rw [obytes]; exact body) fresh undecided read verdict declared work rfl group rfl
  · obtain ⟨cbytes, -, -, obytes⟩ := e.bytes
    refine ⟨?_, fun r w read => startStep_judged (by rw [obytes]; exact read)⟩
    rw [exec_updateStep, e.dispatched, opStep, cbytes, Dp.judged_accepted ac, e.start_accepted ac]

end Sys2Proof.Machine
end

section
/-!
PROOFS. The starts of NORM (R242, R243) and of RECOMPUTE (R258).
-/
namespace Sys2Proof.Machine

open State

/-! ### NORM (R242, R243) -/

namespace Dp

variable {d : Dp}

/-- A dispatch moves in the pipeline program and leaves every register alone. -/
@[simp] theorem reg_pipeTake (n off : Nat) : (d.pipeTake n).reg off = d.reg off := by
  unfold pipeTake
  split
  case h_1 => rfl
  case h_2 => rfl

@[simp] theorem reg_takeDesc (n : Nat) (h : Hdr) (off : Nat) : (d.takeDesc n h).2.reg off = d.reg off :=
  reg_pipeTake n off

@[simp] theorem reg_accept (c : OpCtx) (convs : List Conv) (off : Nat) : (d.accept c convs).reg off = d.reg off := rfl

end Dp

/-- Neither taking a descriptor nor accepting it writes a register. -/
theorem State.Enters.reg {s : State} {n : Fin 64} {op : Nat} {mine : List Byte → Bool} {spans : List Byte → List Span}
    {h : Hdr} {bs : List Byte} {convs : List Conv} {c : OpCtx} {d : Dp} {o : Outst} {a : Dp}
    (e : s.Enters n op mine spans h bs convs c d o a) (off : Nat) : d.reg off = s.dp.reg off ∧ a.reg off = s.dp.reg off := by
  rw [e.entered, Dp.reg_accept, e.taken, Dp.reg_takeDesc]
  exact ⟨rfl, rfl⟩

/-- The instruction of ring `n` whose row of NORM is `k` (Table 8.12). -/
def normInstr (k : Fin 3) (n : Fin 64) : Instr :=
  match k with
  | 0 => .normPartial n
  | 1 => .normClose n
  | 2 => .normClosePod n

theorem exec_norm (k : Fin 3) (n : Fin 64) (s : State) : exec (normInstr k n) s = s.dispatched 0x31
    (fun bs => normRow bs = k.val) (NormP.spans ((s.dp.reg Reg.fllNormBase).fld 51 15 * 2 ^ 15)) opNorm n := by
  match k with
  | 0 => rfl
  | 1 => rfl
  | 2 => rfl

section Norm

variable {base : Nat} {d : Dp}

/-- A NORM that its outcome table accepts enters with no random stream. -/
theorem opNorm_accepted {c : OpCtx} (array : base = (d.reg Reg.fllNormBase).fld 51 15 * 32768)
    (ac : d.Accepts c (NormP.bad base c.bytes) .never (parseNorm c.bytes).misaligned
      (Dp.selfOverlap ((NormP.spans base c.bytes).filter (·.stored)) ((NormP.spans base c.bytes).filter fun x => !x.stored))) :
    opNorm c d = Dp.enter c [] startNorm d := by
  subst array
  exact Dp.judged_accepted ac _

/-- A NORM whose work ends is done with its result word (R242, R243). -/
theorem startNorm_done {n x : Nat} {o : Outst} {w : Wk} (array : base = (d.reg Reg.fllNormBase).fld 51 15 * 32768)
    (work : Dp.Works (normWork (d.envOf n o) base (parseNorm o.bytes)) d x w) :
    startNorm n o d = w.d.finished o.uid { status := stOK, result := x } := by
  subst array
  rw [Dp.Works] at work
  simp only [startNorm, work]

end Norm

/-! ### RECOMPUTE (R258) -/

theorem exec_recompute (n : Fin 64) (s : State) :
    exec (.recompute n) s = s.dispatched 0x32 everyForm recomputeSpans opRecompute n := rfl

/-- A RECOMPUTE of whose region no open sheaf of its space has a marked line becomes outstanding, and does nothing yet
(R258). -/
theorem opRecompute_begins {c : OpCtx} {d : Dp}
    (ac : d.Accepts c (recomputeBad c.bytes) .never (leAt c.bytes 24 8 % 128 ≠ 0 || leAt c.bytes 32 8 % 128 ≠ 0) false)
    (clear : ∀ x ∈ d.journal.sheaves, x.2.state ≠ .opened ∨ x.2.space ≠ d.spaceOf c.ring ∨ ∀ y ∈ x.2.actions,
      Dp.meets y.dva y.len (leAt c.bytes 24 8) (leAt c.bytes 32 8) = false ∨
      ∀ k < Dp.linesIn y.dva y.len, d.isMarked x.2 (y.line0 + k) = false) :
    opRecompute c d = d.begin c := by
  rw [opRecompute, Dp.judged_accepted ac]
  refine if_neg fun shadowed => ?_
  simp only [List.any_eq_true, List.mem_range, Bool.and_eq_true, decide_eq_true_eq] at shadowed
  obtain ⟨x, sheaf, ⟨opened, space⟩, y, action, meets, k, line, marked, -⟩ := shadowed
  obtain shut | other | unmarked := clear x sheaf
  · exact shut opened
  · exact other space
  · obtain apart | unmarked := unmarked y action
    · exact Bool.false_ne_true (apart.symm.trans meets)
    · exact Bool.false_ne_true ((unmarked k line).symm.trans marked)

/-- Settles O11: an accepted NORM starts at the partial array that FLL_NORM_BASE names throughout its dispatch, and is done
with its work; an accepted RECOMPUTE begins. -/
theorem normsAndReleases : Obligations.NormsAndReleases := by
  refine ⟨fun k s n h bs c d o a base array e ac => ?_, fun s n h bs c d o a e ac clear => ?_⟩
  all_goals obtain ⟨cbytes, -, ring, obytes⟩ := e.bytes
  · obtain ⟨judged, started⟩ := e.reg Reg.fllNormBase
    have judgedArray : base = (d.reg Reg.fllNormBase).fld 51 15 * 32768 := by rw [judged]; exact array
    have startedArray : base = (a.reg Reg.fllNormBase).fld 51 15 * 32768 := by rw [started]; exact array
    refine ⟨(exec_norm k n s).trans ?_, fun x w work => startNorm_done startedArray (by rw [obytes]; exact work)⟩
    rw [← array, e.dispatched, opNorm_accepted judgedArray (by rw [cbytes]; exact ac), e.start_accepted ac]
  · rw [exec_recompute, e.dispatched, opRecompute_begins (by rw [cbytes]; exact ac) (by rw [cbytes, ring]; exact clear)]

end Sys2Proof.Machine
end

section
/-!
PROOFS. The commit point of a sheaf and the end of its promotion (R256, R277, R278, Table 9.7).
-/
namespace Sys2Proof.Machine

open State

theorem exec_sheafCommitPoint (id : Fin 4096) (s : State) :
    exec (.sheafCommitPoint id) s = s.byUnit fun d => d.commitPoint id := rfl

theorem exec_sheafPromotionEnd (id : Fin 4096) (s : State) :
    exec (.sheafPromotionEnd id) s = s.byUnit fun d => (d.promotionEnd id).wake := rfl

namespace Dp

variable {d : Dp} {id : Nat} {x : Sheaf}

/-- The commit point of a committing sheaf whose regions nothing outstanding meets: its record goes to the log at its SEQ,
with the CRC of its first 56 bytes, over whatever poison the slot holds; the sheaf is COMMITTED, last in the order of commit
records (R278 step 4, Table 9.7). -/
theorem commitPoint_writes {q r : CommitRec} (sheaf : x = d.sheaf id) (committing : x.state = .committing)
    (idle : d.sheafBusy x = false)
    (head : q = { seq := x.seq, sheaf := id, ring := x.ring, actions := x.actions.length, slot := x.slot, time := d.now,
                  step := d.fll.step, marked := d.markedLines x, shadowL := x.shadowL, shadowH := x.shadowH, crc := 0 })
    (record : r = { q with crc := crc64 0 (recordHead q),
                           poisoned := (Tab.get (fun _ => none) d.journal.log (x.seq % logSize)).any fun y => y.poisoned }) :
    d.commitPoint id = ({ d with journal := { d.journal with
        log := Tab.set (fun _ => none) d.journal.log (x.seq % logSize) (some r), order := d.journal.order ++ [id] } }).setSheaf id
      { x with state := .committed, marked := q.marked, crc := r.crc, step := d.fll.step, stamp := d.nextUid } := by
  subst sheaf head record
  simp only [commitPoint, committing, idle, ne_eq, not_true_eq_false, decide_false, Bool.or_self, Bool.false_eq_true, if_false]

/-- A promotion waits for an earlier record that promotes a line of its sheaf (R277). -/
theorem promotionEnd_waits (after : d.promotesAfter id = true) : d.promotionEnd id = d := by
  simp only [promotionEnd, after, Bool.or_true, if_true]

/-- A readable committed sheaf that waits for no earlier record, and none of whose fingerprints waits for a page, promotes:
its marked lines go home, its fingerprints are written, its id is FREE, and its SHEAF_COMMIT is done (R256, R278 steps 5
and 6). -/
theorem promotionEnd_promotes {u : Nat} {bad : Bool} {r b : Dp} (sheaf : x = d.sheaf id) (committed : x.state = .committed)
    (readable : x.unreadable = false) (first : d.promotesAfter id = false) (waiter : x.waiter = some u)
    (ready : d.fpPagesReady x = (true, r)) (home : r.promoteAll x = (bad, b)) :
    d.promotionEnd id = ((x.fps.foldl (commitFp x) b).freeSheaf id 0).finished u
      { status := if bad then stPoisoned else stOK, result := x.marked % 2 ^ 32 + x.seq % 2 ^ 32 * 2 ^ 32 } := by
  subst sheaf
  simp only [promotionEnd, committed, readable, first, ne_eq, not_true_eq_false, decide_false, Bool.or_self,
    Bool.false_eq_true, if_false, ready, home, waiter]

end Dp

/-- Settles O13: both commands act while the module is awake; the commit point writes its record, and the end of promotion
waits or promotes. -/
theorem sheafCommitsInSteps : Obligations.SheafCommitsInSteps := by
  refine ⟨fun s id x q r awake sheaf committing idle head record => ?_,
    fun s id x awake sheaf committed readable => ⟨fun after => ?_, fun u bad r b first waiter ready home => ?_⟩⟩
  · exact (exec_sheafCommitPoint id s).trans
      (byUnit_leaves awake (Dp.commitPoint_writes sheaf committing idle head record))
  · rw [exec_sheafPromotionEnd, byUnit_live awake, Dp.promotionEnd_waits after]
  · rw [exec_sheafPromotionEnd, byUnit_live awake,
      Dp.promotionEnd_promotes sheaf committed readable first waiter ready home]

end Sys2Proof.Machine
end

section
/-!
PROOFS. Replica fingerprints and their verdicts (R256, R257), CANCEL frames (R306), and the shards of NETWORK UPDATEs
(R254, R376).
-/
namespace Sys2Proof.Machine

open State

/-- What the pod links' own change leaves, once it is known, while frames reach the module. -/
theorem State.byPod_leaves {s : State} {f : Dp → Dp} {d : Dp} (live : s.podLive = true) (leaves : f s.dp = d) :
    s.byPod f = .next (s.plane d) := by rw [byPod_live live, leaves]

namespace Dp

variable {d h : Dp} {f : Culm} {p : FpPend}

/-! ### Accepted frames (R359, R361, R363) -/

/-- A PSN that a connection accepts is none that it has received. -/
theorem not_received_of_accepts {c : Conn} {k : Nat} (fresh : Conn.accepts c k = true) : Conn.received c k = false := by
  rw [Conn.accepts, Bool.and_eq_true, Bool.not_eq_true'] at fresh
  exact fresh.1

/-- A frame that the module accepts acts once it has been noted. -/
theorem receive_hears {cls : Nat} (hears : d.Hears cls f) (noted : h = d.heard cls f) (body : Dp → Dp) :
    d.receive cls f body = body h := by
  obtain ⟨on, here, reachable, epoch, fresh⟩ := hears
  subst noted
  simp only [receive, on, here, reachable, epoch, not_received_of_accepts fresh, fresh, Bool.not_true, ne_eq, not_true_eq_false,
    decide_false, Bool.or_self, Bool.false_eq_true, if_false]
  rfl

/-- Noting a frame touches the links, the time, counts, status bits and the log alone. -/
theorem lk_heard (d : Dp) (cls : Nat) (f : Culm) : Lk d (d.heard cls f) := by
  have noted (c : Conn) : Lk d ((d.setConn f.src cls c).bump (Reg.lnkCnt 1)) :=
    (lk_setConn _ _ _ _).trans (lk_lnkCnt _ 1 _ (by decide))
  simp only [heard]
  split
  · exact (noted _).trans (lk_sendAck _ _ _)
  · exact noted _

@[simp] theorem gen_heard (d : Dp) (cls : Nat) (f : Culm) (k : Nat) : (d.heard cls f).gen k = d.gen k := by
  rw [(lk_heard d cls f).eq]
  rfl

/-! ### Fingerprints at their owner (R256) -/

section Owner

variable (hears : d.Hears 1 f) (noted : h = d.heard 1 f)

include hears noted

/-- A fingerprint of a step that the owner has committed is compared until DEADLINE, and counts as late after it. -/
theorem rxFingerprint_owned {x : FpOwn}
    (own : h.fll.own.find? (fun x => x.shardId = f.msg && x.step = leAt f.payload 0 8) = some x) :
    d.rxFingerprint f = if x.expired then h.fpLate f.msg else h.compareFp x f.src (leAt f.payload 8 8) := by
  simp only [rxFingerprint, receive_hears hears noted, own]

/-- A fingerprint of a step that the owner has not committed is kept. -/
theorem rxFingerprint_early (unowned : h.fll.own.find? (fun x => x.shardId = f.msg && x.step = leAt f.payload 0 8) = none) :
    d.rxFingerprint f = { h with fll := { h.fll with early := h.fll.early ++
      [{ module := f.src, shardId := f.msg, step := leAt f.payload 0 8, crc := leAt f.payload 8 8 }] } } := by
  simp only [rxFingerprint, receive_hears hears noted, unowned]

/-! ### Verdicts (R256, R257) -/

/-- The owner's verdict of a match ends the comparison. -/
theorem rxMatch_pending (pending : h.findPend f.msg (leAt f.payload 0 8) = some p) (owner : f.src = p.owner)
    (waits : p.repairing = false) : d.rxMatch f = ((h.setFpEntry p 1 0).bump (Reg.fllCnt 1)).dropPend p := by
  simp only [rxMatch, receive_hears hears noted, pending, owner, waits, decide_true, Bool.not_false, Bool.and_self, if_true]

variable {b : Dp} (pending : h.findPend f.msg (leAt f.payload 0 8) = some p) (owner : f.src = p.owner)
  (waits : p.repairing = false) (told : b = h.divergeNotice 1 p.step p.shardId p.owner h.me p.crc)

include pending owner waits told

/-- The owner's verdict of a mismatch stands outside REPAIR_FROM (R257). -/
theorem rxMismatch_stands (mode : (b.reg Reg.fllCtl).fld 4 3 ≠ 1) :
    d.rxMismatch f = (b.diverge true).notRepaired p (leAt f.payload 8 8) := by
  subst told
  simp only [rxMismatch, receive_hears hears noted, pending, owner, waits, mode, ne_eq, not_true_eq_false, decide_false, Bool.or_self,
    Bool.false_eq_true, if_false, Bool.false_and, Bool.not_false, if_true]

/-- Under REPAIR_FROM the owner's verdict of a mismatch has the module ask a reachable owner for its copy (R257). -/
theorem rxMismatch_repairs (mode : (b.reg Reg.fllCtl).fld 4 3 = 1) (reachable : (b.peer p.owner).down = false) :
    d.rxMismatch f = ({ b.diverge false with fll := { (b.diverge false).fll with pend := (b.diverge false).fll.pend.map fun x =>
        if x = p then { p with repairing := true, peerCrc := leAt f.payload 8 8 } else x } } : Dp).posts p.owner 1
      [{ ty := 3, ember := true, msg := p.shardId, payload := toLe 8 0 ++ toLe 8 (repairLen p.desc) }] := by
  subst told
  simp only [rxMismatch, receive_hears hears noted, pending, owner, waits, mode, reachable, ne_eq, not_true_eq_false, decide_false,
    decide_true, Bool.or_self, Bool.false_eq_true, if_false, Bool.not_false, Bool.and_self, Bool.not_true]

end Owner

/-- DEADLINE leaves a comparison that is not under repair UNCHECKED, and it counts as late (R256). -/
theorem fpDeadline_unchecked {shard step : Nat} {a : Dp}
    (passed : a = { d with fll := { d.fll with
      early := d.fll.early.filter fun y => !(y.shardId = shard && y.step = step)
      own := d.fll.own.map fun x => if x.shardId = shard && x.step = step then { x with expired := true } else x } })
    (pending : a.findPend shard step = some p) (waits : p.repairing = false) :
    d.fpDeadline shard step = ((a.setFpEntry p 4 0).dropPend p).fpLate shard := by
  subst passed
  simp only [fpDeadline, pending, waits, Bool.false_eq_true, if_false]

/-! ### CANCEL frames (R306) -/

/-- A generation that has sent no rows has no record to mark. -/
theorem cancelMark_unsent {k : Nat} (unsent : (d.gen k).sent = false) : d.cancelMark k = pure () := by
  simp only [cancelMark, unsent, Bool.and_false, Bool.false_eq_true, if_false]

/-- An accepted CANCEL frame marks the record of the generation it names, and retires it. -/
theorem rxCancel_marks {k : Nat} {v w : Wk} (hears : d.Hears 1 f) (noted : h = d.heard 1 f) (gen : k = f.msg % 65536)
    (before : Works (d.cancelMark k) d () v) (mark : Works (h.cancelMark k) h () w) : d.rxCancel f = w.d.retireGen k := by
  subst gen
  rw [Works] at before mark
  simp only [rxCancel, before, receive_hears hears noted, mark]

/-! ### Shards (R254, R376) -/

/-- The elements of a SHARD_RET frame that its UPDATE lacks are kept with it, and written when it runs. -/
theorem shardRet_updates {c : Coll} (hears : d.Hears 0 f) (noted : h = d.heard 0 f) (update : h.shardOf f = some c) :
    d.shardRet f = (h.modColl c.uid fun c' => { c' with parts := c'.parts ++ shardNew c (parseUpd c.o.bytes) f }).settleShard c.uid := by
  simp only [shardRet, receive_hears hears noted, update]

/-- A SHARD_RET frame that no UPDATE in progress waits for is discarded and counted. -/
theorem shardRet_discards (hears : d.Hears 0 f) (noted : h = d.heard 0 f) (stray : h.shardOf f = none) :
    d.shardRet f = h.bump (Reg.lnkCnt 2) := by
  simp only [shardRet, receive_hears hears noted, stray]

/-- A NETWORK UPDATE that runs writes the elements due. -/
theorem settleShard_writes {uid : Nat} {x : Coll} {w : Wk} (coll : d.coll uid = some x) (runs : d.collRuns uid = true)
    (due : (shardDue x (parseUpd x.o.bytes)).isEmpty = false)
    (work : Works (shardWrite (d.envOf x.ring x.o) x (parseUpd x.o.bytes) (shardDue x (parseUpd x.o.bytes))) d () w) :
    d.settleShard uid = w.d.shardNoted x (parseUpd x.o.bytes) (shardDue x (parseUpd x.o.bytes)) := by
  rw [Works] at work
  simp only [settleShard, coll, runs, due, Bool.not_true, Bool.or_self, Bool.false_eq_true, if_false, work]

/-- FLL_NET_CTL.TIMEOUT ends a NETWORK UPDATE in progress, with the number of elements that it wrote (R254). -/
theorem netTimeout_ends {shard k : Nat} {c : Coll}
    (update : d.lnk.colls.find? (fun c => c.op = 0x30 && c.id = shard && d.collLives c.uid) = some c)
    (written : k = ((List.range (parseUpd c.o.bytes).count).filter c.returned.has).length) :
    d.netTimeout shard = (d.bump (Reg.fllCnt 0) k).endColl c.uid { status := stTimeout, result := k % 2 ^ 32 * 2 ^ 32 } := by
  subst written
  simp only [netTimeout, update]

end Dp

theorem exec_fingerprint (f : Culm) (s : State) :
    exec (.fingerprint f) s = s.byPod fun d => d.rxFingerprint (emberAs f 7 0) := rfl

theorem exec_verdictMatch (f : Culm) (s : State) :
    exec (.verdictMatch f) s = s.byPod fun d => d.rxMatch (emberAs f 7 1) := rfl

theorem exec_verdictMismatch (f : Culm) (s : State) :
    exec (.verdictMismatch f) s = s.byPod fun d => d.rxMismatch (emberAs f 7 2) := rfl

theorem exec_fpDeadline (shard step : Nat) (s : State) :
    exec (.fpDeadline shard step) s = s.byUnit fun d => d.fpDeadline shard step := rfl

theorem exec_cancelFrame (f : Culm) (s : State) :
    exec (.cancelFrame f) s = s.byPod fun d => (d.rxCancel (emberAs f 6 0)).progressPod := rfl

theorem exec_shardRet (f : Culm) (s : State) :
    exec (.shardRet f) s = s.byPod fun d => (d.shardRet (bulk f 9)).progressPod := rfl

theorem exec_netTimeout (shard : Nat) (s : State) :
    exec (.netTimeout shard) s = s.byUnit fun d => d.netTimeout shard := rfl

/-- Settles O37: each command acts while its frame or its timer reaches the module, and the rule of its row says what it
leaves. -/
theorem fingerprintsAndShards : Obligations.FingerprintsAndShards := by
  refine ⟨?owner, ?verdict, ?deadline, ?cancel, ?shard, ?timeout⟩
  case owner =>
    intro s fr f h live frame hears noted
    subst frame
    refine ⟨fun x own => ?_, fun unowned => ?_⟩
    · have runs := (exec_fingerprint fr s).trans (byPod_leaves live (Dp.rxFingerprint_owned hears noted own))
      refine ⟨fun inTime => runs.trans ?_, fun late => runs.trans ?_⟩
      · rw [inTime, if_neg Bool.false_ne_true]
      · rw [late, if_pos rfl]
    · exact (exec_fingerprint fr s).trans (byPod_leaves live (Dp.rxFingerprint_early hears noted unowned))
  case verdict =>
    intro s fr f h p live hears noted pending owner waits
    refine ⟨fun frame => ?_, fun b frame told => ⟨fun mode => ?_, fun mode reachable => ?_⟩⟩
    all_goals subst frame
    · exact (exec_verdictMatch fr s).trans (byPod_leaves live (Dp.rxMatch_pending hears noted pending owner waits))
    · exact (exec_verdictMismatch fr s).trans
        (byPod_leaves live (Dp.rxMismatch_stands hears noted pending owner waits told mode))
    · exact (exec_verdictMismatch fr s).trans
        (byPod_leaves live (Dp.rxMismatch_repairs hears noted pending owner waits told mode reachable))
  case deadline =>
    intro s shard step p a awake passed pending waits
    exact (exec_fpDeadline shard step s).trans (byUnit_leaves awake (Dp.fpDeadline_unchecked passed pending waits))
  case cancel =>
    intro s fr f h k live frame hears noted gen
    subst frame
    have retires {v w : Wk} (before : Dp.Works (s.dp.cancelMark k) s.dp () v) (mark : Dp.Works (h.cancelMark k) h () w) :=
      (exec_cancelFrame fr s).trans
        (byPod_leaves live (congrArg Dp.progressPod (Dp.rxCancel_marks hears noted gen before mark)))
    refine ⟨fun unsent => ?_, fun v w before mark => retires before mark⟩
    have unsentHeard : (h.gen k).sent = false := by rw [noted, Dp.gen_heard]; exact unsent
    refine retires (v := { d := s.dp }) (w := { d := h }) ?_ ?_
    · rw [Dp.cancelMark_unsent unsent]
      exact Dp.works_pure s.dp ()
    · rw [Dp.cancelMark_unsent unsentHeard]
      exact Dp.works_pure h ()
  case shard =>
    intro s fr f h live frame hears noted
    subst frame
    refine ⟨fun c q b update body kept => ⟨?_, fun x w coll runs due work => Dp.settleShard_writes coll runs due work⟩,
      fun stray => ?_⟩
    · subst body kept
      exact (exec_shardRet fr s).trans (byPod_leaves live (congrArg Dp.progressPod (Dp.shardRet_updates hears noted update)))
    · exact (exec_shardRet fr s).trans (byPod_leaves live (congrArg Dp.progressPod (Dp.shardRet_discards hears noted stray)))
  case timeout =>
    intro s shard k c awake update written
    exact (exec_netTimeout shard s).trans (byUnit_leaves awake (Dp.netTimeout_ends update written))

end Sys2Proof.Machine
end

section
/-!
PROOFS. SHEAF_OPEN, SHEAF_COMMIT and SHEAF_ABORT (R267, R278, R284, R285, Table 9.10).
-/
namespace Sys2Proof.Machine

open State

theorem exec_sheafOpen (n : Fin 64) (s : State) :
    exec (.sheafOpen n) s = s.dispatched 0x38 everyForm noSpans opSheafOpen n := rfl

theorem exec_sheafCommit (n : Fin 64) (s : State) :
    exec (.sheafCommit n) s = s.dispatched 0x39 everyForm noSpans opSheafCommit n := rfl

theorem exec_sheafAbort (n : Fin 64) (s : State) :
    exec (.sheafAbort n) s = s.dispatched 0x3A everyForm noSpans opSheafAbort n := rfl

namespace Tab

variable {α : Type}

/-- What holds of every listed value, and of what an unlisted key reads as, holds of every value read. -/
theorem get_of_all {P : α → Prop} {d : Nat → α} {t : Tab α} (listed : ∀ e ∈ t, P e.2) {k : Nat} (unlisted : P (d k)) :
    P (Tab.get d t k) := by
  induction t with
  | nil => exact unlisted
  | cons e t ih =>
    obtain ⟨j, v⟩ := e
    rw [Tab.get]
    split
    · exact listed (j, v) (List.mem_cons_self ..)
    · exact ih fun e mem => listed e (List.mem_cons_of_mem _ mem)

/-- An insertion puts its entry between two parts of the table. -/
theorem insert_eq_append (t : Tab α) (k : Nat) (v : α) :
    ∃ l r, t = l ++ r ∧ Tab.insert t k v = l ++ (k, v) :: r := by
  induction t with
  | nil => exact ⟨[], [], rfl, rfl⟩
  | cons e t ih =>
    obtain ⟨j, w⟩ := e
    rw [Tab.insert]
    split
    · exact ⟨[], (j, w) :: t, rfl, rfl⟩
    · obtain ⟨l, r, parts, put⟩ := ih
      exact ⟨(j, w) :: l, r, by rw [parts, List.cons_append], by rw [put, List.cons_append]⟩

/-- A written key is listed once, unless it is written with what an unlisted key reads as. -/
theorem set_eq_append [DecidableEq α] {d : Nat → α} (t : Tab α) {k : Nat} {v : α} (kept : v ≠ d k) :
    ∃ l r, Tab.set d t k v = l ++ (k, v) :: r ∧ (∀ e ∈ l, e.1 ≠ k) ∧ ∀ e ∈ r, e.1 ≠ k := by
  obtain ⟨l, r, parts, put⟩ := insert_eq_append (Tab.erase t k) k v
  have free : ∀ e ∈ l ++ r, e.1 ≠ k := parts ▸ erase_free t k
  exact ⟨l, r, by rw [Tab.set, if_neg kept, put], fun e mem => free e (List.mem_append_left _ mem),
    fun e mem => free e (List.mem_append_right _ mem)⟩

end Tab

namespace Dp

variable {d : Dp} {n id : Nat} {o : Outst}

/-! ### What leaves the outstanding descriptors of a ring alone -/

@[simp] theorem ring_pipeTake (k : Nat) : (d.pipeTake n).ring k = d.ring k := by
  unfold pipeTake
  split
  case h_1 => rfl
  case h_2 => rfl

/-- A descriptor taken off its ring is not yet outstanding. -/
@[simp] theorem outst_takeDesc (h : Hdr) (k : Nat) : ((d.takeDesc n h).2.ring k).outst = (d.ring k).outst := by
  have read : (d.takeDesc n h).2.ring k = (d.setRing n
      { d.ring n with fetched := (d.ring n).fetched.drop (64 * h.slots), fpoison := (d.ring n).fpoison.drop h.slots,
                      expSeq := (h.seq + 1) % 2 ^ 32, order := (d.ring n).order ++ [(d.nextUid, h.seq, false)] }).ring k :=
    ring_pipeTake k
  rw [read, ring_setRing]
  split
  next same => rw [same]
  next => rfl

theorem outst_modOutst_nil (uid k : Nat) (f : Outst → Outst) :
    ((d.modOutst n uid f).ring k).outst = [] ↔ (d.ring k).outst = [] := by
  rw [modOutst, ring_setRing]
  split
  next same => rw [same, List.map_eq_nil_iff]
  next => rfl

/-- No descriptor joins or leaves a ring when one is done. -/
theorem outst_finished_nil (uid k : Nat) (e : Ending) :
    ((d.finished uid e).ring k).outst = [] ↔ (d.ring k).outst = [] := by
  rw [finished, setPhase, modUid]
  split
  case h_1 => exact outst_modOutst_nil ..
  case h_2 => rfl

/-- The host's abort of a sheaf is not logged (R280): it changes the journal alone. -/
theorem ring_abortSheaf_host (k : Nat) : (d.abortSheaf id 1).ring k = d.ring k := rfl

/-! ### Waking -/

/-- What `wake` does at ring `k`: the SHEAF_COMMIT or SHEAF_ABORT that heads its outstanding descriptors goes on. -/
def wakeRing (d : Dp) (k : Nat) : Dp :=
  match (d.ring k).outst with
  | o :: _ =>
    match o.sheaf with
    | some id =>
      if o.phase ≠ .running || (d.sheaf id).waiter = some o.uid then d
      else if o.op = 0x39 then d.enterCommit o id
      else if o.op = 0x3A then d.enterAbort o id
      else d
    | none => d
  | [] => d

theorem wake_eq (d : Dp) : d.wake = d.rings.foldl (fun b x => b.wakeRing x.1) d := rfl

theorem wakeRing_idle {k : Nat} (idle : (d.ring k).outst = []) : d.wakeRing k = d := by
  rw [wakeRing, idle]

theorem foldl_wakeRing_idle {l : Tab Ring} (idle : ∀ x ∈ l, (d.ring x.1).outst = []) :
    l.foldl (fun b x => b.wakeRing x.1) d = d := by
  induction l with
  | nil => rfl
  | cons x l ih =>
    rw [List.foldl_cons, wakeRing_idle (idle x (List.mem_cons_self ..))]
    exact ih fun y mem => idle y (List.mem_cons_of_mem _ mem)

/-- Where the descriptor that joins ring `n` is the only one outstanding, and stays it, waking reaches its ring alone. -/
theorem wake_join {b : Dp} (idle : ∀ k, (d.ring k).outst = []) (woken : (d.join n o).wakeRing n = b)
    (still : ∀ k, ((d.join n o).ring k).outst = [] → (b.ring k).outst = []) : (d.join n o).wake = b := by
  have others {k : Nat} (other : k ≠ n) : ((d.join n o).ring k).outst = [] := by
    rw [join, ring_setRing, if_neg other]
    exact idle k
  have listed : { d.ring n with outst := (d.ring n).outst ++ [o] } ≠ ({} : Ring) := fun same =>
    List.append_ne_nil_of_right_ne_nil _ (List.cons_ne_nil o []) (congrArg Ring.outst same)
  obtain ⟨l, r, parts, left, right⟩ := Tab.set_eq_append (d := fun _ => {}) d.rings (k := n) listed
  have rings : (d.join n o).rings = l ++ (n, { d.ring n with outst := (d.ring n).outst ++ [o] }) :: r := parts
  rw [wake_eq, rings, List.foldl_append, foldl_wakeRing_idle fun x mem => others (left x mem), List.foldl_cons, woken,
    foldl_wakeRing_idle fun x mem => still x.1 (others (right x mem))]

/-- A descriptor that joins an idle ring and names a sheaf that nothing waits for goes on at once (R278 step 1, R285). -/
theorem wakeRing_join (idle : (d.ring n).outst = []) (names : o.sheaf = some id) (running : o.phase = .running)
    (free : (d.sheaf id).waiter = none) : (d.join n o).wakeRing n =
      if o.op = 0x39 then (d.join n o).enterCommit o id
      else if o.op = 0x3A then (d.join n o).enterAbort o id
      else d.join n o := by
  have first : ((d.join n o).ring n).outst = [o] := by rw [join, ring_setRing_same, idle, List.nil_append]
  have unserved : ((d.join n o).sheaf id).waiter = none := free
  simp only [wakeRing, first, names, running, unserved, ne_eq, not_true_eq_false, decide_false, reduceCtorEq, Bool.or_self,
    Bool.false_eq_true, if_false]

/-! ### The two ends of a wait -/

/-- An open sheaf enters COMMITTING with the next SEQ, which moves on (R278 step 1). -/
theorem enterCommit_opened (opened : (d.sheaf id).state = .opened) {b : Dp}
    (takes : b = d.setSheaf id { d.sheaf id with state := .committing, seq := d.journal.nextSeq, waiter := some o.uid }) :
    d.enterCommit o id = { b with journal := { b.journal with nextSeq := b.journal.nextSeq + 1 } } := by
  subst takes
  exact if_neg (not_not_intro opened)

/-- An open sheaf is aborted with cause 1, and the SHEAF_ABORT is done (Table 9.10). -/
theorem enterAbort_opened (opened : (d.sheaf id).state = .opened) :
    d.enterAbort o id = (d.abortSheaf id 1).finished o.uid { status := stOK, result := 1 } := by
  simp only [enterAbort, opened]

/-- A descriptor that is not malformed and must name a sheaf names one (R284). -/
theorem sheafEn_own {h : Hdr} {l : List (Bool × Nat)} (form : firstBad (l ++ d.sheafBad n h .own) = none) :
    h.sheafEn = true := by
  have named : (!h.sheafEn) = false :=
    firstBad_none.mp form (!h.sheafEn, 1) (List.mem_append_right _ (List.mem_cons_self ..))
  simpa using named

end Dp

namespace State.Enters

variable {s : State} {n : Fin 64} {op : Nat} {mine : List Byte → Bool} {spans : List Byte → List Span} {h : Hdr}
  {bs : List Byte} {c : OpCtx} {d : Dp} {o : Outst} {a : Dp}

/-- The data plane in which a descriptor that captures no stream starts is the one it was judged in, with its record. -/
theorem joined (e : s.Enters n op mine spans h bs [] c d o a) : a = d.begin c ∧ a = d.join n o ∧ o.uid = c.uid := by
  obtain ⟨-, ctx, -, rfl, rfl⟩ := e
  subst ctx
  exact ⟨rfl, rfl, rfl⟩

/-- The record of a descriptor that names a sheaf. -/
theorem record_named (e : s.Enters n op mine spans h bs [] c d o a) (named : h.sheafEn = true) :
    o.sheaf = some h.sheafId ∧ o.op = op ∧ o.phase = .running := by
  obtain ⟨granted, ctx, -, rfl, -⟩ := e
  subst ctx
  exact ⟨if_pos named, granted.opcode, rfl⟩

/-- Where nothing is outstanding, nothing is when the descriptor is judged. -/
theorem idle (e : s.Enters n op mine spans h bs [] c d o a) (quiet : ∀ x ∈ s.dp.rings, x.2.outst = []) (k : Nat) :
    (d.ring k).outst = [] := by
  rw [e.taken, Dp.outst_takeDesc]
  exact Tab.get_of_all (P := fun r : Ring => r.outst = []) quiet rfl

end State.Enters

/-! ### Judgement (Table 9.10) -/

section Judgement

variable {c : OpCtx} {d : Dp} {x : Sheaf}

/-- A SHEAF_OPEN whose buffers are aligned, lie in their tiers, and meet no other sheaf's, opens the sheaf it names. -/
theorem opSheafOpen_opens (form : firstBad (Dp.sheafOpenBad c.bytes ++ d.sheafBad c.ring c.hdr .own) = none)
    (alignedL : leAt c.bytes 16 8 % 4096 = 0) (alignedH : leAt c.bytes 32 8 % 4096 = 0)
    (placedL : Dp.insideTier 1 (leAt c.bytes 16 8) (leAt c.bytes 24 4 * 4096) = true ∧
      d.meetsReserved (leAt c.bytes 16 8) (leAt c.bytes 24 4 * 4096) = false)
    (placedH : leAt c.bytes 28 4 = 0 ∨ (Dp.insideTier 0 (leAt c.bytes 32 8) (leAt c.bytes 28 4 * 4096) = true ∧
      d.meetsReserved (leAt c.bytes 32 8) (leAt c.bytes 28 4 * 4096) = false))
    (free : (d.sheaf c.hdr.sheafId).state.counted = false) (room : d.sheavesOpen < 512)
    (apartL : d.bufferConflict c.hdr.sheafId (leAt c.bytes 16 8) (leAt c.bytes 24 4 * 4096) = false)
    (apartH : d.bufferConflict c.hdr.sheafId (leAt c.bytes 32 8) (leAt c.bytes 28 4 * 4096) = false)
    (opens : x = { state := .opened, ring := c.ring, space := d.spaceOf c.ring, excl := (leAt c.bytes 40 1).testBit 0,
                   slot := d.freeSlot, shadowH := leAt c.bytes 32 8, sizeH := leAt c.bytes 28 4, sizeL := leAt c.bytes 24 4,
                   shadowL := leAt c.bytes 16 8, tableBad := (d.sheaf c.hdr.sheafId).tableBad }) :
    opSheafOpen c d = ((d.begin c).setSheaf c.hdr.sheafId x).finished c.uid
      { status := stOK, result := ((d.begin c).setSheaf c.hdr.sheafId x).sheavesOpen } := by
  subst opens
  obtain ⟨insideL, clearL⟩ := placedL
  have outsideH : (leAt c.bytes 28 4 * 4096 ≠ 0 && (!Dp.insideTier 0 (leAt c.bytes 32 8) (leAt c.bytes 28 4 * 4096) ||
      d.meetsReserved (leAt c.bytes 32 8) (leAt c.bytes 28 4 * 4096))) = false := by
    obtain none | ⟨insideH, clearH⟩ := placedH
    · simp [none]
    · simp [insideH, clearH]
  have few : ¬ 512 ≤ d.sheavesOpen := Nat.not_le_of_lt room
  simp only [opSheafOpen, form, alignedL, alignedH, insideL, clearL, outsideH, free, few, apartL, apartH, ne_eq,
    not_true_eq_false, decide_false, Bool.not_true, Bool.or_self, Bool.and_false, Bool.false_eq_true, if_false]

variable (form : firstBad (d.sheafActBad c.ring c.hdr c.bytes ++ d.sheafBad c.ring c.hdr .own) = none)
include form

theorem opSheafCommit_opened (opened : (d.sheaf c.hdr.sheafId).state = .opened) : opSheafCommit c d = (d.begin c).wake := by
  simp only [opSheafCommit, form, opened]

theorem opSheafAbort_opened (opened : (d.sheaf c.hdr.sheafId).state = .opened) : opSheafAbort c d = (d.begin c).wake := by
  simp only [opSheafAbort, form, opened]

theorem opSheafAbort_aborted (aborted : (d.sheaf c.hdr.sheafId).state = .aborted) : opSheafAbort c d =
    ((d.begin c).setSheaf c.hdr.sheafId { d.sheaf c.hdr.sheafId with state := .free, cause := 0 }).finished c.uid
      { status := stOK, result := (d.sheaf c.hdr.sheafId).cause } := by
  simp only [opSheafAbort, form, aborted]

end Judgement

/-- Settles O12: an accepted SHEAF_OPEN opens its sheaf; a SHEAF_COMMIT or SHEAF_ABORT that is alone outstanding is woken at
its dispatch, and an aborted sheaf is taken to FREE there. -/
theorem sheavesOpenCommitAbort : Obligations.SheavesOpenCommitAbort := by
  refine ⟨?opening, ?committing, ?aborting⟩
  case opening =>
    intro s n h bs c d o a id x e names form alignedL alignedH insideL clearL placedH free room apartL apartH opens
    subst names
    obtain ⟨begun, -, uid⟩ := e.joined
    obtain ⟨rfl, rfl, ring, -⟩ := e.bytes
    rw [← ring] at form opens
    rw [exec_sheafOpen, e.dispatched,
      opSheafOpen_opens form alignedL alignedH ⟨insideL, clearL⟩ placedH free room apartL apartH opens, begun, uid]
  case committing =>
    intro s n h bs c d o a b id e names quiet form opened free takes
    subst names
    obtain ⟨begun, joined, -⟩ := e.joined
    obtain ⟨sheaf, op, running⟩ := e.record_named (Dp.sheafEn_own form)
    obtain ⟨rfl, rfl, ring, -⟩ := e.bytes
    subst joined
    rw [← ring] at form
    have woken := Dp.wakeRing_join (e.idle quiet n) sheaf running free
    rw [if_pos op, Dp.enterCommit_opened (d := d.join n o) opened takes] at woken
    rw [exec_sheafCommit, e.dispatched, opSheafCommit_opened form opened, ← begun,
      Dp.wake_join (e.idle quiet) woken fun k still => by rw [takes]; exact still]
  case aborting =>
    intro s n h bs c d o a id e names quiet form
    subst names
    obtain ⟨begun, joined, uid⟩ := e.joined
    obtain ⟨sheaf, op, running⟩ := e.record_named (Dp.sheafEn_own form)
    obtain ⟨rfl, rfl, ring, -⟩ := e.bytes
    rw [← ring] at form
    refine ⟨fun opened free => ?_, fun aborted => ?_⟩
    · subst joined
      have woken := Dp.wakeRing_join (e.idle quiet n) sheaf running free
      rw [if_neg (by rw [op]; decide), if_pos op, Dp.enterAbort_opened (d := d.join n o) opened] at woken
      rw [exec_sheafAbort, e.dispatched, opSheafAbort_opened form opened, ← begun,
        Dp.wake_join (e.idle quiet) woken fun k still =>
          (Dp.outst_finished_nil ..).mpr (by rw [Dp.ring_abortSheaf_host]; exact still)]
    · rw [exec_sheafAbort, e.dispatched, opSheafAbort_aborted form aborted, begun, uid]

end Sys2Proof.Machine
end

section
/-!
PROOFS. The starts of ROUTE in its three modes (R288, R292, R299, R304, Table 10.7).
-/
namespace Sys2Proof.Machine

open State

theorem exec_routeDispatch (n : Fin 64) (s : State) : exec (.routeDispatch n) s =
    s.dispatched 0x40 (fun bs => routeMode bs = 0) routeSpans (opRoute Dp.startDispatch) n := rfl

theorem exec_routeRun (n : Fin 64) (s : State) : exec (.routeRun n) s =
    s.dispatched 0x40 (fun bs => routeMode bs = 1) routeSpans (opRoute Dp.startRun) n := rfl

theorem exec_routeCombine (n : Fin 64) (s : State) : exec (.routeCombine n) s =
    s.dispatched 0x40 (fun bs => routeMode bs = 2) routeSpans (opRoute Dp.startCombine) n := rfl

/-- A ROUTE that is not malformed and names no sheaf starts, whatever the start of its mode is. -/
theorem State.Enters.start_route {s : State} {n : Fin 64} {mine : List Byte → Bool} {h : Hdr} {bs : List Byte} {c : OpCtx}
    {d : Dp} {o : Outst} {a : Dp} (e : s.Enters n 0x40 mine routeSpans h bs (d.routeStreams c) c d o a)
    (form : firstBad (RouteP.bad bs ++ d.sheafBad n h .never) = none) (start : Nat → Outst → Dp → Dp) :
    s.dispatched 0x40 mine routeSpans (opRoute start) n = .next (s.left n (start n o a)) := by
  obtain ⟨bytes, hdr, ring, -⟩ := e.bytes
  rw [e.dispatched, opRoute, bytes, hdr, ring, form, e.start_never form]

namespace Dp

variable {n : Nat} {o : Outst} {d t : Dp} {x : RouteIn} {w : Wk}

/-! ### Judgement (Table 10.7) -/

/-- A ROUTE that a row of Table 10.7 refuses ends as that row says. -/
theorem routeJudged_refused {e : Ending} (read : Works (readRoute (d.envOf n o) (parseRoute o.bytes)) d x w)
    (refused : w.d.routeRefusal n o.bytes x = some e) (go : RouteIn → Dp → Dp) :
    routeJudged n o go d = w.d.complete n o.uid e := by
  rw [Works] at read
  simp only [routeJudged, read, refused]

/-- A ROUTE that no row refuses goes on, and its record holds the spans of its buffers. -/
theorem routeJudged_taken (read : Works (readRoute (d.envOf n o) (parseRoute o.bytes)) d x w)
    (taken : w.d.routeRefusal n o.bytes x = none)
    (spans : t = w.d.modOutst n o.uid fun y => { y with spans := w.d.routeSpansOf (parseRoute o.bytes) x })
    (go : RouteIn → Dp → Dp) : routeJudged n o go d = go x t := by
  subst spans
  rw [Works] at read
  simp only [routeJudged, read, taken]

/-! ### DISPATCH (R288, R292, R305) -/

/-- A DISPATCH that has not started is judged once its group is read; then it plays its rows again or is a first one. -/
theorem startDispatch_fresh {r : Dp} {g : Group} (fresh : (d.gen (parseRoute o.bytes).gen).disps.contains o.uid = false)
    (group : GroupRead n o (parseRoute o.bytes).group d g r) : startDispatch n o d =
    routeJudged n o (fun x t => if (parseRoute o.bytes).replay then t.startReplay n o x else t.startFirst n o x g) r := by
  simp only [startDispatch, fresh, Bool.false_eq_true, if_false, withGroup_read group]

/-- A first DISPATCH that finds fewer than 64 generations in use and room in the cribs makes its generation LIVE and hands
its entries to the halves of its ring (R288, R289, R292). -/
theorem startFirst_lives {g : Group} (few : (t.gens.filter fun x => x.2.st ≠ .idle).length < 64)
    (room : t.cribRefusal (receiving (divide (t.halvesOf n) (rankTiles (parseRoute o.bytes).t))) 0 0 = none) :
    t.startFirst n o x g = ((t.setGen (parseRoute o.bytes).gen
      { st := .live, disps := [o.uid], body := o.bytes, space := o.space, members := g.members.map (·.endpoint),
        rank := g.rank, nl := t.nlOf x.table, table := x.table, fill := List.replicate (parseRoute o.bytes).e 0, plays := 1,
        rowB := (parseRoute o.bytes).rowBytes, recvBase := (parseRoute o.bytes).recv, retBase := (parseRoute o.bytes).ret,
        due := (parseRoute o.bytes).rowBytes }).addLists n o.uid 0
      (divide (t.halvesOf n) (rankTiles (parseRoute o.bytes).t))).setPhase o.uid .running := by
  simp only [startFirst, if_neg (Nat.not_le_of_lt few), room]

/-! ### RUN (R299) -/

/-- What a RUN that no row refuses does: it joins its generation, grants the return buffer for rows of its template's width,
and lists the experts that are ready. -/
def joinRun (o : Outst) (x : RouteIn) (t : Dp) : Dp :=
  let q := parseRoute o.bytes
  let g := t.gen q.gen
  let j : RunJob := { uid := o.uid, table := x.table, fill := x.fill, rowB := g.rowB, nl := leAt x.head 36 2, tm := x.tm,
                      ansRow := ansRowOf x.tm, due := g.due }
  progressRun q.gen (((t.setGen q.gen
    { g with runs := g.runs ++ [j], retBase := q.ret, ansCode := some (parseFused x.tm).yConv.code }).grantReturn
      q.gen j.ansRow).setPhase o.uid .running) o.uid

/-- A RUN that has not started is judged, and then joins its generation. -/
theorem startRun_fresh (fresh : ((d.gen (parseRoute o.bytes).gen).job o.uid).isSome = false) :
    startRun n o d = routeJudged n o (joinRun o) d := by
  simp only [startRun, fresh, Bool.false_eq_true, if_false]
  rfl

/-! ### COMBINE (R304) -/

/-- What a COMBINE that no row refuses does: it joins its generation, grants the return buffer for rows of the record's
width, and combines the answers once they are there. -/
def joinCombine (o : Outst) (x : RouteIn) (t : Dp) : Dp :=
  let q := parseRoute o.bytes
  let g : Gen := { t.gen q.gen with combs := (t.gen q.gen).combs ++ [o.uid], retBase := q.ret }
  progressCombine q.gen (((t.setGen q.gen g).grantReturn q.gen (combineRow g q x.head)).setPhase o.uid .running) o.uid

/-- A COMBINE that has not started is judged, and then joins its generation. -/
theorem startCombine_fresh (fresh : (d.gen (parseRoute o.bytes).gen).combs.contains o.uid = false) :
    startCombine n o d = routeJudged n o (joinCombine o) d := by
  simp only [startCombine, fresh, Bool.false_eq_true, if_false]
  rfl

end Dp

/-- Settles O14: a ROUTE of each mode starts, and a start that is new to its generation is judged by Table 10.7 before its
mode's own way is taken. -/
theorem routesStart : Obligations.RoutesStart := by
  refine ⟨?dispatch, ?run, ?combine⟩
  case dispatch =>
    intro s n h bs c d o a q body e form
    obtain ⟨-, -, -, rfl⟩ := e.bytes
    subst body
    refine ⟨(exec_routeDispatch n s).trans (e.start_route form _), ?_⟩
    intro grp r t x w parts fresh group read
    rw [Dp.startDispatch_fresh fresh group]
    refine ⟨fun _ refused => Dp.routeJudged_refused read refused _, fun taken spans divided => ?_⟩
    rw [Dp.routeJudged_taken read taken spans]
    refine ⟨fun replay => if_pos replay, fun first few room => ?_⟩
    subst divided
    rw [first, if_neg Bool.false_ne_true, Dp.startFirst_lives few room]
  case run =>
    intro s n h bs c d o a q body e form
    obtain ⟨-, -, -, rfl⟩ := e.bytes
    subst body
    refine ⟨(exec_routeRun n s).trans (e.start_route form _), ?_⟩
    intro t x w g j fresh read
    rw [Dp.startRun_fresh fresh]
    refine ⟨fun _ refused => Dp.routeJudged_refused read refused _, fun taken spans gen job => ?_⟩
    subst gen job
    exact Dp.routeJudged_taken read taken spans _
  case combine =>
    intro s n h bs c d o a q body e form
    obtain ⟨-, -, -, rfl⟩ := e.bytes
    subst body
    refine ⟨(exec_routeCombine n s).trans (e.start_route form _), ?_⟩
    intro t x w g fresh read
    rw [Dp.startCombine_fresh fresh]
    refine ⟨fun _ refused => Dp.routeJudged_refused read refused _, fun taken spans gen => ?_⟩
    subst gen
    exact Dp.routeJudged_taken read taken spans _

end Sys2Proof.Machine
end

section
/-!
PROOFS. CANCEL of a generation (R306, R307), its count exchanges (R289, R295), the fetches of its experts (R300, R311), and its
all-to-all time-out (R304).
-/
namespace Sys2Proof.Machine

open State

theorem exec_cancel (n : Fin 64) (s : State) : exec (.cancel n) s = s.dispatched 0x41 everyForm noSpans opCancel n := rfl

theorem exec_countExchange (k round : Nat) (counts : List (Bool × Nat × List Nat)) (s : State) :
    exec (.countExchange k round counts) s = s.byPod fun d => d.countExchange k round counts := rfl

theorem exec_expertFetchDone (k l : Nat) (s : State) :
    exec (.expertFetchDone k l) s = s.byUnit fun d => ((d.fetchDone k l).gleanerNext 0).gleanerNext 1 := rfl

theorem exec_a2aTimeout (k : Nat) (s : State) : exec (.a2aTimeout k) s = s.byUnit fun d => d.a2aTimeout k := rfl

namespace Dp

variable {d : Dp} {n k l : Nat} {o : Outst} {g : Gen}

/-! ### CANCEL (R306, R307) -/

/-- A generation that is not LIVE has no record to mark. -/
theorem cancelMark_notLive (still : (d.gen k).st ≠ .live) : d.cancelMark k = pure () := by
  simp only [cancelMark, still, decide_false, Bool.false_and, Bool.false_eq_true, if_false]

/-- A generation that is not LIVE is not retired again. -/
theorem retireGen_notLive (still : (d.gen k).st ≠ .live) : d.retireGen k = d := by
  simp only [retireGen, still, ne_eq, not_false_eq_true, if_true]

/-- A CANCEL of this module's own scope marks the record of its generation and retires it; it answers the credits of a LIVE
one. -/
theorem startCancel_own {w : Wk} (own : (leAt o.bytes 18 1).testBit 0 = false) (gen : k = leAt o.bytes 16 2)
    (mark : Works (d.cancelMark k) d () w) : startCancel n o d = (w.d.retireGen k).finished o.uid
      { status := stOK, result := if (w.d.gen k).st = .live then (w.d.gen k).credits else 0 } := by
  subst gen
  rw [Works] at mark
  simp only [startCancel, own, Bool.false_eq_true, if_false, mark, List.foldl_nil, ite_self]

/-! ### Count exchanges (R289, R295) -/

/-- The exchange of the round that the running DISPATCH of a LIVE generation waits for ends it with CONFLICT where a member
refuses or shows another digest, and assigns the round else (R289, R295). -/
theorem countExchange_judged {counts : List (Bool × Nat × List Nat)} {r : Rounds} {u : Nat} (gen : g = d.gen k)
    (first : g.disps.head? = some u) (found : d.findOutst u = some (n, o)) (rounds : g.rounds = some r) (live : g.st = .live)
    (all : counts.length = g.members.length) (pod : g.members.length ≠ 1) (running : o.phase = .running)
    (going : r.round < g.q.k + g.q.sd) : d.countExchange k r.round counts =
      if counts.any fun x => x.1 || x.2.1 ≠ routeDigest g.q g.table then (d.idleGen k).finished o.uid { status := stConflict }
      else (nextRound n o k (g.q.k + g.q.sd + 1) (d.setGen k (assign g r ((List.range counts.length).map fun p =>
        if p = g.rank then countsOf g r else (counts.getD p (false, 0, [])).2.2)))).endDispatch k := by
  subst gen
  simp only [countExchange, first, Option.bind_some, found, rounds, live, all, pod, running, Nat.not_le_of_lt going, ne_eq,
    not_true_eq_false, decide_false, Bool.or_self, Bool.false_eq_true, if_false]

/-! ### Expert fetches (R300, R311) -/

section Fetches

variable {h : Nat} {f : Fetch} {ps : List (Nat × Leaf)} (gen : g = d.gen k) (half : d.fetchHalf k l = some h)
  (fetch : g.fetching.find? (fun f => f.slot = l) = some f) (range : ps = d.pagesAt g.space f.base f.len)

include gen half fetch range

/-- While a peat channel with lines of an expert's pages is retrained, its fetch waits (R36, R311). -/
theorem fetchDone_retraining (retrained : (ps.any fun p => p.2.res = 1 && d.inRetraining p.2.addr p.2.size) = true) :
    d.fetchDone k l = d := by
  have waits : (ps.any fun p => p.2.res = 1 && (d.inRetraining p.2.addr p.2.size || d.promoting g.space p.1)) = true := by
    obtain ⟨p, mem, held⟩ := List.any_eq_true.mp retrained
    rw [Bool.and_eq_true] at held
    exact List.any_eq_true.mpr ⟨p, mem, by rw [held.1, held.2]; rfl⟩
  subst gen range
  simp only [fetchDone, half, fetch, waits, Bool.or_true, if_true]

/-- A fetch that Gleaner serves, and whose pages find room, leaves its range present and pinned and says so in the expert's
entry; the RUNs that waited for it go on (R300, R301). -/
theorem fetchDone_served {b : Dp} {qs : List (Nat × Leaf)} (served : d.served (.fetch h k l) = true)
    (steady : (ps.any fun p => p.2.res = 1 && (d.inRetraining p.2.addr p.2.size || d.promoting g.space p.1)) = false)
    (present : d.pagesIn h g.space f.start ps = (true, b)) (now : qs = b.pagesAt g.space f.base f.len) :
    d.fetchDone k l = (((b.dropFetch k l).pinRange k qs).pokeTable g.space f.table f.x 29
      (toLe 1 (rangeTier qs) ++ toLe 1 (rangeRes qs))).progressRuns k := by
  subst gen range now
  simp only [fetchDone, half, fetch, served, steady, present, Bool.not_true, Bool.or_self, Bool.false_eq_true, if_false]

end Fetches

/-! ### Time-out (R304) -/

/-- The all-to-all time-out of a LIVE generation ends its ROUTEs, in a group of one its COMBINEs (Table 10.7). -/
theorem a2aTimeout_live (gen : g = d.gen k) (live : g.st = .live) : d.a2aTimeout k =
    (if g.members.length = 1 then g.combs else g.uids).foldl (fun d u => d.endRoute k u { status := stTimeout }) d := by
  subst gen
  simp only [a2aTimeout, live, ne_eq, not_true_eq_false, if_false]

end Dp

/-- A CANCEL that its outcome table accepts starts. -/
theorem State.Enters.start_cancel {s : State} {n : Fin 64} {h : Hdr} {bs : List Byte} {c : OpCtx} {d : Dp} {o : Outst} {a : Dp}
    (e : s.Enters n 0x41 everyForm noSpans h bs [] c d o a) (ac : d.Accepts c (Dp.cancelBad bs) .never false false) :
    exec (.cancel n) s = .next (s.left n (Dp.startCancel n o a)) := by
  obtain ⟨bytes, -, -, -⟩ := e.bytes
  rw [exec_cancel, e.dispatched, opCancel, bytes, Dp.judged_accepted ac, e.start_accepted ac]

/-- Settles O15: a CANCEL's own scope turns on the state of its generation, an exchange on what the members show, a fetch on
the channels of its pages, and the time-out on the size of the group. -/
theorem generationsGoOn : Obligations.GenerationsGoOn := by
  refine ⟨?cancel, ?exchange, ?fetch, ?timeout⟩
  case cancel =>
    intro s n h bs c d o a k g e ac own name gen
    obtain ⟨-, -, -, rfl⟩ := e.bytes
    subst gen
    have cancels {w : Wk} (mark : Dp.Works (a.cancelMark k) a () w) : exec (.cancel n) s =
        .next (s.left n ((w.d.retireGen k).finished o.uid
          { status := stOK, result := if (w.d.gen k).st = .live then (w.d.gen k).credits else 0 })) := by
      rw [e.start_cancel ac, Dp.startCancel_own own name mark]
    refine ⟨fun still => ?_, fun live unsent => ?_, fun w _ mark live => ?_⟩
    · refine (cancels (w := { d := a }) ?_).trans ?_
      · rw [Dp.cancelMark_notLive still]
        exact Dp.works_pure a ()
      · rw [Dp.retireGen_notLive still, if_neg still]
    · refine (cancels (w := { d := a }) ?_).trans ?_
      · rw [Dp.cancelMark_unsent unsent]
        exact Dp.works_pure a ()
      · rw [if_pos live]
    · rw [cancels mark, if_pos live]
  case exchange =>
    intro s k counts g r u n o live gen first found rounds isLive all pod running going
    have judged := (exec_countExchange k r.round counts s).trans (byPod_leaves live
      (Dp.countExchange_judged gen first found rounds isLive all pod running going))
    refine ⟨fun shown => judged.trans ?_, fun agreed => judged.trans ?_⟩
    · rw [if_pos shown]
    · rw [agreed, if_neg Bool.false_ne_true]
  case fetch =>
    intro s k l h g f ps awake gen half fetch range
    refine ⟨fun retrained => ?_, fun b qs served steady present now => ?_⟩
    all_goals refine (exec_expertFetchDone k l s).trans (byUnit_leaves awake ?_)
    · rw [Dp.fetchDone_retraining gen half fetch range retrained]
    · rw [Dp.fetchDone_served gen half fetch range served steady present now]
  case timeout =>
    intro s k g awake gen live
    exact (exec_a2aTimeout k s).trans (byUnit_leaves awake (Dp.a2aTimeout_live gen live))

end Sys2Proof.Machine
end

section
/-!
PROOFS. What the ring engine does by itself: NOP, FENCE, LOG_READ and MON_READ (R326, R327, R341, R342), and descriptors that are
denied at their dispatch (R318, Table 16.9).
-/
namespace Sys2Proof.Machine

open State

/-- What the host's own change leaves, once it is known, while the host is reached. -/
theorem State.byHost_leaves {s : State} {f : Dp → Dp} {d : Dp} (live : s.hostLive = true) (leaves : f s.dp = d) :
    s.byHost f = .next (s.plane d) := by rw [byHost_live live, leaves]

/-! ### NOP (R327) -/

theorem exec_nop (n : Fin 64) (s : State) : exec (.nop n) s = s.dispatched 0x00 everyForm noSpans opNop n := rfl

section Nop

variable {c : OpCtx} {d : Dp}

theorem opNop_completes (one : c.hdr.slots = 1) (plain : c.hdr.sheafEn = false) (zero : zeroAt c.bytes 24 40 = true) :
    opNop c d = d.endNow c { status := stOK, result := leAt c.bytes 16 8 } := by
  simp [opNop, firstBad, Dp.sheafBad, one, plain, zero]

theorem opNop_reserved (one : c.hdr.slots = 1) (plain : c.hdr.sheafEn = false) (set : zeroAt c.bytes 24 40 = false) :
    opNop c d = d.malformed c 24 := by
  simp [opNop, firstBad, Dp.sheafBad, one, plain, set]

/-- The least offending byte of a NOP with a bad slot count or a sheaf is byte 1, whatever its RSV bytes hold. -/
theorem firstBad_nop : ∀ slots zero sheaf : Bool, (slots || sheaf) = true →
    firstBad [(slots, 1), (zero, 24), (sheaf, 1)] = some 1 := by decide

theorem opNop_form (bad : c.hdr.slots ≠ 1 ∨ c.hdr.sheafEn = true) : opNop c d = d.malformed c 1 := by
  have first : firstBad (([(c.hdr.slots ≠ 1, 1), (!zeroAt c.bytes 24 40, 24)] : List (Bool × Nat)) ++
      d.sheafBad c.ring c.hdr .never) = some 1 :=
    firstBad_nop _ _ _ (by simpa only [Bool.or_eq_true, decide_eq_true_eq] using bad)
  rw [opNop, first]

end Nop

/-- Settles O1: each of the three forms of a NOP is one way its judgement ends. -/
theorem nopCompletes : Obligations.NopCompletes := by
  intro s n h bs c d o a e
  obtain ⟨rfl, rfl, -, -⟩ := e.bytes
  have runs := (exec_nop n s).trans (e.dispatched opNop)
  exact ⟨fun one plain zero => by rw [runs, opNop_completes one plain zero],
    fun one plain set => by rw [runs, opNop_reserved one plain set], fun bad => by rw [runs, opNop_form bad]⟩

/-! ### FENCE (R326) -/

theorem exec_fence (n : Fin 64) (s : State) : exec (.fence n) s = s.dispatched 0x01 everyForm noSpans opFence n := rfl

theorem exec_fenceTimeout (n : Fin 64) (s : State) : exec (.fenceTimeout n) s = s.byHost fun d => d.fenceTimeout n := rfl

theorem opFence_begins {c : OpCtx} {d : Dp}
    (form : firstBad (fenceBad c.ring c.hdr c.bytes ++ d.sheafBad c.ring c.hdr .never) = none) : opFence c d = d.begin c := by rw [opFence, form]

namespace Dp

variable {d : Dp} {n : Nat} {o : Outst}

/-- The ring of a FENCE that has begun is blocked. -/
theorem fenced_begin {c : OpCtx} (fence : c.hdr.op = 0x01) : fenced ((d.begin c).ring c.ring) = true := by
  rw [begin, join, ring_setRing_same, fenced, List.any_append, List.any_cons, opened, fence]
  simp

/-- The time-out of the oldest FENCE of a ring, one with a TIMEOUT and a wait not met, ends it (R326). -/
theorem fenceTimeout_ends {i : Nat} (oldest : (d.ring n).outst.find? (fun o => o.op = 0x01 && o.phase = .running) = some o)
    (timed : leAt o.bytes 20 4 ≠ 0) (waits : d.fenceReady n o = false)
    (unmet : i = ((fenceWaits o.bytes).find? fun w => !d.waitDone w.2.1 w.2.2).elim 5 (·.1)) :
    d.fenceTimeout n = d.complete n o.uid { status := stTimeout, detail := 1, result := i, halts := true } := by
  subst unmet
  simp only [fenceTimeout, oldest, timed, waits, decide_false, Bool.or_self, Bool.false_eq_true, if_false]
  cases (fenceWaits o.bytes).find? fun w => !d.waitDone w.2.1 w.2.2 with
  | none => rfl
  | some w => rfl

end Dp

/-- Settles O2: a FENCE that is not malformed begins, and is then what blocks its ring; its time-out ends it. -/
theorem fenceWaitsAndTimesOut : Obligations.FenceWaitsAndTimesOut := by
  refine ⟨?dispatch, ?timeout⟩
  case dispatch =>
    intro s n h bs c d o a e form
    obtain ⟨rfl, rfl, ring, -⟩ := e.bytes
    rw [← ring] at form ⊢
    exact ⟨(exec_fence n s).trans (by rw [e.dispatched, opFence_begins form]), Dp.fenced_begin e.granted.opcode⟩
  case timeout =>
    intro s n o i live oldest timed waits unmet
    exact (exec_fenceTimeout n s).trans (byHost_leaves live (Dp.fenceTimeout_ends oldest timed waits unmet))

/-! ### LOG_READ and MON_READ (R341, R342) -/

theorem exec_logRead (n : Fin 64) (s : State) : exec (.logRead n) s = s.dispatched 0x02 everyForm logReadSpans opLogRead n := rfl

theorem exec_monRead (n : Fin 64) (s : State) : exec (.monRead n) s = s.dispatched 0x03 everyForm monReadSpans opMonRead n := rfl

section Reads

variable {d : Dp} {o : Outst}

/-- A LOG_READ whose copy ends is done, with the entries copied and those written as zeros (R341). -/
theorem startLogRead_copies {m z : Nat} {w : Wk} (copies : Dp.Works (logReadWork (d.envOf m o) o.bytes) d z w) :
    startLogRead m o d = w.d.finished o.uid
      { status := stOK, result := (leAt o.bytes 20 4 - z) % 2 ^ 32 + z % 2 ^ 16 * 2 ^ 32 } := by
  rw [Dp.Works] at copies
  simp only [startLogRead, copies]

/-- A MON_READ whose copy ends is done, with the slots copied (R342). -/
theorem startMonRead_copies {m : Nat} {w : Wk} (copies : Dp.Works (monReadWork (d.envOf m o) o.bytes) d () w) :
    startMonRead m o d = w.d.finished o.uid { status := stOK, result := leAt o.bytes 17 1 } := by
  rw [Dp.Works] at copies
  simp only [startMonRead, copies]

end Reads

/-- Settles O3: both reads start once they are accepted, and are done once their copy ends. -/
theorem logAndMonitorReadsCopy : Obligations.LogAndMonitorReadsCopy := by
  refine ⟨fun s n h bs c d o a e ac => ?log, fun s n h bs c d o a e ac => ?mon⟩
  all_goals obtain ⟨body, -, -, rfl⟩ := e.bytes
  case log =>
    refine ⟨?_, fun _ _ copies => startLogRead_copies copies⟩
    rw [exec_logRead, e.dispatched, opLogRead, body, Dp.judged_accepted ac, e.start_accepted ac]
  case mon =>
    refine ⟨?_, fun _ copies => startMonRead_copies copies⟩
    rw [exec_monRead, e.dispatched, opMonRead, body, Dp.judged_accepted ac, e.start_accepted ac]

/-! ### Descriptors that are denied (R318, Table 16.9) -/

namespace Dp

/-- How a taken descriptor goes on past the security gate: denied with its first offending byte, or as its meaning says (R318). -/
def formJudged (n : Nat) (c : OpCtx) (bad : Option Nat) (body : OpCtx → Dp → Dp) (d : Dp) : Dp :=
  match bad with
  | some ofs => (d.endNow c { status := stDenied, detail := 1, ofs, halts := true }).fetchHalt n
  | none => (body c d).fetchHalt n

/-- A descriptor of a known opcode that every gate of R322 grants is taken, and judged by the security gate first and by its
header and SEQ then. -/
theorem dispatch_judged {d : Dp} {g : Gates} {n op : Nat} {h : Hdr} {bs : List Byte} {more : Dp → Nat → Hdr → List Byte → Bool}
    {spans : List Byte → List Span} {c : OpCtx} (head : d.nextDesc n = some (h, bs)) (opcode : h.op = op)
    (known : knownOp op = true) (program : d.pipeHalts n = none) (ring : d.mayDispatch g n = true)
    (waits : waitMet (d.ring n) h = true) (free : d.heldDesc (d.spaceOf n) h (spans bs) = false) (mine : more d n h bs = true)
    (ctx : c = { g, ring := n, uid := d.nextUid, hdr := h, bytes := bs, spans := spans bs }) (body : OpCtx → Dp → Dp) :
    dispatch g op more spans body n d =
      if secured g op bs then ((d.takeDesc n h).2.endNow c { status := stDenied, detail := 4 }).fetchHalt n
      else formJudged n c (firstBad ((((d.ring n).fpoison.take h.slots).any id, 0) :: (h.seq ≠ (d.ring n).expSeq, 4) :: hdrBad bs))
        body (d.takeDesc n h).2 := by
  subst ctx opcode
  simp only [dispatch, head, program, known, ring, waits, free, mine, ne_eq, not_true_eq_false, decide_false, Bool.false_and,
    Bool.false_eq_true, if_false, if_true, Bool.not_true, Bool.or_self, Bool.false_or]
  rfl

end Dp

/-- Settles O21: a descriptor that every gate grants is taken, and either check denies it. -/
theorem badDescriptorsAreDenied : Obligations.BadDescriptorsAreDenied := by
  intro s n op mine spans body h bs c d live head opcode known row program ring waits free boundary ctx taken
  have judged := Dp.dispatch_judged (more := fun d n h bs => d.scaleGate n h bs && mine bs) head opcode known program ring waits
    free (by rw [boundary, row]; rfl) ctx body
  rw [← taken] at judged
  refine ⟨fun secured => byHost_leaves live (judged.trans ?_), fun ofs passes bad => byHost_leaves live (judged.trans ?_)⟩
  · exact if_pos secured
  · rw [passes, if_neg Bool.false_ne_true, bad, Dp.formJudged]

end Sys2Proof.Machine
end

section
/-!
PROOFS. What the driver and the host do to the rings: doorbells (R320), fetched slots (R321), and RESUME, SKIP and CANCEL
(R336, Table 11.12).
-/
namespace Sys2Proof.Machine

open State

theorem exec_sqTail (n : Fin 64) (t : Nat) (s : State) : exec (.sqTail n t) s = s.byHost fun d => d.sqTail n t := rfl

theorem exec_cqHead (m : Fin 64) (h : Nat) (s : State) : exec (.cqHead m h) s = s.byHost fun d => d.cqHead m h := rfl

theorem exec_nqHead (m : Fin 8) (h : Nat) (s : State) : exec (.nqHead m h) s = s.byHost fun d => d.nqHead m h := rfl

theorem exec_descriptorFetch (n : Fin 64) (slots : List (List Byte × Bool)) (s : State) :
    exec (.descriptorFetch n slots) s = s.byHost fun d => d.descriptorFetch n slots := rfl

theorem exec_resume (n : Fin 64) (s : State) : exec (.resume n) s = s.byHost (Dp.resumeRing · s.gates n) := rfl

theorem exec_skip (n : Fin 64) (s : State) : exec (.skip n) s = s.byHost (Dp.skipRing · s.gates n) := rfl

namespace Dp

variable {d : Dp} {n m : Nat}

/-! ### Doorbells (R320) -/

/-- The three reasons for which a head doorbell is ignored, as its test reads them. -/
theorem headIgnored_iff {on : Bool} {size h used k : Nat} :
    (!on || size ≤ h || used < k) = true ↔ on = false ∨ size ≤ h ∨ used < k := by
  simp only [Bool.or_eq_true, Bool.not_eq_true', decide_eq_true_eq, or_assoc]

theorem headTaken {on : Bool} {size h used k : Nat} (enabled : on = true) (inside : h < size) (holds : k ≤ used) :
    ¬(!on || size ≤ h || used < k) = true := by
  rw [headIgnored_iff, enabled]
  rintro (off | beyond | short)
  · exact Bool.noConfusion off
  · exact Nat.not_le_of_lt inside beyond
  · exact Nat.not_lt_of_le holds short

theorem sqTail_moves {t : Nat} (enabled : d.ringOn n = true) (inside : t < d.sqSize n) : d.sqTail n t = d.setRing n
    { d.ring n with pend := (d.ring n).pend + (t + d.sqSize n - (d.ring n).tail) % d.sqSize n, tail := t } := by
  simp only [sqTail, enabled, Nat.not_le_of_lt inside, Bool.not_true, decide_false, Bool.or_self, Bool.false_eq_true, if_false]

theorem sqTail_ignored {t : Nat} (bad : d.ringOn n = false ∨ d.sqSize n ≤ t) : d.sqTail n t = d.setStat Reg.ringStat 1 :=
  if_pos (by simpa only [Bool.or_eq_true, Bool.not_eq_true', decide_eq_true_eq] using bad)

theorem cqHead_moves {h k : Nat} (span : k = (h + d.cqSize m - (d.cq m).head) % d.cqSize m)
    (enabled : (d.reg (Reg.cqCfg m)).bit 0 = true) (inside : h < d.cqSize m) (holds : k ≤ (d.cq m).used) :
    d.cqHead m h = (d.setCq m { d.cq m with head := h, used := (d.cq m).used - k }).releaseHeld m := by
  subst span
  exact if_neg (headTaken enabled inside holds)

theorem cqHead_ignored {h k : Nat} (span : k = (h + d.cqSize m - (d.cq m).head) % d.cqSize m)
    (bad : (d.reg (Reg.cqCfg m)).bit 0 = false ∨ d.cqSize m ≤ h ∨ (d.cq m).used < k) :
    d.cqHead m h = d.setStat Reg.ringStat 1 := by
  subst span
  exact if_pos (headIgnored_iff.mpr bad)

theorem nqHead_moves {h k : Nat} (span : k = (h + d.nqSize m - (d.nq m).head) % d.nqSize m)
    (enabled : (d.reg (Reg.nqCfg m)).bit 0 = true) (inside : h < d.nqSize m) (holds : k ≤ (d.nq m).used) :
    d.nqHead m h = d.setNq m { d.nq m with head := h, used := (d.nq m).used - k } := by
  subst span
  exact if_neg (headTaken enabled inside holds)

theorem nqHead_ignored {h k : Nat} (span : k = (h + d.nqSize m - (d.nq m).head) % d.nqSize m)
    (bad : (d.reg (Reg.nqCfg m)).bit 0 = false ∨ d.nqSize m ≤ h ∨ (d.nq m).used < k) :
    d.nqHead m h = d.setStat Reg.ringStat 1 := by
  subst span
  exact if_pos (headIgnored_iff.mpr bad)

/-! ### Fetch (R321) -/

/-- A slot of a ring that fetches arrives once its address translates. -/
theorem descriptorFetch_arrives {bs : List Byte} {bad : Bool} {x : Nat} {b : Dp} (enabled : d.ringOn n = true)
    (state : (d.ring n).state = .running ∨ (d.ring n).state = .halted) (faultless : (d.ring n).fetchFault = none)
    (free : d.fetchWaits n = false) (room : 1 ≤ d.fetchSize n)
    (found : d.ringXlate (d.spaceOf n) (d.slotDva n (d.ring n).head) false = (.found x, b)) :
    d.descriptorFetch n [(bs, bad)] = b.slotArrives n bs bad := by
  have fetches : ((d.ring n).state ≠ .running && (d.ring n).state ≠ .halted) = false := by
    obtain running | halted := state
    · rw [running]; rfl
    · rw [halted]; rfl
  simp only [descriptorFetch, enabled, fetches, faultless, free, List.length_singleton, Nat.not_lt_of_le room, Bool.not_true,
    Option.isSome_none, decide_false, Bool.or_self, Bool.false_eq_true, if_false, fetchSlots, found]

/-! ### RESUME and SKIP (R336) -/

section Resume

variable {g : Gates}

theorem resumeRing_resumes (halted : d.resumable g n = true) :
    d.resumeRing g n = (d.unhalt n).restartAll ((d.haltedOf n).map fun x => x.1.uid) := by
  simp only [resumeRing, halted, Bool.not_true, Bool.false_eq_true, if_false]

theorem resumeRing_other (other : d.resumable g n = false) : d.resumeRing g n = d := by
  simp only [resumeRing, other, Bool.not_false, if_true]

/-- SKIP completes the first halted descriptor with the status it halted with; the others go on. -/
theorem skipRing_skips {o : Outst} {h : Halt} {l : List (Outst × Halt)} (halted : d.resumable g n = true)
    (first : d.haltedOf n = (o, h) :: l) : d.skipRing g n =
      (((((d.unhalt n).letGo o.uid).complete n o.uid { status := h.status, detail := h.detail, ofs := h.ofs }).restartAll
        (l.map fun x => x.1.uid)).wake) := by
  simp only [skipRing, halted, first, Bool.not_true, Bool.false_eq_true, if_false, List.head?_cons, List.drop_one, List.tail_cons]

theorem skipRing_other (other : d.resumable g n = false) : d.skipRing g n = d := by
  simp only [skipRing, other, Bool.not_false, if_true]

end Resume

end Dp

/-- A CANCEL of a ring with no request at the maintenance gate has none to withdraw (R336, R477). -/
theorem exec_ringResumeCancel {n : Fin 64} {slots : List (List Byte)} {s : State} (live : s.hostLive = true)
    (unasked : ∀ q ∈ s.mnt.queue ++ s.mnt.arrived, ofRing n q = false) :
    exec (.ringResumeCancel n slots) s = .next (s.turned { s with dp := s.dp.cancelRing n slots }) := by
  have empty : (s.mnt.queue ++ s.mnt.arrived).filter (ofRing n) = [] :=
    List.filter_eq_nil_iff.mpr fun q mem => by rw [unasked q mem]; exact Bool.false_ne_true
  refine congrArg Host.Outcome.next ((allWhen_true s _ live).trans ?_)
  simp only [empty, List.foldl_nil]

/-- Settles O23: each of the three doorbells is taken or ignored by the state of its own ring. -/
theorem doorbellsMove : Obligations.DoorbellsMove := by
  refine ⟨?tail, ?completions, ?notices⟩
  case tail =>
    intro s n t r live ring
    subst ring
    exact ⟨fun enabled inside => (exec_sqTail n t s).trans (byHost_leaves live (Dp.sqTail_moves enabled inside)),
      fun bad => (exec_sqTail n t s).trans (byHost_leaves live (Dp.sqTail_ignored bad))⟩
  case completions =>
    intro s m h k c live ring span
    subst ring
    exact ⟨fun enabled inside holds =>
        (exec_cqHead m h s).trans (byHost_leaves live (Dp.cqHead_moves span enabled inside holds)),
      fun bad => (exec_cqHead m h s).trans (byHost_leaves live (Dp.cqHead_ignored span bad))⟩
  case notices =>
    intro s m h k q live ring span
    subst ring
    exact ⟨fun enabled inside holds =>
        (exec_nqHead m h s).trans (byHost_leaves live (Dp.nqHead_moves span enabled inside holds)),
      fun bad => (exec_nqHead m h s).trans (byHost_leaves live (Dp.nqHead_ignored span bad))⟩

/-- Settles O24: a slot arrives where its address translates, RESUME and SKIP turn on whether the ring is halted, and CANCEL
withdraws nothing where nothing waits at the gate. -/
theorem fetchAndResume : Obligations.FetchAndResume := by
  refine ⟨?fetch, ?resume, fun s n slots live unasked => exec_ringResumeCancel live unasked⟩
  case fetch =>
    intro s n bs bad x b live enabled state faultless free room found
    exact (exec_descriptorFetch n _ s).trans
      (byHost_leaves live (Dp.descriptorFetch_arrives enabled state faultless free room found))
  case resume =>
    intro s n a live unhalted
    subst unhalted
    refine ⟨fun halted => ⟨?_, fun o h l first => ?_⟩, fun other => ⟨?_, ?_⟩⟩
    · exact (exec_resume n s).trans (byHost_leaves live (Dp.resumeRing_resumes halted))
    · exact (exec_skip n s).trans (byHost_leaves live (Dp.skipRing_skips halted first))
    · exact (exec_resume n s).trans (byHost_leaves live (Dp.resumeRing_other other))
    · exact (exec_skip n s).trans (byHost_leaves live (Dp.skipRing_other other))

end Sys2Proof.Machine
end

section
/-!
PROOFS. Completion of descriptors (R324), MSI-X messages (R329), and page request responses (R335, Table 11.11).
-/
namespace Sys2Proof.Machine

open State

theorem exec_descriptorComplete (n : Fin 64) (q : Nat) (s : State) :
    exec (.descriptorComplete n q) s = s.byHost fun d => d.descriptorComplete n q := rfl

theorem exec_msixCoalesceExpiry (v : Fin 72) (s : State) :
    exec (.msixCoalesceExpiry v) s = s.byHost fun d => d.coalesceExpiry v := rfl

theorem exec_priSuccess (g : Fin 512) (s : State) : exec (.priSuccess g) s = s.byHost fun d => d.priSuccess g := rfl

theorem exec_priInvalidRequest (g : Fin 512) (s : State) :
    exec (.priInvalidRequest g) s = s.byHost fun d => d.priFails g 7 := rfl

theorem exec_priTimeout (g : Fin 512) (s : State) : exec (.priTimeout g) s = s.byHost fun d => d.priFails g 8 := rfl

theorem exec_priResponseFailure (g : Fin 512) (s : State) :
    exec (.priResponseFailure g) s = s.byHost fun d => d.priResponseFailure g := rfl

theorem exec_priReset (s : State) : exec .priReset s = s.byHost Dp.priReset := rfl

namespace Dp

variable {d : Dp} {n v : Nat}

/-! ### Completion (R324) -/

/-- Retiring drops the leading completed descriptors and keeps the number of the last of them. -/
theorem retire_eq (l : List (Nat × Nat × Bool)) (q : Nat) : retire l q =
    (l.dropWhile (fun x => x.2.2), ((l.takeWhile fun x => x.2.2).getLast?.map fun x => x.2.1).getD q) := by
  induction l generalizing q with
  | nil => rfl
  | cons x l ih =>
    obtain ⟨uid, seq, completed⟩ := x
    cases completed with
    | false => rfl
    | true =>
      rw [retire, ih, List.dropWhile_cons_of_pos rfl, List.takeWhile_cons_of_pos rfl, List.getLast?_cons]
      cases (l.takeWhile fun x => x.2.2).getLast? with
      | none => rfl
      | some y => rfl

section Complete

variable {q : Nat} {o : Outst} (named : (d.ring n).outst.find? (fun o => o.seq = q) = some o)
  (found : (d.ring n).outst.find? (fun x => x.uid = o.uid) = some o)

include named found

theorem descriptorComplete_finished {e : Ending} (done : o.phase = .finished e) :
    d.descriptorComplete n q = (d.complete n o.uid e).unpinned.wake := by
  simp only [descriptorComplete, lazyEnd, named, found, done]

theorem descriptorComplete_halted {h : Halt} (halted : o.phase = .halted h) : d.descriptorComplete n q = d.unpinned.wake := by
  simp only [descriptorComplete, lazyEnd, named, found, halted]

end Complete

/-! ### MSI-X (R329) -/

theorem coalesceExpiry_asked (quiet : (d.vec v).quiet = true) (asked : (d.vec v).asked = true) :
    d.coalesceExpiry v = (d.setVec v { d.vec v with quiet := false, asked := false }).sendVec v := by
  simp only [coalesceExpiry, quiet, asked, Bool.not_true, Bool.false_eq_true, if_false, if_true]

theorem coalesceExpiry_unasked (quiet : (d.vec v).quiet = true) (unasked : (d.vec v).asked = false) :
    d.coalesceExpiry v = d.setVec v { d.vec v with quiet := false, asked := false } := by
  simp only [coalesceExpiry, quiet, unasked, Bool.not_true, Bool.false_eq_true, if_false]

/-- A masked vector keeps its message pending. -/
theorem sendVec_masked (uncoalesced : d.coalUs v = 0) (masked : (d.vec v).masked = true) :
    d.sendVec v = d.setVec v { d.vec v with pend := true } := by
  rw [sendVec, if_pos masked]
  exact if_pos uncoalesced

theorem sendVec_unmasked (uncoalesced : d.coalUs v = 0) (unmasked : (d.vec v).masked = false) :
    d.sendVec v = { d with outs := d.outs ++ [.msix v (d.vec v).addr (d.vec v).data] } := by
  rw [sendVec, unmasked, if_neg Bool.false_ne_true]
  exact if_pos uncoalesced

end Dp

/-- Settles O30: a completion turns on the phase of its descriptor, the end of an interval on what was asked within it, and a
message on the mask of its vector. -/
theorem descriptorsComplete : Obligations.DescriptorsComplete := by
  refine ⟨?complete, ?interval, fun d v uncoalesced => ⟨Dp.sendVec_unmasked uncoalesced, Dp.sendVec_masked uncoalesced⟩⟩
  case complete =>
    intro s n q o live named found
    exact ⟨fun e done => (exec_descriptorComplete n q s).trans
        (byHost_leaves live (Dp.descriptorComplete_finished named found done)),
      fun h halted => (exec_descriptorComplete n q s).trans
        (byHost_leaves live (Dp.descriptorComplete_halted named found halted))⟩
  case interval =>
    intro s v x live vector quiet
    subst vector
    exact ⟨fun asked => (exec_msixCoalesceExpiry v s).trans (byHost_leaves live (Dp.coalesceExpiry_asked quiet asked)),
      fun unasked => (exec_msixCoalesceExpiry v s).trans (byHost_leaves live (Dp.coalesceExpiry_unasked quiet unasked))⟩

/-- Settles O31, by induction on the descriptors in order of dispatch. -/
theorem doneSeqFollowsOrder : Obligations.DoneSeqFollowsOrder := Dp.retire_eq

namespace Dp

variable {d : Dp}

/-! ### Page request responses (R335, Table 11.11) -/

/-- The data plane without the page request of group `g`. -/
def withoutRequest (d : Dp) (g : Nat) : Dp :=
  { d with mem := { d.mem with pageReqs := d.mem.pageReqs.filter fun x => x.group ≠ g } }

section Answers

variable {g : Nat} {q : PageReq} (asked : d.mem.pageReqs.find? (fun q => q.group = g) = some q)

include asked

/-- The answer to an outstanding request acts on it once it is off the list, and what waited for a group tries again. -/
theorem answerRequest_found (next : PageReq → Dp → Dp) :
    d.answerRequest g next = (next q (d.withoutRequest g)).retryGroups := by
  simp only [answerRequest, asked, withoutRequest]

/-- Success repeats the ATS request; granted, what waited for it goes on. -/
theorem priSuccess_granted {u : Nat} {b : Dp} (work : q.for_ = .work u)
    (granted : (d.withoutRequest g).atsRequest q.space q.page q.write = (true, b)) :
    d.priSuccess g = (b.restartAll (b.stalledOn fun x => x = Stall.request g)).retryGroups := by
  rw [priSuccess, answerRequest_found asked]
  simp only [granted, work]

/-- Success repeats the ATS request; refused, the translation fails with DETAIL 6. -/
theorem priSuccess_refused {b : Dp} (refused : (d.withoutRequest g).atsRequest q.space q.page q.write = (false, b)) :
    d.priSuccess g = (b.requestFails q 6).retryGroups := by
  rw [priSuccess, answerRequest_found asked]
  simp only [refused]

/-- A request that is given up counts, and the translation fails. -/
theorem priFails_found (detail : Nat) :
    d.priFails g detail = (((d.withoutRequest g).bump (Reg.cxdCnt 3)).requestFails q detail).retryGroups :=
  answerRequest_found asked _

/-- A Response Failure stops further page requests before the request is given up. -/
theorem priResponseFailure_found : d.priResponseFailure g =
    ((({ d.withoutRequest g with mem := { (d.withoutRequest g).mem with priStopped := true } } : Dp).bump
      (Reg.cxdCnt 3)).requestFails q 9).retryGroups := by
  have present : (d.mem.pageReqs.any fun q => q.group = g) = true := by
    rw [List.any_eq_true]
    exact ⟨q, List.mem_of_find?_eq_some asked, List.find?_some (p := fun q : PageReq => q.group = g) asked⟩
  rw [priResponseFailure, if_pos present]
  exact priFails_found (d := { d with mem := { d.mem with priStopped := true } }) asked 9

end Answers

/-- Slots whose page request fails are a fetch fault of their ring, which halts before them (R315). -/
theorem requestFails_fetch {q : PageReq} {n : Nat} (slots : q.for_ = .fetch n) (k : Nat) : d.requestFails q k =
    (d.setRing n { d.ring n with
      fetchFault := some { status := stXlate, detail := k, dva := q.dva, space := q.space, write := q.write } }).fetchHalt n := by
  simp only [requestFails, slots]

end Dp

/-- Settles O32: every response takes its request off the list, and then its own row of Table 11.11 says what it does. -/
theorem pageRequestsAnswered : Obligations.PageRequestsAnswered := by
  refine ⟨?answers, fun d q k n slots => Dp.requestFails_fetch slots k, fun s live => byHost_live live Dp.priReset⟩
  intro s g q a live asked off
  subst off
  refine ⟨fun u b work granted => ?_, fun b refused => ?_, ?_, ?_, ?_⟩
  · exact (exec_priSuccess g s).trans (byHost_leaves live (Dp.priSuccess_granted asked work granted))
  · exact (exec_priSuccess g s).trans (byHost_leaves live (Dp.priSuccess_refused asked refused))
  · exact (exec_priInvalidRequest g s).trans (byHost_leaves live (Dp.priFails_found asked 7))
  · exact (exec_priTimeout g s).trans (byHost_leaves live (Dp.priFails_found asked 8))
  · exact (exec_priResponseFailure g s).trans (byHost_leaves live (Dp.priResponseFailure_found asked))

end Sys2Proof.Machine
end

section
/-!
PROOFS. What a COMMIT leaves in the registers of its block, those it keeps among them (R344).
-/
namespace Sys2Proof.Machine

open State

theorem exec_registerCommit {b : Block} {s : State} (live : s.hostLive = true) :
    exec (.registerCommit b) s = .next (s.turned (s.commitBlock b)) :=
  congrArg Host.Outcome.next (allWhen_true s (fun s => s.commitBlock b) live)

namespace Dp

/-! ### A register's turn at a COMMIT (R344) -/

section Turn

variable {b : Block} {kept : List Nat} {d : Dp} {o : Nat} {i : RwInfo}

/-- A register with a new value that is reserved or kept has its value staged again, and its block sets CFG_ERR. -/
theorem commitReg_refused (rw' : rwReg o = some i) (changed : d.regs.stagedVal o ≠ d.reg o)
    (refused : i.reserved (d.regs.stagedVal o) = true ∨ o ∈ kept) :
    commitReg b kept d o = ({ d with regs := d.regs.stage o (d.reg o) } : Dp).setStat b.stat.1 0 := by
  have refuses : (i.reserved (d.regs.stagedVal o) || kept.contains o) = true := by
    simpa only [Bool.or_eq_true, List.contains_iff_mem] using refused
  simp only [commitReg, rw', if_neg changed, refuses, if_true]

/-- A register that has nothing new staged is left alone. -/
theorem commitReg_unchanged (same : d.regs.stagedVal o = d.reg o) : commitReg b kept d o = d := by
  unfold commitReg
  split
  next => rfl
  next => exact if_pos same

/-- What a turn does: nothing, a refusal, or the new value. -/
theorem commitReg_cases (b : Block) (kept : List Nat) (d : Dp) (off : Nat) : commitReg b kept d off = d ∨
    commitReg b kept d off = ({ d with regs := d.regs.stage off (d.reg off) } : Dp).setStat b.stat.1 0 ∨
    commitReg b kept d off = { d with regs := d.regs.commit off (d.regs.stagedVal off) } := by
  cases rw' : rwReg off with
  | none => exact .inl (by rw [commitReg, rw'])
  | some i =>
    by_cases same : d.regs.stagedVal off = d.reg off
    · exact .inl (commitReg_unchanged same)
    · by_cases refused : i.reserved (d.regs.stagedVal off) = true ∨ off ∈ kept
      · exact .inr (.inl (commitReg_refused rw' same refused))
      · have takes : ¬(i.reserved (d.regs.stagedVal off) || kept.contains off) = true := by
          simpa only [Bool.or_eq_true, List.contains_iff_mem] using refused
        exact .inr (.inr (by simp only [commitReg, rw', if_neg same, if_neg takes]))

/-- Setting CFG_ERR leaves it set. -/
theorem cfgErr_setStat (d : Dp) (off : Nat) : ((d.setStat off 0).regs.statVal off).bit 0 = true := by
  rw [statVal_setStat, if_pos rfl, Word.bit, BitVec.toNat_or, Nat.testBit_or]
  exact Bool.or_true _

/-- No turn clears CFG_ERR of the block. -/
theorem cfgErr_commitReg (off : Nat) (err : (d.regs.statVal b.stat.1).bit 0 = true) :
    ((commitReg b kept d off).regs.statVal b.stat.1).bit 0 = true := by
  obtain left | refused | taken := commitReg_cases b kept d off
  · rw [left]; exact err
  · rw [refused]; exact cfgErr_setStat _ _
  · rw [taken]; exact err

/-! ### A whole COMMIT -/

/-- A COMMIT leaves every register that it does not go through, and what is staged for it. -/
theorem commitRegs_other {l : List Nat} (other : o ∉ l) : (l.foldl (commitReg b kept) d).reg o = d.reg o ∧
    (l.foldl (commitReg b kept) d).regs.stagedVal o = d.regs.stagedVal o := by
  induction l generalizing d with
  | nil => exact ⟨rfl, rfl⟩
  | cons off l ih =>
    obtain ⟨head, tail⟩ := not_or.mp (mt List.mem_cons.mpr other)
    obtain ⟨reg, staged⟩ := commitReg_other b kept d head
    rw [← reg, ← staged]
    exact ih tail

/-- A register that has its own value staged keeps both through a COMMIT. -/
theorem commitRegs_settled {v : Word} (reg : d.reg o = v) (staged : d.regs.stagedVal o = v) (l : List Nat) :
    (l.foldl (commitReg b kept) d).reg o = v ∧ (l.foldl (commitReg b kept) d).regs.stagedVal o = v := by
  induction l generalizing d with
  | nil => exact ⟨reg, staged⟩
  | cons off l ih =>
    by_cases same : o = off
    · subst same
      rw [List.foldl_cons, commitReg_unchanged (staged.trans reg.symm)]
      exact ih reg staged
    · obtain ⟨regLeft, stagedLeft⟩ := commitReg_other b kept d same
      exact ih (regLeft.trans reg) (stagedLeft.trans staged)

theorem cfgErr_commitRegs (err : (d.regs.statVal b.stat.1).bit 0 = true) (l : List Nat) :
    ((l.foldl (commitReg b kept) d).regs.statVal b.stat.1).bit 0 = true := by
  induction l generalizing d with
  | nil => exact err
  | cons off l ih => exact ih (cfgErr_commitReg off err)

/-- A COMMIT that goes through a register comes to its first turn with the register, and what is staged for it, as before. -/
theorem commitRegs_turn {l : List Nat} (mem : o ∈ l) : ∃ (e : Dp) (rest : List Nat),
    e.reg o = d.reg o ∧ e.regs.stagedVal o = d.regs.stagedVal o ∧
    l.foldl (commitReg b kept) d = rest.foldl (commitReg b kept) (commitReg b kept e o) := by
  obtain ⟨before, rest, rfl, first⟩ := List.eq_append_cons_of_mem mem
  obtain ⟨reg, staged⟩ := commitRegs_other (b := b) (kept := kept) (d := d) first
  exact ⟨before.foldl (commitReg b kept) d, rest, reg, staged, by rw [List.foldl_append, List.foldl_cons]⟩

/-- A register whose staged value is neither reserved nor kept takes it (R344). -/
theorem commitRegs_taken {l : List Nat} (rw' : rwReg o = some i) (mem : o ∈ l)
    (allowed : i.reserved (d.regs.stagedVal o) = false) (free : o ∉ kept) :
    (l.foldl (commitReg b kept) d).reg o = d.regs.stagedVal o ∧
    (l.foldl (commitReg b kept) d).regs.stagedVal o = d.regs.stagedVal o := by
  obtain ⟨e, rest, -, staged, turn⟩ := commitRegs_turn (b := b) (kept := kept) (d := d) mem
  have new : e.newVal o = d.regs.stagedVal o := by
    simp only [newVal, rw', staged, allowed, Bool.false_eq_true, if_false]
  obtain ⟨holds, restaged⟩ := commitReg_same b kept e rw' free
  rw [turn]
  exact commitRegs_settled (holds.trans new) (restaged.trans new) rest

/-- A register with a new value that is reserved or kept keeps its value, has it staged again, and CFG_ERR is set (R344). -/
theorem commitRegs_refused {l : List Nat} (rw' : rwReg o = some i) (mem : o ∈ l) (changed : d.regs.stagedVal o ≠ d.reg o)
    (refused : i.reserved (d.regs.stagedVal o) = true ∨ o ∈ kept) :
    (l.foldl (commitReg b kept) d).reg o = d.reg o ∧ (l.foldl (commitReg b kept) d).regs.stagedVal o = d.reg o ∧
    ((l.foldl (commitReg b kept) d).regs.statVal b.stat.1).bit 0 = true := by
  obtain ⟨e, rest, reg, staged, turn⟩ := commitRegs_turn (b := b) (kept := kept) (d := d) mem
  rw [turn, commitReg_refused rw' (by rwa [staged, reg]) (by rwa [staged])]
  obtain ⟨holds, restaged⟩ := commitRegs_settled (b := b) (kept := kept) (v := d.reg o)
    (d := ({ e with regs := e.regs.stage o (e.reg o) } : Dp).setStat b.stat.1 0) reg
    ((Regs.stagedVal_stage ..).trans ((if_pos rfl).trans reg)) rest
  exact ⟨holds, restaged, cfgErr_commitRegs (cfgErr_setStat _ _) rest⟩

end Turn

end Dp

/-- A COMMIT of a block whose chapter checks nothing further, and whose fields nothing follows, is the turns of its registers. -/
theorem State.commitBlock_plain {b : Block} (plain : b ∈ [Block.glb, .fab, .spr, .gln, .cxd, .ash, .kln, .otp, .mnt])
    (s : State) : s.commitBlock b = { s with dp := b.regs.foldl (Dp.commitReg b []) s.dp } := by
  simp only [List.mem_cons, List.not_mem_nil, or_false] at plain
  rcases plain with rfl | rfl | rfl | rfl | rfl | rfl | rfl | rfl | rfl
  all_goals rfl

/-- Settles O25: a register is taken or refused at its first turn, and no other turn touches it. -/
theorem commitAppliesStaged : Obligations.CommitAppliesStaged := by
  refine ⟨?turns, ?block⟩
  case turns =>
    intro b kept d t off i whole rw'
    subst whole
    exact ⟨fun mem ⟨allowed, free⟩ => Dp.commitRegs_taken rw' mem allowed free,
      fun mem changed refused => Dp.commitRegs_refused rw' mem changed refused, Dp.commitRegs_other⟩
  case block =>
    intro s b live plain
    rw [exec_registerCommit live, commitBlock_plain plain]
    rfl

end Sys2Proof.Machine
end

section
/-!
PROOFS. The HDM decoder and the host's accesses to its window (R40, R41, R348), and a step with its tick (R346, R353).
-/
namespace Sys2Proof.Machine

open State

/-! ### The HDM decoder and its window (R40, R41, R348) -/

theorem exec_hdmDecoderCommit (s : State) : exec .hdmDecoderCommit s = s.byHost Dp.hdmCommit := rfl

/-- CXL.mem reaches the window once the host is there and Memory_Active is set. -/
theorem exec_hdmWindowAccess {s : State} {x : Nat} {k : HostAccess} {d : Dp} (live : s.hostLive = true)
    (active : s.pwr.memActive = true) (leaves : s.dp.hdmAccess x k = d) : exec (.hdmWindowAccess x k) s = .next (s.plane d) := by
  subst leaves
  exact congrArg Host.Outcome.next (dpWhen_true s (fun d => d.hdmAccess x k) (by rw [live, active]; rfl))

namespace Dp

variable (d : Dp) (a : Nat)

@[simp] theorem snooped_setSnooped (t : Tab (Option Bool)) : (d.setSnooped a t).snooped a = t := by
  by_cases zero : d.halfOf a = 0
  · rw [setSnooped, if_pos zero, snooped]
    exact if_pos zero
  · rw [setSnooped, if_neg zero, snooped]
    exact if_neg zero

@[simp] theorem dpaByte_setSnooped (t : Tab (Option Bool)) (b : Nat) : (d.setSnooped a t).dpaByte b = d.dpaByte b := by
  unfold setSnooped
  split
  next => rfl
  next => rfl

variable {d a}

/-- The host gives a line up (R41). -/
def givesUp (d : Dp) (a : Nat) : Dp := d.setSnooped a (Tab.set (fun _ => none) (d.snooped a) (a / 128) none)

theorem givesUp_eq (d : Dp) (a : Nat) : d.givesUp a = d.setSnooped a (Tab.erase (d.snooped a) (a / 128)) := by
  rw [givesUp, Tab.set, if_pos rfl]

/-- The decoder is committed exactly when its size and its ways are those it must have, and its error says the opposite. -/
theorem hdmCommit_open {ok : Bool} (uncommitted : d.mem.hdmCommitted = false)
    (fits : ok = (d.mem.hdmSize = ((d.reg Reg.memHdm).fld 26 16 + (d.reg Reg.memHdm).fld 8 0) * 2 ^ 30 && d.mem.hdmWays = 0)) :
    d.hdmCommit = { d with mem := { d.mem with hdmCommitted := ok, hdmError := !ok } } := by
  subst fits
  simp only [hdmCommit, uncommitted, Bool.false_eq_true, if_false]

/-- A filter with room comes to hold the line, as modified where it was or is now taken so (R41). -/
theorem hostHolds_room (room : (d.snooped a).length < 4194304) (modified : Bool) : d.hostHolds a modified =
    d.setSnooped a (Tab.set (fun _ => none) (d.snooped a) (a / 128)
      (some ((Tab.get (fun _ => none) (d.snooped a) (a / 128)).getD false || modified))) := by
  simp only [hostHolds, room, decide_true, Bool.true_or, if_true]

section Window

variable {x size : Nat} (committed : d.mem.hdmCommitted = true)
  (window : size = ((d.reg Reg.memHdm).fld 26 16 + (d.reg Reg.memHdm).fld 8 0) * 2 ^ 30)

include committed window

theorem hdmAccess_outside (outside : size ≤ x) (k : HostAccess) : d.hdmAccess x k = d := by
  subst window
  exact if_pos (by rw [committed, decide_eq_true outside]; rfl)

variable (inside : x < size) (address : a = d.windowAt (x / 64 * 64))

include inside address

/-- Inside the window an access is one of the host's four on its line. -/
theorem hdmAccess_inside (k : HostAccess) : d.hdmAccess x k = match k with
    | .shared => d.hostHolds a false
    | .owned => d.hostHolds a true
    | .write bs => (if d.isPoisoned a then d else d.setDpas a (slice bs 0 64)).givesUp a
    | .release => d.givesUp a := by
  have reached : ¬(!d.mem.hdmCommitted || size ≤ x) = true := by
    rw [committed, decide_eq_false (Nat.not_le_of_lt inside)]
    exact Bool.false_ne_true
  rw [window] at reached
  rw [address]
  exact if_neg reached

/-- The host writes 64 bytes back to a line that is not poisoned, and gives it up (R41). -/
theorem hdmAccess_write (clean : d.isPoisoned a = false) (bs : List Byte) :
    d.hdmAccess x (.write bs) = (d.setDpas a (slice bs 0 64)).givesUp a := by
  rw [hdmAccess_inside committed window inside address, clean]
  rfl

/-- The host comes to hold a line, shared or its own (R41). -/
theorem hdmAccess_takes {k : HostAccess} (takes : k = .shared ∨ k = .owned) :
    d.hdmAccess x k = d.hostHolds a (k = .owned) := by
  rw [hdmAccess_inside committed window inside address]
  obtain rfl | rfl := takes
  all_goals rfl

end Window

end Dp

/-- A slice has the length asked for. -/
theorem length_slice (bs : List Byte) (o k : Nat) : (slice bs o k).length = k := by
  rw [slice, List.length_append, List.length_replicate]
  exact Nat.add_sub_cancel' (List.length_take_le _ _)

/-- Settles O33: an access to the committed window is one of the host's four, and the line it names is the one it changes. -/
theorem hdmWindow : Obligations.HdmWindow := by
  refine ⟨?decoder, ?window⟩
  case decoder =>
    intro s ok live uncommitted fits
    exact (exec_hdmDecoderCommit s).trans (byHost_leaves live (Dp.hdmCommit_open uncommitted fits))
  case window =>
    intro s x a k size live active committed window address
    refine ⟨fun outside => ?_, fun inside release => ?_, fun bs inside write clean => ?_, fun inside room takes => ?_⟩
    · exact exec_hdmWindowAccess live active (Dp.hdmAccess_outside committed window outside k)
    · subst release
      exact exec_hdmWindowAccess live active
        ((Dp.hdmAccess_inside committed window inside address .release).trans (Dp.givesUp_eq _ _))
    · subst write
      refine ⟨_, exec_hdmWindowAccess live active (Dp.hdmAccess_write committed window inside address clean bs),
        fun i below => ?_, fun b off => ?_, ?_⟩
      · rw [Dp.givesUp_eq, Dp.dpaByte_setSnooped, Dp.dpaByte_setDpas, length_slice, if_pos (by omega), Nat.add_sub_cancel_left,
          List.getD_eq_getElem?_getD]
      · rw [Dp.givesUp_eq, Dp.dpaByte_setSnooped, Dp.dpaByte_setDpas, length_slice, if_neg (by omega)]
      · rw [Dp.givesUp_eq, Dp.snooped_setSnooped, Tab.get_erase_same]
    · refine ⟨_, exec_hdmWindowAccess live active
        ((Dp.hdmAccess_takes committed window inside address takes).trans (Dp.hostHolds_room room _)), ?_⟩
      rw [Dp.snooped_setSnooped, Tab.get_set_same]

/-! ### A step (R346, R353) -/

namespace Dp

variable {d : Dp}

/-- The servo's check while it runs, or while no offset is left, keeps no offset to slew (R353). -/
theorem ptpLeft_ptpCheck (idle : d.ptpOn = false ∨ d.lnk.ptpLeft = 0) : d.ptpCheck.lnk.ptpLeft = 0 := by
  rw [ptpCheck]
  split
  next on => exact idle.resolve_left (ne_false_of_eq_true on)
  next => rfl

/-- The servo's check leaves both times alone. -/
theorem times_ptpCheck (d : Dp) : d.ptpCheck.elapsed = d.elapsed ∧ d.ptpCheck.now = d.now := by
  rw [ptpCheck]
  split
  next => exact ⟨rfl, rfl⟩
  next => exact ⟨rfl, rfl⟩

/-- The data plane from which a tick moves the time: 10 ns have passed, and the servo's lock has been checked. -/
def ticking (d : Dp) : Dp := ({ d with elapsed := d.elapsed + 10 } : Dp).ptpCheck

theorem elapsed_ticking (d : Dp) : d.ticking.elapsed = d.elapsed + 10 := (times_ptpCheck _).1

theorem now_ticking (d : Dp) : d.ticking.now = d.now := (times_ptpCheck _).2

/-- A servo that runs is left as it is. -/
theorem ticking_on (on : d.ptpOn = true) : d.ticking = { d with elapsed := d.elapsed + 10 } := if_pos on

/-- What a tick slews at a rate in ppm, in 10⁻⁶ ns, with the fraction that earlier ticks have left (R353). -/
def slewed (d : Dp) (ppm : Int) : Int := d.lnk.ptpFrac + (if d.lnk.ptpLeft < 0 then -10 else 10) * ppm

/-- Without an offset a tick adds 10 ns to the time (R346). -/
theorem tick_advances (still : d.ticking.lnk.ptpLeft = 0) :
    d.tick = { d.ticking with now := (d.ticking.now + 10) % 2 ^ 64 } := if_pos still

/-- With an offset left a tick slews it, and the time, by whole nanoseconds (R353). -/
theorem tick_slews (left : d.ticking.lnk.ptpLeft ≠ 0) : ∃ (ppm : Int) (draws : Nat), 0 ≤ ppm ∧ ppm ≤ 100 ∧
    d.tick = { d.ticking with
      draws
      now := ((d.ticking.now + 10 : Int) - (d.ticking.slewed ppm).tdiv 1000000).toNat % 2 ^ 64
      lnk := { d.ticking.lnk with
        ptpFrac := d.ticking.slewed ppm - (d.ticking.slewed ppm).tdiv 1000000 * 1000000
        ptpLeft := d.ticking.lnk.ptpLeft - (d.ticking.slewed ppm).tdiv 1000000 } } :=
  ⟨min 100 (Config.freeNat d.ticking.draws 0), d.ticking.draws + 1,
    Int.le_min.mpr ⟨by decide, Int.natCast_nonneg _⟩, Int.min_le_left _ _, if_neg left⟩

theorem elapsed_tick (d : Dp) : d.tick.elapsed = d.elapsed + 10 := by
  by_cases left : d.ticking.lnk.ptpLeft = 0
  · rw [tick_advances left]
    exact elapsed_ticking d
  · obtain ⟨ppm, draws, -, -, slews⟩ := tick_slews left
    rw [slews]
    exact elapsed_ticking d

/-- While PTP is off or no offset is left, the time follows the clock (R346). -/
theorem now_tick (idle : d.ptpOn = false ∨ d.lnk.ptpLeft = 0) : d.tick.now = (d.now + 10) % 2 ^ 64 := by
  rw [tick_advances (ptpLeft_ptpCheck (d := { d with elapsed := d.elapsed + 10 }) idle), now_ticking]

/-- While an offset is left, the time is slewed toward the source by at most 100 ppm of the tick (R353). -/
theorem tick_toward_source (on : d.ptpOn = true) (left : d.lnk.ptpLeft ≠ 0) : ∃ ppm k : Int, 0 ≤ ppm ∧ ppm ≤ 100 ∧
    d.tick.lnk.ptpFrac + k * 1000000 = d.lnk.ptpFrac + (if d.lnk.ptpLeft < 0 then -10 else 10) * ppm ∧
    d.tick.lnk.ptpLeft = d.lnk.ptpLeft - k ∧ d.tick.now = ((d.now + 10 : Int) - k).toNat % 2 ^ 64 := by
  obtain ⟨ppm, draws, low, high, slews⟩ := tick_slews (d := d) (by rw [ticking_on on]; exact left)
  rw [ticking_on on] at slews
  rw [slews]
  exact ⟨ppm, (d.slewed ppm).tdiv 1000000, low, high, Int.sub_add_cancel _ _, rfl, rfl⟩

end Dp

/-- A step with a command in the queue runs the one at its front. -/
theorem step_command {c : Instr} {l : List Instr} {s : State} (queue : s.pending = c :: l) :
    step s = exec c { s with pending := l } := by rw [step, queue]

/-- A step with an empty queue is a tick. -/
theorem step_idle {s : State} (queue : s.pending = []) : step s = .next s.tick := by rw [step, queue]

/-- Settles O53: a step takes the front of the queue or ticks, and a tick slews exactly while the servo runs with an offset. -/
theorem stepTakesFront : Obligations.StepTakesFront :=
  ⟨fun _ _ _ queue => step_command queue, fun _ queue => step_idle queue,
    fun d => ⟨d.elapsed_tick, Dp.now_tick, Dp.tick_toward_source⟩⟩

end Sys2Proof.Machine
end

section
/-!
PROOFS. The module as a whole: what every command keeps of Kiln and of the queue (R455–R457, R463–R466), and what the commands of
the transport leave alone (R359, R361, R363).
-/
namespace Sys2Proof.Machine

open State

/-! ### What every command keeps -/

/-- What a command may do to Kiln's guards. -/
def waysOf : Instr → Ways
  | .klnTokGo => { token := true, cold := false }
  | .spdmRequest _ (.token _) => { token := true, cold := false }
  | .coldReset => { token := false, cold := true }
  | _ => { token := false, cold := false }

namespace State

/-- Every next state of a result keeps what is to be kept of state `s`. -/
def Keeping (w : Ways) (s : State) (r : Result) : Prop := ∀ t, r = .next t → Keeps w s t

variable {w : Ways} {s t : State}

theorem Keeping.next (k : Keeps w s t) : Keeping w s (.next t) := by
  rintro u ⟨⟩
  exact k

theorem keeping_byHost (f : Dp → Dp) : Keeping w s (s.byHost f) := .next (keeps_dpWhen _ _ _)

theorem keeping_byUnit (f : Dp → Dp) : Keeping w s (s.byUnit f) := .next (keeps_dpWhen _ _ _)

theorem keeping_byPod (f : Dp → Dp) : Keeping w s (s.byPod f) := .next (keeps_dpWhen _ _ _)

theorem keeping_when (ok : Bool) (f : Dp → Dp) : Keeping w s (.next (s.dpWhen ok f)) := .next (keeps_dpWhen _ _ _)

theorem keeping_all {ok : Bool} {f : State → State} (k : ∀ s, Keeps w s (f s)) : Keeping w s (.next (s.allWhen ok f)) :=
  .next (keeps_allWhen fun _ => k s)

/-- Withdrawing what a search of the queue has found. -/
theorem keeps_withdrawFound (u : State) (alike : Keeps w s u) (st : Nat) (found : Option Req) :
    Keeps w s (match found with | some q => u.withdraw st q | none => s) := by
  cases found with
  | none => exact .refl s
  | some q => exact alike.trans (keeps_withdraw u st q)

/-- Closing the debug level keeps Kiln sound. -/
theorem keeps_closeDebug (s : State) : Keeps w s { s with kiln := s.kiln.closeDebug } where
  pending := rfl
  grows := .of_eq rfl rfl rfl
  sound h := ⟨h.gens, Nat.zero_le _, fun e => Nat.noConfusion e, h.ended⟩
  level _ := Nat.zero_le _
  fuse _ := rfl
  shut _ h := h

end State

/-- Whatever a command does, it keeps the queue, and of Kiln all that the ways of it leave. -/
theorem exec_keeps (c : Instr) (s : State) : Keeping (waysOf c) s (exec c s) := by
  cases c
  case sqTail | cqHead | nqHead | descriptorFetch | resume | skip | ringEnable | ringDisable | phxRngWrite | phxTrapArm |
      phxLsLoad | atuInv | atsInvalidation | descriptorComplete | msixCoalesceExpiry | priSuccess | priInvalidRequest |
      priResponseFailure | priTimeout | priReset | hdmDecoderCommit | ashThaw | monRestart | ideIntegrityFailure | fenceTimeout =>
    exact keeping_byHost _
  case nop | fence | logRead | monRead | promote | demote | gemm | copy | gather | scatterAdd | gemmSp | compress | prune | regrow |
      remask | predict | fusedGrg | update | updateAccum | updateNetwork | updateStep | normPartial | normClose | normClosePod |
      recompute | sheafOpen | sheafCommit | sheafAbort | routeDispatch | routeRun | routeCombine | cancel | reduce |
      reduceSteprec | alltoall | send | recv | barrier | snapshotTake | snapshotDrain | snapshotUnlock | restore | maint =>
    exact keeping_byHost _
  case redWaysApply | atuInvComplete | sheafCommitPoint | sheafPromotionEnd | expertFetchDone | a2aTimeout | barrierTimeout |
      snapshotCopy | snapshotCopyDone | snapshotTimeout | listEntryTake | listEntryDone | promotionDone | fpDeadline | netTimeout |
      deadlineExpiry | peerTimeout | stragglerTimeout | correctableError | uncorrectableError | parityRefetch | cribParity |
      flitRetry | flitRetryExhausted | monitorWindowEnd =>
    exact keeping_byUnit _
  case countExchange | data | ack | nak | credit | barrierArrive | barrierRelease | ready | bitmap | abort | cancelFrame |
      fingerprint | verdictMatch | verdictMismatch | shardRet | steprec | connectionResetNak | connectionResetAck |
      frameDiscard | pfcPause | ptpMessage | ackTimer | reorderTimeout | retxTimeout | laneTrainingFail | laneEvent | portUp |
      preemptionVerified =>
    exact keeping_byPod _
  case hdmWindowAccess | hpcCopyDone | ashRead | mctpMonRead => exact keeping_when _ _
  case hbmRt | lRt | pRt | lane | clock | idle | fw | tlrRet | tlrRein | sensor | drain | chRet => exact .next (keeps_turn _ _ _)
  case throttleStart => exact keeping_all fun s => keeps_throttleStart s _ _
  case throttleEscalate => exact keeping_all fun s => keeps_throttleEscalate s _ _
  case throttleEnd => exact keeping_all fun s => keeps_throttleEnd s _ _
  case powerCap => exact keeping_all fun s => keeps_powerCap s _ _ _
  case powerCapRelease => exact keeping_all fun s => keeps_capRelease s _
  case powerExcursion => exact keeping_all fun s => keeps_excursion s _
  case currentLimit => exact keeping_all keeps_currentLimited
  case thermalTrip => exact keeping_all fun s => keeps_thermalTrip s _ _
  case tripSwitchOpen => exact .next (keeps_tripOpens s)
  case seamReopen => exact keeping_all keeps_reopen
  case clockRaiseStep => exact keeping_all fun s => keeps_raiseStep s _
  case overcurrent => exact .next (keeps_overcurrent s)
  case vinOutOfRange => exact keeping_all fun s => keeps_vinOut s _
  case vinCollapse => exact .next (keeps_vinCollapse s _)
  case vinRise => exact .next (keeps_vinRise s _)
  case prechargeDone => exact .next (keeps_prechargeDone s)
  case hearthStart => exact .next (keeps_hearthStart s _)
  case prsntHigh => exact .next (.ite (.refl s) (keeps_powerLoss s _))
  case aux12vLoss => exact .next (keeps_auxLoss s)
  case referenceLost => exact keeping_all keeps_referenceLost
  case rootPllLock => exact .next (keeps_rootLock s)
  case coldReset => exact .next (keeps_coldReset rfl s)
  case memtrainDone => exact .next (keeps_memtrain s)
  case warmReset => exact .next (keeps_warmReset s _)
  case flr => exact .next (keeps_flr s)
  case perstDeassertion => exact .next (keeps_perstRises s)
  case d3hotEntry => exact .next (keeps_d3hotEntry s)
  case d3hotExit => exact .next (keeps_d3hotExit s)
  case pmeStatusClear => exact .next (.ite (.of_eq rfl rfl) (.refl s))
  case watchdogMiss | hearthWatchdogExpiry => exact keeping_all fun s => keeps_fatal s 7
  case halfReset => exact keeping_all fun s => keeps_halfReset s _
  case halfResetExit => exact keeping_all fun s => keeps_halfExit s _
  case registerCommit => exact keeping_all fun s => keeps_commitBlock s _
  case registerWrite => exact .next (keeps_writeReg s _ _ _)
  case ringResumeCancel n slots =>
    exact keeping_all fun s => Keeps.after (t := { s with dp := s.dp.cancelRing n slots })
      (Keeps.foldl (fun s q => keeps_withdraw s stCancelled q) _ _) rfl rfl
  case domain how =>
    cases how with
    | request => exact .next (keeps_turn _ _ _)
    | write => exact keeping_all fun s => keeps_domainWrite s _ _ _
  case fwSwap => exact keeping_all keeps_swap
  case scrub => exact .next (.ite (keeps_turn _ _ _) (keeps_allWhen fun _ => keeps_scrubPass s _))
  case maintActivityEnd => exact keeping_all fun s => keeps_activityEnd s _
  case queueTimeout => exact keeping_all fun s => keeps_withdrawFound (s := s) { s with dp := s.dp.bump (Reg.mntCnt 3) } (.of_eq rfl rfl) stTimeout _
  case mntCancel => exact keeping_all fun s => keeps_withdrawFound s (.refl s) stCancelled _
  case autoRtRequest => exact keeping_all fun s => keeps_autoRetrain s _ _
  case laneRecalRequest => exact keeping_all fun s => keeps_autoAsk s _ _
  case sensorRecalTimer => exact keeping_all fun s => Keeps.foldl (fun s g => keeps_autoAsk s 12 g) _ _
  case otpProg => exact keeping_all fun s => keeps_otpProg s _
  case otpRbAdv => exact keeping_all fun s => keeps_otpRbAdv s _ _
  case klnNonceReq => exact keeping_all keeps_drawNonce
  case klnTokGo => exact keeping_all fun s => keeps_token rfl s _
  case klnDbgClose => exact keeping_all keeps_closeDebug
  case klnRcvGo => exact .next (keeps_recoveryGo s _)
  case spdmRequest tr r => exact keeping_all fun s => keeps_spdm s _ r (by rintro t rfl; rfl)
  case ideKm => exact keeping_all fun s => keeps_ideKey s _ _ _
  case pldmFirmwareUpdate => exact keeping_all fun s => keeps_pldm s _ _
  case entdaa | setEndpointId => exact .next (.ite (.of_eq rfl rfl) (.refl s))
  case monitorSample => exact .next (keeps_sample s _)
  case dbgStokerHalt => exact keeping_all fun s => keeps_stokerHalt s _
  case dbgStokerStep => exact keeping_all fun s => keeps_stokerStep s _
  case debugWindowWrite => exact keeping_all fun s => keeps_windowWrite s _ _ _

/-- A step keeps what its command keeps, and a tick touches neither Kiln nor the queue. -/
theorem step_keeps {s t : State} (stepped : step s = .next t) :
    (∃ (c : Instr) (l : List Instr), s.pending = c :: l ∧ Keeps (waysOf c) { s with pending := l } t) ∨
    (s.pending = [] ∧ t.kiln = s.kiln) := by
  cases queue : s.pending with
  | nil =>
    rw [step_idle queue] at stepped
    obtain ⟨⟩ := stepped
    refine .inr ⟨rfl, ?_⟩
    unfold State.tick
    split
    next => rfl
    next => rfl
  | cons c l => exact .inl ⟨c, l, rfl, exec_keeps c _ t ((step_command queue).symm.trans stepped)⟩

/-- The commands with a way to Kiln's guards: only a token's raises the level or retires, only a cold reset's opens. -/
theorem waysOf_token {c : Instr} (way : (waysOf c).token = true) :
    c = .klnTokGo ∨ ∃ (tr : Fin 2) (b : List Byte), c = .spdmRequest tr (.token b) := by
  unfold waysOf at way
  split at way
  next => exact .inl rfl
  next tr b => exact .inr ⟨tr, b, rfl⟩
  next => exact Bool.noConfusion way
  next => exact Bool.noConfusion way

theorem waysOf_cold {c : Instr} (way : (waysOf c).cold = true) : c = .coldReset := by
  unfold waysOf at way
  split at way
  next => exact Bool.noConfusion way
  next => exact Bool.noConfusion way
  next => rfl
  next => exact Bool.noConfusion way

/-- Settles O57: whatever the front of the queue is, its command takes nothing back. -/
theorem kilnTakesNothingBack : Obligations.KilnTakesNothingBack := by
  intro s t stepped
  obtain ⟨c, l, -, keeps⟩ | ⟨-, kiln⟩ := step_keeps stepped
  · exact keeps.grows
  · rw [kiln]
    exact .refl _

/-- Settles O58: whatever the front of the queue is, its command keeps Kiln sound. -/
theorem kilnStaysSound : Obligations.KilnStaysSound := by
  intro s t sound stepped
  obtain ⟨c, l, -, keeps⟩ | ⟨-, kiln⟩ := step_keeps stepped
  · exact keeps.sound sound
  · rw [kiln]
    exact sound

/-- Settles O60: a command that raises the level or retires the module has the way of a token, and one that opens attestation the
way of a cold reset. -/
theorem trustRisesByTokenOnly : Obligations.TrustRisesByTokenOnly := by
  intro s t stepped
  obtain ⟨c, l, queue, keeps⟩ | ⟨-, kiln⟩ := step_keeps stepped
  · refine ⟨fun risen => ⟨l, ?_⟩, fun closed opened => ⟨l, ?_⟩⟩
    · have way : (waysOf c).token = true := by
        refine Decidable.byContradiction fun lacks => ?_
        obtain raised | ⟨fuse, retired⟩ := risen
        · exact Nat.not_le_of_lt raised (keeps.level (eq_false_of_ne_true lacks))
        · exact Bool.noConfusion (fuse.symm.trans ((keeps.fuse (eq_false_of_ne_true lacks)).symm.trans retired))
      obtain rfl | ⟨tr, b, rfl⟩ := waysOf_token way
      · exact .inl queue
      · exact .inr ⟨tr, b, queue⟩
    · have way : (waysOf c).cold = true := by
        refine Decidable.byContradiction fun lacks => ?_
        exact Bool.noConfusion (opened.symm.trans (keeps.shut (eq_false_of_ne_true lacks) closed))
      rw [queue, waysOf_cold way]
  · rw [kiln]
    refine ⟨fun risen => ?_, fun closed opened => Bool.noConfusion (closed.symm.trans opened)⟩
    obtain raised | ⟨fuse, retired⟩ := risen
    · exact absurd raised (Nat.lt_irrefl _)
    · exact Bool.noConfusion (fuse.symm.trans retired)

/-- Settles O59: after reset no word has a generation, the level is 0, and there is no session. -/
theorem resetMeetsInvariants : Obligations.ResetMeetsInvariants :=
  ⟨Kiln.sound_fresh (fun _ => Nat.zero_le 4) rfl rfl, reset_mem_wf, rfl, rfl, rfl⟩

/-! ### What the commands of the transport leave alone (R359, R361, R363) -/

namespace State

variable {s : State}

/-- While the gate has nothing to do, a change of the links, the time, counts, status bits and the log is the whole of what
follows. -/
theorem Quiet.plane {d : Dp} (quiet : s.Quiet) (change : Dp.Lk s.dp d) : s.plane d = { s with dp := d } := by
  obtain ⟨asks, drains⟩ := quiet
  have rest := change.eq
  exact plane_idle s d (by rw [rest]; exact asks) change.cnt (by rw [rest]; exact drains)

/-- What the pod links' own change leaves while the gate has nothing to do, whether or not frames reach the module. -/
theorem Quiet.byPod {f : Dp → Dp} (quiet : s.Quiet) (change : Dp.Lk s.dp (f s.dp)) :
    ∃ d : Dp, s.byPod f = .next { s with dp := d } ∧ s.dp.Linked d := by
  cases live : s.podLive with
  | true => exact ⟨f s.dp, (byPod_live live f).trans (by rw [quiet.plane change]), change.eq⟩
  | false => exact ⟨s.dp, by rw [State.byPod, dpWhen, live]; rfl, (Dp.Lk.refl _).eq⟩

end State

theorem exec_nak (f : Culm) (s : State) : exec (.nak f) s = s.byPod fun d => (d.rxNak (emberAs f 2 f.aux)).progressPod := rfl

theorem exec_connectionResetNak (f : Culm) (s : State) :
    exec (.connectionResetNak f) s = s.byPod fun d => d.rxResetNak { emberAs f 2 0 with aux2 := 1 } := rfl

namespace Dp

/-- What a peer's restart drops lies in the links. -/
theorem lk_dropUnwritten (d : Dp) (p : Nat) : Lk d (d.dropUnwritten p) := ⟨rfl, rfl⟩

/-- A reset NAK changes the links alone, but for what goes on or ends on the way (R363). -/
theorem rxResetNak_linked (d : Dp) (f : Culm) : ∃ a b : Dp, Lk d a ∧ (Lk a b ∨ Lk a.progressPod b) ∧
    (d.rxResetNak f = b ∨ d.rxResetNak f = b.progressPod) := by
  unfold rxResetNak
  dsimp only
  split
  next => exact ⟨d, d, .refl d, .inl (.refl d), .inl rfl⟩
  next =>
    split
    next => exact ⟨d, d, .refl d, .inl (.refl d), .inl rfl⟩
    next =>
      split
      next => exact ⟨d, _, .refl d, .inl (lk_control d _ _), .inl rfl⟩
      next =>
        split
        next => exact ⟨d, _, .refl d, .inl (lk_answerReset d _ _), .inr rfl⟩
        next => exact ⟨_, _, (lk_unreachable d _).trans (lk_dropUnwritten _ _), .inr (lk_answerReset _ _ _), .inr rfl⟩

end Dp

/-- Settles O54: a command keeps the queue, and of the data plane a command of the transport changes its links alone. -/
theorem commandsLeaveTheRest : Obligations.CommandsLeaveTheRest := by
  refine ⟨?queue, ?plane, ?transport, ?naks⟩
  case queue =>
    intro c s t ran
    exact (exec_keeps c s t ran).pending
  case plane =>
    intro s d ⟨asks, drains⟩ unasked locks cnt
    exact plane_idle s d unasked cnt (by rw [locks]; exact drains)
  case transport =>
    intro c s p k f q on w ofs quiet which
    rcases which with rfl | rfl | rfl | rfl | rfl | rfl | rfl
    · exact quiet.byPod (Dp.lk_ackTimer _ p k)
    · exact quiet.byPod (Dp.lk_reorder _ p k)
    · exact quiet.byPod (Dp.lk_frameDiscard _ w)
    · exact quiet.byPod (Dp.lk_pfc _ q on)
    · exact quiet.byPod (Dp.lk_preempt _ q)
    · exact quiet.byPod (Dp.lk_ptp _ ofs)
    · exact quiet.byPod (Dp.lk_rxResetAck _ _)
  case naks =>
    intro s f live
    refine ⟨⟨_, (exec_nak f s).trans (byPod_live live _), (Dp.lk_rxNak _ _).eq⟩, ?_⟩
    obtain ⟨a, b, first, second, leaves⟩ := s.dp.rxResetNak_linked { emberAs f 2 0 with aux2 := 1 }
    have runs := (exec_connectionResetNak f s).trans (byPod_live live _)
    exact ⟨a, b, first.eq, second.imp (·.eq) (·.eq), leaves.imp (fun e => by rw [runs, e]) (fun e => by rw [runs, e])⟩

end Sys2Proof.Machine
end

section
/-!
PROOFS. The maintenance gate: what conflicts (R475, Table 17.2), and the turn of an activity at it (R474, R476, R477).
-/
namespace Sys2Proof.Machine

open State

/-! ### The conflict matrix (R475) -/

/-- A code past those of Table 17.1 meets every activity freely. -/
theorem ruleAt_large {a b : Nat} (large : 16 ≤ a) : ruleAt a b = .free := by
  unfold ruleAt
  split
  all_goals grind

/-- Two activities of one code meet under no rule of domains or segments. -/
theorem ruleAt_same (n : Nat) : ruleAt n n ≠ .domain ∧ ruleAt n n ≠ .segment := by
  have small : ∀ k : Fin 16, ruleAt k k ≠ .domain ∧ ruleAt k k ≠ .segment := by decide
  by_cases below : n < 16
  · exact small ⟨n, below⟩
  · rw [ruleAt_large (Nat.le_of_not_lt below)]
    decide

/-- Patrol scrub meets every activity freely, whichever has the lower code. -/
theorem ruleAt_scrub (n : Nat) : ruleAt 9 n = .free ∧ ruleAt n 9 = .free := by
  unfold ruleAt
  constructor
  all_goals split
  all_goals grind

theorem conflicts_le {a b : Req} (le : a.act ≤ b.act) : conflicts a b = clash a b := if_pos le

theorem conflicts_lt {a b : Req} (lt : b.act < a.act) : conflicts a b = clash b a := if_neg (Nat.not_le_of_lt lt)

/-- Two halves are the same one. -/
theorem sameHalf_iff {a b : Option Nat} : (a.isSome && decide (a = b)) = true ↔ ∃ h, a = some h ∧ b = some h := by
  cases a with
  | none => simp
  | some h => simp [eq_comm]

/-- Two activities of one code clash in either order alike. -/
theorem clash_comm {a b : Req} (same : a.act = b.act) : clash a b = clash b a := by
  obtain ⟨domain, segment⟩ := ruleAt_same a.act
  unfold clash
  rw [← same]
  cases rule : ruleAt a.act a.act with
  | free => rfl
  | never => rfl
  | same => simp only [eq_comm]
  | half => exact Bool.eq_iff_iff.mpr (by rw [sameHalf_iff, sameHalf_iff]; exact exists_congr fun _ => and_comm)
  | port => simp only [eq_comm]
  | domain => exact absurd rule domain
  | segment => exact absurd rule segment

theorem conflicts_comm (a b : Req) : conflicts a b = conflicts b a := by
  rcases Nat.lt_trichotomy a.act b.act with lt | same | gt
  · rw [conflicts_le (Nat.le_of_lt lt), conflicts_lt lt]
  · rw [conflicts_le (Nat.le_of_eq same), conflicts_le (Nat.le_of_eq same.symm), clash_comm same]
  · rw [conflicts_lt gt, conflicts_le (Nat.le_of_lt gt)]

theorem conflicts_scrub {a b : Req} (scrub : a.act = 9) : conflicts a b = false := by
  obtain ⟨low, high⟩ := ruleAt_scrub b.act
  unfold conflicts clash
  rw [scrub, low, high]
  split <;> rfl

/-- A pair of numbers that are given is there when what is asked of it holds of them. -/
theorem exists_eq_pair {p : Nat → Nat → Prop} {a b : Nat} : (∃ x y, (x = a ∧ y = b) ∧ p x y) ↔ p a b :=
  ⟨fun ⟨_, _, ⟨hx, hy⟩, h⟩ => hx ▸ hy ▸ h, fun h => ⟨a, b, ⟨rfl, rfl⟩, h⟩⟩

/-- Settles O47: the gate asks the running activities, and the matrix is read with the lower code first. -/
theorem conflictsAreSymmetric : Obligations.ConflictsAreSymmetric := by
  refine ⟨?granted, conflicts_comm, ?letters, fun a b scrub => conflicts_scrub scrub, ?matrix⟩
  case granted =>
    intro s q granted r running
    have free := (Bool.and_eq_true_iff.mp granted).2
    rw [Bool.not_eq_true', List.any_eq_false] at free
    exact eq_false_of_ne_true (free r running)
  case letters =>
    intro a b le
    rw [conflicts_le le]
    unfold clash
    cases ruleAt a.act b.act with
    | free => simp
    | never => simp
    | same => simp only []; split <;> simp
    | half => exact sameHalf_iff
    | port => simp
    | domain =>
      by_cases dom : b.act = 7
      · simp [dom]
      · simp [dom]
    | segment =>
      by_cases seg : a.act = 8
      · simp only [seg, if_true, Bool.or_eq_true, Bool.and_eq_true, decide_eq_true_eq, true_and, ne_eq, not_true_eq_false,
          false_and, or_false, exists_eq_pair, or_assoc]
      · simp only [seg, if_false, Bool.or_eq_true, Bool.and_eq_true, decide_eq_true_eq, true_and, ne_eq, not_false_eq_true,
          false_and, false_or, exists_eq_pair, or_assoc]
  case matrix =>
    intro i j code codes
    simp only [codes]
    revert i j
    decide

/-! ### The turn of an activity (R474, R476, R477) -/

/-- A command of an activity is its turn at the gate, where a request for it has arrived. -/
theorem exec_turn {s : State} {i : Instr} {act res : Nat} {q : Req} (turn : turnOf i = some (act, res))
    (oldest : s.mnt.arrived.find? (fun q => q.act = act && q.res = res) = some q) : exec i s = .next (s.turn act res) := by
  unfold turnOf at turn
  split at turn
  case h_9 p =>
    obtain ⟨rfl, rfl⟩ := Prod.mk.inj (Option.some.inj turn)
    refine congrArg Host.Outcome.next (if_pos ?_)
    have wants := List.find?_some oldest
    exact List.any_eq_true.mpr ⟨q, List.mem_of_find?_eq_some oldest, wants⟩
  case h_15 => cases turn
  all_goals
    obtain ⟨rfl, rfl⟩ := Prod.mk.inj (Option.some.inj turn)
    rfl

namespace State

variable {s b : State} {act res : Nat} {q : Req}

/-- A turn judges the request that it finds. -/
theorem exec_judges {i : Instr} (awake : s.awake = true) (turn : turnOf i = some (act, res))
    (oldest : s.mnt.arrived.find? (fun q => q.act = act && q.res = res) = some q) :
    exec i s = .next (s.turned (s.judge act res)) :=
  (exec_turn turn oldest).trans (congrArg Host.Outcome.next (allWhen_true s _ awake))

section Judge

variable (oldest : s.mnt.arrived.find? (fun q => q.act = act && q.res = res) = some q)
  (left : b = { s with mnt := { s.mnt with arrived := s.mnt.arrived.filter fun x => x.num ≠ q.num } })

include oldest left

/-- A segment that fails its checks is denied. -/
theorem judge_denies (fw : act = 8) (bad : s.kiln.segReason res q.bytes ≠ 0) :
    s.judge act res = ({ b with dp := asyncDone s.dp q 0 } : State).report q stDenied (s.kiln.segReason res q.bytes) := by
  subst left fw
  simp only [judge, oldest, bad, ne_eq, not_false_eq_true, if_true]

/-- Every other request is let in, or not, at the gate. -/
theorem judge_letsIn (passes : act = 8 → s.kiln.segReason res q.bytes = 0) : s.judge act res = b.letIn q := by
  subst left
  simp only [judge, oldest]
  split
  next fw => simp only [passes fw, ne_eq, not_true_eq_false, if_false]
  next => rfl

end Judge

theorem letIn_starts (granted : b.grants q = true) : b.letIn q = b.start q false := if_pos granted

theorem letIn_queues (refused : b.grants q = false) (asks : q.queue = true) (there : b.dp.resRetired q = false)
    (room : q.ch = .hearth ∨ b.queued < 16) : b.letIn q = b.enqueue q := by
  have waits : (q.queue && !b.dp.resRetired q && (q.ch = .hearth || b.queued < 16)) = true := by
    rw [asks, there]
    simpa using room
  rw [letIn, refused, if_neg Bool.false_ne_true, if_pos waits]

theorem letIn_refuses (refused : b.grants q = false)
    (bars : q.queue = false ∨ b.dp.resRetired q = true ∨ (q.ch ≠ .hearth ∧ 16 ≤ b.queued)) : b.letIn q = b.refuse q := by
  have waits : (q.queue && !b.dp.resRetired q && (q.ch = .hearth || b.queued < 16)) = false := by
    rcases bars with no | gone | ⟨other, full⟩
    · rw [no, Bool.false_and, Bool.false_and]
    · rw [gone, Bool.not_true, Bool.and_false, Bool.false_and]
    · simp [other, full]
  rw [letIn, refused, if_neg Bool.false_ne_true, waits, if_neg Bool.false_ne_true]

/-- What runs, and what waits, at the gate. -/
def SameTurns (s t : State) : Prop := t.mnt.running = s.mnt.running ∧ t.mnt.queue = s.mnt.queue

theorem SameTurns.trans {a b c : State} (h : SameTurns a b) (k : SameTurns b c) : SameTurns a c :=
  ⟨k.1.trans h.1, k.2.trans h.2⟩

theorem toldQueued_turns (s : State) (q : Req) : SameTurns s (s.toldQueued q) := by
  unfold toldQueued
  split
  all_goals exact ⟨rfl, rfl⟩

theorem steerHalf_turns (s : State) (h : Nat) : SameTurns s (s.steerHalf h) := by
  unfold steerHalf askEpoch
  dsimp only
  split
  next => exact ⟨rfl, rfl⟩
  next =>
    split
    next => split <;> exact ⟨rfl, rfl⟩
    next => exact ⟨rfl, rfl⟩

/-- What an activity does at its start leaves both lists alone. -/
theorem startEffect_turns (s : State) (q : Req) : SameTurns s (s.startEffect q) := by
  unfold startEffect
  split
  case h_3 => exact (steerHalf_turns { s with pwr := s.pwr.setReq q.res q.param } 0).trans (steerHalf_turns _ 1)
  case h_4 => 
    split
    · split <;> exact ⟨rfl, rfl⟩
    · split <;> exact ⟨rfl, rfl⟩
  case h_7 => split <;> exact ⟨rfl, rfl⟩
  all_goals exact ⟨rfl, rfl⟩

theorem start_turns (s : State) (q : Req) :
    SameTurns { s with mnt := { s.mnt with running := s.mnt.running ++ [q] } } (s.start q false) := by
  have told := toldQueued_turns
    { s with mnt := { s.mnt with running := s.mnt.running ++ [q] }, dp := s.dp.bump (Reg.mntCnt 0) } q
  exact SameTurns.trans ⟨told.1, told.2⟩ (startEffect_turns _ q)

theorem enqueue_turns (s : State) (q : Req) :
    SameTurns { s with mnt := { s.mnt with queue := s.mnt.queue ++ [{ q with since := s.dp.now }] } } (s.enqueue q) := by
  have told := toldQueued_turns { s with mnt := { s.mnt with queue := s.mnt.queue ++ [{ q with since := s.dp.now }] } }
    { q with since := s.dp.now }
  exact ⟨told.1, told.2⟩

theorem refuse_turns (s : State) (q : Req) : SameTurns s (s.refuse q) := by
  unfold refuse
  dsimp only
  split
  all_goals exact ⟨rfl, rfl⟩

end State

/-- Settles O46: a turn judges the oldest request that has arrived, and of what runs and waits a start and the queue change
their own list alone. -/
theorem maintenanceTurns : Obligations.MaintenanceTurns := by
  refine ⟨?turn, ?lists⟩
  case turn =>
    intro s b i act res q awake turn oldest left
    have runs := exec_judges awake turn oldest
    refine ⟨fun fw bad => by rw [runs, judge_denies oldest left fw bad], fun passes => ?_⟩
    rw [judge_letsIn oldest left passes] at runs
    have dp : b.dp = s.dp := by rw [left]
    rw [← dp]
    exact ⟨fun granted => by rw [runs, letIn_starts granted], fun refused asks there room => by rw [runs, letIn_queues refused asks there room],
      fun refused bars => by rw [runs, letIn_refuses refused bars]⟩
  case lists =>
    intro s q
    obtain ⟨started, queue⟩ := start_turns s q
    obtain ⟨running, queued⟩ := enqueue_turns s q
    exact ⟨started, queue, running, queued, refuse_turns s q⟩

end Sys2Proof.Machine
end

section
/-!
PROOFS. The ends and requests of maintenance (R414, R468, R477–R479).
-/
namespace Sys2Proof.Machine

open State

/-- What a change of the module leaves, once it is known, while its condition holds. -/
theorem State.allWhen_leaves {s t : State} {ok : Bool} {f : State → State} (live : ok = true) (leaves : f s = t) :
    (.next (s.allWhen ok f) : Result) = .next (s.turned t) := by rw [allWhen_true s f live, leaves]

namespace State

variable {s : State} {k : Nat} {q : Req}

/-! ### Activities that end (R479) -/

theorem activityEnd_ends (running : s.mnt.running.find? (fun q => q.num = k) = some q) (may : s.mayEnd q = true)
    (other : q.act ≠ 14) : s.activityEnd k = ((((s.leave k).endEffect q).report q stOK 0).scan).absorb := by
  simp only [activityEnd, running, may, other, Bool.not_true, Bool.false_eq_true, if_false]

/-- A drain ends with the status its transfer ended in. -/
theorem activityEnd_drained {l : ImageLock} {st : Nat} (running : s.mnt.running.find? (fun q => q.num = k) = some q)
    (may : s.mayEnd q = true) (drain : q.act = 14) (lock : s.dp.locks.find? (fun l => l.base = q.res) = some l)
    (ended : l.ended = some st) : s.activityEnd k =
      ((({ s.leave k with dp := s.dp.drainOver q.res st } : State).report q st 0).scan).absorb := by
  have same : (s.leave k).dp = s.dp := rfl
  simp only [activityEnd, running, may, drain, same, lock, ended, Bool.not_true, Bool.false_eq_true, if_false, if_true,
    Option.bind_some, Option.getD_some]

/-! ### Requests that Hearth makes (R478) -/

/-- Hearth's request for an activity on a resource. -/
def hearthReq (act res : Nat) : Req := { act, res, ch := .hearth, queue := true }

theorem autoAsk_asks {act res : Nat} (auto : (s.dp.reg Reg.mntCtl).bit 1 = true) (fresh : s.asked act res = false) :
    s.autoAsk act res = s.submit (hearthReq act res) := by
  rw [autoAsk, auto, fresh]
  rfl

/-- A request for another resource does not count as one for this. -/
theorem asked_submit_other {act res other : Nat} (ne : other ≠ res) :
    (s.submit (hearthReq act other)).asked act res = s.asked act res := by
  simp [asked, submit, hearthReq, ne]

theorem autoRetrain_asks {act unit : Nat} (unitOk : unit < retrainUnits act)
    (moved : 160 ≤ (s.pwr.sensor (refSensor act unit) - Tab.get (fun _ => 0) s.pwr.trained (act * 64 + unit)).natAbs) :
    s.autoRetrain act unit = s.autoAsk act unit := by
  simp only [autoRetrain, unitOk, moved, decide_true, Bool.and_self, if_true]

/-- One after the other, Hearth asks for what it has not asked for yet, each resource once. -/
theorem autoAsk_each {act : Nat} {l : List Nat} (once : l.Nodup) (auto : (s.dp.reg Reg.mntCtl).bit 1 = true)
    (fresh : ∀ g ∈ l, s.asked act g = false) :
    l.foldl (fun s g => s.autoAsk act g) s = l.foldl (fun s g => s.submit (hearthReq act g)) s := by
  induction l generalizing s with
  | nil => rfl
  | cons g l ih =>
    obtain ⟨new, once⟩ := List.nodup_cons.mp once
    rw [List.foldl_cons, List.foldl_cons, autoAsk_asks auto (fresh g List.mem_cons_self)]
    refine ih once auto fun x mem => ?_
    rw [asked_submit_other fun same : g = x => new (same ▸ mem)]
    exact fresh x (List.mem_cons_of_mem g mem)

/-! ### Domains and scrub (R414, R478) -/

theorem domainWrite_asks {dom : Nat} (below : dom < 50) (alone : domainAlone dom = true) (queue on : Bool) :
    s.domainWrite dom queue on = s.admitNow { act := 7, res := dom, param := if on then 1 else 0, ch := .domain, queue } := by
  simp only [domainWrite, Nat.not_le_of_lt below, alone, decide_false, Bool.not_true, Bool.or_self, Bool.false_eq_true, if_false]

theorem domainWrite_refuses {dom : Nat} (bad : 50 ≤ dom ∨ domainAlone dom = false) (queue on : Bool) :
    s.domainWrite dom queue on = { s with mnt := { s.mnt with domNum := dom, domRes := 3 } } :=
  if_pos (by simpa only [Bool.or_eq_true, decide_eq_true_eq, Bool.not_eq_true'] using bad)

/-- The conditions of a continuous pass, as its test reads them. -/
theorem scrubs_iff {on paused drains : Bool} :
    (on && !paused && !drains) = true ↔ on = true ∧ paused = false ∧ drains = false := by
  simp only [Bool.and_eq_true, Bool.not_eq_true', and_assoc]

theorem scrubPass_counts {p : Nat} (runs : (s.dp.reg Reg.mntScrub).bit (p / 2) = true ∧ s.scrubPaused p = false ∧
    s.gleanerDrains (p % 2) = false) : s.scrubPass p = { s with dp := s.dp.bump (Reg.mntCnt 4) } :=
  if_pos (scrubs_iff.mpr runs)

theorem scrubPass_waits {p : Nat} (waits : (s.dp.reg Reg.mntScrub).bit (p / 2) = false ∨ s.scrubPaused p = true ∨
    s.gleanerDrains (p % 2) = true) : s.scrubPass p = s := by
  refine if_neg fun runs => ?_
  obtain ⟨on, free, first⟩ := scrubs_iff.mp runs
  rcases waits with off | paused | drains
  · exact Bool.noConfusion (on.symm.trans off)
  · exact Bool.noConfusion (free.symm.trans paused)
  · exact Bool.noConfusion (first.symm.trans drains)

/-- While no pass has been asked for through MAINT, SCRUB is the end of a continuous one. -/
theorem exec_scrub {p : Fin 6} (awake : s.awake = true)
    (unasked : (s.mnt.arrived.any fun q => q.act = 9 && q.res = p.val) = false) :
    exec (.scrub p) s = .next (s.turned (s.scrubPass p)) :=
  congrArg Host.Outcome.next ((if_neg (by rw [unasked]; exact Bool.false_ne_true)).trans (allWhen_true s _ awake))

end State

/-- Settles O48: each command is a change of the module that its own rule gives, and a search of the gate's lists finds what it
acts on. -/
theorem maintenanceEnds : Obligations.MaintenanceEnds := by
  refine ⟨?ends, ?withdrawn, ?asked, ?domains, ?swaps, ?scrubs⟩
  case ends =>
    intro s k q awake running may
    exact ⟨fun other => allWhen_leaves awake (activityEnd_ends running may other),
      fun l st drain lock ended => allWhen_leaves awake (activityEnd_drained running may drain lock ended)⟩
  case withdrawn =>
    intro s k q waits
    refine ⟨fun awake other => allWhen_leaves awake ?_, fun live => allWhen_leaves live ?_⟩
    · simp only [other]
    · simp only [waits]
  case asked =>
    intro s k u l awake auto
    refine ⟨fun unitOk fresh moved => allWhen_leaves awake ((autoRetrain_asks unitOk moved).trans (autoAsk_asks auto fresh)),
      fun fresh => allWhen_leaves awake (autoAsk_asks auto fresh), fun fresh => allWhen_leaves awake (autoAsk_each (l := List.range 4) List.nodup_range auto
        fun g mem => fresh g (List.mem_range.mp mem))⟩
  case domains =>
    intro s n w on live
    exact ⟨fun below alone => allWhen_leaves live (domainWrite_asks below alone w on),
      fun bad => allWhen_leaves live (domainWrite_refuses bad w on)⟩
  case swaps =>
    intro s n img awake staged waits
    refine ⟨fun still => allWhen_leaves awake ?_, fun busy => allWhen_leaves awake ?_⟩
    · simp only [swap, staged, waits, still, Bool.not_true, Bool.or_self, Bool.false_eq_true, if_false]
    · simp only [swap, staged, busy, Bool.not_false, Bool.or_true, if_true]
  case scrubs =>
    intro s p awake unasked
    have runs := exec_scrub awake unasked
    exact ⟨fun free => by rw [runs, scrubPass_counts free], fun waits => by rw [runs, scrubPass_waits waits]⟩

end Sys2Proof.Machine
end

section
/-!
PROOFS. Kiln on request: nonces, tokens and the debug level (R463–R466), and one-time memory (R455–R457).
-/
namespace Sys2Proof.Machine

open State

/-! ### Tokens (R463, R464, R466) -/

namespace State

variable {s b : State} {t : List Byte}

/-- An attempt that is not accepted leaves its result alone. -/
theorem token_refused (attempt : b = { s with kiln := { s.kiln with
      nonceOut := false, tokRes := s.kiln.tokenResult s.mnt.staged.isSome t } })
    (refused : s.kiln.tokenResult s.mnt.staged.isSome t ≠ 1) : s.token t = b := by
  subst attempt
  exact if_neg refused

theorem token_accepted (attempt : b = { s with kiln := { s.kiln with
      nonceOut := false, tokRes := s.kiln.tokenResult s.mnt.staged.isSome t } })
    (accepted : s.kiln.tokenResult s.mnt.staged.isSome t = 1) : s.token t = b.tokenActs t := by
  subst attempt
  exact if_pos accepted

theorem tokenActs_debug (debug : leAt t 4 1 = 1) : b.tokenActs t = { b with kiln := b.kiln.setLevel (leAt t 5 1) } :=
  if_pos debug

theorem tokenActs_lifecycle (lifecycle : leAt t 4 1 = 2) : b.tokenActs t = if leAt t 5 1 = 2 then b.retire
    else b.admitNow { act := 13, res := 0, ch := .token, queue := true, bytes := toLe 8 (leAt t 5 1) } :=
  if_neg (by rw [lifecycle]; decide)

end State

/-- A token that is accepted has passed every check of Table 16.8. -/
theorem Kiln.tokenResult_accepts {k : Kiln} {staged : Bool} {t : List Byte} (accepted : k.tokenResult staged t = 1) :
    k.nonceOut = true ∧ slice t 16 32 = k.nonce ∧ leAt t 8 8 = (k.word 3).toNat ∧ k.revoked (leAt t 6 1) = false ∧
    k.role (leAt t 6 1) (leAt t 4 1) = true ∧
    Crypto.verify (Config.slotKey (leAt t 6 1)) (Crypto.sha512 (slice t 0 64)) (slice t 64 64) = true := by
  unfold Kiln.tokenResult at accepted
  dsimp only at accepted
  split at accepted
  next => cases accepted
  next =>
    split at accepted
    next => cases accepted
    next nonce =>
      split at accepted
      next => cases accepted
      next number =>
        split at accepted
        next => cases accepted
        next key =>
          split at accepted
          next => cases accepted
          next signed =>
            simp only [Bool.or_eq_true, Bool.not_eq_true', decide_eq_true_eq, not_or, Bool.not_eq_false, ne_eq,
              Decidable.not_not, Bool.not_eq_true] at nonce number key signed
            exact ⟨nonce.1, nonce.2, number, key.1.1, key.2, signed⟩

/-- Settles O49: KLN_TOK_GO judges the token in its registers, and what an accepted one does follows from its kind. -/
theorem tokensAct : Obligations.TokensAct := by
  refine ⟨fun s live => ⟨allWhen_leaves live rfl, allWhen_leaves live rfl⟩, ?tokens, fun k staged t accepted =>
    Kiln.tokenResult_accepts accepted⟩
  case tokens =>
    intro s b t r live token result attempt
    subst result
    refine ⟨fun refused => ?_, fun accepted debug => ?_, fun accepted lifecycle retires => ?_,
      fun accepted lifecycle other => ?_⟩
    all_goals
      refine allWhen_leaves live ?_
      rw [← token]
    · exact token_refused attempt refused
    · rw [token_accepted attempt accepted, tokenActs_debug debug]
    · rw [token_accepted attempt accepted, tokenActs_lifecycle lifecycle, if_pos retires]
      rfl
    · rw [token_accepted attempt accepted, tokenActs_lifecycle lifecycle, if_neg other]

/-! ### One-time memory (R455–R457) -/

namespace Kiln

/-- A generation of a word with its number, if it is marked. -/
def markedAt (l : List OtpGen) (g : Nat) : Option (Nat × Word) :=
  match l[g]? with
  | some x => if x.valid then some (g, x.data) else none
  | none => none

/-- The live generation of a word, of whose generations it is the last one marked. -/
theorem live_eq (k : Kiln) (i : Nat) :
    k.live i = (List.range (k.gens i).length).reverse.findSome? (markedAt (k.gens i)) := rfl

theorem markedAt_append_left {l : List OtpGen} {g : Nat} (below : g < l.length) (x : OtpGen) :
    markedAt (l ++ [x]) g = markedAt l g := by
  rw [markedAt, List.getElem?_append_left below]
  rfl

theorem markedAt_append_last (l : List OtpGen) (x : OtpGen) :
    markedAt (l ++ [x]) l.length = if x.valid then some (l.length, x.data) else none := by
  rw [markedAt, List.getElem?_concat_length]

/-- A search finds the same where what it asks says the same. -/
theorem findSome_congr {α β : Type} {f g : α → Option β} {l : List α} (same : ∀ a ∈ l, f a = g a) :
    l.findSome? f = l.findSome? g := by
  induction l with
  | nil => rfl
  | cons a l ih =>
    rw [List.findSome?_cons, List.findSome?_cons, same a List.mem_cons_self,
      ih fun x mem => same x (List.mem_cons_of_mem a mem)]

/-- The last generation is the live one once it is marked; until then it changes nothing. -/
theorem lastMarked_append (l : List OtpGen) (x : OtpGen) :
    (List.range (l ++ [x]).length).reverse.findSome? (markedAt (l ++ [x])) =
      if x.valid then some (l.length, x.data) else (List.range l.length).reverse.findSome? (markedAt l) := by
  have earlier : (List.range l.length).reverse.findSome? (markedAt (l ++ [x])) =
      (List.range l.length).reverse.findSome? (markedAt l) :=
    findSome_congr fun g mem => markedAt_append_left (List.mem_range.mp (List.mem_reverse.mp mem)) x
  rw [List.length_append, List.length_singleton, List.range_succ, List.reverse_append, List.reverse_singleton,
    List.singleton_append, List.findSome?_cons, markedAt_append_last, earlier]
  cases x.valid with
  | true => rfl
  | false => rfl

theorem markLast_append (l : List OtpGen) (x : OtpGen) : markLast (l ++ [x]) = l ++ [{ x with valid := true }] := by
  induction l using markLast.induct with
  | case1 => rfl
  | case2 g => rfl
  | case3 g h l ih => simpa [markLast] using ih

theorem gens_progBegin (k : Kiln) (i : Nat) (w : Word) :
    (k.progBegin i w).gens i = k.gens i ++ [{ data := w, valid := false }] := by rw [progBegin, gens_setGens, if_pos rfl]

theorem gens_progEnd (k : Kiln) (i : Nat) (w : Word) :
    ((k.progBegin i w).progEnd i).gens i = k.gens i ++ [{ data := w, valid := true }] := by
  rw [progEnd, gens_setGens, if_pos rfl, gens_progBegin, markLast_append]

theorem word_progBegin (k : Kiln) (i : Nat) (w : Word) : (k.progBegin i w).word i = k.word i := by
  rw [word, word, live_eq, live_eq, gens_progBegin, lastMarked_append]
  rfl

theorem word_progEnd (k : Kiln) (i : Nat) (w : Word) : ((k.progBegin i w).progEnd i).word i = w := by
  rw [word, live_eq, gens_progEnd, lastMarked_append]
  rfl

/-- A word reads as its own generations give it. -/
theorem word_setGens_other (k : Kiln) {i j : Nat} (other : j ≠ i) (l : List OtpGen) : (k.setGens i l).word j = k.word j := by
  rw [word, word, live_eq, live_eq, gens_setGens, if_neg other]

theorem counter_advance (k : Kiln) (n t m : Nat) :
    (k.advance n t).counter m = if m = n then max (k.counter n) t else k.counter m := by
  unfold advance
  split
  next below =>
    rw [counter, Tab.get_set]
    split
    next => exact (Nat.max_eq_right (Nat.le_of_lt below)).symm
    next => rfl
  next above =>
    split
    next same => rw [same, Nat.max_eq_left (Nat.le_of_not_lt above)]
    next => rfl

end Kiln

/-- A field of a word lies below the power of its width. -/
theorem fld_lt (w : Word) (hi lo : Nat) : w.fld hi lo < 2 ^ (hi + 1 - lo) := Nat.mod_lt _ (Nat.two_pow_pos _)

namespace State

variable {s : State} {q : Req}

theorem otpWrite_judged (allowed : s.otpReason q = 0) : s.otpWrite q = s.admitNow q := by
  simp only [otpWrite, allowed, ne_eq, not_true_eq_false, if_false]

/-- A refused write of a word leaves its reason; one of a counter has drawn it (R457). -/
theorem otpWrite_refused (refused : s.otpReason q ≠ 0) : s.otpWrite q =
    if 256 ≤ q.res then { s with dp := s.dp.draw.2, mnt := { s.mnt with otpRes := 3, otpReason := s.otpReason q } }
    else { s with mnt := { s.mnt with otpRes := 3, otpReason := s.otpReason q } } := if_pos refused

theorem otpRbAdv_writes {n t : Nat} (below : n < 6) (some : t ≠ 0) :
    s.otpRbAdv n t = s.otpWrite { act := 13, res := 256 + n, param := t, ch := .otp } := by
  simp only [otpRbAdv, Nat.not_le_of_lt below, some, decide_false, Bool.or_self, Bool.false_eq_true, if_false]

end State

/-- Settles O50: a write is refused with its reason or judged at the gate, and of a word's generations the last one marked is
the one it reads as. -/
theorem oneTimeMemoryIsWritten : Obligations.OneTimeMemoryIsWritten := by
  refine ⟨?word, ?counter, fun k i w => ⟨k.word_progBegin i w, k.word_progEnd i w, fun j other => ?_⟩,
    fun k n t => ⟨?_, fun m other => ?_⟩⟩
  case word =>
    intro s w q live request
    have res : ¬ 256 ≤ q.res := by
      rw [request]
      exact Nat.not_le_of_lt (fld_lt (s.dp.reg Reg.otpIdx) 7 0)
    have writes : s.otpProg w = s.otpWrite q := by
      rw [request]
      rfl
    refine ⟨fun refused => allWhen_leaves live ?_, fun allowed => allWhen_leaves live ?_⟩
    · rw [writes, otpWrite_refused refused, if_neg res]
    · rw [writes, otpWrite_judged allowed]
  case counter =>
    intro s n t q live below positive request
    have res : 256 ≤ q.res := by
      rw [request]
      exact Nat.le_add_right 256 n
    have writes : s.otpRbAdv n t = s.otpWrite q := by rw [request, otpRbAdv_writes below positive]
    refine ⟨fun refused => allWhen_leaves live ?_, fun allowed => allWhen_leaves live ?_⟩
    · rw [writes, otpWrite_refused refused, if_pos res]
      rfl
    · rw [writes, otpWrite_judged allowed]
  · rw [Kiln.progEnd, Kiln.word_setGens_other _ other, Kiln.progBegin, Kiln.word_setGens_other _ other]
  · rw [Kiln.counter_advance, if_pos rfl]
  · rw [Kiln.counter_advance, if_neg other]

end Sys2Proof.Machine
end

section
/-!
PROOFS. Kiln on the links (R452, R459–R461, R465, R468), the sideband, the monitors and the debug window (R441–R444, R504, R505,
R507, R518).
-/
namespace Sys2Proof.Machine

open State

/-- What a change of the data plane leaves, once it is known, while its condition holds. -/
theorem State.dpWhen_leaves {s : State} {d : Dp} {ok : Bool} {f : Dp → Dp} (live : ok = true) (leaves : f s.dp = d) :
    (.next (s.dpWhen ok f) : Result) = .next (s.plane d) := by rw [dpWhen_true s f live, leaves]

namespace State

variable {s : State}

/-! ### SPDM and IDE (R459–R461, R465) -/

theorem signs_open (opened : s.kiln.closed = false) (unretired : s.kiln.retired = false) : s.signs = true := by
  rw [signs, opened, unretired]
  rfl

theorem signs_shut (shut : s.kiln.closed = true ∨ s.kiln.retired = true) : s.signs = false := by
  rw [signs]
  obtain closed | retired := shut
  · rw [closed]
    rfl
  · rw [retired]
    exact Bool.and_false _

/-- A request over DOE needs the host link, one over MCTP does not. -/
theorem exec_spdm {tr : Fin 2} (live : s.kilnLive = true) (doe : tr.val = 0 → s.pwr.link = true ∧ s.pwr.perst = false)
    {r : Spdm} {t : State} (leaves : s.spdm tr r = t) : exec (.spdmRequest tr r) s = .next (s.turned t) := by
  refine allWhen_leaves ?_ leaves
  rw [live, Bool.true_and]
  match tr, doe with
  | 0, doe =>
    obtain ⟨link, perst⟩ := doe rfl
    rw [link, perst]
    rfl
  | 1, _ => rfl

theorem spdm_challenge (tr : Nat) (signs : s.signs = true) : s.spdm tr (.challenge 0) =
    ({ s with dp := { s.dp with draws := s.dp.draws + 1 } } : State).answer
      (.challenge ((List.range 64).map (Config.freeByte s.dp.draws))) := by
  simp only [spdm, signs, Bool.not_true, Bool.false_eq_true, if_false]
  rfl

theorem spdm_keyExchange {tr : Nat} (signs : s.signs = true) (room : (s.kiln.sessions.filter fun x => x.2 = tr).length < 4) :
    s.spdm tr .keyExchange =
      ({ s with kiln := { s.kiln with sessions := s.kiln.sessions ++ [(s.kiln.nextSession, tr)]
                                      nextSession := s.kiln.nextSession + 1 } } : State).answer
        (.session s.kiln.nextSession) := by
  simp only [spdm, signs, Nat.not_le_of_lt room, Bool.not_true, Bool.false_eq_true, if_false]

/-- What would sign, or derive keys, is not answered while attestation is closed or the module RETIRED. -/
theorem spdm_shut {tr : Nat} {r : Spdm} (shut : s.signs = false)
    (signing : r = .challenge 0 ∨ (∃ b, r = .measurements b true) ∨ r = .keyExchange) : s.spdm tr r = s.answer .unspecified := by
  rcases signing with rfl | ⟨b, rfl⟩ | rfl
  all_goals simp only [spdm, shut, ne_eq, not_true_eq_false, Bool.not_false, Bool.not_true, Bool.false_eq_true, if_false, if_true]

theorem ideKey_programs {n k : Nat} {key : List Byte} (session : (n, 0) ∈ s.kiln.sessions) (signs : s.signs = true) :
    s.ideKey n k key = { s with kiln := { s.kiln with ide := Tab.set (fun _ => []) s.kiln.ide k (slice key 0 32) } } :=
  if_pos (by rw [signs, Bool.and_true]; exact List.contains_iff_mem.mpr session)

theorem ideKey_shut {n k : Nat} {key : List Byte} (shut : s.signs = false) : s.ideKey n k key = s :=
  if_neg (by rw [shut, Bool.and_false]; exact Bool.false_ne_true)

/-! ### Recovery and live update (R452, R468) -/

theorem recoveryGo_recovers {l : List (List Byte)} (recovery : s.kiln.recovery = true) (awake : s.awake = true)
    (link : s.pwr.link = true) :
    s.recoveryGo l = { s with kiln := s.kiln.recover l, pwr := { s.pwr with memActive := false } } := by
  simp only [recoveryGo, recovery, awake, link, Bool.not_true, Bool.or_self, Bool.false_eq_true, if_false]

/-- Is a firmware segment on its way. -/
def updating (s : State) : Bool :=
  s.mnt.staged.isSome || (s.mnt.arrived ++ s.mnt.queue ++ s.mnt.running).any fun q => q.act = 8

theorem updating_iff : s.updating = true ↔
    s.mnt.staged.isSome = true ∨ ∃ q ∈ s.mnt.arrived ++ s.mnt.queue ++ s.mnt.running, q.act = 8 := by
  rw [updating, Bool.or_eq_true, List.any_eq_true]
  simp only [decide_eq_true_eq]

theorem pldm_answers {n : Nat} {img : List Byte} (unretired : s.kiln.retired = false) (awake : s.awake = true) :
    s.pldm n img = if s.updating then s.answer .pldmBusy
      else (s.answer .pldmTaken).submit { act := 8, res := n, ch := .pldm, bytes := img } :=
  if_neg (by rw [unretired, awake]; exact Bool.false_ne_true)

theorem kilnLive_of_awake (awake : s.awake = true) : s.kilnLive = true := by
  simp only [State.awake, Bool.and_eq_true] at awake
  obtain ⟨⟨⟨main, -⟩, -⟩, hearth⟩ := awake
  rw [kilnLive, main, hearth]
  rfl

end State

/-- Settles O51: a request reaches Kiln over a live transport, and what it is answered depends on whether Kiln signs. -/
theorem kilnAnswers : Obligations.KilnAnswers := by
  refine ⟨?recovery, ?spdm, ?ide, ?pldm⟩
  case recovery =>
    intro s l recovery awake link
    exact congrArg Host.Outcome.next (recoveryGo_recovers recovery awake link)
  case spdm =>
    intro s tr o l b live doe
    refine ⟨exec_spdm live doe rfl, exec_spdm live doe rfl, fun opened unretired => ?_, fun shut => ?_⟩
    · have signs := signs_open opened unretired
      exact ⟨exec_spdm live doe (spdm_challenge _ signs), fun room => exec_spdm live doe (spdm_keyExchange signs room)⟩
    · have signs := signs_shut shut
      exact ⟨exec_spdm live doe (spdm_shut signs (.inl rfl)), exec_spdm live doe (spdm_shut signs (.inr (.inl ⟨b, rfl⟩))),
        exec_spdm live doe (spdm_shut signs (.inr (.inr rfl)))⟩
  case ide =>
    intro s n k key live link perst
    have reached : (s.kilnLive && s.pwr.link && !s.pwr.perst) = true := by
      rw [live, link, perst]
      rfl
    exact ⟨fun session opened unretired => allWhen_leaves reached (ideKey_programs session (signs_open opened unretired)),
      fun closed => allWhen_leaves reached (ideKey_shut (signs_shut (.inl closed)))⟩
  case pldm =>
    intro s n img unretired awake
    have answers := pldm_answers (n := n) (img := img) unretired awake
    refine ⟨fun unstaged none => allWhen_leaves (kilnLive_of_awake awake) ?_,
      fun busy => allWhen_leaves (kilnLive_of_awake awake) ?_⟩
    · have idle : ¬ s.updating = true := by
        rw [updating_iff, unstaged]
        rintro (staged | ⟨q, mem, update⟩)
        · exact Bool.noConfusion staged
        · exact none q mem update
      rw [answers, if_neg idle]
    · rw [answers, if_pos (updating_iff.mpr busy)]

/-! ### The sideband (R441, R444, R504, R505) -/

namespace Dp

variable {d : Dp} {n k : Nat}

theorem ashRead_answers (inside : n < 4096) (some : 0 < k) (few : k ≤ 8) : d.ashRead n k =
    d.respond (toLe 1 0 ++ toLe 2 d.ash.head ++ toLe 1 (if d.ash.frozen then 1 else 0) ++
      ((List.range k).map fun i => ashBytes (Tab.get (fun _ => none) d.ash.entries ((n + i) % 4096))).flatten) := by
  refine if_neg ?_
  simp only [Bool.or_eq_true, decide_eq_true_eq]
  omega

theorem ashRead_invalid (bad : 4096 ≤ n ∨ k = 0 ∨ 8 < k) : d.ashRead n k = d.respond (toLe 1 2) :=
  if_pos (by simpa only [Bool.or_eq_true, decide_eq_true_eq, or_assoc] using bad)

/-- A monitor's record is answered, and it restarts after that when it is asked to. -/
theorem mctpMonRead_answers (inside : n < 64) (valid : k < 2) : d.mctpMonRead n k =
    if k = 1 then (d.respond (toLe 1 0 ++ d.monRecord n)).monRestart n else d.respond (toLe 1 0 ++ d.monRecord n) := by
  refine if_neg ?_
  simp only [Bool.or_eq_true, decide_eq_true_eq]
  omega

end Dp

/-! ### Monitor samples and the debug window (R442, R507, R518) -/

namespace State

variable {s : State}

/-- A temperature that is not held becomes the sensor's value, and a sample of it. -/
theorem sample_sensor {n : Nat} {v : Int} (awake : s.awake = true) (free : s.held n = false) : s.sample [(8, n, v)] =
    { s with pwr := { s.pwr with sensors := Tab.set (fun _ => 0) s.pwr.sensors n v }
             dp := s.dp.monSample 8 (fun q => q = n) v } := by
  have main : s.pwr.main = true := (Bool.and_eq_true_iff.mp (kilnLive_of_awake awake)).1
  have reported : s.reported (8, n, v) = (8, n, v) := by
    rw [reported, if_pos rfl, reading, free]
    rfl
  have taken : s.takeReading (8, n, v) =
      { s with pwr := { s.pwr with sensors := Tab.set (fun _ => 0) s.pwr.sensors n v } } := by rw [takeReading, if_pos rfl]
  have still : ({ s with pwr := { s.pwr with sensors := Tab.set (fun _ => 0) s.pwr.sensors n v } } : State).awake = true := awake
  have sampled : s.dp.monitorSample [(8, n, v)] = s.dp.monSample 8 (fun q => q = n) v := by
    rw [Dp.monitorSample, List.foldl_cons, List.foldl_nil]
    exact if_pos rfl
  simp only [sample, main, if_true, List.map_cons, List.map_nil, reported, List.foldl_cons, List.foldl_nil, taken, still, sampled]

end State

/-- Settles O52: Hearth answers by its own rules, and the window acts where the level lets it. -/
theorem sidebandServes : Obligations.SidebandServes := by
  refine ⟨?reads, ?addresses, ?sample, ?window⟩
  case reads =>
    intro s n k hearth
    exact ⟨fun inside some few => dpWhen_leaves hearth (Dp.ashRead_answers inside some few),
      fun bad => dpWhen_leaves hearth (Dp.ashRead_invalid bad),
      fun inside => ⟨dpWhen_leaves hearth (Dp.mctpMonRead_answers inside (by decide)),
        dpWhen_leaves hearth (Dp.mctpMonRead_answers inside (by decide))⟩⟩
  case addresses =>
    intro s a e hearth
    exact ⟨congrArg Host.Outcome.next (if_pos hearth), congrArg Host.Outcome.next (if_pos hearth)⟩
  case sample =>
    intro s n v b awake free taken
    subst taken
    exact congrArg Host.Outcome.next (sample_sensor awake free)
  case window =>
    intro s m o z v live
    refine ⟨fun invasive => ⟨allWhen_leaves live ?_, allWhen_leaves live (if_pos invasive), fun low high =>
      allWhen_leaves live (if_pos (by simp [invasive, low, high]))⟩,
      fun other => ⟨allWhen_leaves live (if_neg other), allWhen_leaves live (if_neg other),
        allWhen_leaves live (if_neg (by simp [other]))⟩⟩
    rw [stokerHalt, if_pos invasive, Nat.mod_eq_of_lt m.isLt]

end Sys2Proof.Machine
end

section
/-!
PROOFS. The operations over memory: their canonical form, and what a byte and a line read as after a write (R426).
-/
namespace Sys2Proof.Machine
namespace Dp

variable (d : Dp)

/-- A byte of host memory after a run of bytes has been written: the byte written there, else as before. -/
theorem hostByte_setHosts (a x : Nat) (bs : List Byte) :
    (d.setHosts a bs).hostByte x = if a ≤ x ∧ x < a + bs.length then bs.getD (x - a) 0 else d.hostByte x := by
  induction bs generalizing d a with
  | nil => exact (if_neg (by rw [List.length_nil]; omega)).symm
  | cons b bs ih =>
    rw [setHosts, ih, hostByte_setHost, List.length_cons]
    rcases Nat.lt_trichotomy x a with below | same | above
    · rw [if_neg (by omega), if_neg (by omega), if_neg (by omega)]
    · subst same
      rw [if_neg (by omega), if_pos rfl, if_pos (by omega), Nat.sub_self, List.getD_cons_zero]
    · have next : x - a = (x - (a + 1)) + 1 := by omega
      by_cases inside : x < a + (bs.length + 1)
      · rw [if_pos (by omega), if_pos (by omega), next, List.getD_cons_succ]
      · rw [if_neg (by omega), if_neg (by omega), if_neg (by omega)]

@[simp] theorem dpaByte_poisonLine (a x : Nat) : (d.poisonLine a).dpaByte x = d.dpaByte x := rfl

@[simp] theorem dpaByte_cleanLine (a x : Nat) : (d.cleanLine a).dpaByte x = d.dpaByte x := rfl

/-- A line that has been copied, and its poison. -/
theorem copyLine_eq (src dst : Nat) : d.copyLine src dst =
    if d.isPoisoned src then ((d.keepPast (dst / 128)).setDpas dst (d.dpaBytes src 128)).poisonLine dst
    else ((d.keepPast (dst / 128)).setDpas dst (d.dpaBytes src 128)).cleanLine dst := rfl

/-- A byte of a copied line reads at its new place as it did at the old one (R426). -/
theorem dpaByte_copyLine (src dst : Nat) {i : Nat} (inside : i < 128) :
    (d.copyLine src dst).dpaByte (dst + i) = d.dpaByte (src + i) := by
  have written : ((d.keepPast (dst / 128)).setDpas dst (d.dpaBytes src 128)).dpaByte (dst + i) = d.dpaByte (src + i) := by
    have length : (d.dpaBytes src 128).length = 128 := by rw [dpaBytes, List.length_map, List.length_range]
    rw [dpaByte_setDpas, length, if_pos (by omega), Nat.add_sub_cancel_left, dpaBytes, List.getElem?_map,
      List.getElem?_range inside]
    rfl
  rw [copyLine_eq]
  split
  next => rw [dpaByte_poisonLine, written]
  next => rw [dpaByte_cleanLine, written]

/-- Its poison goes with it. -/
theorem isPoisoned_copyLine (src : Nat) {dst i : Nat} (line : dst % 128 = 0) (inside : i < 128) :
    (d.copyLine src dst).isPoisoned (dst + i) = d.isPoisoned src := by
  have same : (dst + i) / 128 = dst / 128 := by omega
  rw [copyLine_eq]
  split
  next poisoned => rw [isPoisoned_poisonLine, if_pos same, poisoned]
  next clean => rw [isPoisoned_cleanLine, if_pos same, eq_false_of_ne_true clean]

end Dp

/-- Settles O56: each operation over memory writes a table, which keeps its form and reads as it was written. -/
theorem memoryKeepsItsForm : Obligations.MemoryKeepsItsForm := by
  refine ⟨?form, fun d a x l => ⟨?_, d.hostByte_setHosts a x l⟩, fun d a b i _ line inside =>
    ⟨d.dpaByte_copyLine a b inside, d.isPoisoned_copyLine a line inside⟩⟩
  case form =>
    intro d a b n x l host m wf
    exact ⟨Dp.wf_setDpa wf a x, Dp.wf_setHost wf a x, Dp.wf_setDpas wf a l, Dp.wf_setHosts wf a l, Dp.wf_copyLines wf a b n,
      (Dp.storeLine_frame d a host m).1 wf⟩
  · rw [Dp.dpaByte_setDpas, List.getD_eq_getElem?_getD]

end Sys2Proof.Machine
end

section
/-!
PROOFS. Faults: transient ones and the retirement of resources (R423, R429–R431, R461), uncorrectable errors (R425), and FATAL
events (R428).
-/
namespace Sys2Proof.Machine

open State

namespace Dp

variable {d : Dp}

/-! ### Errors of memory and parity (R423, R425) -/

section AtLine

variable {a n i : Nat} {k : ResKind} (resource : d.resourceAt a = some (k, n)) (tier : tierOf a = some i)

include resource

/-- A corrected error of the granary is logged with its slice, and counts for no resource. -/
theorem correctable_granary (y : Nat) : d.correctable true a y = (d.bump (Reg.ashCnt 3)).ashLog
    { time := d.now, cls := 1, code := 3, resource := (d.place a).2, addr := a, data := y } := by
  rw [correctable, resource]
  rfl

include tier

theorem correctable_line (y : Nat) : d.correctable false a y = ((d.bump (Reg.ashCnt 3)).ashLog
    { time := d.now, cls := 1, code := i, resource := n, addr := a, data := y }).countEvent k n := by
  rw [correctable, resource, tier]
  rfl

/-- A line outside the sheaf journal is poisoned, and its loss counted, logged and counted for its resource. -/
theorem lineLost_poisons (outside : inJournal a = false) (y : Nat) :
    d.lineLost false a y = (((d.poisonLine a).bump (Reg.ashCnt 4)).ashLog
      { time := (d.poisonLine a).now, cls := 2, code := i, flags := 4, resource := n, addr := a, data := y }).countEvent k n := by
  rw [lineLost, resource, tier, outside]
  rfl

end AtLine

/-! ### Events of a resource (R429, R430) -/

/-- The events written of a resource are those it reads as. -/
theorem eventsOf_setEvents (k : ResKind) (n : Nat) (l : List Nat) : (d.setEvents k n l).eventsOf k n = l := by
  have gone : (d.ash.events.filter fun x => !(x.1 = k && x.2.1 = n)).find? (fun x => x.1 = k && x.2.1 = n) = none := by
    rw [List.find?_eq_none]
    intro x mem same
    rw [List.mem_filter, same] at mem
    exact Bool.noConfusion mem.2
  cases l with
  | nil =>
    simp only [eventsOf, setEvents, List.isEmpty_nil, if_true, gone, Option.map_none, Option.getD_none]
  | cons t l =>
    simp only [eventsOf, setEvents, List.isEmpty_cons, Bool.false_eq_true, if_false, List.find?_append, gone, Option.none_or,
      List.find?_singleton, decide_true, Bool.and_self, if_true, Option.map_some, Option.getD_some]

section Window

variable {k : ResKind} {n : Nat} {l : List Nat} (counted : d.threshold k ≠ 0) (serves : d.isRetired k n = false)
  (window : l = (d.now :: d.eventsOf k n).filter fun t => d.now ≤ t + (d.reg Reg.ashRetWin).fld 31 0 * 1000000000)

include counted serves window

/-- An event of a resource in service is counted in the window, where its threshold is reached with THR of them. -/
theorem countEvent_eq : d.countEvent k n =
    if l.length < d.threshold k then d.setEvents k n l else (d.setEvents k n []).reachThreshold k n l.length := by
  subst window
  exact if_neg (by rw [serves, decide_eq_false counted]; exact Bool.false_ne_true)

end Window

/-! ### Retirement (R430, R431) -/

theorem tiller_setTiller (t x : Nat) (v : Tiller) : (d.setTiller t v).tiller x = if x = t then v else d.tiller x :=
  Tab.get_set ..

/-- The end of a pseudo-channel's copy counts it for its half, and reports its retirement (R431). -/
theorem hpcCopyDone_retires {c k : Nat} {a : Ash} (copy : d.ash.hpcCopy.find? (fun x => x.1 = c) = some (c, k))
    (counted : a = { d.ash with hpcCopy := d.ash.hpcCopy.filter fun x => x.1 ≠ c
                                hpcCount0 := d.ash.hpcCount0 + (if c / 512 = 0 then 1 else 0)
                                hpcCount1 := d.ash.hpcCount1 + (if c / 512 = 0 then 0 else 1) }) :
    d.hpcCopyDone c = ({ d with ash := a } : Dp).retired .hpc c k := by
  subst counted
  simp only [hpcCopyDone, copy]
  split
  next => rfl
  next => rfl

/-- An emptied tiller holds no entry, and the others hold theirs. -/
theorem tiller_emptyTiller (t : Nat) : ((d.emptyTiller t).tiller t).ctxs = [] ∧
    ((d.emptyTiller t).tiller t).retired = (d.tiller t).retired ∧ ∀ x, x ≠ t → (d.emptyTiller t).tiller x = d.tiller x := by
  have none : (d.tiller t).ctxs.filter (fun _ => !true) = [] := List.filter_eq_nil_iff.mpr fun _ _ => Bool.false_ne_true
  have all : (d.tiller t).ctxs.filter (fun _ => true) = (d.tiller t).ctxs := List.filter_eq_self.mpr fun _ _ => rfl
  unfold emptyTiller returnFrom
  dsimp only
  split
  next empty => exact ⟨List.isEmpty_iff.mp (all ▸ empty), rfl, fun _ _ => rfl⟩
  next =>
    have left (x : Nat) : (d.setTiller t { d.tiller t with ctxs := (d.tiller t).ctxs.filter fun _ => !true }).tiller x =
        if x = t then { d.tiller t with ctxs := [] } else d.tiller x := by
      rw [tiller_setTiller, none]
    refine ⟨?_, ?_, fun x other => ?_⟩
    · exact (congrArg Tiller.ctxs (left t)).trans (by rw [if_pos rfl])
    · exact (congrArg Tiller.retired (left t)).trans (by rw [if_pos rfl])
    · exact (left x).trans (if_neg other)

/-- A tiller that reaches its threshold under ASH_RET_CTL bit 6 is emptied, taken out of service and reported (R430). -/
theorem reachThreshold_retires {t : Nat} (enabled : (d.reg Reg.ashRetCtl).bit 6 = true) (serves : (d.tiller t).retired = false)
    (k : Nat) : ∃ u : Dp, d.reachThreshold .tiller t k = (u.retired .tiller t k).haltStranded ∧ (u.tiller t).retired = true ∧
      (u.tiller t).ctxs = [] ∧ ∀ x, x ≠ t → u.tiller x = d.tiller x := by
  obtain ⟨empty, -, others⟩ := d.tiller_emptyTiller t
  have same := tiller_setTiller (d := d.emptyTiller t) t t { (d.emptyTiller t).tiller t with retired := true }
  rw [if_pos rfl] at same
  refine ⟨(d.emptyTiller t).setTiller t { (d.emptyTiller t).tiller t with retired := true }, ?_, ?_, ?_, fun x other => ?_⟩
  · rw [reachThreshold, if_pos enabled, retireTiller, if_neg (by rw [serves]; exact Bool.false_ne_true)]
  · rw [same]
  · rw [same, empty]
  · rw [tiller_setTiller, if_neg other, others x other]

/-! ### FATAL events (R428) -/

/-- The data plane after the entry of a FATAL event, which freezes the log under ASH_CTL bit 0 (R440). -/
def fatalLogged (d : Dp) (k : Nat) : Dp :=
  if d.ash.frozen then d.bump (Reg.ashCnt 2)
  else if (d.reg Reg.ashCtl).bit 0 then
    { d.ashWrite { time := d.now, cls := 7, code := k, flags := 1 } with ash :=
      { (d.ashWrite { time := d.now, cls := 7, code := k, flags := 1 }).ash with frozen := true, fatalIdx := d.ash.head } }
  else d.ashWrite { time := d.now, cls := 7, code := k, flags := 1 }

/-- The data plane after the notice of a FATAL event. -/
def fatalNoted (d : Dp) (k : Nat) : Dp :=
  ((d.fatalLogged k).notice 12 k none (toLe 8 d.now ++ toLe 2 (if d.ash.frozen then d.ash.fatalIdx else d.ash.head))).setStat
    Reg.glbStat 1

@[simp] theorem now_ashWrite (d : Dp) (e : AshEntry) : (d.ashWrite e).now = d.now := rfl

@[simp] theorem reg_ashWrite (d : Dp) (e : AshEntry) (o : Nat) : (d.ashWrite e).reg o = d.reg o := rfl

/-- An entry of class 7 is written unless the log is frozen (R439, R440). -/
theorem ashLog_fatal {e : AshEntry} (fatal : e.cls = 7) :
    d.ashLog e = if d.ash.frozen then d.bump (Reg.ashCnt 2) else d.ashWrite e := by
  simp only [ashLog, fatal]
  rfl

/-- How a FATAL event goes on once its entry is settled. -/
theorem fatal_eq (d : Dp) (k : Nat) : d.fatal k =
    if ((d.fatalNoted k).reg Reg.glbCtl).bit 1 then (List.range 64).foldl (fun d n => d.haltBefore n 0 k) (d.fatalNoted k)
    else d.fatalNoted k := by
  cases frozen : d.ash.frozen with
  | true => simp only [fatal, fatalNoted, fatalLogged, frozen, ashLog_fatal, bump_now, if_true, Bool.not_true, Bool.false_and,
      Bool.false_eq_true, if_false]
  | false =>
    cases freezes : (d.reg Reg.ashCtl).bit 0 with
    | true => simp only [fatal, fatalNoted, fatalLogged, frozen, ashLog_fatal, reg_ashWrite, now_ashWrite, freezes, Bool.not_false,
        Bool.and_self, Bool.false_eq_true, if_false, if_true]
    | false => simp only [fatal, fatalNoted, fatalLogged, frozen, ashLog_fatal, reg_ashWrite, now_ashWrite, freezes,
        Bool.and_false, Bool.false_eq_true, if_false]

/-- The entry of a FATAL event stands at the head of the log it finds thawed. -/
theorem fatalLogged_entry {k : Nat} (thawed : d.ash.frozen = false) :
    Tab.get (fun _ => none) (d.fatalLogged k).ash.entries d.ash.head = some { time := d.now, cls := 7, code := k, flags := 1 } := by
  have written : Tab.get (fun _ => none) (d.ashWrite { time := d.now, cls := 7, code := k, flags := 1 }).ash.entries d.ash.head =
      some { time := d.now, cls := 7, code := k, flags := 1 } := by
    rw [ashWrite, bump_ash, Tab.get_set_same]
  unfold fatalLogged
  rw [if_neg (by rw [thawed]; exact Bool.false_ne_true)]
  split
  next => exact written
  next => exact written

end Dp

/-- Settles O42: a FATAL event is its entry, its notice and its status bit, and then FATAL_STOP decides. -/
theorem fatalEvents : Obligations.FatalEvents := by
  intro d a b k logged noted
  change a = d.fatalLogged k at logged
  subst logged
  change b = d.fatalNoted k at noted
  subst noted
  refine ⟨fun goes => ?_, fun stops => ?_, Dp.fatalLogged_entry, fun frozen => ?_, ?_⟩
  · rw [Dp.fatal_eq, if_neg (by rw [goes]; exact Bool.false_ne_true)]
  · rw [Dp.fatal_eq, if_pos stops]
  · rw [Dp.fatalLogged, if_pos frozen]
    rfl
  · rw [Dp.fatalNoted, Dp.statVal_setStat, if_pos rfl, Word.bit, BitVec.toNat_or, Nat.testBit_or]
    exact Bool.or_true _

/-! ### The commands -/

theorem exec_correctableError (granary : Bool) (a y : Nat) (s : State) :
    exec (.correctableError granary a y) s = s.byUnit fun d => d.correctable granary a y := rfl

theorem exec_parityRefetch (w : ParityAt) (s : State) : exec (.parityRefetch w) s = s.byUnit fun d => d.parityRefetch w := rfl

theorem exec_cribParity (t : Fin 192) (x : Nat) (b : Fin 16) (s : State) :
    exec (.cribParity t x b) s = s.byUnit fun d => d.cribParity t x b := rfl

theorem exec_uncorrectableError (w : UeAt) (s : State) :
    exec (.uncorrectableError w) s = s.byUnit fun d => d.uncorrectable w := rfl

/-- Settles O41: what an uncorrectable error does follows from where it strikes. -/
theorem uncorrectableErrorsPoison : Obligations.UncorrectableErrorsPoison := by
  intro s a y t x b awake
  have acts (w : UeAt) {d : Dp} (leaves : s.dp.uncorrectable w = d) : exec (.uncorrectableError w) s = .next (s.plane d) :=
    (exec_uncorrectableError w s).trans (byUnit_leaves awake leaves)
  refine ⟨fun k n i resource tier outside => acts _ (Dp.lineLost_poisons resource tier outside y), acts _ rfl, fun r returned => ?_,
    acts _ rfl⟩
  subst returned
  exact ⟨acts _ rfl, acts _ rfl⟩

/-- Settles O40: each transient fault is its count, its entry and its event, and an event counts toward a retirement. -/
theorem transientFaultsCount : Obligations.TransientFaultsCount := by
  refine ⟨?memory, ?parity, ?flits, ?lanes, ?ide, ?copies, ?window, ?tiller⟩
  case memory =>
    intro s a y n k t awake resource tier
    exact ⟨(exec_correctableError false a y s).trans (byUnit_leaves awake (Dp.correctable_line resource tier y)),
      (exec_correctableError true a y s).trans (byUnit_leaves awake (Dp.correctable_granary resource y))⟩
  case parity =>
    intro s a t x b d awake counted
    subst counted
    exact ⟨(exec_parityRefetch _ s).trans (byUnit_leaves awake rfl), (exec_parityRefetch _ s).trans (byUnit_leaves awake rfl),
      (exec_cribParity t x b s).trans (byUnit_leaves awake rfl)⟩
  case flits =>
    intro s seam k awake
    exact ⟨byUnit_leaves (f := fun d => d.flitRetry seam k) awake rfl, byUnit_leaves (f := fun d => d.fatal 4) awake rfl⟩
  case lanes =>
    intro s lane live
    exact byPod_leaves (f := fun d => d.laneEvent lane) live rfl
  case ide =>
    intro s k live
    exact byHost_leaves (f := fun d => d.ideFailure k) live rfl
  case copies =>
    intro s c k a awake serves copy counted
    exact dpWhen_leaves (by rw [awake, serves]; rfl) (Dp.hpcCopyDone_retires copy counted)
  case window =>
    intro d k n l counted serves window
    have counts := Dp.countEvent_eq counted serves window
    refine ⟨fun few => ?_, fun many => ?_⟩
    · rw [if_pos few] at counts
      exact ⟨counts, by rw [counts, Dp.eventsOf_setEvents]⟩
    · rw [if_neg (Nat.not_lt_of_le many)] at counts
      exact counts
  case tiller =>
    intro d t k enabled serves
    exact Dp.reachThreshold_retires enabled serves k

end Sys2Proof.Machine
end

section
/-!
PROOFS. Clock settings that are forced, stepped and gated (R408–R412, R493, R509).
-/
namespace Sys2Proof.Machine

open State

namespace State

variable {s b : State}

/-! ### Junction sensors (R412) -/

section Sensors

variable {n : Nat} {v : Int} (free : s.held n = false)
  (taken : b = { s with pwr := { s.pwr with sensors := Tab.set (fun _ => 0) s.pwr.sensors n v } })

theorem reading_free (free : s.held n = false) (v : Int) : s.reading n v = v := by
  rw [reading, free]
  rfl

include free taken

theorem read_free : s.read n v = b := by
  rw [read, free, taken]
  rfl

theorem throttleStart_forces (on : s.pwr.main = true) (hot : 1600 ≤ v) (unforced : s.throttleOf n = 0) :
    s.throttleStart n v = (b.setThrottle n 1).forcedCount.steer.thermalNotice 0 n v := by
  simp only [throttleStart, reading_free free, read_free free taken, on, Int.not_lt.mpr hot, unforced, ne_eq, not_true_eq_false,
    decide_false, Bool.not_true, Bool.or_self, Bool.false_eq_true, if_false]

theorem throttleEscalate_forces (hot : 1600 ≤ v) (forced : s.throttleOf n = 1) :
    s.throttleEscalate n v = (b.setThrottle n 2).forcedCount.steer := by
  simp only [throttleEscalate, reading_free free, read_free free taken, Int.not_lt.mpr hot, forced, ne_eq, not_true_eq_false,
    decide_false, Bool.or_self, Bool.false_eq_true, if_false]

theorem throttleEnd_releases (cool : v < 1520) (forced : s.throttleOf n ≠ 0) :
    s.throttleEnd n v = ((b.setThrottle n 0).thermalNotice 1 n v).scan.absorb := by
  simp only [throttleEnd, reading_free free, read_free free taken, Int.not_le.mpr cool, forced, decide_false, Bool.or_self,
    Bool.false_eq_true, if_false]

end Sensors

/-! ### Power (R412, R493) -/

theorem powerCap_forces {v w c0 c1 h : Nat} (awake : s.awake = true) (enabled : (s.dp.reg Reg.pwrCap).bit 0 = true)
    (watts : w = s.wattsSeen v) (above : (s.dp.reg Reg.pwrCap).fld 31 16 < w)
    (half : (s.pwr.cap0 = 0 ∧ s.pwr.cap1 = 0 ∧ h = (if c0 < c1 then 1 else 0)) ∨ (s.pwr.cap0 = 0 ∧ s.pwr.cap1 ≠ 0 ∧ h = 0) ∨
      (s.pwr.cap0 ≠ 0 ∧ s.pwr.cap1 = 0 ∧ h = 1)) :
    s.powerCap v c0 c1 = ({ s with pwr := s.pwr.setCap h 1 } : State).powerForced 3 w := by
  subst watts
  simp only [powerCap, awake, enabled, Nat.not_le_of_lt above, Bool.not_true, decide_false, Bool.or_self, Bool.false_eq_true,
    if_false]
  rcases half with ⟨none0, none1, rfl⟩ | ⟨none0, some1, rfl⟩ | ⟨some0, none1, rfl⟩
  · simp only [none0, none1, decide_true, Bool.and_self, if_true]
  · simp only [none0, some1, decide_true, decide_false, Bool.and_false, Bool.false_eq_true, if_false, if_true]
  · simp only [some0, none1, decide_true, decide_false, Bool.false_and, Bool.false_eq_true, if_false, if_true]

theorem excursion_forces (on : s.pwr.main = true) (w : Nat) :
    s.excursion w = ({ s with pwr := { s.pwr with cap0 := 2, cap1 := 2 } } : State).powerForced 4 w := by
  rw [excursion, on]
  rfl

theorem currentLimited_forces (on : s.pwr.main = true) :
    s.currentLimited = ({ s with pwr := { s.pwr with cap0 := 2, cap1 := 2 } } : State).powerCounted.steer := by
  rw [currentLimited, on]
  rfl

theorem capRelease_releases {w : Nat} (below : s.wattsSeen w < (s.dp.reg Reg.pwrCap).fld 47 32) (acts : s.pwr.capAct = true) :
    s.capRelease w = ({ s with pwr := { s.pwr with cap0 := 0, cap1 := 0 } } : State).scan.absorb := by
  simp only [capRelease, Nat.not_le_of_lt below, acts, decide_false, Bool.not_true, Bool.or_self, Bool.false_eq_true, if_false]

/-! ### Steps of a half (R408–R410) -/

/-- A half that takes a setting other than GATED runs at it, and nothing else changes but its clock. -/
theorem applyClock_runs {h : Fin 2} {v : Nat} (runs : v ≠ 3) : (s.applyClock h v).dp.aclk h = v ∧
    (s.applyClock h v).pwr = s.pwr ∧ (s.applyClock h v).kiln = s.kiln ∧ (s.applyClock h v).mnt = s.mnt := by
  refine ⟨?_, rfl, rfl, rfl⟩
  rw [applyClock, if_neg runs]
  by_cases first : h.val = 0
  · simp only [first, if_true, Dp.aclk]
  · simp only [first, if_false, Dp.aclk]

theorem askEpoch_free {h v : Nat} (free : (s.pwr.epochs.any fun e => e.1 = h) = false) :
    s.askEpoch h v = { s with pwr := { s.pwr with epochs := s.pwr.epochs ++ [(h, v)] } } := by
  simp only [askEpoch, free, Bool.false_eq_true, if_false]

theorem steerHalf_stays {h : Nat} (goal : s.pwr.goal h ≤ s.dp.aclk h) : s.steerHalf h = s := if_pos goal

theorem steerHalf_asks {h : Nat} (full : s.dp.aclk h = 0) (goal : 0 < s.pwr.goal h) :
    s.steerHalf h = s.askEpoch h (s.pwr.goal h) := by
  simp only [steerHalf, full, Nat.not_le_of_lt goal, if_false, if_true]

theorem steerHalf_applies {h : Nat} (slow : s.dp.aclk h ≠ 0) (goal : s.dp.aclk h < s.pwr.goal h) :
    s.steerHalf h = s.applyClock h (s.pwr.goal h) := by
  simp only [steerHalf, slow, Nat.not_le_of_lt goal, if_false]

theorem reopen_ends {h v : Nat} {l : List (Nat × Nat)} (epochs : s.pwr.epochs = (h, v) :: l)
    (ended : b = { s with pwr := { s.pwr with epochs := l }, dp := s.dp.bump Reg.clkEpochCnt }) :
    s.reopen = (b.applyClock h (max v (s.pwr.goal h))).steer := by
  have goal : b.pwr.goal h = s.pwr.goal h := by
    rw [ended]
    rfl
  rw [← goal]
  subst ended
  simp only [reopen, epochs]

theorem raiseStep_steps {h : Nat} (goal : s.pwr.goal h < s.dp.aclk h) (free : (s.pwr.epochs.any fun e => e.1 = h) = false) :
    s.raiseStep h = if s.dp.aclk h = 1 then s.askEpoch h 0
      else s.applyClock h (if s.dp.aclk h = 3 ∧ s.pwr.goal h = 2 then 2 else 1) := by
  simp only [raiseStep, Nat.not_le_of_lt goal, free, decide_false, Bool.or_self, Bool.false_eq_true, if_false, Bool.and_eq_true,
    decide_eq_true_eq]

/-! ### Trips (R509) -/

theorem thermalTrip_latches {n : Nat} {v : Int} (on : s.pwr.main = true) (untripped : s.pwr.trip = false)
    (hot : (if n < 32 then 1760 else 1520 : Int) ≤ v)
    (latched : b = { s with pwr := { s.pwr with trip := true, epochs := [], sensors := Tab.set (fun _ => 0) s.pwr.sensors n v }
                            dp := (s.dp.bump Reg.clkForceCnt).bump Reg.clkEpochCnt
                              ((if s.dp.aclk0 = 0 then 1 else 0) + if s.dp.aclk1 = 0 then 1 else 0) }) :
    s.thermalTrip n v = (((b.applyClock 0 3).applyClock 1 3).thermalNotice 2 n v).fatal 5 := by
  subst latched
  exact if_neg (by rw [on, untripped, decide_eq_false (Int.not_lt.mpr hot)]; exact Bool.false_ne_true)

theorem endEffect_otp {q : Req} (otp : q.act = 13) : s.endEffect q = if q.res < 256 then
    { s with kiln := s.kiln.progEnd q.res } else { s with kiln := s.kiln.advance (q.res - 256) q.param } := by
  simp only [endEffect, otp]

/-- An OTP write that completes touches Kiln alone. -/
theorem finishOtp_rest (s : State) : s.finishOtp.pwr = s.pwr ∧ s.finishOtp.dp = s.dp := by
  have writes (l : List Req) (all : ∀ q ∈ l, q.act = 13) (s : State) :
      (l.foldl (fun s q => s.endEffect q) s).pwr = s.pwr ∧ (l.foldl (fun s q => s.endEffect q) s).dp = s.dp := by
    induction l generalizing s with
    | nil => exact ⟨rfl, rfl⟩
    | cons q l ih =>
      have write : (s.endEffect q).pwr = s.pwr ∧ (s.endEffect q).dp = s.dp := by
        rw [endEffect_otp (all q List.mem_cons_self)]
        split
        next => exact ⟨rfl, rfl⟩
        next => exact ⟨rfl, rfl⟩
      obtain ⟨pwr, dp⟩ := ih (fun x mem => all x (List.mem_cons_of_mem q mem)) (s.endEffect q)
      exact ⟨pwr.trans write.1, dp.trans write.2⟩
  exact writes _ (fun q mem => of_decide_eq_true (List.mem_filter.mp mem).2) s

/-- Without an OTP write under way there is none to complete. -/
theorem finishOtp_none (none : ∀ q ∈ s.mnt.running, q.act ≠ 13) : s.finishOtp = s := by
  have empty : s.mnt.running.filter (fun q => q.act = 13) = [] :=
    List.filter_eq_nil_iff.mpr fun q mem => by simpa using none q mem
  rw [finishOtp, empty, List.foldl_nil]

/-- The state in which the main supply goes: an OTP write under way completes while AUX_12V is there. -/
def losing (s : State) : State := if s.pwr.aux then s.finishOtp else s

theorem losing_rest (s : State) : s.losing.pwr = s.pwr ∧ s.losing.dp = s.dp := by
  unfold losing
  split
  next => exact finishOtp_rest s
  next => exact ⟨rfl, rfl⟩

/-- What the loss of the main supply leaves of the supplies: the switch is open, and Hearth stays while AUX_12V is there. -/
theorem powerLoss_pwr (s : State) (v : Nat) : (s.powerLoss v).pwr.supply = .off ∧ (s.powerLoss v).pwr.vin = v ∧
    (s.powerLoss v).pwr.perst = true ∧ (s.powerLoss v).pwr.hearth = (s.pwr.aux && s.pwr.hearth) ∧
    (s.powerLoss v).pwr.trip = s.pwr.trip := by
  refine ⟨rfl, rfl, rfl, ?_, ?_⟩
  · change (s.losing.pwr.aux && s.losing.pwr.hearth) = _
    rw [(losing_rest s).1]
  · change s.losing.pwr.trip = _
    rw [(losing_rest s).1]

/-- A switch that a trip has opened stays open, at whatever voltage (R494, R509). -/
theorem vinRise_tripped {v : Nat} (off : s.pwr.supply = .off) (opened : s.pwr.tripOpen = true) (low : 4500 ≤ v) (high : v ≤ 6200) :
    s.vinRise v = { s with pwr := { s.pwr with vin := v } } := by
  simp only [vinRise, off, low, high, opened, decide_true, Bool.and_self, if_true]

end State

/-- Settles O43: each command forces, steps or gates as its own rule gives it. -/
theorem clocksAreForced : Obligations.ClocksAreForced := by
  refine ⟨?sensors, ?cap, ?excursion, ?release, ?steer, ?epoch, ?raise, ?trip, ?opens⟩
  case sensors =>
    intro s b n v on free taken
    exact ⟨fun hot unforced => allWhen_leaves rfl (throttleStart_forces free taken on hot unforced),
      fun hot forced => allWhen_leaves rfl (throttleEscalate_forces free taken hot forced),
      fun cool forced => allWhen_leaves rfl (throttleEnd_releases free taken cool forced)⟩
  case cap =>
    intro s v w c0 c1 h awake enabled watts above half
    exact allWhen_leaves rfl (powerCap_forces awake enabled watts above half)
  case excursion =>
    intro s b w forced on
    subst forced
    exact ⟨fun above => allWhen_leaves (decide_eq_true above) (excursion_forces on w),
      allWhen_leaves rfl (currentLimited_forces on)⟩
  case release =>
    intro s w below acts
    exact allWhen_leaves rfl (capRelease_releases below acts)
  case steer =>
    intro s h
    refine ⟨steerHalf_stays, fun full goal free => ?_, fun slow goal runs => ?_⟩
    · rw [steerHalf_asks full goal, askEpoch_free free]
    · obtain ⟨clock, pwr, -, -⟩ := applyClock_runs (s := s) (h := h) (Nat.ne_of_lt runs)
      rw [steerHalf_applies slow goal]
      exact ⟨clock, pwr⟩
  case epoch =>
    intro s b h v l awake epochs ended
    exact allWhen_leaves awake (reopen_ends epochs ended)
  case raise =>
    intro s h awake goal free
    have steps := raiseStep_steps goal free
    refine ⟨fun slow => allWhen_leaves awake ?_, fun other => ?_⟩
    · rw [steps, if_pos slow, askEpoch_free free]
    · rw [if_neg other] at steps
      have runs : (if s.dp.aclk h = 3 ∧ s.pwr.goal h = 2 then 2 else 1) ≠ 3 := by split <;> decide
      obtain ⟨clock, pwr, kiln, mnt⟩ := applyClock_runs (s := s) (h := h) runs
      exact ⟨_, allWhen_leaves awake steps, pwr, kiln, mnt, clock⟩
  case trip =>
    intro s b n v on untripped hot latched
    exact allWhen_leaves rfl (thermalTrip_latches on untripped hot latched)
  case opens =>
    intro s trip on
    obtain ⟨off, -, -, -, tripped⟩ := powerLoss_pwr s s.pwr.vin
    have opens : s.tripOpens = { s.powerLoss s.pwr.vin with pwr := { (s.powerLoss s.pwr.vin).pwr with tripOpen := true } } :=
      if_pos (by rw [trip, decide_eq_true on]; rfl)
    refine ⟨_, congrArg Host.Outcome.next opens, off, tripped.trans trip, rfl, fun v => ?_⟩
    by_cases range : 4500 ≤ v ∧ v ≤ 6200
    · exact .inl (congrArg Host.Outcome.next (vinRise_tripped off rfl range.1 range.2))
    · exact .inr (by omega)

end Sys2Proof.Machine
end

section
/-!
PROOFS. Supplies and the reference (R407, R490, R492–R495, R500).
-/
namespace Sys2Proof.Machine

open State

namespace State

variable {s : State} {v : Nat}

/-! ### The main supply (R490, R492–R494) -/

theorem vinRise_precharges (off : s.pwr.supply = .off) (untripped : s.pwr.tripOpen = false) (low : 4500 ≤ v) (high : v ≤ 6200) :
    s.vinRise v = { s with pwr := { s.pwr with vin := v, supply := .precharge, fresh := true } } := by
  simp only [vinRise, off, low, high, untripped, decide_true, Bool.and_self, Bool.false_eq_true, if_true, if_false]

theorem vinRise_outside (outside : v < 4500 ∨ 6200 < v) : s.vinRise v = s := by
  refine if_neg ?_
  simp only [Bool.and_eq_true, decide_eq_true_eq]
  omega

theorem vinOut_fatal (on : s.pwr.main = true) (outside : v < 4400 ∨ 5900 < v) :
    s.vinOut v = ({ s with pwr := { s.pwr with vin := v } } : State).fatal 6 :=
  if_pos (by rw [on, Bool.true_and]; simpa only [Bool.or_eq_true, decide_eq_true_eq] using outside)

theorem prechargeDone_closes (charging : s.pwr.supply = .precharge) :
    s.prechargeDone = { s with pwr := { s.pwr with supply := .on } } := if_pos charging

/-- WAKE# and PME_Status are all that an entry of the ash log raises. -/
theorem wakeCheck_rest (old s : State) : ∃ wake pme : Bool,
    wakeCheck old s = { s with pwr := { s.pwr with wake, pme } } := by
  unfold wakeCheck
  dsimp only
  split
  next => exact ⟨true, true, rfl⟩
  next => exact ⟨s.pwr.wake, s.pwr.pme, rfl⟩

/-- An event of the board is one of the data plane alone, and while the host is there, the whole of it. -/
theorem event_live (live : s.hostLive = true) (f : Dp → Dp) : s.event f = { s with dp := f s.dp } := if_pos live

theorem event_rest (s : State) (f : Dp → Dp) : ∃ d : Dp, s.event f = { s with dp := d } := by
  unfold event
  dsimp only
  split
  next => exact ⟨_, rfl⟩
  next => exact ⟨_, rfl⟩

theorem fatal_vin (s : State) (c : Nat) : (s.fatal c).pwr.vin = s.pwr.vin := by
  obtain ⟨d, event⟩ := event_rest s fun d => d.fatal c
  obtain ⟨wake, pme, woken⟩ := wakeCheck_rest s (s.event fun d => d.fatal c)
  rw [fatal, woken, event]

theorem overcurrent_opens (on : s.pwr.main = true) :
    s.overcurrent.pwr.supply = .off ∧ s.overcurrent.pwr.vin = s.pwr.vin := by
  rw [overcurrent, if_pos on]
  exact ⟨rfl, rfl⟩

/-- Without AUX_12V Hearth goes with the main supply, and with it the ash log. -/
theorem powerLoss_dark (noAux : s.pwr.aux = false) : (s.powerLoss v).pwr.hearth = false ∧ (s.powerLoss v).dp.ash = {} ∧
    (s.powerLoss v).kiln = darkKiln s.kiln := by
  simp only [powerLoss, noAux, Bool.false_eq_true, if_false, Bool.false_and, and_self]

/-- With AUX_12V the ash log and the time outlive the main supply. -/
theorem powerLoss_kept (aux : s.pwr.aux = true) (noOtp : ∀ q ∈ s.mnt.running, q.act ≠ 13) :
    (s.powerLoss v).kiln = darkKiln s.kiln ∧ (s.powerLoss v).dp.ash.entries = s.dp.ash.entries ∧
    (s.powerLoss v).dp.now = s.dp.now := by
  simp only [powerLoss, aux, finishOtp_none noOtp, if_true, true_and]
  exact ⟨rfl, rfl⟩

theorem vinCollapse_opens (on : s.pwr.supply ≠ .off) (aux : s.pwr.aux = true) (outside : v < 4000 ∨ 6200 < v) :
    s.vinCollapse v = wakeCheck s ((s.event fun d => d.fatal 6).powerLoss v) := by
  have opens : (s.pwr.supply ≠ .off && (v < 4000 || 6200 < v)) = true := by
    rw [decide_eq_true on, Bool.true_and]
    simpa only [Bool.or_eq_true, decide_eq_true_eq] using outside
  rw [vinCollapse, if_pos opens, aux, Bool.true_or, if_pos rfl]

/-! ### AUX_12V and Hearth (R495, R500) -/

theorem auxLoss_dark (off : s.pwr.supply = .off) : s.auxLoss = { s with
      dp := { s.dp with ash := {}, resps := [] }
      mnt := {}
      pwr := { s.pwr with aux := false, hearth := false, wake := false, pme := false, i3c := 0, eid := 0, sensors := [] }
      kiln := { s.kiln with segs := [] } } := if_neg (not_not_intro off)

theorem auxLoss_kept (on : s.pwr.supply ≠ .off) : s.auxLoss = { s with pwr := { s.pwr with aux := false } } := if_pos on

theorem hearthStart_boots {aux : Bool} (dark : s.pwr.hearth = false) (supplied : aux = true ∨ s.pwr.supply ≠ .off) :
    s.hearthStart aux = { s with pwr := { s.pwr with aux := s.pwr.aux || aux, hearth := true }
                                 kiln := Kiln.bootSeg { s.kiln with bootErr := 0 } 0 } := by
  have starts : (s.pwr.hearth || (!(s.pwr.aux || aux) && s.pwr.supply = .off)) = false := by
    rw [dark, Bool.false_or]
    obtain rfl | on := supplied
    · rw [Bool.or_true]
      rfl
    · rw [decide_eq_false on, Bool.and_false]
  exact if_neg (ne_true_of_eq_false starts)

/-! ### The reference (R407) -/

theorem referenceLost_fatal (on : s.pwr.main = true) (ok : s.pwr.refOk = true) {a : State}
    (event : a = ({ s with pwr := { s.pwr with refOk := false, lock := false } } : State).fatal 1) :
    s.referenceLost = { a with
      dp := ((List.range 8).foldl (fun (d : Dp) q => d.resendPort q) ((List.range 8).foldl (fun (d : Dp) q =>
        d.setPort q { d.port q with state := 0, preempt := false }) a.dp)).checkPeers.progressPod
      pwr := { a.pwr with refLost := true, link := false } } := by
  subst event
  rw [referenceLost, ok]
  exact if_neg (show ¬(!s.pwr.main) = true by rw [on]; exact Bool.false_ne_true)

theorem rootLock_locks (hearth : s.pwr.hearth = true) : s.rootLock = { s with pwr := { s.pwr with refOk := true, lock := true } } :=
  if_pos hearth

end State

/-- Settles O44: each supply comes and goes by its own rule, and what outlives the main supply is what its loss leaves. -/
theorem suppliesComeAndGo : Obligations.SuppliesComeAndGo := by
  refine ⟨?vin, ?switch, ?hearth, ?reference, fun s hearth => congrArg Host.Outcome.next (rootLock_locks hearth)⟩
  case vin =>
    intro s v
    refine ⟨fun off untripped low high => congrArg Host.Outcome.next (vinRise_precharges off untripped low high),
      fun outside => congrArg Host.Outcome.next (vinRise_outside outside),
      fun on outside => allWhen_leaves rfl (vinOut_fatal on outside), fun on aux live outside noOtp => ?_⟩
    obtain ⟨wake, pme, woken⟩ := wakeCheck_rest s (({ s with dp := s.dp.fatal 6 } : State).powerLoss v)
    have collapses := vinCollapse_opens on aux outside
    rw [event_live live, woken] at collapses
    obtain ⟨off, vin, perst, hearth, -⟩ := powerLoss_pwr ({ s with dp := s.dp.fatal 6 } : State) v
    obtain ⟨kiln, entries, now⟩ := powerLoss_kept (s := { s with dp := s.dp.fatal 6 }) (v := v) aux noOtp
    exact ⟨_, congrArg Host.Outcome.next collapses, off, perst, vin, hearth.trans (by rw [aux, Bool.true_and]), kiln, entries, now⟩
  case switch =>
    intro s
    refine ⟨fun charging => congrArg Host.Outcome.next (prechargeDone_closes charging), fun on => ?_, fun on => ?_,
      fun off => congrArg Host.Outcome.next (auxLoss_dark off), fun on => congrArg Host.Outcome.next (auxLoss_kept on)⟩
    · exact ⟨_, rfl, overcurrent_opens on⟩
    · exact ⟨s.powerLoss 0, congrArg Host.Outcome.next (if_neg on), rfl, rfl, powerLoss_dark⟩
  case hearth =>
    intro s aux dark supplied
    exact congrArg Host.Outcome.next (hearthStart_boots dark supplied)
  case reference =>
    intro s a t ok on event down
    refine ⟨allWhen_leaves rfl ((referenceLost_fatal on ok event).trans down.symm), ?_, ?_⟩
    · rw [down, hostLive, Bool.and_false, Bool.false_and, Bool.false_and]
    · rw [down, podLive, Bool.not_true, Bool.and_false]

end Sys2Proof.Machine
end

section
/-!
PROOFS. SNAPSHOT, RESTORE and MAINT: what each descriptor does at its dispatch, and what the units do of a TAKE by themselves
(R388, R393–R395, R485).
-/
namespace Sys2Proof.Machine

open State

theorem exec_snapshotTake (n : Fin 64) (s : State) :
    exec (.snapshotTake n) s = s.dispatched 0x50 (fun bs => Dp.snapKind bs = 0) snapSpans opTake n := rfl
theorem exec_snapshotDrain (n : Fin 64) (s : State) :
    exec (.snapshotDrain n) s = s.dispatched 0x50 (fun bs => Dp.snapKind bs = 1) snapSpans opDrain n := rfl
theorem exec_snapshotUnlock (n : Fin 64) (s : State) :
    exec (.snapshotUnlock n) s = s.dispatched 0x50 (fun bs => Dp.snapKind bs = 2) snapSpans opUnlock n := rfl
theorem exec_restore (n : Fin 64) (s : State) :
    exec (.restore n) s = s.dispatched 0x51 everyForm restoreSpans opRestore n := rfl
theorem exec_maint (n : Fin 64) (s : State) : exec (.maint n) s = s.dispatched 0x58 everyForm maintSpans opMaint n := rfl
theorem exec_snapshotCopy (s : State) : exec .snapshotCopy s = s.byUnit Dp.snapshotCopy := rfl
theorem exec_snapshotCopyDone (s : State) : exec .snapshotCopyDone s = s.byUnit Dp.snapshotCopyDone := rfl
theorem exec_snapshotTimeout (n : Fin 64) (s : State) :
    exec (.snapshotTimeout n) s = s.byUnit fun d => d.snapshotTimeout n := rfl

section Starts

variable {n : Nat} {o : Outst} {a : Dp} {w : Wk}

/-! ### The starts, against the checks of Table 13.8 -/

/-- A TAKE that is no second start and passes each check waits for its target step (R388 step 1). -/
theorem startTake_waits {entries : List (List Byte)} {l : List SnapRegion} {target total : Nat}
    (fresh : (a.snap o.uid).isSome = false)
    (read : Dp.Works (readRegions (a.envOf n o) (leAt o.bytes 40 8) (leAt o.bytes 20 4)) a entries w)
    (regions : l = entries.map parseRegion) (aligned : snapMisaligned o.bytes = false)
    (step : target = if leAt o.bytes 24 8 = 0 then w.d.fll.step + 1 else leAt o.bytes 24 8) (size : total = (dataOfs l).2)
    (sound : regionsBad l = false) (each : l.any (·.misaligned) = false)
    (apart : ((l ++ [({ dva := leAt o.bytes 40 8, len := roundUp (32 * leAt o.bytes 20 4) 128, bytes := [] } : SnapRegion)]).any
      fun r => w.d.regionMeets o.space r (leAt o.bytes 32 8) total) = false)
    (unguarded : w.d.guardRefuses n o.spans = false) (unheld : w.d.holds = false) (later : w.d.fll.step < target)
    (few : w.d.locks.length < 4) (unlocked : w.d.meetsLock (leAt o.bytes 32 8) total = false)
    (inside : w.d.imageOutside (leAt o.bytes 32 8) total = false) :
    startTake n o a = { w.d with snaps := w.d.snaps ++ [{ uid := o.uid, restore := false, target, list := some entries }] } := by
  subst regions step size
  rw [Dp.Works] at read
  simp only [startTake, fresh, read, sound, aligned, each, apart, unguarded, unheld, Nat.not_le_of_lt later,
    Nat.not_le_of_lt few, unlocked, inside, Bool.false_eq_true, if_false, decide_false, Bool.or_false]

/-- A RESTORE that is no second start, names an image, and passes each check, holds dispatch (R395). -/
theorem startRestore_holds {entries : Option (List (List Byte))} {l : Option (List SnapRegion)} {img total : Nat}
    (fresh : (a.snap o.uid).isSome = false) (read : Dp.Works (Dp.restoreList (a.envOf n o) o.bytes) a entries w)
    (image : img = leAt o.bytes 24 8) (regions : l = entries.map fun x => x.map parseRegion)
    (there : w.d.imageOutside img 0x1000 = false) (size : total = leAt (w.d.dpaBytes (img + 40) 8) 0 8)
    (sound : regionsBad (l.getD []) = false) (aligned : restoreMisaligned o.bytes = false)
    (each : (l.getD []).any (·.misaligned) = false)
    (apart : ((l.getD ((w.d.directory img).map (·.1))).any fun r => w.d.regionMeets o.space r img total ||
      w.d.locks.any fun k => w.d.regionMeets o.space r k.base k.total) = false)
    (unguarded : w.d.guardRefuses n o.spans = false) (unheld : w.d.holds = false) (written : w.d.imageState img ≠ 0)
    (inside : w.d.imageOutside img (max total 0x1000) = false) :
    startRestore n o a = { w.d with snaps := w.d.snaps ++ [{ uid := o.uid, restore := true, target := 0, held := true,
                                                             heldAt := w.d.now, heldFrom := w.d.elapsed, list := entries }] } := by
  rw [Dp.Works] at read
  rw [size] at apart inside
  rw [regions] at sound each apart
  rw [image] at there apart written inside
  simp only [startRestore, fresh, read, there, sound, aligned, each, apart, unguarded, unheld, written, inside, Bool.not_false,
    Bool.false_eq_true, if_true, if_false, decide_false, Bool.and_false, Bool.or_false]

/-- A MAINT whose segment is read puts its request to the maintenance gate (R485). -/
theorem startMaint_asks {seg : List Byte} (read : Dp.Works (maintWork (a.envOf n o) o.bytes) a seg w) {b : Dp}
    (marked : b = w.d.modOutst n o.uid fun o => { o with poisoned := o.poisoned || w.poison }) :
    startMaint n o a = { b with asks := b.asks ++ [{ act := leAt o.bytes 16 1, res := leAt o.bytes 18 2, param := leAt o.bytes 20 4, ch := .maint o.uid n ((leAt o.bytes 17 1).testBit 1), queue := (leAt o.bytes 17 1).testBit 0, bytes := seg }] } := by
  subst marked
  rw [Dp.Works] at read
  simp only [startMaint, read]

end Starts

namespace Dp

variable {d : Dp} {x : Snap} {n : Nat} {o : Outst}

/-! ### A TAKE under way (R388) -/

/-- The Gleaners copy for the running TAKE that holds the stopped module (R388 step 4). -/
theorem snapshotCopy_stopped (first : d.snaps.find? (fun x => x.held && !x.restore && !x.copied) = some x)
    (found : d.findOutst x.uid = some (n, o)) (running : o.phase = .running) (stopped : d.quiesced x.uid = true) :
    d.snapshotCopy = d.takeCopy n o x := by
  simp only [snapshotCopy, first, found, running, stopped, decide_true, Bool.and_true, if_true]

/-- The end of a copy seals the header with the stop's length and the CRC, makes the image COMPLETE, and asks for no drain where
the descriptor names none (R388 steps 5 and 6). -/
theorem snapshotCopyDone_completes {img count total stop crc : Nat} {a b : Dp}
    (first : d.snaps.find? (fun x => x.copied) = some x) (found : d.findOutst x.uid = some (n, o))
    (image : img = leAt o.bytes 32 8) (regions : count = leAt (d.dpaBytes (img + 12) 4) 0 4)
    (size : total = leAt (d.dpaBytes (img + 40) 8) 0 8) (length : stop = d.elapsed - x.heldFrom)
    (timed : a = d.setDpas (img + 56) (toLe 8 stop))
    (sum : crc = crc64 0 (a.dpaBytes img 64 ++ a.dpaBytes (img + 0x1000) (64 * count) ++ a.dpaBytes (img + stateOfs count) 0x20000))
    (sealed : b = (a.setDpas (img + 64) (toLe 8 crc)).setImageState img 1) (undrained : leAt o.bytes 16 1 / 4 % 4 = 0) :
    d.snapshotCopyDone = (b.dropSnap x.uid).finished x.uid
      { status := stOK, result := stop / 1000 % 2 ^ 32 + cdiv total 1048576 % 2 ^ 32 * 2 ^ 32 } := by
  simp only [snapshotCopyDone, first, found, undrained, if_true, sealed, sum, timed, length, size, regions, image]

/-- A TAKE that times out before its wait has ended writes nothing. -/
theorem snapshotTimeout_waiting (first : d.snaps.find? (fun x => (d.findOutst x.uid).any fun y => y.1 = n) = some x)
    (uncopied : x.copied = false) (waiting : (x.held && d.quiesced x.uid) = false) :
    d.snapshotTimeout n = (d.dropSnap x.uid).finished x.uid { status := stTimeout } := by
  simp only [snapshotTimeout, first, uncopied, waiting, Bool.or_self, Bool.false_eq_true, if_false]

end Dp

/-- Settles O18: the start of a TAKE meets no row of Table 13.8, and its copy, its end and its time-out each find it among the
snapshots in progress. -/
theorem snapshotsAreTaken : Obligations.SnapshotsAreTaken := by
  refine ⟨?take, ?copy, ?copied, ?timeout⟩
  case take =>
    intro s n h bs c d o a e form
    obtain ⟨bytes, hdr, ring, rfl⟩ := e.bytes
    refine ⟨?_, fun entries l w target total => startTake_waits⟩
    rw [exec_snapshotTake, e.dispatched, opTake, bytes, hdr, ring, form, e.start_never form]
  case copy =>
    intro s x n o live first found running stopped
    exact (exec_snapshotCopy s).trans (byUnit_leaves live (Dp.snapshotCopy_stopped first found running stopped))
  case copied =>
    intro s x n o img count total stop crc a b live first found image regions size length timed sum sealed undrained
    exact (exec_snapshotCopyDone s).trans (byUnit_leaves live
      (Dp.snapshotCopyDone_completes first found image regions size length timed sum sealed undrained))
  case timeout =>
    intro s n x live first uncopied waiting
    exact (exec_snapshotTimeout n s).trans (byUnit_leaves live (Dp.snapshotTimeout_waiting first uncopied waiting))

/-- Settles O19: a DRAIN and an UNLOCK that pass their checks act at their dispatch, and the start of a RESTORE meets no row of
Table 13.8. -/
theorem imagesAreDrainedAndRestored : Obligations.ImagesAreDrainedAndRestored := by
  refine ⟨?drain, ?unlock, ?restore⟩
  case drain =>
    intro s n h bs c d o a b img kind tgt e form aligned image named locked inside host target asked
    obtain ⟨bytes, hdr, ring, -⟩ := e.bytes
    subst image named target asked
    rw [exec_snapshotDrain, e.dispatched, opDrain]
    simp only [bytes, hdr, ring, form, aligned, locked, inside, host, Bool.not_true, Bool.false_eq_true, if_false]
  case unlock =>
    intro s n h bs c d o a b img e form aligned image inside freed
    obtain ⟨bytes, hdr, ring, -⟩ := e.bytes
    subst image freed
    rw [exec_snapshotUnlock, e.dispatched, opUnlock]
    simp only [bytes, hdr, ring, form, aligned, inside, Bool.false_eq_true, if_false]
  case restore =>
    intro s n h bs c d o a img e form image
    obtain ⟨bytes, hdr, ring, rfl⟩ := e.bytes
    refine ⟨?_, fun w entries l total fresh read => startRestore_holds fresh read image⟩
    rw [exec_restore, e.dispatched, opRestore, bytes, hdr, ring, form, e.start_never form]

/-- Settles O20: a MAINT that is not malformed, whose segment is aligned, starts, and its start asks once the segment is read. -/
theorem maintAsksTheGate : Obligations.MaintAsksTheGate := by
  intro s n h bs c d o a e form aligned
  obtain ⟨bytes, hdr, ring, rfl⟩ := e.bytes
  have placed : (leAt o.bytes 16 1 = 8 && leAt o.bytes 24 8 % 64 ≠ 0) = false := by simpa using aligned
  refine ⟨?_, fun seg w b read marked => startMaint_asks read marked⟩
  rw [exec_maint, e.dispatched, opMaint, bytes, hdr, ring, form]
  simp only [placed, Bool.false_eq_true, if_false, e.start_never form]

end Sys2Proof.Machine
end

section
/-!
PROOFS. The starts of the collectives and messages: REDUCE of elements and of step records, ALLTOALL, SEND, RECV and BARRIER, and
the time-out of a BARRIER (R364, R370, R371, R373, R379–R381, Table 12.13).
-/
namespace Sys2Proof.Machine

open State

theorem exec_reduce (n : Fin 64) (s : State) :
    exec (.reduce n) s = s.dispatched 0x48 (fun bs => !ofRecords bs) redSpans opReduce n := rfl
theorem exec_reduceSteprec (n : Fin 64) (s : State) :
    exec (.reduceSteprec n) s = s.dispatched 0x48 ofRecords redSpans opReduce n := rfl
theorem exec_alltoall (n : Fin 64) (s : State) : exec (.alltoall n) s =
    s.dispatched 0x49 everyForm (fun bs => Dp.msgSpans 0x49 (groupSize s.dp n bs) bs) (opMsg 0x49) n := rfl
theorem exec_send (n : Fin 64) (s : State) :
    exec (.send n) s = s.dispatched 0x4A everyForm (Dp.msgSpans 0x4A 0) (opMsg 0x4A) n := rfl
theorem exec_recv (n : Fin 64) (s : State) :
    exec (.recv n) s = s.dispatched 0x4B everyForm (Dp.msgSpans 0x4B 0) (opMsg 0x4B) n := rfl
theorem exec_barrier (n : Fin 64) (s : State) : exec (.barrier n) s = s.dispatched 0x4C everyForm noSpans (opMsg 0x4C) n := rfl
theorem exec_barrierTimeout (id : Nat) (s : State) :
    exec (.barrierTimeout id) s = s.byUnit fun d => d.barrierTimeout id := rfl

/-- A REDUCE that is not malformed and names no sheaf starts, whichever command it belongs to. -/
theorem State.Enters.start_reduce {s : State} {n : Fin 64} {mine : List Byte → Bool} {h : Hdr} {bs : List Byte} {c : OpCtx}
    {d : Dp} {o : Outst} {a : Dp} (e : s.Enters n 0x48 mine redSpans h bs (d.redStreams c) c d o a)
    (form : firstBad (RedP.bad bs ++ d.sheafBad n h .never) = none) :
    s.dispatched 0x48 mine redSpans opReduce n = .next (s.left n (Dp.startReduce n o a)) := by
  obtain ⟨bytes, hdr, ring, -⟩ := e.bytes
  rw [e.dispatched, opReduce, bytes, hdr, ring, form, e.start_never form]

/-- A message that is not malformed starts, whichever of the four it is. -/
theorem State.Enters.start_msg {s : State} {n : Fin 64} {op : Nat} {spans : List Byte → List Span} {h : Hdr} {bs : List Byte}
    {c : OpCtx} {d : Dp} {o : Outst} {a : Dp} (e : s.Enters n op everyForm spans h bs [] c d o a)
    (form : firstBad (Dp.msgBad op bs ++ d.sheafBad n h .never) = none) :
    s.dispatched op everyForm spans (opMsg op) n = .next (s.left n (Dp.startMsg op n o a)) := by
  obtain ⟨bytes, hdr, ring, -⟩ := e.bytes
  rw [e.dispatched, opMsg, bytes, hdr, ring, form, e.record, e.entered]
  rw [e.ctx]; rfl

namespace Dp

section Reductions

variable {n : Nat} {o : Outst} {a r : Dp} {q : RedP} {g : Group} {w : Wk}

/-! ### REDUCE (R370, R371, R373) -/

/-- A REDUCE that a row of Table 12.13 refuses, once its group is read, ends as that row says. -/
theorem startReduce_refused {e : Ending} (body : q = parseRed o.bytes) (fresh : (a.coll o.uid).isSome = false)
    (group : GroupRead n o q.group a g r) (refused : r.redRefusal n o.spans q g = some e) :
    startReduce n o a = r.complete n o.uid e := by
  subst body
  simp only [startReduce, fresh, Bool.false_eq_true, if_false, withGroup_read group, refused]

section Leaf

variable {leaf : List (FV × Bool)} {x : Coll} (body : q = parseRed o.bytes) (fresh : (a.coll o.uid).isSome = false)
  (group : GroupRead n o q.group a g r) (taken : r.redRefusal n o.spans q g = none) (elements : q.kind ≠ 3)
  (nothing : r.lnk.holds = []) (read : Works (readLeaf (a.envOf n o) q false) r leaf w)
  (coll : x = { uid := o.uid, ring := n, op := 0x48, o, kind := q.kind, id := q.id, group := q.group,
                members := g.members.map (·.endpoint), rank := g.rank, coord := g.coord, start := r.elapsed, leaf,
                digest := q.digest g })
include body fresh group taken elements nothing read coll

/-- A REDUCE with nothing held that coordinates counts itself ready (R370). -/
theorem startReduce_coordinator (reduces : q.kind ≠ 2) (own : g.rank = g.coord) :
    startReduce n o a = ((w.d.addColl { x with ready := [g.rank] }).applyEarly).progress := by
  subst body coll
  rw [Works] at read
  simp only [startReduce, fresh, Bool.false_eq_true, if_false, withGroup_read group, taken, elements, nothing, List.find?_nil,
    Option.isSome_none, Option.any_none, read, reduces, own, if_true]

/-- One that does not coordinate sends READY with its digest to the coordinator (R370). -/
theorem startReduce_member {f : Culm} (reduces : q.kind ≠ 2) (other : g.rank ≠ g.coord)
    (frame : f = { ty := 5, ember := true, group := q.group, msg := q.id, aux := 0, aux32 := 0, payload := toLe 8 x.digest }) :
    startReduce n o a = (((w.d.addColl x).postRank x g.coord 1 [f]).applyEarly).progress := by
  subst body frame coll
  rw [Works] at read
  simp only [startReduce, fresh, Bool.false_eq_true, if_false, withGroup_read group, taken, elements, nothing, List.find?_nil,
    Option.isSome_none, Option.any_none, read, reduces, other]

/-- An ALL_GATHER includes every member and grants credit for the blocks of all of them. -/
theorem startReduce_gather {y : Coll} (gathers : q.kind = 2)
    (all : y = { x with fixed := true, incl := List.range g.members.length }) :
    startReduce n o a = (((w.d.addColl y).grantAll y (fun _ => 0)
      fun b => ((y.blockRange q.elems b).2 - (y.blockRange q.elems b).1) * q.s.conv.fmt.size).applyEarly).progress := by
  subst body all coll
  rw [Works] at read
  simp only [startReduce, fresh, Bool.false_eq_true, if_false, withGroup_read group, taken, nothing, List.find?_nil,
    Option.isSome_none, Option.any_none, read, gathers, if_true, Nat.reduceEqDiff]

end Leaf

/-- A REDUCE of step records whose record is closed and not reduced, in a step without a late member, takes it as its
contribution, with OVF where what it folded in had it (R371, R373). -/
theorem startReduce_record {b : Dp} {rec_ : List Byte} {bad : Bool} (body : q = parseRed o.bytes) (records : q.kind = 3)
    (fresh : (a.coll o.uid).isSome = false) (group : GroupRead n o q.group a g r) (taken : r.redRefusal n o.spans q g = none)
    (read : Works (Work.poisonOf (Work.readBytes (a.envOf n o) q.hold 64)) r (rec_, bad) w)
    (closed : (leAt rec_ 8 1).testBit 2 = true) (unreduced : (leAt rec_ 8 1).testBit 1 = false)
    (every : w.d.lnk.stepIncl = none) (member : g.rank < g.members.length)
    (folded : b = { w.d with lnk := { w.d.lnk with
      holds := w.d.lnk.holds.map fun h =>
        if h.group = q.group && h.step = w.d.fll.step && h.ovf = none then { h with ovf := some ((leAt rec_ 8 1).testBit 0) } else h,
      foldedOvf := w.d.lnk.foldedOvf.filter fun x => x ≠ q.group } }) :
    startReduce n o a = ((b.addColl
      { uid := o.uid, ring := n, op := 0x48, o, kind := 3, id := q.id, group := q.group,
        members := g.members.map (·.endpoint), rank := g.rank, coord := g.coord, start := r.elapsed, fixed := true,
        incl := List.range g.members.length, carry := [], late := false, dataBad := bad,
        data := if w.d.lnk.foldedOvf.contains q.group then
            slice rec_ 0 8 ++ toLe 1 (leAt rec_ 8 1 ||| 1) ++ slice rec_ 9 55 else rec_ }).applyEarly).progress := by
  subst body folded
  have included : (List.range g.members.length).contains g.rank = true := by simpa using member
  rw [Works] at read
  simp only [startReduce, fresh, Bool.false_eq_true, if_false, withGroup_read group, taken, records, if_true, read, closed,
    unreduced, every, Option.getD_none, included, Bool.not_true, Bool.or_self, Bool.not_false, Bool.and_true]

end Reductions

section Messages

variable {n op : Nat} {o : Outst} {a r : Dp} {g : Group}

/-! ### ALLTOALL, SEND, RECV and BARRIER (R364, R379, R380) -/

/-- What a message does to the data plane in which it has become active: an ALLTOALL grants each other member its block, and a
RECV grants its peer the buffer. -/
def msgGrants (op : Nat) (c : Coll) (g : Group) (bs : List Byte) (d : Dp) : Dp :=
  match op with
  | 0x49 => (List.range g.members.length).foldl (fun (d : Dp) m =>
      if m = g.rank then d else d.grant c m 0 g.rank (msgLen c)) d
  | 0x4B => d.grant c (leAt bs 18 2) 0 0 (msgLen c)
  | _ => d

/-- A message that is no second start and that no row of Table 12.13 refuses becomes active with every member included, and
grants what its opcode grants. -/
theorem startMsg_active {sp : List Span} {c : Coll} (fresh : (a.coll o.uid).isSome = false)
    (group : GroupRead n o (leAt o.bytes 16 2) a g r) (spans : sp = msgSpans op g.members.length o.bytes)
    (peer : (op = 0x4A ∨ op = 0x4B) → leAt o.bytes 18 2 < g.members.length ∧ leAt o.bytes 18 2 ≠ g.rank)
    (source : op ≠ 0x4C → leAt o.bytes 24 8 % 64 = 0) (dest : op = 0x49 → leAt o.bytes 32 8 % 64 = 0)
    (apart : op = 0x49 → (sp.any fun a => a.stored && sp.any fun b => !b.stored && a.meets b) = false)
    (unguarded : r.guardRefuses n sp = false)
    (unused : ¬ (op = 0x4A ∨ op = 0x4B) → r.collById (leAt o.bytes 20 4) = none)
    (coll : c = { uid := o.uid, ring := n, op, o, id := leAt o.bytes 20 4, group := leAt o.bytes 16 2,
                  members := g.members.map (·.endpoint), rank := g.rank, coord := g.coord, start := r.elapsed }) :
    startMsg op n o a = (msgGrants op c g o.bytes ((r.modOutst n o.uid fun o => { o with spans := sp }).addColl
      { c with fixed := true, incl := List.range g.members.length })).applyEarly.progress := by
  have placed : ((op = 0x4A || op = 0x4B) && (g.members.length ≤ leAt o.bytes 18 2 || leAt o.bytes 18 2 = g.rank)) = false := by
    simpa [Nat.not_le] using peer
  have aligned : ((op ≠ 0x4C && leAt o.bytes 24 8 % 64 ≠ 0) || (op = 0x49 && leAt o.bytes 32 8 % 64 ≠ 0)) = false := by
    simpa using ⟨source, dest⟩
  have disjoint : ((op = 0x49 && sp.any fun a => a.stored && sp.any fun b => !b.stored && a.meets b) || r.guardRefuses n sp) = false := by
    rw [unguarded, Bool.or_false, Bool.and_eq_false_imp]
    exact fun h => apart (of_decide_eq_true h)
  have free : (!(op = 0x4A || op = 0x4B) && (r.collById (leAt o.bytes 20 4)).isSome) = false := by
    rw [Bool.and_eq_false_imp]
    intro h
    rw [unused (by simpa using h)]
    rfl
  subst spans coll
  rw [startMsg]
  simp only [fresh, Bool.false_eq_true, if_false, withGroup_read group, placed, aligned, disjoint, free]
  rfl

/-- TIMEOUT_US ends a BARRIER that has one (R381). -/
theorem barrierTimeout_ends {d : Dp} {id : Nat} {x : Coll} (found : d.collById id = some x) (barrier : x.op = 0x4C)
    (timed : leAt x.o.bytes 24 4 ≠ 0) : d.barrierTimeout id = d.endColl x.uid { status := stTimeout } := by
  simp only [barrierTimeout, found, barrier, timed, ne_eq, not_false_eq_true, decide_true, Bool.and_self, if_true]

end Messages

end Dp

/-- Settles O16: a REDUCE starts, and its start turns on its KIND and on whether its member coordinates. -/
theorem reductionsStart : Obligations.ReductionsStart := by
  refine ⟨?elements, ?records⟩
  case elements =>
    intro s n h bs c d o a q body e form
    obtain ⟨-, -, -, rfl⟩ := e.bytes
    refine ⟨(exec_reduce n s).trans (e.start_reduce form), fun g r fresh group => ⟨fun _ refused => ?_, ?_⟩⟩
    · exact Dp.startReduce_refused body fresh group refused
    · intro leaf w x f taken elements nothing read coll frame
      exact ⟨fun reduces other =>
          Dp.startReduce_member body fresh group taken elements nothing read coll reduces other frame,
        fun reduces own => Dp.startReduce_coordinator body fresh group taken elements nothing read coll reduces own,
        fun y gathers all => Dp.startReduce_gather body fresh group taken elements nothing read coll gathers all⟩
  case records =>
    intro s n h bs c d o a q body e form
    obtain ⟨-, -, -, rfl⟩ := e.bytes
    refine ⟨(exec_reduceSteprec n s).trans (e.start_reduce form), ?_⟩
    intro g r b rec_ bad w records fresh group taken read closed unreduced every member folded
    exact Dp.startReduce_record body records fresh group taken read closed unreduced every member folded

/-- Settles O17: each of the four messages starts and becomes active, and its own grants are those of its opcode. -/
theorem messagesStart : Obligations.MessagesStart := by
  refine ⟨?starts, ?timeout⟩
  case starts =>
    intro k s n h bs c d o a op code e form
    subst code
    obtain ⟨-, -, -, rfl⟩ := e.bytes
    refine ⟨?_, ?_⟩
    · match k, e, form with
      | 0, e, form => exact (exec_alltoall n s).trans (e.start_msg form)
      | 1, e, form => exact (exec_send n s).trans (e.start_msg form)
      | 2, e, form => exact (exec_recv n s).trans (e.start_msg form)
      | 3, e, form => exact (exec_barrier n s).trans (e.start_msg form)
    intro g r sp x y fresh group spans peer source dest apart unguarded unused coll active
    subst coll active
    rw [Dp.startMsg_active fresh group spans peer source dest apart unguarded (fun h => unused (by omega)) rfl]
    match k with
    | 0 => rfl
    | 1 => rfl
    | 2 => rfl
    | 3 => rfl
  case timeout =>
    intro s id x live found barrier timed
    exact (exec_barrierTimeout id s).trans (byUnit_leaves live (Dp.barrierTimeout_ends found barrier timed))

end Sys2Proof.Machine
end

section
/-!
PROOFS. What accepted control frames do, and the frames kept for a COLL_ID that is not dispatched yet (R356, R364, R365, R370,
R373, R382).
-/
namespace Sys2Proof.Machine

open State

theorem exec_credit (fr : Culm) (s : State) :
    exec (.credit fr) s = s.byPod fun d => (d.anyCredit (emberAs fr 3 fr.aux)).progressPod := rfl
theorem exec_barrierArrive (fr : Culm) (s : State) :
    exec (.barrierArrive fr) s = s.byPod fun d => (d.rxControl (emberAs fr 4 0)).progressPod := rfl
theorem exec_barrierRelease (fr : Culm) (s : State) :
    exec (.barrierRelease fr) s = s.byPod fun d => (d.rxControl (emberAs fr 4 1)).progressPod := rfl
theorem exec_ready (fr : Culm) (s : State) :
    exec (.ready fr) s = s.byPod fun d => (d.rxControl (emberAs fr 5 0)).progressPod := rfl
theorem exec_bitmap (fr : Culm) (s : State) :
    exec (.bitmap fr) s = s.byPod fun d => (d.rxControl (emberAs fr 5 1)).progressPod := rfl
theorem exec_abort (fr : Culm) (s : State) :
    exec (.abort fr) s = s.byPod fun d => (d.anyAbort (emberAs fr 5 2)).progressPod := rfl
theorem exec_steprec (fr : Culm) (s : State) :
    exec (.steprec fr) s = s.byPod fun d => (d.rxControl (emberAs fr 10 0)).progressPod := rfl

/-- A change of the data plane on the pod links that has the pod go on afterwards. -/
theorem State.byPod_goesOn {s : State} {g : Dp → Dp} {d : Dp} (live : s.podLive = true) (leaves : g s.dp = d) :
    (s.byPod fun d => (g d).progressPod) = .next (s.plane d.progressPod) :=
  byPod_leaves live (congrArg Dp.progressPod leaves)

namespace Dp

variable {d h e : Dp} {f : Culm} {c : Coll} {r : Nat}

/-! ### What a control frame does to the collective it names -/

section Acts

variable (named : h.collById f.msg = some c) (member : rankIn c f.src = some r)

include named in
/-- CREDIT of a message grants (R364). -/
theorem applyControl_credit {x : Credit} (type : f.ty = 3) (going : h.endedFor f.msg f.src false = none)
    (grant : x = { peer := f.src, msg := f.msg, level := f.aux2, block := f.aux32, start := leAt f.payload 0 8,
                   len := leAt f.payload 8 8 }) :
    h.applyControl f = (true, h.modColl c.uid fun c => { c with credits := c.credits ++ [x] }) := by
  subst grant
  simp only [applyControl, type, going, Option.orElse_none, named]

include named in
/-- An ABORT ends what it names, but for a REDUCE whose coordinator has not fixed its members (R382). -/
theorem applyControl_abort (type : f.ty = 5) (kind : f.aux = 2) (settled : c.op ≠ 0x48 ∨ c.rank ≠ c.coord ∨ c.fixed = true) :
    h.applyControl f = (true, h.endColl c.uid { status := f.aux2 }) := by
  have ends : (c.op = 0x48 && c.rank = c.coord && !c.fixed) = false := by simpa [or_assoc, Decidable.imp_iff_not_or] using settled
  simp only [applyControl, type, kind, named, ends, Bool.false_eq_true, if_false]

include named member

/-- A member of a BARRIER arrives (R379). -/
theorem applyControl_arrive (type : f.ty = 4) (kind : f.aux = 0) :
    h.applyControl f = (true, h.modColl c.uid fun c => { c with arrived := r :: c.arrived }) := by
  simp only [applyControl, type, kind, named, member]

/-- A BARRIER is released (R379). -/
theorem applyControl_release (type : f.ty = 4) (kind : f.aux = 1) :
    h.applyControl f = (true, h.modColl c.uid fun c => { c with released := true }) := by
  simp only [applyControl, type, kind, named, member]

/-- The coordinator hears READY (R370). -/
theorem applyControl_ready (type : f.ty = 5) (kind : f.aux = 0) (going : h.endedFor f.msg f.src true = none) :
    h.applyControl f = (true, h.readyFrom c.uid r (leAt f.payload 0 8) (f.aux32 = 1)) := by
  simp only [applyControl, type, kind, going, named, member]

/-- A member learns the members of its REDUCE (R370). -/
theorem applyControl_bitmap (type : f.ty = 5) (kind : f.aux = 1) :
    h.applyControl f =
      (true, h.applyBitmap c.uid (bitRanks (slice f.payload 0 64)) (bitRanks (slice f.payload 64 64))) := by
  simp only [applyControl, type, kind, named, member]

/-- A record from a rank that is no child here comes down the tree (R373). -/
theorem applyControl_record (type : f.ty = 10)
    (noChild : (c.hosted 0).all (fun v => (c.children v).all fun x => x.1 ≠ f.aux2 || c.host 0 x.2 ≠ r) = true) :
    h.applyControl f = (true, h.modColl c.uid fun c => { c with parts := c.parts ++
      [{ phase := 1, level := 0, block := 0, who := 0, ofs := 0, bytes := f.payload, poison := f.poison, src := f.src }] }) := by
  have kid : ((c.hosted 0).any fun v => (c.children v).any fun x => x.1 = f.aux2 && c.host 0 x.2 = r) = false := by
    refine List.any_eq_false.mpr fun v hosted => ?_
    rw [Bool.not_eq_true]
    refine List.any_eq_false.mpr fun x child => ?_
    simpa [Decidable.imp_iff_not_or] using List.all_eq_true.mp (List.all_eq_true.mp noChild v hosted) x child
  simp only [applyControl, type, named, member, kid, Bool.false_eq_true, if_false]

end Acts

/-- The frames of a collective act on none that is not dispatched here. -/
theorem applyControl_none (type : f.ty = 4 ∨ (f.ty = 5 ∧ f.aux < 2) ∨ f.ty = 10) (unnamed : h.collById f.msg = none)
    (going : h.endedFor f.msg f.src true = none) : h.applyControl f = (false, h) := by
  obtain type | ⟨type, kind⟩ | type := type
  · by_cases arrives : f.aux = 0
    · simp only [applyControl, type, arrives, unnamed]
    · simp only [applyControl, type, unnamed]
  · obtain kind | kind : f.aux = 0 ∨ f.aux = 1 := by omega
    all_goals simp only [applyControl, type, kind, going, unnamed]
  · simp only [applyControl, type, unnamed]

/-! ### Accepted control frames -/

section Accepted

variable (hears : d.Hears 1 f) (noted : h = d.heard 1 f)
include hears noted

/-- A control frame that acts is accepted, and what its collective may do follows. -/
theorem rxControl_acts (few : d.lnk.early.length < 4096) (acts : h.applyControl f = (true, e)) : d.rxControl f = e.progress := by
  simp only [rxControl, Nat.not_le_of_lt few, decide_false, Bool.and_false, Bool.false_eq_true, if_false,
    receive_hears hears noted, acts]

/-- One that acts on nothing here is kept while there is room (R364). -/
theorem rxControl_kept (few : d.lnk.early.length < 4096) (waits : h.applyControl f = (false, h)) :
    d.rxControl f = { h with lnk := { h.lnk with early := h.lnk.early ++ [f] } } := by
  simp only [rxControl, Nat.not_le_of_lt few, decide_false, Bool.and_false, Bool.false_eq_true, if_false,
    receive_hears hears noted, waits, keepEarly]

/-- A CREDIT for rows of a LIVE generation is granted there, and lets rows that wait for it go (R298). -/
theorem rxRowCredit_live {g : Gen} (gen : g = h.gen f.msg) (live : g.st = .live) :
    d.rxRowCredit f = (h.setGen f.msg { g with grants := g.grants ++
      [{ from_ := f.src, kind := f.aux2 - 254, start := leAt f.payload 0 8, len := leAt f.payload 8 8 }] }).pumpRows f.msg := by
  subst gen
  rw [rxRowCredit, receive_hears hears noted]
  simp only [live, ne_eq, not_true_eq_false, if_false]
  rfl

end Accepted

/-- A CREDIT that is for no row and asks for no repair is one of a message. -/
theorem anyCredit_message (message : f.aux2 < 254) (unasked : d.repairAsked f = none) : d.anyCredit f = d.rxControl f := by
  simp only [anyCredit, Nat.not_le_of_lt message, if_false, unasked]

theorem anyCredit_rows (rows : 254 ≤ f.aux2) : d.anyCredit f = d.rxRowCredit f := if_pos rows

/-- An ABORT that refuses no repair is one of a message. -/
theorem anyAbort_message (message : d.repairOf f = none) : d.anyAbort f = d.rxControl f := by
  simp only [anyAbort, message]

end Dp

/-- Settles O34: an accepted control frame acts as its type says on the collective it names; one that names none is kept, and one
for rows goes to its generation. -/
theorem controlFramesAct : Obligations.ControlFramesAct := by
  refine ⟨?acts, ?rows, ?kept⟩
  case acts =>
    intro s fr f h c r live few hears noted named member
    refine ⟨?credit, ?arrive, ?release, ?ready, ?bitmap, ?abort, ?record⟩
    case credit =>
      rintro x rfl message unasked going grant
      exact (exec_credit fr s).trans (byPod_goesOn live ((Dp.anyCredit_message message unasked).trans
        (Dp.rxControl_acts hears noted few (Dp.applyControl_credit named rfl going grant))))
    case arrive =>
      rintro rfl
      exact (exec_barrierArrive fr s).trans (byPod_goesOn live
        (Dp.rxControl_acts hears noted few (Dp.applyControl_arrive named member rfl rfl)))
    case release =>
      rintro rfl
      exact (exec_barrierRelease fr s).trans (byPod_goesOn live
        (Dp.rxControl_acts hears noted few (Dp.applyControl_release named member rfl rfl)))
    case ready =>
      rintro rfl going
      exact (exec_ready fr s).trans (byPod_goesOn live
        (Dp.rxControl_acts hears noted few (Dp.applyControl_ready named member rfl rfl going)))
    case bitmap =>
      rintro rfl
      exact (exec_bitmap fr s).trans (byPod_goesOn live
        (Dp.rxControl_acts hears noted few (Dp.applyControl_bitmap named member rfl rfl)))
    case abort =>
      rintro rfl message settled
      exact (exec_abort fr s).trans (byPod_goesOn live ((Dp.anyAbort_message message).trans
        (Dp.rxControl_acts hears noted few (Dp.applyControl_abort named rfl rfl settled))))
    case record =>
      rintro rfl noChild
      exact (exec_steprec fr s).trans (byPod_goesOn live
        (Dp.rxControl_acts hears noted few (Dp.applyControl_record named member rfl noChild)))
  case rows =>
    rintro s fr f h g live rfl rows hears noted gen isLive
    exact (exec_credit fr s).trans (byPod_goesOn live ((Dp.anyCredit_rows rows).trans
      (Dp.rxRowCredit_live hears noted gen isLive)))
  case kept =>
    intro s k fr f live few hears unnamed going frame
    have waits (type : f.ty = 4 ∨ (f.ty = 5 ∧ f.aux < 2) ∨ f.ty = 10) :=
      Dp.rxControl_kept hears rfl few (Dp.applyControl_none type unnamed going)
    subst frame
    match k with
    | 0 => exact (exec_barrierArrive fr s).trans (byPod_goesOn live (waits (.inl rfl)))
    | 1 => exact (exec_barrierRelease fr s).trans (byPod_goesOn live (waits (.inl rfl)))
    | 2 => exact (exec_ready fr s).trans (byPod_goesOn live (waits (.inr (.inl ⟨rfl, Nat.zero_lt_two⟩))))
    | 3 => exact (exec_bitmap fr s).trans (byPod_goesOn live (waits (.inr (.inl ⟨rfl, Nat.one_lt_two⟩))))
    | 4 => exact (exec_steprec fr s).trans (byPod_goesOn live (waits (.inr (.inr rfl))))

end Sys2Proof.Machine
end

section
/-!
PROOFS. What accepted DATA does, and what acknowledgements and NAKs do to a connection (R298, R361, R362, R379, R380).
-/
namespace Sys2Proof.Machine

open State

theorem exec_data (fr : Culm) (s : State) :
    exec (.data fr) s = s.byPod fun d => (d.anyData (bulk fr 0)).progressPod := rfl
theorem exec_ack (fr : Culm) (s : State) :
    exec (.ack fr) s = s.byPod fun d => (d.rxAck (emberAs fr 1 fr.aux)).progressPod := rfl

namespace Dp

variable {d h : Dp} {f : Culm} {c : Coll} {r : Nat} {p : Part}

/-! ### DATA (R361, R379, R380) -/

/-- DATA that is of no row and of no repair is a collective's or a message's. -/
theorem anyData_message (message : f.aux ≠ 3 ∨ f.aux2 < 254) (other : f.aux = 2 → d.repairOf f = none) :
    d.anyData f = d.rxData f := by
  have noRow : (f.aux = 3 && 254 ≤ f.aux2) = false := by simpa [Decidable.imp_iff_not_or, Nat.not_le] using message
  have noRepair : (if f.aux = 2 then d.repairOf f else none) = none := by
    split
    · exact other ‹_›
    · rfl
  simp only [anyData, noRow, Bool.false_eq_true, if_false, noRepair]

section Accepted

variable (hears : d.Hears 0 f) (noted : h = d.heard 0 f)
  (part : p = { phase := f.aux, level := 0, block := f.aux32, who := 0, ofs := f.ofs, bytes := f.payload, poison := f.poison,
                src := f.src })
include hears noted part

/-- The first phase of a collective takes its bytes for the child whose are still missing. -/
theorem rxData_reduce (phase : f.aux = 0) (named : h.collById f.msg = some c) (member : rankIn c f.src = some r) :
    d.rxData f = (h.modColl c.uid fun x => { x with parts := x.parts ++
      [{ p with level := f.aux2, who := edgeWho c f.aux32 f.aux2 r f.ofs }] }).progress := by
  subst part
  rw [rxData, receive_hears hears noted]
  simp only [phase, Nat.reduceEqDiff, if_false, named, member]

/-- The second phase of a collective takes its bytes for their block. -/
theorem rxData_result (phase : f.aux = 1) (named : h.collById f.msg = some c) (member : rankIn c f.src = some r) :
    d.rxData f = (h.modColl c.uid fun x => { x with parts := x.parts ++ [p] }).progress := by
  subst part
  rw [rxData, receive_hears hears noted]
  simp only [phase, Nat.reduceEqDiff, if_false, named, member]

/-- A RECV of the tag that lacks the bytes and has room for them takes them (R380). -/
theorem rxData_recv (phase : f.aux = 2) (waits : h.byTag 0x4B f.src f.msg (fun c =>
      c.group = f.group && !(c.parts.any fun p => p.ofs = f.ofs) && f.ofs + f.payload.length ≤ msgLen c) = some c) :
    d.rxData f = (h.modColl c.uid fun x => { x with parts := x.parts ++ [{ p with block := 0 }] }).progress := by
  subst part
  rw [rxData, receive_hears hears noted]
  simp only [phase, if_true, waits]

/-- An ALLTOALL takes the bytes that fit for the block of their sender (R379). -/
theorem rxData_exchange (phase : f.aux = 3) (named : h.collById f.msg = some c) (member : rankIn c f.src = some r)
    (fits : f.ofs + f.payload.length ≤ msgLen c) :
    d.rxData f = (h.modColl c.uid fun x => { x with parts := x.parts ++ [{ p with block := r }] }).progress := by
  subst part
  rw [rxData, receive_hears hears noted]
  simp only [phase, Nat.reduceEqDiff, if_false, named, member, Nat.not_lt_of_le fits]

end Accepted

/-- A row of a LIVE generation that can be written is accepted and written (R298). -/
theorem anyData_row {g : Gen} {v w : Wk} (hears : d.Hears 0 f) (noted : h = d.heard 0 f) (phase : f.aux = 3)
    (row : 254 ≤ f.aux2) (gen : g = d.gen f.msg) (live : g.st = .live) (fits : Works (rowWork f g) d () v)
    (writes : Works (rowWork f (h.gen f.msg)) h () w) : d.anyData f = (w.d.progressRoutes).settleGen f.msg := by
  subst gen
  rw [Works] at fits writes
  have isRow : (f.aux = 3 && 254 ≤ f.aux2) = true := by simp [phase, row]
  rw [anyData, if_pos isRow]
  simp only [rxRow, live, reduceCtorEq, decide_false, Bool.false_and, Bool.false_eq_true, if_false, ne_eq, not_true_eq_false,
    fits, receive_hears hears noted, writes]

/-! ### ACK and NAK (R361, R362) -/

section Answers

variable {cls : Nat} {x : Conn} (on : d.lnkOn = true) (here : f.dst = d.me) (reachable : (d.peer f.src).down = false)
  (class_ : cls = if f.aux = 1 then 1 else 0)
include on here reachable class_

/-- An ACK takes the frames it acknowledges off the connection, samples how long each took, and lets queued frames follow. -/
theorem rxAck_done {done : TxFrame → Bool} {b : Dp} (conn : x = d.conn f.src cls) (epoch : f.epoch = x.epoch)
    (told : ∀ t, done t = ((t.frame.psn + 2 ^ 32 - f.psn) % 2 ^ 32 = 0 || 2 ^ 31 ≤ (t.frame.psn + 2 ^ 32 - f.psn) % 2 ^ 32 ||
      ((t.frame.psn + 2 ^ 32 - f.psn) % 2 ^ 32 ≤ 256 &&
        (leAt f.payload 0 32).testBit ((t.frame.psn + 2 ^ 32 - f.psn) % 2 ^ 32 - 1))))
    (sampled : b = (x.unacked.filter done).foldl (fun (d : Dp) t =>
      d.monSample 2 (fun x => x % 256 = 255 || x = t.port) ((d.now : Int) - t.time))
      (d.setConn f.src cls { x with unacked := x.unacked.filter fun t => !done t })) :
    d.rxAck f = b.flushQueue f.src cls := by
  obtain rfl := funext told
  subst sampled conn class_
  simp only [rxAck, on, here, reachable, epoch, Bool.not_true, ne_eq, not_true_eq_false, decide_false, Bool.or_self,
    Bool.false_eq_true, if_false]

/-- A NAK of the connection's epoch has the frame it names sent again. -/
theorem rxNak_resends (epoch : f.epoch = (d.conn f.src cls).epoch) : d.rxNak f = d.resend f.src cls f.psn := by
  subst class_
  simp only [rxNak, on, here, reachable, epoch, Bool.not_true, ne_eq, not_true_eq_false, decide_false, Bool.or_self,
    Bool.false_eq_true, if_false]

/-- An ACK of another epoch counts as discarded (R363). -/
theorem rxAck_otherEpoch (other : f.epoch ≠ (d.conn f.src cls).epoch) : d.rxAck f = d.bump (Reg.lnkCnt 2) := by
  subst class_
  simp only [rxAck, on, here, reachable, Bool.not_true, ne_eq, not_true_eq_false, decide_false, Bool.or_self, Bool.false_eq_true,
    if_false]
  exact if_pos other

/-- So does a NAK. -/
theorem rxNak_otherEpoch (other : f.epoch ≠ (d.conn f.src cls).epoch) : d.rxNak f = d.bump (Reg.lnkCnt 2) := by
  subst class_
  simp only [rxNak, on, here, reachable, Bool.not_true, ne_eq, not_true_eq_false, decide_false, Bool.or_self, Bool.false_eq_true,
    if_false]
  exact if_pos other

end Answers

section Resend

variable {peer cls psn : Nat} {x : Conn} {t : TxFrame} (conn : x = d.conn peer cls) (reachable : (d.peer peer).down = false)
  (kept : x.unacked.find? (fun t => t.frame.psn = psn) = some t)
include conn reachable kept

/-- A frame that is kept and has been sent again less than MAX times takes a port and goes out again (R362). -/
theorem resend_again {q : Nat} (few : t.tries < (d.reg Reg.lnkRetry).fld 3 0) (way : d.route peer t.frame.group cls = some q) :
    d.resend peer cls psn = ((d.setConn peer cls { x with unacked := x.unacked.map fun y =>
      if y.frame.psn = psn then { t with tries := t.tries + 1, port := q } else y }).emit q
        { t.frame with retx := true }).bump (Reg.lnkCnt 4) := by
  subst conn
  simp only [resend, kept, reachable, Bool.false_eq_true, if_false, Nat.not_le_of_lt few, way]

/-- Past MAX times the peer is unreachable (R362). -/
theorem resend_exhausted (often : (d.reg Reg.lnkRetry).fld 3 0 ≤ t.tries) : d.resend peer cls psn =
    ((d.bump (Reg.lnkCnt 5)).ashLog { time := d.now, cls := 4, code := 0, data := peer }).unreachable peer := by
  subst conn
  simp only [resend, kept, reachable, Bool.false_eq_true, if_false, often, if_true]

end Resend

end Dp

/-- Settles O35: accepted DATA turns on its phase, and an ACK and a NAK on the epoch and the frames that the connection keeps. -/
theorem dataAcksAndNaks : Obligations.DataAcksAndNaks := by
  refine ⟨?data, ?ack, ?nak, ?epochs⟩
  case data =>
    rintro s fr f h c r p live rfl hears noted part
    have message {b : Dp} (kind : (bulk fr 0).aux ≠ 3 ∨ (bulk fr 0).aux2 < 254)
        (other : (bulk fr 0).aux = 2 → s.dp.repairOf (bulk fr 0) = none) (acts : s.dp.rxData (bulk fr 0) = b) :
        exec (.data fr) s = .next (s.plane b.progressPod) :=
      (exec_data fr s).trans (byPod_goesOn live ((Dp.anyData_message kind other).trans acts))
    refine ⟨fun phase named member => ?_, fun phase named member => ?_, fun phase other waits => ?_,
      fun phase short named member fits => ?_, fun g v w phase row gen isLive fits writes => ?_⟩
    · exact message (.inl (by omega)) (fun k => by omega) (Dp.rxData_reduce hears noted part phase named member)
    · exact message (.inl (by omega)) (fun k => by omega) (Dp.rxData_result hears noted part phase named member)
    · exact message (.inl (by omega)) (fun _ => other) (Dp.rxData_recv hears noted part phase waits)
    · exact message (.inr short) (fun k => by omega) (Dp.rxData_exchange hears noted part phase named member fits)
    · exact (exec_data fr s).trans (byPod_goesOn live (Dp.anyData_row hears noted phase row gen isLive fits writes))
  case ack =>
    rintro s fr f cls c done b live rfl on here reachable class_ conn epoch told sampled
    exact (exec_ack fr s).trans (byPod_goesOn live
      (Dp.rxAck_done on here reachable class_ conn epoch told sampled))
  case nak =>
    rintro s fr f cls c t live rfl on here reachable class_ conn epoch kept
    have resends := Dp.rxNak_resends on here reachable class_ (epoch.trans (congrArg Conn.epoch conn))
    refine ⟨fun q few way => ?_, fun often => ?_⟩
    · exact (exec_nak fr s).trans (byPod_goesOn live (resends.trans (Dp.resend_again conn reachable kept few way)))
    · exact (exec_nak fr s).trans (byPod_goesOn live (resends.trans (Dp.resend_exhausted conn reachable kept often)))
  case epochs =>
    intro s fr f cls live on here reachable class_ other
    refine ⟨?_, ?_⟩
    · rintro rfl
      exact (exec_ack fr s).trans (byPod_goesOn live (Dp.rxAck_otherEpoch on here reachable class_ other))
    · rintro rfl
      exact (exec_nak fr s).trans (byPod_goesOn live (Dp.rxNak_otherEpoch on here reachable class_ other))

end Sys2Proof.Machine
end

section
/-!
PROOFS. A Culm frame that is written as Table 12.5 lays it out is read back whole (R358).
-/
namespace Sys2Proof.Machine

/-- A slice behind other bytes. -/
theorem slice_skip (a b : List Byte) (o k : Nat) (h : a.length ≤ o) : slice (a ++ b) o k = slice b (o - a.length) k := by
  simp only [slice, List.drop_append, List.drop_eq_nil_of_le h, List.nil_append]

/-- The slice of all bytes in front of others. -/
theorem slice_front (a b : List Byte) : slice (a ++ b) 0 a.length = a := by
  simp [slice]

namespace Dp

/-- The flags byte of a frame (Table 12.5). -/
def culmFlags (f : Culm) : Nat :=
  let b (x : Bool) (k : Nat) : Nat := if x then 2 ^ k else 0
  b f.ember 0 + b f.last 1 + b f.retx 2 + b f.poison 3 + f.epoch % 4 * 16

/-- A header takes 32 bytes. -/
theorem length_culmHead (f : Culm) : (culmHead f).length = 32 := by
  simp only [culmHead, List.length_append, length_toLe]

/-- A frame's bytes: its header, its payload, and the check over both. -/
theorem length_culmBytes (f : Culm) : (culmBytes f).length = 36 + f.payload.length := by
  simp only [culmBytes, List.length_append, length_toLe, length_culmHead]
  omega

/-- The fields of a frame fit Table 12.5. -/
structure Fits (f : Culm) : Prop where
  ty : f.ty < 16
  epoch : f.epoch < 4
  src : f.src < 4096
  dst : f.dst < 4096
  group : f.group < 256 ^ 2
  psn : f.psn < 256 ^ 4
  msg : f.msg < 256 ^ 4
  ofs : f.ofs < 256 ^ 8
  aux : f.aux < 256 ^ 1
  aux2 : f.aux2 < 256 ^ 1
  aux32 : f.aux32 < 256 ^ 4
  len : f.payload.length ≤ 4096

theorem fits_of_wf {f : Culm} (wf : f.wf = true) : Fits f := by
  simp only [Culm.wf, fits, Bool.and_eq_true, decide_eq_true_eq] at wf
  obtain ⟨⟨⟨⟨⟨⟨⟨⟨⟨⟨⟨ty, epoch⟩, src⟩, dst⟩, group⟩, psn⟩, msg⟩, ofs⟩, aux⟩, aux2⟩, aux32⟩, len⟩ := wf
  exact ⟨ty, epoch, src, dst, group, psn, msg, ofs, aux, aux2, aux32, len⟩

/-- The flags byte of a frame holds its flags and its epoch. -/
theorem culmFlags_fields {f : Culm} (epoch : f.epoch < 4) : culmFlags f < 64 ∧ (culmFlags f).testBit 0 = f.ember ∧
    (culmFlags f).testBit 1 = f.last ∧ (culmFlags f).testBit 2 = f.retx ∧ (culmFlags f).testBit 3 = f.poison ∧
    natFld (culmFlags f) 5 4 = f.epoch := by
  have fields := culm_flags f.ember f.last f.retx f.poison ⟨f.epoch, epoch⟩
  rwa [culmFlags, Nat.mod_eq_of_lt epoch]

/-- The fields of a frame's header, whatever follows it (Table 12.5). -/
theorem culmHead_fields {f : Culm} (wf : Fits f) (rest : List Byte) :
    let b := culmHead f ++ rest
    leAt b 0 1 = 16 + f.ty ∧ leAt b 1 1 = culmFlags f ∧ leAt b 2 2 = f.src ∧ leAt b 4 2 = f.dst ∧ leAt b 6 2 = f.group ∧
    leAt b 8 4 = f.psn ∧ leAt b 12 4 = f.msg ∧ leAt b 16 8 = f.ofs ∧ leAt b 24 2 = f.payload.length ∧ leAt b 26 1 = f.aux ∧
    leAt b 27 1 = f.aux2 ∧ leAt b 28 4 = f.aux32 := by
  have byte : 16 + f.ty < 256 ^ 1 := Nat.lt_of_lt_of_le (Nat.add_lt_add_left wf.ty 16) (by decide)
  have flags : culmFlags f < 256 ^ 1 := Nat.lt_trans (culmFlags_fields wf.epoch).1 (by decide)
  have src : f.src < 256 ^ 2 := Nat.lt_trans wf.src (by decide)
  have dst : f.dst < 256 ^ 2 := Nat.lt_trans wf.dst (by decide)
  have len : f.payload.length < 256 ^ 2 := Nat.lt_of_le_of_lt wf.len (by decide)
  have head : culmHead f = toLe 1 (16 + f.ty) ++ toLe 1 (culmFlags f) ++ toLe 2 f.src ++ toLe 2 f.dst ++ toLe 2 f.group ++
      toLe 4 f.psn ++ toLe 4 f.msg ++ toLe 8 f.ofs ++ toLe 2 f.payload.length ++ toLe 1 f.aux ++ toLe 1 f.aux2 ++
      toLe 4 f.aux32 := by
    rw [culmHead, Nat.mod_eq_of_lt wf.ty, Nat.mod_eq_of_lt wf.src, Nat.mod_eq_of_lt wf.dst]
    rfl
  simp only [head, List.append_assoc, leAt_skip, length_toLe, Nat.reduceLeDiff, Nat.reduceSub, Nat.le_refl, leAt_head, byte, flags,
    src, wf.group, dst, wf.psn, wf.msg, wf.ofs, len, wf.aux, wf.aux2, wf.aux32, and_self]

/-- The payload of a frame, behind its header. -/
theorem culmBytes_payload (f : Culm) : slice (culmBytes f) 32 f.payload.length = f.payload := by
  rw [culmBytes, List.append_assoc, slice_skip _ _ _ _ (Nat.le_of_eq (length_culmHead f)), length_culmHead]
  exact slice_front _ _

/-- The check of a frame, behind its payload. -/
theorem culmBytes_check (f : Culm) :
    leAt (culmBytes f) (32 + f.payload.length) 4 = crc32c ((culmBytes f).take (32 + f.payload.length)) := by
  have size : (culmHead f ++ f.payload).length = 32 + f.payload.length := by rw [List.length_append, length_culmHead]
  rw [culmBytes, leAt_skip _ _ _ _ (Nat.le_of_eq size), size, Nat.sub_self, ← size, List.take_left, leAt_toLe, Nat.mod_eq_of_lt]
  exact Nat.lt_of_lt_of_le (crc32c_lt _) (by decide)

/-- What is read of a frame's bytes is the frame, when its TYPE is no reserved one (R358, R359). -/
theorem culmRead_culmBytes {f : Culm} (wf : Fits f) (known : f.ty ≤ 10) : culmRead (culmBytes f) = some f := by
  obtain ⟨small, ember, last, retx, poison, epoch⟩ := culmFlags_fields wf.epoch (f := f)
  obtain ⟨ty, flags, src, dst, group, psn, msg, ofs, len, aux, aux2, aux32⟩ :=
    culmHead_fields wf (f.payload ++ toLe 4 (crc32c (culmHead f ++ f.payload)))
  have bytes : culmHead f ++ (f.payload ++ toLe 4 (crc32c (culmHead f ++ f.payload))) = culmBytes f :=
    (List.append_assoc _ _ _).symm
  rw [bytes] at ty flags src dst group psn msg ofs len aux aux2 aux32
  have size : 36 + f.payload.length - 4 = 32 + f.payload.length := by omega
  have version : (16 + f.ty) / 16 = 1 ∧ (16 + f.ty) % 16 = f.ty := by have := wf.ty; omega
  have whole : ¬ 36 + f.payload.length < 36 := by omega
  simp only [culmRead, size, length_culmBytes, ty, flags, src, dst, group, psn, msg, ofs, len, aux, aux2, aux32, version,
    culmBytes_check, culmBytes_payload, ember, last, retx, poison, epoch, Nat.mod_eq_of_lt wf.src, Nat.mod_eq_of_lt wf.dst,
    Nat.add_sub_cancel_left, whole, Nat.not_lt_of_le known, Nat.not_le_of_lt small, ne_eq, not_true_eq_false, decide_false,
    Bool.or_self, Bool.false_eq_true, if_false]

end Dp

end Sys2Proof.Machine
end

section
/-!
PROOFS. Connections that restart, and frames that are discarded (R359, R363).
-/
namespace Sys2Proof.Machine

open State

theorem exec_connectionResetAck (fr : Culm) (s : State) :
    exec (.connectionResetAck fr) s = s.byPod fun d => d.rxResetAck { emberAs fr 1 0 with aux2 := 1 } := rfl
theorem exec_frameDiscard (w : Option (Nat × Nat × Nat)) (s : State) :
    exec (.frameDiscard w) s = s.byPod fun d => d.frameDiscard w := rfl

namespace Dp

variable {d : Dp} {f : Culm}

/-! ### Connections and peers, as the links' operations leave them -/

theorem conn_setConn (d : Dp) (p q : Nat) (i j : Fin 2) (x : Conn) :
    (d.setConn p i x).conn q j = if q = p ∧ j = i then x else d.conn q j := by
  simp only [conn, setConn, Tab.get_set]
  exact ite_congr (propext ⟨fun h => by omega, fun ⟨h, k⟩ => by rw [h, k]⟩) (fun _ => rfl) (fun _ => rfl)

@[simp] theorem conn_setPeer (d : Dp) (p : Nat) (x : Peer) (q k : Nat) : (d.setPeer p x).conn q k = d.conn q k := rfl
@[simp] theorem peer_setPeer_same (d : Dp) (p : Nat) (x : Peer) : (d.setPeer p x).peer p = x := Tab.get_set_same _ _ _ _
@[simp] theorem peer_setConn (d : Dp) (p k : Nat) (x : Conn) (q : Nat) : (d.setConn p k x).peer q = d.peer q := rfl
@[simp] theorem conn_emit (d : Dp) (q : Nat) (f : Culm) (p k : Nat) : (d.emit q f).conn p k = d.conn p k := rfl
@[simp] theorem peer_emit (d : Dp) (q : Nat) (f : Culm) (p : Nat) : (d.emit q f).peer p = d.peer p := rfl

@[simp] theorem conn_control (d : Dp) (p : Nat) (f : Culm) (q k : Nat) : (d.control p f).conn q k = d.conn q k := by
  rw [control]
  split <;> rfl

@[simp] theorem peer_control (d : Dp) (p : Nat) (f : Culm) (q : Nat) : (d.control p f).peer q = d.peer q := by
  rw [control]
  split <;> rfl

/-- Both connections to a peer take the epoch, with nothing of what they held (R363). -/
theorem conn_adoptEpoch (d : Dp) (p e : Nat) (k : Fin 2) : (d.adoptEpoch p e).conn p k = { epoch := e } := by
  have first := conn_setConn d p p 0 k { epoch := e }
  have second := conn_setConn (d.setConn p 0 { epoch := e }) p p 1 k { epoch := e }
  rw [adoptEpoch]
  match k with
  | 0 => exact (second.trans (if_neg (fun h => absurd h.2 (by decide)))).trans (first.trans (if_pos ⟨rfl, rfl⟩))
  | 1 => exact second.trans (if_pos ⟨rfl, rfl⟩)

/-- The answer to a restart leaves both connections at its epoch, and the peer reachable. -/
theorem conn_answerReset (d : Dp) (p e : Nat) (k : Fin 2) : (d.answerReset p e).conn p k = { epoch := e } := by
  rw [answerReset, conn_control, conn_setPeer, conn_adoptEpoch]

theorem peer_answerReset (d : Dp) (p e : Nat) :
    (d.answerReset p e).peer p = { d.peer p with down := false, resetting := false } := by
  rw [answerReset, peer_control, peer_setPeer_same]

/-- What a peer's restart leaves of what came from it is written. -/
theorem parts_dropUnwritten (d : Dp) (p : Nat) :
    ∀ c ∈ (d.dropUnwritten p).lnk.colls, ∀ x ∈ c.parts, x.stored = true ∨ x.src ≠ p := by
  intro c there x part
  obtain ⟨c, -, rfl⟩ := List.mem_map.mp there
  simpa using (List.mem_filter.mp part).2

/-! ### A reset NAK (R363) -/

section ResetNak

variable (on : d.lnkOn = true) (here : f.dst = d.me)
include on here

/-- The restart of a peer that is not restarting here makes it unreachable first. -/
theorem rxResetNak_first (steady : (d.peer f.src).resetting = false)
    (news : f.epoch ≠ (d.conn f.src 0).epoch ∨ (d.peer f.src).down = true) : d.rxResetNak f =
    ((((d.unreachable f.src).dropUnwritten f.src).progressPod.answerReset f.src f.epoch).progressPod) := by
  have unanswered : (f.epoch = (d.conn f.src 0).epoch && !(d.peer f.src).down) = false := by simpa [Decidable.imp_iff_not_or] using news
  simp only [rxResetNak, on, here, steady, unanswered, Bool.not_true, ne_eq, not_true_eq_false, decide_false, Bool.or_self,
    Bool.false_and, Bool.false_eq_true, if_false]

/-- When both restart, the epoch of a peer with the lower number is taken over. -/
theorem rxResetNak_yields (restarts : (d.peer f.src).resetting = true) (lower : f.src ≤ d.me)
    (news : f.epoch ≠ (d.conn f.src 0).epoch ∨ (d.peer f.src).down = true) :
    d.rxResetNak f = (d.answerReset f.src f.epoch).progressPod := by
  have unanswered : (f.epoch = (d.conn f.src 0).epoch && !(d.peer f.src).down) = false := by simpa [Decidable.imp_iff_not_or] using news
  simp only [rxResetNak, on, here, restarts, Nat.not_lt_of_le lower, unanswered, Bool.not_true, ne_eq, not_true_eq_false,
    decide_false, Bool.or_self, Bool.and_false, Bool.false_and, Bool.false_eq_true, if_false, if_true]

/-- When both restart, the lower number keeps its own epoch. -/
theorem rxResetNak_keeps (restarts : (d.peer f.src).resetting = true) (lower : d.me < f.src)
    (other : f.epoch ≠ (d.conn f.src 0).epoch) : d.rxResetNak f = d := by
  simp only [rxResetNak, on, here, restarts, lower, other, Bool.not_true, ne_eq, not_true_eq_false, decide_false, decide_true,
    Bool.or_self, Bool.not_false, Bool.and_self, Bool.false_eq_true, if_false, if_true]

/-- A repeated one is only answered. -/
theorem rxResetNak_repeated (same : f.epoch = (d.conn f.src 0).epoch) (reachable : (d.peer f.src).down = false) :
    d.rxResetNak f = d.control f.src { ty := 1, ember := true, epoch := f.epoch, aux2 := 1 } := by
  simp only [rxResetNak, on, here, same, reachable, Bool.not_true, ne_eq, not_true_eq_false, decide_false, decide_true,
    Bool.or_self, Bool.not_false, Bool.and_false, Bool.and_self, Bool.false_eq_true, if_false, if_true]

/-! ### A reset ACK (R363) -/

variable (reachable : (d.peer f.src).down = false)
include reachable

/-- The answer to this module's own restart completes it, and queued frames follow. -/
theorem rxResetAck_completes (same : f.epoch = (d.conn f.src 0).epoch) (restarts : (d.peer f.src).resetting = true) :
    d.rxResetAck f =
      ((d.setPeer f.src { d.peer f.src with resetting := false }).flushQueue f.src 0).flushQueue f.src 1 := by
  simp only [rxResetAck, on, here, reachable, same, restarts, Bool.not_true, ne_eq, not_true_eq_false, decide_false, Bool.or_self,
    Bool.false_eq_true, if_false]

/-- One that answers nothing does nothing. -/
theorem rxResetAck_idle (same : f.epoch = (d.conn f.src 0).epoch) (steady : (d.peer f.src).resetting = false) :
    d.rxResetAck f = d := by
  simp only [rxResetAck, on, here, reachable, same, steady, Bool.not_true, ne_eq, not_true_eq_false, decide_false, Bool.or_self,
    Bool.false_eq_true, if_false, Bool.not_false, if_true]

/-- One of another epoch counts as discarded. -/
theorem rxResetAck_otherEpoch (other : f.epoch ≠ (d.conn f.src 0).epoch) : d.rxResetAck f = d.bump (Reg.lnkCnt 2) := by
  simp only [rxResetAck, on, here, reachable, other, Bool.not_true, ne_eq, not_true_eq_false, decide_false, Bool.or_self,
    Bool.false_eq_true, if_false, not_false_eq_true, if_true]

end ResetNak

/-- A discarded frame counts, and is NAKed where its connection and PSN can be told (R359). -/
theorem frameDiscard_none (on : d.lnkOn = true) : d.frameDiscard none = d.bump (Reg.lnkCnt 2) := by
  simp only [frameDiscard, on, Bool.not_true, Bool.false_eq_true, if_false]

theorem frameDiscard_some (on : d.lnkOn = true) (p cls psn : Nat) :
    d.frameDiscard (some (p, cls, psn)) = (d.bump (Reg.lnkCnt 2)).sendNak p cls psn := by
  simp only [frameDiscard, on, Bool.not_true, Bool.false_eq_true, if_false]

end Dp

/-- Settles O36: a reset NAK turns on who restarts and on its epoch, a reset ACK on its epoch, and what Table 12.5 lays out is
read back field by field. -/
theorem connectionsRestart : Obligations.ConnectionsRestart := by
  refine ⟨?nak, ?answer, ?ack, ?discard, ?codec⟩
  case nak =>
    rintro s fr f p live rfl on here rfl
    have runs {b : Dp} (h : s.dp.rxResetNak { emberAs fr 2 0 with aux2 := 1 } = b) :
        exec (.connectionResetNak fr) s = .next (s.plane b) := (exec_connectionResetNak fr s).trans (byPod_leaves live h)
    exact ⟨fun steady news => runs (Dp.rxResetNak_first on here steady news),
      fun restarts lower news => runs (Dp.rxResetNak_yields on here restarts lower news),
      fun restarts lower other => runs (Dp.rxResetNak_keeps on here restarts lower other),
      fun same reachable => runs (Dp.rxResetNak_repeated on here same reachable)⟩
  case answer =>
    intro d p e
    have peer := d.peer_answerReset p e
    exact ⟨d.conn_answerReset p e 0, d.conn_answerReset p e 1, by rw [peer], by rw [peer], d.parts_dropUnwritten p⟩
  case ack =>
    rintro s fr f live rfl on here reachable
    have runs {b : Dp} (h : s.dp.rxResetAck { emberAs fr 1 0 with aux2 := 1 } = b) :
        exec (.connectionResetAck fr) s = .next (s.plane b) := (exec_connectionResetAck fr s).trans (byPod_leaves live h)
    exact ⟨fun same restarts => runs (Dp.rxResetAck_completes on here reachable same restarts),
      fun same steady => runs (Dp.rxResetAck_idle on here reachable same steady),
      fun other => runs (Dp.rxResetAck_otherEpoch on here reachable other)⟩
  case discard =>
    intro s live on
    exact ⟨(exec_frameDiscard none s).trans (byPod_leaves live (Dp.frameDiscard_none on)), fun p cls psn =>
      (exec_frameDiscard _ s).trans (byPod_leaves live (Dp.frameDiscard_some on p cls psn))⟩
  case codec =>
    rintro f b wf known rfl
    have fits := Dp.fits_of_wf wf
    have fields := Dp.culmHead_fields fits (f.payload ++ toLe 4 (Dp.crc32c (Dp.culmHead f ++ f.payload)))
    rw [← List.append_assoc] at fields
    obtain ⟨ty, -, src, dst, group, psn, msg, ofs, len, aux, aux2, aux32⟩ := fields
    exact ⟨Dp.culmRead_culmBytes fits known, Dp.length_culmBytes f, ty, src, dst, group, psn, msg, ofs, len, aux, aux2, aux32,
      Dp.culmBytes_payload f⟩

end Sys2Proof.Machine
end

section
/-!
PROOFS. Timers of connections and collectives (R361, R362, R370, R374), and ports (R350–R353, R429).
-/
namespace Sys2Proof.Machine

open State

theorem exec_ackTimer (p : Nat) (k : Fin 2) (s : State) : exec (.ackTimer p k) s = s.byPod fun d => d.ackTimer p k := rfl
theorem exec_reorderTimeout (p : Nat) (k : Fin 2) (s : State) :
    exec (.reorderTimeout p k) s = s.byPod fun d => d.reorderTimeout p k := rfl
theorem exec_retxTimeout (p : Nat) (k : Fin 2) (s : State) :
    exec (.retxTimeout p k) s = s.byPod fun d => (d.retxTimeout p k).progressPod := rfl
theorem exec_deadlineExpiry (id : Nat) (s : State) :
    exec (.deadlineExpiry id) s = s.byUnit fun d => (d.deadlineExpiry id).progressPod := rfl
theorem exec_peerTimeout (id : Nat) (s : State) : exec (.peerTimeout id) s = s.byUnit fun d => d.peerTimeout id := rfl
theorem exec_stragglerTimeout (id r : Nat) (s : State) :
    exec (.stragglerTimeout id r) s = s.byUnit fun d => d.stragglerTimeout id r := rfl
theorem exec_pfcPause (q : Fin 8) (on : Bool) (s : State) : exec (.pfcPause q on) s = s.byPod fun d => d.pfcPause q on := rfl
theorem exec_portUp (q : Fin 8) (s : State) : exec (.portUp q) s = s.byPod fun d => (d.portUp q).progressPod := rfl
theorem exec_preemptionVerified (q : Fin 8) (s : State) :
    exec (.preemptionVerified q) s = s.byPod fun d => d.preemptVerified q := rfl
theorem exec_laneTrainingFail (lane : Fin 32) (s : State) :
    exec (.laneTrainingFail lane) s = s.byPod fun d => (d.laneTrainingFail lane).progressPod := rfl
theorem exec_ptpMessage (ofs : Int) (s : State) : exec (.ptpMessage ofs) s = s.byPod fun d => d.ptpMessage ofs := rfl

namespace Dp

variable {d : Dp} {p k : Nat}

/-! ### Timers of a connection (R361, R362) -/

section Unreachable

variable (down : (d.peer p).down = true)
include down

/-- No acknowledgement is sent to an unreachable peer. -/
theorem ackTimer_down : d.ackTimer p k = d := by
  simp only [ackTimer, down, Bool.or_true, if_true]

/-- No NAK either. -/
theorem reorderTimeout_down : d.reorderTimeout p k = d := by
  simp only [reorderTimeout, down, Bool.or_true, if_true]

/-- No frame again. -/
theorem retxTimeout_down : d.retxTimeout p k = d := if_pos down

end Unreachable

section Reachable

variable (reachable : (d.peer p).down = false)
include reachable

/-- An accepted frame that is not acknowledged yet is, after 1 µs. -/
theorem ackTimer_fresh (fresh : (d.conn p k).fresh ≠ 0) : d.ackTimer p k = d.sendAck p k := by
  simp only [ackTimer, reachable, fresh, decide_false, Bool.or_self, Bool.false_eq_true, if_false]

/-- A PSN that stays missing in front of others is NAKed. -/
theorem reorderTimeout_missing (ahead : (d.conn p k).have_ ≠ []) :
    d.reorderTimeout p k = d.sendNak p k (d.conn p k).expect := by
  simp only [reorderTimeout, reachable, List.isEmpty_eq_false_iff.mpr ahead, Bool.or_self, Bool.false_eq_true, if_false]

/-- A restart repeats its NAK. -/
theorem retxTimeout_restarts (restarts : (d.peer p).resetting = true) : d.retxTimeout p k =
    (d.control p { ty := 2, ember := true, epoch := (d.conn p 0).epoch, aux2 := 1 }).bump (Reg.lnkCnt 3) := by
  simp only [retxTimeout, reachable, restarts, Bool.false_eq_true, if_false, if_true]
  rfl

/-- The oldest frame without an acknowledgement is sent again. -/
theorem retxTimeout_oldest {t : TxFrame} {l : List TxFrame} (steady : (d.peer p).resetting = false)
    (oldest : (d.conn p k).unacked = t :: l) : d.retxTimeout p k = d.resend p k t.frame.psn := by
  simp only [retxTimeout, reachable, steady, oldest, Bool.false_eq_true, if_false]

end Reachable

/-! ### Timers of a collective (R370, R374) -/

section Collectives

variable {id r : Nat} {c : Coll} (reduces : c.op = 0x48) (kind : c.kind ≤ 1)
include reduces kind

/-- The deadline of a REDUCE that its coordinator has not fixed fixes the members. -/
theorem deadlineExpiry_fixes (named : d.collById id = some c) (own : c.rank = c.coord) (open_ : c.fixed = false)
    (timed : (parseRed c.o.bytes).deadline ≠ 0) :
    d.deadlineExpiry id = ((d.modColl c.uid fun c => { c with expired := true }).tryFix c.uid).progress := by
  simp only [deadlineExpiry, named, reduces, kind, own, open_, timed, ne_eq, not_false_eq_true, decide_true, Bool.not_false,
    Bool.and_self, if_true]

/-- A silent coordinator ends a member's REDUCE. -/
theorem peerTimeout_ends (named : d.collById id = some c) (other : c.rank ≠ c.coord) (open_ : c.fixed = false) :
    d.peerTimeout id = d.endColl c.uid { status := stTimeout } := by
  simp only [peerTimeout, named, reduces, kind, other, open_, ne_eq, not_false_eq_true, decide_true, Bool.not_false,
    Bool.and_self, if_true]

/-- A member whose READY stays out is treated as a straggler, in a REDUCE that goes on or that has ended at the coordinator. -/
theorem stragglerTimeout_member
    (found : ((d.lnk.colls.find? fun c => c.id = id && c.ended && c.rank = c.coord && r < c.size && !c.ready.contains r).orElse
      fun _ => d.collById id) = some c)
    (own : c.rank = c.coord) (closed : c.fixed = true) (member : r < c.size) (silent : c.ready.contains r = false) :
    d.stragglerTimeout id r =
      ((d.modColl c.uid fun c => { c with ready := c.ready ++ [r] }).straggler c r 0xFFFFFFFF).progress := by
  simp only [stragglerTimeout, found, reduces, kind, own, closed, member, silent, decide_true, Bool.not_false, Bool.and_self,
    if_true]

end Collectives

/-! ### What an acknowledgement tells (R361) -/

/-- A frame to a reachable peer with a way goes out on its port. -/
theorem control_sends {q : Nat} {f : Culm} (reachable : (d.peer p).down = false) (way : d.route p f.group 1 = some q) :
    d.control p f = d.emit q { f with src := d.me, dst := p, ember := true } := by
  simp only [control, reachable, Bool.false_eq_true, if_false, way]

/-- The selective bitmap of a connection: bit i says whether the PSN i after the cumulative one's successor has arrived. -/
def ackBits (c : Conn) : Nat :=
  (List.range 256).foldl (fun a i => if c.have_.contains ((c.expect + i) % 2 ^ 32) then a + 2 ^ i else a) 0

theorem testBit_ackBits (c : Conn) {i : Nat} (low : i < 256) :
    (leAt (toLe 32 (ackBits c)) 0 32).testBit i = c.have_.contains ((c.expect + i) % 2 ^ 32) := by
  obtain ⟨small, bits⟩ := fold_bits (fun i => c.have_.contains ((c.expect + i) % 2 ^ 32)) 256
  have fits : ackBits c < 256 ^ 32 := Nat.lt_of_lt_of_eq small (by decide)
  rw [leAt_toLe, Nat.mod_eq_of_lt fits]
  exact (bits i).trans (by rw [decide_eq_true low, Bool.true_and])

/-! ### Ports (R350–R353) -/

section Ports

variable {q : Nat}

/-- PFC pauses a port, and counts. -/
theorem pfcPause_on (enabled : (d.reg Reg.lnkCtl).bit 4 = true) :
    d.pfcPause q true = (d.setPort q { d.port q with paused := true }).bump (Reg.lnkCnt 7) := by
  simp only [pfcPause, enabled, Bool.not_true, Bool.false_eq_true, if_false, if_true]

/-- Its release lets the queued frames of the bulk class go. -/
theorem pfcPause_off (enabled : (d.reg Reg.lnkCtl).bit 4 = true) :
    d.pfcPause q false = (d.setPort q { d.port q with paused := false }).lnk.conns.foldl
      (fun d (k, _) => if k % 2 = 0 then d.flushQueue (k / 2) 0 else d) (d.setPort q { d.port q with paused := false }) := by
  simp only [pfcPause, enabled, Bool.not_true, Bool.false_eq_true, if_false]

/-- A port whose training ends is up at what its lanes allow. -/
theorem portUp_trained (training : (d.port q).state = 1) : d.portUp q =
    (d.setPort q { d.port q with state := d.portMode q, preempt := false, paused := false }).flushAll := by
  simp only [portUp, training, ne_eq, not_true_eq_false, if_false]

/-- Verification enables preemption on a port that is up. -/
theorem preemptVerified_up (enabled : (d.reg Reg.lnkCtl).bit 5 = true) (up : 2 ≤ (d.port q).state) :
    d.preemptVerified q = d.setPort q { d.port q with preempt := true } := by
  simp only [preemptVerified, enabled, up, decide_true, Bool.and_self, if_true]

/-- A lane whose training fails leaves its port and counts as at its threshold, where it is retired under ASH_RET_CTL bit 5
(R351, R429). -/
theorem laneTrainingFail_retires {lane : Nat} {a : Dp} (out : a = d.laneOut lane false) (serves : a.isRetired .lane lane = false)
    (counted : a.threshold .lane ≠ 0) (enabled : ((a.setEvents .lane lane []).reg Reg.ashRetCtl).bit 5 = true) :
    d.laneTrainingFail lane =
      (a.setEvents .lane lane []).retireLane lane ((a.eventsOf .lane lane).length + 1) := by
  subst out
  simp only [laneTrainingFail, serves, counted, decide_false, Bool.or_self, Bool.false_eq_true, if_false]
  exact if_pos enabled

/-- The first offset that PTP measures steps the time; later ones are left to be slewed away (R353). -/
theorem ptpMessage_measures {ofs : Int} (on : d.ptpOn = true) : d.ptpMessage ofs = { d with
    now := if d.lnk.ptpStepped then d.now else ((d.now : Int) - ofs).toNat
    lnk := { d.lnk with ptpLocked := true, ptpOffset := ofs, ptpStepped := true,
                        ptpLeft := if d.lnk.ptpStepped then ofs else d.lnk.ptpLeft } } := by
  rw [ptpMessage, on]
  cases stepped : d.lnk.ptpStepped
  · simp only [Bool.not_true, Bool.false_eq_true, if_false]
  · simp only [Bool.not_true, Bool.false_eq_true, if_false, if_true, stepped]

end Ports

end Dp

/-- Settles O38: each timer acts on a reachable peer or a collective that still waits, and the bits of an acknowledgement are those
its fold sets. -/
theorem timersAct : Obligations.TimersAct := by
  refine ⟨?connections, ?deadlines, ?stragglers, ?bits⟩
  case connections =>
    rintro s p k c live rfl
    refine ⟨fun down => ⟨?_, ?_, ?_⟩, fun reachable => ⟨fun fresh => ?_, fun ahead => ?_, fun restarts => ?_, ?_⟩⟩
    · exact (exec_ackTimer p k s).trans (byPod_leaves live (Dp.ackTimer_down down))
    · exact (exec_reorderTimeout p k s).trans (byPod_leaves live (Dp.reorderTimeout_down down))
    · exact (exec_retxTimeout p k s).trans (byPod_goesOn live (Dp.retxTimeout_down down))
    · exact (exec_ackTimer p k s).trans (byPod_leaves live (Dp.ackTimer_fresh reachable fresh))
    · exact (exec_reorderTimeout p k s).trans (byPod_leaves live (Dp.reorderTimeout_missing reachable ahead))
    · exact (exec_retxTimeout p k s).trans (byPod_goesOn live (Dp.retxTimeout_restarts reachable restarts))
    · intro t l q steady oldest few way
      have kept : (s.dp.conn p k).unacked.find? (fun x => x.frame.psn = t.frame.psn) = some t := by
        rw [oldest, List.find?_cons_of_pos (by simp)]
      exact (exec_retxTimeout p k s).trans (byPod_goesOn live ((Dp.retxTimeout_oldest reachable steady oldest).trans
        (Dp.resend_again rfl reachable kept few way)))
  case deadlines =>
    intro s id c live named reduces kind
    exact ⟨fun own open_ timed => (exec_deadlineExpiry id s).trans (byUnit_leaves live
        (congrArg Dp.progressPod (Dp.deadlineExpiry_fixes reduces kind named own open_ timed))),
      fun other open_ => (exec_peerTimeout id s).trans (byUnit_leaves live
        (Dp.peerTimeout_ends reduces kind named other open_))⟩
  case stragglers =>
    intro s id r c live found reduces kind own closed member silent
    exact (exec_stragglerTimeout id r s).trans (byUnit_leaves live
      (Dp.stragglerTimeout_member reduces kind found own closed member silent))
  case bits =>
    rintro d b p k q c rfl rfl reachable way
    exact ⟨toLe 32 (Dp.ackBits (d.conn p k)), Dp.control_sends reachable way, fun i low => Dp.testBit_ackBits _ low⟩

/-- Settles O39: PFC, the end of training, verification, a lane that fails its training and a PTP exchange each change their own
port or the time. -/
theorem portsAct : Obligations.PortsAct := by
  refine ⟨?ports, ?lanes, ?ptp⟩
  case ports =>
    rintro s q x live rfl
    exact ⟨fun enabled => ⟨(exec_pfcPause q true s).trans (byPod_leaves live (Dp.pfcPause_on enabled)),
        (exec_pfcPause q false s).trans (byPod_leaves live (Dp.pfcPause_off enabled))⟩,
      fun training => (exec_portUp q s).trans (byPod_goesOn live (Dp.portUp_trained training)),
      fun enabled up => (exec_preemptionVerified q s).trans (byPod_leaves live (Dp.preemptVerified_up enabled up))⟩
  case lanes =>
    intro s lane a live out serves counted enabled
    exact (exec_laneTrainingFail lane s).trans (byPod_goesOn live (Dp.laneTrainingFail_retires out serves counted enabled))
  case ptp =>
    intro s ofs live enabled up
    have on : s.dp.ptpOn = true := by rw [Dp.ptpOn, enabled, decide_eq_true up, Bool.and_self]
    exact (exec_ptpMessage ofs s).trans (byPod_leaves live (Dp.ptpMessage_measures on))

end Sys2Proof.Machine
end
